-- ==== Sys2Proof/Word.lean ====
section
/-! DEFINITION. Word types and the sorted association list every sparse part of the state is held in. -/

namespace Sys2Proof

/-- A byte of memory. -/
abbrev Byte := BitVec 8
/-- A 32-bit lane or warp register. -/
abbrev W32 := BitVec 32
/-- A 64-bit register, address or memory word. -/
abbrev W64 := BitVec 64
/-- The 128 bytes of one line, byte k in bits [8k+7:8k] (R6). -/
abbrev Line := BitVec 1024

/-- Sparse data by key: a list of pairs with rising keys. -/
abbrev Map (V : Type) := List (Nat × V)

namespace Map
variable {V : Type}

/-- The value held under a key, if any. -/
def find? : Map V → Nat → Option V
  | [], _ => none
  | (k, v) :: r, n => if k = n then some v else find? r n

/-- The value held under a key, or a default. -/
def get (m : Map V) (n : Nat) (d : V) : V :=
  match m.find? n with
  | some v => v
  | none => d

/-- Put a value under a key, keys rising. -/
def put : Map V → Nat → V → Map V
  | [], n, x => [(n, x)]
  | (k, v) :: r, n, x =>
    if n < k then (n, x) :: (k, v) :: r
    else if n = k then (n, x) :: r
    else (k, v) :: put r n x

/-- Remove a key. -/
def del (m : Map V) (n : Nat) : Map V := m.filter (fun e => e.1 ≠ n)

/-- Is the key held? -/
def has (m : Map V) (n : Nat) : Bool := (m.find? n).isSome

/-- Every value, in key order. -/
def vals (m : Map V) : List V := m.map (·.2)

/-- Every key, rising. -/
def keys (m : Map V) : List Nat := m.map (·.1)

/-- Change the value under a key, from a default when it is not held. -/
def upd (m : Map V) (n : Nat) (d : V) (f : V → V) : Map V := m.put n (f (m.get n d))

/-- Change every value. -/
def mapv {U : Type} (m : Map V) (f : Nat → V → U) : Map U := m.map (fun e => (e.1, f e.1 e.2))

end Map

/-- The length of an instruction word: LEN 01, 10 and 11 (R73). -/
inductive Form where
  | f64 | f96 | f128
deriving DecidableEq, Repr, Inhabited

/-- Its bytes. -/
def Form.bytes : Form → Nat
  | .f64 => 8
  | .f96 => 12
  | .f128 => 16

/-- The units that fetch Huarum words (R78). -/
inductive CodeUnit where
  | lane | spine | mseq | cseq
deriving DecidableEq, Repr, Inhabited

/-- Sequencer code, of either engine. -/
def CodeUnit.isSeq : CodeUnit → Bool
  | .mseq | .cseq => true
  | _ => false

/-- Lanes 0 to 31 (R93). -/
def lanes32 : List Nat := List.range 32

/-- The lanes of a mask, ascending. -/
def maskLanes (m : W32) : List Nat := lanes32.filter (fun l => m.getLsbD l)

/-- The mask of a list of lanes. -/
def lanesMask (ls : List Nat) : W32 := ls.foldl (fun m l => m ||| (1#32 <<< l)) 0#32

/-- A 64-bit value from its low and high 32-bit registers (R7). -/
def pair64 (lo hi : W32) : W64 := hi ++ lo

/-- Bits [31:0]. -/
def lo32 (x : W64) : W32 := x.extractLsb' 0 32
/-- Bits [63:32]. -/
def hi32 (x : W64) : W32 := x.extractLsb' 32 32

/-- A number of bytes read as one little-endian value (R6). -/
def leNat : List Byte → Nat
  | [] => 0
  | b :: r => b.toNat + 256 * leNat r

/-- The n little-endian bytes of a value (R6). -/
def leBytes : Nat → Nat → List Byte
  | 0, _ => []
  | n + 1, x => BitVec.ofNat 8 x :: leBytes n (x / 256)

/-- Bits [hi:lo] of a number. -/
def bitsN (x lo n : Nat) : Nat := (x / 2 ^ lo) % 2 ^ n

end Sys2Proof
end

