-- ==== Sys2Proof/Syntax.lean ====
section
/-! DEFINITION. The instructions: one constructor for each row of the spec's table of operations and events. -/

namespace Sys2Proof

/-- The fields of a Huarum word after LEN and OPC are read (R75, R76, R82, R83). `m` is M[14:6], and `ext` is IMM32
in bits [31:0] of a 96-bit form or the extension word of a 128-bit form. -/
structure Ops where
  form : Form := .f64
  sw : Bool := false
  ge : Bool := false
  gp : BitVec 4 := 0
  gs : Bool := false
  d : BitVec 8 := 0
  a : BitVec 8 := 0
  b : BitVec 8 := 0
  c : BitVec 8 := 0
  ds : BitVec 2 := 0
  cs : BitVec 2 := 0
  bs : BitVec 2 := 0
  m : BitVec 9 := 0
  ext : W64 := 0
deriving DecidableEq, Repr, Inhabited

/-- The sub-operation, M[14:10] (R76). -/
def Ops.sub (o : Ops) : Nat := (o.m.extractLsb' 4 5).toNat
/-- The type, M[9:6] (R81). -/
def Ops.ty (o : Ops) : Nat := (o.m.extractLsb' 0 4).toNat
/-- IMM32 (R82). -/
def Ops.imm32 (o : Ops) : W32 := o.ext.extractLsb' 0 32

/-- Every operation and event of the package. Huarum operations carry their fields; commands carry their header and
operand words (R33); events carry what names the object they act on. -/
inductive Instr where
  /-- POWER_ON (R353). -/
  | powerOn
  /-- RESET (R358). -/
  | reset
  /-- FREEZE (R358). -/
  | freeze
  /-- BOOT_VERIFY_START (R354). -/
  | bootVerifyStart
  /-- BOOT_DISCARD (R353). -/
  | bootDiscard
  /-- GET_VERSION (R355). -/
  | getVersion (req : List Byte)
  /-- GET_CAPABILITIES (R355). -/
  | getCapabilities (req : List Byte)
  /-- NEGOTIATE_ALGORITHMS (R355). -/
  | negotiateAlgorithms (req : List Byte)
  /-- GET_DIGESTS (R355). -/
  | getDigests (req : List Byte)
  /-- GET_CERTIFICATE (R355). -/
  | getCertificate (req : List Byte)
  /-- CHALLENGE (R355). -/
  | challenge (req : List Byte)
  /-- GET_MEASUREMENTS (R355). -/
  | getMeasurements (index : Nat) (req : List Byte)
  /-- TAILDB_WRITE (R30). -/
  | taildbWrite (q : BitVec 16) (v : W64)
  /-- QUEUE_ENABLE (R367). -/
  | queueEnable (q : BitVec 16)
  /-- QUEUE_DISABLE (R367). -/
  | queueDisable (q : BitVec 16)
  /-- QUEUE_CLEAR_STOP (R36). -/
  | queueClearStop (q : BitVec 16)
  /-- QUEUE_DRAIN_COMPLETE (R30). -/
  | queueDrainComplete (q : BitVec 16)
  /-- COMPLETION_QUEUE_HEAD_WRITE (R315). -/
  | completionQueueHeadWrite (q : BitVec 16) (v : W64)
  /-- END (R34). -/
  | cEnd (h : W64) (ws : List W64)
  /-- LAUNCH (R34). -/
  | cLaunch (h : W64) (ws : List W64)
  /-- LAUNCH_IND (R34). -/
  | cLaunchInd (h : W64) (ws : List W64)
  /-- WAITSEQ (R34). -/
  | cWaitseq (h : W64) (ws : List W64)
  /-- ADDSEQ (R34). -/
  | cAddseq (h : W64) (ws : List W64)
  /-- WRITE (R34). -/
  | cWrite (h : W64) (ws : List W64)
  /-- LOOP (R34). -/
  | cLoop (h : W64) (ws : List W64)
  /-- ENDLOOP (R34). -/
  | cEndloop (h : W64) (ws : List W64)
  /-- IF (R34). -/
  | cIf (h : W64) (ws : List W64)
  /-- ELSE (R34). -/
  | cElse (h : W64) (ws : List W64)
  /-- ENDIF (R34). -/
  | cEndif (h : W64) (ws : List W64)
  /-- CALLSTREAM (R34). -/
  | cCallstream (h : W64) (ws : List W64)
  /-- FENCE_COMMAND (R34). -/
  | cFence (h : W64) (ws : List W64)
  /-- FENCE_COMMAND_COMPLETE (R34). -/
  | fenceCommandComplete (q : BitVec 16)
  /-- INTR (R34). -/
  | cIntr (h : W64) (ws : List W64)
  /-- LAUNCH_ADMISSION (R39). -/
  | launchAdmission
  /-- BLOCK_DISPATCH (R70). -/
  | blockDispatch (lnum : Nat)
  /-- AFFINITY_WAIT_EXPIRY (R39). -/
  | affinityWaitExpiry (lnum : Nat)
  /-- BLOCK_RETIRE (R313). -/
  | blockRetire (g slot : Nat)
  /-- LAUNCH_RETIRE (R314). -/
  | launchRetire (lnum : Nat)
  /-- TASK_RECORD_PULL (R44). -/
  | taskRecordPull (g : Nat)
  /-- WAVE_FORMATION (R45). -/
  | waveFormation (g : Nat)
  /-- WATCH_NOTIFICATION (R42). -/
  | watchNotification (die : Nat) (ctr : W64)
  /-- SEQ_POLL (R42). -/
  | seqPoll (die : Nat) (ctr : W64)
  /-- ISSUE_VOTE (R94). -/
  | issueVote (g core : Nat)
  /-- WARP_BOOST (R101). -/
  | warpBoost (g slot : Nat)
  /-- LANE_BOOST (R101). -/
  | laneBoost (g slot lane : Nat)
  /-- YIELD_EXPIRY (R113). -/
  | yieldExpiry (g slot lane : Nat)
  /-- PAUSE_EXPIRY (R113). -/
  | pauseExpiry (g slot lane : Nat)
  /-- WAIT_TIMEOUT (R301). -/
  | waitTimeout (g slot lane : Nat)
  /-- CAUSE_DELIVERY (R293). -/
  | causeDelivery (g slot : Nat)
  /-- WALK_COMPLETION (R52). -/
  | walkCompletion (i : Nat)
  /-- WIDEN (R289). -/
  | widen (i : Nat)
  /-- FQ_REPLAY (R63). -/
  | fqReplay (die : Nat) (v : W64)
  /-- FQ_DELIVER_PAGE_FAULT (R63). -/
  | fqDeliverPageFault (die : Nat) (v : W64)
  /-- FQ_DELIVER_ACCESS (R63). -/
  | fqDeliverAccess (die : Nat) (v : W64)
  /-- FQ_RESOLVE_IGNORED (R63). -/
  | fqResolveIgnored (die : Nat) (v : W64)
  /-- INVALIDATE_RANGE (R64). -/
  | invalidateRange (c : BitVec 256)
  /-- INVALIDATE_ASPACE (R64). -/
  | invalidateAspace (c : BitVec 256)
  /-- INVALIDATE_ALL (R64). -/
  | invalidateAll (c : BitVec 256)
  /-- MOVE_PAGE (R66). -/
  | movePage (c : BitVec 256)
  /-- INVALIDATION_COMPLETE (R65). -/
  | invalidationComplete (i : Nat)
  /-- MIGRATION_WINDOW (R67). -/
  | migrationWindow (stack : Nat)
  /-- MIGRATION_MOVE (R67). -/
  | migrationMove (frame die aspace : Nat) (va : W64)
  /-- SAVE (R307). -/
  | save (c : BitVec 512)
  /-- SAVE_COMPLETE (R307). -/
  | saveComplete
  /-- RESTORE (R309). -/
  | restore (c : BitVec 512)
  /-- TCOPY_COMPLETION (R227). -/
  | tcopyCompletion (g : Nat)
  /-- MMA_COMPLETION (R231). -/
  | mmaCompletion (g : Nat)
  /-- SILL_COMMAND_COMPLETION (R207). -/
  | sillCommandCompletion (i : Nat)
  /-- COLL_STEP_COMPLETION (R239). -/
  | collStepCompletion (i : Nat)
  /-- COLL_TIMEOUT (R239). -/
  | collTimeout (i : Nat)
  /-- RDS (R282). -/
  | rds (slot line : Nat)
  /-- RDX (R282). -/
  | rdx (slot line : Nat)
  /-- UPG (R282). -/
  | upg (slot line : Nat)
  /-- WBD (R282). -/
  | wbd (slot line : Nat)
  /-- CLN (R282). -/
  | cln (slot line : Nat)
  /-- HR (R282). -/
  | hr (line : Nat)
  /-- HW (R282). -/
  | hw (line : Nat)
  /-- RR (R282). -/
  | rr (line : Nat)
  /-- FWDS (R283). -/
  | fwds (slot line : Nat)
  /-- FWDX (R283). -/
  | fwdx (slot line : Nat)
  /-- FWDH (R283). -/
  | fwdh (slot line : Nat)
  /-- INV (R283). -/
  | inv (slot line : Nat)
  /-- RCL (R283). -/
  | rcl (slot line : Nat)
  /-- DATA (R284). -/
  | data (slot line : Nat)
  /-- NODATA (R281). -/
  | nodata (slot line : Nat)
  /-- ACK (R281). -/
  | ack (slot line : Nat)
  /-- CQ_APPEND (R316). -/
  | cqAppend (q : BitVec 16) (va : W64)
  /-- CQ_PORT_READ (R316). -/
  | cqPortRead (q : BitVec 16)
  /-- CQ_TIMER_NOTIFY (R318). -/
  | cqTimerNotify (q : BitVec 16)
  /-- CORRECTED_ERROR (R356). -/
  | correctedError (unit : W64)
  /-- UNCORRECTABLE_ERROR (R278). -/
  | uncorrectableError (line : Nat) (unit : W64)
  /-- FENCE_REQUEST (R356). -/
  | fenceRequest (v : W64)
  /-- TASKG_WRITE (R70). -/
  | taskgWrite (g : Nat) (v : W64)
  /-- DIE_FREQ_CHANGE (R360). -/
  | dieFreqChange (die : Nat) (v : W64)
  /-- CHECKPOINT_START (R359). -/
  | checkpointStart (v : W64)
  /-- CHECKPOINT_STREAM_RECEIVE (R359). -/
  | checkpointStreamReceive (src line : Nat) (data : Line) (poison : Bool)
  /-- REGISTER_WRITE (R305). -/
  | registerWrite (inst num : Nat) (v : W64)
  /-- TLAIN_TIMEOUT (R352). -/
  | tlainTimeout (i : Nat)
  /-- DMA_READ (R288). -/
  | dmaRead (port rid : Nat) (addr : W64) (n : Nat)
  /-- DMA_WRITE (R288). -/
  | dmaWrite (port rid : Nat) (addr : W64) (bytes : List Byte)
  /-- ATS_TRANSLATION_REQUEST (R350). -/
  | atsTranslationRequest (port rid : Nat) (addr : W64) (write : Bool)
  /-- PAGE_REQUEST (R350). -/
  | pageRequest (port rid : Nat) (addr : W64) (write : Bool)
  /-- MSI_WRITE (R347). -/
  | msiWrite (hart file : Nat) (v : W32)
  /-- NOP (R106). -/
  | nop (o : Ops)
  /-- BRA (R107). -/
  | bra (o : Ops)
  /-- BRX (R107). -/
  | brx (o : Ops)
  /-- CALL (R107). -/
  | call (o : Ops)
  /-- CALLX (R108). -/
  | callx (o : Ops)
  /-- RET (R107). -/
  | ret (o : Ops)
  /-- EXIT (R109). -/
  | exit (o : Ops)
  /-- JARM_SET (R111). -/
  | jarmSet (o : Ops)
  /-- JARM_ADD (R111). -/
  | jarmAdd (o : Ops)
  /-- JARM_CLR (R111). -/
  | jarmClr (o : Ops)
  /-- JARM_LOAD (R111). -/
  | jarmLoad (o : Ops)
  /-- REJOIN (R112). -/
  | rejoin (o : Ops)
  /-- YIELD (R113). -/
  | yield (o : Ops)
  /-- PAUSE (R113). -/
  | pause (o : Ops)
  /-- BRK (R114). -/
  | brk (o : Ops)
  /-- PLOP3 (R115). -/
  | plop3 (o : Ops)
  /-- PMOV_TOR (R116). -/
  | pmovTor (o : Ops)
  /-- PMOV_FROMR (R116). -/
  | pmovFromr (o : Ops)
  /-- VOTE (R117). -/
  | vote (o : Ops)
  /-- MATCH (R118). -/
  | match_ (o : Ops)
  /-- MOVSP (R119). -/
  | movsp (o : Ops)
  /-- IADD (R145). -/
  | iadd (o : Ops)
  /-- ISUB (R145). -/
  | isub (o : Ops)
  /-- IADD3 (R146). -/
  | iadd3 (o : Ops)
  /-- IMUL (R147). -/
  | imul (o : Ops)
  /-- IMAD (R147). -/
  | imad (o : Ops)
  /-- IDIV (R148). -/
  | idiv (o : Ops)
  /-- IMNMX (R149). -/
  | imnmx (o : Ops)
  /-- IABS (R150). -/
  | iabs (o : Ops)
  /-- INEG (R150). -/
  | ineg (o : Ops)
  /-- IDP4 (R151). -/
  | idp4 (o : Ops)
  /-- BOOL3 (R152). -/
  | bool3 (o : Ops)
  /-- SHL (R153). -/
  | shl (o : Ops)
  /-- SHR (R153). -/
  | shr (o : Ops)
  /-- SHF (R154). -/
  | shf (o : Ops)
  /-- ROT (R155). -/
  | rot (o : Ops)
  /-- POPC (R156). -/
  | popc (o : Ops)
  /-- CLZ (R156). -/
  | clz (o : Ops)
  /-- BREV (R156). -/
  | brev (o : Ops)
  /-- BFE (R157). -/
  | bfe (o : Ops)
  /-- BFI (R157). -/
  | bfi (o : Ops)
  /-- ISETP (R158). -/
  | isetp (o : Ops)
  /-- SEL (R159). -/
  | sel (o : Ops)
  /-- MOV (R160). -/
  | mov (o : Ops)
  /-- MOVI (R161). -/
  | movi (o : Ops)
  /-- LEA (R162). -/
  | lea (o : Ops)
  /-- BYSEL (R163). -/
  | bysel (o : Ops)
  /-- TLUT (R164). -/
  | tlut (o : Ops)
  /-- XLANE (R165). -/
  | xlane (o : Ops)
  /-- RDLANE (R166). -/
  | rdlane (o : Ops)
  /-- FADD (R169). -/
  | fadd (o : Ops)
  /-- FMUL (R169). -/
  | fmul (o : Ops)
  /-- FFMA (R169). -/
  | ffma (o : Ops)
  /-- FMNMX (R170). -/
  | fmnmx (o : Ops)
  /-- FSETP (R171). -/
  | fsetp (o : Ops)
  /-- FRND (R172). -/
  | frnd (o : Ops)
  /-- FDIV (R173). -/
  | fdiv (o : Ops)
  /-- FSQRT (R173). -/
  | fsqrt (o : Ops)
  /-- FRCP (R174). -/
  | frcp (o : Ops)
  /-- FRSQ (R174). -/
  | frsq (o : Ops)
  /-- FEX2 (R174). -/
  | fex2 (o : Ops)
  /-- FLG2 (R174). -/
  | flg2 (o : Ops)
  /-- FSIN (R174). -/
  | fsin (o : Ops)
  /-- FCOS (R174). -/
  | fcos (o : Ops)
  /-- FCLASS (R176). -/
  | fclass (o : Ops)
  /-- HDOT2 (R177). -/
  | hdot2 (o : Ops)
  /-- F2F (R179). -/
  | f2f (o : Ops)
  /-- F2I (R180). -/
  | f2i (o : Ops)
  /-- I2F (R181). -/
  | i2f (o : Ops)
  /-- CVQ (R183). -/
  | cvq (o : Ops)
  /-- CVD (R184). -/
  | cvd (o : Ops)
  /-- AMAX (R185). -/
  | amax (o : Ops)
  /-- SAMPLE (R186). -/
  | sample (o : Ops)
  /-- ACTLD (R187). -/
  | actld (o : Ops)
  /-- ACTSWAP (R188). -/
  | actswap (o : Ops)
  /-- ACT (R189). -/
  | act (o : Ops)
  /-- RNG (R190). -/
  | rng (o : Ops)
  /-- LD (R201). -/
  | ld (o : Ops)
  /-- ST (R201). -/
  | st (o : Ops)
  /-- LDS (R202). -/
  | lds (o : Ops)
  /-- STS (R202). -/
  | sts (o : Ops)
  /-- LDW (R203). -/
  | ldw (o : Ops)
  /-- LDMX (R204). -/
  | ldmx (o : Ops)
  /-- STMX (R204). -/
  | stmx (o : Ops)
  /-- PREF (R205). -/
  | pref (o : Ops)
  /-- CMAINT_CLEAN (R206). -/
  | cmaintClean (o : Ops)
  /-- CMAINT_CLINV (R206). -/
  | cmaintClinv (o : Ops)
  /-- MSROW_COPY (R209). -/
  | msrowCopy (o : Ops)
  /-- MSROW_ZERO (R209). -/
  | msrowZero (o : Ops)
  /-- MSBANK (R211). -/
  | msbank (o : Ops)
  /-- FORK (R215). -/
  | fork (o : Ops)
  /-- RDV (R216). -/
  | rdv (o : Ops)
  /-- TCOPY (R226). -/
  | tcopy (o : Ops)
  /-- MMA (R231). -/
  | mma (o : Ops)
  /-- ACCOP_ALLOC (R233). -/
  | accopAlloc (o : Ops)
  /-- ACCOP_ZERO (R233). -/
  | accopZero (o : Ops)
  /-- ACCOP_FREE (R233). -/
  | accopFree (o : Ops)
  /-- ACCRD (R234). -/
  | accrd (o : Ops)
  /-- ACCWR (R235). -/
  | accwr (o : Ops)
  /-- COLL (R237). -/
  | coll (o : Ops)
  /-- ATOM (R259). -/
  | atom (o : Ops)
  /-- ATOMS (R259). -/
  | atoms (o : Ops)
  /-- RED (R259). -/
  | red (o : Ops)
  /-- LR (R261). -/
  | lr (o : Ops)
  /-- SC (R261). -/
  | sc (o : Ops)
  /-- FENCE (R262). -/
  | fence (o : Ops)
  /-- FENCER (R262). -/
  | fencer (o : Ops)
  /-- BAR_ARRIVE (R264). -/
  | barArrive (o : Ops)
  /-- BAR_WAIT (R265). -/
  | barWait (o : Ops)
  /-- BAR_SYNC (R265). -/
  | barSync (o : Ops)
  /-- BAR_DROP (R264). -/
  | barDrop (o : Ops)
  /-- BAR_REMOTE (R266). -/
  | barRemote (o : Ops)
  /-- SEQWAIT (R267). -/
  | seqwait (o : Ops)
  /-- SEQWAIT_TRY (R267). -/
  | seqwaitTry (o : Ops)
  /-- SEQADD (R267). -/
  | seqadd (o : Ops)
  /-- PEGW (R270). -/
  | pegw (o : Ops)
  /-- PEGW_G (R272). -/
  | pegwG (o : Ops)
  /-- PEGR (R274). -/
  | pegr (o : Ops)
  /-- PEGCTL_ARM (R271). -/
  | pegctlArm (o : Ops)
  /-- PEGCTL_CLEAR (R271). -/
  | pegctlClear (o : Ops)
  /-- PEGCTL_DISARM (R271). -/
  | pegctlDisarm (o : Ops)
  /-- REDW (R273). -/
  | redw (o : Ops)
  /-- QPUSH_RSV (R275). -/
  | qpushRsv (o : Ops)
  /-- QPUSH_CMT (R275). -/
  | qpushCmt (o : Ops)
  /-- QPUSH_RSV_TRY (R275). -/
  | qpushRsvTry (o : Ops)
  /-- QPOP (R275). -/
  | qpop (o : Ops)
  /-- QPOP_RET (R275). -/
  | qpopRet (o : Ops)
  /-- QPOP_TRY (R275). -/
  | qpopTry (o : Ops)
  /-- SPAWN (R46). -/
  | spawn (o : Ops)
  /-- TRAP (R298). -/
  | trap (o : Ops)
  /-- ERET (R299). -/
  | eret (o : Ops)
  /-- CTLR (R300). -/
  | ctlr (o : Ops)
  /-- CTLW (R300). -/
  | ctlw (o : Ops)
  /-- PENDING_RESULT_READY (R97). -/
  | pendingResultReady (g slot i : Nat)
  /-- UNDEFINED_OP (R34). -/
  | undefinedOp (h : W64) (ws : List W64)
  /-- RESERVED_MAJOR (R87). -/
  | reservedMajor (w : W64)
  /-- REFUSED_TRANSLATION_COMMAND (R64). -/
  | refusedTranslationCommand (c : BitVec 256)
  /-- REFUSED_PREEMPTION_COMMAND (R306). -/
  | refusedPreemptionCommand (c : BitVec 512)
  /-- POWER_OFF (R360). -/
  | powerOff
  /-- POWER_LIMIT (R360). -/
  | powerLimit
  /-- LINK_TRAINING (R349). -/
  | linkTraining (port width gts : Nat)
  /-- FLIT_REPLAY (R351). -/
  | flitReplay (port : Nat)
deriving DecidableEq, Repr, Inhabited

end Sys2Proof
end

