-- ==== Sys2Proof/Config.lean ====
section
/-! DEFINITION. What the spec leaves open: free values with no body, indexed by the step that uses them. -/

namespace Sys2Proof.Config

/-- Cycles of a die's arithmetic clock that pass before a step (die, step): R119 gives no rate to a step (log 3). -/
opaque elapsedCycles : Nat → Nat → Nat
/-- Nanoseconds of package time that pass before a step (log 3). -/
opaque elapsedNs : Nat → Nat
/-- A free byte of a scratchpad share at dispatch: R69 gives it no defined value (step, offset) (log 7). -/
opaque scratchByte : Nat → Nat → Byte
/-- The bits of an approximation before they are held to the bounds of R174 (major, operand, FTZ) (log 8). -/
opaque approx : Nat → W32 → Bool → Int
/-- Whether another package answers a request in time (step, line) (R352, log 11). -/
opaque remoteReply : Nat → Nat → Bool
/-- What another package answers to a read of a line (step, line) (log 11). -/
opaque remoteLine : Nat → Nat → Line
/-- What a word of stack 15 reads as where the spec names no register (step, address) (log 24). -/
opaque ioWord : Nat → Nat → W64
/-- CHECK of a line's data and sideband bits [31:0]; and what the decoder makes of a line with errors in three symbols or more:
data and sideband bits [31:0], or none when it finds an error (R278, log 18). -/
opaque checkBits : Line → BitVec 32 → BitVec 96
opaque decodeLine : Line → BitVec 128 → Option (Line × BitVec 32)
/-- A line of code of another package, or that another package holds dirty, as a launch fetches it: the same through the launch
(launch, line) (R74, log 11). -/
opaque remoteCode : Nat → Nat → Line
/-- Which of the ports that serve a package a line's requests take (line) (R352, log 11). -/
opaque tlainPort : Nat → Nat
/-- Whether another package grants a line that is read to this one alone (step, line) (R282, log 11). -/
opaque remoteAlone : Nat → Nat → Bool
/-- The line that an L1 or an L2 set gives up when it is full (step, line that comes) (R191, log 77). -/
opaque victim : Nat → Nat → Nat
/-- Whether a link slower than 128 GT/s runs in flit mode (step, port) (R349, log 22). -/
opaque flitMode : Nat → Nat → Bool
/-- The contribution of another participant to a collective step (step, rank, element) (log 11). -/
opaque remoteElement : Nat → Nat → Nat → W32
/-- The SHAKE256 digest of some bytes, 64 bytes (log 9). -/
opaque shake512 : List Byte → List Byte
/-- The SHAKE256 digest of some bytes, 32 bytes (log 9). -/
opaque shake256 : List Byte → List Byte
/-- Whether a Falcon-1024 signature verifies (key, digest, signature) (log 9). -/
opaque falconVerifies : List Byte → List Byte → List Byte → Bool
/-- The four fused key hashes of 32 bytes, and their revoke fuses (R354, log 9). -/
opaque fuseHash : Nat → List Byte
opaque fuseRevoked : Nat → Bool
/-- The command processors and stacks that respond at boot, and the stacks that train (step) (R354, log 9). -/
opaque cpResponds : Nat → BitVec 16
opaque hbmResponds : Nat → BitVec 12
opaque hbmTrains : Nat → BitVec 12
/-- An SPDM answer whose contents R355 leaves to SPDM (request code, step) (log 10). -/
opaque spdmAnswer : Nat → Nat → List Byte

/-- The cause in the entry of a record retired for a poisoned counter, which R44 and R320 do not name (step). -/
opaque taskCause : Nat → Byte
/-- An ADDR or INFO field whose value the rules do not give (step, which). -/
opaque openInfo : Nat → Nat → W64

/-- A byte of a section of a save area whose arrangement belongs to the device (step, offset) (R308, log 23). -/
opaque privateByte : Nat → Nat → Byte

/-- Which unit of the package acts next (R93, R100, R101; log 2). An operation or event of the table, or a unit that
fetches its own instruction or command. -/
inductive Turn where
  /-- An operation or event whose operands the turn gives. -/
  | op (i : Instr)
  /-- The spine core of a cluster serves its next ready context (R101). -/
  | spine (g : Nat)
  /-- The matrix sequencer (0) or the copy sequencer (1) of a cluster issues (R214). -/
  | seq (g : Nat) (which : Nat)
  /-- A command processor serves the next of its queues (R33). -/
  | cmd (p : Nat)
  /-- The translation agent takes its next command (R64). -/
  | xl
  /-- The pre-emption agent takes its next command (R303). -/
  | pm
  /-- The parties of a block that is to be saved stop (R307). -/
  | pmStop (g b : Nat)
  /-- An L1 gives up a line (R191). -/
  | evictL1 (g line : Nat)
  /-- An agent gives up a line (R281). -/
  | evictAgent (slot line : Nat)
  /-- A line of a CMAINT under way is brought into its state: its place among those that are (R206). -/
  | maint (i : Nat)
  /-- An application core writes satp (R68). -/
  | hostSatp (h : Nat) (v : W64)
  /-- An application core loads, or fetches an instruction, in user mode or not (R68, R287). -/
  | hostLoad (h : Nat) (user : Bool) (va : W64) (n : Nat)
  | hostFetch (h : Nat) (user : Bool) (va : W64) (n : Nat)
  /-- An application core stores (R68, R287). -/
  | hostStore (h : Nat) (user : Bool) (va : W64) (bytes : List Byte)
  /-- An application core cleans a line, or flushes it (R287). -/
  | hostMaint (h : Nat) (user : Bool) (va : W64) (inv : Bool)
  /-- AMO, LR and SC of an application core: operation, address, bytes, value (R255). -/
  | hostAmo (h : Nat) (user : Bool) (op : Nat) (va : W64) (n : Nat) (x : W64)
  | hostLr (h : Nat) (user : Bool) (va : W64) (n : Nat)
  | hostSc (h : Nat) (user : Bool) (va : W64) (n : Nat) (x : W64)
  /-- FENCE of an application core (R255). -/
  | hostFence (h : Nat)
  /-- SFENCE.VMA of an application core: an address, an ASID (R68). -/
  | hostSfence (h : Nat) (va : Option W64) (asid : Option Nat)
  /-- A root port is split into links, and its IDE is set up (R349). -/
  | bifurcate (port n : Nat)
  | linkIde (port : Nat) (on : Bool)
  | ideStream (port k : Nat) (on : Bool)
  /-- DRAM comes to hold an error in a line: its sideband and its data as they then stand (R278). -/
  | upset (line : Nat) (side : BitVec 128) (data : Line)
  /-- An application core or the management port loads from stack 15 (R49, R305). -/
  | ioLoad (off n : Nat)
  /-- An application core or the management port stores to stack 15 (R49, R305). -/
  | ioStore (off n : Nat) (v : W64)
  /-- The management controller reads QSTAT of a queue (R30). -/
  | doorbellLoad (q : BitVec 16)
  /-- The management controller reads the boot window (R353). -/
  | bootLoad (off n : Nat)
  /-- The management controller writes the doorbell window (R30): queue, register 0 or 8, value. -/
  | doorbell (q : BitVec 16) (reg : Nat) (v : W64)
  /-- The board management controller writes bytes into STAGE (R353). -/
  | stage (off : Nat) (bytes : List Byte)
  /-- The board management controller writes BOOTLEN (R353). -/
  | bootLen (v : W64)
deriving DecidableEq, Repr, Inhabited

/-- The unit that acts at a step whose agenda is empty (log 2). -/
opaque nextTurn : Nat → Turn

end Sys2Proof.Config
end

