-- ==== Sys2Proof/WellFormed.lean ====
section
/-! DEFINITION. Which fields each Huarum operation admits (R86, R105, R144, R168, R196, R256 and the other field tables),
and the checks of steps 2 to 5 of R87. -/

namespace Sys2Proof

/-- What an operand field holds. -/
inductive Slot where
  /-- Unused: the field is zero (R75). -/
  | zero
  /-- Registers: n aligned to al in lane code, ns aligned to as in spine and sequencer code (R79). -/
  | reg (n al ns as : Nat)
  /-- A predicate index in bits [3:0], bits [7:4] zero (R78). -/
  | pred
  /-- A predicate index in bits [3:0] and its negation in bit 4 (R158). -/
  | pneg
  /-- A field whose own entry gives the check. -/
  | any
deriving DecidableEq, Repr, Inhabited

/-- A 32-bit operand. -/
abbrev r32 : Slot := .reg 1 1 1 1
/-- A 64-bit operand: an even pair in lane code, one register elsewhere (R79, R143). -/
abbrev r64 : Slot := .reg 2 2 1 1
/-- A 128-bit operand (R197, R258). -/
abbrev r128 : Slot := .reg 4 4 2 2
/-- A run of n registers aligned to n. -/
abbrev run (n : Nat) : Slot := .reg n n n n

/-- What an operation's entry says of its fields in the code of one unit. -/
structure Info where
  /-- The major opcode (R86). -/
  opc : Nat := 0
  /-- The forms admitted (R86). -/
  forms : List Form := [.f64]
  /-- Marked P: may be half of a pair (R86). -/
  pair : Bool := false
  /-- Marked U: admits a uniform destination (R86). -/
  uni : Bool := false
  /-- The units that may execute it (R86). -/
  units : List CodeUnit := [.lane, .spine]
  /-- Field A names a w register in lane code whatever the D space. -/
  aw : Bool := false
  /-- D is read as well as written. -/
  dr : Bool := false
  /-- D is a source, not a destination. -/
  dsrc : Bool := false
  d : Slot := .zero
  a : Slot := .zero
  b : Slot := .zero
  c : Slot := .zero
  dsp : List Nat := [0]
  bsp : List Nat := [0]
  csp : List Nat := [0]
  /-- The entry states a use of IMM32 of its own (R80). -/
  immOwn : Bool := false
  /-- The checks on SUB, TY and the other field values of the entry. -/
  ok : Bool := true

/-- B or C spaces 00, 01, 10 and 11. -/
def anySp : List Nat := [0, 1, 2, 3]
/-- Registers and immediates. -/
def riSp : List Nat := [0, 1, 3]
def ls : List CodeUnit := [.lane, .spine]
def lsq : List CodeUnit := [.lane, .spine, .mseq, .cseq]

/-- Types whose elements are 64 bits wide (R81). -/
def wideTy (t : Nat) : Bool := t = 2 || t = 3 || t = 7
/-- The operand of a type. -/
def tySlot (t : Nat) : Slot := if wideTy t then r64 else r32

/-- Elements of a type in one operand (R123, R178). -/
def tyCount (t : Nat) : Nat :=
  if t = 5 || t = 6 || t = 10 || t = 11 then 2
  else if t = 8 || t = 9 || t = 12 || t = 13 then 4 else 1

/-- A rounding field of SUB[2:0] with SUB[3] FTZ: f64 is never flushed (R135). -/
def rmFtzOk (o : Ops) (tys : List Nat) : Bool :=
  decide (o.sub % 8 ≤ 3) && tys.contains o.ty && !(o.sub / 8 % 2 = 1 && o.ty = 7)

/-- The registers of a memory operand of size code SUB[2:0] (R197). -/
def sizeSlot (sz : Nat) : Slot := if sz ≤ 4 then r32 else if sz = 5 then r64 else r128

/-- The status or mask operand of EXIT and PMOV: an immediate in B and C, or a register with C zero (R110, R116). -/
def immOrReg (o : Ops) (i : Info) : Info :=
  if o.bs = 3 then { i with b := .any, bsp := [3], c := .any, csp := [3] }
  else { i with b := r32, bsp := [0, 1], c := .zero, csp := [0] }

def intTys : List Nat := [0, 1, 2, 3]
def packTys : List Nat := [0, 1, 2, 3, 8, 9, 10, 11]
def fTys : List Nat := [4, 5, 6, 7]
def f3 : List Form := [.f64, .f96]

/-- The types and forms of an atomic of SUB 0 to 11 (R258). -/
def atomOk (o : Ops) : Bool :=
  if o.sub ≤ 2 then intTys.contains o.ty
  else if o.sub ≤ 7 then [0, 2].contains o.ty
  else if o.sub = 8 then o.ty = 2
  else o.sub ≤ 11 && fTys.contains o.ty

/-- An ordering byte in IMM32, used by the 96-bit form alone, which admits no immediate operand (R257). -/
def atomForm (o : Ops) : Bool :=
  match o.form with
  | .f96 => decide (o.bs ≠ 3) && decide (o.ext.toNat < 32)
  | _ => true

/-- The conversion control byte of R178: source type, selector, and the selector's range. -/
def cvtOk (o : Ops) (dst src : List Nat) : Bool :=
  let st := o.c.toNat % 16
  let sel := o.c.toNat / 16
  let ns := tyCount st
  let nd := tyCount o.ty
  dst.contains o.ty && src.contains st && decide (o.sub % 8 ≤ 3)
    && decide (sel < max ns nd / min ns nd)

/-- F2F pairs that widen: exact conversions (R179). -/
def widens (st dt : Nat) : Bool :=
  (st = 4 && dt = 7) || ((st = 5 || st = 6) && (dt = 4 || dt = 7))
    || ((st = 12 || st = 13) && (dt = 4 || dt = 5 || dt = 6 || dt = 7))

/-- Types FTZ may act on (R135). -/
def ftzTy (t : Nat) : Bool := t = 4 || t = 5 || t = 6

/-- Elements of a CVQ or CVD format, 0 for a reserved one (R182). -/
def dfCount (df : Nat) : Nat :=
  if df ≤ 3 || df = 5 then 4 else if df = 4 || df = 8 then 8 else if df = 6 || df = 7 then 2 else 0

/-- The group operands of ACCOP.ALLOC: n, CB and the unused indices (R233). -/
def allocOk (e : W64) : Bool :=
  let x := e.toNat
  let n := x % 8
  decide (2 ≤ n) && decide (n ≤ 6) && decide (1 ≤ bitsN x 3 5) && decide (bitsN x 3 5 ≤ 16)
    && decide (x / 2 ^ (8 + 8 * n) = 0)

/-- The type pairs of R230. -/
def mmaPair (ta tb : Nat) : Bool :=
  (ta = tb && ta ≤ 5) || (ta = 2 && tb = 3) || (ta = 3 && tb = 2)
    || (ta ≤ 1 && 2 ≤ tb && tb ≤ 5) || (tb ≤ 1 && 2 ≤ ta && ta ≤ 5)
    || ((ta = 2 || ta = 3) && tb = 5) || ((tb = 2 || tb = 3) && ta = 5)

/-- The extension word of MMA (R229, R230). -/
def mmaOk (o : Ops) : Bool :=
  let x := o.ext.toNat
  let ta := bitsN x 26 4
  let tb := bitsN x 30 4
  decide (o.sub ≤ 1) && o.ty = 0 && decide (x / 2 ^ 37 = 0) && decide (bitsN x 18 2 ≠ 3)
    && mmaPair ta tb && decide (bitsN x 0 5 ≠ bitsN x 5 5)
    && (o.sub = 0 || (ta = 4 && tb = 4 && bitsN x 35 1 = 0))

/-- Control registers that CTLR may read (R305, R318, R346, R360). -/
def ctlReadable (n : Nat) : Bool :=
  n = 0 || n = 1 || (8 ≤ n && n ≤ 15) || n = 0x100 || n = 0x101 || n = 0x113 || n = 0x115
    || n = 0x11B || n = 0x11C || n = 0x147 || n = 0x148 || n = 0x149 || n = 0x14A || n = 0x200
    || (0x12B ≤ n && n ≤ 0x12E)

/-- Control registers that exist (R305, R318, R346, R350, R352, R356, R357, R359, R360). -/
def ctlDefined (n : Nat) : Bool :=
  n = 0 || n = 1 || (8 ≤ n && n ≤ 15) || (0x100 ≤ n && n ≤ 0x105) || (0x108 ≤ n && n ≤ 0x11F)
    || (0x120 ≤ n && n ≤ 0x13C && n ≠ 0x138) || (0x140 ≤ n && n ≤ 0x14A) || n = 0x200
    || (0x280 ≤ n && n ≤ 0x2FF) || (0x400 ≤ n && n ≤ 0x4FF)

/-- Control registers that CTLW may write (R305). -/
def ctlWritable (n : Nat) : Bool := n = 0 || n = 1 || (8 ≤ n && n ≤ 15)

/-- The control register number of CTLR and CTLW (R300). -/
def ctlNumber (o : Ops) : Nat := o.c.toNat * 256 + o.b.toNat

/-- A BAR's SUB and group field: IDX 0 is for lane code and a slot (R263). -/
def barInfo (u : CodeUnit) (o : Ops) (sub : Nat) : Info :=
  { opc := 0x67, a := .any, b := if sub = 4 then r64 else .zero, bsp := if sub = 4 then [0, 1] else [0]
    ok := o.ty = 0 && o.sub % 8 = sub && decide (o.sub < 16)
      && (o.sub / 8 = 1 || (u = .lane && sub ≠ 4 && decide (o.a.toNat < 4))) }

/-- The ring operand of QPUSH and QPOP (R256, R275). -/
def ringInfo (u : CodeUnit) (o : Ops) (opc sub : Nat) : Info :=
  { opc := opc, units := lsq, d := if sub = 1 then .zero else r32
    b := if o.bs = 3 then .any else r32
    bsp := if u = .lane then [1, 3] else [0, 3], c := if sub = 2 then .pred else .zero
    ok := o.ty = 0 && o.sub = sub && (o.bs ≠ 3 || decide (o.b.toNat ≤ 31)) }

/-- Two-source integer or float arithmetic shape. -/
def alu2 (o : Ops) (opc : Nat) (tys : List Nat) (subOk : Bool) : Info :=
  { opc := opc, forms := f3, pair := true, uni := true, d := tySlot o.ty, a := tySlot o.ty, b := tySlot o.ty
    dsp := [0, 1], bsp := anySp, ok := tys.contains o.ty && subOk }

/-- One-source arithmetic shape. -/
def alu1 (o : Ops) (opc : Nat) (tys : List Nat) (d : Slot) (subOk : Bool) : Info :=
  { opc := opc, pair := true, uni := true, d := d, a := tySlot o.ty, dsp := [0, 1]
    ok := tys.contains o.ty && subOk }

/-- Float arithmetic shape (R168). -/
def fp2 (o : Ops) (opc : Nat) (ok : Bool) : Info :=
  { opc := opc, forms := f3, pair := true, d := tySlot o.ty, a := tySlot o.ty, b := tySlot o.ty, bsp := anySp, ok := ok }

/-- One of the six approximations (R174). -/
def apx (o : Ops) (opc : Nat) : Info :=
  { opc := opc, d := r32, a := r32, ok := o.ty = 4 && (o.sub = 0 || o.sub = 8) }

/-- A memory access of R196. -/
def memI (opc : Nat) (ok : Bool) : Info :=
  { opc := opc, forms := f3, a := r64, b := r32, bsp := riSp, ok := ok }

/-- What each entry says of its fields; none for an operation that no Huarum word encodes. -/
def info (u : CodeUnit) : Instr → Option Info
  | .nop o => some { opc := 0x01, units := lsq, ok := decide (o.m.toNat ≤ 32) }
  | .bra o => some { opc := 0x02, forms := [.f96], units := lsq, immOwn := true
                     ok := o.m = 0 && decide (o.ext.toNat < 2 ^ 32) && decide (o.ext.toNat % 4 = 0) }
  | .brx o => some { opc := 0x03, units := lsq, a := r64, ok := o.m = 0 }
  | .call o => some { opc := 0x04, forms := [.f96], d := r64, immOwn := true
                      ok := o.m = 0 && decide (o.ext.toNat < 2 ^ 32) && decide (o.ext.toNat % 4 = 0) }
  | .callx o => some { opc := 0x05, d := r64, a := r64, ok := o.m = 0 }
  | .ret o => some { opc := 0x06, a := r64, ok := o.m = 0 }
  | .exit o => some (immOrReg o { opc := 0x07, units := lsq, ok := o.m = 0 })
  | .jarmSet o => some { opc := 0x08, units := [.lane], d := .any, ok := o.ty = 0 && o.sub = 0 && decide (o.d.toNat < 4) }
  | .jarmAdd o => some { opc := 0x08, units := [.lane], d := .any, ok := o.ty = 0 && o.sub = 1 && decide (o.d.toNat < 4) }
  | .jarmClr o => some { opc := 0x08, units := [.lane], d := .any, ok := o.ty = 0 && o.sub = 2 && decide (o.d.toNat < 4) }
  | .jarmLoad o => some { opc := 0x08, units := [.lane], d := .any, b := r32, bsp := [1]
                          ok := o.ty = 0 && o.sub = 3 && decide (o.d.toNat < 4) }
  | .rejoin o => some { opc := 0x09, units := [.lane], a := .any, ok := o.m = 0 && decide (o.a.toNat < 4) }
  | .yield o => some { opc := 0x0A, ok := o.m = 0 }
  | .plop3 o => some { opc := 0x0B, d := .pred, dsp := [2], a := .pred, b := .pred, c := .pred
                       ok := o.m.extractLsb' 0 1 = 0 }
  | .pmovTor o => some { opc := 0x0C, d := r32, ok := o.ty = 0 && o.sub = 0 }
  | .pmovFromr o => some (immOrReg o { opc := 0x0C, a := r32, ok := o.ty = 0 && o.sub = 1 })
  | .vote o => some { opc := 0x0D, units := [.lane], a := .any, d := if o.sub = 3 then r32 else .pred
                      dsp := if o.sub = 3 then [0] else [2]
                      ok := o.ty = 0 && decide (o.sub ≤ 3) && decide (o.a.toNat < 32) }
  | .match_ o => some { opc := 0x0E, units := [.lane], d := r32, a := tySlot o.ty
                        ok := (o.ty = 0 || o.ty = 2) && decide (o.sub ≤ 1) }
  | .brk o => some { opc := 0x0F, b := .any, bsp := [3], ok := o.m = 0 }
  | .movsp o => some { opc := 0x26, uni := true, dsp := [0, 1], b := .any
                       d := if o.b = 15 || o.b = 16 then r64 else r32
                       ok := o.m = 0 && decide (o.b.toNat ≤ 18)
                         && (u = .lane || (decide (6 ≤ o.b.toNat) && o.b ≠ 17)) }
  | .pause o => some { opc := 0x7D, units := lsq, b := .any, bsp := [3], ok := o.m = 0 }
  | .iadd o => some { alu2 o 0x10 packTys (decide (o.sub ≤ 1)) with units := lsq }
  | .isub o => some { alu2 o 0x11 packTys (decide (o.sub ≤ 1)) with units := lsq }
  | .iadd3 o => some { alu2 o 0x12 intTys (o.sub = 0) with c := tySlot o.ty, csp := anySp }
  | .imul o => some { alu2 o 0x13 intTys (decide (o.sub ≤ 2) && !(o.sub = 2 && wideTy o.ty)) with
                      d := if o.sub = 2 then r64 else tySlot o.ty }
  | .imad o => some { alu2 o 0x14 intTys (decide (o.sub ≤ 2) && !(o.sub = 2 && wideTy o.ty)) with
                      d := if o.sub = 2 then r64 else tySlot o.ty
                      c := if o.sub = 2 then r64 else tySlot o.ty, csp := anySp }
  | .idiv o => some { alu2 o 0x15 intTys (decide (o.sub ≤ 2) && !(o.sub = 2 && wideTy o.ty)) with
                      pair := false, uni := false, dsp := [0]
                      d := if o.sub = 2 then .reg 2 2 2 1 else tySlot o.ty }
  | .imnmx o => some (alu2 o 0x16 packTys (decide (o.sub ≤ 1)))
  | .iabs o => some (alu1 o 0x17 [1, 3, 9, 11] (tySlot o.ty) (decide (o.sub ≤ 1)))
  | .ineg o => some (alu1 o 0x17 (if o.sub = 2 then packTys else [1, 3, 9, 11]) (tySlot o.ty) (o.sub = 2 || o.sub = 3))
  | .bool3 o => let t := if o.m.getLsbD 0 then r64 else r32
                some { opc := 0x18, forms := f3, pair := true, uni := true, d := t, a := t, b := t, c := t
                       dsp := [0, 1], bsp := anySp, csp := anySp }
  | .shl o => some { alu2 o 0x19 intTys (decide (o.sub ≤ 1)) with b := r32 }
  | .shr o => some { alu2 o 0x1A intTys (decide (o.sub ≤ 1)) with b := r32 }
  | .shf o => some { alu2 o 0x1B [0, 2] (decide (o.sub ≤ 3)) with c := r32, csp := anySp }
  | .rot o => some { alu2 o 0x1C [0, 2] (decide (o.sub ≤ 1)) with b := r32 }
  | .popc o => some (alu1 o 0x1D [0, 2] r32 (o.sub = 0))
  | .clz o => some (alu1 o 0x1E [0, 2] r32 (o.sub = 0))
  | .brev o => some (alu1 o 0x1F [0, 2] (tySlot o.ty) (o.sub = 0))
  | .bfe o => some { alu2 o 0x20 intTys (o.sub = 0) with b := r32 }
  | .bfi o => some { alu2 o 0x21 [0, 2] (o.sub = 0) with c := r32, csp := anySp }
  | .isetp o => some { alu2 o 0x22 intTys (decide (o.sub % 8 ≤ 5)) with
                       uni := false, units := lsq, d := .pred, dsp := [2]
                       c := if o.sub / 8 = 0 then .zero else .pneg }
  | .sel o => some { alu2 o 0x23 [0, 2] (o.sub = 0) with units := lsq, c := .pneg }
  | .mov o => some { alu2 o 0x24 [0, 2] (o.sub = 0) with units := lsq, a := .zero }
  | .movi o => some { opc := 0x25, forms := [.f96, .f128], uni := true, units := lsq, d := tySlot o.ty
                      dsp := [0, 1], b := if o.form = .f96 then r32 else .zero, bsp := [3]
                      ok := o.sub = 0 && decide (o.ty ≤ 13) && (o.form ≠ .f128 || wideTy o.ty) }
  | .lea o => some { alu2 o 0x27 [0, 2] (decide (o.sub ≤ 1)) with
                     units := lsq, b := r32, c := .any, csp := [3]
                     ok := (o.ty = 0 || o.ty = 2) && decide (o.sub ≤ 1) && decide (o.c.toNat ≤ 31)
                       && (o.form ≠ .f96 || o.bs = 3) }
  | .idp4 o => some { alu2 o 0x28 [0] (decide (o.sub ≤ 3)) with c := r32, csp := anySp }
  | .bysel o => some { alu2 o 0x29 [0] (o.sub = 0) with c := r32, csp := anySp }
  | .tlut o => some { opc := 0x2A, d := r32, a := run (2 ^ (o.c.toNat + 1)), b := r32, bsp := riSp, c := .any
                      ok := decide (o.c.toNat < 3) && !o.m.getLsbD 8 }
  | .xlane o => some { opc := 0x2B, units := [.lane], d := tySlot o.ty, a := tySlot o.ty
                       b := if o.bs = 3 then .any else r32, bsp := riSp
                       c := .any, csp := [3]
                       ok := (o.ty = 0 || o.ty = 2) && decide (o.sub ≤ 3) && decide (o.c.toNat ≤ 5) }
  | .rdlane o => some { opc := 0x2C, units := [.lane], d := tySlot o.ty, a := tySlot o.ty
                        b := if o.sub = 1 then .zero else if o.bs = 3 then .any else r32
                        bsp := if o.sub = 0 then [1, 3] else [0]
                        ok := (o.ty = 0 || o.ty = 2) && decide (o.sub ≤ 1) }
  | .fadd o => some (fp2 o 0x30 (rmFtzOk o fTys))
  | .fmul o => some (fp2 o 0x31 (rmFtzOk o fTys))
  | .ffma o => some { fp2 o 0x32 (rmFtzOk o fTys) with c := tySlot o.ty, csp := anySp }
  | .fmnmx o => some (fp2 o 0x33 (fTys.contains o.ty && o.sub / 4 % 2 = 0 && decide (o.sub < 16)
                      && !(o.sub / 8 = 1 && o.ty = 7)))
  | .fsetp o => some { fp2 o 0x34 (o.ty = 4 || o.ty = 7) with
                       d := .pred, dsp := [2], c := if o.sub / 8 = 0 then .zero else .pneg }
  | .frnd o => some { opc := 0x35, pair := true, d := tySlot o.ty, a := tySlot o.ty
                      ok := rmFtzOk o fTys && decide (o.sub < 16) }
  | .fdiv o => some { opc := 0x3C, d := tySlot o.ty, a := tySlot o.ty, b := tySlot o.ty, bsp := anySp
                      ok := rmFtzOk o [4, 7] && decide (o.sub < 16) }
  | .fsqrt o => some { opc := 0x3D, d := tySlot o.ty, a := tySlot o.ty, ok := rmFtzOk o [4, 7] && decide (o.sub < 16) }
  | .frcp o => some (apx o 0x36)
  | .frsq o => some (apx o 0x37)
  | .fex2 o => some (apx o 0x38)
  | .flg2 o => some (apx o 0x39)
  | .fsin o => some (apx o 0x3A)
  | .fcos o => some (apx o 0x3B)
  | .fclass o => some { opc := 0x49, pair := true, d := r32, a := tySlot o.ty, ok := fTys.contains o.ty && o.sub = 0 }
  | .hdot2 o => some { opc := 0x4A, forms := f3, pair := true, d := r32, a := r32, b := r32, bsp := anySp, c := r32
                       csp := anySp, ok := rmFtzOk o [5, 6] && decide (o.sub < 16) }
  | .f2f o => let st := o.c.toNat % 16
              some { opc := 0x41, pair := true, d := tySlot o.ty, a := tySlot st, c := .any, csp := [3]
                     dr := tyCount st < tyCount o.ty
                     ok := cvtOk o [4, 5, 6, 7, 12, 13] [4, 5, 6, 7, 12, 13] && st ≠ o.ty
                       && !(o.sub / 8 % 2 = 1 && widens st o.ty)
                       && (o.sub / 16 = 0 || ftzTy st || ftzTy o.ty) }
  | .f2i o => let st := o.c.toNat % 16
              some { opc := 0x42, pair := true, d := tySlot o.ty, a := tySlot st, c := .any, csp := [3]
                     dr := tyCount st < tyCount o.ty
                     ok := cvtOk o packTys [4, 5, 6, 7] && o.sub / 8 % 2 = 0 && (o.sub / 16 = 0 || ftzTy st) }
  | .i2f o => let st := o.c.toNat % 16
              some { opc := 0x43, pair := true, d := tySlot o.ty, a := tySlot st, c := .any, csp := [3]
                     dr := tyCount st < tyCount o.ty
                     ok := cvtOk o [4, 5, 6, 7, 12, 13] packTys && decide (o.sub < 16) }
  | .cvq o => let rm := (o.m.extractLsb' 6 3).toNat
              let df := (o.m.extractLsb' 0 5).toNat
              some { opc := 0x44, d := r32, a := run (dfCount df), b := r32, bsp := anySp
                     c := if rm = 4 then r32 else .zero, csp := if rm = 4 then [0, 1] else [0]
                     ok := decide (rm ≤ 4) && decide (df ≤ 7) && !(o.m.getLsbD 5 && df = 5) }
  | .cvd o => let rm := (o.m.extractLsb' 6 3).toNat
              let df := (o.m.extractLsb' 0 5).toNat
              some { opc := 0x45, d := run (dfCount df), a := r32, b := r32, bsp := anySp
                     ok := decide (rm ≤ 3) && decide (df ≤ 8) && !o.m.getLsbD 5 }
  | .amax o => some { opc := 0x46, units := [.lane], d := r32, a := r32, ok := [4, 5, 6].contains o.ty && o.sub = 0 }
  | .sample o => some { opc := 0x48, units := [.lane], d := r32, a := r32, b := r32, bsp := [0, 1], c := .pred
                        ok := o.m = 0 }
  | .actld o => some { opc := 0x3F, units := [.lane], a := r32, b := r32, c := r32, bsp := anySp, csp := anySp
                       ok := o.ty = 4 && o.sub = 0 }
  | .actswap o => some { opc := 0x40, units := [.lane], b := if o.bs = 3 then .any else r32, bsp := [1, 3]
                         ok := o.m = 0 }
  | .act o => some { opc := 0x3E, units := [.lane], d := r32, a := r32, b := if o.bs = 3 then .any else r32
                     bsp := [1, 3], ok := o.ty = 4 && o.sub = 0 }
  | .rng o => some { opc := 0x47, d := run 4, a := run 4, b := run 2, bsp := [0, 1], ok := o.m = 0 }
  | .ld o => some { memI 0x50 (o.ty = 0 && decide (o.sub % 8 ≤ 6) && decide (o.sub / 8 ≤ 2)) with
                    d := sizeSlot (o.sub % 8) }
  | .st o => some { memI 0x51 (o.ty = 0 && [0, 2, 4, 5, 6].contains (o.sub % 8) && decide (o.sub / 8 ≤ 2)) with
                    c := sizeSlot (o.sub % 8), csp := [0, 1] }
  | .lds o => some { memI 0x52 (o.ty = 0 && decide (o.sub ≤ 6)) with a := r32, d := sizeSlot o.sub }
  | .sts o => some { memI 0x53 (o.ty = 0 && [0, 2, 4, 5, 6].contains o.sub) with
                     a := r32, c := sizeSlot o.sub, csp := [0, 1] }
  | .ldw o => some { opc := 0x54, forms := f3, uni := true, units := [.lane], d := if o.sub = 4 then r32 else if o.sub = 5 then r64 else r128
                     dsp := [1], a := r64, aw := true, b := r32, bsp := [1, 3], ok := o.ty = 0 && [4, 5, 6].contains o.sub }
  | .ldmx o => let k := [8, 6, 4, 8].getD o.sub 8
               some { opc := 0x55, forms := f3, units := [.lane], d := .reg (k + 1) 4 (k + 1) 4, a := r64, b := r32
                      bsp := [3], c := r64, ok := o.ty = 0 && decide (o.sub ≤ 3) }
  | .stmx o => let k := [8, 6, 4, 8].getD o.sub 8
               some { opc := 0x56, forms := f3, units := [.lane], d := .reg (k + 1) 4 (k + 1) 4, dsrc := true, a := r64
                      b := r32, bsp := [3], c := r64, ok := o.ty = 0 && decide (o.sub ≤ 3) }
  | .pref o => some (memI 0x57 (o.ty = 0 && decide (o.sub ≤ 1)))
  | .cmaintClean o => some (memI 0x58 (o.ty = 0 && o.sub = 0))
  | .cmaintClinv o => some (memI 0x58 (o.ty = 0 && o.sub = 1))
  | .msrowCopy o => some { opc := 0x59, forms := [.f128], d := r64, dsrc := true, a := r64, c := r64
                           ok := o.ty = 0 && o.sub = 0 && decide (o.ext.toNat < 2 ^ 32)
                             && decide (bitsN o.ext.toNat 0 16 ≠ 0) && decide (bitsN o.ext.toNat 16 16 ≠ 0) }
  | .msrowZero o => some { opc := 0x59, forms := [.f128], d := r64, dsrc := true, c := r64
                           ok := o.ty = 0 && o.sub = 1 && decide (o.ext.toNat < 2 ^ 32)
                             && decide (bitsN o.ext.toNat 0 16 ≠ 0) && decide (bitsN o.ext.toNat 16 16 ≠ 0) }
  | .msbank o => some { opc := 0x5A, forms := [.f128], d := r64, dsrc := true, a := r64, b := r64, c := r64
                        ok := o.m = 0 && decide (o.ext.toNat < 2 ^ 40) && decide (bitsN o.ext.toNat 0 16 ≠ 0)
                          && decide (bitsN o.ext.toNat 16 16 ≠ 0) && decide (bitsN o.ext.toNat 32 4 ≤ 4)
                          && decide (bitsN o.ext.toNat 36 4 ≤ 3) }
  | .fork o => let x := o.ext.toNat
               some { opc := 0x70, forms := [.f128], aw := true, a := .reg 8 8 4 1
                      ok := o.m = 0 && decide (x % 4 ≠ 0) && decide (bitsN x 2 2 = 0) && decide (x / 2 ^ 60 = 0)
                        && (x % 2 = 1 || bitsN x 4 28 = 0) && (bitsN x 1 1 = 1 || bitsN x 32 28 = 0) }
  | .rdv o => if u.isSeq then some { opc := 0x71, units := lsq, ok := o.m = 0 }
              else some { opc := 0x71, units := lsq, b := .any, bsp := [3]
                          ok := o.m = 0 && decide (1 ≤ o.b.toNat) && decide (o.b.toNat ≤ 3) }
  | .tcopy o => let x := o.ext.toNat
                some { opc := 0x72, forms := [.f128], units := lsq, a := if bitsN x 0 1 = 1 then r32 else r64
                       b := if bitsN x 1 1 = 1 then r32 else .zero, bsp := if bitsN x 1 1 = 1 then [0, 1] else [0]
                       ok := o.m = 0 && decide (x < 2 ^ 8) && (bitsN x 7 1 = 1 || bitsN x 2 5 = 0) }
  | .mma o => some { opc := 0x73, forms := [.f128], units := [.mseq], ok := mmaOk o }
  | .accopAlloc o => some { opc := 0x74, forms := [.f128], units := lsq, b := r32
                            bsp := if u = .lane then [1] else [0]
                            ok := o.ty = 0 && o.sub = 0 && allocOk o.ext }
  | .accopZero o => some { opc := 0x74, units := lsq, b := r32, bsp := if u = .lane then [1] else [0]
                           ok := o.ty = 0 && o.sub = 1 }
  | .accopFree o => some { opc := 0x74, units := lsq, b := r32, bsp := if u = .lane then [1] else [0]
                           ok := o.ty = 0 && o.sub = 2 }
  | .accrd o => some { opc := 0x75, units := [.lane], d := r32, b := r32, bsp := [1]
                       ok := o.ty = 0 && decide (o.sub < 8) }
  | .accwr o => some { opc := 0x76, units := [.lane], b := r32, bsp := [1], c := r32
                       ok := o.ty = 0 && decide (o.sub < 3) }
  | .coll o => let x := o.ext.toNat
               some { opc := 0x77, forms := [.f128], a := r64
                      ok := o.m = 0 && decide (x < 32) && decide (x % 4 ≠ 3) && decide (bitsN x 2 3 ≤ 3) }
  | .atom o => let t := if o.sub = 8 then r128 else tySlot o.ty
               some { opc := 0x60, forms := f3, d := t, a := r64, b := t, bsp := if o.sub = 8 then [0] else riSp
                      c := if o.sub = 7 || o.sub = 8 then t else .zero
                      csp := if o.sub = 7 then [0, 1] else [0], immOwn := true
                      ok := atomOk o && atomForm o }
  | .atoms o => some { opc := 0x61, forms := f3, d := tySlot o.ty, a := r32, b := tySlot o.ty, bsp := riSp
                       c := if o.sub = 7 then tySlot o.ty else .zero, csp := if o.sub = 7 then [0, 1] else [0]
                       immOwn := true, ok := atomOk o && o.sub ≠ 8 && atomForm o }
  | .red o => some { opc := 0x62, forms := f3, a := r64, b := tySlot o.ty, bsp := riSp, immOwn := true
                     ok := atomOk o && !(6 ≤ o.sub && o.sub ≤ 8) && atomForm o && bitsN o.ext.toNat 3 1 = 0 }
  | .lr o => some { opc := 0x63, d := tySlot o.ty, a := r64, b := .any, bsp := [3]
                    ok := o.sub = 0 && (o.ty = 0 || o.ty = 2) && decide (o.b.toNat < 16) }
  | .sc o => some { opc := 0x64, d := r32, a := r64, b := .any, bsp := [3], c := tySlot o.ty, csp := [0, 1]
                    ok := o.sub = 0 && (o.ty = 0 || o.ty = 2) && (decide (o.b.toNat < 8) || (decide (16 ≤ o.b.toNat) && decide (o.b.toNat < 24))) }
  | .fence o => some { opc := 0x65, b := .any, bsp := [3], ok := o.m = 0 && decide (o.b.toNat < 8) }
  | .fencer o => some { opc := 0x66, a := r64, b := r32, bsp := riSp, c := .any, csp := [3]
                        ok := o.m = 0 && decide (o.c.toNat < 8) }
  | .barArrive o => some (barInfo u o 0)
  | .barWait o => some (barInfo u o 1)
  | .barSync o => some (barInfo u o 2)
  | .barDrop o => some (barInfo u o 3)
  | .barRemote o => some (barInfo u o 4)
  | .seqwait o => some { opc := 0x68, forms := f3, units := lsq, d := .pred, dsp := [2], a := r64, b := r64, bsp := riSp
                         c := .any, csp := [3], ok := o.ty = 0 && o.sub = 0 && decide (o.c.toNat < 8) }
  | .seqwaitTry o => some { opc := 0x68, forms := f3, units := lsq, d := .pred, dsp := [2], a := r64, b := r64
                            bsp := riSp, c := .any, csp := [3], ok := o.ty = 0 && o.sub = 1 && decide (o.c.toNat < 8) }
  | .seqadd o => some { opc := 0x69, forms := f3, units := lsq, a := r64, b := r64, bsp := riSp, c := .any, csp := [3]
                        ok := o.ty = 0 && decide (o.sub ≤ 1) && decide (o.c.toNat < 8) }
  | .pegw o => some { opc := 0x6A, forms := f3, d := .any, dsp := [3], b := tySlot o.ty, bsp := riSp, c := .any
                      csp := [3], ok := o.sub = 0 && [0, 1, 2, 3, 4, 7].contains o.ty && decide (o.c.toNat ≤ 63) }
  | .pegwG o => some { opc := 0x6A, forms := f3, d := .any, dsp := [3], b := tySlot o.ty, bsp := riSp, c := .any
                       csp := [3], ok := o.sub = 1 && [0, 1, 2, 3, 4, 7].contains o.ty && decide (o.c.toNat ≤ 15) }
  | .pegr o => some { opc := 0x6B, units := [.spine], d := r64, b := .any, bsp := [2], ok := o.m = 0 }
  | .pegctlArm o => some { opc := 0x6C, forms := f3, d := .any, dsp := [3], b := r32, bsp := riSp
                           ok := o.ty = 0 && o.sub = 0 }
  | .pegctlClear o => some { opc := 0x6C, forms := f3, d := .any, dsp := [3], ok := o.ty = 0 && o.sub = 1 }
  | .pegctlDisarm o => some { opc := 0x6C, forms := f3, d := .any, dsp := [3], ok := o.ty = 0 && o.sub = 2 }
  | .redw o => let ok := decide (o.sub ≤ 2) && [0, 1, 4].contains o.ty
               if o.ds = 3 then
                 some { opc := 0x6D, units := [.lane], d := .any, dsp := [3], a := r32
                        c := if o.cs = 3 then .any else r32, csp := [1, 3]
                        ok := ok && (o.cs ≠ 3 || decide (o.c.toNat ≤ 15)) }
               else some { opc := 0x6D, units := [.lane], d := r32, a := r32, ok := ok }
  | .qpushRsv o => some (ringInfo u o 0x6E 0)
  | .qpushCmt o => some (ringInfo u o 0x6E 1)
  | .qpushRsvTry o => some (ringInfo u o 0x6E 2)
  | .qpop o => some (ringInfo u o 0x6F 0)
  | .qpopRet o => some (ringInfo u o 0x6F 1)
  | .qpopTry o => some (ringInfo u o 0x6F 2)
  | .spawn o => let x := o.ext.toNat
                some { opc := 0x78, forms := [.f128], units := [.lane], d := .pred, dsp := [2]
                       a := if bitsN x 17 1 = 1 then r32 else r64
                       b := if bitsN x 16 1 = 1 then r32 else .zero, bsp := if bitsN x 16 1 = 1 then [1] else [0]
                       ok := o.m = 0 && decide (x < 2 ^ 27) && (bitsN x 16 1 = 0 || bitsN x 0 16 = 0)
                         && decide (bitsN x 19 8 % 2 = 0) && (bitsN x 18 1 = 1 || bitsN x 19 8 = 0) }
  | .trap o => some { opc := 0x79, b := .any, bsp := [3], ok := o.m = 0 }
  | .eret o => some { opc := 0x7A, ok := o.m = 0 }
  | .ctlr o => some { opc := 0x7B, d := r64, b := .any, bsp := [3], c := .any, csp := [3]
                      ok := o.m = 0 && ctlReadable (ctlNumber o) }
  | .ctlw o => some { opc := 0x7C, a := r64, b := .any, bsp := [3], c := .any, csp := [3]
                      ok := o.m = 0 && ctlDefined (ctlNumber o) }
  | _ => none

/-- The fields of a Huarum operation. -/
def Instr.ops : Instr → Option Ops
  | .nop o | .bra o | .brx o | .call o | .callx o | .ret o
  | .exit o | .jarmSet o | .jarmAdd o | .jarmClr o | .jarmLoad o | .rejoin o
  | .yield o | .pause o | .brk o | .plop3 o | .pmovTor o | .pmovFromr o
  | .vote o | .match_ o | .movsp o | .iadd o | .isub o | .iadd3 o
  | .imul o | .imad o | .idiv o | .imnmx o | .iabs o | .ineg o
  | .idp4 o | .bool3 o | .shl o | .shr o | .shf o | .rot o
  | .popc o | .clz o | .brev o | .bfe o | .bfi o | .isetp o
  | .sel o | .mov o | .movi o | .lea o | .bysel o | .tlut o
  | .xlane o | .rdlane o | .fadd o | .fmul o | .ffma o | .fmnmx o
  | .fsetp o | .frnd o | .fdiv o | .fsqrt o | .frcp o | .frsq o
  | .fex2 o | .flg2 o | .fsin o | .fcos o | .fclass o | .hdot2 o
  | .f2f o | .f2i o | .i2f o | .cvq o | .cvd o | .amax o
  | .sample o | .actld o | .actswap o | .act o | .rng o | .ld o
  | .st o | .lds o | .sts o | .ldw o | .ldmx o | .stmx o
  | .pref o | .cmaintClean o | .cmaintClinv o | .msrowCopy o | .msrowZero o | .msbank o
  | .fork o | .rdv o | .tcopy o | .mma o | .accopAlloc o | .accopZero o
  | .accopFree o | .accrd o | .accwr o | .coll o | .atom o | .atoms o
  | .red o | .lr o | .sc o | .fence o | .fencer o | .barArrive o
  | .barWait o | .barSync o | .barDrop o | .barRemote o | .seqwait o | .seqwaitTry o
  | .seqadd o | .pegw o | .pegwG o | .pegr o | .pegctlArm o | .pegctlClear o
  | .pegctlDisarm o | .redw o | .qpushRsv o | .qpushCmt o | .qpushRsvTry o | .qpop o
  | .qpopRet o | .qpopTry o | .spawn o | .trap o | .eret o | .ctlr o
  | .ctlw o => some o
  | _ => none

/-- The spaces of a source field that a unit's code admits (R78). -/
def spaceOk (u : CodeUnit) (sp : Nat) : Bool :=
  match u with
  | .lane => true
  | .spine => sp ≠ 1
  | _ => sp = 0 || sp = 3

/-- The D spaces that a unit's code admits (R78). -/
def dSpaceOk (u : CodeUnit) (sp : Nat) : Bool :=
  match u with
  | .lane => true
  | .spine => sp ≠ 1
  | _ => sp = 0 || sp = 2

/-- Registers n from idx aligned to al lie in a file of size sz (R79). -/
def inFile (idx n al sz : Nat) : Bool := idx % al = 0 && decide (idx + n ≤ sz)

/-- An operand field against its slot (R78, R79). `w` says that the field names a w register in lane code. -/
def slotOk (u : CodeUnit) (w : Bool) (s : Slot) (sp : Nat) (f : Nat) : Bool :=
  match s with
  | .zero => f = 0
  | .any => true
  | .pred => decide (f < 16) && (!u.isSeq || decide (f < 4))
  | .pneg => decide (f < 32) && (!u.isSeq || decide (f % 16 < 4))
  | .reg n al ns as =>
    if sp = 2 || sp = 3 then true
    else match u with
      | .lane => if w || sp = 1 then inFile f n al 64 else f % al = 0
      | .spine => inFile f ns as 64
      | _ => inFile f ns as 16

/-- The immediate and extension bits of the form (R80, R82, R83). -/
def immOk (o : Ops) (i : Info) : Bool :=
  match o.form with
  | .f64 => o.ext = 0
  | .f96 =>
    decide (o.ext.toNat < 2 ^ 32)
      && (if i.immOwn then true
          else if o.bs = 3 && i.b ≠ .any then o.b = 0
          else if o.cs = 3 && i.c ≠ .any then o.c = 0
          else o.ext = 0)
  | .f128 => true

/-- The guard fields (R77). -/
def guardOk (u : CodeUnit) (o : Ops) : Bool :=
  if o.ge then !u.isSeq || decide (o.gp.toNat < 4) else o.gp = 0 && !o.gs

/-- A uniform instruction (R78). -/
def uniformOp (u : CodeUnit) (o : Ops) : Bool := u = .lane && o.ds = 1

/-- Step 4 of R87: guard, spaces, TY, SUB, reserved and unused fields, indices. -/
def fieldsOk (u : CodeUnit) (o : Ops) (i : Info) : Bool :=
  let w := uniformOp u o
  guardOk u o && i.dsp.contains o.ds.toNat && i.bsp.contains o.bs.toNat && i.csp.contains o.cs.toNat
    && dSpaceOk u o.ds.toNat && spaceOk u o.bs.toNat && spaceOk u o.cs.toNat
    && slotOk u (o.ds = 1) i.d (if o.ds = 1 then 1 else 0) o.d.toNat
    && slotOk u (w || i.aw) i.a 0 o.a.toNat
    && slotOk u w i.b o.bs.toNat o.b.toNat && slotOk u w i.c o.cs.toNat o.c.toNat
    && immOk o i && i.ok

/-- Steps 2 to 4 of R87 for one operation of a unit's code. -/
def WellFormed (u : CodeUnit) (i : Instr) : Bool :=
  match i.ops, info u i with
  | some o, some f => f.units.contains u && f.forms.contains o.form && fieldsOk u o f
  | _, _ => false

/-- The register files an instruction names. -/
inductive RFile where
  | v | w | s | e | p | pg
deriving DecidableEq, Repr, Inhabited

/-- Registers an instruction reads or writes, in field order. -/
structure RegUse where
  file : RFile
  idx : Nat
  n : Nat
  /-- Written. -/
  wr : Bool
  /-- Read. -/
  rd : Bool
  /-- Named in field A. -/
  isA : Bool := false
deriving DecidableEq, Repr, Inhabited

/-- The registers of a field. -/
def slotUse (u : CodeUnit) (w : Bool) (s : Slot) (sp f : Nat) (wr rd isA : Bool) : List RegUse :=
  match s with
  | .reg n _ ns _ =>
    if sp = 3 then []
    else if sp = 2 then [{ file := .pg, idx := f, n := 1, wr := false, rd := true }]
    else match u with
      | .lane => [{ file := if w || sp = 1 then .w else .v, idx := f, n := n, wr := wr, rd := rd, isA := isA }]
      | .spine => [{ file := .s, idx := f, n := ns, wr := wr, rd := rd, isA := isA }]
      | _ => [{ file := .e, idx := f, n := ns, wr := wr, rd := rd, isA := isA }]
  | .pred => [{ file := .p, idx := f % 16, n := 1, wr := wr, rd := rd }]
  | .pneg => [{ file := .p, idx := f % 16, n := 1, wr := false, rd := true }]
  | _ => []

/-- Uses that an entry makes beside its slots: VOTE's and SAMPLE's predicates, SPAWN's identifiers, pegs. -/
def extraUses (i : Instr) : List RegUse :=
  match i with
  | .vote o => [{ file := .p, idx := o.a.toNat % 16, n := 1, wr := false, rd := true }]
  | .spawn o => if bitsN o.ext.toNat 18 1 = 1
                then [{ file := .v, idx := bitsN o.ext.toNat 19 8, n := 2, wr := true, rd := false }] else []
  | .pmovTor _ => [{ file := .p, idx := 0, n := 16, wr := false, rd := true }]
  | .pegw o | .pegwG o | .pegctlArm o | .pegctlClear o | .pegctlDisarm o =>
    [{ file := .pg, idx := o.d.toNat, n := 1, wr := true, rd := false }]
  | .redw o => if o.ds = 3 then [{ file := .pg, idx := o.d.toNat, n := 1, wr := true, rd := false }] else []
  | .pegr o => [{ file := .pg, idx := o.b.toNat, n := 1, wr := false, rd := true }]
  | _ => []

/-- Does field C name a predicate that is written (SAMPLE, the TRY forms)? -/
def cWritten (i : Instr) : Bool :=
  match i with
  | .sample _ | .qpushRsvTry _ | .qpopTry _ => true
  | _ => false

/-- The registers an operation names, D first, then a second destination, then A, B and C (R362). -/
def uses (u : CodeUnit) (i : Instr) : List RegUse :=
  match i.ops, info u i with
  | some o, some f =>
    let w := uniformOp u o
    slotUse u (o.ds = 1) f.d (if o.ds = 1 then 1 else 0) o.d.toNat (!f.dsrc) (f.dr || f.dsrc) false
      ++ extraUses i
      ++ slotUse u (w || f.aw) f.a 0 o.a.toNat false true true
      ++ slotUse u w f.b o.bs.toNat o.b.toNat false true false
      ++ slotUse u w f.c o.cs.toNat o.c.toNat (cWritten i) (!cWritten i) false
  | _, _ => []

/-- Does a use touch register k of a file? -/
def RegUse.covers (x : RegUse) (f : RFile) (k : Nat) : Bool :=
  x.file = f && decide (x.idx ≤ k) && decide (k < x.idx + x.n)

/-- Do two uses share a register? -/
def RegUse.meets (x y : RegUse) : Bool :=
  x.file = y.file && decide (x.idx < y.idx + y.n) && decide (y.idx < x.idx + x.n)

/-- The banks of the registers of a use: index mod 4; none for predicates, pegs and e registers (R84). -/
def RegUse.banks (x : RegUse) : List (RFile × Nat) :=
  match x.file with
  | .v | .w | .s => (List.range x.n).map (fun k => (x.file, (x.idx + k) % 4))
  | _ => []

/-- The guard predicate an operation reads. -/
def guardUse (o : Ops) : List RegUse :=
  if o.ge then [{ file := .p, idx := o.gp.toNat, n := 1, wr := false, rd := true }] else []

/-- A conversion (R84 rule 1). -/
def isConv : Instr → Bool
  | .f2f _ | .f2i _ | .i2f _ => true
  | _ => false

/-- An FP64 operation (R84 rule 1). -/
def isF64 (i : Instr) : Bool :=
  match i with
  | .fadd o | .fmul o | .ffma o | .fmnmx o | .fsetp o | .frnd o | .fclass o => o.ty = 7
  | _ => false

/-- The registers read, each 32-bit register once, those of field A marked. -/
def readBanks (us : List RegUse) : List (RFile × Nat) :=
  (us.filter (·.rd)).flatMap RegUse.banks

/-- Registers of field A that both halves name: they count once (R84 rule 5). -/
def sharedA (u1 u2 : List RegUse) : List (RFile × Nat) :=
  (u1.filter (·.isA)).flatMap (fun x => (u2.filter (·.isA)).flatMap (fun y =>
    if x.file = y.file then
      ((List.range x.n).filter (fun k => y.covers x.file (x.idx + k))).flatMap
        (fun k => ({ x with idx := x.idx + k, n := 1 } : RegUse).banks)
    else []))

/-- The five pair rules of R84; true when none is broken. -/
def pairOk (u : CodeUnit) (i j : Instr) : Bool :=
  match i.ops, j.ops with
  | some _, some oj =>
    let ui := uses u i
    let uj := uses u j
    let wi := ui.filter (·.wr)
    let wj := uj.filter (·.wr)
    let bi := wi.flatMap RegUse.banks
    let bj := wj.flatMap RegUse.banks
    let reads := readBanks ui ++ readBanks uj
    let shared := sharedA ui uj
    !((isConv i || isF64 i) && (isConv j || isF64 j))
      && !((ui ++ uj).any (fun x => x.file = .pg && x.rd))
      && !(wi.any (fun x => (uj ++ guardUse oj).any (fun y => x.meets y)))
      && !(bi.any (fun x => bj.contains x))
      && reads.all (fun x => decide (reads.count x ≤ 2 + shared.count x))
  | _, _ => false

end Sys2Proof
end

