-- ==== Sys2Proof/Decode.lean ====
section
/-! DEFINITION. Decoding of instruction words, commands and agent commands, and the encoder (R72 to R87, R33, R34, R64,
R303). -/

namespace Sys2Proof

/-- What the words at an instruction address decode to. -/
inductive Decoded where
  /-- One operation and its bytes. -/
  | one (i : Instr) (bytes : Nat)
  /-- A pair (R84). -/
  | two (i j : Instr)
  /-- A legal pad run up to the granule's end, so many bytes long (R73). -/
  | pad (bytes : Nat)
  /-- A reserved major, or LEN 00 outside a legal pad run; the first 64 bits (R87 steps 1 and 2). -/
  | reserved (w : W64)
  /-- Another decode failure with cause 1 (ILLEGAL_INSN); the first 64 bits. -/
  | illegal (w : W64)
  /-- A pair that breaks a rule of R84, cause 2 (ILLEGAL_PAIR). -/
  | illegalPair (w : W64)
deriving DecidableEq, Repr, Inhabited

/-- The fields of a first 64 bits and its extension (R75, R76). -/
def splitOps (f : Form) (w : W64) (ext : W64) : Ops :=
  { form := f, sw := w.getLsbD 2, ge := w.getLsbD 3, gp := w.extractLsb' 4 4, gs := w.getLsbD 8
    d := w.extractLsb' 16 8, a := w.extractLsb' 24 8, b := w.extractLsb' 32 8, c := w.extractLsb' 40 8
    bs := w.extractLsb' 48 2, cs := w.extractLsb' 50 2, ds := w.extractLsb' 52 2, m := w.extractLsb' 54 9, ext := ext }

/-- The operation of a major and SUB (R86 and the field tables). -/
def mkInstr (opc : Nat) (o : Ops) : Option Instr :=
  match opc with
  | 0x01 => some (.nop o)
  | 0x02 => some (.bra o)
  | 0x03 => some (.brx o)
  | 0x04 => some (.call o)
  | 0x05 => some (.callx o)
  | 0x06 => some (.ret o)
  | 0x07 => some (.exit o)
  | 0x08 => some (match o.sub with | 0 => .jarmSet o | 1 => .jarmAdd o | 2 => .jarmClr o | _ => .jarmLoad o)
  | 0x09 => some (.rejoin o)
  | 0x0A => some (.yield o)
  | 0x0B => some (.plop3 o)
  | 0x0C => some (match o.sub with | 0 => .pmovTor o | _ => .pmovFromr o)
  | 0x0D => some (.vote o)
  | 0x0E => some (.match_ o)
  | 0x0F => some (.brk o)
  | 0x10 => some (.iadd o)
  | 0x11 => some (.isub o)
  | 0x12 => some (.iadd3 o)
  | 0x13 => some (.imul o)
  | 0x14 => some (.imad o)
  | 0x15 => some (.idiv o)
  | 0x16 => some (.imnmx o)
  | 0x17 => some (match o.sub with | 0 | 1 => .iabs o | _ => .ineg o)
  | 0x18 => some (.bool3 o)
  | 0x19 => some (.shl o)
  | 0x1A => some (.shr o)
  | 0x1B => some (.shf o)
  | 0x1C => some (.rot o)
  | 0x1D => some (.popc o)
  | 0x1E => some (.clz o)
  | 0x1F => some (.brev o)
  | 0x20 => some (.bfe o)
  | 0x21 => some (.bfi o)
  | 0x22 => some (.isetp o)
  | 0x23 => some (.sel o)
  | 0x24 => some (.mov o)
  | 0x25 => some (.movi o)
  | 0x26 => some (.movsp o)
  | 0x27 => some (.lea o)
  | 0x28 => some (.idp4 o)
  | 0x29 => some (.bysel o)
  | 0x2A => some (.tlut o)
  | 0x2B => some (.xlane o)
  | 0x2C => some (.rdlane o)
  | 0x30 => some (.fadd o)
  | 0x31 => some (.fmul o)
  | 0x32 => some (.ffma o)
  | 0x33 => some (.fmnmx o)
  | 0x34 => some (.fsetp o)
  | 0x35 => some (.frnd o)
  | 0x36 => some (.frcp o)
  | 0x37 => some (.frsq o)
  | 0x38 => some (.fex2 o)
  | 0x39 => some (.flg2 o)
  | 0x3A => some (.fsin o)
  | 0x3B => some (.fcos o)
  | 0x3C => some (.fdiv o)
  | 0x3D => some (.fsqrt o)
  | 0x3E => some (.act o)
  | 0x3F => some (.actld o)
  | 0x40 => some (.actswap o)
  | 0x41 => some (.f2f o)
  | 0x42 => some (.f2i o)
  | 0x43 => some (.i2f o)
  | 0x44 => some (.cvq o)
  | 0x45 => some (.cvd o)
  | 0x46 => some (.amax o)
  | 0x47 => some (.rng o)
  | 0x48 => some (.sample o)
  | 0x49 => some (.fclass o)
  | 0x4A => some (.hdot2 o)
  | 0x50 => some (.ld o)
  | 0x51 => some (.st o)
  | 0x52 => some (.lds o)
  | 0x53 => some (.sts o)
  | 0x54 => some (.ldw o)
  | 0x55 => some (.ldmx o)
  | 0x56 => some (.stmx o)
  | 0x57 => some (.pref o)
  | 0x58 => some (match o.sub with | 0 => .cmaintClean o | _ => .cmaintClinv o)
  | 0x59 => some (match o.sub with | 0 => .msrowCopy o | _ => .msrowZero o)
  | 0x5A => some (.msbank o)
  | 0x60 => some (.atom o)
  | 0x61 => some (.atoms o)
  | 0x62 => some (.red o)
  | 0x63 => some (.lr o)
  | 0x64 => some (.sc o)
  | 0x65 => some (.fence o)
  | 0x66 => some (.fencer o)
  | 0x67 => some (match o.sub % 8 with
      | 0 => .barArrive o | 1 => .barWait o | 2 => .barSync o | 3 => .barDrop o | _ => .barRemote o)
  | 0x68 => some (match o.sub with | 0 => .seqwait o | _ => .seqwaitTry o)
  | 0x69 => some (.seqadd o)
  | 0x6A => some (match o.sub with | 0 => .pegw o | _ => .pegwG o)
  | 0x6B => some (.pegr o)
  | 0x6C => some (match o.sub with | 0 => .pegctlArm o | 1 => .pegctlClear o | _ => .pegctlDisarm o)
  | 0x6D => some (.redw o)
  | 0x6E => some (match o.sub with | 0 => .qpushRsv o | 1 => .qpushCmt o | _ => .qpushRsvTry o)
  | 0x6F => some (match o.sub with | 0 => .qpop o | 1 => .qpopRet o | _ => .qpopTry o)
  | 0x70 => some (.fork o)
  | 0x71 => some (.rdv o)
  | 0x72 => some (.tcopy o)
  | 0x73 => some (.mma o)
  | 0x74 => some (match o.sub with | 0 => .accopAlloc o | 1 => .accopZero o | _ => .accopFree o)
  | 0x75 => some (.accrd o)
  | 0x76 => some (.accwr o)
  | 0x77 => some (.coll o)
  | 0x78 => some (.spawn o)
  | 0x79 => some (.trap o)
  | 0x7A => some (.eret o)
  | 0x7B => some (.ctlr o)
  | 0x7C => some (.ctlw o)
  | 0x7D => some (.pause o)
  | _ => none

/-- Two 32-bit words as the first 64 bits, the word at the lower address in bits [31:0] (R6). -/
def first64 (w0 w1 : W32) : W64 := w1 ++ w0

/-- The major opcode of a word (R75). -/
def opcOf (w : W64) : Nat := (w.extractLsb' 9 7).toNat
/-- The PR bit (R76). -/
def prOf (w : W64) : Bool := w.getLsbD 63
/-- The LEN field (R73). -/
def lenOf (w : W32) : Nat := (w.extractLsb' 0 2).toNat

/-- One operation of a unit's code from its first 64 bits and its extension: steps 2 to 4 of R87. -/
def decodeOne (u : CodeUnit) (f : Form) (w ext : W64) : Decoded :=
  match mkInstr (opcOf w) (splitOps f w ext) with
  | none => .reserved w
  | some i => if WellFormed u i then .one i f.bytes else .illegal w

/-- A pair: steps 2 to 5 of R87. -/
def decodePair (u : CodeUnit) (w v : W64) : Decoded :=
  match mkInstr (opcOf w) (splitOps .f64 w 0), mkInstr (opcOf v) (splitOps .f64 v 0) with
  | none, _ => .reserved w
  | _, none => .reserved w
  | some i, some j =>
    match info u i, info u j with
    | some fi, some fj =>
      if !u.isSeq && v.extractLsb' 0 2 = 1#2 && !prOf v && fi.pair && fj.pair && WellFormed u i && WellFormed u j then
        if pairOk u i j then .two i j else .illegalPair w
      else .illegal w
    | _, _ => .illegal w

/-- The words from an instruction address to the end of its 32-byte granule (R72, R73, R87). -/
def decode (u : CodeUnit) (ws : List W32) : Decoded :=
  match ws with
  | [] => .illegal 0
  | w0 :: r =>
    let info64 := first64 w0 (r.headD 0)
    match lenOf w0 with
    | 0 => if ws.all (fun w => w = 0xFFFFFFFC#32) then .pad (4 * ws.length) else .reserved info64
    | 1 =>
      match r with
      | w1 :: _ => if prOf (first64 w0 w1) then .illegal info64 else decodeOne u .f64 (first64 w0 w1) 0
      | _ => .illegal info64
    | 2 =>
      match r with
      | w1 :: w2 :: _ =>
        if prOf (first64 w0 w1) then .illegal info64 else decodeOne u .f96 (first64 w0 w1) (first64 w2 0)
      | _ => .illegal info64
    | _ =>
      match r with
      | w1 :: w2 :: w3 :: _ =>
        if prOf (first64 w0 w1) then decodePair u (first64 w0 w1) (first64 w2 w3)
        else decodeOne u .f128 (first64 w0 w1) (first64 w2 w3)
      | _ => .illegal info64

/-- A bit as a one-bit field. -/
def bit1 (b : Bool) : BitVec 1 := BitVec.ofBool b

/-- LEN of a form (R73). -/
def Form.len : Form → BitVec 2
  | .f64 => 1
  | .f96 => 2
  | .f128 => 3

/-- The first 64 bits of an operation (R75, R76); `pr` and `len` are those of a pair's halves when it is one. -/
def encodeFirst (opc : BitVec 7) (pr : Bool) (len : BitVec 2) (o : Ops) : W64 :=
  bit1 pr ++ o.m ++ o.ds ++ o.cs ++ o.bs ++ o.c ++ o.b ++ o.a ++ o.d ++ opc ++ bit1 o.gs ++ o.gp ++ bit1 o.ge ++ bit1 o.sw
    ++ len

/-- The major opcode of an operation (R86). -/
def opcodeOf (i : Instr) : BitVec 7 :=
  match info .lane i with
  | some f => BitVec.ofNat 7 f.opc
  | none => 0

/-- The 32-bit words of a first 64 bits. -/
def words64 (w : W64) : List W32 := [lo32 w, hi32 w]

/-- The words of an operation; nothing for an event, which no word encodes. -/
def encode (i : Instr) : List W32 :=
  match i.ops with
  | none => []
  | some o =>
    let w := words64 (encodeFirst (opcodeOf i) false o.form.len o)
    match o.form with
    | .f64 => w
    | .f96 => w ++ [lo32 o.ext]
    | .f128 => w ++ words64 o.ext

/-- The words of a pair (R84). -/
def encodePair (i j : Instr) : List W32 :=
  match i.ops, j.ops with
  | some oi, some oj =>
    words64 (encodeFirst (opcodeOf i) true 3 oi) ++ words64 (encodeFirst (opcodeOf j) false 1 oj)
  | _, _ => []

/-- The command whose header and operand words are given (R33, R34). -/
def decodeCommand (h : W64) (ws : List W64) : Instr :=
  match (h.extractLsb' 0 8).toNat with
  | 0x01 => .cEnd h ws
  | 0x02 => .cLaunch h ws
  | 0x03 => .cLaunchInd h ws
  | 0x04 => .cWaitseq h ws
  | 0x05 => .cAddseq h ws
  | 0x06 => .cWrite h ws
  | 0x07 => .cLoop h ws
  | 0x08 => .cEndloop h ws
  | 0x09 => .cIf h ws
  | 0x0A => .cElse h ws
  | 0x0B => .cEndif h ws
  | 0x0C => .cCallstream h ws
  | 0x0D => .cFence h ws
  | 0x0E => .cIntr h ws
  | _ => .undefinedOp h ws

/-- The length in words that R34 requires of a command, none for an undefined OP. -/
def commandLen (h : W64) : Option Nat :=
  match (h.extractLsb' 0 8).toNat with
  | 0x01 | 0x08 | 0x0A | 0x0B | 0x0D => some 1
  | 0x02 | 0x03 => some 9
  | 0x04 | 0x05 | 0x06 | 0x09 => some 3
  | 0x07 | 0x0C | 0x0E => some 2
  | _ => none

/-- The header and operand words of a command; nothing for what is no command. -/
def encodeCommand (i : Instr) : List W64 :=
  match i with
  | .cEnd h ws | .cLaunch h ws | .cLaunchInd h ws | .cWaitseq h ws | .cAddseq h ws | .cWrite h ws | .cLoop h ws
  | .cEndloop h ws | .cIf h ws | .cElse h ws | .cEndif h ws | .cCallstream h ws | .cFence h ws | .cIntr h ws
  | .undefinedOp h ws => h :: ws
  | _ => []

/-- The translation-agent command of a 32-byte ring entry (R64). -/
def decodeXl (c : BitVec 256) : Instr :=
  match (c.extractLsb' 0 8).toNat with
  | 1 => .invalidateRange c
  | 2 => .invalidateAspace c
  | 3 => .invalidateAll c
  | 4 => .movePage c
  | _ => .refusedTranslationCommand c

/-- The pre-emption command of a 64-byte ring entry (R303). -/
def decodePm (c : BitVec 512) : Instr :=
  match (c.extractLsb' 0 8).toNat with
  | 1 => .save c
  | 2 => .restore c
  | _ => .refusedPreemptionCommand c

/-- The words of a table word: bit 0 is the least significant bit of the first word. -/
def tableWords (nbits w : Nat) : List W32 :=
  let n := max 2 ((nbits + 31) / 32)
  let k := if w % 4 = 2 then max n 3 else if w % 4 = 3 then max n 4 else n
  (List.range k).map (fun i => BitVec.ofNat 32 ((w % 2 ^ nbits) / 2 ^ (32 * i)))

/-- The operation that the decoder reads, tried as lane, spine and sequencer code. -/
def decodeTableWord (nbits w : Nat) : Option Instr :=
  let ws := tableWords nbits w
  match decode .lane ws with
  | .one i _ => some i
  | _ =>
    match decode .spine ws with
    | .one i _ => some i
    | _ =>
      match decode .mseq ws with
      | .one i _ => some i
      | _ =>
        match decode .cseq ws with
        | .one i _ => some i
        | .reserved x => some (.reservedMajor x)
        | _ => none

end Sys2Proof
end

