-- ==== Sys2Proof/Machine/State.lean ====
section
/-! DEFINITION. The state of the package, the stops, and the state after reset. -/

namespace Sys2Proof.Machine

/-! ### Parties of a cluster -/

/-- Who executes an operation (R93, R101, R214, R33, R64, R303). -/
inductive Unit where
  /-- Lanes of a warp. -/
  | lane
  /-- A spine context. -/
  | spine
  /-- The matrix sequencer. -/
  | mseq
  /-- The copy sequencer. -/
  | cseq
  /-- A command processor at a queue. -/
  | cp
  /-- An agent's ring. -/
  | agent
deriving DecidableEq, Repr, Inhabited

/-- An issuing group, or another party at its instruction (R95). -/
structure Issuer where
  unit : Unit := .lane
  /-- Global cluster number; for a command processor, its number. -/
  g : Nat := 0
  /-- Warp slot 0 to 63, spine context 0 to 3, or queue. -/
  slot : Nat := 0
  /-- The lanes that issue together. -/
  group : W32 := 0
  pc : W64 := 0
  /-- Bytes of the instruction. -/
  len : Nat := 0
deriving DecidableEq, Repr, Inhabited

/-- A thread, or another party that a rule names by what it runs and not by its place (R19, R93, R317). -/
structure Thread where
  /-- 0 a lane of a block, 1 a task, 2 a spine context, 3 and 4 the matrix and the copy sequencer, 5 a queue, 6 the copy
  engine of a cluster, 7 an application core, 8 a sill command. -/
  kind : Nat := 0
  /-- The launch number, or the number of the queue, cluster or core. -/
  a : Nat := 0
  /-- The block, or the task identifier. -/
  b : Nat := 0
  /-- The thread within its block. -/
  t : Nat := 0
deriving DecidableEq, Repr, Inhabited

/-- What a blocking wait waits on (R301). -/
inductive WaitObj where
  /-- A counter, by its frame address. -/
  | counter (pa : Nat)
  /-- The present phase of a group entry of the cluster. -/
  | group (e : Nat)
  /-- A lane that arrives again, until the phase completes (R264). -/
  | regroup (e : Nat)
  /-- A peg of the cluster to fill. -/
  | pegFull (p : Nat)
  /-- A peg of the cluster to empty. -/
  | pegEmpty (p : Nat)
  /-- A ring of the block: its number for a RESERVE, plus 32 for a TAKE. -/
  | ring (r : Nat)
  /-- A rendezvous with the sequencers of a mask. -/
  | rdv (mask : Nat)
  /-- Idle sequencers. -/
  | fork (mask : Nat)
deriving DecidableEq, Repr, Inhabited

/-- A blocking wait (R301). -/
structure Wait where
  kind : Nat := 0
  obj : WaitObj := .group 0
  /-- The die's clock when the wait blocked. -/
  start : Nat := 0
  /-- The instruction's bytes and switch marker, used when the wait itself completes the instruction. -/
  len : Nat := 8
  sw : Bool := false
  /-- The wait half of a BAR.SYNC, which an abandoned wait resumes alone (R296). -/
  sync : Bool := false
deriving DecidableEq, Repr, Inhabited

/-- What keeps a lane, context or sequencer from issuing (R93). -/
inductive Hold where
  | free
  /-- A switch-point park (R98). -/
  | park
  /-- Waits for a translation walk (R60). -/
  | walk
  /-- Parked by a failed walk (R61). -/
  | fault
  /-- A blocking wait. -/
  | wait (w : Wait)
  /-- A REJOIN hold on mask n since a cycle (R104). -/
  | rejoin (n : Nat) (start : Nat)
  /-- A PAUSE until a cycle, with a switch marker or without (R113). -/
  | pause (till : Nat) (sw : Bool)
  /-- A YIELD exclusion until a cycle (R113). -/
  | yield (till : Nat)
  /-- A cause raised while the frame was busy (R295). -/
  | frame
deriving DecidableEq, Repr, Inhabited

/-- The save frame (R296); bytes that are zero are not held. -/
structure Frame where
  busy : Bool := false
  pc : W64 := 0
  npc : W64 := 0
  addr : W64 := 0
  info : W64 := 0
  issue : W32 := 0
  cmask : W32 := 0
  cause : Nat := 0
  unit : Nat := 0
  precise : Bool := false
  async : Bool := false
  waitOnly : Bool := false
  kill : Bool := false
  rpc : W64 := 0
  /-- The model's own: the handler party's ERET has acted on the sequencer (R299). -/
  acted : Bool := false
  /-- Lanes of ISSUE that have not left the frame (R299). -/
  left : W32 := 0
  /-- Lanes of ISSUE whose own wait half was abandoned: WAITONLY is theirs; of no lane, everyone's (R296, log 76). -/
  waits : W32 := 0
deriving DecidableEq, Repr, Inhabited

/-- A task record pulled and not yet run or retired (R44, R45, R320). -/
structure Task where
  queue : Nat := 0
  id : Nat := 0
  record : W64 := 0
  entry : W64 := 0
  done : W64 := 0
  cls : Nat := 0
  prio : Nat := 0
  budget : Nat := 0
  inline : List Byte := []
  /-- The cluster whose gatherer pulled it (R44, R320, R365). -/
  g : Nat := 0
  /-- The die's clock when the gatherer took it as ready, where its window begins (R45). -/
  taken : Nat := 0
  /-- Unsatisfied counters: frame address and threshold. -/
  waits : List (Nat × Nat) := []
  /-- A named counter was found poisoned. -/
  poisoned : Bool := false
  replays : Nat := 0
deriving DecidableEq, Repr, Inhabited

/-- A lane thread (R93). -/
structure Lane where
  live : Bool := false
  pc : W64 := 0
  v : Map W32 := []
  p : BitVec 16 := 0
  hold : Hold := .free
  trap : Bool := false
  waitOnly : Bool := false
  /-- Its guard has passed at an instruction whose switch point comes before its effect (R98). -/
  passed : Bool := false
  /-- The effects bit (R319). -/
  effects : Bool := false
  /-- Boosted by R101; its issue cycles stand in `starve`. -/
  boost : Bool := false
  /-- Issue cycles of the warp this lane has been ready through without issuing (R101). -/
  starve : Nat := 0
  task : Option Task := none
deriving DecidableEq, Repr, Inhabited

/-- One pending register or predicate write. -/
structure PWrite where
  lane : Nat
  file : RFile
  idx : Nat
  val : W64
deriving DecidableEq, Repr, Inhabited

/-- The results of one variable-latency instruction (R97). -/
structure Pend where
  /-- Lanes whose results have not committed. -/
  lanes : W32 := 0
  uni : Bool := false
  /-- The result has arrived and can commit (log 14). -/
  ready : Bool := false
  pc : W64 := 0
  writes : List PWrite := []
  /-- Flags to set at commit, by lane (R137). -/
  flags : Map (BitVec 7) := []
  /-- Scope of an acquire that takes effect at commit (R99, R260). -/
  acq : Option Nat := none
  /-- First poisoned address of each lane that read a poisoned line (R200). -/
  poison : Map W64 := []
deriving DecidableEq, Repr, Inhabited

/-- What a party holds of its arrivals at one group (R264, R265). -/
structure Arrive where
  /-- Lanes that have entered the present phase. -/
  mask : W32 := 0
  /-- A drop is among them. -/
  drop : Bool := false
  /-- The phase of the last counted arrival, by how many had completed before it. -/
  round : Nat := 0
  counted : Bool := false
  dropped : Bool := false
deriving DecidableEq, Repr, Inhabited

/-- What a wave holds in place of a block (R45, R302, R363). -/
structure Wave where
  entry : W64 := 0
  budget : Nat := 0
  cls : Nat := 0
  aspace : Nat := 0
  fpflags : BitVec 7 := 0
  trapctl : Bool := false
  kib : Nat := 0
deriving DecidableEq, Repr, Inhabited

/-- A warp in a slot (R93). -/
structure Warp where
  /-- The block slot of the cluster, or none for a wave. -/
  blk : Option Nat := none
  bw : Nat := 0
  wave : Option Wave := none
  age : Nat := 0
  lanes : Map Lane := []
  w : Map W32 := []
  /-- Rejoin masks M and arrival vectors H (R102). -/
  jm : Map W32 := []
  jh : Map W32 := []
  pend : List Pend := []
  frame : Frame := {}
  arr : Map Arrive := []
  /-- Boosted by R101. -/
  boost : Bool := false
  /-- Runnable without issuing since this cycle (R101). -/
  since : Nat := 0
deriving DecidableEq, Repr, Inhabited

/-- A spine context (R40). -/
structure Spine where
  blk : Nat := 0
  live : Bool := false
  pc : W64 := 0
  s : Map W64 := []
  p : BitVec 16 := 0
  hold : Hold := .free
  trap : Bool := false
  waitOnly : Bool := false
  frame : Frame := {}
  arr : Map Arrive := []
deriving DecidableEq, Repr, Inhabited

/-- The states of a sequencer (R213). -/
inductive SeqState where
  | idle | run | rdv | done | fault
deriving DecidableEq, Repr, Inhabited

/-- A sequencer (R213). -/
structure Seqr where
  st : SeqState := .idle
  blk : Nat := 0
  pc : W64 := 0
  e : Map W64 := []
  p : BitVec 4 := 0
  hold : Hold := .free
  /-- Engine commands it issued that have not completed (R214). -/
  flight : Nat := 0
  /-- In RDV: the groups at which it arrived there, by table index and phase (R217, R301). -/
  came : List (Nat × Nat) := []
deriving DecidableEq, Repr, Inhabited

/-- A group-table entry (R21). -/
structure GroupEntry where
  valid : Bool := false
  blk : Nat := 0
  drops : Nat := 0
  arrived : Nat := 0
  expect_ : Nat := 0
  away : Bool := false
  phase : Bool := false
  /-- Phases completed so far; PHASE is its parity (R22, R265). -/
  round : Nat := 0
  pcode : Nat := 0
  cseq : Bool := false
  mseq : Bool := false
  spine : Bool := false
  /-- Member warp slots of the cluster. -/
  warps : BitVec 64 := 0
deriving DecidableEq, Repr, Inhabited

/-- A peg (R268, R271). -/
structure Peg where
  gather : Bool := false
  full : Bool := false
  val : W64 := 0
  cnt : Nat := 0
  gen : Nat := 0
  /-- Seen bits by warp slot. -/
  seen : BitVec 64 := 0
  seenSpine : BitVec 4 := 0
  /-- The armed control word (R271). -/
  armed : W32 := 0
  /-- Contributions of the present round by slot. -/
  contrib : Map W64 := []
deriving DecidableEq, Repr, Inhabited

/-- One activation bank (R187). -/
structure ActBank where
  y0 : Map W32 := []
  y1 : Map W32 := []
  lo : W32 := 0
  scl : W32 := 0
  tag : W32 := 0
deriving DecidableEq, Repr, Inhabited

/-- A SIMT core's own state (R187, R100). -/
structure Core where
  live : ActBank := {}
  shadow : ActBank := {}
  last : Option Nat := none
deriving DecidableEq, Repr, Inhabited

/-- A TCOPY command in the copy engine's queue (R226). -/
structure CopyCmd where
  blk : Nat := 0
  desc : List Byte := []
  /-- Address of the descriptor, for the frame of a poisoned source (R292). -/
  addr : W64 := 0
  /-- Scratchpad-side base in place of the descriptor's. -/
  base : Option Nat := none
  ring : Option Nat := none
  /-- Frame address of the counter, when it names one, and its virtual address. -/
  ctr : Option Nat := none
  ctrVa : W64 := 0
  /-- The step of its issue (R65). -/
  born : Nat := 0
  /-- Chunks written so far (R228). -/
  chunk : Nat := 0
  poison : Bool := false
  /-- Issued by the copy sequencer (0), the matrix sequencer (1), or another party. -/
  seq : Option Nat := none
  /-- Parked by a failed walk (R228). -/
  parked : Bool := false
  /-- Its slots in the rings of other blocks have been reserved (R227). -/
  begun : Bool := false
  /-- The shares it writes: cluster, block slot, base. -/
  targets : List (Nat × Nat × Nat) := []
deriving DecidableEq, Repr, Inhabited

/-- A TCOPY command whose party waits for room in the copy engine's queue (R226 step 5). -/
structure CopyHeld where
  who : Issuer := {}
  cmd : CopyCmd := {}
deriving DecidableEq, Repr, Inhabited

/-- An MMA or ACCOP command in the matrix engine's queue (R231). -/
structure MatCmd where
  blk : Nat := 0
  ext : W64 := 0
  int : Bool := false
  slotA : Nat := 0
  slotB : Nat := 0
  /-- ACCOP issued by a sequencer: SUB, range word, extension. -/
  accop : Option (Nat × Nat × W64) := none
  seq : Option Nat := none
deriving DecidableEq, Repr, Inhabited

/-- A cause that waits for the handler party of a block (R293). -/
structure Cause where
  code : Nat := 0
  addr : W64 := 0
  info : W64 := 0
  unit : Nat := 0
  pc : W64 := 0
  async : Bool := false
  /-- A POISON that waits for the frame of its own warp: the slot and the lanes at the switch point (R295). -/
  slot : Option Nat := none
  lanes : W32 := 0
  /-- The lanes among them that read poison. -/
  cmask : W32 := 0
deriving DecidableEq, Repr, Inhabited

/-- An accumulator allocation (R233). -/
structure AccAlloc where
  first : Nat := 0
  count : Nat := 0
  cb : Nat := 1
  owners : List Nat := []
deriving DecidableEq, Repr, Inhabited

/-- A group declaration of the image (R14). -/
structure GroupDecl where
  warps : BitVec 64 := 0
  extras : Nat := 0
  remote : Nat := 0
deriving DecidableEq, Repr, Inhabited

/-- A ring declaration of the image (R15). -/
structure RingDecl where
  number : Nat := 0
  pclass : Nat := 0
  cclass : Nat := 0
  desc : Nat := 0
  slot0 : Nat := 0
  slotsz : Nat := 0
  nslots : Nat := 0
deriving DecidableEq, Repr, Inhabited

/-- The fields of a kernel image that a launch uses (R10 to R16). -/
structure Image where
  base : W64 := 0
  codeSize : Nat := 0
  warpEnt : Nat := 0
  spineEnt : Nat := 0
  trapEnt : Nat := 0
  bx : Nat := 1
  byy : Nat := 1
  bz : Nat := 1
  budget : Nat := 1
  cls : Nat := 0
  pegs : Nat := 0
  regg : Nat := 1
  spg : Nat := 0
  accg : Nat := 0
  groups : List GroupDecl := []
  rings : List RingDecl := []
deriving DecidableEq, Repr, Inhabited

/-- A resident block (R40, R69, R70, R311). -/
structure Block where
  lnum : Nat := 0
  blk : Nat := 0
  aspace : Nat := 0
  img : Image := {}
  nx : Nat := 1
  ny : Nat := 1
  nz : Nat := 1
  crec : W64 := 0
  /-- Physical granules, pegs and group entries by block-relative index. -/
  granules : List Nat := []
  pegMap : List Nat := []
  groupMap : List Nat := []
  /-- Warp slots by block warp index. -/
  slots : List Nat := []
  spineCtx : Option Nat := none
  /-- Scratchpad bytes by offset. -/
  scratch : Map Byte := []
  /-- Granules whose scratchpad bytes were cleared to zero at dispatch (R69). -/
  clean : List Nat := []
  /-- The step of its dispatch, the index of its free scratchpad bytes (log 7). -/
  born : Nat := 0
  /-- Accumulator elements by bank, row and column. -/
  acc : Map W32 := []
  allocs : List AccAlloc := []
  fpflags : BitVec 7 := 0
  trapctl : Bool := false
  causes : List Cause := []
  aborted : Bool := false
  /-- The reduction of R311 so far. -/
  maxSt : Nat := 0
  nonzero : Nat := 0
  maxId : Nat := 0
  parties : Nat := 0
  anySt : Bool := false
  spineSt : Bool := false
  /-- Being saved (R307). -/
  saving : Bool := false
deriving DecidableEq, Repr, Inhabited

/-- A FORK that waits for a sequencer (R215), in arrival order. -/
structure ForkWait where
  who : Issuer := {}
  mask : Nat := 0
deriving DecidableEq, Repr, Inhabited

/-- A cluster (R2). -/
structure Cluster where
  warps : Map Warp := []
  spines : Map Spine := []
  spineLast : Nat := 0
  mseq : Seqr := {}
  cseq : Seqr := {}
  forkQ : List ForkWait := []
  copyQ : List CopyCmd := []
  copyHeld : List CopyHeld := []
  matQ : List MatCmd := []
  groups : Map GroupEntry := []
  pegs : Map Peg := []
  cores : Map Core := []
  blocks : Map Block := []
  /-- The launch number and block of the last holder of each granule; none under the key when never held (R69). -/
  holders : Map (Option Nat) := []
  /-- Reserved for a waiting block by R71. -/
  reserved : Option Nat := none
  /-- The least queue that the gatherer's next turn may serve (R44). -/
  nextQueue : Nat := 0
deriving DecidableEq, Repr, Inhabited

/-! ### Memory -/

/-- The states of a line at its home (R278). -/
inductive LineSt where
  | I | S | E | M | O | X
deriving DecidableEq, Repr, Inhabited

/-- The sideband of a line (R278); its CHECK is the code of line and rest, but in a line of `Memory.upsets` (log 18). -/
structure Side where
  st : LineSt := .I
  owner : Nat := 0
  mode : Bool := false
  shr : BitVec 16 := 0
  poison : Bool := false
deriving DecidableEq, Repr, Inhabited

/-- The states of a line in an agent (R283); P holds a line of a private page (R192). -/
inductive CacheSt where
  | M | O | E | S | P
deriving DecidableEq, Repr, Inhabited

/-- A line in an agent's cache. -/
structure CLine where
  st : CacheSt := .S
  data : Line := 0
  dirty : Bool := false
  poison : Bool := false
  /-- Allocated by an access with the hint .STRM: first in line to leave its set (R197). -/
  strm : Bool := false
  /-- Its way in its set of an L2 slice; 16 before it has one (R191). -/
  way : Nat := 16
deriving DecidableEq, Repr, Inhabited

/-- A line in an L1 (R191, R192). -/
structure L1Line where
  data : Line := 0
  valid : BitVec 128 := 0
  dirty : BitVec 128 := 0
  shared : Bool := false
  poison : Bool := false
  /-- Allocated by an access with the hint .STRM (R197). -/
  strm : Bool := false
deriving DecidableEq, Repr, Inhabited

/-- The messages of R281. -/
inductive MsgKind where
  | rdS | rdX | upg | wbD | cln | hR | hW | rR | fwdS | fwdX | fwdH | inv | rcl | data | noData | ack
deriving DecidableEq, Repr, Inhabited

/-- A message in flight about a line. -/
structure Msg where
  kind : MsgKind := .rdS
  line : Nat := 0
  /-- The agent that sends it (to the home) or receives it (from the home). -/
  slot : Nat := 0
  /-- The requester B of a forward. -/
  req : Nat := 0
  data : Line := 0
  poison : Bool := false
  /-- Bytes that an HW writes. -/
  mask : BitVec 128 := 0
  /-- An answer to a probe, not a fill of a request. -/
  toHome : Bool := false
  /-- For a fill: the state it installs. -/
  fill : CacheSt := .S
deriving DecidableEq, Repr, Inhabited

/-- The request a home is carrying out for a line (R280). -/
structure Txn where
  req : Msg := {}
  /-- Agents whose answers are awaited. -/
  await : List Nat := []
  /-- The owner's data, when it answered with Data. -/
  got : Option (Line × Bool) := none
deriving DecidableEq, Repr, Inhabited

/-- A reservation of LR (R261): cluster, or 160 + hart for an application core (R68); spine or warp, slot; line; the agent
that performs its atomics. -/
structure Resv where
  g : Nat := 0
  spine : Bool := false
  slot : Nat := 0
  line : Nat := 0
  agent : Nat := 0
deriving DecidableEq, Repr, Inhabited

/-- A line in which DRAM holds an error: its sideband bits and its data as they stand (R278). -/
structure Upset where
  side : BitVec 128 := 0
  data : Line := 0
deriving DecidableEq, Repr, Inhabited

/-- Memory and the caches (R49, R191, R276 to R290). -/
structure Memory where
  /-- Bytes by physical address, in canonical form; an unlisted byte reads 0 (log 1). -/
  bytes : List Host.Cell := []
  side : Map Side := []
  /-- Lines in which DRAM holds an error (R278). -/
  upsets : Map Upset := []
  /-- L1 lines by cluster and line. -/
  l1 : Map L1Line := []
  /-- Agent lines by slot and line. -/
  cache : Map CLine := []
  /-- Lines an agent has written back and the home has not acknowledged (R284). -/
  wb : Map CLine := []
  /-- Fills in flight that a probe has overtaken: used once and not installed (R284). -/
  once : List (Nat × Nat) := []
  msgs : List Msg := []
  txns : Map Txn := []
  /-- The last fill an agent took for waiting loads (R284), by slot and line. -/
  fills : Map (Line × Bool) := []
  resv : List Resv := []
deriving DecidableEq, Repr, Inhabited

/-! ### Translation -/

/-- A leaf translation held in a TLB (R57, R60). -/
structure Tlb where
  aspace : Nat := 0
  /-- Virtual page of 32 KiB where the translation begins, and its pages. -/
  vpn : Nat := 0
  pages : Nat := 1
  /-- Physical address of the first byte. -/
  pa : Nat := 0
  cls : Nat := 0
  owner : Nat := 0
  r : Bool := false
  w : Bool := false
  x : Bool := false
  /-- User mode of the application cores may access (R53, R68). -/
  u : Bool := false
  /-- The entry's D bit is set (R56). -/
  d : Bool := false
deriving DecidableEq, Repr, Inhabited

/-- The kinds of access of a walk (R62 KINDS). -/
inductive Access where
  | read | write | fetch | atomic
deriving DecidableEq, Repr, Inhabited

/-- Who asked for a walk, and is parked by its failure (R61, R62). -/
inductive Requester where
  /-- Lanes, a spine context or a sequencer at an instruction, the lanes that touch the page, and the lanes of the issuing
  group whose guard fails, which advance with it. -/
  | party (i : Issuer) (m rest : W32)
  /-- The copy engine of a cluster at its running command. -/
  | copy (g : Nat)
  /-- A command processor at a queue. -/
  | queue (q : Nat)
  /-- A gatherer's pull from a queue: cluster, queue, and what it was reading: 0 slot, 1 counter or header. -/
  | pull (g q stage : Nat)
  /-- A sill command. -/
  | sill (i : Nat)
  /-- A retirement write: launch or block of a launch, by index in the list of such writes (R365). -/
  | retire (i : Nat)
deriving DecidableEq, Repr, Inhabited

/-- A walk in flight, or parked until MIG clears or a widening ends (R57, R60, R289). -/
structure Walk where
  die : Nat := 0
  aspace : Nat := 0
  va : W64 := 0
  acc : Access := .read
  /-- Requests that joined the walk, each with its address and access (R60). -/
  who : List (Requester × W64 × Access) := []
deriving DecidableEq, Repr, Inhabited

/-- A fault-queue record (R62). -/
structure FqRec where
  die : Nat := 0
  idx : Nat := 0
  page : W64 := 0
  aspace : Nat := 0
  kinds : Nat := 0
  reason : Nat := 0
  count : Nat := 0
  first : Nat := 0
  seq : Nat := 0
  who : List (Requester × W64 × Access) := []
  /-- The record has a place in the queue; none when the queue was full. -/
  placed : Bool := true
deriving DecidableEq, Repr, Inhabited

/-- A WIDEN request at the owner die (R289). -/
structure Widen where
  die : Nat := 0
  aspace : Nat := 0
  va : W64 := 0
  /-- Who touches it: a cluster, or none for the hub's requesters. -/
  toucher : Option Nat := none
deriving DecidableEq, Repr, Inhabited

/-- An invalidation in flight (R65). -/
structure Inval where
  all : Bool := false
  aspace : Nat := 0
  /-- First page and pages; none for the whole space. -/
  range : Option (Nat × Nat) := none
  ats : Bool := false
  ctr : Nat := 0
  inc : Nat := 0
  /-- The step at which its translations went; until the accesses made through them are performed it waits (R65). -/
  shot : Option Nat := none
deriving DecidableEq, Repr, Inhabited

/-- A waiter on a counter (R42): a lane, context, sequencer, or the WAITSEQ of a queue. -/
structure CtrWait where
  pa : Nat := 0
  thr : Nat := 0
  /-- The predicate that receives POISON. -/
  pd : Nat := 0
  scope : Nat := 7
  /-- The counter's virtual address, for ADDR of a cause (R292). -/
  va : W64 := 0
  who : Issuer := {}
  lane : Nat := 0
  die : Nat := 0
  /-- Watched at the home; otherwise the die polls. -/
  watched : Bool := true
  /-- Decided by a write at the home, with the poison it left (R42). -/
  sat : Option Bool := none
deriving DecidableEq, Repr, Inhabited

/-- Translation state (R55 to R67). -/
structure Xlate where
  /-- Cluster TLBs by cluster, die TLBs by die. -/
  ctlb : Map (List Tlb) := []
  dtlb : Map (List Tlb) := []
  /-- Walk caches by die: space, level, index path, and the pointer entry (R60). -/
  wcache : Map (List (Nat × Nat × Nat × W64)) := []
  walks : List Walk := []
  widens : List Widen := []
  recs : List FqRec := []
  /-- Records of each die so far (R62 SEQ). -/
  seq : Map Nat := []
  /-- Round-robin PC group of each stack (R59). -/
  rr : Map Nat := []
  xlHead : Nat := 0
  invals : List Inval := []
  /-- Access counts by frame and die, accesses since the last sample, and the cycle of each sill's last clearing (R67). -/
  mig : Map Nat := []
  migPhase : Map Nat := []
  migSince : Map Nat := []
  /-- Counter watches: frame address and die mask, by registration order (R42). -/
  watch : List (Nat × Nat) := []
  waiters : List CtrWait := []
  /-- The cycle at which a die last read a counter that it polls, by frame address × 16 + die (R42). -/
  polls : Map Nat := []
  /-- Translations held by attached devices (R349): requester ID by port, and the translation. -/
  ats : List (Nat × Tlb) := []
deriving DecidableEq, Repr, Inhabited

/-! ### Queues and launches -/

/-- A construct open in a command stream (R34). -/
inductive Nest where
  /-- A LOOP: where its body begins, and turns left. -/
  | loop (start : Nat) (left : Nat)
  /-- An IF whose body runs; or which is being skipped to its ELSE or ENDIF. -/
  | ifBody
  /-- An ELSE part that runs. -/
  | elseBody
  | skipIf (depth : Nat)
  | skipElse (depth : Nat)
  /-- A LOOP of count 0 being skipped. -/
  | skipLoop (depth : Nat)
deriving DecidableEq, Repr, Inhabited

/-- A called stream or the ring itself (R34). -/
structure Stream where
  /-- Address of the stream's start; none for the ring. -/
  base : Option W64 := none
  /-- Words taken so far: the ring's free-running position, or the offset in the stream. -/
  pos : Nat := 0
  nest : List Nest := []
deriving DecidableEq, Repr, Inhabited

/-- A completion-queue entry without its device-written bytes (R315). -/
structure CqEntry where
  kind : Nat := 0
  subkind : Nat := 0
  payload : List Byte := []
  /-- The thread whose append it is. -/
  party : Option Thread := none
  /-- The step at which it reached the hub (R65). -/
  born : Nat := 0
deriving DecidableEq, Repr, Inhabited

/-- The device's side of a queue (R29, R30, R367). -/
structure Queue where
  /-- QSTAT: 0 disabled, 1 running, 2 stopped, 3 draining. -/
  stat : Nat := 0
  base : W64 := 0
  type : Nat := 0
  log : Nat := 0
  assign : Nat := 0
  aspace : Nat := 0
  errMsi : W64 := 0
  head : Nat := 0
  tail : Nat := 0
  errCode : Nat := 0
  errAddr : W64 := 0
  /-- Command queue: the ring's stream last, called streams before it. -/
  streams : List Stream := []
  /-- Words of the stopped command, to resume after it; 0 when no command stopped (R36). -/
  stopLen : Nat := 0
  /-- Words of the command under way, from its own header (R36). -/
  cmdLen : Nat := 0
  /-- A FENCE under way, and whether it waits for launches too (R34). -/
  fence : Bool := false
  fenceAll : Bool := false
  /-- A WAITSEQ under way: its counter's frame address. -/
  waitseq : Option Nat := none
  /-- A WAITSEQ released at a notification, with the poison it saw (R42). -/
  released : Option Bool := none
  /-- Parked by a failed walk (R61). -/
  parked : Bool := false
  /-- A command's effect is under way: it has been parked and not ended (R367). -/
  busy : Bool := false
  /-- Launches from this queue that have not retired. -/
  launches : List Nat := []
  /-- Task queue: next record to pull, and records retired at or above HEAD. -/
  pull : Nat := 0
  retired : List Nat := []
  /-- Records pulled and neither retired nor done. -/
  live : Nat := 0
  /-- Completion queue: waiting entries, un-notified entries and the time of the oldest, overwritten count (R317,
  R318). -/
  waiting : List CqEntry := []
  unnotified : Nat := 0
  oldest : Nat := 0
  lost : Nat := 0
deriving DecidableEq, Repr, Inhabited

/-- A launch from its command to its retirement (R38, R39, R304, R314). -/
structure Launch where
  queue : Nat := 0
  aspace : Nat := 0
  img : Image := {}
  nx : Nat := 0
  ny : Nat := 0
  nz : Nat := 0
  args : W64 := 0
  done : W64 := 0
  crec : W64 := 0
  aff0 : W64 := 0
  aff1 : W64 := 0
  affStride : Nat := 0
  cq : Nat := 0xFFFF
  admitted : Bool := false
  /-- The next block to dispatch. -/
  next : Nat := 0
  retired : Nat := 0
  /-- Blocks away (R307). -/
  away : Bool := false
  /-- Save area of each saved block (R307, R308): virtual address. -/
  areas : Map Nat := []
  maxSt : Nat := 0
  maxBlk : Nat := 0
  nzBlk : Nat := 0
  abort : Bool := false
  dropped : Bool := false
  /-- Every block has retired, and DONE has been advanced (R314). -/
  doneSent : Bool := false
  /-- The cycle at which the next block began to wait for a preferred cluster; expired when it may take any (R39). -/
  affSince : Option Nat := none
  affExpired : Bool := false
deriving DecidableEq, Repr, Inhabited

/-- A retirement write that is parked on the fault path, or that must still be made (R365). -/
structure RetWrite where
  aspace : Nat := 0
  va : W64 := 0
  /-- The bytes of a record, or none for an advance of a counter by 1. -/
  bytes : List Byte := []
  advance : Bool := false
  poison : Bool := false
  lnum : Option Nat := none
  queue : Nat := 0
  /-- The cluster whose gatherer makes a task's write. -/
  g : Nat := 0
  task : Option Task := none
deriving DecidableEq, Repr, Inhabited

/-- Queues, launches and tasks. -/
structure Work where
  queues : Map Queue := []
  cpNext : Map Nat := []
  nextLnum : Nat := 0
  launches : Map Launch := []
  /-- Tasks ready at each cluster's gatherer, and the wait table of each die (R44, R45). -/
  ready : Map (List Task) := []
  table : Map (List Task) := []
  /-- Pulls that a failed walk parks, by queue, with the record as far as it is read (R368). -/
  parkedPull : Map Task := []
  retWrites : Map RetWrite := []
  nextRet : Nat := 0
  age : Nat := 0
deriving DecidableEq, Repr, Inhabited

/-! ### Engines outside the clusters, pre-emption -/

/-- A sill command in progress (R207). -/
structure SillCmd where
  /-- 0 copy, 1 zero, 2 bank operation. -/
  op : Nat := 0
  g : Nat := 0
  aspace : Nat := 0
  dst : W64 := 0
  srcA : W64 := 0
  srcB : W64 := 0
  n : Nat := 0
  next : Nat := 0
  bop : Nat := 0
  ety : Nat := 0
  ctr : Nat := 0
  inc : Nat := 0
  /-- The counter's virtual address, and the step of issue (R65). -/
  ctrVa : W64 := 0
  born : Nat := 0
  parked : Bool := false
deriving DecidableEq, Repr, Inhabited

/-- A line that a CMAINT of a thread has still to bring into its state (R206). -/
structure Maint where
  who : Thread := {}
  line : Nat := 0
  cls : Nat := 0
  /-- CLINV: its copies are removed. -/
  inv : Bool := false
deriving DecidableEq, Repr, Inhabited

/-- A collective step issued here (R237, R239). -/
structure Coll where
  g : Nat := 0
  aspace : Nat := 0
  op : Nat := 0
  wire : Nat := 0
  src : W64 := 0
  dst : W64 := 0
  resid : W64 := 0
  len : Nat := 0
  npart : Nat := 0
  rank : Nat := 0
  peers : List Nat := []
  sq : W32 := 0
  sd : W32 := 0
  ctr : Option Nat := none
  inc : Nat := 0
  stepId : W32 := 0
  start : Nat := 0
  /-- Its buffers are written; its counter waits until the writes are performed (R253). -/
  written : Bool := false
  /-- The block that issued it, by launch and index; none of a task (R313). -/
  blk : Option (Nat × Nat) := none
  /-- The counter's virtual address, and the step of issue (R65). -/
  ctrVa : W64 := 0
  born : Nat := 0
deriving DecidableEq, Repr, Inhabited

/-- A save under way (R307): its launch, its blocks and their areas, and its counter. -/
structure SaveOp where
  lnum : Nat := 0
  blks : List Nat := []
  ctr : Nat := 0
  inc : Nat := 0
deriving DecidableEq, Repr, Inhabited

/-- A saved block (R308): the block, and its parties, pegs and group entries by block-relative index. Masks of warp slots
hold block warp indexes. -/
structure Saved where
  blk : Block := {}
  /-- Warps by block warp index. -/
  warps : Map Warp := []
  spine : Option Spine := none
  mseq : Option Seqr := none
  cseq : Option Seqr := none
  copyQ : List CopyCmd := []
  copyHeld : List CopyHeld := []
  pegs : Map Peg := []
  groups : Map GroupEntry := []
  /-- The cluster and block slot it was saved from. -/
  g : Nat := 0
  slot : Nat := 0
deriving DecidableEq, Repr, Inhabited

/-- Pre-emption, sill commands and collective steps. -/
structure Engines where
  /-- Lines of CMAINTs under way (R206). -/
  maints : List Maint := []
  sills : Map SillCmd := []
  nextSill : Nat := 0
  colls : Map Coll := []
  nextColl : Nat := 0
  pmHead : Nat := 0
  save : Option SaveOp := none
  /-- The cycle since which the RESTORE at the head of the ring waits for a preferred cluster (R309). -/
  restSince : Option Nat := none
  /-- Device-private contents of saved blocks, by the token that the sequencer section of their area holds (R308, log
  23). -/
  saved : Map Saved := []
  nextSaved : Nat := 1
deriving DecidableEq, Repr, Inhabited

/-! ### Package -/

/-- Power (R353, R358, R360). -/
inductive Power where
  | off | running | frozen
deriving DecidableEq, Repr, Inhabited

/-- Boot (R353, R354). -/
structure Boot where
  /-- BOOTSTAT [7:0] and [15:8]. -/
  stat : Nat := 0
  code : Nat := 0
  len : W64 := 0
  stage : Map Byte := []
  measure : List Byte := List.replicate 64 0
  /-- Firmware held by command processors and stacks. -/
  cpFw : BitVec 16 := 0
  sillFw : BitVec 12 := 0
  /-- Physical address at which hart 0 was released. -/
  hart0 : Option Nat := none
deriving DecidableEq, Repr, Inhabited

/-- An application core's translation state (R68). -/
structure Hart where
  /-- satp: MODE, ASID and PPN. -/
  satp : W64 := 0
  tlb : List Tlb := []
deriving DecidableEq, Repr, Inhabited

/-- A link of a PCIe root port (R349). -/
structure Link where
  width : Nat := 0
  /-- Transfers per second on a lane, in units of 10^9. -/
  gts : Nat := 0
  flit : Bool := false
deriving DecidableEq, Repr, Inhabited

/-- A request to another package that has no reply (R286, R352). -/
structure TlReq where
  line : Nat := 0
  write : Bool := false
  /-- Package time at which it was sent, in nanoseconds. -/
  since : Nat := 0
  /-- The threads that wait for it. -/
  who : List Thread := []
  /-- The port that it takes (R352). -/
  port : Nat := 0
  /-- The step at which it was sent (R65). -/
  born : Nat := 0
deriving DecidableEq, Repr, Inhabited

/-- Application cores, errors, ports, links and checkpoints (R68, R347 to R359). -/
structure Outside where
  harts : Map Hart := []
  /-- Writes of engines to stack 15 that the hub has not performed: offset, bytes, value; oldest first (R49). -/
  posted : List (Nat × Nat × Nat) := []
  /-- Times in nanoseconds of the last two corrected errors of each frame and unit, keyed by the CTL_RASEVENT word
  (R356). -/
  errs : Map (List Nat) := []
  /-- L2 ways disabled: slice × 16 + way, slices counted die by die (log 77). -/
  ways : List Nat := []
  /-- Units classified that wait for their present work (R356). -/
  fencing : List W64 := []
  /-- Frames kept out of every pool. -/
  badFrames : List Nat := []
  /-- Interrupts pending in the IMSICs: hart × 2^18 + file × 2^12 + identity (R347). -/
  msis : List Nat := []
  /-- Links into which each root port is split: 1 unless it is bifurcated (R349). -/
  split : Map Nat := []
  /-- The links that have trained, by port × 4 + link (R349). -/
  links : Map Link := []
  /-- Ports under link IDE, and selective IDE streams, by port × 8 + stream (R349). -/
  linkIde : List Nat := []
  streams : List Nat := []
  /-- Flits replayed on each Tlain port (R351). -/
  replays : Map Nat := []
  /-- Answers sent to attached functions and application cores, newest first. -/
  answers : List (List Byte) := []
  /-- Requests to other packages without a reply (R352). -/
  tlain : List TlReq := []
  /-- SPDM answers sent, newest first (R355). -/
  spdm : List (List Byte) := []
  /-- Lines streamed to a mirror package (R359): package, and how many. -/
  mirror : List (Nat × Nat) := []
deriving DecidableEq, Repr, Inhabited

/-- A cause that aborts a block (R297): the lanes that raised it, the block's slot, the code. -/
structure Doom where
  who : Issuer := {}
  blk : Nat := 0
  code : Nat := 0
deriving DecidableEq, Repr, Inhabited

/-- The state of the package. -/
structure State where
  /-- The model's own: steps taken, the index of free values (log 2). -/
  ticks : Nat := 0
  /-- The model's own: what acts next (log 2). -/
  agenda : List Config.Turn := []
  /-- The model's own: groups formed by a vote that have not issued (R94). -/
  ports : List Issuer := []
  /-- An abort that waits until the other group of its warp's cycle has completed its instruction (R96). -/
  doom : Option Doom := none
  /-- The model's own: the party whose operation is executed. -/
  cur : Issuer := {}
  power : Power := .running
  boot : Boot := {}
  out : Outside := {}
  /-- Cycles of each die's clock (R119). -/
  clk : Map Nat := []
  /-- Package time (R119). -/
  ns : Nat := 0
  /-- Control registers written since reset, by instance × 4096 + number (R305). -/
  ctl : Map W64 := []
  mem : Memory := {}
  xl : Xlate := {}
  work : Work := {}
  eng : Engines := {}
  clusters : Map Cluster := []
deriving DecidableEq, Repr, Inhabited

/-! ### Stops -/

/-- Why a step stops with a fault: the spec gives every operation an effect, so no meaning raises one. -/
inductive Fault where
  /-- Raised by nobody: kept so that the type has a name for a stop. Safe. -/
  | stuck (why : String)
deriving DecidableEq, Repr, Inhabited

/-- Why a step is refused. -/
inductive Refusal where
  /-- An operation whose meaning is not written. Safe: nothing is claimed about it. -/
  | notModelled (mnemonic : String)
deriving DecidableEq, Repr, Inhabited

/-- The package right after reset: every field is as the spec gives it, or zero, empty or idle where the spec gives no
reset value (log 6). -/
def State.reset : State := {}

end Sys2Proof.Machine
end

