-- ==== Sys2Proof/Machine/Regs.lean ====
section
/-! DEFINITION. Where the registers live: accessors of clusters, warps, lanes, contexts, sequencers, blocks and control
registers, and the clocks. -/

namespace Sys2Proof.Machine

/-- The result of an operation. -/
abbrev Out := Host.Outcome State Fault Refusal

/-- Insert by an order, after what may stand before it. -/
def insertBy {α : Type} (le : α → α → Bool) (x : α) : List α → List α
  | [] => [x]
  | y :: r => if le y x then y :: insertBy le x r else x :: y :: r

/-- Sort by an order; equals keep their places. -/
def sortBy {α : Type} (le : α → α → Bool) (l : List α) : List α := l.foldl (fun r x => insertBy le x r) []

/-! ### Clusters and their parties -/

/-- The cluster of a global number. -/
def State.cl (s : State) (g : Nat) : Cluster := s.clusters.get g {}
/-- Put a cluster back. -/
def State.setCl (s : State) (g : Nat) (c : Cluster) : State := { s with clusters := s.clusters.put g c }
/-- Change a cluster. -/
def State.updCl (s : State) (g : Nat) (f : Cluster → Cluster) : State := s.setCl g (f (s.cl g))

/-- The warp in a slot. -/
def State.warp (s : State) (g k : Nat) : Warp := (s.cl g).warps.get k {}
/-- Change the warp in a slot. -/
def State.updWarp (s : State) (g k : Nat) (f : Warp → Warp) : State :=
  s.updCl g (fun c => { c with warps := c.warps.put k (f (c.warps.get k {})) })

/-- A lane of a warp. -/
def Warp.lane (w : Warp) (l : Nat) : Lane := w.lanes.get l {}
/-- Change a lane of a warp. -/
def Warp.updLane (w : Warp) (l : Nat) (f : Lane → Lane) : Warp := { w with lanes := w.lanes.put l (f (w.lane l)) }
/-- A lane of a warp of a cluster. -/
def State.lane (s : State) (g k l : Nat) : Lane := (s.warp g k).lane l
/-- Change a lane of a warp of a cluster. -/
def State.updLane (s : State) (g k l : Nat) (f : Lane → Lane) : State := s.updWarp g k (fun w => w.updLane l f)
/-- Change several lanes. -/
def State.updLanes (s : State) (g k : Nat) (ls : List Nat) (f : Nat → Lane → Lane) : State :=
  s.updWarp g k (fun w => ls.foldl (fun w l => w.updLane l (f l)) w)

/-- The live lanes of a warp (R93). -/
def Warp.liveMask (w : Warp) : W32 := lanesMask (lanes32.filter (fun l => (w.lane l).live))

/-- The cores of a cluster when new warps come into some slots: none of those is the warp that its core issued last (R100). -/
def Cluster.freshCores (c : Cluster) (slots : List Nat) : Map Core :=
  c.cores.mapv (fun _ x => if x.last.any slots.contains then { x with last := none } else x)

/-- A spine context. -/
def State.spine (s : State) (g k : Nat) : Spine := (s.cl g).spines.get k {}
/-- Change a spine context. -/
def State.updSpine (s : State) (g k : Nat) (f : Spine → Spine) : State :=
  s.updCl g (fun c => { c with spines := c.spines.put k (f (c.spines.get k {})) })

/-- A sequencer of a cluster: the matrix one, or the copy one. -/
def State.seqr (s : State) (g : Nat) (copy : Bool) : Seqr := if copy then (s.cl g).cseq else (s.cl g).mseq
/-- Change a sequencer. -/
def State.updSeqr (s : State) (g : Nat) (copy : Bool) (f : Seqr → Seqr) : State :=
  s.updCl g (fun c => if copy then { c with cseq := f c.cseq } else { c with mseq := f c.mseq })

/-- A block by its slot in the cluster. -/
def State.block (s : State) (g b : Nat) : Block := (s.cl g).blocks.get b {}
/-- Change a block. -/
def State.updBlock (s : State) (g b : Nat) (f : Block → Block) : State :=
  s.updCl g (fun c => { c with blocks := c.blocks.put b (f (c.blocks.get b {})) })

/-- The code unit of an issuer. -/
def Issuer.code (i : Issuer) : CodeUnit :=
  match i.unit with
  | .lane => .lane
  | .mseq => .mseq
  | .cseq => .cseq
  | _ => .spine

/-- Is the issuer a sequencer, and which? -/
def Issuer.isCopy (i : Issuer) : Bool := i.unit = .cseq
def Issuer.isSeq (i : Issuer) : Bool := i.unit = .mseq || i.unit = .cseq

/-- The block slot of an issuer, none for a task lane (R363). -/
def State.blkOf (s : State) (i : Issuer) : Option Nat :=
  match i.unit with
  | .lane => (s.warp i.g i.slot).blk
  | .spine => some (s.spine i.g i.slot).blk
  | .mseq => some (s.cl i.g).mseq.blk
  | .cseq => some (s.cl i.g).cseq.blk
  | _ => none

/-- The block of an issuer; for a task lane, one that holds nothing (R363). -/
def State.blockOf (s : State) (i : Issuer) : Block :=
  match s.blkOf i with
  | some b => s.block i.g b
  | none => { img := { regg := 0 } }

/-- Change the block of an issuer; nothing for a task lane. -/
def State.updBlockOf (s : State) (i : Issuer) (f : Block → Block) : State :=
  match s.blkOf i with
  | some b => s.updBlock i.g b f
  | none => s

/-- The wave of a warp. -/
def State.waveOf (s : State) (i : Issuer) : Option Wave :=
  match i.unit with
  | .lane => (s.warp i.g i.slot).wave
  | _ => none

/-- The lane register allocation (R79). -/
def State.allocation (s : State) (i : Issuer) : Nat :=
  match s.waveOf i with
  | some w => 8 * w.budget
  | none => 8 * (s.blockOf i).img.budget

/-- The block's PEGS, 0 in a wave (R13, R363). -/
def State.pegsOf (s : State) (i : Issuer) : Nat := (s.blockOf i).img.pegs

/-- The address space of an issuer (R47). -/
def State.aspaceOf (s : State) (i : Issuer) : Nat :=
  match s.waveOf i with
  | some w => w.aspace
  | none => (s.blockOf i).aspace

/-- The class of an issuer as a waiter (R25): a spine context and a sequencer count as C. -/
def State.classOf (s : State) (i : Issuer) : Nat :=
  match i.unit with
  | .lane => match s.waveOf i with
    | some w => w.cls
    | none => (s.blockOf i).img.cls
  | _ => 0

/-- The thread at a place of an issuer: its name stays when its block moves to other slots (R19, R93, R317). -/
def State.threadOf (s : State) (c : Issuer) (l : Nat) : Thread :=
  let b := s.blockOf c
  match c.unit with
  | .lane =>
    match (s.lane c.g c.slot l).task with
    | some t => { kind := 1, a := t.queue, b := t.id }
    | none => { kind := 0, a := b.lnum, b := b.blk, t := (s.warp c.g c.slot).bw * 32 + l }
  | .spine => { kind := 2, a := b.lnum, b := b.blk }
  | .mseq => { kind := 3, a := b.lnum, b := b.blk }
  | .cseq => { kind := 4, a := b.lnum, b := b.blk }
  | _ => { kind := 5, a := c.slot }

/-- The threads that wait for the answers of an access by some places: lanes, whose results stay pending (R97). -/
def State.waiting (s : State) (c : Issuer) (ls : List Nat) : List Thread :=
  match c.unit with
  | .lane => ls.map (s.threadOf c)
  | _ => []

/-! ### Registers -/

/-- v register of a lane. -/
def State.v (s : State) (g k l r : Nat) : W32 := (s.lane g k l).v.get r 0
/-- w register of a warp. -/
def State.w (s : State) (g k r : Nat) : W32 := (s.warp g k).w.get r 0
/-- s register of a spine context; s0 reads as zero (R79). -/
def State.sreg (s : State) (g k r : Nat) : W64 := if r = 0 then 0 else (s.spine g k).s.get r 0
/-- e register of a sequencer. -/
def State.ereg (s : State) (g : Nat) (copy : Bool) (r : Nat) : W64 := (s.seqr g copy).e.get r 0

/-- Write a v register. -/
def State.setV (s : State) (g k l r : Nat) (x : W32) : State :=
  s.updLane g k l (fun n => { n with v := n.v.put r x })
/-- Write a w register. -/
def State.setW (s : State) (g k r : Nat) (x : W32) : State :=
  s.updWarp g k (fun w => { w with w := w.w.put r x })
/-- Write an s register; a write of s0 is discarded (R79). -/
def State.setS (s : State) (g k r : Nat) (x : W64) : State :=
  if r = 0 then s else s.updSpine g k (fun c => { c with s := c.s.put r x })
/-- Write an e register. -/
def State.setE (s : State) (g : Nat) (copy : Bool) (r : Nat) (x : W64) : State :=
  s.updSeqr g copy (fun q => { q with e := q.e.put r x })

/-- Set bit k of a predicate word. -/
def setBit {n : Nat} (x : BitVec n) (k : Nat) (b : Bool) : BitVec n :=
  if b then x ||| (1#n <<< k) else x &&& ~~~(1#n <<< k)

/-- Predicate k of an issuer's lane, context or sequencer. -/
def State.pred (s : State) (i : Issuer) (l k : Nat) : Bool :=
  match i.unit with
  | .lane => (s.lane i.g i.slot l).p.getLsbD k
  | .spine => (s.spine i.g i.slot).p.getLsbD k
  | .mseq => (s.cl i.g).mseq.p.getLsbD k
  | .cseq => (s.cl i.g).cseq.p.getLsbD k
  | _ => false

/-- Write predicate k. -/
def State.setPred (s : State) (i : Issuer) (l k : Nat) (b : Bool) : State :=
  match i.unit with
  | .lane => s.updLane i.g i.slot l (fun n => { n with p := setBit n.p k b })
  | .spine => s.updSpine i.g i.slot (fun n => { n with p := setBit n.p k b })
  | .mseq => s.updSeqr i.g false (fun n => { n with p := setBit n.p k b })
  | .cseq => s.updSeqr i.g true (fun n => { n with p := setBit n.p k b })
  | _ => s

/-- Set the PC of an issuer's lane, context or sequencer. WAITONLY concerns the instruction left alone (R299). -/
def State.setPc (s : State) (i : Issuer) (l : Nat) (pc : W64) : State :=
  match i.unit with
  | .lane => s.updLane i.g i.slot l (fun n => { n with pc := pc, waitOnly := false, passed := false })
  | .spine => s.updSpine i.g i.slot (fun n => { n with pc := pc, waitOnly := false })
  | .mseq => s.updSeqr i.g false (fun n => { n with pc := pc })
  | .cseq => s.updSeqr i.g true (fun n => { n with pc := pc })
  | _ => s

/-- The PC of an issuer's lane, context or sequencer. -/
def State.pcOf (s : State) (i : Issuer) (l : Nat) : W64 :=
  match i.unit with
  | .lane => (s.lane i.g i.slot l).pc
  | .spine => (s.spine i.g i.slot).pc
  | .mseq => (s.cl i.g).mseq.pc
  | .cseq => (s.cl i.g).cseq.pc
  | _ => 0

/-- Set the hold of an issuer's lane, context or sequencer. -/
def State.setHold (s : State) (i : Issuer) (l : Nat) (h : Hold) : State :=
  match i.unit with
  | .lane => s.updLane i.g i.slot l (fun n => { n with hold := h })
  | .spine => s.updSpine i.g i.slot (fun n => { n with hold := h })
  | .mseq => s.updSeqr i.g false (fun n => { n with hold := h })
  | .cseq => s.updSeqr i.g true (fun n => { n with hold := h })
  | _ => s

/-- The hold of an issuer's lane, context or sequencer. -/
def State.holdOf (s : State) (i : Issuer) (l : Nat) : Hold :=
  match i.unit with
  | .lane => (s.lane i.g i.slot l).hold
  | .spine => (s.spine i.g i.slot).hold
  | .mseq => (s.cl i.g).mseq.hold
  | .cseq => (s.cl i.g).cseq.hold
  | _ => .free

/-- The lanes that an issuer's operation runs over: its group's lanes, or the one place of another party. -/
def Issuer.places (i : Issuer) : List Nat :=
  match i.unit with
  | .lane => maskLanes i.group
  | _ => [0]

/-- Set every place's hold. -/
def State.setHolds (s : State) (i : Issuer) (ls : List Nat) (h : Hold) : State :=
  ls.foldl (fun s l => s.setHold i l h) s

/-- Is lane, context or sequencer in trap mode? -/
def State.inTrap (s : State) (i : Issuer) (l : Nat) : Bool :=
  match i.unit with
  | .lane => (s.lane i.g i.slot l).trap
  | .spine => (s.spine i.g i.slot).trap
  | _ => false

/-- The save frame of an issuer's warp or context. -/
def State.frameOf (s : State) (i : Issuer) : Frame :=
  match i.unit with
  | .lane => (s.warp i.g i.slot).frame
  | _ => (s.spine i.g i.slot).frame

/-- Change the save frame of an issuer's warp or context. -/
def State.updFrame (s : State) (i : Issuer) (f : Frame → Frame) : State :=
  match i.unit with
  | .lane => s.updWarp i.g i.slot (fun w => { w with frame := f w.frame })
  | _ => s.updSpine i.g i.slot (fun w => { w with frame := f w.frame })

/-! ### Clocks and control registers -/

/-- The compute die of a global cluster (R119). -/
def dieOf (g : Nat) : Nat := g / 20

/-- Cycles of a die since reset (R119). -/
def State.cycles (s : State) (die : Nat) : Nat := s.clk.get die 0

/-- The rows of CTL_DIST at reset (R51): two bits for each stack. -/
def distReset (row : Nat) : W64 :=
  let near : List Nat := [[0, 1], [1, 2], [3, 4], [4, 5], [6, 7], [7, 8], [9, 10], [10, 11]].getD row []
  let mid : List Nat := [[2, 3, 4, 5], [0, 3, 4, 5], [0, 1, 2, 5], [0, 1, 2, 3], [8, 9, 10, 11], [6, 9, 10, 11],
    [6, 7, 8, 11], [6, 7, 8, 9], [0, 1, 2, 3, 4, 5, 6, 7, 8, 9, 10, 11]].getD row []
  BitVec.ofNat 64 ((List.range 12).foldl (fun a k =>
    a + (if near.contains k then 0 else if mid.contains k then 1 else 2) * 4 ^ k) 0)

/-- The reset value of a control register (R305, R318, R352, R356, R359). -/
def ctlReset (n : Nat) : W64 :=
  if n = 0x113 then 256 else if n = 0x114 then 1024 else if n = 0x115 then 0x1000000
  else if n = 0x117 then 64 else if n = 0x118 then 0x1000000 else if n = 0x119 then 256
  else if n = 0x11D then 86400 else if n = 0x11F then 1 else if n = 0x12A then 0xFFFF
  else if 0x120 ≤ n ∧ n ≤ 0x128 then distReset (n - 0x120)
  else if n = 0x137 then 0xFFF else if n = 0x13A then 100000
  else if n = 0x147 then 4096 else if n = 0x148 then 0x40000000 else if n = 0x149 then 64
  else 0

/-- A control register of an instance: 0 the package, 1 + d a die, 16 + g a cluster (R305). -/
def State.ctlOf (s : State) (inst n : Nat) : W64 := s.ctl.get (inst * 4096 + n) (ctlReset n)
/-- Store a control register. -/
def State.setCtl (s : State) (inst n : Nat) (x : W64) : State := { s with ctl := s.ctl.put (inst * 4096 + n) x }
/-- A package register as a number. -/
def State.pkgReg (s : State) (n : Nat) : Nat := (s.ctlOf 0 n).toNat
/-- A die register as a number. -/
def State.dieReg (s : State) (die n : Nat) : Nat := (s.ctlOf (1 + die) n).toNat
/-- A cluster's CTL_TASKG (R69). -/
def State.taskg (s : State) (g : Nat) : Nat := (s.ctlOf (16 + g) 0x200).toNat
/-- CTL_PKGID (R49). -/
def State.pkgId (s : State) : Nat := s.pkgReg 0x100

/-- Is cluster g present (R346)? -/
def State.clPresent (s : State) (g : Nat) : Bool := (s.ctlOf 0 (0x12C + g / 64)).getLsbD (g % 64)
/-- Is hart h present (R346)? -/
def State.hartPresent (s : State) (h : Nat) : Bool :=
  decide (h < 72) && (s.ctlOf 0 (0x12F + h / 64)).getLsbD (h % 64)
/-- Is stack k present (R346)? -/
def State.stackPresent (s : State) (k : Nat) : Bool := (s.ctlOf 0 0x12B).getLsbD (8 + k)
/-- Is die d present (R346)? -/
def State.diePresent (s : State) (d : Nat) : Bool := (s.ctlOf 0 0x12B).getLsbD d

/-- The clusters present, ascending. -/
def State.clustersPresent (s : State) : List Nat := (List.range 160).filter s.clPresent

/-- The lowest-numbered compute die present (R361). -/
def State.lowestDie (s : State) : Nat := ((List.range 8).find? s.diePresent).getD 0

/-- The distance from a CTL_DIST row to a stack (R51). -/
def State.dist (s : State) (row stack : Nat) : Nat := bitsN (s.pkgReg (0x120 + row)) (2 * stack) 2

end Sys2Proof.Machine
end

