-- ==== Sys2Proof/Machine/IoMap.lean ====
section
/-! DEFINITION. What stack 15 of the local package reads as: control registers through the control window, append ports and
interrupt pages (R49, R305, R316, R347). -/

namespace Sys2Proof.Machine

/-- What a register number is held per: 0 the package, 1 a die, 2 a cluster. -/
def regPer (n : Nat) : Option Nat :=
  if 0x100 ≤ n && n ≤ 0x13F then some 0
  else if 0x140 ≤ n && n ≤ 0x14A then some 1
  else if n = 0x200 || (0x280 ≤ n && n ≤ 0x2FF) then some 2
  else if 0x400 ≤ n && n ≤ 0x4FF then some 0
  else none

/-- Is a register number in use for an instance: 0 the package, 1 to 8 a die, 16 + g a cluster? -/
def regUsed (inst n : Nat) : Bool :=
  ctlDefined n && match regPer n with
  | some 0 => inst = 0
  | some 1 => 1 ≤ inst && inst ≤ 8
  | some _ => 16 ≤ inst && inst < 176
  | none => false

/-- Two words of CTL_RESIDENT for a block slot (R305). -/
def residentWord (b : Option Block) (high : Bool) : W64 :=
  match b with
  | none => 0
  | some x =>
    if high then BitVec.ofNat 64 (x.lnum % 2 ^ 32) else BitVec.ofNat 64 (2 ^ 63 + x.img.cls * 2 ^ 61 + x.blk % 2 ^ 56)

/-- A register as the control window reads it. -/
def State.regRead (s : State) (inst n : Nat) : W64 :=
  if !regUsed inst n then 0
  else if 0x280 ≤ n && n ≤ 0x2FF then residentWord ((s.cl (inst - 16)).blocks.find? ((n - 0x280) / 2)) (n % 2 = 1)
  else s.ctlOf inst n

/-- What an offset of stack 15 names. -/
inductive IoPlace where
  /-- A control register's instance, number and byte. -/
  | reg (inst num byte : Nat)
  /-- An append port's queue and byte. -/
  | port (q byte : Nat)
  /-- An interrupt page's hart, file and offset. -/
  | msi (hart file off : Nat)
  | none
deriving DecidableEq, Repr, Inhabited

/-- The place of an offset. -/
def ioPlace (off : Nat) : IoPlace :=
  if 0x10000000 ≤ off && off < 0x20000000 then
    .reg ((off - 0x10000000) / 65536) (off % 65536 / 8) (off % 8)
  else if 0x20000000 ≤ off && off < 0x20080000 then .port ((off - 0x20000000) / 8) (off % 8)
  else if 0x30000000 ≤ off && off < 0x30000000 + 0x40000 * 72 then
    .msi ((off - 0x30000000) / 0x40000) (off % 0x40000 / 0x1000) (off % 0x1000)
  else .none

/-- Read n bytes at an offset: what no rule names is free (log 24). -/
def State.ioRead (s : State) (off n : Nat) : Nat :=
  match ioPlace off with
  | .reg i k b => (s.regRead i k).toNat / 256 ^ b % 256 ^ n
  | .port q 0 => if n = 8 then (s.work.queues.get q {}).tail % 2 ^ 64 else (Config.ioWord s.ticks off).toNat % 256 ^ n
  | _ => (Config.ioWord s.ticks off).toNat % 256 ^ n

/-- The 128 bytes of stack 15 from an offset, word by word. -/
def State.ioLine (s : State) (off : Nat) : Line :=
  (List.range 16).foldl (fun x k => x ||| (BitVec.ofNat 1024 (s.ioRead (off + 8 * k) 8) <<< (64 * k))) 0

end Sys2Proof.Machine
end

