-- ==== Sys2Proof/Machine/Memory.lean ====
section
/-! DEFINITION. Bytes of memory in their canonical form, and lines of 128 bytes with their sidebands (R49, R278). -/

namespace Sys2Proof.Machine

/-- Bytes as stored. -/
abbrev Bytes := List Host.Cell

/-- What an unlisted byte reads as (log 1). -/
def emptyByte : Byte := 0

/-- The byte at an address. -/
def Bytes.get : Bytes → Nat → Byte
  | [], _ => emptyByte
  | (k, v) :: r, a => if k = a then v else Bytes.get r a

/-- Store a byte, keeping the form: addresses rising, no entry equal to what an unlisted address reads as. -/
def Bytes.put : Bytes → Nat → Byte → Bytes
  | [], a, x => if x = emptyByte then [] else [(a, x)]
  | (k, v) :: r, a, x =>
    if a < k then (if x = emptyByte then (k, v) :: r else (a, x) :: (k, v) :: r)
    else if a = k then (if x = emptyByte then r else (a, x) :: r)
    else (k, v) :: Bytes.put r a x

/-- Every key is at least a bound, keys rise, and no value is the empty one. -/
def Bytes.wfFrom : Bytes → Nat → Bool
  | [], _ => true
  | (k, v) :: r, b => decide (b ≤ k) && decide (v ≠ emptyByte) && Bytes.wfFrom r (k + 1)

/-- The canonical form. -/
def Memory.wf (m : Memory) : Bool := Bytes.wfFrom m.bytes 0

/-- Store bytes from an address. -/
def Bytes.putAll (m : Bytes) (a : Nat) : List Byte → Bytes
  | [] => m
  | b :: r => Bytes.putAll (m.put a b) (a + 1) r

/-- Read n bytes from an address. -/
def Bytes.getAll (m : Bytes) (a : Nat) : Nat → List Byte
  | 0 => []
  | n + 1 => m.get a :: Bytes.getAll m (a + 1) n

/-- Byte k of a line. -/
def lineByte (x : Line) (k : Nat) : Byte := x.extractLsb' (8 * k) 8

/-- A line with byte k replaced. -/
def setLineByte (x : Line) (k : Nat) (b : Byte) : Line :=
  (x &&& ~~~((255#1024) <<< (8 * k))) ||| ((b.setWidth 1024) <<< (8 * k))

/-- A line with bytes from k replaced. -/
def setLineBytes (x : Line) (k : Nat) : List Byte → Line
  | [] => x
  | b :: r => setLineBytes (setLineByte x k b) (k + 1) r

/-- n bytes of a line from k. -/
def lineBytes (x : Line) (k n : Nat) : List Byte := (List.range n).map (fun j => lineByte x (k + j))

/-- The mask of n bytes from k. -/
def byteMask (k n : Nat) : BitVec 128 := (List.range n).foldl (fun m j => m ||| (1#128 <<< (k + j))) 0

/-- The bytes of new where the mask is set, of old elsewhere. -/
def mergeLine (old new : Line) (m : BitVec 128) : Line :=
  (List.range 128).foldl (fun x k => if m.getLsbD k then setLineByte x k (lineByte new k) else x) old

/-- The full mask. -/
def fullMask : BitVec 128 := BitVec.allOnes 128

/-- A line of 128 bytes as it stands in DRAM; lines are numbered by address / 128. -/
def Memory.dram (m : Memory) (line : Nat) : Line :=
  setLineBytes 0 0 (Bytes.getAll m.bytes (line * 128) 128)

/-- Write a line to DRAM. -/
def Memory.setDram (m : Memory) (line : Nat) (x : Line) : Memory :=
  { m with bytes := Bytes.putAll m.bytes (line * 128) (lineBytes x 0 128) }

/-- The sideband of a line. -/
def Memory.sideOf (m : Memory) (line : Nat) : Side := m.side.get line {}
/-- Write the sideband of a line, with fresh check bits; one equal to an unlisted one is not kept. -/
def Memory.setSide (m : Memory) (line : Nat) (x : Side) : Memory :=
  { m with side := if x = {} then m.side.del line else m.side.put line x, upsets := m.upsets.del line }

/-- The code of STATE (R278). -/
def LineSt.code : LineSt → Nat
  | .I => 0
  | .S => 1
  | .E => 2
  | .M => 3
  | .O => 4
  | .X => 5

/-- Bits [31:0] of a sideband (R278). -/
def Side.word (d : Side) : BitVec 32 :=
  BitVec.ofNat 32 (d.st.code + d.owner % 256 * 2 ^ 3 + (if d.mode then 2 ^ 11 else 0) + d.shr.toNat * 2 ^ 12
    + (if d.poison then 2 ^ 28 else 0))

/-- The 128 sideband bits of a line as the sill wrote them (R278). -/
def Memory.sideWord (m : Memory) (line : Nat) : BitVec 128 :=
  Config.checkBits (m.dram line) (m.sideOf line).word ++ (m.sideOf line).word

/-- DRAM comes to hold some sideband bits and data in a line. -/
def Memory.upset (m : Memory) (line : Nat) (side : BitVec 128) (data : Line) : Memory :=
  { m with upsets := m.upsets.put line { side := side, data := data } }

/-- The bytes in which two words differ. -/
def symbolErrors (x y : Nat) : Nat → Nat
  | 0 => 0
  | n + 1 => (if x % 256 = y % 256 then 0 else 1) + symbolErrors (x / 256) (y / 256) n

/-- The symbols of 8 bits, of data and sideband, in which an error has changed a line (R278). -/
def Memory.errors (m : Memory) (line : Nat) (u : Upset) : Nat :=
  symbolErrors (m.sideWord line).toNat u.side.toNat 16 + symbolErrors (m.dram line).toNat u.data.toNat 128

/-- STATE of a code; 110 and 111 are none. -/
def LineSt.ofCode (n : Nat) : Option LineSt :=
  match n with
  | 0 => some .I
  | 1 => some .S
  | 2 => some .E
  | 3 => some .M
  | 4 => some .O
  | 5 => some .X
  | _ => none

/-- A sideband of its bits [31:0]; none when STATE is 110 or 111 (R278). -/
def Side.ofWord (w : BitVec 32) : Option Side :=
  (LineSt.ofCode (bitsN w.toNat 0 3)).map (fun st =>
    { st := st, owner := bitsN w.toNat 3 8, mode := w.getLsbD 11, shr := w.extractLsb' 12 16, poison := w.getLsbD 28 })

/-- What the sill does with a line that it reads: one wrong symbol is written back corrected, two are found and leave the line
poisoned in STATE I; more are decoded as the code may, and a STATE of 110 or 111 is as an error found (R278, log 18). -/
def Memory.findError (m : Memory) (line : Nat) : Memory :=
  match m.upsets.find? line with
  | none => m
  | some u =>
    let n := m.errors line u
    if n ≤ 1 then { m with upsets := m.upsets.del line }
    else if n = 2 then m.setSide line { poison := true }
    else match (Config.decodeLine u.data u.side).bind (fun e => (Side.ofWord e.2).map (fun d => (e.1, d))) with
      | some (x, d) => (m.setDram line x).setSide line d
      | none => m.setSide line { poison := true }

/-- The key of an agent's line. -/
def agKey (slot line : Nat) : Nat := slot * 2 ^ 45 + line
/-- A line an agent holds. -/
def Memory.cline (m : Memory) (slot line : Nat) : Option CLine := m.cache.find? (agKey slot line)
/-- Put a line into an agent. -/
def Memory.setCline (m : Memory) (slot line : Nat) (x : CLine) : Memory :=
  { m with cache := m.cache.put (agKey slot line) x }
/-- Drop a line from an agent. -/
def Memory.dropCline (m : Memory) (slot line : Nat) : Memory := { m with cache := m.cache.del (agKey slot line) }
/-- The reservations on a line that an agent holds go (R261, R283). -/
def Memory.loseResv (m : Memory) (slot line : Nat) : Memory :=
  { m with resv := m.resv.filter (fun r => !(r.line = line && r.agent = slot)) }
/-- Those that other agents hold go: another takes the line for a write (R261). -/
def Memory.othersResv (m : Memory) (slot line : Nat) : Memory :=
  { m with resv := m.resv.filter (fun r => !(r.line = line && r.agent ≠ slot)) }
/-- An agent loses a line to a probe, and the reservations held at it go (R261, R283). -/
def Memory.loseCline (m : Memory) (slot line : Nat) : Memory := (m.dropCline slot line).loseResv slot line

/-- Clear every reservation on a line (R261). -/
def Memory.clearResv (m : Memory) (line : Nat) : Memory :=
  { m with resv := m.resv.filter (fun r => r.line ≠ line) }

/-- A line an L1 holds. -/
def Memory.l1Line (m : Memory) (g line : Nat) : Option L1Line := m.l1.find? (agKey g line)
/-- Put a line into an L1. -/
def Memory.setL1 (m : Memory) (g line : Nat) (x : L1Line) : Memory := { m with l1 := m.l1.put (agKey g line) x }
/-- Drop a line from an L1. -/
def Memory.dropL1 (m : Memory) (g line : Nat) : Memory := { m with l1 := m.l1.del (agKey g line) }

/-- Change memory. -/
def State.updMem (s : State) (f : Memory → Memory) : State := { s with mem := f s.mem }

/-! ### Current data -/

/-- The agents of this package that hold a line, dirty ones first. -/
def Memory.holder (m : Memory) (line : Nat) : Option CLine :=
  let cs := (m.cache ++ m.wb).filter (fun e => e.1 % 2 ^ 45 = line)
  match cs.find? (fun e => e.2.st = .M || e.2.st = .O || e.2.dirty) with
  | some e => some e.2
  | none => none

/-- The data of a line in flight: what an owner has sent to the home, or what the home has sent to a new owner. -/
def Memory.flight (m : Memory) (line : Nat) : Option Line :=
  match m.msgs.find? (fun x => x.kind = .data && x.line = line && (x.toHome || x.fill = .M)) with
  | some x => some x.data
  | none => (m.txns.find? line).bind (fun t => t.got.map (·.1))

/-- The current data of a line: DRAM, over it data in flight or a dirty copy of an agent, and over that the dirty bytes of an
L1. -/
def Memory.peekLine (m : Memory) (line : Nat) : Line :=
  let x := match m.holder line with | some c => c.data | none => (m.flight line).getD (m.dram line)
  (m.l1.filter (fun e => e.1 % 2 ^ 45 = line)).foldl (fun x e => mergeLine x e.2.data e.2.dirty) x

/-- The current byte at a physical address. -/
def Memory.peek (m : Memory) (pa : Nat) : Byte := lineByte (m.peekLine (pa / 128)) (pa % 128)

/-- The current value of n bytes at a physical address, little-endian. -/
def Memory.peekN (m : Memory) (pa n : Nat) : Nat := leNat ((List.range n).map (fun k => m.peek (pa + k)))

/-- The current bytes of an aligned granule or record, read line by line. -/
def Memory.peekBytes (m : Memory) (pa n : Nat) : List Byte :=
  (List.range n).map (fun k => m.peek (pa + k))

/-! ### Physical addresses (R49, R50) -/

/-- The package of a physical address. -/
def paPkg (pa : Nat) : Nat := bitsN pa 40 12
/-- The stack of a physical address. -/
def paStack (pa : Nat) : Nat := bitsN pa 36 4
/-- The offset in the stack. -/
def paOff (pa : Nat) : Nat := bitsN pa 0 36
/-- The row: subarray, row within it; bank; PC group (R50). -/
def paSub (pa : Nat) : Nat := bitsN pa 32 4
def paBank (pa : Nat) : Nat := bitsN pa 18 5
def paPcg (pa : Nat) : Nat := bitsN pa 15 3
/-- Two frames that share stack, PC group, bank and subarray (R50). -/
def sameSubarray (a b : Nat) : Bool :=
  paPkg a = paPkg b && paStack a = paStack b && paPcg a = paPcg b && paBank a = paBank b && paSub a = paSub b
/-- A frame that is not present (R49): package above 1023 or stacks 12 to 14. -/
def badFrame (pa : Nat) : Bool :=
  decide (1024 ≤ paPkg pa) || (decide (12 ≤ paStack pa) && decide (paStack pa ≤ 14))
/-- Is an address in the local package (R49)? -/
def State.isLocal (s : State) (pa : Nat) : Bool := paPkg pa = s.pkgId
/-- Is an address in the I/O space (R49)? -/
def isIo (pa : Nat) : Bool := paStack pa = 15

end Sys2Proof.Machine
end

