-- ==== Sys2Proof/Machine/Link.lean ====
section
/-! DEFINITION. Interrupts that the device sends, and requests to other packages (R35, R277, R286, R347, R348, R352). -/

namespace Sys2Proof.Machine

/-! ### Interrupts (R35, R347, R348) -/

/-- Is a target word well formed, and its hart present (R35, R348)? -/
def State.msiOk (s : State) (t : W64) : Bool :=
  let x := t.toNat
  bitsN x 39 25 = 0 && bitsN x 18 14 = 0 && decide (bitsN x 32 7 ≤ 71) && s.hartPresent (bitsN x 32 7)
    && decide (1 ≤ bitsN x 0 12) && decide (bitsN x 0 12 ≤ 2047)

/-- Raise an identity in an interrupt file (R347). -/
def State.raiseMsi (s : State) (hart file eiid : Nat) : State :=
  let k := hart * 2 ^ 18 + file * 2 ^ 12 + eiid
  if s.out.msis.contains k then s else { s with out := { s.out with msis := k :: s.out.msis } }

/-- Send an MSI to a target word; nothing for one that is not well formed (R348). -/
def State.sendMsi (s : State) (t : W64) : State :=
  if s.msiOk t then s.raiseMsi (bitsN t.toNat 32 7) (bitsN t.toNat 12 6) (bitsN t.toNat 0 12) else s

/-! ### Other packages (R352) -/

/-- A request to another package that no port serves, or that is not answered: it counts, and an MSI goes. -/
def State.tlainDrop (s : State) : State :=
  let s := s.setCtl 0 0x13B (s.ctlOf 0 0x13B + 1)
  s.sendMsi (s.ctlOf 0 0x132)

/-- The word under which a unit is being fenced. -/
def fenceWord (kind num : Nat) : W64 := BitVec.ofNat 64 (16 * num + kind)

/-- Is a unit classified and still at its present work (R356)? -/
def State.fencing (s : State) (kind num : Nat) : Bool := s.out.fencing.contains (fenceWord kind num)

/-- The ports that serve a package: the set bits of its route mask, but for ports that are being fenced (R352, R356). -/
def State.portsTo (s : State) (pkg : Nat) : List Nat :=
  let mask := s.mem.peekN (s.pkgReg 0x139 + pkg) 1
  (List.range 8).filter (fun p => bitsN mask p 1 = 1 && !s.fencing 4 p)

/-- The port that a line's requests take, chosen by the line among those that serve its package (R352). -/
def State.portOf (s : State) (line : Nat) : Option Nat :=
  let ps := s.portsTo (paPkg (line * 128))
  ps[Config.tlainPort line % ps.length]?

/-- CTL_TLTIMEOUT nanoseconds pass. -/
def State.waitReply (s : State) : State := { s with ns := s.ns + s.pkgReg 0x13A }

/-- Send a request of some threads, or of a unit, to another package: is it answered? One that is not waits for CTL_TLTIMEOUT; a
unit's read ends when that time has passed (R352, log 11). -/
def State.tlainSend (s : State) (who : List Thread) (line : Nat) (write : Bool) : State × Bool :=
  match s.portOf line with
  | none => (s.tlainDrop, false)
  | some p =>
    if Config.remoteReply s.ticks line then (s, true)
    else if who = [] && !write then (s.waitReply.tlainDrop, false)
    else
      let q : TlReq := { line := line, write := write, since := s.ns, who := who, port := p, born := s.ticks }
      ({ s with out := { s.out with tlain := s.out.tlain ++ [q] } }, false)

/-- A read of a line of another package: an unanswered one completes as poisoned (R352, log 11). -/
def State.remoteRead (s : State) (who : List Thread) (line : Nat) : State × Line × Bool :=
  let (s, ok) := s.tlainSend who line false
  (s, Config.remoteLine s.ticks line, !ok)

/-- Is a line's home in another package of the coherent island (R277)? -/
def State.isPeer (s : State) (line : Nat) : Bool :=
  let entry := fun i => bitsN (s.pkgReg (0x102 + i / 4)) (16 * (i % 4)) 16
  !s.isLocal (line * 128) && entry (bitsN (s.pkgReg 0x101) 0 4) = 2 ^ 15 + s.pkgId
    && (List.range 16).any (fun i => entry i = 2 ^ 15 + paPkg (line * 128))

/-- Does a thread's request to another package still stand, within a scope: 5 is the island, 6 the domain (R240, R286)? -/
def State.tlainBusy (s : State) (th : Thread) (scope : Nat) : Bool :=
  s.out.tlain.any (fun q => q.who.contains th && (decide (6 ≤ scope) || (scope = 5 && s.isPeer q.line)))

end Sys2Proof.Machine
end

