-- ==== Sys2Proof/Machine/Coherence.lean ====
section
/-! DEFINITION. The home of a line, the agents, the messages between them, and the L1s (R191 to R193, R276 to R288). -/

namespace Sys2Proof.Machine

/-! ### The island -/

/-- This package's island index; 0 when its map entry is not valid (R277). -/
def State.islIdx (s : State) : Nat :=
  let i := bitsN (s.pkgReg 0x101) 0 4
  if (s.ctlOf 0 (0x102 + i / 4)).getLsbD (16 * (i % 4) + 15) then i else 0

/-- The full identifier of a local slot (R276). -/
def State.agentId (s : State) (slot : Nat) : Nat := 16 * s.islIdx + slot

/-- Does an identifier name an agent of this package? -/
def State.isOwnAgent (s : State) (a : Nat) : Bool := a / 16 = s.islIdx

/-- The bit of SHR that stands for an agent in a line of a MODE (R278). -/
def shrBit (mode : Bool) (a : Nat) : Nat := if mode then a / 16 else a % 16

/-- Is an agent possibly a sharer? -/
def Side.shares (d : Side) (a : Nat) : Bool := d.shr.getLsbD (shrBit d.mode a)

/-- MODE after a transition: it returns to 0 when SHR is empty in I, E, M and X (R285). -/
def Side.norm (d : Side) : Side :=
  if d.shr = 0 && (d.st = .I || d.st = .E || d.st = .M || d.st = .X) then { d with mode := false } else d

/-- A request from an agent of another package turns MODE to 1: the set local bits become the home's own index
(R285). -/
def State.widenMode (s : State) (d : Side) (a : Nat) : Side :=
  if s.isOwnAgent a || d.mode then d
  else { d with mode := true, shr := if d.shr = 0 then 0 else setBit 0 s.islIdx true }

/-- Add a sharer; one of another package is named by its package, in MODE 1 (R278, R279). -/
def State.addShr (s : State) (d : Side) (a : Nat) : Side :=
  let d := s.widenMode d a
  { d with shr := setBit d.shr (shrBit d.mode a) true }

/-- Does SHR name an agent of the island: a local slot, or in MODE 1 its package? -/
def State.named (s : State) (d : Side) (a : Nat) : Bool := (d.mode || s.isOwnAgent a) && d.shares a

/-- The sideband after a request of an agent: MODE stays 1 in the write that a request of another package makes (R285). -/
def State.modeFor (s : State) (d : Side) (a : Nat) : Side := if s.isOwnAgent a then d.norm else d

/-- Where an Inv to the sharers goes but the requester: local slots, every slot of this package in MODE 1 when its bit is set,
and the other packages, each named by its slot 0, whose hub sends it on (R282, R285). -/
def State.sharersBut (s : State) (d : Side) (b : Nat) : List Nat :=
  if d.mode then
    (List.range 16).flatMap (fun k =>
      if d.shr.getLsbD k then
        (if k = s.islIdx then ((List.range 10).map (16 * k + ·)).filter (· ≠ b) else [16 * k])
      else [])
  else (((List.range 10).filter (fun k => d.shr.getLsbD k)).map s.agentId).filter (· ≠ b)

/-! ### Messages -/

/-- Send a message. -/
def State.send (s : State) (m : Msg) : State := s.updMem (fun x => { x with msgs := x.msgs ++ [m] })

/-- Take the first message that satisfies a test. -/
def takeMsg (p : Msg → Bool) : List Msg → Option (Msg × List Msg)
  | [] => none
  | m :: r => if p m then some (m, r) else
    match takeMsg p r with
    | some (x, r') => some (x, m :: r')
    | none => none

/-- Count an access that reaches a sill from a die of this package, one in every CTL_MIGSAMPLE (R67). -/
def State.sillTouch (s : State) (line agent : Nat) : State :=
  if (s.ctlOf 0 0x116).getLsbD 0 && agent % 16 < 8 && (s.isOwnAgent agent || decide (256 ≤ agent)) then
    let st := paStack (line * 128)
    let n := s.xl.migPhase.get st 0 + 1
    if n < s.pkgReg 0x117 then { s with xl := { s.xl with migPhase := s.xl.migPhase.put st n } }
    else
      let key := (line / 256) * 8 + agent % 16
      let room := s.xl.mig.has key || decide ((s.xl.mig.filter (fun e => paStack (e.1 / 8 * 32768) = st)).length < 4096)
      { s with xl := { s.xl with migPhase := s.xl.migPhase.put st 0
                                 mig := if room then s.xl.mig.upd key 0 (· + 1) else s.xl.mig } }
  else s

/-! ### The home (R280, R282) -/

/-- The probes that a request causes. -/
def State.probes (s : State) (d : Side) (m : Msg) : List (MsgKind × Nat) :=
  let a := d.owner
  let b := m.slot
  let others := s.sharersBut d b
  match m.kind with
  | .rdS =>
    if d.st = .E && a ≠ b || d.st = .M && a ≠ b || d.st = .O && a ≠ b then [(.fwdS, a)] else []
  | .rdX | .upg =>
    match d.st with
    | .S => others.map (fun k => (.inv, k))
    | .E | .M | .O => (if a = b then [] else [(.fwdX, a)]) ++ others.map (fun k => (.inv, k))
    | _ => []
  | .hR => if d.st = .E || d.st = .M || d.st = .O then [(.fwdH, a)] else []
  | .hW =>
    if d.st = .X then []
    else (if d.st = .E || d.st = .M || d.st = .O then [(.rcl, a)] else [])
      ++ (s.sharersBut d 256).map (fun k => (.inv, k))
  | _ => []

/-- Answer a requester with data. -/
def State.reply (s : State) (b line : Nat) (x : Line) (p : Bool) (f : CacheSt) : State :=
  s.send { kind := .data, line := line, slot := b, data := x, poison := p, fill := f }

/-- Answer a requester without data: an upgrade is granted. -/
def State.replyAck (s : State) (b line : Nat) : State := s.send { kind := .ack, line := line, slot := b, fill := .M }

/-- Acknowledge a write-back or a clean. -/
def State.replyDone (s : State) (b line : Nat) : State := s.send { kind := .ack, line := line, slot := b, fill := .S }

/-- Put the sideband of a line. -/
def State.putSide (s : State) (line : Nat) (d : Side) : State := s.updMem (fun m => m.setSide line d.norm)

/-- Put the sideband of a line after a request of an agent. -/
def State.putSideFor (s : State) (b line : Nat) (d : Side) : State := s.updMem (fun m => m.setSide line (s.modeFor d b))

/-- Put data and poison at the home. -/
def State.putHome (s : State) (line : Nat) (x : Line) (p : Bool) : State :=
  s.updMem (fun m => (m.setDram line x).setSide line { m.sideOf line with poison := p })

/-! ### Counters at the home (R41, R42) -/

/-- POISON of a counter's low word. -/
def ctrPoison (lo : Nat) : Bool := 2 ^ 63 ≤ lo
/-- COUNT of a counter's low word. -/
def ctrCount (lo : Nat) : Nat := lo % 2 ^ 63
/-- Is a counter satisfied for a threshold (R41)? -/
def ctrSat (lo thr : Nat) : Bool := ctrPoison lo || decide (thr ≤ ctrCount lo)

/-- A write at the home, evaluated against every watch registered before it on a counter whose bytes 0 to 7 it
reaches (R42). -/
def State.counterWatch (s : State) (line : Nat) (mask : BitVec 128) : State :=
  let hit := fun pa => pa / 128 = line && mask &&& byteMask (pa % 128) 8 ≠ 0
  let lo := fun pa => leNat (Bytes.getAll s.mem.bytes pa 8)
  let mark := fun (w : CtrWait) =>
    if hit w.pa && w.watched && w.sat.isNone && ctrSat (lo w.pa) w.thr then { w with sat := some (ctrPoison (lo w.pa)) } else w
  let seen := fun (die pa : Nat) => hit pa && s.xl.watch.any (fun w => w.1 = pa && bitsN w.2 die 1 = 1)
  let markT := fun (die : Nat) (t : Task) =>
    if t.waits.any (fun w => seen die w.1 && ctrPoison (lo w.1)) then { t with poisoned := true }
    else { t with waits := t.waits.filter (fun w => !(seen die w.1 && decide (w.2 ≤ ctrCount (lo w.1)))) }
  if s.xl.waiters.any (fun w => hit w.pa) || s.work.table.any (fun e => e.2.any (fun t => t.waits.any (fun w => hit w.1))) then
    { s with xl := { s.xl with waiters := s.xl.waiters.map mark }
             work := { s.work with table := s.work.table.mapv (fun d l => l.map (markT d)) } }
  else s

/-- The home ends a request: data, next state and reply (R282). An RdX or Upg ends the reservations of other agents: it takes
the line for a write (R261). A WbD or Cln from the OWNER of a line in E, which has answered a FwdH already, is acknowledged and
changes nothing, a choice of the model where the table has no row (log 79). -/
def State.homeFinish (s : State) (t : Txn) : State :=
  let line := t.req.line
  let s := s.updMem (fun m => { m with txns := m.txns.del line })
  let b := t.req.slot
  let d0 := s.mem.sideOf line
  let d := s.widenMode d0 b
  let dram := s.mem.dram line
  let x := match t.got with | some (y, _) => y | none => dram
  let p := match t.got with | some (_, q) => q | none => d0.poison
  match t.req.kind with
  | .rdS =>
    match d.st with
    | .I => (s.putSideFor b line { d with st := .E, owner := b, shr := 0 }).reply b line x p .E
    | .S => (s.putSideFor b line (s.addShr d b)).reply b line x p .S
    | .E =>
      if d.owner = b then (s.putSideFor b line d).reply b line x p .E
      else if t.got.isSome then
        let e : Side := { d with st := .S, owner := 0, shr := 0 }
        (s.putSideFor b line (s.addShr (s.addShr e d.owner) b)).reply b line x p .S
      else (s.putSideFor b line { d with st := .E, owner := b, shr := 0 }).reply b line x p .E
    | .M =>
      if d.owner = b then (s.putSideFor b line d).reply b line x p .E
      else (s.putSideFor b line (s.addShr { d with st := .O, shr := 0 } b)).reply b line x p .S
    | .O =>
      if d.owner = b then (s.putSideFor b line d).reply b line x p .S
      else (s.putSideFor b line (s.addShr d b)).reply b line x p .S
    | .X => s.reply b line x p .P
  | .rdX | .upg =>
    if d.st = .X then s.reply b line x p .P
    else
      let keeps := t.req.kind = .upg && (s.named d0 b && (d0.st = .S || d0.st = .O) || d0.owner = b && (d0.st = .O || d0.st = .M || d0.st = .E))
      let s := (s.putSideFor b line { d with st := .M, owner := b, shr := 0 }).updMem (fun m => m.othersResv b line)
      if keeps then s.replyAck b line else s.reply b line x p .M
  | .wbD =>
    if d0.owner = b && (d0.st = .M || d0.st = .O) then
      let s := s.putHome line t.req.data t.req.poison
      let d := s.mem.sideOf line
      let d := if d.st = .O && d.shr ≠ 0 then { d with st := .S, owner := 0 } else { d with st := .I, owner := 0, shr := 0 }
      (s.putSide line d).replyDone b line
    else s.replyDone b line
  | .cln =>
    if d0.owner = b && d0.st = .M then
      let s := s.putHome line t.req.data t.req.poison
      (s.putSide line { s.mem.sideOf line with st := .E }).replyDone b line
    else if d0.owner = b && d0.st = .O then
      let s := s.putHome line t.req.data t.req.poison
      (s.putSide line (s.addShr { s.mem.sideOf line with st := .S, owner := 0 } b)).replyDone b line
    else s.replyDone b line
  | .hR =>
    match t.got with
    | some (y, q) =>
      let s := s.putHome line y q
      let d := s.mem.sideOf line
      if d.st = .M then s.putSide line { d with st := .E }
      else if d.st = .O then s.putSide line (s.addShr { d with st := .S, owner := 0 } d0.owner)
      else s
    | none => s
  | .hW =>
    let y := mergeLine x t.req.data t.req.mask
    let p := p && t.req.mask ≠ fullMask || t.req.poison
    let st := if t.req.req = 1 || d0.st = .X then LineSt.X else LineSt.I
    let s := s.updMem (fun m => (m.setDram line y).clearResv line)
    (s.putSide line { st := st, poison := p }).counterWatch line t.req.mask
  | _ => s

/-- The home begins a request (R280). -/
def State.homeStart (s : State) (m : Msg) : State :=
  let s := (s.sillTouch m.line m.slot).updMem (fun x => x.findError m.line)
  let d := s.mem.sideOf m.line
  let ps := s.probes d m
  let t : Txn := { req := m, await := ps.map (·.2) }
  match ps with
  | [] => s.homeFinish t
  | _ =>
    let s := s.updMem (fun x => { x with txns := x.txns.put m.line t })
    ps.foldl (fun s (k, a) => s.send { kind := k, line := m.line, slot := a, req := m.slot }) s

/-- Remove one occurrence. -/
def eraseOne (a : Nat) : List Nat → List Nat
  | [] => []
  | x :: r => if x = a then r else x :: eraseOne a r

/-- An answer to a probe reaches the home (R281). -/
def State.homeAnswer (s : State) (line slot : Nat) (d : Option (Line × Bool)) : State :=
  match s.mem.txns.find? line with
  | none => s
  | some t =>
    if t.await.contains slot then
      let t := { t with await := eraseOne slot t.await, got := match d with | some x => some x | none => t.got }
      match t.await with
      | [] => s.homeFinish t
      | _ => s.updMem (fun m => { m with txns := m.txns.put line t })
    else s

/-! ### The agents (R283, R284) -/

/-- An agent's answer. -/
def State.answer (s : State) (slot line : Nat) (k : MsgKind) (x : Line) (p : Bool) : State :=
  s.send { kind := k, line := line, slot := slot, data := x, poison := p, toHome := true }

/-- Mark a fill in flight to be used once (R284 point 1). -/
def State.markOnce (s : State) (slot line : Nat) : State :=
  s.updMem (fun m =>
    if m.msgs.any (fun x => x.kind = .data && !x.toHome && x.slot = slot && x.line = line)
    then { m with once := (slot, line) :: m.once } else m)

/-- An agent receives a probe: the table of R283, from the cache or from the write-back buffer (R284 point 3). An Inv that the
hub sends to every slot leaves an owner's copy to the home's Fwd or Rcl (R285). A Fwd or Rcl that overtakes a fill of an RdX is
answered NoData or Ack, and the fill is used once: a choice of the model, since R284 decides fills of RdS alone (log 79). -/
def State.agentProbe (s : State) (k : MsgKind) (slot line : Nat) : State :=
  match s.mem.wb.find? (agKey slot line) with
  | some c =>
    match k with
    | .fwdX | .rcl => (s.updMem (fun m => m.loseResv slot line)).answer slot line .data c.data c.poison
    | .fwdS | .fwdH => s.answer slot line .data c.data c.poison
    | _ => s.answer slot line .ack 0 false
  | none =>
    match s.mem.cline slot line with
    | some c =>
      let drop := fun (s : State) => s.updMem (fun m => m.loseCline slot line)
      let keep := fun (s : State) st d => s.updMem (fun m => m.setCline slot line { c with st := st, dirty := d })
      match k, c.st with
      | .fwdS, .M => (keep s .O true).answer slot line .data c.data c.poison
      | .fwdS, .O => s.answer slot line .data c.data c.poison
      | .fwdS, .E => (keep s .S false).answer slot line .data c.data c.poison
      | .fwdS, .S => s.answer slot line .noData 0 false
      | .fwdX, .M | .fwdX, .O | .fwdX, .E => (drop s).answer slot line .data c.data c.poison
      | .fwdX, .S => ((drop s).markOnce slot line).answer slot line .noData 0 false
      | .fwdH, .M => (keep s .E false).answer slot line .data c.data c.poison
      | .fwdH, .O => (keep s .S false).answer slot line .data c.data c.poison
      | .fwdH, .E => s.answer slot line .ack 0 false
      | .fwdH, .S => s.answer slot line .noData 0 false
      | .rcl, .M | .rcl, .O => (drop s).answer slot line .data c.data c.poison
      | .rcl, .E | .rcl, .S => (drop s).answer slot line .ack 0 false
      | .inv, .S => (drop s).answer slot line .ack 0 false
      | .inv, _ | .rcl, .P => s.answer slot line .ack 0 false
      | _, _ => s.answer slot line .noData 0 false
    | none =>
      let s := s.markOnce slot line
      match k with
      | .inv | .rcl => s.answer slot line .ack 0 false
      | _ => s.answer slot line .noData 0 false

/-- A data reply reaches the requester: it installs the line, or uses it once (R284). A fill of state P is marked
uncacheable by the home (R282, state X). -/
def State.agentFill (s : State) (m : Msg) : State :=
  let key := agKey m.slot m.line
  let s := s.updMem (fun x => { x with fills := x.fills.put key (m.data, m.poison) })
  if s.mem.once.contains (m.slot, m.line) then
    s.updMem (fun x => { x with once := x.once.erase (m.slot, m.line) })
  else if m.fill = .P then s
  else s.updMem (fun x => x.setCline m.slot m.line
    { st := m.fill, data := m.data, dirty := false, poison := m.poison })

/-- An acknowledgement reaches an agent: of a write-back, of a clean, after which it keeps a clean copy, or the grant of an
upgrade. -/
def State.agentAck (s : State) (slot line : Nat) (grant : Bool) : State :=
  let key := agKey slot line
  if !grant && s.mem.wb.has key then s.updMem (fun m => { m with wb := m.wb.del key })
  else match s.mem.cline slot line with
    | some c =>
      if grant then
        (if c.st = .S || c.st = .O then s.updMem (fun m => m.setCline slot line { c with st := .M }) else s)
      else if c.st = .M then s.updMem (fun m => m.setCline slot line { c with st := .E, dirty := false })
      else if c.st = .O then s.updMem (fun m => m.setCline slot line { c with st := .S, dirty := false })
      else s
    | none => s

/-- A request or an answer reaches the home of a line in another package, which acknowledges a write-back or a clean (R281,
log 11). -/
def State.toPeer (s : State) (m : Msg) : State :=
  if m.kind = .wbD || m.kind = .cln then s.agentAck m.slot m.line false else s

/-! ### Delivery -/

/-- Is a message a request to the home? -/
def MsgKind.isReq : MsgKind → Bool
  | .rdS | .rdX | .upg | .wbD | .cln | .hR | .hW | .rR => true
  | _ => false

/-- Is a message a probe? -/
def MsgKind.isProbe : MsgKind → Bool
  | .fwdS | .fwdX | .fwdH | .inv | .rcl => true
  | _ => false

/-- An agent of another package answers a probe: an owner of dirty data sends it, an agent in E may have dropped the line
(R283, log 11). -/
def State.remoteProbe (s : State) (k : MsgKind) (slot line : Nat) : State :=
  let d := s.mem.sideOf line
  let owner : Bool := d.owner = slot
  let dirty : Bool := owner && (d.st = .M || d.st = .O)
  let held : Bool := dirty || owner && d.st = .E && Config.remoteReply s.ticks line
  let x := if dirty then Config.remoteLine s.ticks line else s.mem.dram line
  let p := !dirty && d.poison
  match k with
  | .inv => s.homeAnswer line slot none
  | .rcl | .fwdH => s.homeAnswer line slot (if dirty then some (x, p) else none)
  | _ => s.homeAnswer line slot (if held then some (x, p) else none)

/-- Deliver a message that has been taken from flight. What another package does with its own is not followed. -/
def State.deliver (s : State) (m : Msg) : State :=
  if (m.kind.isReq || m.toHome) && !s.isLocal (m.line * 128) then s.toPeer m
  else if m.kind.isReq then s.homeStart m
  else if m.toHome then s.homeAnswer m.line m.slot (if m.kind = .data then some (m.data, m.poison) else none)
  else if !s.isOwnAgent m.slot then (if m.kind.isProbe then s.remoteProbe m.kind m.slot m.line else s)
  else if m.kind.isProbe then s.agentProbe m.kind m.slot m.line
  else if m.kind = .data then s.agentFill m
  else s.agentAck m.slot m.line (m.fill = .M)

/-- Deliver the first message of one kind about a line from or to a slot; a request waits while its line is busy
(R280). -/
def State.deliverKind (s : State) (k : MsgKind) (slot line : Nat) : State :=
  if k.isReq && s.mem.txns.has line then s
  else match takeMsg (fun m => m.kind = k && m.line = line && m.slot = slot) s.mem.msgs with
    | some (m, r) => { s with mem := { s.mem with msgs := r } }.deliver m
    | none => s

/-- Can a message be delivered now? -/
def State.deliverable (s : State) (line : Nat) (m : Msg) : Bool :=
  m.line = line && (!m.kind.isReq || !s.mem.txns.has line)

/-- Deliver every message about a line until none is left. -/
def State.settleFuel : Nat → State → Nat → State
  | 0, s, _ => s
  | f + 1, s, line =>
    match takeMsg (s.deliverable line) s.mem.msgs with
    | some (m, r) => State.settleFuel f ({ s with mem := { s.mem with msgs := r } }.deliver m) line
    | none => s

/-- Deliver every message about a line. -/
def State.settle (s : State) (line : Nat) : State := s.settleFuel (64 + 64 * s.mem.msgs.length) line

/-! ### Accesses at the home -/

/-- Who makes a request of the home's side: a die, or the hub, which no identifier names (R67, R276). -/
def homeSide (die : Option Nat) : Nat :=
  match die with
  | some d => 256 + d
  | none => 255

/-- A home read: the current data and its poison, through a FwdH when an agent owns the line (R282). -/
def State.homeRead (s : State) (line : Nat) (die : Option Nat := none) : State × Line × Bool :=
  let s := s.settle line
  let s := (s.send { kind := .hR, line := line, slot := homeSide die }).settle line
  (s, s.mem.dram line, (s.mem.sideOf line).poison)

/-- A home write of the bytes of a mask; on a memory-side page the line becomes X (R282). -/
def State.homeWrite (s : State) (line : Nat) (mask : BitVec 128) (x : Line) (memSide : Bool) (poison : Bool := false)
    (die : Option Nat := none) : State :=
  let s := s.settle line
  (s.send { kind := .hW, line := line, slot := homeSide die, data := x, mask := mask, req := if memSide then 1 else 0
            poison := poison }).settle line

/-- A read of a line of a memory-side page: HR when the state is X, after the copies are gathered when it is not
(R282). -/
def State.msRead (s : State) (line : Nat) (die : Option Nat := none) : State × Line × Bool :=
  let s := s.settle line
  let s := if (s.mem.sideOf line).st = .X then (s.sillTouch line (homeSide die)).updMem (fun m => m.findError line)
    else s.homeWrite line 0 0 true false die
  (s, s.mem.dram line, (s.mem.sideOf line).poison)

/-! ### Accesses of an agent -/

/-- An agent reads a line of a shared page: from its cache, or by RdS. -/
def State.agentRead (s : State) (slot line : Nat) : State × Line × Bool :=
  let s := s.settle line
  match s.mem.cline slot line with
  | some c => (s, c.data, c.poison)
  | none =>
    let s := (s.send { kind := .rdS, line := line, slot := slot }).settle line
    match s.mem.cline slot line with
    | some c => (s, c.data, c.poison)
    | none => let f := s.mem.fills.get (agKey slot line) (0, false); (s, f.1, f.2)

/-- An agent takes a line of a shared page for a write: by RdX, or Upg of an S or O copy. False when the home serves the
line uncached (state X). -/
def State.agentOwn (s : State) (slot line : Nat) : State × Bool :=
  let s := s.settle line
  match s.mem.cline slot line with
  | some c =>
    if c.st = .M then (s, true)
    else if c.st = .S || c.st = .O then
      let s := (s.send { kind := .upg, line := line, slot := slot }).settle line
      (s, (s.mem.cline slot line).any (·.st = .M))
    else
      let s := (s.send { kind := .rdX, line := line, slot := slot }).settle line
      (s, (s.mem.cline slot line).any (·.st = .M))
  | none =>
    let s := (s.send { kind := .rdX, line := line, slot := slot }).settle line
    (s, (s.mem.cline slot line).any (·.st = .M))

/-- An agent writes bytes of a line it holds in M. One request that writes the whole line clears its poison; the bytes that an
L1 has gathered of several do not, unless it holds the line clear (R200). -/
def State.agentPut (s : State) (slot line : Nat) (mask : BitVec 128) (x : Line) (clears : Bool := true) : State :=
  s.updMem (fun m =>
    match m.cline slot line with
    | some c => m.setCline slot line { c with data := mergeLine c.data x mask, dirty := true
                                              poison := c.poison && !(clears && mask = fullMask) }
    | none => m)

/-- An agent's store to a shared line. -/
def State.agentStore (s : State) (slot line : Nat) (mask : BitVec 128) (x : Line) : State :=
  let (s, ok) := s.agentOwn slot line
  let s := s.updMem (fun m => m.clearResv line)
  if ok then s.agentPut slot line mask x else s.homeWrite line mask x false

/-- A line of a private page in a die's L2, filled from DRAM when it is not held (R192). -/
def State.privRead (s : State) (die line : Nat) : State × Line × Bool :=
  let slot := s.agentId die
  match s.mem.cline slot line with
  | some c => (s, c.data, c.poison)
  | none =>
    let s := s.updMem (fun m => m.findError line)
    let x := s.mem.dram line
    let p := (s.mem.sideOf line).poison
    ((s.sillTouch line slot).updMem (fun m => m.setCline slot line { st := .P, data := x, poison := p }), x, p)

/-- Write bytes of a line of a private page in a die's L2. -/
def State.privStore (s : State) (die line : Nat) (mask : BitVec 128) (x : Line) (clears : Bool := true) : State :=
  let (s, _, _) := s.privRead die line
  (s.updMem (fun m => m.clearResv line)).agentPut (s.agentId die) line mask x clears

/-- An agent gives up a line: dirty data goes back to the home by WbD, or to DRAM for a private page; a clean copy is
dropped in silence (R281). -/
def State.evictAgent (s : State) (slot line : Nat) : State :=
  match s.mem.cline slot line with
  | none => s
  | some c =>
    match c.st with
    | .M | .O =>
      (s.updMem (fun m => { m.dropCline slot line with wb := m.wb.put (agKey slot line) c })).send
        { kind := .wbD, line := line, slot := slot, data := c.data, poison := c.poison }
    | .P =>
      let s := if c.dirty then (s.sillTouch line slot).putHome line c.data c.poison else s
      s.updMem (fun m => m.dropCline slot line)
    | _ => s.updMem (fun m => m.dropCline slot line)

/-- Write a private page's dirty line of a die to DRAM and keep it clean. -/
def State.cleanPriv (s : State) (die line : Nat) : State :=
  let slot := s.agentId die
  match s.mem.cline slot line with
  | some c =>
    if c.st = .P && c.dirty then
      ((s.sillTouch line slot).putHome line c.data c.poison).updMem (fun m => m.setCline slot line { c with dirty := false })
    else s
  | none => s

/-! ### The L1s (R191 to R193) -/

/-- An L1 writes back the dirty bytes of a cluster-private line to its die's L2 and drops the line. -/
def State.flushL1 (s : State) (g line : Nat) : State :=
  match s.mem.l1Line g line with
  | none => s
  | some c =>
    let s := if c.dirty ≠ 0 then s.privStore (dieOf g) line c.dirty c.data (!c.poison) else s
    s.updMem (fun m => m.dropL1 g line)

/-- An L1 writes back its dirty bytes and keeps the line. -/
def State.cleanL1 (s : State) (g line : Nat) : State :=
  match s.mem.l1Line g line with
  | none => s
  | some c =>
    let s := if c.dirty ≠ 0 then s.privStore (dieOf g) line c.dirty c.data (!c.poison) else s
    s.updMem (fun m => m.setL1 g line { c with dirty := 0 })

/-- The L2's copy of a line for a class: 0 and 1 private, 2 shared. -/
def State.l2Read (s : State) (die cls line : Nat) : State × Line × Bool :=
  if cls = 2 then s.agentRead (s.agentId die) line else s.privRead die line

/-- A load of the bytes `need` of a line by a cluster (R192). Class 3 is read at the home. -/
def State.loadLine (s : State) (g cls line : Nat) (need : BitVec 128) (noL1 : Bool) : State × Line × Bool :=
  if cls = 3 then s.msRead line (some (dieOf g))
  else
    let s := if noL1 && cls = 0 then s.flushL1 g line else s
    match s.mem.l1Line g line with
    | some c =>
      if c.valid &&& need = need then (s, c.data, c.poison)
      else
        let (s, x, p) := s.l2Read (dieOf g) cls line
        let y := mergeLine x c.data c.valid
        (s.updMem (fun m => m.setL1 g line { c with data := y, valid := fullMask, poison := p || c.poison }), y, p || c.poison)
    | none =>
      let (s, x, p) := s.l2Read (dieOf g) cls line
      let s := if noL1 then s
        else s.updMem (fun m => m.setL1 g line { data := x, valid := fullMask, shared := cls ≠ 0, poison := p })
      (s, x, p)

/-- The poison of a line as the levels below the L1 have it (R200). -/
def State.metaPoison (s : State) (die line : Nat) : Bool :=
  match s.mem.cline (s.agentId die) line with
  | some c => c.poison
  | none => (s.mem.findError line |>.sideOf line).poison

/-- A store of the bytes of a mask to a line by a cluster (R191, R192). A line that a store allocates is poisoned when its
metadata says so (R200). -/
def State.storeLine (s : State) (g cls line : Nat) (mask : BitVec 128) (x : Line) (noL1 : Bool) : State :=
  if cls = 3 then s.homeWrite line mask x true false (some (dieOf g))
  else if cls = 0 && !noL1 then
    s.updMem (fun m =>
      let c := (m.l1Line g line).getD { poison := s.metaPoison (dieOf g) line }
      (m.clearResv line).setL1 g line
        { c with data := mergeLine c.data x mask, valid := c.valid ||| mask, dirty := c.dirty ||| mask
                 poison := c.poison && mask ≠ fullMask })
  else
    let s := if cls = 0 then s.flushL1 g line
      else s.updMem (fun m => match m.l1Line g line with
        | some c => m.setL1 g line { c with data := mergeLine c.data x mask, valid := c.valid ||| mask
                                            poison := c.poison && mask ≠ fullMask }
        | none => m)
    if cls = 2 then s.agentStore (s.agentId (dieOf g)) line mask x else s.privStore (dieOf g) line mask x

/-- An acquire of scope die or wider by a cluster drops its shared-tagged L1 lines (R193). A scope code of 3 is die. -/
def State.acquire (s : State) (g scope : Nat) : State :=
  if scope < 3 then s
  else s.updMem (fun m => { m with l1 := m.l1.filter (fun e => !(e.1 / 2 ^ 45 = g && e.2.shared)) })

end Sys2Proof.Machine
end

