-- ==== Sys2Proof/Machine/Peers.lean ====
section
/-! DEFINITION. Lines of shared pages whose home is another package of the island: this package's L2s hold them as agents of
that home, whose own part is not followed (R277, R281 to R286, log 11). -/

namespace Sys2Proof.Machine

/-- The agents of this package. -/
def State.ownAgents (s : State) : List Nat := (List.range 10).map s.agentId

/-- Another agent of this package that holds a line of a peer: the owner of dirty data before any other. -/
def State.peerHolder (s : State) (slot line : Nat) : Option (Nat × CLine) :=
  let held := (s.ownAgents.filter (· ≠ slot)).filterMap (fun a => (s.mem.cline a line).map (fun c => (a, c)))
  match held.find? (fun e => e.2.st = .M || e.2.st = .O) with
  | some e => some e
  | none => held.head?

/-- The home of a peer's line probes an agent of this package, whose answer reaches it (R281, R283). -/
def State.peerAsk (s : State) (k : MsgKind) (slot line : Nat) : State := (s.agentProbe k slot line).settle line

/-- The other agents of this package lose a line of a peer to one that takes it for a write: an owner by FwdX, a sharer by Inv
(R282, R283). -/
def State.peerTake (s : State) (slot line : Nat) : State :=
  (s.ownAgents.filter (· ≠ slot)).foldl (fun (s : State) a =>
    match s.mem.cline a line with
    | some c => s.peerAsk (if c.st = .S then .inv else .fwdX) a line
    | none => s) s

/-- An agent reads a line of a peer: its copy, or the answer to an RdS, which it keeps. Where another agent of this package holds
the line it answers the home's FwdS, or shares what the home has; else the data is the home's own, which is free. The last Bool says
whether the line came. -/
def State.peerRead (s : State) (who : List Thread) (slot line : Nat) : State × Line × Bool × Bool :=
  let s := s.settle line
  match s.mem.cline slot line with
  | some c => (s, c.data, c.poison, true)
  | none =>
    let (s, ok) := s.tlainSend who line false
    let x := Config.remoteLine s.ticks line
    if !ok then (s, x, true, false)
    else match s.peerHolder slot line with
      | some (a, c) =>
        ((s.peerAsk .fwdS a line).updMem (fun m => m.setCline slot line { st := .S, data := c.data, poison := c.poison }),
          c.data, c.poison, true)
      | none =>
        (s.updMem (fun m => m.setCline slot line { st := if Config.remoteAlone s.ticks line then .E else .S, data := x }), x, false, true)

/-- A load of a line of a peer by a cluster (R192). -/
def State.peerLoad (s : State) (who : List Thread) (g line : Nat) (noL1 : Bool) : State × Line × Bool :=
  match s.mem.l1Line g line with
  | some c => (s, c.data, c.poison)
  | none =>
    let (s, x, p, ok) := s.peerRead who (s.agentId (dieOf g)) line
    (if noL1 || !ok then s else s.updMem (fun m => m.setL1 g line { data := x, valid := fullMask, shared := true, poison := p }), x, p)

/-- An agent takes a line of a peer for a write: by Upg of its copy, or by RdX, which the other agents of this package lose
(R282). -/
def State.peerOwn (s : State) (who : List Thread) (slot line : Nat) (write : Bool) : State × Bool :=
  let s := s.settle line
  match s.mem.cline slot line with
  | some c =>
    if c.st = .M then (s, true)
    else
      let (s, ok) := s.tlainSend who line write
      (if ok then (s.peerTake slot line).updMem (fun m => m.setCline slot line { c with st := .M }) else s, ok)
  | none =>
    let (s, ok) := s.tlainSend who line write
    let c : CLine := match s.peerHolder slot line with
      | some (_, c) => { st := .M, data := c.data, poison := c.poison }
      | none => { st := .M, data := Config.remoteLine s.ticks line }
    (if ok then (s.peerTake slot line).updMem (fun m => m.setCline slot line c) else s, ok)

/-- An agent's store to a line of a peer (R261, R282). -/
def State.peerPut (s : State) (who : List Thread) (slot line : Nat) (mask : BitVec 128) (x : Line) : State :=
  let (s, ok) := s.peerOwn who slot line true
  let s := s.updMem (fun m => m.clearResv line)
  if ok then s.agentPut slot line mask x else s

/-- A store to a line of a peer by a cluster (R192, R261). -/
def State.peerStore (s : State) (who : List Thread) (g line : Nat) (mask : BitVec 128) (x : Line) : State :=
  let s := s.updMem (fun m =>
    match m.l1Line g line with
    | some c => m.setL1 g line { c with data := mergeLine c.data x mask, poison := c.poison && mask ≠ fullMask }
    | none => m)
  s.peerPut who (s.agentId (dieOf g)) line mask x

/-- A read at the home of a line of another package: an agent of this package that owns the line answers the home's FwdH
(R282, R286). -/
def State.askRead (s : State) (who : List Thread) (line : Nat) : State × Line × Bool :=
  let s := s.settle line
  match s.peerHolder 256 line with
  | none => s.remoteRead who line
  | some (a, c) =>
    let (s, ok) := s.tlainSend who line false
    if ok then (s.peerAsk .fwdH a line, c.data, c.poison) else (s, c.data, true)

/-- A write at the home of a line of another package: this package's agents lose the line, by Rcl and Inv, and its reservations go
(R261, R282, R286). -/
def State.askWrite (s : State) (who : List Thread) (line : Nat) : State :=
  let s := s.settle line
  let s := s.ownAgents.foldl (fun (s : State) a => if (s.mem.cline a line).isSome then s.peerAsk .rcl a line else s) s
  ((s.updMem (fun m => m.clearResv line)).tlainSend who line true).1

/-- A probe from the home of a peer's line: an Inv goes to every slot of this package, another to the agent it names (R283,
R285). The answers leave with the line's other messages. -/
def State.peerProbe (s : State) (k : MsgKind) (slot line : Nat) : State :=
  if !s.isPeer line then s
  else if k = .inv then
    (s.ownAgents.foldl (fun (s : State) a => s.agentProbe .inv a line) s).settle line
  else if s.isOwnAgent slot then s.peerAsk k slot line
  else s

/-- Every L1 and L2 of the package writes its dirty bytes of a line to DRAM and keeps the line clean: the agents by Cln, and an
owner in another package of the island by FwdH (R206, R281). -/
def State.cleanLine (s : State) (line cls : Nat) : State :=
  let s := (List.range 160).foldl (fun s g => if (s.mem.l1Line g line).any (·.dirty ≠ 0) then s.cleanL1 g line else s) s
  let s := (List.range 8).foldl (fun s d => s.cleanPriv d line) s
  if cls ≠ 2 then s
  else
    let s := (List.range 10).foldl (fun (s : State) d =>
      let slot := s.agentId d
      match s.mem.cline slot line with
      | some c =>
        if c.st = .M || c.st = .O then
          (s.send { kind := .cln, line := line, slot := slot, data := c.data, poison := c.poison }).settle line
        else s
      | none => s) (s.settle line)
    if s.isLocal (line * 128) && !s.isOwnAgent (s.mem.sideOf line).owner then (s.homeRead line).1 else s

/-! ### Accesses at the home (R204, R206) -/

/-- The home makes a line current in DRAM; cached copies become clean. -/
def State.makeCurrent (s : State) (line cls : Nat) : State :=
  if !s.isLocal (line * 128) then (if cls = 2 then s.cleanLine line cls else s)
  else if cls = 3 then (s.msRead line).1
  else
    let s := (List.range 160).foldl (fun s g => if (s.mem.l1Line g line).any (·.dirty ≠ 0) then s.cleanL1 g line else s) s
    let s := (List.range 8).foldl (fun s d => s.cleanPriv d line) s
    if cls = 2 then (s.homeRead line).1 else s

/-- Every cached copy of a line is written back and dropped, with its reservations; the sideband becomes I, or keeps X
(R66, R207, R289). -/
def State.purgeLine (s : State) (line : Nat) : State :=
  let s := s.settle line
  let s := (List.range 160).foldl (fun s g => if (s.mem.l1Line g line).any (·.dirty ≠ 0) then s.flushL1 g line else s) s
  let s := (List.range 8).foldl (fun s d =>
    let slot := s.agentId d
    match s.mem.cline slot line with
    | some c => if c.st = .P then s.evictAgent slot line else s
    | none => s) s
  if (s.mem.sideOf line).st = .I || (s.mem.sideOf line).st = .X then s.updMem (fun m => m.clearResv line)
  else s.homeWrite line 0 0 false

/-- Every cached copy of a line is written back and removed, and its reservations go (R261). -/
def State.dropCopies (s : State) (line : Nat) : State :=
  if s.isLocal (line * 128) then
    (s.purgeLine line).updMem (fun m => { m with l1 := m.l1.filter (fun e => e.1 % 2 ^ 45 ≠ line) })
  else
    let s := (List.range 10).foldl (fun s d => s.evictAgent (s.agentId d) line) s
    (s.settle line).updMem (fun m => { m.clearResv line with l1 := m.l1.filter (fun e => e.1 % 2 ^ 45 ≠ line) })

/-- The data and poison of a line at its home. -/
def State.atHome (s : State) (who : List Thread) (line : Nat) (die : Option Nat := none) : State × Line × Bool :=
  if s.isLocal (line * 128) then
    let s := (s.sillTouch line (homeSide die)).updMem (fun m => m.findError line)
    (s, s.mem.dram line, (s.mem.sideOf line).poison)
  else s.askRead who line

/-- A cluster's L1 drops its shared-tagged copy of a line that the cluster reads or writes elsewhere: a later load then
returns no older value (R250). -/
def State.dropStale (s : State) (g line : Nat) : State :=
  if (s.mem.l1Line g line).any (·.shared) then s.updMem (fun m => m.dropL1 g line) else s

end Sys2Proof.Machine
end

