-- ==== Sys2Proof/Machine/Translate.lean ====
section
/-! DEFINITION. Translation: walks, first touch, frame pools, TLBs, fault records, and reads and writes of the device
(R47 to R62, R361, R348). -/

namespace Sys2Proof.Machine

/-! ### Physical accesses of the device at the home -/

/-- Read n bytes at a physical address, coherently (R56, R282 HR). -/
def State.physRead (s : State) (pa n : Nat) (die : Option Nat := none) : State × List Byte :=
  let first := pa / 128
  let last := (pa + n - 1) / 128
  let s := (List.range (last + 1 - first)).foldl (fun s k => (s.homeRead (first + k) die).1) s
  (s, Bytes.getAll s.mem.bytes pa n)

/-- A 64-bit word at a physical address. -/
def State.physWord (s : State) (pa : Nat) (die : Option Nat := none) : State × W64 :=
  let (s, b) := s.physRead pa 8 die
  (s, BitVec.ofNat 64 (leNat b))

/-- The parts of an access of some bytes that lie in one line each: line, offset in it, bytes. -/
def lineParts (fuel pa : Nat) (b : List Byte) : List (Nat × Nat × List Byte) :=
  match fuel with
  | 0 => []
  | f + 1 =>
    match b with
    | [] => []
    | _ =>
      let k := 128 - pa % 128
      (pa / 128, pa % 128, b.take k) :: lineParts f (pa + k) (b.drop k)

/-- Write bytes at a physical address, coherently (R282 HW). -/
def State.physWrite (s : State) (pa : Nat) (b : List Byte) (memSide : Bool := false) : State :=
  (lineParts (b.length / 128 + 2) pa b).foldl (fun s (l, o, c) =>
    s.homeWrite l (byteMask o c.length) (setLineBytes 0 o c) memSide) s

/-- Write a 64-bit word at a physical address. -/
def State.physSetWord (s : State) (pa : Nat) (x : W64) : State := s.physWrite pa (leBytes 8 x.toNat)

/-- The lines of a 32 KiB frame. -/
def frameLines (frame : Nat) : List Nat := (List.range 256).map (fun k => frame / 128 + k)

/-- Zero a frame's bytes, its sidebands to I with no poison (R59 step 4). -/
def State.zeroFrame (s : State) (frame : Nat) : State :=
  s.updMem (fun m => { m with
    bytes := m.bytes.filter (fun c => !(frame ≤ c.1 && c.1 < frame + 32768))
    side := m.side.filter (fun e => !(frame / 128 ≤ e.1 && e.1 < frame / 128 + 256))
    upsets := m.upsets.filter (fun e => !(frame / 128 ≤ e.1 && e.1 < frame / 128 + 256))
    cache := m.cache.filter (fun e => !(frame / 128 ≤ e.1 % 2 ^ 45 && e.1 % 2 ^ 45 < frame / 128 + 256)) })

/-! ### Frame pools (R58, R59) -/

/-- A pool or record descriptor: base, log, key, low, head, tail. -/
structure Pool where
  base : Nat
  log : Nat
  key : Nat
  low : Nat
  head : Nat
  tail : Nat
deriving DecidableEq, Repr, Inhabited

/-- Read a descriptor. -/
def State.readPool (s : State) (pa : Nat) : State × Pool :=
  let (s, b) := s.physRead pa 32
  (s, { base := leNat (b.take 8), log := (b.getD 8 0).toNat, key := leNat ((b.drop 10).take 2)
        low := leNat ((b.drop 12).take 4), head := leNat ((b.drop 16).take 8), tail := leNat ((b.drop 24).take 8) })

/-- The descriptor of a stack's PC group. -/
def State.poolAddr (s : State) (stack pcg : Nat) : Nat := s.pkgReg 0x10A + 32 * (8 * stack + pcg)

/-- Frames a pool holds. -/
def Pool.count (p : Pool) : Nat := (p.tail + 2 ^ 64 - p.head) % 2 ^ 64

/-- Take the frame at HEAD; an MSI goes when the count falls to LOW (R58). -/
def State.advancePool (s : State) (pa : Nat) (p : Pool) : State :=
  let s := s.physSetWord (pa + 16) (BitVec.ofNat 64 (p.head + 1))
  if p.count - 1 = p.low then s.sendMsi (s.ctlOf 0 0x10C) else s

/-- The frame at HEAD of a pool. -/
def State.poolFrame (s : State) (p : Pool) : State × Nat :=
  let (s, x) := s.physWord (p.base + 8 * (p.head % 2 ^ p.log))
  (s, x.toNat)

/-- Frames held by a stack's pools, by PC group. -/
def State.stackFrames (s : State) (stack : Nat) : Nat :=
  (List.range 8).foldl (fun n g => n + (s.readPool (s.poolAddr stack g)).2.count) 0

/-- The stacks present, in the order in which a requester's row takes them: distance, frames held, number (R59 step 2). -/
def State.stackOrder (s : State) (row : Nat) : List Nat :=
  let ks := (List.range 12).filter (fun k => s.stackPresent k && decide (s.dist row k ≤ 2))
  let before := fun a b => decide (s.dist row a < s.dist row b)
    || (s.dist row a = s.dist row b && (decide (s.stackFrames b < s.stackFrames a)
      || (s.stackFrames a = s.stackFrames b && decide (a ≤ b))))
  sortBy before ks

/-- Frames at the HEAD of a pool that the device keeps out of service are passed over (R356, log 49). -/
def State.passBad : Nat → State → Nat → State
  | 0, s, _ => s
  | n + 1, s, pa =>
    let (s, p) := s.readPool pa
    if p.count = 0 then s
    else
      let (t, f) := s.poolFrame p
      if t.out.badFrames.contains f then State.passBad n (t.advancePool pa p) pa else s

/-- Every pool of a frame that is kept out of service is looked through. -/
def State.passPools (s : State) : State :=
  (s.out.badFrames.filter (fun f => decide (paStack f ≤ 11))).foldl (fun (s : State) f =>
    State.passBad s.out.badFrames.length s (s.poolAddr (paStack f) (paPcg f))) s

/-- Take a frame for a row: the frame or the failure's reason (R59). -/
def State.takeFrame (s : State) (row : Nat) : State × Except Nat Nat :=
  let s := s.passPools
  match (s.stackOrder row).find? (fun k => decide (s.stackFrames k ≠ 0)) with
  | none => (s, .error 3)
  | some k =>
    let start := s.xl.rr.get k 0
    match ((List.range 8).map (fun j => (start + j) % 8)).find?
        (fun g => decide ((s.readPool (s.poolAddr k g)).2.count ≠ 0)) with
    | none => (s, .error 3)
    | some g =>
      let (s, p) := s.readPool (s.poolAddr k g)
      let (s, f) := s.poolFrame p
      if f % 32768 = 0 && s.isLocal f && paStack f = k && paPcg f = g && decide (f < 2 ^ 52) && !s.out.badFrames.contains f then
        let s := s.advancePool (s.poolAddr k g) p
        ({ s with xl := { s.xl with rr := s.xl.rr.put k ((g + 1) % 8) } }, .ok f)
      else (s, .error 5)

/-- Take the frame of a colocation record (R59 step 1). -/
def State.takeColo (s : State) (c : Nat) : State × Except Nat Nat :=
  let pa := s.pkgReg 0x10B + 32 * c
  let s := State.passBad s.out.badFrames.length s pa
  let (s, p) := s.readPool pa
  if p.count = 0 then (s, .error 3)
  else
    let (s, f) := s.poolFrame p
    if f % 32768 = 0 && s.isLocal f && decide (f < 2 ^ 52) && !s.out.badFrames.contains f && paStack f = p.key % 16 && paPcg f = bitsN p.key 4 3 && paBank f = bitsN p.key 7 5
        && paSub f = bitsN p.key 12 4 then
      (s.advancePool pa p, .ok f)
    else (s, .error 5)

/-- Give a frame back to the pool of its stack and PC group (R67 step 7), unless it is kept out (R356) or no pool of this package is its own. -/
def State.returnFrame (s : State) (frame : Nat) : State :=
  if s.out.badFrames.contains frame || !s.isLocal frame || decide (11 < paStack frame) then s
  else
    let pa := s.poolAddr (paStack frame) (paPcg frame)
    let (s, p) := s.readPool pa
    let h := (p.head + 2 ^ 64 - 1) % 2 ^ 64
    (s.physSetWord (p.base + 8 * (h % 2 ^ p.log)) (BitVec.ofNat 64 frame)).physSetWord (pa + 16) (BitVec.ofNat 64 h)

/-! ### Entries (R52 to R54) -/

/-- The fields of an entry. -/
def pteV (e : W64) : Bool := e.getLsbD 0
def pteR (e : W64) : Bool := e.getLsbD 1
def pteW (e : W64) : Bool := e.getLsbD 2
def pteX (e : W64) : Bool := e.getLsbD 3
def pteU (e : W64) : Bool := e.getLsbD 4
def pteA (e : W64) : Bool := e.getLsbD 5
def pteD (e : W64) : Bool := e.getLsbD 6
def pteLazy (e : W64) : Bool := e.getLsbD 7
def pteContig (e : W64) : Bool := e.getLsbD 8
def pteCls (e : W64) : Nat := bitsN e.toNat 9 2
def ptePin (e : W64) : Bool := e.getLsbD 11
def pteMig (e : W64) : Bool := e.getLsbD 12
def ptePa (e : W64) : Nat := bitsN e.toNat 15 37 * 32768
def pteOwner (e : W64) : Nat := bitsN e.toNat 52 12

/-- Bytes that a leaf of a level maps. -/
def levelBytes (lvl : Nat) : Nat := 2 ^ (15 + 12 * lvl)

/-- A malformed leaf (R53). -/
def State.leafBad (s : State) (lvl : Nat) (e : W64) : Bool :=
  let pa := ptePa e
  let c := pteCls e
  pa % levelBytes lvl ≠ 0 || (pteW e && !pteR e) || bitsN e.toNat 13 2 ≠ 0 || pteLazy e
    || (c = 0 && decide (160 ≤ pteOwner e)) || (c = 1 && decide (8 ≤ pteOwner e)) || (decide (2 ≤ c) && pteOwner e ≠ 0)
    || badFrame pa || (isIo pa && c ≠ 2) || (decide (c ≤ 1) && !s.isLocal pa)
    || (lvl = 2 && pa % 2 ^ 40 ≠ 0) || (c = 3 && pteX e)

/-- Do the permissions of an entry admit an access (R53)? -/
def permits (e : W64) (a : Access) : Bool :=
  match a with
  | .read => pteR e
  | .write => pteW e
  | .atomic => pteR e && pteW e
  | .fetch => pteX e

/-- Is an access a write? -/
def Access.writes : Access → Bool
  | .write | .atomic => true
  | _ => false

/-- Does a class admit a requester: a cluster, or none for the hub's (R57)? -/
def admits (cls owner : Nat) (who : Option Nat) : Bool :=
  match cls, who with
  | 0, some g => owner = g
  | 1, some g => owner = dieOf g
  | 0, none | 1, none => false
  | _, _ => true

/-- The translation of a leaf. -/
def leafTlb (aspace lvl : Nat) (va : W64) (e : W64) : Tlb :=
  let n := levelBytes lvl
  { aspace := aspace, vpn := va.toNat / n * (n / 32768), pages := n / 32768, pa := ptePa e, cls := pteCls e
    owner := pteOwner e, r := pteR e, w := pteW e, x := pteX e, u := pteU e, d := pteD e }

/-- How a walk ends (R57, R61). -/
inductive WalkRes where
  | ok (t : Tlb)
  | fail (reason : Nat)
  /-- The class must widen first. -/
  | widen
  /-- MIG is set: the walk parks. -/
  | mig
deriving DecidableEq, Repr, Inhabited

/-- The row of CTL_DIST of a requester: its die, or the hub's (R59). -/
def rowOf (who : Option Nat) : Nat :=
  match who with
  | some g => dieOf g
  | none => 8

/-- First touch of a lazy entry (R54, R59). An entry whose leaf would be malformed by R53 is malformed itself (log 76). -/
def State.firstTouch (s : State) (pa : Nat) (e : W64) (aspace : Nat) (va : W64) (a : Access) (who : Option Nat) :
    State × WalkRes :=
  if bitsN e.toNat 31 33 ≠ 0 || bitsN e.toNat 12 3 ≠ 0 || pteContig e || bitsN e.toNat 5 2 ≠ 0 || pteCls e = 1
      || (pteW e && !pteR e) || (pteCls e = 3 && pteX e) then (s, .fail 4)
  else if !permits e a then (s, .fail 2)
  else
    let colo := bitsN e.toNat 15 16
    let (s, r) := if colo ≠ 0 then s.takeColo colo else s.takeFrame (rowOf who)
    match r with
    | .error n => (s, .fail n)
    | .ok f =>
      let s := s.zeroFrame f
      let (cls, owner) := if pteCls e = 0 then (match who with | some g => (0, g) | none => (2, 0)) else (pteCls e, 0)
      let x := BitVec.ofNat 64 (owner * 2 ^ 52 + f + (if colo ≠ 0 then 2 ^ 11 else 0) + cls * 512
        + (if a.writes then 64 else 0) + 32 + bitsN e.toNat 1 4 * 2 + 1)
      let s := s.physSetWord pa x
      let t := leafTlb aspace 0 va x
      if admits t.cls t.owner who then (s, .ok t) else (s, .widen)

/-- The aligned run of 32 entries of a CONTIG leaf that makes a 1 MiB translation: the run is one, its first entry, and
whether D is set in all 32 (R55). -/
def State.contigRun (s : State) (pa : Nat) (die : Option Nat) : State × Bool × W64 × Bool :=
  let base := pa / 256 * 256
  let (s, b) := s.physRead base 256 die
  let es := (List.range 32).map (fun k => BitVec.ofNat 64 (leNat ((b.drop (8 * k)).take 8)))
  let e0 := es.headD 0
  let strip := fun (e : W64) => e.toNat - bitsN e.toNat 5 2 * 32 - ptePa e
  (s, ptePa e0 % 2 ^ 20 = 0 && (List.range 32).all (fun k =>
    let e := es.getD k 0
    pteV e && (pteR e || pteW e || pteX e) && !s.leafBad 0 e && strip e = strip e0
      && ptePa e = ptePa e0 + 32768 * k), e0, es.all pteD)

/-- Set A, and D for a write, in an entry (R56). -/
def State.setAD (s : State) (pa : Nat) (a : Access) (die : Option Nat) : State :=
  let (s, e) := s.physWord pa die
  let e' := e ||| 32#64 ||| (if a.writes then 64#64 else 0)
  if e' = e then s else s.physSetWord pa e'

/-- A walk that has reached a leaf (R53, R55 to R57). A refusal of the hub's walker counts at the lowest-numbered die
present (log 76). -/
def State.walkLeaf (s : State) (pa lvl : Nat) (e : W64) (aspace : Nat) (va : W64) (a : Access) (who : Option Nat) :
    State × WalkRes :=
  if s.leafBad lvl e then (s, .fail 4)
  else if pteMig e then (s, .mig)
  else if !permits e a then (s, .fail 2)
  else if !admits (pteCls e) (pteOwner e) who then (s, .widen)
  else
    let t := { leafTlb aspace lvl va e with d := pteD e || a.writes }
    if lvl = 0 && pteContig e then
      let (s, ok, e0, dirty) := s.contigRun pa (who.map dieOf)
      if ok then
        let base := pa / 256 * 256
        let s := (List.range 32).foldl (fun s k => s.setAD (base + 8 * k) a (who.map dieOf)) s
        (s, .ok { t with vpn := va.toNat / 2 ^ 20 * 32, pages := 32, pa := ptePa e0, d := dirty || a.writes })
      else
        let die := match who with | some g => dieOf g | none => s.lowestDie
        let s := s.setCtl (1 + die) 0x146 (s.ctlOf (1 + die) 0x146 + 1)
        (s.setAD pa a (who.map dieOf), .ok t)
    else (s.setAD pa a (who.map dieOf), .ok t)

/-- Is an entry of a level a well-formed pointer (R52, R53)? -/
def ptePointer (lvl : Nat) (e : W64) : Bool :=
  pteV e && bitsN e.toNat 1 14 = 0 && bitsN e.toNat 52 12 = 0 && !badFrame (ptePa e) && lvl ≠ 0

/-- A list, newest first, with at most some ways in each set. -/
def keepWays {α : Type} (ways : Nat) (set : α → Nat) (l : List α) : List α :=
  (l.zipIdx.filter (fun e => decide (((l.take e.2).filter (fun x => set x = set e.1)).length < ways))).map (·.1)

/-- The pointer entry that a die's walk cache holds for an address at a level (R60). -/
def State.wcacheFind (s : State) (who : Option Nat) (lvl aspace : Nat) (va : W64) : Option W64 :=
  match who with
  | some g => ((s.xl.wcache.get (dieOf g) []).find? (fun x => x.1 = aspace && x.2.1 = lvl
      && x.2.2.1 = va.toNat / levelBytes lvl)).map (·.2.2.2)
  | none => none

/-- A die's walk cache of 512 pointer entries, 4-way, takes one; the hub's walker has none (R60). -/
def State.wcachePut (s : State) (who : Option Nat) (lvl aspace : Nat) (va : W64) (e : W64) : State :=
  match who with
  | some g =>
    if ptePointer lvl e then
      { s with xl := { s.xl with wcache := s.xl.wcache.upd (dieOf g) [] (fun l =>
          keepWays 4 (fun x => x.2.2.1 % 128) ((aspace, lvl, va.toNat / levelBytes lvl, e) :: l)) } }
    else s
  | none => s

/-- A table entry as a walk sees it: a pointer from the walk cache, else read at its home (R56, R60). -/
def State.walkEntry (s : State) (who : Option Nat) (lvl aspace : Nat) (va : W64) (pa : Nat) : State × W64 :=
  match s.wcacheFind who lvl aspace va with
  | some e => (s, e)
  | none => let (s, e) := s.physWord pa (who.map dieOf); (s.wcachePut who lvl aspace va e, e)

/-- The walk of a table from a level (R52). -/
def State.walkTable (lvl : Nat) (s : State) (tbl aspace : Nat) (va : W64) (a : Access) (who : Option Nat) :
    State × WalkRes :=
  let pa := tbl + 8 * bitsN va.toNat (15 + 12 * lvl) 12
  let (s, e) := s.walkEntry who lvl aspace va pa
  if !pteV e then
    if pteLazy e then (if lvl = 0 then s.firstTouch pa e aspace va a who else (s, .fail 4)) else (s, .fail 1)
  else if pteR e || pteW e || pteX e then s.walkLeaf pa lvl e aspace va a who
  else if bitsN e.toNat 1 14 ≠ 0 || bitsN e.toNat 52 12 ≠ 0 || badFrame (ptePa e) then (s, .fail 4)
  else match lvl with
    | 0 => (s, .fail 4)
    | l + 1 => State.walkTable l s (ptePa e) aspace va a who

/-- The root table of a space, when the space is valid (R47). -/
def State.rootOf (s : State) (aspace : Nat) : State × Option Nat :=
  if 65535 < aspace then (s, none)
  else
    let (s, b) := s.physRead (s.pkgReg 0x109 + 16 * aspace) 16
    let lo := leNat (b.take 8)
    if lo % 2 = 0 || bitsN lo 1 14 ≠ 0 || bitsN lo 52 12 ≠ 0 || leNat (b.drop 8) ≠ 0 then (s, none)
    else (s, some (bitsN lo 15 37 * 32768))

/-- A walk from the address space's root (R47, R52). -/
def State.walk (s : State) (aspace : Nat) (va : W64) (a : Access) (who : Option Nat) : State × WalkRes :=
  match s.rootOf aspace with
  | (s, none) => (s, .fail 4)
  | (s, some root) => s.walkTable 2 root aspace va a who

/-! ### TLBs (R57, R60) -/

/-- Does a translation cover an address? -/
def Tlb.covers (t : Tlb) (aspace : Nat) (va : W64) : Bool :=
  t.aspace = aspace && decide (t.vpn ≤ va.toNat / 32768) && decide (va.toNat / 32768 < t.vpn + t.pages)

/-- Does a translation serve an access of a requester? A write needs D set (R56). -/
def Tlb.serves (t : Tlb) (a : Access) (who : Option Nat) : Bool :=
  admits t.cls t.owner who
    && (match a with
        | .read => t.r
        | .write => t.w && t.d
        | .atomic => t.r && t.w && t.d
        | .fetch => t.x)

/-- The physical address of a virtual one. -/
def Tlb.addr (t : Tlb) (va : W64) : Nat := t.pa + (va.toNat - t.vpn * 32768)

/-- A translation held for a cluster's access: its TLB, then its die's (R60). -/
def State.tlbFind (s : State) (g aspace : Nat) (va : W64) (a : Access) : Option Tlb :=
  let ok := fun (t : Tlb) => t.covers aspace va && t.serves a (some g)
  match (s.xl.ctlb.get g []).find? ok with
  | some t => some t
  | none => (s.xl.dtlb.get (dieOf g) []).find? ok

/-- A TLB's translations, newest first, with one more in place of an older one of the page. -/
def tlbPut (t : Tlb) (l : List Tlb) : List Tlb :=
  t :: l.filter (fun u => !(u.aspace = t.aspace && u.vpn = t.vpn && u.pages = t.pages))

/-- Install a translation in a cluster's TLB of 256 and its die's of 16,384, 8-way (R60). -/
def State.tlbInstall (s : State) (g : Nat) (t : Tlb) : State :=
  { s with xl := { s.xl with
      ctlb := s.xl.ctlb.upd g [] (fun l => (tlbPut t l).take 256)
      dtlb := s.xl.dtlb.upd (dieOf g) [] (fun l => keepWays 8 (fun u => u.vpn / u.pages % 2048) (tlbPut t l)) } }

/-- Does a translation meet a range of pages of a space? -/
def Tlb.inRange (t : Tlb) (all : Bool) (aspace : Nat) (range : Option (Nat × Nat)) : Bool :=
  all || (t.aspace = aspace && match range with
    | none => true
    | some (p, n) => decide (t.vpn < p + n) && decide (p < t.vpn + t.pages))

/-- Remove translations of a range from every cache of the package (R65 point 1). -/
def State.shootdown (s : State) (all : Bool) (aspace : Nat) (range : Option (Nat × Nat)) (ats : Bool) : State :=
  let keep := fun (t : Tlb) => !t.inRange all aspace range
  { s with xl := { s.xl with
      ctlb := s.xl.ctlb.mapv (fun _ l => l.filter keep)
      dtlb := s.xl.dtlb.mapv (fun _ l => l.filter keep)
      wcache := if all then [] else s.xl.wcache.mapv (fun _ l => l.filter (fun e => e.1 ≠ aspace))
      ats := if ats then s.xl.ats.filter (fun e => keep e.2) else s.xl.ats }
           out := { s.out with harts := s.out.harts.mapv (fun _ h => { h with tlb := h.tlb.filter keep }) } }

/-! ### Fault records (R61, R62) -/

/-- The KINDS bit of an access. -/
def Access.bit : Access → Nat
  | .read => 1
  | .write => 2
  | .fetch => 4
  | .atomic => 8

/-- The FIRST field of a requester (R62). -/
def State.firstOf (s : State) (r : Requester) : Nat :=
  match r with
  | .party i _ _ => (match i.unit with | .lane => 0 | .spine => 1 | .mseq => 2 | _ => 3) * 4096 + i.g
  | .copy g => 3 * 4096 + g
  | .queue q => 4 * 4096 + (s.work.queues.get q {}).assign % 4096
  | .pull g _ _ => 5 * 4096 + g
  | .sill i => 6 * 4096 + (s.eng.sills.get i {}).g
  | .retire i =>
    let w := s.work.retWrites.get i {}
    if w.lnum.isSome then 4 * 4096 + (s.work.queues.get w.queue {}).assign % 4096 else 5 * 4096 + w.g

/-- The bytes of a fault record (R62). -/
def FqRec.bytes (r : FqRec) : List Byte :=
  leBytes 8 r.page.toNat ++ leBytes 2 r.aspace ++ leBytes 1 r.kinds ++ leBytes 1 r.reason ++ leBytes 2 (min r.count 65535)
    ++ leBytes 2 r.first ++ leBytes 8 r.seq ++ leBytes 8 0

/-- Write a record's slot of its die's fault queue. -/
def State.writeRec (s : State) (r : FqRec) : State :=
  if r.placed then s.physWrite (s.dieReg r.die 0x140 + 32 * r.idx) r.bytes else s

/-- A bitwise or of small numbers. -/
def orBits (a b : Nat) : Nat := a ||| b

/-- Requests of a failed walk park under a record of the die's fault queue: they join the page's unresolved record, or
make one, or wait without one when the queue is full (R61, R62). -/
def State.recordFaults (s : State) (die aspace : Nat) (va : W64) (reason : Nat)
    (who : List (Requester × W64 × Access)) : State :=
  let page := va &&& ~~~(0x7FFF#64)
  let kinds := who.foldl (fun k r => orBits k r.2.2.bit) 0
  match s.xl.recs.find? (fun r => r.die = die && r.page = page && r.aspace = aspace && r.placed) with
  | some r =>
    let r' := { r with kinds := orBits r.kinds kinds, count := r.count + who.length, who := r.who ++ who }
    let s := { s with xl := { s.xl with recs := s.xl.recs.map (fun x => if x = r then r' else x) } }
    s.writeRec r'
  | none =>
    let head := s.dieReg die 0x141
    let tail := s.dieReg die 0x142
    let room := decide ((tail + 2 ^ 64 - head) % 2 ^ 64 < 4096)
    let seq := s.xl.seq.get die 0
    let r : FqRec := { die := die, idx := tail % 4096, page := page, aspace := aspace, kinds := kinds, reason := reason
                       count := who.length, first := (who.head?.map (fun r => s.firstOf r.1)).getD 0, seq := seq
                       who := who, placed := room }
    let s := { s with xl := { s.xl with recs := s.xl.recs ++ [r] } }
    if room then
      let s := { s with xl := { s.xl with seq := s.xl.seq.put die (seq + 1) } }
      let s := (s.writeRec r).setCtl (1 + die) 0x142 (BitVec.ofNat 64 (tail + 1))
      if tail = head then s.sendMsi (s.ctlOf (1 + die) 0x143) else s
    else s.setCtl (1 + die) 0x144 (s.ctlOf (1 + die) 0x144 ||| 1#64)

/-- One access of some requesters fails (R61). -/
def State.recordFault (s : State) (die aspace : Nat) (va : W64) (a : Access) (reason : Nat) (who : List Requester) :
    State :=
  s.recordFaults die aspace va reason (who.map (fun r => (r, va, a)))

/-! ### Widening (R289, R290) -/

/-- The virtual page's leaf: its address, level and value, by a plain walk. -/
def State.findLeaf (lvl : Nat) (s : State) (tbl : Nat) (va : W64) : State × Option (Nat × Nat × W64) :=
  let pa := tbl + 8 * bitsN va.toNat (15 + 12 * lvl) 12
  let (s, e) := s.physWord pa
  if !pteV e then (s, if pteLazy e && lvl = 0 then some (pa, 0, e) else none)
  else if pteR e || pteW e || pteX e then (s, some (pa, lvl, e))
  else match lvl with
    | 0 => (s, none)
    | l + 1 => State.findLeaf l s (ptePa e) va

/-- The leaf of a page of a space. -/
def State.leafOf (s : State) (aspace : Nat) (va : W64) : State × Option (Nat × Nat × W64) :=
  match s.rootOf aspace with
  | (s, none) => (s, none)
  | (s, some root) => State.findLeaf 2 s root va

/-- The lines of the page that some cache of the owner die holds. -/
def State.pageLines (s : State) (pa bytes : Nat) : List Nat :=
  let l0 := pa / 128
  let inPage := fun k => decide (l0 ≤ k % 2 ^ 45) && decide (k % 2 ^ 45 < l0 + bytes / 128)
  ((s.mem.l1.keys ++ s.mem.cache.keys ++ s.mem.side.keys).filter inPage).map (· % 2 ^ 45) |>.eraseDups

/-- The widening of a page under a root for a toucher: steps 2 to 7 of R289, only what is still needed (R290). -/
def State.widenAt (s : State) (root aspace : Nat) (va : W64) (who : Option Nat) : State :=
  match State.findLeaf 2 s root va with
  | (s, none) => s
  | (s, some (pa, lvl, e)) =>
    let cls := pteCls e
    if !pteV e || decide (2 ≤ cls) || admits cls (pteOwner e) who then s
    else
      let die := if cls = 0 then dieOf (pteOwner e) else pteOwner e
      let s := s.shootdown false aspace (some (va.toNat / levelBytes lvl * (levelBytes lvl / 32768), levelBytes lvl / 32768)) false
      let lines := s.pageLines (ptePa e) (levelBytes lvl)
      let s := lines.foldl (fun s l =>
        if cls = 0 then s.flushL1 (pteOwner e) l
        else (List.range 20).foldl (fun s k => s.updMem (fun m => m.dropL1 (die * 20 + k) l)) s) s
      let base := e.toNat - pteOwner e * 2 ^ 52 - cls * 512
      let sameDie := cls = 0 && (match who with | some g => dieOf g = die | none => false)
      if sameDie then s.physSetWord pa (BitVec.ofNat 64 (base + die * 2 ^ 52 + 512))
      else
        let s := lines.foldl (fun s l =>
          let s := s.evictAgent (s.agentId die) l
          let s := s.updMem (fun m => m.clearResv l)
          s.putSide l { (({} : Side)) with poison := (s.mem.sideOf l).poison }) s
        let l0 := ptePa e / 128
        let s := s.updMem (fun m => { m with resv := m.resv.filter (fun r =>
          !(decide (l0 ≤ r.line) && decide (r.line < l0 + levelBytes lvl / 128))) })
        s.physSetWord pa (BitVec.ofNat 64 (base + 1024))

/-- The widening of a page of a space for a toucher. -/
def State.widenPage (s : State) (aspace : Nat) (va : W64) (who : Option Nat) : State :=
  match s.rootOf aspace with
  | (s, none) => s
  | (s, some root) => s.widenAt root aspace va who

/-- A walk of a device unit that does not park on widening: it widens the page and walks again. -/
def State.walkNow (s : State) (aspace : Nat) (va : W64) (a : Access) (who : Option Nat) : State × WalkRes :=
  match s.walk aspace va a who with
  | (s, .widen) =>
    let s := s.widenPage aspace va who
    match s.walk aspace va a who with
    | (s, .widen) =>
      let s := s.widenPage aspace va who
      s.walk aspace va a who
    | r => r
  | r => r

/-- The class and physical address of a page whose leaf is present and well formed, without a walk: used to place the
alignment check of R198 before its permission check. -/
def State.peekLeaf (s : State) (asp : Nat) (va : W64) : Option (Nat × Nat) :=
  match (s.leafOf asp va).2 with
  | some (_, lvl, e) =>
    if pteV e && !s.leafBad lvl e && !pteMig e then some (pteCls e, (leafTlb asp lvl va e).addr va) else none
  | none => none

/-! ### Virtual accesses of the device's units -/

/-- The result of an access: a value, or a failed walk's address, access and reason. -/
inductive Got (α : Type) where
  | ok (x : α)
  | fail (va : W64) (a : Access) (reason : Nat)
deriving Repr

/-- Is a page of a space being widened (R289)? -/
def State.widening (s : State) (aspace : Nat) (va : W64) : Bool :=
  s.xl.widens.any (fun w => w.aspace = aspace && w.va.toNat / 32768 = va.toNat / 32768)

/-- Must a miss of a unit of a die wait: a walk of the page is in flight, whose outcome it takes, or its page is being widened, or
all 64 walkers are busy (R60, R289)? -/
def State.missWaits (s : State) (die aspace : Nat) (va : W64) : Bool :=
  let mine := s.xl.walks.filter (fun w => w.die = die)
  s.widening aspace va || decide (64 ≤ mine.length)
    || mine.any (fun w => w.aspace = aspace && w.va.toNat / 32768 = va.toNat / 32768)

/-- The outcome of a walk that a unit has made for an address: reason 6 is a page that it must wait for. -/
def WalkRes.got (r : WalkRes) (va : W64) (a : Access) : Got (Nat × Nat) :=
  match r with
  | .ok t => .ok (t.addr va, t.cls)
  | .fail n => .fail va a n
  | .widen | .mig => .fail va a 6

/-- Translate for a unit, with address bits [63:51] checked (R48): a bad address is reason 0. A unit of a cluster uses its
cluster's TLB and its die's, and a walk of its own fills them (R60); the hub walks for each access. -/
def State.unitXlate (s : State) (aspace : Nat) (va : W64) (a : Access) (who : Option Nat) : State × Got (Nat × Nat) :=
  if 2 ^ 51 ≤ va.toNat then (s, .fail va a 0)
  else match who with
    | none => let (s, r) := s.walkNow aspace va a none; (s, r.got va a)
    | some g =>
      match s.tlbFind g aspace va a with
      | some t => (s, (WalkRes.ok t).got va a)
      | none =>
        if s.missWaits (dieOf g) aspace va then (s, .fail va a 6)
        else match s.walkNow aspace va a (some g) with
          | (s, .ok t) => (s.tlbInstall g t, (WalkRes.ok t).got va a)
          | (s, r) => (s, r.got va a)

/-- The threads in whose name a unit of a cluster accesses other packages: its engines, together. -/
def engineThread (who : Option Nat) : List Thread :=
  match who with
  | some g => [{ kind := 6, a := g }]
  | none => []

/-- The words that an engine's write to stack 15 makes: at most 8 bytes each, within an aligned 8. -/
def ioParts (fuel off : Nat) (b : List Byte) : List (Nat × Nat × Nat) :=
  match fuel, b with
  | 0, _ | _, [] => []
  | f + 1, b =>
    let k := min b.length (8 - off % 8)
    (off, k, leNat (b.take k)) :: ioParts f (off + k) (b.drop k)

/-- An engine's write to stack 15 goes to the hub, which performs such writes in order (R49). -/
def State.post (s : State) (off : Nat) (b : List Byte) : State :=
  { s with out := { s.out with posted := s.out.posted ++ ioParts b.length off b } }

/-- A line as an access to an MX unit of a cluster's engine reads it: current in DRAM, at its home (R204, R252). -/
def State.mxLine (s : State) (g cls line : Nat) : State × Line × Bool :=
  ((s.makeCurrent line cls).dropStale g line).atHome [] line (some (dieOf g))

/-- Write bytes of a line for an MX unit: every copy goes, and the home is written (R204, R252). -/
def State.mxPut (s : State) (who : Option Nat) (cls line : Nat) (m : BitVec 128) (x : Line) : State :=
  if s.isLocal (line * 128) then (s.dropCopies line).homeWrite line m x (cls = 3) false (who.map dieOf)
  else (s.dropCopies line).askWrite (engineThread who) line

/-- Bytes of a line as a unit reads them: through a cluster's caches, or at the home for the hub and for MX units. -/
def State.unitLine (s : State) (who : Option Nat) (cls line : Nat) (need : BitVec 128) (mx : Bool := false) : State × Line × Bool :=
  if mx && !isIo (line * 128) then s.mxLine (who.getD 0) cls line
  else if !s.isLocal (line * 128) then
    (match who, cls = 2 && s.isPeer line with
     | some g, true => s.peerLoad [] g line false
     | _, _ => s.askRead [] line)
  else if isIo (line * 128) then (s, s.ioLine (paOff (line * 128)), false)
  else match who with
    | some g => s.loadLine g cls line need false
    | none => if cls = 3 then s.msRead line else s.homeRead line

/-- Read n bytes at a virtual address for a unit: the bytes and whether a line was poisoned. -/
def State.unitRead (fuel : Nat) (s : State) (aspace : Nat) (va : W64) (n : Nat) (who : Option Nat) (mx : Bool := false) :
    State × Got (List Byte × Bool) :=
  match fuel with
  | 0 => (s, .ok ([], false))
  | f + 1 =>
    if n = 0 then (s, .ok ([], false))
    else match s.unitXlate aspace va .read who with
      | (s, .fail v a r) => (s, .fail v a r)
      | (s, .ok (pa, cls)) =>
        let k := min n (128 - pa % 128)
        let (s, x, p) := s.unitLine who cls (pa / 128) (byteMask (pa % 128) k) mx
        match State.unitRead f s aspace (va + BitVec.ofNat 64 k) (n - k) who mx with
        | (s, .ok (b, q)) => (s, .ok (lineBytes x (pa % 128) k ++ b, p || q))
        | r => r

/-- Read bytes for a unit. -/
def State.rd (s : State) (aspace : Nat) (va : W64) (n : Nat) (who : Option Nat) (mx : Bool := false) :
    State × Got (List Byte × Bool) :=
  State.unitRead (n / 128 + 3) s aspace va n who mx

/-- Write bytes of one line for a unit. -/
def State.unitPut (s : State) (who : Option Nat) (cls line off : Nat) (b : List Byte) (mx : Bool := false) : State :=
  let m := byteMask off b.length
  let x := setLineBytes 0 off b
  if mx && !isIo (line * 128) then s.mxPut who cls line m x
  else if !s.isLocal (line * 128) then
    (match who, cls = 2 && s.isPeer line with
     | some g, true => s.peerStore (engineThread who) g line m x
     | _, _ => s.askWrite (engineThread who) line)
  else if isIo (line * 128) then s.post (paOff (line * 128) + off) b
  else
    match who with
    | some g => s.storeLine g cls line m x false
    | none => s.homeWrite line m x (cls = 3)

/-- Translate every page of a range for a unit, before any of it is accessed. -/
def State.unitPages (fuel : Nat) (s : State) (aspace : Nat) (va : W64) (n : Nat) (a : Access) (who : Option Nat) :
    State × Got PUnit :=
  match fuel with
  | 0 => (s, .ok .unit)
  | f + 1 =>
    if n = 0 then (s, .ok .unit)
    else match s.unitXlate aspace va a who with
      | (s, .fail v a r) => (s, .fail v a r)
      | (s, .ok _) =>
        let k := min n (32768 - va.toNat % 32768)
        State.unitPages f s aspace (va + BitVec.ofNat 64 k) (n - k) a who

/-- Write bytes at a virtual address for a unit; nothing is written when a page fails. -/
def State.unitWrite (fuel : Nat) (s : State) (aspace : Nat) (va : W64) (b : List Byte) (who : Option Nat) (mx : Bool := false) :
    State :=
  match fuel with
  | 0 => s
  | f + 1 =>
    match b with
    | [] => s
    | _ =>
      match s.unitXlate aspace va .write who with
      | (s, .ok (pa, cls)) =>
        let k := min b.length (128 - pa % 128)
        State.unitWrite f (s.unitPut who cls (pa / 128) (pa % 128) (b.take k) mx) aspace (va + BitVec.ofNat 64 k) (b.drop k) who mx
      | (s, _) => s

/-- Write bytes for a unit, after every page has translated. -/
def State.wrt (s : State) (aspace : Nat) (va : W64) (b : List Byte) (who : Option Nat) (mx : Bool := false) : State × Got PUnit :=
  match State.unitPages (b.length / 32768 + 3) s aspace va b.length .write who with
  | (s, .ok _) => (State.unitWrite (b.length / 128 + 3) s aspace va b who mx, .ok .unit)
  | r => r

end Sys2Proof.Machine
end

