-- ==== Sys2Proof/Machine/Queue.lean ====
section
/-! DEFINITION. Sequence counters and their watches, queue stops, completion queues, and the writes that report a
retirement (R29 to R36, R41, R42, R315 to R322, R365). -/

namespace Sys2Proof.Machine

/-! ### Sequence counters (R41, R42) -/

/-- A counter's low and high words, read at its home; one in another package is asked for them (R352). -/
def State.ctrWords (s : State) (pa : Nat) : State × Nat × Nat :=
  if s.isLocal pa then
    let (s, b) := s.physRead pa 16
    (s, leNat (b.take 8), leNat (b.drop 8))
  else
    let (s, x, _) := s.remoteRead [] (pa / 128)
    (s, leNat (lineBytes x (pa % 128) 8), leNat (lineBytes x (pa % 128 + 8) 8))

/-- Advance a counter by k with poison flag f, atomically at its home (R41); the home of one in another package is sent the
request (R352). -/
def State.ctrAdvance (s : State) (pa k : Nat) (f : Bool) (who : List Thread := []) : State :=
  if !s.isLocal pa then s.askWrite who (pa / 128)
  else
  let (s, lo, hi) := s.ctrWords pa
  let sum := ctrCount lo + k
  let cnt := min sum (2 ^ 63 - 1)
  let sat := bitsN hi 4 1 = 1 || decide (2 ^ 63 - 1 < sum)
  let lo' := cnt + (if ctrPoison lo || f then 2 ^ 63 else 0)
  let hi' := hi / 256 * 256 + hi % 4 + (if sat then 16 else 0)
  s.physWrite pa (leBytes 8 lo' ++ leBytes 8 hi') true

/-- Does any waiter of a die remain on a counter? -/
def State.waitsOn (s : State) (pa die : Nat) : Bool :=
  s.xl.waiters.any (fun w => w.pa = pa && w.die = die)
    || (s.work.table.get die []).any (fun t => t.waits.any (fun w => w.1 = pa))

/-- Is a counter watched for a die? -/
def State.watching (s : State) (pa die : Nat) : Bool := s.xl.watch.any (fun w => w.1 = pa && bitsN w.2 die 1 = 1)

/-- The key of a counter that a die polls. -/
def pollKey (pa die : Nat) : Nat := pa * 16 + die

/-- The clock by which a die polls; the hub, 8, takes the lowest present die's. -/
def State.pollClock (s : State) (die : Nat) : Nat := s.cycles (if die < 8 then die else s.lowestDie)

/-- A die reads a counter that it polls now: its next poll comes CTL_SEQPOLL cycles later (R42). -/
def State.pollNow (s : State) (pa die : Nat) : State :=
  { s with xl := { s.xl with polls := s.xl.polls.put (pollKey pa die) (s.pollClock die) } }

/-- Have CTL_SEQPOLL cycles passed since a die last read a counter (R42)? -/
def State.pollDue (s : State) (pa die : Nat) : Bool :=
  decide (s.xl.polls.get (pollKey pa die) 0 + s.pkgReg 0x114 ≤ s.pollClock die)

/-- Register a watch for a die at a counter's home with the die's first waiter, if the home's table of 8,192 has room; a
die that polls for an earlier waiter polls for this one too (R42). A counter in another package is polled (log 11). The first waiter's
own reading begins the time to the first poll. -/
def State.watchAdd (s : State) (pa die : Nat) : State × Bool :=
  if s.watching pa die then (s, true)
  else if s.waitsOn pa die then (s, false)
  else if !s.isLocal pa then (s.pollNow pa die, false)
  else if s.xl.watch.any (fun w => w.1 = pa) then
    ({ s with xl := { s.xl with watch := s.xl.watch.map (fun x => if x.1 = pa then (pa, x.2 + 2 ^ die) else x) } }, true)
  else if (s.xl.watch.filter (fun w => paStack w.1 = paStack pa)).length < 8192 then
    ({ s with xl := { s.xl with watch := s.xl.watch ++ [(pa, 2 ^ die)] } }, true)
  else (s.pollNow pa die, false)

/-- Drop a watch, or the polls, that no waiter of the die needs (R42). -/
def State.watchDrop (s : State) (pa die : Nat) : State :=
  if s.waitsOn pa die then s
  else
    let sub := fun (w : Nat × Nat) => if w.1 = pa && bitsN w.2 die 1 = 1 then (w.1, w.2 - 2 ^ die) else w
    { s with xl := { s.xl with watch := (s.xl.watch.map sub).filter (fun w => w.2 ≠ 0)
                               polls := s.xl.polls.del (pollKey pa die) } }

/-! ### Queues (R29, R30, R36) -/

/-- The device's side of a queue. -/
def State.queue (s : State) (q : Nat) : Queue := s.work.queues.get q {}
/-- Change a queue. -/
def State.updQueue (s : State) (q : Nat) (f : Queue → Queue) : State :=
  { s with work := { s.work with queues := s.work.queues.put q (f (s.queue q)) } }
/-- The address of a queue's descriptor (R29). -/
def State.qDesc (s : State) (q : Nat) : Nat := s.pkgReg 0x108 + 64 * q

/-- Write HEAD back to the descriptor (R31). -/
def State.setHead (s : State) (q h : Nat) : State :=
  (s.updQueue q (fun x => { x with head := h })).physSetWord (s.qDesc q + 24) (BitVec.ofNat 64 h)
/-- Write TAIL back to the descriptor (R29, R315). -/
def State.setTail (s : State) (q t : Nat) : State :=
  (s.updQueue q (fun x => { x with tail := t })).physSetWord (s.qDesc q + 32) (BitVec.ofNat 64 t)

/-- Stop a queue: ERRCODE, ERRADDR, QSTAT 2, and an MSI to a well-formed ERRMSI (R36). A draining queue whose last command
stops is disabled then (R367). A refused TAIL (code 6) stops no command: one under way stays so. -/
def State.stopQueue (s : State) (q code : Nat) (addr : W64) : State :=
  let s := s.updQueue q (fun x =>
    { x with stat := if x.stat = 3 then 0 else 2, errCode := code, errAddr := addr, busy := code = 6 && x.busy })
  let s := s.physSetWord (s.qDesc q + 40) addr
  let s := s.physWrite (s.qDesc q + 48) (leBytes 2 code)
  s.sendMsi (s.queue q).errMsi

/-- Bytes of an entry by type (R29). -/
def entryBytes (type : Nat) : Nat := if type = 1 then 8 else if type = 2 then 128 else 64

/-- The address of entry k of a queue (R30). -/
def Queue.slotAddr (x : Queue) (k : Nat) : W64 := x.base + BitVec.ofNat 64 (entryBytes x.type * (k % 2 ^ x.log))

/-- The address of the command at which a queue stands, in the ring or in a called stream (R36). -/
def Queue.cmdAddr (x : Queue) : W64 :=
  match x.streams with
  | t :: _ => match t.base with
    | some b => b + BitVec.ofNat 64 (8 * t.pos)
    | none => x.slotAddr t.pos
  | [] => x.slotAddr x.head

/-- The command at which a queue stands stops it; a clear resumes the queue after that command's words (R36). -/
def State.stopCmd (s : State) (q code : Nat) : State :=
  (s.updQueue q (fun x => { x with stopLen := x.cmdLen })).stopQueue q code (s.queue q).cmdAddr

/-! ### Completion queues (R315 to R318) -/

/-- Is a queue an enabled completion queue? -/
def Queue.cqOpen (x : Queue) : Bool := x.stat = 1 && x.type = 3

/-- Count an entry toward a notification (R318). -/
def State.cqNotify (s : State) (q : Nat) : State :=
  let x := s.queue q
  let n := x.unnotified + 1
  let need := max 1 (s.pkgReg 0x11F)
  if need ≤ n then
    (s.updQueue q (fun x => { x with unnotified := 0, oldest := 0 })).sendMsi x.errMsi
  else s.updQueue q (fun y => { y with unnotified := n, oldest := if x.unnotified = 0 then s.ns else y.oldest })

/-- Write one entry at TAIL (R315). The 64 bytes lie in one line: the ring is 64-byte aligned. -/
def State.cqWrite (s : State) (q : Nat) (e : CqEntry) : State :=
  let x := s.queue q
  let ovr := x.assign = 1 && decide (x.head + 2 ^ x.log ≤ x.tail)
  let b := leBytes 1 e.kind ++ leBytes 1 e.subkind ++ leBytes 2 (if x.assign = 1 then min x.lost 65535 else 0)
    ++ leBytes 4 0 ++ leBytes 8 x.tail ++ e.payload
  match s.wrt x.aspace (x.slotAddr x.tail) b none with
  | (s, .ok _) =>
    let s := s.updQueue q (fun y => { y with lost := if ovr then 1 else 0 })
    (s.setTail q (x.tail + 1)).cqNotify q
  | (s, .fail _ _ _) => s.stopQueue q 3 (x.slotAddr x.tail)

/-- Write the waiting entries of a record-mode queue while there is room (R317). -/
def State.cqDrain (fuel : Nat) (s : State) (q : Nat) : State :=
  match fuel with
  | 0 => s
  | f + 1 =>
    let x := s.queue q
    match x.waiting with
    | [] => s
    | e :: r =>
      if x.cqOpen && (x.assign = 1 || decide (x.tail < x.head + 2 ^ x.log)) then
        State.cqDrain f ((s.updQueue q (fun y => { y with waiting := r })).cqWrite q e) q
      else s

/-- An entry reaches the hub for a queue: it is written, or waits behind the earlier ones (R317). -/
def State.cqPush (s : State) (q : Nat) (e : CqEntry) : State :=
  if (s.queue q).cqOpen then
    let s := s.updQueue q (fun y => { y with waiting := y.waiting ++ [e] })
    s.cqDrain (s.queue q).waiting.length q
  else s

/-! ### Retirement of tasks (R31, R319 to R322, R365) -/

/-- HEAD advances over the longest prefix of retired records (R31). -/
def headOver (fuel head : Nat) (retired : List Nat) : Nat :=
  match fuel with
  | 0 => head
  | f + 1 => if retired.contains head then headOver f (head + 1) retired else head

/-- A record's slot counts as retired (R31). -/
def State.slotRetire (s : State) (q id : Nat) : State :=
  let x := s.queue q
  let r := id :: x.retired
  let h := headOver r.length x.head r
  let s := s.updQueue q (fun y => { y with retired := r.filter (fun k => decide (h ≤ k)), live := y.live - 1 })
  if h = x.head then s else s.setHead q h

/-- The payload of a task-failure entry (R321). -/
def taskEntry (t : Task) (cause : Nat) (pc addr info : W64) : CqEntry :=
  { kind := 3, payload := leBytes 8 t.id ++ leBytes 2 t.queue ++ leBytes 1 cause ++ leBytes 1 t.replays ++ leBytes 4 0
      ++ leBytes 8 pc.toNat ++ leBytes 8 addr.toNat ++ leBytes 8 t.record.toNat ++ leBytes 8 info.toNat }

/-- An entry to CTL_TASKERRQ, when it names a queue (R320, R322). -/
def State.taskErr (s : State) (e : CqEntry) : State :=
  let q := s.pkgReg 0x12A
  if q = 0xFFFF then s else s.cqPush q e

/-- Advance a task's DONE by 1 and retire its slot; a failed walk parks the write (R365). A misaligned DONE names no
counter. -/
def State.taskDone (s : State) (g : Nat) (t : Task) (poison : Bool) : State :=
  if t.done = 0 || t.done.toNat % 16 ≠ 0 then s.slotRetire t.queue t.id
  else
    let asp := (s.queue t.queue).aspace
    match s.unitXlate asp t.done .write (some g) with
    | (s, .ok (pa, cls)) => (if cls = 3 then s.ctrAdvance pa 1 poison else s).slotRetire t.queue t.id
    | (s, .fail va a r) =>
      if r = 0 then (s.taskErr (taskEntry t 9 0 t.done 0xFFFF)).slotRetire t.queue t.id
      else
      let i := s.work.nextRet
      let w : RetWrite := { aspace := asp, va := t.done, advance := true, poison := poison, queue := t.queue, g := g
                            task := some t }
      let s := { s with work := { s.work with retWrites := s.work.retWrites.put i w, nextRet := i + 1 } }
      if r = 6 then s else s.recordFault (dieOf g) asp va a r [.retire i]

/-- A record retired without running, or a task that failed with its effects set (R44, R320). -/
def State.taskFail (s : State) (g : Nat) (t : Task) (cause : Nat) (pc addr info : W64) : State :=
  (s.taskErr (taskEntry t cause pc addr info)).taskDone g t true

/-- A cluster's gatherer takes a ready task (R45, R320). -/
def State.taskReady (s : State) (g : Nat) (t : Task) : State :=
  let t := { t with g := g, taken := s.cycles (dieOf g) }
  { s with work := { s.work with ready := s.work.ready.upd g [] (· ++ [t]) } }

/-- A cause in a task lane: replay while the effects bit is clear and fewer than three replays were made; otherwise
the task is retired (R320). -/
def State.taskCause (s : State) (g : Nat) (t : Task) (effects : Bool) (cause : Nat) (pc addr info : W64) : State :=
  if !effects && t.replays < 3 then s.taskReady g { t with replays := t.replays + 1 }
  else s.taskFail g t cause pc addr info

/-! ### Retirement writes of launches (R365) -/

/-- Does a launch still have a parked write? -/
def State.retPending (s : State) (lnum : Nat) : Bool := s.work.retWrites.any (fun e => e.2.lnum = some lnum)

/-- Make a launch's write: a record's bytes, or an advance of DONE by 1 (R365). -/
def State.launchWrite (s : State) (lnum : Nat) (va : W64) (bytes : List Byte) (advance : Bool) : State :=
  let l := s.work.launches.get lnum {}
  let park := fun (s : State) (v : W64) a r =>
    let i := s.work.nextRet
    let w : RetWrite := { aspace := l.aspace, va := va, bytes := bytes, advance := advance, lnum := some lnum
                          queue := l.queue }
    if r = 0 then
      { s with work := { s.work with launches := s.work.launches.put lnum { l with dropped := true } } }
    else
      let s := { s with work := { s.work with retWrites := s.work.retWrites.put i w, nextRet := i + 1 } }
      if r = 6 then s else s.recordFault s.lowestDie l.aspace v a r [.retire i]
  if advance then
    match s.unitXlate l.aspace va .write none with
    | (s, .ok (pa, cls)) => if cls = 3 then s.ctrAdvance pa 1 false else s
    | (s, .fail v a r) => park s v a r
  else match s.wrt l.aspace va bytes none with
    | (s, .ok _) => s
    | (s, .fail v a r) => park s v a r

end Sys2Proof.Machine
end

