-- ==== Sys2Proof/Machine/Flags.lean ====
section
/-! DEFINITION. The sticky floating-point flags (R136, R137) and the effects bit (R319). -/

namespace Sys2Proof.Machine

/-- A set of flags: NX, UF, OF, DZ, NV, SAT, WN from bit 0 (R136). -/
abbrev Flags := BitVec 7

def flNX : Flags := 1
def flUF : Flags := 2
def flOF : Flags := 4
def flDZ : Flags := 8
def flNV : Flags := 16
def flSAT : Flags := 32
def flWN : Flags := 64

/-- A flag when a condition holds. -/
def flIf (c : Bool) (f : Flags) : Flags := if c then f else 0

/-- OR flags into the word of the issuer's block or wave (R137). -/
def State.orFlags (s : State) (c : Issuer) (f : Flags) : State :=
  if f = 0 then s
  else match s.waveOf c with
    | some _ => s.updWarp c.g c.slot (fun w =>
        { w with wave := w.wave.map (fun v => { v with fpflags := v.fpflags ||| f }) })
    | none => s.updBlockOf c (fun b => { b with fpflags := b.fpflags ||| f })

/-- OR flags into the word of a block by its slot. -/
def State.orBlockFlags (s : State) (g b : Nat) (f : Flags) : State :=
  if f = 0 then s else s.updBlock g b (fun x => { x with fpflags := x.fpflags ||| f })

/-- CTL_FPFLAGS of an issuer. -/
def State.fpflags (s : State) (c : Issuer) : Flags :=
  match s.waveOf c with
  | some w => w.fpflags
  | none => (s.blockOf c).fpflags

/-- Replace CTL_FPFLAGS; bits [31:7] are ignored (R136, R137). -/
def State.setFpflags (s : State) (c : Issuer) (f : Flags) : State :=
  match s.waveOf c with
  | some _ => s.updWarp c.g c.slot (fun w => { w with wave := w.wave.map (fun v => { v with fpflags := f }) })
  | none => s.updBlockOf c (fun b => { b with fpflags := f })

/-- CTL_TRAPCTL's WTE of an issuer (R302). -/
def State.wte (s : State) (c : Issuer) : Bool :=
  match s.waveOf c with
  | some w => w.trapctl
  | none => (s.blockOf c).trapctl

/-- Write CTL_TRAPCTL's WTE (R302). -/
def State.setWte (s : State) (c : Issuer) (b : Bool) : State :=
  match s.waveOf c with
  | some _ => s.updWarp c.g c.slot (fun w => { w with wave := w.wave.map (fun v => { v with trapctl := b }) })
  | none => s.updBlockOf c (fun x => { x with trapctl := b })

/-- Set the effects bit of lanes (R319). -/
def State.setEffects (s : State) (c : Issuer) (ls : List Nat) : State :=
  match c.unit with
  | .lane => s.updLanes c.g c.slot ls (fun _ n => { n with effects := true })
  | _ => s

end Sys2Proof.Machine
end

