-- ==== Sys2Proof/Machine/Operands.lean ====
section
/-! DEFINITION. Operand forms: registers by space and width, immediates by type, peg values, and results (R78 to R80,
R143). -/

namespace Sys2Proof.Machine

/-! ### Immediates (R80) -/

/-- An 8-bit field as a signed 32-bit value. -/
def sext8 (f : BitVec 8) : W32 := f.signExtend 32

/-- A small integer as the bits of a binary format with exponent width e, fraction width m and bias b, exactly. -/
def intBits (e m b : Nat) (i : Int) : Nat :=
  let n := i.natAbs
  let sign := if i < 0 then 2 ^ (e + m) else 0
  if n = 0 then 0
  else sign + (b + n.log2) * 2 ^ m + (n * 2 ^ (m - n.log2) - 2 ^ m)

/-- FP32 bits widened exactly to FP64; a NaN gives the canonical NaN (R80). -/
def widenF32 (x : W32) : W64 :=
  let sign := if x.getLsbD 31 then 2 ^ 63 else 0
  let e := bitsN x.toNat 23 8
  let m := bitsN x.toNat 0 23
  BitVec.ofNat 64 (
    if e = 255 then (if m = 0 then sign + 0x7FF0000000000000 else 0x7FF8000000000000)
    else if e = 0 then
      if m = 0 then sign
      else sign + (m.log2 + 1023 - 149) * 2 ^ 52 + (m * 2 ^ (52 - m.log2) - 2 ^ 52)
    else sign + (e + 896) * 2 ^ 52 + m * 2 ^ 29)

/-- Two copies of 16 bits. -/
def dup16 (x : Nat) : Nat := x % 65536 + 65536 * (x % 65536)
/-- Four copies of 8 bits. -/
def dup8 (x : Nat) : Nat := (x % 256) * 0x01010101

/-- The value of an 8-bit immediate of a type (R80). -/
def imm8 (ty : Nat) (f : BitVec 8) : W64 :=
  let i := f.toInt
  match ty with
  | 0 | 1 => (sext8 f).setWidth 64
  | 2 | 3 => f.signExtend 64
  | 4 => BitVec.ofNat 64 (intBits 8 23 127 i)
  | 5 => BitVec.ofNat 64 (dup16 (intBits 5 10 15 i))
  | 6 => BitVec.ofNat 64 (dup16 (intBits 8 7 127 i))
  | 7 => BitVec.ofNat 64 (intBits 11 52 1023 i)
  | 10 | 11 => BitVec.ofNat 64 (dup16 (f.signExtend 16).toNat)
  | _ => BitVec.ofNat 64 (dup8 f.toNat)

/-- The value of IMM32 of a type (R80). -/
def imm32 (ty : Nat) (x : W32) : W64 :=
  match ty with
  | 2 | 3 => x.signExtend 64
  | 7 => widenF32 x
  | _ => x.setWidth 64

/-- The immediate of B: IMM32 in the 96-bit form. -/
def immB (o : Ops) (ty : Nat) : W64 := if o.form = .f96 then imm32 ty o.imm32 else imm8 ty o.b
/-- The immediate of C: IMM32 in the 96-bit form when B is not immediate. -/
def immC (o : Ops) (ty : Nat) : W64 :=
  if o.form = .f96 && o.bs ≠ 3 then imm32 ty o.imm32 else imm8 ty o.c

/-! ### Registers -/

/-- Peg values that an instruction's counted reads took (R268), by block-relative index. -/
abbrev PegVals := Map W64

/-- A register of a file, 32-bit or 64-bit wide, in a lane. -/
def State.regOf (s : State) (c : Issuer) (f : RFile) (r l : Nat) (wide : Bool) : W64 :=
  match f with
  | .v => if wide then pair64 (s.v c.g c.slot l r) (s.v c.g c.slot l (r + 1)) else (s.v c.g c.slot l r).setWidth 64
  | .w => if wide then pair64 (s.w c.g c.slot r) (s.w c.g c.slot (r + 1)) else (s.w c.g c.slot r).setWidth 64
  | .s => if wide then s.sreg c.g c.slot r else (lo32 (s.sreg c.g c.slot r)).setWidth 64
  | .e => if wide then s.ereg c.g c.isCopy r else (lo32 (s.ereg c.g c.isCopy r)).setWidth 64
  | _ => 0

/-- The file of field A: w in a uniform instruction (R78). -/
def fileA (c : Issuer) (o : Ops) : RFile :=
  match c.unit with
  | .lane => if o.ds = 1 then .w else .v
  | .spine => .s
  | _ => .e

/-- The file of a B or C field of space 00 or 01 (R78). -/
def fileBC (c : Issuer) (o : Ops) (sp : BitVec 2) : RFile :=
  match c.unit with
  | .lane => if o.ds = 1 || sp = 1 then .w else .v
  | .spine => .s
  | _ => .e

/-- Source A. -/
def State.opA (s : State) (c : Issuer) (o : Ops) (l : Nat) (wide : Bool) : W64 :=
  s.regOf c (fileA c o) o.a.toNat l wide

/-- The value of a peg operand: all 64 bits, or bits [31:0] (R79). -/
def pegVal (pv : PegVals) (r : Nat) (wide : Bool) : W64 :=
  let x := pv.get r 0
  if wide then x else (lo32 x).setWidth 64

/-- Source B of a type; `wide` says whether the operand is 64 bits. -/
def State.opB (s : State) (c : Issuer) (o : Ops) (pv : PegVals) (l ty : Nat) (wide : Bool) : W64 :=
  if o.bs = 3 then immB o ty
  else if o.bs = 2 then pegVal pv o.b.toNat wide
  else s.regOf c (fileBC c o o.bs) o.b.toNat l wide

/-- Source C of a type. -/
def State.opC (s : State) (c : Issuer) (o : Ops) (pv : PegVals) (l ty : Nat) (wide : Bool) : W64 :=
  if o.cs = 3 then immC o ty
  else if o.cs = 2 then pegVal pv o.c.toNat wide
  else s.regOf c (fileBC c o o.cs) o.c.toNat l wide

/-- The file of a result in D space 00 or 01. -/
def fileD (c : Issuer) (o : Ops) : RFile :=
  match c.unit with
  | .lane => if o.ds = 1 then .w else .v
  | .spine => .s
  | _ => .e

/-- An s or e register's 64 bits from a result of a type: 32-bit results are zero- or sign-extended (R143). -/
def extend64 (ty : Nat) (wide : Bool) (x : W64) : W64 :=
  if wide then x else if ty = 1 then (lo32 x).signExtend 64 else (lo32 x).setWidth 64

/-- The writes of a result to register r. -/
def resWrites (f : RFile) (r l ty : Nat) (wide : Bool) (x : W64) : List PWrite :=
  match f with
  | .v | .w =>
    if wide then [⟨l, f, r, (lo32 x).setWidth 64⟩, ⟨l, f, r + 1, (hi32 x).setWidth 64⟩]
    else [⟨l, f, r, (lo32 x).setWidth 64⟩]
  | _ => [⟨l, f, r, extend64 ty wide x⟩]

/-- The write of a predicate. -/
def predWrite (l p : Nat) (b : Bool) : PWrite := ⟨l, .p, p, if b then 1 else 0⟩

/-- Make one write. -/
def State.write1 (s : State) (c : Issuer) (x : PWrite) : State :=
  match x.file with
  | .v => s.setV c.g c.slot x.lane x.idx (lo32 x.val)
  | .w => s.setW c.g c.slot x.idx (lo32 x.val)
  | .s => s.setS c.g c.slot x.idx x.val
  | .e => s.setE c.g c.isCopy x.idx x.val
  | .p => s.setPred c x.lane x.idx (x.val ≠ 0)
  | .pg => s

/-- Make writes in order. -/
def State.writeAll (s : State) (c : Issuer) (xs : List PWrite) : State := xs.foldl (fun s x => s.write1 c x) s

/-- Does the guard of an operation pass in a lane, context or sequencer (R77)? A lane that has parked at the switch point of
its instruction passed it then (R98). -/
def State.guardOk (s : State) (c : Issuer) (o : Ops) (l : Nat) : Bool :=
  !o.ge || s.pred c l o.gp.toNat ≠ o.gs || (c.unit = .lane && (s.lane c.g c.slot l).passed)

/-- The places where an operation is active: Active(l) of R8. -/
def State.active (s : State) (c : Issuer) (o : Ops) : List Nat := c.places.filter (s.guardOk c o)

end Sys2Proof.Machine
end

