-- ==== Sys2Proof/Machine/Ops.lean ====
section
/-! DEFINITION. What operations share: the parties of a block, groups, switch points, causes and traps, and the issue of
an instruction (R21, R22, R26, R87, R97 to R99, R103, R264, R265, R293 to R299). -/

namespace Sys2Proof.Machine

/-! ### The parties of a block -/

/-- The slots of a block's warps in its cluster. -/
def State.blockWarps (s : State) (g b : Nat) : List Nat :=
  ((s.cl g).warps.filter (fun e => e.2.blk = some b)).map (·.1)

/-- The live spine context of a block. -/
def State.blockSpine (s : State) (g b : Nat) : Option Nat :=
  (List.find? (fun (e : Nat × Spine) => e.2.blk = b && e.2.live) (s.cl g).spines).map (·.1)

/-- The linear identifier of a lane: of its thread, or of its task (R19). -/
def State.laneId (s : State) (c : Issuer) (l : Nat) : Nat :=
  match c.unit with
  | .lane =>
    let w := s.warp c.g c.slot
    match w.wave with
    | some _ => ((w.lane l).task.map (·.id)).getD 0
    | none =>
      let b := s.blockOf c
      b.blk * (b.img.bx * b.img.byy * b.img.bz) + w.bw * 32 + l
  | _ => 2 ^ 56

/-- The handler party of a block: its spine context, or its lowest-indexed warp with a live lane (R293). -/
def State.handler (s : State) (g b : Nat) : Option Issuer :=
  match s.blockSpine g b with
  | some k => some { unit := .spine, g := g, slot := k }
  | none =>
    let ws := (s.blockWarps g b).filter (fun k => (s.warp g k).liveMask ≠ 0)
    match ws.foldl (fun r k => match r with
      | some j => if (s.warp g k).bw < (s.warp g j).bw then some k else some j
      | none => some k) none with
    | some k => some { unit := .lane, g := g, slot := k }
    | none => none

/-! ### Rejoin masks (R102, R103) -/

/-- A lane held at a REJOIN of mask n resumes at the next instruction. -/
def Lane.unhold (x : Lane) (n : Nat) : Lane :=
  match x.hold with
  | .rejoin k _ => if k = n then { x with hold := .free, pc := x.pc + 8 } else x
  | _ => x

/-- The release check of mask n (R103). -/
def Warp.release (w : Warp) (n : Nat) : Warp :=
  let m := w.jm.get n 0
  let h := w.jh.get n 0
  let all : Bool := m &&& w.liveMask &&& ~~~h = 0
  let w := (maskLanes (if all then h else h &&& ~~~m)).foldl (fun w l => w.updLane l (fun x => x.unhold n)) w
  { w with jh := w.jh.put n (if all then 0 else h &&& m) }

/-! ### Groups (R21, R22, R264, R265) -/

/-- A group entry of a cluster. -/
def State.group (s : State) (g e : Nat) : GroupEntry := (s.cl g).groups.get e {}
/-- Change a group entry. -/
def State.updGroup (s : State) (g e : Nat) (f : GroupEntry → GroupEntry) : State :=
  s.updCl g (fun c => { c with groups := c.groups.put e (f (c.groups.get e {})) })

/-- A completed wait: the instruction ends. A lane with results pending and a switch marker parks (R98). -/
def Warp.endWait (w : Warp) (l : Nat) (len : Nat) (sw : Bool) : Warp :=
  let pending := w.pend.any (fun p => p.lanes.getLsbD l)
  w.updLane l (fun x =>
    { x with pc := x.pc + BitVec.ofNat 64 len, waitOnly := false, hold := if sw && pending then .park else .free })

/-- The lanes of a warp that wait on an entry's phase continue; those that arrive again try again (R264, R265). -/
def Warp.wakeGroup (w : Warp) (e : Nat) : Warp :=
  lanes32.foldl (fun w l =>
    match (w.lane l).hold with
    | .wait x =>
      if x.obj = .group e then w.endWait l x.len x.sw
      else if x.obj = .regroup e then w.updLane l (fun y => { y with hold := .free })
      else w
    | _ => w) w

/-- A warp whose counted arrival at an entry's present phase was a drop leaves the group. -/
def Warp.dropsAt (w : Warp) (e round : Nat) : Bool :=
  let a := w.arr.get e {}
  a.drop && a.counted && a.mask = 0 && a.round = round && !a.dropped

/-- A spine context's wait on a phase. -/
def Spine.wakeGroup (x : Spine) (e : Nat) : Spine :=
  match x.hold with
  | .wait w => if w.obj = .group e then { x with pc := x.pc + BitVec.ofNat 64 w.len, waitOnly := false, hold := .free }
               else if w.obj = .regroup e then { x with hold := .free } else x
  | _ => x

/-- Mark the drop of a party that has left a group. -/
def dropDone (arr : Map Arrive) (e : Nat) : Map Arrive :=
  arr.put e { arr.get e {} with drop := false, dropped := true }

/-- What a warp holds of an entry's arrival mask goes with its phase (R264). -/
def clearMask (arr : Map Arrive) (e : Nat) : Map Arrive :=
  arr.mapv (fun k a => if k = e then { a with mask := 0, drop := false } else a)

/-- A phase completes: R22, with arrivals beyond EXPECT carried into the next phase (R266). -/
def State.phaseFlip (s : State) (g e : Nat) : State :=
  s.updCl g (fun c =>
    let en := c.groups.get e {}
    let gone := lanesMask64 (c.warps.filter (fun x => x.2.dropsAt e en.round))
    let spineGone := c.spines.any (fun x => x.2.blk = en.blk && x.2.live && (x.2.arr.get e {}).drop
      && (x.2.arr.get e {}).round = en.round)
    { c with
      groups := c.groups.put e { en with
        phase := !en.phase, round := en.round + 1, expect_ := en.expect_ - en.drops, drops := 0, arrived := en.arrived - en.expect_
        warps := en.warps &&& ~~~gone, spine := en.spine && !spineGone }
      warps := c.warps.mapv (fun k w =>
        let w := if gone.getLsbD k then { w with arr := dropDone w.arr e } else w
        { w with arr := clearMask w.arr e }.wakeGroup e)
      spines := c.spines.mapv (fun _ x =>
        let x := if x.blk = en.blk && spineGone then { x with arr := dropDone x.arr e } else x
        x.wakeGroup e) })
where
  /-- The slots of some warps as a mask. -/
  lanesMask64 (ws : Map Warp) : BitVec 64 := ws.foldl (fun m x => m ||| (1#64 <<< x.1)) 0

/-- The acquire of the clusters whose parties a completed phase releases: package scope when the group expects remote
arrivals (R265). -/
def State.phaseAcquire (s : State) (g e : Nat) : State :=
  if (s.group g e).pcode = 3 then s else s.acquire g 4

/-- Complete the present phase when ARRIVED has reached EXPECT (R22). -/
def State.phaseCheck (s : State) (g e : Nat) : State :=
  let en := s.group g e
  if en.expect_ ≠ 0 && en.expect_ ≤ en.arrived then (s.phaseFlip g e).phaseAcquire g e else s

/-- One arrival at an entry, with a drop or without (R22). -/
def State.countArrival (s : State) (g e : Nat) (drop : Bool) : State :=
  (s.updGroup g e (fun x => { x with arrived := x.arrived + 1, drops := x.drops + (if drop then 1 else 0) })).phaseCheck g e

/-- A warp's arrival is counted when its mask holds every live lane (R264). -/
def State.arriveCheck (s : State) (g k e : Nat) : State :=
  let w := s.warp g k
  let a := w.arr.get e {}
  if a.mask ≠ 0 && w.liveMask &&& ~~~a.mask = 0 then
    let r := (s.group g e).round
    let s := s.updWarp g k (fun w => { w with arr := w.arr.put e { a with mask := 0, counted := true, round := r } })
    s.countArrival g e a.drop
  else s

/-- Lanes of a warp arrive at an entry (R264). -/
def State.arriveLanes (s : State) (g k e : Nat) (ls : List Nat) (drop : Bool) : State :=
  let s := s.updWarp g k (fun w =>
    let a := w.arr.get e {}
    { w with arr := w.arr.put e { a with mask := a.mask ||| lanesMask ls, drop := a.drop || drop } })
  s.arriveCheck g k e

/-- Has a party's warp been counted in the present phase, and the phase not completed (R264)? -/
def State.arrivedNow (s : State) (g e : Nat) (a : Arrive) : Bool := a.counted && a.round = (s.group g e).round

/-- Does an entry name a sequencer (R21)? -/
def GroupEntry.names (en : GroupEntry) (copy : Bool) : Bool := en.valid && (if copy then en.cseq else en.mseq)

/-- A sequencer arrives once at every group of its block that names it (R217). -/
def State.seqArrive (s : State) (g : Nat) (copy : Bool) : State :=
  let b := s.block g (s.seqr g copy).blk
  b.groupMap.foldl (fun s e => if (s.group g e).names copy then s.countArrival g e false else s) s

/-- The groups at which a sequencer arrives, by table index and present phase. -/
def State.seqGroups (s : State) (g : Nat) (copy : Bool) : List (Nat × Nat) :=
  (s.block g (s.seqr g copy).blk).groupMap.zipIdx.filterMap (fun e =>
    if (s.group g e.1).names copy then some (e.2, (s.group g e.1).round) else none)

/-- A sequencer whose RDV is abandoned takes back its arrivals at it, as if it had never issued; a phase that they have completed
stays complete (R301, log 76). -/
def State.seqUnarrive (s : State) (g : Nat) (copy : Bool) : State :=
  let q := s.seqr g copy
  let at_ := fun k => (s.block g q.blk).groupMap.getD k 0
  let back := fun (s : State) (x : Nat × Nat) =>
    s.updGroup g (at_ x.1) (fun en => if en.round = x.2 then { en with arrived := en.arrived - 1 } else en)
  (q.came.foldl back s).updSeqr g copy (fun q => { q with came := [] })

/-! ### Rendezvous and idle sequencers (R213, R216, R217) -/

/-- Does a sequencer satisfy a rendezvous of a block? -/
def Seqr.meets (q : Seqr) (b : Nat) : Bool := q.st = .idle || (q.st = .rdv && q.blk = b)

/-- Do the sequencers of a mask satisfy a rendezvous of a block? -/
def State.rdvMet (s : State) (g b mask : Nat) : Bool :=
  (mask % 2 = 0 || (s.cl g).mseq.meets b) && (mask / 2 % 2 = 0 || (s.cl g).cseq.meets b)

/-- The mask a lane or context waits on at an RDV. -/
def Hold.rdvMask (h : Hold) : Nat :=
  match h with
  | .wait w => match w.obj with | .rdv m => m | _ => 0
  | _ => 0

/-- A sequencer in state RDV that a completed rendezvous names returns to RUN at the next instruction. -/
def Seqr.resume (q : Seqr) (b : Nat) (named : Bool) : Seqr :=
  if named && q.st = .rdv && q.blk = b then { q with st := .run, pc := q.pc + 8, hold := .free, came := [] } else q

/-- Every waiting rendezvous of a block whose sequencers all satisfy it completes, and the sequencers named run on
(R216). -/
def State.rdvCheck (s : State) (g b : Nat) : State :=
  let c := s.cl g
  let ok := fun (h : Hold) => h.rdvMask ≠ 0 && s.rdvMet g b h.rdvMask
  let mine := fun (w : Warp) => w.blk = some b
  let masks := (c.warps.filter (fun e => mine e.2)).flatMap (fun e =>
      lanes32.map (fun l => (e.2.lane l).hold)) ++ (c.spines.filter (fun e => e.2.blk = b)).map (fun e => e.2.hold)
  let named := (masks.filter ok).foldl (fun m h => m ||| h.rdvMask) 0
  if named = 0 then s
  else s.updCl g (fun c => { c with
    warps := c.warps.mapv (fun _ w => if mine w then
      lanes32.foldl (fun w l => match (w.lane l).hold with
        | .wait x => if ok (.wait x) then w.endWait l x.len x.sw else w
        | _ => w) w else w)
    spines := c.spines.mapv (fun _ x => match x.hold with
      | .wait y => if x.blk = b && ok (.wait y) then { x with pc := x.pc + BitVec.ofNat 64 y.len, hold := .free } else x
      | _ => x)
    mseq := c.mseq.resume b (named % 2 = 1)
    cseq := c.cseq.resume b (named / 2 % 2 = 1) })

/-- A sequencer of a cluster has become IDLE, which satisfies every block's rendezvous; a restore that waits goes ahead of
any FORK that waits for it (R216, R309). -/
def State.seqFreed (s : State) (g : Nat) : State :=
  let s := (s.cl g).blocks.keys.foldl (fun (s : State) b => s.rdvCheck g b) s
  if s.eng.restSince.isSome then { s with agenda := .pm :: s.agenda } else s

/-- A DONE sequencer whose last command has completed reaches IDLE and arrives at its groups (R213, R217). -/
def State.seqIdle (s : State) (g : Nat) (copy : Bool) : State :=
  let q := s.seqr g copy
  if q.st = .done && q.flight = 0 then
    ((s.seqArrive g copy).updSeqr g copy (fun q => { q with st := .idle })).seqFreed g
  else s

/-- An engine command of a sequencer leaves the engine's queue: one fewer is in flight (R214). -/
def State.seqCounted (s : State) (g : Nat) (seq : Option Nat) : State :=
  match seq with
  | none => s
  | some k => s.updSeqr g (k = 0) (fun q => { q with flight := q.flight - 1 })

/-- A command of a sequencer has completed: in DONE, the last one takes it to IDLE (R213, R214). -/
def State.seqCommandDone (s : State) (g : Nat) (seq : Option Nat) : State :=
  match seq with
  | none => s
  | some k => s.seqIdle g (k = 0)

/-! ### Progress classes (R26) -/

/-- The row of R26: may a waiter block on an object of a producer class code? A counter gives its floor. -/
def State.waitLegal (s : State) (c : Issuer) (l code : Nat) (floor : Option Nat) : Bool :=
  if (s.waveOf c).isSome then code = 0
  else if code = 0 || code = 3 then true
  else if s.classOf c ≠ 2 then false
  else if code = 1 then true
  else match floor with
    | some f => decide (f < s.laneId c l)
    | none => false

/-! ### Leaving a wait (R293, R301) -/

/-- Is a waiter on a counter this place of an issuer? -/
def CtrWait.isFor (x : CtrWait) (c : Issuer) (l : Nat) : Bool :=
  x.who.unit = c.unit && x.who.g = c.g && x.who.slot = c.slot && x.lane = l

/-- Is a waiting FORK of this place? -/
def ForkWait.isFor (x : ForkWait) (c : Issuer) (l : Nat) : Bool :=
  x.who.unit = c.unit && x.who.slot = c.slot && (c.unit ≠ .lane || x.who.group.getLsbD l)

/-- A request without one of its places; none when that was its last. -/
def Requester.without (r : Requester) (c : Issuer) (l : Nat) : Option Requester :=
  match r with
  | .party i m rest =>
    if i.unit = c.unit && i.g = c.g && i.slot = c.slot then
      if c.unit ≠ .lane then none
      else
        let bit := 1#32 <<< l
        if (i.group ||| rest) &&& ~~~bit = 0 then none
        else some (.party { i with group := i.group &&& ~~~bit } (m &&& ~~~bit) (rest &&& ~~~bit))
    else some r
  | _ => some r

/-- Change the requests of every walk and fault record. -/
def State.updReqs (s : State) (f : Requester → Option Requester) : State :=
  let who := fun (l : List (Requester × W64 × Access)) => l.filterMap (fun r => (f r.1).map (fun x => (x, r.2)))
  { s with xl := { s.xl with walks := s.xl.walks.map (fun w => { w with who := who w.who })
                             recs := s.xl.recs.map (fun r => { r with who := who r.who }) } }

/-- A place leaves the walks and records it is parked for. -/
def State.leaveWalks (s : State) (c : Issuer) (l : Nat) : State := s.updReqs (fun r => r.without c l)

/-- A place leaves whatever it waits for, and is held no longer. -/
def State.giveUp (s : State) (c : Issuer) (l : Nat) : State :=
  let s := match s.holdOf c l with
    | .walk | .fault => s.leaveWalks c l
    | .rejoin n _ => s.updWarp c.g c.slot (fun w => { w with jh := w.jh.put n (w.jh.get n 0 &&& ~~~(1#32 <<< l)) })
    | .wait w =>
      match w.obj with
      | .counter pa =>
        let s := { s with xl := { s.xl with waiters := s.xl.waiters.filter (fun x => !x.isFor c l) } }
        s.watchDrop pa (dieOf c.g)
      | .fork _ => s.updCl c.g (fun k => { k with forkQ := k.forkQ.filterMap (fun (x : ForkWait) =>
          if x.isFor c l then
            let grp := x.who.group &&& ~~~(1#32 <<< l)
            if c.unit = Unit.lane && grp ≠ 0 then some ({ x with who := { x.who with group := grp } } : ForkWait) else none
          else some x) })
      | _ => s
    | _ => s
  s.setHold c l .free

/-- Is a place in the wait half of a BAR.SYNC? -/
def State.inSyncWait (s : State) (c : Issuer) (l : Nat) : Bool :=
  match s.holdOf c l with
  | .wait w => w.sync
  | _ => false

/-! ### Pending results (R97, R98, R137, R200) -/

/-- A lane's part of a pending result commits: its writes, flags and acquire; a load that read poison leaves its
destinations unchanged and gives its PC and the first poisoned address. -/
def State.commit1 (s : State) (c : Issuer) (l : Nat) (p : Pend) : State × Option (W64 × W64) :=
  let last : Bool := p.lanes &&& ~~~(1#32 <<< l) = 0
  if p.uni && !last then (s, none)
  else
    let mine := fun k => p.uni || k = l
    let bad := (p.poison.filter (fun e => mine e.1)).head?
    let s := match bad with
      | some _ => s
      | none => s.writeAll c (p.writes.filter (fun x => mine x.lane))
    let s := s.orFlags c ((p.flags.filter (fun e => mine e.1)).foldl (fun f e => f ||| e.2) 0)
    let s := match p.acq with | some sc => s.acquire c.g sc | none => s
    (s, bad.map (fun e => (p.pc, e.2)))

/-- Every pending result of a lane commits (R98); the first poison found. -/
def State.commitLane (s : State) (c : Issuer) (l : Nat) : State × Option (W64 × W64) :=
  let ps := (s.warp c.g c.slot).pend.filter (fun p => p.lanes.getLsbD l)
  let (s, bad) := ps.foldl (fun (s, bad) p =>
    let (s, b) := s.commit1 c l p
    (s, match bad with | some x => some x | none => b)) (s, none)
  (s.updWarp c.g c.slot (fun w => { w with pend :=
      (w.pend.map (fun (p : Pend) => { p with lanes := p.lanes &&& ~~~(1#32 <<< l) })).filter (fun p => p.lanes ≠ 0) }), bad)

/-- Has every pending result of a lane arrived? -/
def Warp.laneArrived (w : Warp) (l : Nat) : Bool := w.pend.all (fun p => !p.lanes.getLsbD l || p.ready)

/-- Can every pending result of a lane commit at its own switch point? A uniform one waits for the last lane (R97). -/
def Warp.laneReady (w : Warp) (l : Nat) : Bool := w.pend.all (fun p => !p.lanes.getLsbD l || (p.ready && !p.uni))

/-- Has the last lane of a uniform result reached a switch point, with the result there (R97)? -/
def Warp.uniRipe (w : Warp) (p : Pend) : Bool :=
  p.uni && p.ready && (maskLanes p.lanes).all (fun l => (w.lane l).hold = .park)

/-- A uniform result once committed: nothing is left of it but the poison that its lanes have read. -/
def Pend.uniDone (p : Pend) : Pend :=
  match p.poison.head? with
  | some e =>
    let bad := (maskLanes p.lanes).map (fun l => (l, e.2))
    { p with uni := false, writes := [], flags := [], acq := none, poison := bad }
  | none => { p with lanes := 0 }

/-- The effect of a uniform result that commits. -/
def State.uniEffect (s : State) (c : Issuer) (p : Pend) : State :=
  let s := if p.poison = [] then s.writeAll c p.writes else s
  let s := s.orFlags c (p.flags.foldl (fun f e => f ||| e.2) 0)
  match p.acq with | some sc => s.acquire c.g sc | none => s

/-- Uniform results whose last lane has reached a switch point commit (R97). -/
def State.commitUni (s : State) (c : Issuer) : State :=
  let w := s.warp c.g c.slot
  match w.pend.filter w.uniRipe with
  | [] => s
  | ripe =>
    let s := ripe.foldl (fun s p => s.uniEffect c p) s
    let rest := fun (ps : List Pend) => (ps.map (fun p => if w.uniRipe p then p.uniDone else p)).filter (fun p => p.lanes ≠ 0)
    s.updWarp c.g c.slot (fun x => { x with pend := rest x.pend })

/-- The pending results of a lane. -/
def Warp.pendCount (w : Warp) (l : Nat) : Nat := (w.pend.filter (fun p => p.lanes.getLsbD l)).length

/-- Does a lane hold a pending result for a register? -/
def Warp.pending (w : Warp) (l : Nat) (f : RFile) (k : Nat) : Bool :=
  w.pend.any (fun p => p.lanes.getLsbD l && p.writes.any (fun x => x.file = f && x.idx = k && (p.uni || x.lane = l)))

/-- Leave a result pending (R97). -/
def State.addPend (s : State) (c : Issuer) (p : Pend) : State :=
  s.updWarp c.g c.slot (fun w => { w with pend := w.pend ++ [p] })

/-! ### Statuses and exits (R109, R297, R311) -/

/-- The least identifier with the greatest status so far. -/
def Block.contribute (b : Block) (st id : Nat) : Block :=
  let first := !b.anySt
  let up := first || decide (b.maxSt < st)
  { b with anySt := true
           maxSt := if up then st else b.maxSt
           maxId := if up then id else if st = b.maxSt then min id b.maxId else b.maxId
           nonzero := b.nonzero + (if st = 0 then 0 else 1) }

/-- Lanes of a warp stop being live: they leave every rejoin mask, group mask and frame, and the warp goes with the last; its
block holds the slot on (R70, R103, R109, R264, R299). -/
def State.laneGone (s : State) (c : Issuer) (ls : List Nat) : State :=
  let m := lanesMask ls
  let s := ls.foldl (fun (s : State) l => s.giveUp c l) s
  let s := s.updWarp c.g c.slot (fun w =>
    let w := ls.foldl (fun w l => w.updLane l (fun x =>
      { x with live := false, hold := .free, trap := false, waitOnly := false, boost := false, task := none })) w
    let w := { w with jm := w.jm.mapv (fun _ x => x &&& ~~~m)
                      pend := (w.pend.map (fun (p : Pend) => { p with lanes := p.lanes &&& ~~~m })).filter (fun p => p.lanes ≠ 0) }
    let w := (List.range 4).foldl (fun w n => w.release n) w
    let left := w.frame.left &&& ~~~m
    if w.frame.busy && left = 0 then
      let w := { w with frame := { w.frame with busy := false, left := 0 } }
      lanes32.foldl (fun w l => w.updLane l (fun x => if x.hold = .frame then { x with hold := .free } else x)) w
    else { w with frame := { w.frame with left := left } })
  let s := (s.warp c.g c.slot).arr.keys.foldl (fun s e => s.arriveCheck c.g c.slot e) s
  if (s.warp c.g c.slot).liveMask = 0 then
    let s := s.updCl c.g (fun k => { k with warps := k.warps.del c.slot })
    s.updMem (fun x => { x with resv := x.resv.filter (fun r => !(r.g = c.g && !r.spine && r.slot = c.slot)) })
  else s

/-- Lanes of a block exit with statuses (R109, R311). -/
def State.blockExit (s : State) (c : Issuer) (ls : List (Nat × Nat)) : State :=
  let s := ls.foldl (fun s e =>
    let id := s.laneId c e.1
    s.updBlockOf c (fun b => { b.contribute e.2 id with parties := b.parties + 1 })) s
  s.laneGone c (ls.map (·.1))

/-- A spine context exits with a status. -/
def State.spineExit (s : State) (c : Issuer) (st : Nat) : State :=
  let s := s.giveUp c 0
  let s := s.updBlockOf c (fun b => { b.contribute st (2 ^ 56) with parties := b.parties + 1, spineSt := true })
  let s := s.updMem (fun x => { x with resv := x.resv.filter (fun r => !(r.g = c.g && r.spine && r.slot = c.slot)) })
  s.updSpine c.g c.slot (fun x => { x with live := false, trap := false, frame := { x.frame with busy := false } })

/-- A status entry of a task (R322). -/
def taskStatus (t : Task) (st : Nat) : CqEntry :=
  { kind := 4, payload := leBytes 8 t.id ++ leBytes 2 t.queue ++ leBytes 2 st ++ List.replicate 36 0 }

/-- Task lanes exit: DONE advances and a nonzero status leaves an entry (R45, R322). -/
def State.taskExit (s : State) (c : Issuer) (ls : List (Nat × Nat)) : State :=
  let s := ls.foldl (fun s e =>
    match (s.lane c.g c.slot e.1).task with
    | some t =>
      let s := if e.2 = 0 then s else s.taskErr (taskStatus t e.2)
      s.taskDone c.g t false
    | none => s) s
  s.laneGone c (ls.map (·.1))

/-! ### Aborts and causes (R293 to R297) -/

/-- Status of an abort: 0xFE00, with the code in the party that raised the cause (R297). -/
def abortStatus (raised : Bool) (code : Nat) : Nat := 0xFE00 + (if raised then code else 0)

/-- The sequencers that serve a block leave what they wait for (R297, R307). -/
def State.seqsGiveUp (s : State) (g b : Nat) : State :=
  let s := if (s.cl g).mseq.blk = b then s.giveUp { unit := .mseq, g := g } 0 else s
  if (s.cl g).cseq.blk = b then s.giveUp { unit := .cseq, g := g } 0 else s

/-- A discarded copy command advances its counter with poison (R297). -/
def State.discardCopy (s : State) (q : CopyCmd) : State :=
  match q.ctr with
  | some pa => s.ctrAdvance pa (leNat ((q.desc.drop 40).take 8)) true
  | none => s

/-- A sequencer stops with its block: it waits in DONE for commands of the matrix engine that run on (R297, R307). -/
def Seqr.halt (q : Seqr) (b : Nat) (matrix : Nat) : Seqr :=
  if q.blk = b && q.st ≠ .idle then
    { q with st := if matrix = 0 then .idle else .done, flight := matrix, hold := .free }
  else q

/-- Did a place raise the cause that aborts its block? -/
def raisedBy (who : Option Issuer) (u : Unit) (k l : Nat) : Bool :=
  match who with
  | some c => c.unit = u && c.slot = k && (u = .spine || c.group.getLsbD l)
  | none => false

/-- A block aborts (R297). `who` names the party and lanes that raised the cause. -/
def State.abortBlock (s : State) (g b code : Nat) (who : Option Issuer) : State :=
  if (s.block g b).aborted then s
  else
    let s := s.updBlock g b (fun x => { x with aborted := true, causes := [] })
    let mine := (s.cl g).copyQ.filter (fun q => q.blk = b)
    let s := if mine.any (·.parked) then s.updReqs (fun r => if r = .copy g then none else some r) else s
    let s := s.seqsGiveUp g b
    let left := fun k => ((s.cl g).matQ.filter (fun q => q.blk = b && q.seq = some k)).length
    let s := s.updCl g (fun c => { c with
      copyQ := c.copyQ.filter (fun q => q.blk ≠ b)
      copyHeld := c.copyHeld.filter (fun q => q.cmd.blk ≠ b)
      mseq := c.mseq.halt b (left 1)
      cseq := c.cseq.halt b (left 0) })
    let s := s.seqFreed g
    let s := mine.foldl State.discardCopy s
    let warps := (s.blockWarps g b).filter (fun k => (s.warp g k).liveMask ≠ 0)
    let spine := s.blockSpine g b
    let s := warps.foldl (fun s k =>
      let c : Issuer := { unit := .lane, g := g, slot := k }
      s.blockExit c ((maskLanes (s.warp g k).liveMask).map (fun l => (l, abortStatus (raisedBy who .lane k l) code)))) s
    match spine with
    | some k => s.spineExit { unit := .spine, g := g, slot := k } (abortStatus (raisedBy who .spine k 0) code)
    | none =>
      match warps with
      | [] => s.updBlock g b (fun x => x.contribute (0xFE00 + code) (2 ^ 56 + 1))
      | _ => s

/-- A cause that waits for the handler party of a block, or aborts a block that cannot take it (R293, R297). -/
def State.postCause (s : State) (g b : Nat) (x : Cause) : State :=
  if (s.block g b).aborted then s
  else if (s.block g b).img.trapEnt = 0 || (s.handler g b).isNone then s.abortBlock g b x.code none
  else s.updBlock g b (fun y => { y with causes := y.causes ++ [x] })

/-- Places about to enter trap mode reach a switch point: their results commit. A lane that has read poison stays parked
there, its POISON waiting for the frame; the places that can enter (R295). -/
def State.entrySwitch (s : State) (c : Issuer) (ls : List Nat) : State × List Nat :=
  match c.unit, s.blkOf c with
  | .lane, some b =>
    let (s, bad) := ls.foldl (fun ((s : State), bad) l =>
      let (s, x) := s.commitLane c l
      (s, match x with | some y => bad ++ [(l, y)] | none => bad)) (s, ([] : List (Nat × W64 × W64)))
    match bad with
    | [] => (s, ls)
    | e :: _ =>
      let m := lanesMask (bad.map (·.1))
      let s := (bad.map (·.1)).foldl (fun (s : State) l => (s.giveUp c l).setHold c l .park) s
      let x : Cause := { code := 14, addr := e.2.2, pc := e.2.1, slot := some c.slot, lanes := m, cmask := m }
      (s.updBlock c.g b (fun y => { y with causes := y.causes ++ [x] }), ls.filter (fun l => !m.getLsbD l))
  | _, _ => (s, ls)

/-- Is a place at a BAR.SYNC of which only the wait half is left (R296)? -/
def State.onlyWaits (s : State) (c : Issuer) (l : Nat) : Bool :=
  match c.unit with
  | .lane => (s.lane c.g c.slot l).waitOnly
  | .spine => (s.spine c.g c.slot).waitOnly
  | _ => false

/-- Mark places whose arrival at a BAR.SYNC is counted: only its wait half is left (R296, R301). -/
def State.markWaits (s : State) (c : Issuer) (ls : List Nat) : State :=
  match c.unit, ls with
  | _, [] => s
  | .lane, _ => s.updLanes c.g c.slot ls (fun _ x => { x with waitOnly := true })
  | _, _ => s.updSpine c.g c.slot (fun x => { x with waitOnly := true })

/-- Places stand in trap mode at the handler with a filled frame (R295, R296). -/
def State.toHandler (s : State) (c : Issuer) (ls : List Nat) (f : Frame) : State :=
  let b := s.blockOf c
  let pc := b.img.base + BitVec.ofNat 64 b.img.trapEnt
  let m := match c.unit with | .lane => lanesMask ls | _ => 0
  let only := ls.filter (s.onlyWaits c)
  let s := s.updFrame c (fun _ => { f with busy := true, issue := m, left := m, waitOnly := !only.isEmpty, waits := lanesMask only })
  ls.foldl (fun (s : State) l =>
    let s := (s.giveUp c l).setPc c l pc
    match c.unit with
    | .lane => s.updLane c.g c.slot l (fun x => { x with trap := true })
    | _ => s.updSpine c.g c.slot (fun x => { x with trap := true })) s

/-- Places enter trap mode with a filled frame, but for lanes whose switch point finds poison; with no place left to enter
nothing has been taken (R295). -/
def State.enterTrap (s : State) (c : Issuer) (ls : List Nat) (f : Frame) : State :=
  match s.entrySwitch c ls with
  | (s, []) => s
  | (s, l :: r) => s.toHandler c (l :: r) f

/-- A lane cause that no handler can take aborts its block, once the group that its warp issues in the same cycle has
completed its instruction (R96, R297). -/
def State.abortBy (s : State) (c : Issuer) (b code : Nat) (ls : List Nat) : State :=
  let who := { c with group := lanesMask ls }
  if s.doom.any (fun d => d.who.g = c.g && d.blk = b) then s
  else if s.ports.any (fun d => d.unit = .lane && d.g = c.g && d.slot = c.slot) then
    { s with doom := some { who := who, blk := b, code := code } }
  else s.abortBlock c.g b code (some who)

/-- A cause that an instruction raises (R292). -/
structure Fail where
  code : Nat
  /-- The lanes that raise it. -/
  lanes : List Nat
  addr : W64 := 0
  info : W64 := 0
deriving DecidableEq, Repr, Inhabited

/-- Task lanes fail: each leaves its wave (R320). -/
def State.taskLanesFail (s : State) (c : Issuer) (f : Fail) (pc : W64) : State :=
  let s := f.lanes.foldl (fun (s : State) l =>
    let x := s.lane c.g c.slot l
    match x.task with
    | some t => s.taskCause c.g t x.effects f.code pc f.addr f.info
    | none => s) s
  s.laneGone c f.lanes

/-- The unit number of a frame (R296). -/
def Issuer.unitCode (c : Issuer) : Nat :=
  match c.unit with
  | .lane => 0
  | .spine => 1
  | .mseq => 2
  | _ => 3

/-- Places `grp` of an issuer take a cause that lanes of it raise: a task fails; a block enters its handler, waits while
the frame is busy, or aborts; a sequencer stops in FAULT (R293, R295, R297). -/
def State.takeCause (s : State) (c : Issuer) (grp : List Nat) (f : Fail) (pc npc : W64) (precise : Bool) : State :=
  match c.unit with
  | .lane =>
    if (s.waveOf c).isSome then s.taskLanesFail c f pc
    else
      match s.blkOf c with
      | none => s
      | some b =>
        if (s.blockOf c).img.trapEnt = 0 || f.lanes.any (s.inTrap c) then
          s.abortBy c b f.code f.lanes
        else if (s.frameOf c).busy then
          if f.code = 14 && !precise then
            (s.setHolds c grp .park).updBlock c.g b (fun y => { y with causes := y.causes ++
              [{ code := 14, addr := f.addr, pc := pc, slot := some c.slot, lanes := lanesMask grp
                 cmask := lanesMask f.lanes }] })
          else s.setHolds c grp .frame
        else s.enterTrap c grp { pc := pc, npc := npc, addr := f.addr, info := f.info, cmask := lanesMask f.lanes
                                 cause := f.code, unit := 0, precise := precise, rpc := npc }
  | .spine =>
    let b := (s.spine c.g c.slot).blk
    if (s.blockOf c).img.trapEnt = 0 || s.inTrap c 0 then s.abortBlock c.g b f.code (some c)
    else s.enterTrap c [0] { pc := pc, npc := npc, addr := f.addr, info := f.info, cause := f.code, unit := 1
                             precise := precise, rpc := npc }
  | .mseq | .cseq =>
    let s := s.updSeqr c.g c.isCopy (fun q => { q with st := .fault, hold := .free })
    s.postCause c.g (s.seqr c.g c.isCopy).blk { code := f.code, addr := f.addr, info := f.info, unit := c.unitCode, pc := pc }
  | _ => s

/-- A precise cause of an instruction, taken by its whole issuing group (R293). -/
def State.raise (s : State) (c : Issuer) (f : Fail) : State := s.takeCause c c.places f c.pc c.pc true

/-! ### Switch points (R98) -/

/-- Lanes with results pending park. -/
def State.switchPark (s : State) (c : Issuer) (ls : List Nat) : State :=
  s.updLanes c.g c.slot (ls.filter (fun l => (s.warp c.g c.slot).pendCount l ≠ 0)) (fun _ x => { x with hold := .park })

/-- Does a lane wait for a frame with a poison of its own (R295)? -/
def State.poisonQueued (s : State) (c : Issuer) (l : Nat) : Bool :=
  (s.blockOf c).causes.any (fun x => x.slot = some c.slot && x.lanes.getLsbD l && x.code = 14)

/-- The lanes of a warp that are parked at a switch point and whose results have all arrived. -/
def State.unparkable (s : State) (c : Issuer) : List Nat :=
  (maskLanes (s.warp c.g c.slot).liveMask).filter (fun l =>
    (s.lane c.g c.slot l).hold = .park && (s.warp c.g c.slot).laneReady l && !s.poisonQueued c l)

/-- The different PCs of some lanes. -/
def State.pcsOf (s : State) (c : Issuer) (ls : List Nat) : List W64 := (ls.map (s.pcOf c)).eraseDups

/-- Parked lanes whose results have all arrived commit and continue; a load that read poison raises POISON in the lanes
at that switch point (R98, R200, R293). -/
def State.unpark (s : State) (c : Issuer) : State :=
  let s := s.commitUni c
  let ls := s.unparkable c
  let (s, bad) := ls.foldl (fun ((s : State), bad) l =>
    let (s, b) := s.commitLane c l
    (s.setHold c l .free, match b with | some x => bad ++ [(l, x)] | none => bad)) (s, ([] : List (Nat × W64 × W64)))
  (s.pcsOf c (bad.map (·.1))).foldl (fun s pc =>
    let at_ := ls.filter (fun l => s.pcOf c l = pc)
    match bad.filter (fun e => at_.contains e.1) with
    | [] => s
    | e :: r => s.takeCause c at_ { code := 14, lanes := (e :: r).map (·.1), addr := e.2.2 } e.2.1 pc false) s

/-- Lanes reach a switch point (R98). -/
def State.switchPoint (s : State) (c : Issuer) (ls : List Nat) : State :=
  match ls with
  | [] => s
  | _ => (s.switchPark c ls).unpark c

/-! ### Waiting -/

/-- Block some places on an object (R301). A place that waits already for the object keeps its start. -/
def State.blockOn (s : State) (c : Issuer) (ls : List Nat) (kind : Nat) (obj : WaitObj) (len : Nat) (sw sync : Bool) : State :=
  ls.foldl (fun (s : State) l =>
    let start := match s.holdOf c l with
      | .wait w => if w.obj = obj then w.start else s.cycles (dieOf c.g)
      | _ => s.cycles (dieOf c.g)
    s.setHold c l (.wait { kind := kind, obj := obj, start := start, len := len, sw := sw, sync := sync })) s

/-! ### Pegs (R268) -/

/-- A peg of a cluster. -/
def State.peg (s : State) (g p : Nat) : Peg := (s.cl g).pegs.get p {}
/-- Change a peg. -/
def State.updPeg (s : State) (g p : Nat) (f : Peg → Peg) : State :=
  s.updCl g (fun c => { c with pegs := c.pegs.put p (f (c.pegs.get p {})) })

/-- The physical peg of a block-relative index (R13). -/
def State.pegPhys (s : State) (c : Issuer) (i : Nat) : Nat := (s.blockOf c).pegMap.getD i 0

/-- A peg empties. -/
def Peg.clear (p : Peg) : Peg := { p with full := false, cnt := 0 }

/-- The party's counted read of a full peg (R268). -/
def Peg.read (p : Peg) (c : Issuer) : Peg :=
  let seen := match c.unit with | .lane => p.seen.getLsbD c.slot | _ => p.seenSpine.getLsbD c.slot
  if seen then p
  else
    let p := match c.unit with
      | .lane => { p with seen := setBit p.seen c.slot true }
      | _ => { p with seenSpine := setBit p.seenSpine c.slot true }
    if p.cnt = 0 then p
    else if p.cnt = 1 then p.clear
    else { p with cnt := p.cnt - 1 }

/-- The pegs an instruction reads. -/
def pegSources (us : List RegUse) : List Nat := ((us.filter (fun u => u.file = .pg && u.rd)).map (·.idx)).eraseDups

/-- The values of an instruction's pegs: counted reads in lane code, plain reads in spine code; or the first empty peg
that a warp waits on (R268). -/
def State.pegReads (s : State) (c : Issuer) (us : List RegUse) : Except Nat (State × PegVals) :=
  let ps := pegSources us
  match c.unit with
  | .lane =>
    match ps.find? (fun i => !(s.peg c.g (s.pegPhys c i)).full) with
    | some i => .error (s.pegPhys c i)
    | none => .ok (ps.foldl (fun (s, pv) i =>
        let p := s.pegPhys c i
        (s.updPeg c.g p (fun x => x.read c), Map.put pv i (s.peg c.g p).val)) (s, []))
  | _ => .ok (s, ps.foldl (fun pv i => Map.put pv i (s.peg c.g (s.pegPhys c i)).val) [])

/-! ### Issue of one instruction -/

/-- What an instruction's body does with its group. -/
inductive Eff where
  /-- `keep` are the lanes whose PC and hold the body has set. -/
  | go (s : State) (keep : List Nat)
  /-- These lanes have not performed the instruction, and issue it again. -/
  | again (s : State) (ls : List Nat)
  | fail (f : Fail)
deriving Repr

/-- Variable latency in lane code (R97); QPOP.RET, which has no result, is left out (R98, log 79). -/
def varLat (i : Instr) (us : List RegUse) : Bool :=
  match i with
  | .ld _ | .ldw _ | .ldmx _ | .lr _ | .sc _ | .atom _ | .atoms _ | .lds _ | .frcp _ | .frsq _ | .fex2 _ | .flg2 _
  | .fsin _ | .fcos _ | .act _ | .idiv _ | .fdiv _ | .fsqrt _ | .qpop _ | .qpopTry _ | .accrd _ | .sample _ => true
  | _ => us.any (fun u => u.file = .pg && u.rd)

/-- Step 6 of R87: the first operand that reaches beyond the allocation, by its highest register (R362). -/
def State.budgetFail (s : State) (c : Issuer) (us : List RegUse) : Option Fail :=
  match c.unit with
  | .lane =>
    match us.find? (fun u => u.file = .v && decide (s.allocation c < u.idx + u.n)) with
    | some u => some { code := 4, lanes := c.places, info := BitVec.ofNat 64 (u.idx + u.n - 1) }
    | none => none
  | _ => none

/-- Step 7 of R87: a peg index at or above PEGS. -/
def State.pegFail (s : State) (c : Issuer) (us : List RegUse) : Option Fail :=
  match us.find? (fun u => u.file = .pg && decide (s.pegsOf c ≤ u.idx)) with
  | some u => some { code := 12, lanes := c.places, info := BitVec.ofNat 64 u.idx }
  | none => none

/-- Steps 6 and 7 of R87. -/
def State.earlyFail (s : State) (c : Issuer) (us : List RegUse) : Option Fail :=
  match s.budgetFail c us with
  | some f => some f
  | none => s.pegFail c us

/-- The D-space code of a file (R362). -/
def fileSpace (f : RFile) : Nat :=
  match f with
  | .w => 1
  | .p => 2
  | .pg => 3
  | _ => 0

/-- The pending registers that one write operand of a lane meets, lowest first (R99). -/
def Warp.meets1 (w : Warp) (l : Nat) (u : RegUse) : List Nat :=
  ((List.range u.n).map (u.idx + ·)).filter (fun k => w.pending l u.file k)

/-- Does a lane's write meet a pending result (R99)? -/
def Warp.meets (w : Warp) (l : Nat) (us : List RegUse) : Bool := us.any (fun u => w.meets1 l u ≠ [])

/-- What a HAZARD reports: of the first operand that meets a pending result in some lane, the lowest pending register
(R362). -/
def Warp.hazardInfo (w : Warp) (bad : List Nat) (ws : Nat → List RegUse) : W64 :=
  let n := bad.foldl (fun m l => max m (ws l).length) 0
  let at_ := fun j => bad.flatMap (fun l => match (ws l)[j]? with
    | some u => (w.meets1 l u).map (fun k => (k, fileSpace u.file))
    | none => [])
  match ((List.range n).map at_).find? (fun x => x ≠ []) with
  | some (x :: r) =>
    let lo := r.foldl (fun (m : Nat × Nat) y => if y.1 < m.1 then y else m) x
    BitVec.ofNat 64 (lo.1 % 256 + 256 * lo.2)
  | _ => 0

/-- R99: a write of a register that still holds a pending result. `ws` gives each lane's write operands, an operand at one
place for every lane; one that a lane does not write has no registers there. -/
def State.hazard (s : State) (c : Issuer) (ls : List Nat) (ws : Nat → List RegUse) : Option Fail :=
  match c.unit with
  | .lane =>
    let w := s.warp c.g c.slot
    match ls.filter (fun l => w.meets l (ws l)) with
    | [] => none
    | bad => some { code := 3, lanes := bad, info := w.hazardInfo bad ws }
  | _ => none

/-- The implicit switch point before a variable-latency instruction of a lane with 8 results pending (R98 case 4): the
lanes that do not pass it leave the group. -/
def State.implicitSwitch (s : State) (c : Issuer) (ls : List Nat) : State × Issuer :=
  match c.unit with
  | .lane =>
    match ls.filter (fun l => decide (8 ≤ (s.warp c.g c.slot).pendCount l)) with
    | [] => (s, c)
    | full =>
      let t := s.switchPoint c full
      let stay := c.places.filter (fun l =>
        let x := t.lane c.g c.slot l
        x.live && x.pc = c.pc && x.trap = s.inTrap c l && (x.hold = .free || !full.contains l))
      (t, { c with group := lanesMask stay })
  | _ => (s, c)

/-- Does a lane, context or sequencer still run? -/
def State.stands (s : State) (c : Issuer) (l : Nat) : Bool :=
  match c.unit with
  | .lane => (s.lane c.g c.slot l).live
  | .spine => (s.spine c.g c.slot).live
  | .mseq | .cseq => (s.seqr c.g c.isCopy).st = .run
  | _ => false

/-- The end of an issue: lanes that the body has not placed advance, and lanes that issued a switch marker reach a switch
point. -/
def State.finish (s : State) (c : Issuer) (sw : Bool) (ls : List Nat) (len : Nat) (keep : List Nat) : State :=
  let s := (c.places.filter (fun l => !keep.contains l && s.stands c l)).foldl (fun (s : State) l =>
    (s.setPc c l (c.pc + BitVec.ofNat 64 len)).setHold c l .free) s
  if sw && c.unit = .lane then
    s.switchPoint c (ls.filter (fun l => (s.lane c.g c.slot l).live && (s.lane c.g c.slot l).hold = .free))
  else s

/-- Lanes reach the switch point of an instruction that has one before its effect (REJOIN, YIELD, EXIT, ERET: R98): the
lanes that pass it now. A lane whose results have not arrived parks, and goes on with the instruction, its guard read
already, once they have. -/
def State.atSwitch (s : State) (c : Issuer) (ls : List Nat) : State × List Nat :=
  match c.unit with
  | .lane =>
    let t := s.switchPoint c ls
    let pass := ls.filter (fun l =>
      let x := t.lane c.g c.slot l
      x.live && x.pc = c.pc && x.trap = s.inTrap c l && x.hold = .free)
    let parked := ls.filter (fun l => (t.lane c.g c.slot l).hold = .park && (t.lane c.g c.slot l).pc = c.pc)
    let t := t.updLanes c.g c.slot parked (fun _ x => { x with passed := true })
    (t.updLanes c.g c.slot pass (fun _ x => { x with passed := false }), pass)
  | _ => (s, ls)

/-- Move a place to an address. -/
def State.jump (s : State) (c : Issuer) (l : Nat) (pc : W64) : State := (s.setPc c l pc).setHold c l .free

/-- Source B read as an unsigned immediate, or from its register (R105). -/
def State.unsB (s : State) (c : Issuer) (o : Ops) (l : Nat) (wide : Bool) : W64 :=
  if o.bs = 3 then (if o.form = .f96 then o.imm32.setWidth 64 else o.b.setWidth 64) else s.opB c o [] l 0 wide

/-- The first 64 bits of an operation (R292). -/
def firstBits (i : Instr) : W64 :=
  match i.ops with
  | some o => encodeFirst (opcodeOf i) false o.form.len o
  | none => 0

/-- ILLEGAL_INSN raised by some lanes at execution. -/
def illegalAt (i : Instr) (ls : List Nat) : Eff := .fail { code := 1, lanes := ls, info := firstBits i }

/-- An address with any of bits [63:51] set (R48). -/
def badAddr (a : W64) : Bool := 2 ^ 51 ≤ a.toNat

/-- ACCESS raised by some lanes at an address. -/
def accessAt (ls : List Nat) (a : W64) : Eff := .fail { code := 9, lanes := ls, addr := a, info := 0xFFFF }

/-- MISALIGNED raised by some lanes at an address. -/
def misalignedAt (ls : List Nat) (a : W64) : Eff := .fail { code := 7, lanes := ls, addr := a }

/-- The writes of an instruction, the same in every lane. -/
def plainWrites (us : List RegUse) : Nat → List RegUse := fun _ => us.filter (fun u => u.wr && u.file ≠ .pg)

/-- Issue an instruction for the current party: the checks of R87 steps 6 and 7 for the whole group, the implicit switch
point, HAZARD, the counted peg reads, then its own effect in its active places, and the advance of the group.
`hz` gives the registers each lane writes, for HAZARD. -/
def State.issueW (s : State) (i : Instr) (hz : Issuer → Nat → List RegUse)
    (body : State → Issuer → Ops → PegVals → List Nat → Eff) : State :=
  let c := s.cur
  match i.ops with
  | none => s
  | some o =>
    let us := uses c.code i
    match s.earlyFail c us with
    | some f => s.raise c f
    | none =>
      let (s, c) := if varLat i us then s.implicitSwitch c (s.active c o) else (s, c)
      match s.active c o with
      | [] => s.finish c false [] o.form.bytes []
      | ls =>
        match s.hazard c ls (hz c) with
        | some f => s.raise c f
        | none =>
          match s.pegReads c us with
          | .error p => (s.blockOn c ls 4 (.pegFull p) o.form.bytes o.sw false).finish c o.sw ls o.form.bytes ls
          | .ok (t, pv) =>
            match body t c o pv ls with
            | .go t keep => t.finish c o.sw ls o.form.bytes keep
            | .again t rest => t.finish c o.sw (ls.filter (fun l => !rest.contains l)) o.form.bytes rest
            | .fail f => s.raise c f

/-- Issue an instruction whose writes are those of its fields. -/
def State.issue (s : State) (i : Instr) (body : State → Issuer → Ops → PegVals → List Nat → Eff) : State :=
  s.issueW i (fun c => plainWrites (uses c.code i)) body

/-! ### Register results -/

/-- Register writes and flags by lane. -/
abbrev Res := List PWrite × Map Flags

/-- What an arithmetic instruction computes in its active places. -/
abbrev Alu := State → Issuer → Ops → PegVals → List Nat → Res

/-- Is an instruction uniform in an issuer's code (R78)? -/
def isUni (c : Issuer) (o : Ops) : Bool := c.unit = .lane && o.ds = 1

/-- The places in which a register result is formed: a uniform instruction runs once (R78). Its predicate sources are the
lowest active lane's, a choice of the model where R78 and R159 name no lane (log 76). -/
def resPlaces (c : Issuer) (o : Ops) (ls : List Nat) : List Nat := if isUni c o then ls.take 1 else ls

/-- The union of flags. -/
def allFlags (m : Map Flags) : Flags := m.foldl (fun f e => f ||| e.2) 0

/-- Make a result visible: at once, or pending in lane code when the instruction is variable-latency (R97). -/
def State.giveResult (s : State) (i : Instr) (c : Issuer) (o : Ops) (ls : List Nat) (r : Res) : State :=
  if c.unit = .lane && varLat i (uses c.code i) then
    s.addPend c { lanes := if isUni c o then c.group else lanesMask ls, uni := isUni c o, pc := c.pc
                  writes := r.1, flags := r.2 }
  else (s.writeAll c r.1).orFlags c (allFlags r.2)

/-- Execute an instruction that only computes registers and predicates. -/
def State.alu (s : State) (i : Instr) (f : Alu) : State :=
  s.issue i (fun s c o pv ls =>
    let ps := resPlaces c o ls
    .go (s.giveResult i c o ls (f s c o pv ps)) [])

/-- One result per place. -/
def perLane (f : State → Issuer → Ops → PegVals → Nat → List PWrite × Flags) : Alu := fun s c o pv ls =>
  let rs := ls.map (fun l => (l, f s c o pv l))
  (rs.flatMap (fun r => r.2.1), rs.map (fun r => (r.1, r.2.2)))

/-- One register result per place, of a type, with flags. -/
def perValue (ty : Ops → Nat) (f : State → Issuer → Ops → PegVals → Nat → W64 × Flags) : Alu :=
  perLane (fun s c o pv l =>
    let (x, fl) := f s c o pv l
    (resWrites (fileD c o) o.d.toNat l (ty o) (wideTy (ty o)) x, fl))

/-- Issue a pair: both halves read before either writes, each with its own guard, and either half's HAZARD is the
pair's (R85). -/
def State.issuePair (s : State) (i j : Instr) (f h : Alu) : State :=
  let c := s.cur
  match i.ops, j.ops with
  | some oi, some oj =>
    let ui := uses c.code i
    let uj := uses c.code j
    match s.earlyFail c (ui ++ uj) with
    | some x => s.raise c x
    | none =>
      let li := s.active c oi
      let lj := s.active c oj
      let half := fun us (ls : List Nat) l => (plainWrites us l).map (fun u => if ls.contains l then u else { u with n := 0 })
      let hz := fun l => half ui li l ++ half uj lj l
      match s.hazard c (c.places.filter (fun l => li.contains l || lj.contains l)) hz with
      | some x => s.raise c x
      | none =>
        let ri : Res := match li with | [] => ([], []) | _ => f s c oi [] (resPlaces c oi li)
        let rj : Res := match lj with | [] => ([], []) | _ => h s c oj [] (resPlaces c oj lj)
        let t := ((s.writeAll c ri.1).writeAll c rj.1).orFlags c (allFlags ri.2 ||| allFlags rj.2)
        t.finish c (oi.sw || oj.sw) (c.places.filter (fun l => li.contains l || lj.contains l)) 16 []
  | _, _ => s

/-! ### Walks of parties (R60, R61) -/

/-- The lanes that some missing translations of a page concern: those named, or all. -/
def missLanes (ls : List Nat) (page : Nat) (miss : List (W64 × Access × W32)) : W32 :=
  (miss.filter (fun m => m.1.toNat / 32768 = page)).foldl (fun x m => x ||| (if m.2.2 = 0 then lanesMask ls else m.2.2)) 0

/-- One request of a group for a page: it joins the walk in flight of the page, or starts one. -/
def State.joinWalk (s : State) (die asp : Nat) (req : Requester × W64 × Access) : State :=
  let same := fun (w : Walk) => w.die = die && w.aspace = asp && w.va.toNat / 32768 = req.2.1.toNat / 32768
  let ws := if s.xl.walks.any same then s.xl.walks.map (fun w => if same w then { w with who := w.who ++ [req] } else w)
    else s.xl.walks ++ [{ die := die, aspace := asp, va := req.2.1, acc := req.2.2, who := [req] }]
  { s with xl := { s.xl with walks := ws } }

/-- An issuing group that needs translations of a space waits for its walks, the lanes whose guard fails with it (R60,
R77). `ls` are its active lanes. Each missing translation names an address, an access, and the lanes that make it, none
for all of them. -/
def State.missWalkIn (s : State) (asp : Nat) (c : Issuer) (ls : List Nat) (miss : List (W64 × Access × W32)) : State :=
  let s := s.setHolds c c.places .walk
  let rest := match c.unit with | .lane => c.group &&& ~~~lanesMask ls | _ => 0
  let c := { c with group := lanesMask ls }
  (miss.foldl (fun (s, seen) m =>
    let page := m.1.toNat / 32768
    if seen.contains page then (s, seen)
    else (s.joinWalk (dieOf c.g) asp (.party c (missLanes ls page miss) rest, m.1, m.2.1), page :: seen))
    (s, ([] : List Nat))).1

/-- An issuing group that needs translations of its own space waits for its walks. -/
def State.missWalk (s : State) (c : Issuer) (ls : List Nat) (miss : List (W64 × Access × W32)) : State :=
  s.missWalkIn (s.aspaceOf c) c ls miss

end Sys2Proof.Machine
end

