-- ==== Sys2Proof/Machine/Fetch.lean ====
section
/-! DEFINITION. Fetch and the issue of one group: the address checks, the granule, and the fate of every word (R48, R72 to
R74, R87). -/

namespace Sys2Proof.Machine

/-- A line of code that stands in another package: free, but the same through a launch (R74, log 11). -/
def State.farCode (s : State) (c : Issuer) (line : Nat) : Line :=
  if (s.waveOf c).isSome then Config.remoteLine s.ticks line else Config.remoteCode (s.blockOf c).lnum line

/-- A line as a fetch finds it: its newest bytes, wherever in this package they stand, and the copy that this package holds of a
line of another. R74 admits bytes from before a store of the running launch too; the model takes the newest (log 76). A line's
poison does not keep it from being fetched (log 79). -/
def State.codeLine (s : State) (c : Issuer) (line : Nat) : Line :=
  let d := s.mem.sideOf line
  if s.isLocal (line * 128) then
    if isIo (line * 128) then s.ioLine (paOff (line * 128))
    else if (d.st = .M || d.st = .O) && !s.isOwnAgent d.owner then s.farCode c line
    else s.mem.peekLine line
  else match (s.mem.holder line).or ((s.peerHolder 256 line).map (·.2)) with
    | some x => x.data
    | none => s.farCode c line

/-- The words from an instruction's physical address to the end of its granule. -/
def State.granule (s : State) (c : Issuer) (pa : Nat) : List W32 :=
  let x := s.codeLine c (pa / 128)
  (List.range ((32 - pa % 32) / 4)).map (fun k => x.extractLsb' (8 * (pa % 128) + 32 * k) 32)

/-- What stands at an instruction address of an issuer, when its page is translated. -/
def State.fetch (s : State) (c : Issuer) : Option Decoded :=
  match s.tlbFind c.g (s.aspaceOf c) c.pc .fetch with
  | some t => some (decode c.code (s.granule c (t.addr c.pc)))
  | none => none

/-- The granules of pad words that one fetch skips at most; lanes that meet more go on with their next issue. -/
def padGranules : Nat := 1024

/-- An issuer moved past the legal pad runs at its PC, as fetch skips them: to the granule boundary after each (R73). -/
def State.skipPads (s : State) : Nat → Issuer → Issuer
  | 0, c => c
  | f + 1, c =>
    if badAddr c.pc || c.pc.toNat % 4 ≠ 0 then c
    else match s.fetch c with
      | some (.pad n) => State.skipPads s f { c with pc := c.pc + BitVec.ofNat 64 n }
      | _ => c

/-- A decode failure, raised for every lane of the group (R87). -/
def State.illegal (s : State) (c : Issuer) (code : Nat) (w : W64) : State :=
  s.raise c { code := code, lanes := c.places, info := w }

end Sys2Proof.Machine
end

