-- ==== Sys2Proof/Machine/Integer.lean ====
section
/-! DEFINITION. Integer arithmetic, comparison and moves (R143 to R151, R158 to R162). -/

namespace Sys2Proof.Machine

/-! ### Elements (R123, R143) -/

/-- Bits of an element of an integer type. -/
def elemBits (ty : Nat) : Nat :=
  if ty = 2 || ty = 3 then 64 else if ty = 8 || ty = 9 then 8 else if ty = 10 || ty = 11 then 16 else 32

/-- A signed integer type. -/
def isSigned (ty : Nat) : Bool := ty = 1 || ty = 3 || ty = 9 || ty = 11

/-- w bits as an integer. -/
def intOf (w : Nat) (sg : Bool) (x : Nat) : Int := if sg && 2 ^ (w - 1) ≤ x then (x : Int) - 2 ^ w else x

/-- An integer modulo 2^w. -/
def wrapInt (w : Nat) (i : Int) : Nat := (i % (2 ^ w : Nat)).toNat

/-- Element k of a value. -/
def elemVal (ty k : Nat) (x : W64) : Int :=
  intOf (elemBits ty) (isSigned ty) (bitsN x.toNat (k * elemBits ty) (elemBits ty))

/-- A value from its elements, each modulo 2^w. -/
def packElems (w : Nat) : List Int → Nat
  | [] => 0
  | i :: r => wrapInt w i + 2 ^ w * packElems w r

/-- Apply a function to each element of two values. -/
def elemwise2 (ty : Nat) (f : Int → Int → Int) (a b : W64) : W64 :=
  BitVec.ofNat 64 (packElems (elemBits ty) ((List.range (tyCount ty)).map (fun k => f (elemVal ty k a) (elemVal ty k b))))

/-- Apply a function to each element of a value. -/
def elemwise1 (ty : Nat) (f : Int → Int) (a : W64) : W64 := elemwise2 ty (fun x _ => f x) a 0

/-- Hold an integer to the range of a type. -/
def satInt (ty : Nat) (i : Int) : Int :=
  let w := elemBits ty
  if isSigned ty then max (-(2 ^ (w - 1))) (min i (2 ^ (w - 1) - 1)) else max 0 (min i (2 ^ w - 1))

/-- The sources A and B of the instruction's type. -/
def State.opAB (s : State) (c : Issuer) (o : Ops) (pv : PegVals) (l : Nat) : W64 × W64 :=
  (s.opA c o l (wideTy o.ty), s.opB c o pv l o.ty (wideTy o.ty))

/-- A result of the instruction's own type formed from A and B. -/
def binAlu (f : Ops → W64 → W64 → W64) : Alu :=
  perValue Ops.ty (fun s c o pv l => let (a, b) := s.opAB c o pv l; (f o a b, 0))

/-- A result of the instruction's own type formed from A. -/
def unAlu (ty : Ops → Nat) (f : Ops → W64 → W64) : Alu :=
  perValue ty (fun s c o _ l => (f o (s.opA c o l (wideTy o.ty)), 0))

/-! ### Addition, multiplication and division -/

/-- IADD of two values (R145). -/
def iaddVal (o : Ops) (a b : W64) : W64 :=
  elemwise2 o.ty (fun x y => if o.sub = 1 then satInt o.ty (x + y) else x + y) a b
def aluIadd : Alu := binAlu iaddVal
/-- IADD (R145). -/
def execIadd (o : Ops) (s : State) : Out := .next (s.alu (.iadd o) aluIadd)

/-- ISUB of two values (R145). -/
def isubVal (o : Ops) (a b : W64) : W64 :=
  elemwise2 o.ty (fun x y => if o.sub = 1 then satInt o.ty (x - y) else x - y) a b
def aluIsub : Alu := binAlu isubVal
/-- ISUB (R145). -/
def execIsub (o : Ops) (s : State) : Out := .next (s.alu (.isub o) aluIsub)

/-- IADD3 in its active places (R146). -/
def aluIadd3 : Alu := perValue Ops.ty (fun s c o pv l =>
  let (a, b) := s.opAB c o pv l
  (a + b + s.opC c o pv l o.ty (wideTy o.ty), 0))
/-- IADD3 (R146). -/
def execIadd3 (o : Ops) (s : State) : Out := .next (s.alu (.iadd3 o) aluIadd3)

/-- The type of the result and addend of IMUL and IMAD: 64 bits for LONG (R147). -/
def madTy (o : Ops) : Nat := if o.sub = 2 then 2 else o.ty

/-- IMAD of three values (R147). -/
def imadVal (o : Ops) (a b c : W64) : W64 :=
  let w := elemBits o.ty
  let p := elemVal o.ty 0 a * elemVal o.ty 0 b
  match o.sub with
  | 1 => BitVec.ofNat 64 (wrapInt w (p / (2 ^ w : Nat) + c.toNat))
  | 2 => BitVec.ofNat 64 (wrapInt 64 (p + c.toNat))
  | _ => BitVec.ofNat 64 (wrapInt w (p + c.toNat))
def aluImul : Alu := perValue madTy (fun s c o pv l => let (a, b) := s.opAB c o pv l; (imadVal o a b 0, 0))
def aluImad : Alu := perValue madTy (fun s c o pv l =>
  let (a, b) := s.opAB c o pv l
  (imadVal o a b (s.opC c o pv l (if o.sub = 2 then 3 else o.ty) (wideTy (madTy o))), 0))
/-- IMUL (R147). -/
def execImul (o : Ops) (s : State) : Out := .next (s.alu (.imul o) aluImul)
/-- IMAD (R147). -/
def execImad (o : Ops) (s : State) : Out := .next (s.alu (.imad o) aluImad)

/-- Quotient and remainder (R148). -/
def divRem (ty : Nat) (a b : W64) : Int × Int :=
  let w := elemBits ty
  let x := elemVal ty 0 a
  let y := elemVal ty 0 b
  if y = 0 then (2 ^ w - 1, x)
  else if isSigned ty && x = -(2 ^ (w - 1)) && y = -1 then (x, 0)
  else (x.tdiv y, x - x.tdiv y * y)

/-- IDIV in its active places: one result, or the quotient in D and the remainder in D + 1 (R148). -/
def aluIdiv : Alu := perLane (fun s c o pv l =>
  let (a, b) := s.opAB c o pv l
  let (q, r) := divRem o.ty a b
  let v := fun i => BitVec.ofNat 64 (wrapInt (elemBits o.ty) i)
  let put := fun k x => resWrites (fileD c o) k l o.ty (wideTy o.ty) x
  (match o.sub with
   | 0 => put o.d.toNat (v q)
   | 1 => put o.d.toNat (v r)
   | _ => put o.d.toNat (v q) ++ put (o.d.toNat + 1) (v r), 0))
/-- IDIV (R148). -/
def execIdiv (o : Ops) (s : State) : Out := .next (s.alu (.idiv o) aluIdiv)

/-- IMNMX of two values (R149). -/
def imnmxVal (o : Ops) (a b : W64) : W64 := elemwise2 o.ty (fun x y => if o.sub = 0 then min x y else max x y) a b
def aluImnmx : Alu := binAlu imnmxVal
/-- IMNMX (R149). -/
def execImnmx (o : Ops) (s : State) : Out := .next (s.alu (.imnmx o) aluImnmx)

/-- IABS of a value (R150). -/
def iabsVal (o : Ops) (a : W64) : W64 :=
  elemwise1 o.ty (fun x => if o.sub = 1 then satInt o.ty x.natAbs else x.natAbs) a
def aluIabs : Alu := unAlu Ops.ty iabsVal
/-- IABS (R150). -/
def execIabs (o : Ops) (s : State) : Out := .next (s.alu (.iabs o) aluIabs)

/-- INEG of a value (R150). -/
def inegVal (o : Ops) (a : W64) : W64 := elemwise1 o.ty (fun x => if o.sub = 3 then satInt o.ty (-x) else -x) a
def aluIneg : Alu := unAlu Ops.ty inegVal
/-- INEG (R150). -/
def execIneg (o : Ops) (s : State) : Out := .next (s.alu (.ineg o) aluIneg)

/-- IDP4 of three values (R151). -/
def idp4Val (o : Ops) (a b c : W64) : W64 :=
  let e := fun (sg : Bool) k (x : W64) => intOf 8 sg (bitsN x.toNat (8 * k) 8)
  let p := (List.range 4).foldl (fun (t : Int) k => t + e (o.sub % 2 = 1) k a * e (o.sub / 2 % 2 = 1) k b) 0
  BitVec.ofNat 64 (wrapInt 32 (c.toNat + p))
def aluIdp4 : Alu := perValue Ops.ty (fun s c o pv l =>
  (idp4Val o (s.opA c o l false) (s.opB c o pv l 8 false) (s.opC c o pv l 0 false), 0))
/-- IDP4 (R151). -/
def execIdp4 (o : Ops) (s : State) : Out := .next (s.alu (.idp4 o) aluIdp4)

/-! ### Compare, select and move -/

/-- A comparison by its code (R158). -/
def cmpInt (k : Nat) (x y : Int) : Bool :=
  match k with
  | 0 => decide (x = y)
  | 1 => decide (x ≠ y)
  | 2 => decide (x < y)
  | 3 => decide (x ≤ y)
  | 4 => decide (y < x)
  | _ => decide (y ≤ x)

/-- The predicate in a C field, with its negation (R158). -/
def predC (s : State) (c : Issuer) (o : Ops) (l : Nat) : Bool := s.pred c l (o.c.toNat % 16) != o.c.getLsbD 4

/-- Combine a comparison with a predicate: none, AND, OR, XOR (R158). -/
def combine (k : Nat) (t p : Bool) : Bool :=
  match k with
  | 0 => t
  | 1 => t && p
  | 2 => t || p
  | _ => t != p

def aluIsetp : Alu := perLane (fun s c o pv l =>
  let (a, b) := s.opAB c o pv l
  let t := cmpInt (o.sub % 8) (elemVal o.ty 0 a) (elemVal o.ty 0 b)
  ([predWrite l (o.d.toNat % 16) (combine (o.sub / 8) t (predC s c o l))], 0))
/-- ISETP (R158). -/
def execIsetp (o : Ops) (s : State) : Out := .next (s.alu (.isetp o) aluIsetp)

def aluSel : Alu := perValue Ops.ty (fun s c o pv l =>
  let (a, b) := s.opAB c o pv l
  (if predC s c o l then a else b, 0))
/-- SEL (R159). -/
def execSel (o : Ops) (s : State) : Out := .next (s.alu (.sel o) aluSel)

def aluMov : Alu := perValue Ops.ty (fun s c o pv l => (s.opB c o pv l o.ty (wideTy o.ty), 0))
/-- MOV (R160). -/
def execMov (o : Ops) (s : State) : Out := .next (s.alu (.mov o) aluMov)

/-- The constant of a MOVI (R161). -/
def moviVal (o : Ops) : W64 := if o.form = .f128 then o.ext else imm32 o.ty o.imm32
def aluMovi : Alu := perValue Ops.ty (fun _ _ o _ _ => (moviVal o, 0))
/-- MOVI (R161). -/
def execMovi (o : Ops) (s : State) : Out := .next (s.alu (.movi o) aluMovi)

/-- LEA of a base and an index (R162). -/
def leaVal (o : Ops) (a b : W64) : W64 :=
  let x : W64 := if o.sub = 1 then (lo32 b).signExtend 64 else (lo32 b).setWidth 64
  let d := a + x <<< o.c.toNat
  if wideTy o.ty then d else (lo32 d).setWidth 64
def aluLea : Alu := perValue Ops.ty (fun s c o pv l => (leaVal o (s.opA c o l (wideTy o.ty)) (s.opB c o pv l 0 false), 0))
/-- LEA (R162). -/
def execLea (o : Ops) (s : State) : Out := .next (s.alu (.lea o) aluLea)

end Sys2Proof.Machine
end

