-- ==== Sys2Proof/Machine/Num.lean ====
section
/-! DEFINITION. Floating-point formats, exact values, and every rounding of the device (R120 to R135, R138). -/

namespace Sys2Proof.Machine

/-! ### Formats (R120, R121) -/

/-- How a format uses its top exponent code. -/
inductive FmtKind where
  /-- Infinities and NaNs. -/
  | ieee
  /-- E4M3: only the fraction of all ones is NaN. -/
  | e4m3
  /-- Neither infinities nor NaNs. -/
  | finite
deriving DecidableEq, Repr, Inhabited

/-- A format: widths of exponent and fraction, bias, special values. -/
structure Fmt where
  eb : Nat
  fb : Nat
  bias : Nat
  kind : FmtKind
deriving DecidableEq, Repr, Inhabited

def fp64 : Fmt := ⟨11, 52, 1023, .ieee⟩
def fp32 : Fmt := ⟨8, 23, 127, .ieee⟩
def fp16 : Fmt := ⟨5, 10, 15, .ieee⟩
def bf16 : Fmt := ⟨8, 7, 127, .ieee⟩
def e5m2 : Fmt := ⟨5, 2, 15, .ieee⟩
def e4m3 : Fmt := ⟨4, 3, 7, .e4m3⟩
def e3m2 : Fmt := ⟨3, 2, 3, .finite⟩
def e2m3 : Fmt := ⟨2, 3, 1, .finite⟩
def e2m1 : Fmt := ⟨2, 1, 1, .finite⟩

/-- Bits of a format. -/
def Fmt.width (f : Fmt) : Nat := 1 + f.eb + f.fb

/-- The element format of a type code (R81). -/
def fmtOf (ty : Nat) : Fmt :=
  match ty with
  | 5 => fp16
  | 6 => bf16
  | 7 => fp64
  | 12 => e4m3
  | 13 => e5m2
  | _ => fp32

/-- The magnitude code of the largest finite value. -/
def Fmt.maxCode (f : Fmt) : Nat :=
  match f.kind with
  | .ieee => (2 ^ f.eb - 1) * 2 ^ f.fb - 1
  | .e4m3 => 2 ^ (f.eb + f.fb) - 2
  | .finite => 2 ^ (f.eb + f.fb) - 1

/-- The magnitude code of infinity, or of the NaN that E4M3 takes in its place. -/
def Fmt.infCode (f : Fmt) : Nat :=
  match f.kind with
  | .ieee => (2 ^ f.eb - 1) * 2 ^ f.fb
  | .e4m3 => 2 ^ (f.eb + f.fb) - 1
  | .finite => f.maxCode

/-- The canonical NaN; +0 where the format has none (R121, R133). -/
def Fmt.nanCode (f : Fmt) : Nat :=
  match f.kind with
  | .ieee => (2 ^ f.eb - 1) * 2 ^ f.fb + 2 ^ (f.fb - 1)
  | .e4m3 => 2 ^ (f.eb + f.fb) - 1
  | .finite => 0

/-- A sign and a magnitude code as bits. -/
def Fmt.signed (f : Fmt) (neg : Bool) (code : Nat) : Nat := (if neg then 2 ^ (f.eb + f.fb) else 0) + code

/-! ### Exact values -/

/-- A value: a NaN, an infinity, or the exact number ±m × 2^e. -/
inductive Fp where
  | nan (signalling : Bool)
  | inf (neg : Bool)
  | fin (neg : Bool) (m : Nat) (e : Int)
deriving DecidableEq, Repr, Inhabited

def Fp.isNan : Fp → Bool
  | .nan _ => true
  | _ => false

def Fp.isSnan : Fp → Bool
  | .nan b => b
  | _ => false

def Fp.neg : Fp → Bool
  | .nan _ => false
  | .inf b => b
  | .fin b _ _ => b

/-- Flip the sign. -/
def Fp.negate : Fp → Fp
  | .nan b => .nan b
  | .inf b => .inf (!b)
  | .fin b m e => .fin (!b) m e

/-- The absolute value. -/
def Fp.abs : Fp → Fp
  | .nan b => .nan b
  | .inf _ => .inf false
  | .fin _ m e => .fin false m e

/-- Is a value a zero? -/
def Fp.isZero : Fp → Bool
  | .fin _ m _ => m = 0
  | _ => false

/-- Is a value a number? -/
def Fp.isFin : Fp → Bool
  | .fin _ _ _ => true
  | _ => false

/-- The value of a bit pattern (R120, R121). -/
def Fmt.unpack (f : Fmt) (bits : Nat) : Fp :=
  let neg := bitsN bits (f.eb + f.fb) 1 = 1
  let e := bitsN bits f.fb f.eb
  let m := bitsN bits 0 f.fb
  if f.kind = .ieee && e = 2 ^ f.eb - 1 then
    (if m = 0 then .inf neg else .nan (bitsN m (f.fb - 1) 1 = 0))
  else if f.kind = .e4m3 && e = 2 ^ f.eb - 1 && m = 2 ^ f.fb - 1 then .nan false
  else if e = 0 then .fin neg m (1 - f.bias - f.fb)
  else .fin neg (2 ^ f.fb + m) ((e : Int) - f.bias - f.fb)

/-- Is a bit pattern a subnormal? -/
def Fmt.subnormal (f : Fmt) (bits : Nat) : Bool := bitsN bits f.fb f.eb = 0 && bitsN bits 0 f.fb ≠ 0

/-- The value of a bit pattern, a subnormal read as zero under FTZ (R135). -/
def Fmt.read (f : Fmt) (ftz : Bool) (bits : Nat) : Fp :=
  if ftz && f.subnormal bits then .fin (bitsN bits (f.eb + f.fb) 1 = 1) 0 0 else f.unpack bits

/-- An integer as an exact value. -/
def Fp.ofInt (i : Int) : Fp := .fin (decide (i < 0)) i.natAbs 0

/-- A value m × 2^e as an integer multiple of 2^b, b ≤ e. -/
def scaled (neg : Bool) (m : Nat) (e b : Int) : Int :=
  let x : Int := (m * 2 ^ (e - b).toNat : Nat)
  if neg then -x else x

/-! ### Rounding (R130, R131) -/

/-- A rounding mode; SR holds its random bits and their count. -/
inductive RMode where
  | rne | rtz | rup | rdn
  | sr (u n : Nat)
deriving DecidableEq, Repr, Inhabited

/-- The mode of a code other than SR. -/
def rmode (k : Nat) : RMode :=
  match k with
  | 0 => .rne
  | 1 => .rtz
  | 2 => .rup
  | _ => .rdn

/-- Does a magnitude n + rem / 2^sh round up? `rem` is not zero. -/
def RMode.up (r : RMode) (neg : Bool) (n rem sh : Nat) : Bool :=
  match r with
  | .rne => decide (2 ^ sh < 2 * rem) || (2 * rem = 2 ^ sh && n % 2 = 1)
  | .rtz => false
  | .rup => !neg
  | .rdn => neg
  | .sr u k =>
    if neg then !decide (u * 2 ^ sh < (2 ^ sh - rem) * 2 ^ k) else decide (u * 2 ^ sh < rem * 2 ^ k)

/-- A magnitude m × 2^e to a multiple of 2^q: the multiple, and whether it is inexact. -/
def roundMag (r : RMode) (neg : Bool) (m : Nat) (e q : Int) : Nat × Bool :=
  if q ≤ e then (m * 2 ^ (e - q).toNat, false)
  else
    let sh := (q - e).toNat
    let n := m / 2 ^ sh
    let rem := m % 2 ^ sh
    if rem = 0 then (n, false) else (if r.up neg n rem sh then n + 1 else n, true)

/-- What stands in place of an overflow, or of an infinity, that a rounding meets. -/
inductive Narrow where
  /-- R132. -/
  | arith
  /-- R133, satfinite. -/
  | sat
  /-- R133 with NS. -/
  | ns
deriving DecidableEq, Repr, Inhabited

/-- Does an overflow become infinite (R132)? -/
def RMode.toInf (r : RMode) (neg : Bool) : Bool :=
  match r with
  | .rne | .sr _ _ => true
  | .rtz => false
  | .rup => !neg
  | .rdn => neg

/-- The exponent of the last place of the largest finite values. -/
def Fmt.maxQ (f : Fmt) : Int := (2 ^ f.eb - (if f.kind = .ieee then 2 else 1) : Nat) - (f.bias : Int) - f.fb

/-- The significand of the largest finite value. -/
def Fmt.maxMant (f : Fmt) : Nat := 2 ^ f.fb + f.maxCode % 2 ^ f.fb

/-- Round a nonzero magnitude m × 2^e into a format: the bits and the flags (R130 to R133, R135). -/
def Fmt.roundMagTo (f : Fmt) (r : RMode) (nw : Narrow) (ftz neg : Bool) (m : Nat) (e : Int) : Nat × Flags :=
  let top : Int := m.log2 + e
  let emin : Int := 1 - f.bias
  let q := max top emin - f.fb
  let (n, inexact) := roundMag r neg m e q
  -- tiny after rounding: with unbounded exponent range the value lies below the smallest normal
  let (n0, _) := roundMag r neg m e (top - f.fb)
  let tiny := decide (top + (if 2 ^ (f.fb + 1) ≤ n0 then 1 else 0) < emin)
  let (n, q) := if 2 ^ (f.fb + 1) ≤ n then (n / 2, q + 1) else (n, q)
  let nx := flIf inexact flNX
  if f.maxQ < q || (q = f.maxQ && f.maxMant < n) then
    match nw with
    | .sat => (f.signed neg f.maxCode, flOF ||| flNX ||| flSAT)
    | _ => (f.signed neg (if r.toInf neg then f.infCode else f.maxCode), flOF ||| flNX)
  else if ftz && tiny then (f.signed neg 0, flUF ||| flNX)
  else if n < 2 ^ f.fb then (f.signed neg n, nx ||| flIf (tiny && inexact) flUF)
  else (f.signed neg ((q + f.fb + f.bias).toNat * 2 ^ f.fb + (n - 2 ^ f.fb)), nx ||| flIf (tiny && inexact) flUF)

/-- Round a value into a format (R122, R130 to R135). A signalling NaN has raised NV where it was read. -/
def Fmt.round (f : Fmt) (r : RMode) (nw : Narrow) (ftz : Bool) (x : Fp) : Nat × Flags :=
  match x with
  | .nan _ => (f.nanCode, flIf (f.kind = .finite) flNV)
  | .inf neg =>
    match nw with
    | .sat => (f.signed neg f.maxCode, flSAT)
    | _ => (f.signed neg f.infCode, 0)
  | .fin neg m e => if m = 0 then (f.signed neg 0, 0) else f.roundMagTo r nw ftz neg m e

/-! ### Exact operations (R122, R138) -/

/-- NV for the signalling NaNs of some operands. -/
def snanFlag (xs : List Fp) : Flags := flIf (xs.any Fp.isSnan) flNV

/-- A product. -/
def Fp.mul (x y : Fp) : Fp × Flags :=
  let sg := x.neg != y.neg
  match x, y with
  | .nan _, _ | _, .nan _ => (.nan false, 0)
  | .inf _, z | z, .inf _ => if z.isZero then (.nan false, flNV) else (.inf sg, 0)
  | .fin _ m e, .fin _ n k => (.fin sg (m * n) (e + k), 0)

/-- The least exponent of some values. -/
def leastExp : List Fp → Option Int
  | [] => none
  | .fin _ m e :: r => if m = 0 then leastExp r else match leastExp r with | some k => some (min e k) | none => some e
  | _ :: r => leastExp r

/-- The exact sum of some values: NaN and infinity by R122; a zero sum of zeros of one sign keeps it, any other is +0,
or −0 rounding down (R138, R169). A sum that holds a quiet NaN besides infinities of both signs raises no NV, a choice of
the model (log 76). -/
def exactSum (r : RMode) (xs : List Fp) : Fp × Flags :=
  if xs.any Fp.isNan then (.nan false, 0)
  else
    let pos := xs.any (fun x => x = .inf false)
    let neg := xs.any (fun x => x = .inf true)
    if pos && neg then (.nan false, flNV)
    else if pos then (.inf false, 0)
    else if neg then (.inf true, 0)
    else
      let zero := if xs.all Fp.neg then Fp.fin true 0 0 else if xs.all (fun x => !x.neg) then .fin false 0 0
        else .fin (r = .rdn) 0 0
      match leastExp xs with
      | none => (zero, 0)
      | some b =>
        let t := xs.foldl (fun (t : Int) x => match x with | .fin s m e => if m = 0 then t else t + scaled s m e b | _ => t) 0
        if t = 0 then (.fin (r = .rdn) 0 0, 0) else (.fin (decide (t < 0)) t.natAbs b, 0)

/-- The bits of an integer square root, from bit k − 1 down. -/
def isqrtFrom : Nat → Nat → Nat → Nat
  | 0, _, r => r
  | k + 1, n, r => isqrtFrom k n (if (r + 2 ^ k) * (r + 2 ^ k) ≤ n then r + 2 ^ k else r)

/-- The integer square root. -/
def isqrt (n : Nat) : Nat := isqrtFrom (n.log2 / 2 + 1) n 0

/-- A quotient with a sticky last bit, more precise than any format (R173). -/
def divExact (m : Nat) (e : Int) (n : Nat) (k : Int) : Nat × Int :=
  let sh := 120 + n.log2
  let q := m * 2 ^ sh / n
  let s := if m * 2 ^ sh % n = 0 then 0 else 1
  (2 * q + s, e - k - sh - 1)

/-- A square root with a sticky last bit. -/
def sqrtExact (m : Nat) (e : Int) : Nat × Int :=
  let (m, e) := if e % 2 = 0 then (m, e) else (2 * m, e - 1)
  let m := m * 2 ^ 240
  let r := isqrt m
  (2 * r + (if r * r = m then 0 else 1), e / 2 - 121)

/-- A quotient (R173). -/
def Fp.div (x y : Fp) : Fp × Flags :=
  let sg := x.neg != y.neg
  match x, y with
  | .nan _, _ | _, .nan _ => (.nan false, 0)
  | .inf _, .inf _ => (.nan false, flNV)
  | .inf _, _ => (.inf sg, 0)
  | _, .inf _ => (.fin sg 0 0, 0)
  | .fin _ m e, .fin _ n k =>
    if n = 0 then (if m = 0 then (.nan false, flNV) else (.inf sg, flDZ))
    else let (q, j) := divExact m e n k; (.fin sg q j, 0)

/-- A square root (R173). -/
def Fp.sqrt (x : Fp) : Fp × Flags :=
  match x with
  | .nan _ => (.nan false, 0)
  | .inf true => (.nan false, flNV)
  | .inf false => (.inf false, 0)
  | .fin neg m e =>
    if m = 0 then (x, 0)
    else if neg then (.nan false, flNV)
    else let (r, k) := sqrtExact m e; (.fin false r k, 0)

/-- Compare two values: none when unordered; +0 equals −0. -/
def Fp.cmp (x y : Fp) : Option Ordering :=
  match x, y with
  | .nan _, _ | _, .nan _ => none
  | .inf a, .inf b => some (if a = b then .eq else if a then .lt else .gt)
  | .inf a, _ => some (if a then .lt else .gt)
  | _, .inf b => some (if b then .gt else .lt)
  | .fin a m e, .fin b n k =>
    let l := min e k
    some (compare (scaled a m e l) (scaled b n k l))

/-- A value rounded to an integer by a mode: the integer and whether it is inexact (R134, R172). -/
def toIntegral (r : RMode) (neg : Bool) (m : Nat) (e : Int) : Int × Bool :=
  let (n, i) := roundMag r neg m e 0
  (if neg then -(n : Int) else n, i)

/-- Round to an integer type and clamp (R134). -/
def toIntType (ty : Nat) (r : RMode) (x : Fp) : Int × Flags :=
  let w := elemBits ty
  let lo : Int := if isSigned ty then -(2 ^ (w - 1)) else 0
  let hi : Int := if isSigned ty then 2 ^ (w - 1) - 1 else 2 ^ w - 1
  match x with
  | .nan _ => (0, flNV)
  | .inf neg => (if neg then lo else hi, flNV)
  | .fin neg m e =>
    let (i, nx) := toIntegral r neg m e
    if i < lo then (lo, flNV) else if hi < i then (hi, flNV) else (i, flIf nx flNX)

/-! ### FP32 arithmetic of the reductions (R138) -/

/-- RoundFP32 of a value, RNE, by R132. -/
def roundF32 (x : Fp) : W32 × Flags :=
  let (b, f) := fp32.round .rne .arith false x
  (BitVec.ofNat 32 b, f)

/-- The value of an FP32 word. -/
def f32Val (x : W32) : Fp := fp32.unpack x.toNat

/-- An RNE addition of two FP32 words. -/
def f32Add (a b : W32) : W32 × Flags :=
  let x := f32Val a
  let y := f32Val b
  let (t, f) := exactSum .rne [x, y]
  let (r, g) := roundF32 t
  (r, f ||| g ||| snanFlag [x, y])

/-- The canonical FP32 NaN. -/
def nan32 : W32 := 0x7FC00000

/-- The lesser or greater of two FP32 words, with −0 below +0; any NaN gives the canonical NaN (R170, R273). -/
def f32Pick (isMax : Bool) (a b : W32) : W32 × Flags :=
  let x := f32Val a
  let y := f32Val b
  let fl := snanFlag [x, y]
  match x.cmp y with
  | none => (nan32, fl)
  | some .lt => (if isMax then b else a, fl)
  | some .gt => (if isMax then a else b, fl)
  | some .eq => (if x.neg = isMax then b else a, fl)

end Sys2Proof.Machine
end

