-- ==== Sys2Proof/Machine/Float.lean ====
section
/-! DEFINITION. Floating-point arithmetic, comparison, classification and the half-precision dot product (R167 to R173,
R176, R177). -/

namespace Sys2Proof

/-- RM in SUB[2:0], FTZ in SUB[3], NEG in SUB[4] (R169). -/
def Ops.rm (o : Ops) : Machine.RMode := Machine.rmode (o.sub % 8)
def Ops.ftz (o : Ops) : Bool := o.sub / 8 % 2 = 1
def Ops.ng (o : Ops) : Bool := o.sub / 16 % 2 = 1

end Sys2Proof

namespace Sys2Proof.Machine

/-- Element k of a value. -/
def fpElem (f : Fmt) (k : Nat) (x : W64) : Nat := bitsN x.toNat (k * f.width) f.width

/-- Apply a function to the elements of some values of a type, and pack results of w bits (R123). -/
def fpMap (ty w : Nat) (xs : List W64) (g : List Nat → Nat × Flags) : W64 × Flags :=
  let f := fmtOf ty
  let rs := (List.range (tyCount ty)).map (fun k => g (xs.map (fpElem f k)))
  (BitVec.ofNat 64 (packElems w (rs.map (fun r => (r.1 : Int)))), rs.foldl (fun a r => a ||| r.2) 0)

/-- Read elements with FTZ (R135). -/
def readElems (o : Ops) (f : Fmt) (xs : List Nat) : List Fp := xs.map (f.read o.ftz)

/-- Round a result of R132, with the flags of its operands. -/
def fpRound (o : Ops) (f : Fmt) (src : List Fp) (r : Fp × Flags) : Nat × Flags :=
  let (b, g) := f.round o.rm .arith o.ftz r.1
  (b, snanFlag src ||| r.2 ||| g)

/-- FADD of two elements (R169). -/
def faddElem (o : Ops) (f : Fmt) (xs : List Nat) : Nat × Flags :=
  let v := readElems o f xs
  let b := v.getD 1 default
  fpRound o f v (exactSum o.rm [v.getD 0 default, if o.ng then b.negate else b])

/-- FMUL of two elements (R169). -/
def fmulElem (o : Ops) (f : Fmt) (xs : List Nat) : Nat × Flags :=
  let v := readElems o f xs
  let (p, g) := (v.getD 0 default).mul (v.getD 1 default)
  fpRound o f v (if o.ng then p.negate else p, g)

/-- FFMA of three elements (R169, R138). -/
def ffmaElem (o : Ops) (f : Fmt) (xs : List Nat) : Nat × Flags :=
  let v := readElems o f xs
  let c := v.getD 2 default
  let (p, g) := (v.getD 0 default).mul (v.getD 1 default)
  let (t, h) := exactSum o.rm [p, if o.ng then c.negate else c]
  fpRound o f v (t, g ||| h)

/-- FMNMX of two elements (R170). -/
def fmnmxElem (o : Ops) (f : Fmt) (xs : List Nat) : Nat × Flags :=
  let v := readElems o f xs
  let x := v.getD 0 default
  let y := v.getD 1 default
  -- a flushed input is a zero of its sign; any other is written unchanged
  let raw := fun k => let b := xs.getD k 0; if o.ftz && f.subnormal b then f.signed (v.getD k default).neg 0 else b
  let isMax := o.sub % 2 = 1
  let first := match x.cmp y with
    | some .lt => !isMax
    | some .gt => isMax
    | _ => x.neg != isMax || x.neg = y.neg
  let r := if x.isNan && y.isNan then f.nanCode
    else if x.isNan then (if o.sub / 2 % 2 = 1 then raw 1 else f.nanCode)
    else if y.isNan then (if o.sub / 2 % 2 = 1 then raw 0 else f.nanCode)
    else if first then raw 0 else raw 1
  (r, snanFlag v)

/-- A round to an integral value in its own format (R172). -/
def frndElem (o : Ops) (f : Fmt) (xs : List Nat) : Nat × Flags :=
  let v := readElems o f xs
  match v.getD 0 default with
  | .nan _ => (f.nanCode, snanFlag v)
  | .inf b => (f.signed b f.infCode, 0)
  | .fin neg m e =>
    let (n, _) := roundMag o.rm neg m e (max e 0)
    ((f.round o.rm .arith false (.fin neg n (max e 0))).1, 0)

/-- FDIV of two elements (R173). -/
def fdivElem (o : Ops) (f : Fmt) (xs : List Nat) : Nat × Flags :=
  let v := readElems o f xs
  fpRound o f v ((v.getD 0 default).div (v.getD 1 default))

/-- FSQRT of an element (R173). -/
def fsqrtElem (o : Ops) (f : Fmt) (xs : List Nat) : Nat × Flags :=
  let v := readElems o f xs
  fpRound o f v (v.getD 0 default).sqrt

/-- An instruction on the elements of A, B and C. -/
def fpAlu3 (g : Ops → Fmt → List Nat → Nat × Flags) : Alu := perValue Ops.ty (fun s c o pv l =>
  let (a, b) := s.opAB c o pv l
  fpMap o.ty (fmtOf o.ty).width [a, b, s.opC c o pv l o.ty (wideTy o.ty)] (g o (fmtOf o.ty)))

/-- An instruction on the elements of A and B. -/
def fpAlu2 (g : Ops → Fmt → List Nat → Nat × Flags) : Alu := perValue Ops.ty (fun s c o pv l =>
  let (a, b) := s.opAB c o pv l
  fpMap o.ty (fmtOf o.ty).width [a, b] (g o (fmtOf o.ty)))

/-- An instruction on the elements of A. -/
def fpAlu1 (g : Ops → Fmt → List Nat → Nat × Flags) : Alu := perValue Ops.ty (fun s c o _ l =>
  fpMap o.ty (fmtOf o.ty).width [s.opA c o l (wideTy o.ty)] (g o (fmtOf o.ty)))

def aluFadd : Alu := fpAlu2 faddElem
/-- FADD (R169). -/
def execFadd (o : Ops) (s : State) : Out := .next (s.alu (.fadd o) aluFadd)

def aluFmul : Alu := fpAlu2 fmulElem
/-- FMUL (R169). -/
def execFmul (o : Ops) (s : State) : Out := .next (s.alu (.fmul o) aluFmul)

def aluFfma : Alu := fpAlu3 ffmaElem
/-- FFMA (R169). -/
def execFfma (o : Ops) (s : State) : Out := .next (s.alu (.ffma o) aluFfma)

def aluFmnmx : Alu := fpAlu2 fmnmxElem
/-- FMNMX (R170). -/
def execFmnmx (o : Ops) (s : State) : Out := .next (s.alu (.fmnmx o) aluFmnmx)

def aluFrnd : Alu := fpAlu1 frndElem
/-- FRND (R172). -/
def execFrnd (o : Ops) (s : State) : Out := .next (s.alu (.frnd o) aluFrnd)

def aluFdiv : Alu := fpAlu2 fdivElem
/-- FDIV (R173). -/
def execFdiv (o : Ops) (s : State) : Out := .next (s.alu (.fdiv o) aluFdiv)

def aluFsqrt : Alu := fpAlu1 fsqrtElem
/-- FSQRT (R173). -/
def execFsqrt (o : Ops) (s : State) : Out := .next (s.alu (.fsqrt o) aluFsqrt)

/-- The tests of FSETP (R171). -/
def cmpFp (k : Nat) (x y : Fp) : Bool :=
  let r := x.cmp y
  match k with
  | 0 => r = some .eq
  | 1 => r ≠ some .eq
  | 2 => r = some .lt
  | 3 => r = some .lt || r = some .eq
  | 4 => r = some .gt
  | 5 => r = some .gt || r = some .eq
  | 6 => r.isSome
  | _ => r.isNone

/-- NV of a comparison: a signalling NaN, or a quiet one in an ordered relation (R171). -/
def cmpFlags (k : Nat) (x y : Fp) : Flags :=
  flIf (x.isSnan || y.isSnan || (2 ≤ k && k ≤ 5 && (x.isNan || y.isNan))) flNV

def aluFsetp : Alu := perLane (fun s c o pv l =>
  let (a, b) := s.opAB c o pv l
  let f := fmtOf o.ty
  let x := f.unpack (fpElem f 0 a)
  let y := f.unpack (fpElem f 0 b)
  ([predWrite l (o.d.toNat % 16) (combine (o.sub / 8) (cmpFp (o.sub % 8) x y) (predC s c o l))], cmpFlags (o.sub % 8) x y))
/-- FSETP (R171). -/
def execFsetp (o : Ops) (s : State) : Out := .next (s.alu (.fsetp o) aluFsetp)

/-- The class mask of an element (R176). -/
def fclassElem (f : Fmt) (b : Nat) : Nat :=
  match f.unpack b with
  | .inf neg => if neg then 1 else 128
  | .nan sg => if sg then 256 else 512
  | .fin neg m _ =>
    if m = 0 then (if neg then 8 else 16)
    else if f.subnormal b then (if neg then 4 else 32)
    else (if neg then 2 else 64)

def aluFclass : Alu := perValue (fun _ => 0) (fun s c o _ l =>
  fpMap o.ty (min 32 (fmtOf o.ty).width) [s.opA c o l (wideTy o.ty)] (fun xs => (fclassElem (fmtOf o.ty) (xs.headD 0), 0)))
/-- FCLASS (R176). -/
def execFclass (o : Ops) (s : State) : Out := .next (s.alu (.fclass o) aluFclass)

/-- HDOT2 of two pairs and an addend (R177). -/
def hdot2Val (o : Ops) (a b c : W64) : W64 × Flags :=
  let f := fmtOf o.ty
  let e := fun k (x : W64) => f.read o.ftz (fpElem f k x)
  let z := fp32.read o.ftz (lo32 c).toNat
  let (p, g) := (e 0 a).mul (e 0 b)
  let (q, h) := (e 1 a).mul (e 1 b)
  let (t, i) := exactSum o.rm [p, q, z]
  let (r, j) := fp32.round o.rm .arith o.ftz t
  (BitVec.ofNat 64 r, g ||| h ||| i ||| j ||| snanFlag [e 0 a, e 0 b, e 1 a, e 1 b, z])

def aluHdot2 : Alu := perValue (fun _ => 0) (fun s c o pv l =>
  hdot2Val o (s.opA c o l false) (s.opB c o pv l o.ty false) (s.opC c o pv l 4 false))
/-- HDOT2 (R177). -/
def execHdot2 (o : Ops) (s : State) : Out := .next (s.alu (.hdot2 o) aluHdot2)

end Sys2Proof.Machine
end

