-- ==== Sys2Proof/Machine/Approx.lean ====
section
/-! DEFINITION. The six approximations: a free value held to the bounds of R174 (R174, R175, log 8). -/

namespace Sys2Proof.Machine

/-- One, in units of 2^-160. -/
def fxOne : Int := 2 ^ 160

/-- A power series with ratio z² and terms divided by 1, 3, 5 …: the sum of (±1)^k z^(2k+1) / (2k+1). -/
def oddSeries (fuel k : Nat) (alt : Bool) (t z2 : Int) : Int :=
  match fuel with
  | 0 => 0
  | f + 1 =>
    let x := t / (2 * k + 1 : Nat)
    x + oddSeries f (k + 1) alt ((if alt then -t else t) * z2 / fxOne) z2

/-- atanh or atan of 1 / n. -/
def arcInv (alt : Bool) (n : Nat) : Int := oddSeries 120 0 alt (fxOne / n) (fxOne / (n * n : Nat))

/-- ln 2 = 2 atanh (1/3). -/
def fxLn2 : Int := 2 * arcInv false 3

/-- π = 16 atan (1/5) − 4 atan (1/239). -/
def fxPi : Int := 16 * arcInv true 5 - 4 * arcInv true 239

/-- The exponential series from term k on. -/
def expSeries (fuel k : Nat) (t x : Int) : Int :=
  match fuel with
  | 0 => 0
  | f + 1 => t + expSeries f (k + 1) (t * x / fxOne / (k + 1 : Nat)) x

/-- The sine or cosine series from a term on, by steps of two. -/
def trigSeries (fuel k : Nat) (t x2 : Int) : Int :=
  match fuel with
  | 0 => 0
  | f + 1 => t + trigSeries f (k + 2) (-(t * x2 / fxOne) / ((k + 1) * (k + 2) : Nat)) x2

/-- A value m × 2^e in units of 2^-160, rounded down. -/
def toFx (neg : Bool) (m : Nat) (e : Int) : Int :=
  let k := e + 160
  let x : Nat := if 0 ≤ k then m * 2 ^ k.toNat else m / 2 ^ (-k).toNat
  if neg then -x else x

/-- A fixed-point number times 2^e as an exact value. -/
def ofFx (x e : Int) : Fp := .fin (decide (x < 0)) x.natAbs (e - 160)

/-- 2^x to about 140 bits. -/
def refExp2 (neg : Bool) (m : Nat) (e : Int) : Fp :=
  let x := toFx neg m e
  let n := x / fxOne
  ofFx (expSeries 60 0 fxOne ((x - n * fxOne) * fxLn2 / fxOne)) n

/-- log2 of m × 2^e to about 140 bits. -/
def refLog2 (m : Nat) (e : Int) : Fp :=
  let k : Int := m.log2
  let z := toFx false m (-k)
  let y := (z - fxOne) * fxOne / (z + fxOne)
  let l := 2 * oddSeries 80 0 false y (y * y / fxOne)
  ofFx (l * fxOne / fxLn2 + (k + e) * fxOne) 0

/-- The sine or cosine of a value of magnitude at most 2^20. -/
def refTrig (cos neg : Bool) (m : Nat) (e : Int) : Fp :=
  let x := toFx neg m e
  let t := x % (2 * fxPi)
  ofFx (if cos then trigSeries 60 0 fxOne (t * t / fxOne) else trigSeries 60 1 t (t * t / fxOne)) 0

/-- Is the distance of a value from a reference that errs by less than 2^-acc of a bound within the bound, whatever the
error? With no `acc` the reference is exact. -/
def nearBy (x y bound : Fp) (acc : Option Nat) : Bool :=
  match x, y, bound with
  | .fin a m e, .fin b n k, .fin _ w j =>
    let p := acc.getD 0
    let l := min (min e k) (j - p)
    let err := if acc.isNone then 0 else (scaled false w (j - p) l).natAbs
    decide ((scaled a m e l - scaled b n k l).natAbs + err ≤ (scaled false w j l).natAbs)
  | _, _, _ => false

/-- n ulp of a value (R174). -/
def ulps (n : Nat) (y : Fp) : Fp :=
  match y with
  | .fin _ m e => .fin false n (max (m.log2 + e) (-126) - 23)
  | _ => .fin false 0 0

/-- Hold a candidate to a bound about a reference; the reference rounded stands in place of one outside. -/
def holdTo (cand : W32) (y bound : Fp) (acc : Option Nat) : Nat :=
  let x := f32Val cand
  let r := (fp32.round .rne .arith false y).1
  let past := decide (r = fp32.signed y.neg fp32.infCode)
  if nearBy x y bound acc || (past && x = .inf y.neg) then cand.toNat else r

/-- Is a nonzero number a power of two, and of which exponent? -/
def pow2Of (m : Nat) (e : Int) : Option Int := if m = 2 ^ m.log2 then some (m.log2 + e) else none

/-- A value is inexact: NX, and UF when it is subnormal; FTZ writes a subnormal as zero (R135, R175). A result that underflows to
zero raises NX alone (log 79). -/
def inexactRes (ftz : Bool) (b : Nat) : Nat × Flags :=
  if fp32.subnormal b then ((if ftz then fp32.signed (bitsN b 31 1 = 1) 0 else b), flUF ||| flNX) else (b, flNX)

/-- An exact case; FTZ writes a subnormal as zero. -/
def exactRes (ftz : Bool) (x : Fp) : Nat × Flags := fp32.round .rne .arith ftz x

/-- An approximation of a finite nonzero operand. `k` counts from FRCP. -/
def approxFin (k : Nat) (ftz : Bool) (cand : W32) (neg : Bool) (m : Nat) (e : Int) : Nat × Flags :=
  let nanNv := (fp32.nanCode, flNV)
  let p := pow2Of m e
  let near1 := fun (y : Fp) => holdTo cand y (ulps 1 y) (some 90)
  match k with
  | 0 =>
    let (q, j) := divExact 1 0 m e
    match p with
    | some x => if -149 ≤ -x && -x ≤ 127 then exactRes ftz (.fin neg 1 (-x)) else inexactRes ftz (near1 (.fin neg q j))
    | none => inexactRes ftz (near1 (.fin neg q j))
  | 1 =>
    if neg then nanNv
    else
      let (q, j) := divExact 1 0 m e
      let (r, i) := sqrtExact q j
      match p with
      | some x => if x % 2 = 0 then exactRes ftz (.fin false 1 (-(x / 2))) else inexactRes ftz (near1 (.fin false r i))
      | none => inexactRes ftz (near1 (.fin false r i))
  | 2 =>
    let (i, nx) := toIntegral .rdn neg m e
    if 128 ≤ i then (fp32.infCode, flOF ||| flNX)
    else if !nx && -149 ≤ i then exactRes ftz (.fin false 1 i)
    else
      let y := if i < -400 then Fp.fin false 1 (-400) else refExp2 neg m e
      inexactRes ftz (holdTo cand y (ulps 2 y) (some (if i < -400 then 260 else 125)))
  | 3 =>
    if neg then nanNv
    else match p with
      | some x => exactRes ftz (Fp.ofInt x)
      | none =>
        let y := refLog2 m e
        let near := decide (m.log2 + e = -1) || decide (m.log2 + e = 0)
        inexactRes ftz (holdTo cand y (if near then .fin false 1 (-22) else ulps 2 y) (some 125))
  | _ =>
    let small := decide (m.log2 + e < 20) || (p = some 20)
    if small then
      let y := refTrig (k = 5) neg m e
      inexactRes ftz (holdTo cand y (.fin false 1 (-21)) (some 110))
    else inexactRes ftz (holdTo cand (.fin false 0 0) (.fin false 1 0) none)

/-- An approximation of an f32 word (R174, R175). -/
def approxElem (k : Nat) (ftz : Bool) (x : W32) : Nat × Flags :=
  match fp32.read ftz x.toNat with
  | .nan sg => (fp32.nanCode, flIf sg flNV)
  | .inf neg =>
    match k with
    | 0 => (fp32.signed neg 0, 0)
    | 1 => if neg then (fp32.nanCode, flNV) else (0, 0)
    | 2 => (if neg then 0 else fp32.infCode, 0)
    | 3 => if neg then (fp32.nanCode, flNV) else (fp32.infCode, 0)
    | _ => (fp32.nanCode, flNV)
  | .fin neg m e =>
    if m = 0 then
      match k with
      | 0 | 1 => (fp32.signed neg fp32.infCode, flDZ)
      | 2 => (0x3F800000, 0)
      | 3 => (fp32.signed true fp32.infCode, flDZ)
      | 4 => (fp32.signed neg 0, 0)
      | _ => (0x3F800000, 0)
    else approxFin k ftz (BitVec.ofInt 32 (Config.approx k x ftz)) neg m e

/-- An approximation in its active places. -/
def approxAlu (k : Nat) : Alu := perValue (fun _ => 4) (fun s c o _ l =>
  let (b, f) := approxElem k (o.sub = 8) (lo32 (s.opA c o l false))
  (BitVec.ofNat 64 b, f))

/-- FRCP (R174). -/
def execFrcp (o : Ops) (s : State) : Out := .next (s.alu (.frcp o) (approxAlu 0))
/-- FRSQ (R174). -/
def execFrsq (o : Ops) (s : State) : Out := .next (s.alu (.frsq o) (approxAlu 1))
/-- FEX2 (R174). -/
def execFex2 (o : Ops) (s : State) : Out := .next (s.alu (.fex2 o) (approxAlu 2))
/-- FLG2 (R174). -/
def execFlg2 (o : Ops) (s : State) : Out := .next (s.alu (.flg2 o) (approxAlu 3))
/-- FSIN (R174). -/
def execFsin (o : Ops) (s : State) : Out := .next (s.alu (.fsin o) (approxAlu 4))
/-- FCOS (R174). -/
def execFcos (o : Ops) (s : State) : Out := .next (s.alu (.fcos o) (approxAlu 5))

end Sys2Proof.Machine
end

