-- ==== Sys2Proof/Machine/Access.lean ====
section
/-! DEFINITION. Accesses of parties to virtual addresses and to the scratchpad share: their checks, and their performance
line by line (R48, R69, R191 to R200, R352). -/

namespace Sys2Proof.Machine

/-! ### The scratchpad share (R69) -/

/-- A byte of a block's share: what was stored, else zero in a granule cleared at dispatch, else free (log 7). -/
def Block.scratchAt (b : Block) (off : Nat) : Byte :=
  match b.scratch.find? off with
  | some x => x
  | none => if b.clean.contains (off / 65536) then 0 else Config.scratchByte b.born off

/-- n bytes of a share. -/
def Block.scratchBytes (b : Block) (off n : Nat) : List Byte := (List.range n).map (fun k => b.scratchAt (off + k))

/-- A little-endian number of a share. -/
def Block.scratchNat (b : Block) (off n : Nat) : Nat := leNat (b.scratchBytes off n)

/-- Store bytes into a share. -/
def Block.scratchPut (b : Block) (off : Nat) (x : List Byte) : Block :=
  { b with scratch := (x.zipIdx).foldl (fun m e => m.put (off + e.2) e.1) b.scratch }

/-- Bytes of a block's share. -/
def Block.share (b : Block) : Nat := b.img.spg * 65536

/-! ### Pieces of an access -/

/-- Bytes of an access within one line. -/
structure Piece where
  va : W64 := 0
  pa : Nat := 0
  cls : Nat := 0
  /-- Where the piece lies in the access, and its bytes. -/
  at_ : Nat := 0
  n : Nat := 0
deriving DecidableEq, Repr, Inhabited

/-- The parts of an access that lie in one line each: address, place, bytes. -/
def vaParts (fuel : Nat) (va : W64) (at_ n : Nat) : List (W64 × Nat × Nat) :=
  match fuel with
  | 0 => []
  | f + 1 =>
    if n = 0 then []
    else
      let k := min n (128 - va.toNat % 128)
      (va, at_, k) :: vaParts f (va + BitVec.ofNat 64 k) (at_ + k) (n - k)

/-- The parts of an access. -/
def partsOf (va : W64) (n : Nat) : List (W64 × Nat × Nat) := vaParts (n / 128 + 2) va 0 n

/-- Does any byte of an access have an address with bits [63:51] set (R48)? -/
def badRange (va : W64) (n : Nat) : Bool := decide (2 ^ 51 < va.toNat + max n 1)

/-- What stops an access: a cause, or translations that are missing. -/
inductive Stop where
  | fail (f : Fail)
  | miss (ms : List (W64 × Access × W32))
deriving Repr

/-- An access of a place: its lane, address and bytes. -/
structure Req where
  lane : Nat
  va : W64
  n : Nat
deriving DecidableEq, Repr, Inhabited

/-- A piece as far as the translations held tell. -/
def State.findPiece (s : State) (c : Issuer) (acc : Access) (p : W64 × Nat × Nat) : Option Piece :=
  (s.tlbFind c.g (s.aspaceOf c) p.1 acc).map (fun t => ⟨p.1, t.addr p.1, t.cls, p.2.1, p.2.2⟩)

/-- The class and address that check 3 of R198 looks at. -/
def State.seenLeaf (s : State) (c : Issuer) (acc : Access) (p : W64 × Nat × Nat) : Option (Nat × Nat) :=
  match s.tlbFind c.g (s.aspaceOf c) p.1 acc with
  | some t => some (t.cls, t.addr p.1)
  | none => s.peekLeaf (s.aspaceOf c) p.1

/-- How an access restricts alignment: `al` is its alignment; it holds on every class, or on memory-side pages and stack
15 alone; stack 15 may be refused. -/
structure Rule where
  al : Nat := 1
  always : Bool := false
  noIo : Bool := false
  ioMax : Nat := 8
deriving DecidableEq, Repr, Inhabited

/-- Does an access break check 3? -/
def Rule.breaks (r : Rule) (q : Req) (seen : List (Nat × Nat)) : Bool :=
  (q.va.toNat % r.al ≠ 0 && (r.always || seen.any (fun x => x.1 = 3 || isIo x.2)))
    || (seen.any (fun x => isIo x.2) && decide (r.ioMax < q.n))

/-- The checks of R198 over every place: a cause, missing translations, or each place's pieces. -/
def State.checkAccess (s : State) (c : Issuer) (acc : Access) (r : Rule) (qs : List Req) :
    Except Stop (List (Req × List Piece)) :=
  match qs.filter (fun q => badRange q.va q.n) with
  | q :: rest => .error (.fail { code := 9, lanes := (q :: rest).map Req.lane, addr := q.va, info := 0xFFFF })
  | [] =>
    let ps := qs.map (fun q => (q, partsOf q.va q.n))
    let seen := ps.map (fun e => (e.1, e.2.map (s.seenLeaf c acc)))
    let miss := ps.flatMap (fun e => (e.2.filter (fun p => (s.findPiece c acc p).isNone)).map (fun p =>
      (p.1, acc, 1#32 <<< e.1.lane)))
    if seen.any (fun e => e.2.any Option.isNone) then .error (.miss miss)
    else
      let bad := seen.filter (fun e => r.breaks e.1 (e.2.filterMap id))
      match bad with
      | e :: rest => .error (.fail { code := 7, lanes := (e :: rest).map (fun x => x.1.lane), addr := e.1.va })
      | [] =>
        match seen.filter (fun e => r.noIo && (e.2.filterMap id).any (fun x => isIo x.2)) with
        | e :: rest => .error (.fail { code := 9, lanes := (e :: rest).map (fun x => x.1.lane), addr := e.1.va, info := 0xFFFF })
        | [] =>
          match miss with
          | [] => .ok (ps.map (fun e => (e.1, e.2.filterMap (s.findPiece c acc))))
          | _ => .error (.miss miss)

/-- The effect of a stopped access. -/
def State.stopEff (s : State) (c : Issuer) (ls : List Nat) (e : Stop) : Eff :=
  match e with
  | .fail f => .fail f
  | .miss ms => .go (s.missWalk c ls ms) c.places

/-! ### Performing pieces -/

/-- Read a piece that is not of stack 15: its bytes and whether its line is poisoned. -/
def State.readPiece (s : State) (who : List Thread) (g : Nat) (noL1 : Bool) (p : Piece) : State × List Byte × Bool :=
  let line := p.pa / 128
  let (s, x, bad) := if s.isLocal p.pa then s.loadLine g p.cls line (byteMask (p.pa % 128) p.n) noL1
    else if p.cls = 2 && s.isPeer line then s.peerLoad who g line noL1
    else s.askRead who line
  (s, lineBytes x (p.pa % 128) p.n, bad)

/-- Read the pieces of an access: its bytes, and the address of the first poisoned one. -/
def State.readPieces (s : State) (who : List Thread) (g : Nat) (noL1 : Bool) (ps : List Piece) : State × List Byte × Option W64 :=
  ps.foldl (fun (s, b, bad) p =>
    let (s, x, q) := s.readPiece who g noL1 p
    (s, b ++ x, match bad with | some a => some a | none => if q then some p.va else none)) (s, [], none)

/-- Bytes to be stored to one line by one request: class, mask, data. -/
structure LinePut where
  cls : Nat := 0
  mask : BitVec 128 := 0
  data : Line := 0
deriving DecidableEq, Repr, Inhabited

/-- Add a piece of a store to the requests by line; later bytes stand over earlier ones. -/
def addPut (m : Map LinePut) (p : Piece) (x : List Byte) : Map LinePut :=
  let l := p.pa / 128
  let o := p.pa % 128
  let e := m.get l { cls := p.cls }
  m.put l { e with mask := e.mask ||| byteMask o p.n, data := setLineBytes e.data o (x.take p.n) }

/-- Store the bytes of one request of some threads to its line; a reservation on it goes, whichever package it lies in
(R261). -/
def State.writeLine (s : State) (who : List Thread) (g line : Nat) (noL1 : Bool) (e : LinePut) : State :=
  if s.isLocal (line * 128) then s.storeLine g e.cls line e.mask e.data noL1
  else if e.cls = 2 && s.isPeer line then s.peerStore who g line e.mask e.data
  else s.askWrite who line

/-- Store the coalesced requests of an instruction (R199, R200). -/
def State.writePuts (s : State) (who : List Thread) (g : Nat) (noL1 : Bool) (m : Map LinePut) : State :=
  m.foldl (fun s e => s.writeLine who g e.1 noL1 e.2) s

/-- The requests of some stores, in place order. -/
def putsOf (xs : List (List Piece × List Byte)) : Map LinePut :=
  xs.foldl (fun m e => e.1.foldl (fun m p => addPut m p (e.2.drop p.at_)) m) []

/-! ### Results of loads -/

/-- Extend a loaded number by its size code to 64 bits (R197). -/
def extendSize (sz v : Nat) : W64 :=
  match sz with
  | 1 => (BitVec.ofNat 8 v).signExtend 64
  | 3 => (BitVec.ofNat 16 v).signExtend 64
  | _ => BitVec.ofNat 64 v

/-- Bytes of a size code (R197). -/
def sizeBytes (sz : Nat) : Nat := [1, 1, 2, 2, 4, 8, 16].getD sz 16

/-- The register writes of a loaded value (R197). -/
def loadWrites (f : RFile) (d l sz v : Nat) : List PWrite :=
  let lanes := f = .v || f = .w
  match sz with
  | 5 => resWrites f d l 2 true (BitVec.ofNat 64 v)
  | 6 =>
    if lanes then (List.range 4).map (fun k => ⟨l, f, d + k, BitVec.ofNat 64 (bitsN v (32 * k) 32)⟩)
    else (List.range 2).map (fun k => ⟨l, f, d + k, BitVec.ofNat 64 (bitsN v (64 * k) 64)⟩)
  | _ => if lanes then [⟨l, f, d, (lo32 (extendSize sz v)).setWidth 64⟩] else [⟨l, f, d, extendSize sz v⟩]

/-- The number in the value registers of a store (R197). -/
def State.storeVal (s : State) (c : Issuer) (f : RFile) (r l sz : Nat) : Nat :=
  match sz with
  | 5 => (s.regOf c f r l true).toNat
  | 6 =>
    if f = .v || f = .w then (List.range 4).foldl (fun a k => a + (s.regOf c f (r + k) l false).toNat * 2 ^ (32 * k)) 0
    else (s.regOf c f r l true).toNat + (s.regOf c f (r + 1) l true).toNat * 2 ^ 64
  | _ => (s.regOf c f r l false).toNat

/-- Give loaded values to their registers: pending in lane code with the poison each lane met; at once elsewhere, where
poison is taken before the next instruction (R97, R200). -/
def State.giveLoad (s : State) (c : Issuer) (o : Ops) (uni : Bool) (ls : List Nat) (ws : List PWrite) (acq : Option Nat)
    (poison : Map W64) : State × List Nat :=
  match c.unit with
  | .lane =>
    (s.addPend c { lanes := if uni then c.group else lanesMask ls, uni := uni, pc := c.pc, writes := ws, acq := acq
                   poison := poison }, [])
  | _ =>
    let s := match acq with | some k => s.acquire c.g k | none => s
    match poison with
    | [] => (s.writeAll c ws, [])
    | e :: _ =>
      let pc := c.pc + BitVec.ofNat 64 o.form.bytes
      (((s.jump c 0 pc).takeCause c [0] { code := 14, lanes := [0], addr := e.2 } c.pc pc false), [0])

end Sys2Proof.Machine
end

