-- ==== Sys2Proof/Machine/Migration.lean ====
section
/-! DEFINITION. The translation agent and the migration engine (R64 to R67). -/

namespace Sys2Proof.Machine

/-! ### The move of a page (R66, R67) -/

/-- Is an entry a valid 32 KiB leaf, without CONTIG and MIG, of a cached class? -/
def State.movable (s : State) (lvl : Nat) (e : W64) : Bool :=
  lvl = 0 && pteV e && (pteR e || pteW e || pteX e) && !s.leafBad 0 e && !pteContig e && !pteMig e && pteCls e ≠ 3

/-- The leaf that a page has once it is moved. -/
def movedLeaf (e : W64) (dst : Nat) : W64 := BitVec.ofNat 64 (e.toNat - ptePa e + dst)

/-- Is a frame one of this package's stacks? -/
def State.ownFrame (s : State) (f : Nat) : Bool := s.isLocal f && decide (paStack f ≤ 11)

/-- Copy a line of a page that moves, with its poison: R67 copies the line where R278 has the frame's POISON clear (log 79). A frame of
another package or of stack 15 takes it by accesses. -/
def State.moveLine (s : State) (src dst : Nat) : State :=
  if s.ownFrame (src * 128) && s.ownFrame (dst * 128) then
    s.updMem (fun m => (m.setDram dst (m.dram src)).setSide dst { poison := (m.sideOf src).poison })
  else
    let (s, x, _) := s.unitLine none 2 src fullMask
    s.unitPut none 2 dst 0 (lineBytes x 0 128)

/-- Steps 2 to 6 of R67 for a leaf that may be moved: the leaf at `pa`, the destination frame, and whether attached devices
lose their translations too. -/
def State.moveLeaf (s : State) (pa : Nat) (e : W64) (aspace : Nat) (va : W64) (dst : Nat) (ats : Bool) : State :=
  let src := ptePa e
  let s := s.shootdown false aspace (some (va.toNat / 32768, 1)) ats
  let s := (frameLines src).foldl State.dropCopies s
  let s := if s.ownFrame dst then s.zeroFrame dst else s
  let s := (List.range 256).foldl (fun (s : State) k => s.moveLine (src / 128 + k) (dst / 128 + k)) s
  let s := s.physSetWord pa (movedLeaf e dst)
  s.setCtl 0 0x11A (s.ctlOf 0 0x11A + 1)

/-- Has a sill's window of CTL_MIGWIN cycles ended (R67)? Windows are told by the lowest present die's clock (log 48). -/
def State.migOver (s : State) (stack : Nat) : Bool :=
  decide (s.xl.migSince.get stack 0 + s.pkgReg 0x118 ≤ s.cycles s.lowestDie)

/-- MIGRATION_WINDOW: a sill whose window has ended clears its counts (R67). -/
def execMigrationWindow (stack : Nat) (s : State) : Out :=
  if s.migOver stack then
    .next { s with xl := { s.xl with mig := s.xl.mig.filter (fun e => paStack (e.1 / 8 * 32768) ≠ stack)
                                     migSince := s.xl.migSince.put stack (s.cycles s.lowestDie) } }
  else .next s

/-- Is a frame a candidate for a die (R67)? -/
def State.migrates (s : State) (frame die lvl : Nat) (e : W64) : Bool :=
  (s.ctlOf 0 0x116).getLsbD 0 && decide (s.pkgReg 0x119 ≤ s.xl.mig.get (frame / 32768 * 8 + die) 0)
    && !s.migOver (paStack frame) && decide (0 < s.dist die (paStack frame)) && s.movable lvl e && !ptePin e && ptePa e = frame

/-- MIGRATION_MOVE: the engine moves a candidate that a space maps at a page (R67). -/
def execMigrationMove (frame die aspace : Nat) (va : W64) (s : State) : Out :=
  match s.leafOf aspace va with
  | (_, none) => .next s
  | (t, some (pa, lvl, e)) =>
    if t.migrates frame die lvl e then
      match t.takeFrame die with
      | (_, .error _) => .next s
      | (t, .ok dst) => .next ((t.moveLeaf pa e aspace va dst true).returnFrame frame)
    else .next s

/-! ### Commands of the translation agent (R64, R65) -/

/-- The fields of a command. -/
structure XlCmd where
  flags : Nat
  aspace : Nat
  npages : Nat
  va : W64
  ctr : Nat
  inc : Nat
deriving DecidableEq, Repr, Inhabited

/-- Read a command's fields (R64). -/
def xlFields (c : BitVec 256) : XlCmd :=
  let n := fun k w => (c.extractLsb' k w).toNat
  { flags := n 8 8, aspace := n 16 16, npages := n 32 32, va := c.extractLsb' 64 64, ctr := n 128 64, inc := n 192 64 }

/-- Can a physical counter address of a command be advanced (R303, R306; for R64 the same reading)? -/
def State.ctrPa (s : State) (pa : Nat) : Bool :=
  pa % 16 = 0 && decide (pa < 2 ^ 52) && s.isLocal pa && decide (paStack pa ≤ 11)

/-- Advance the counter of a command, when it can be. -/
def State.xlAdvance (s : State) (x : XlCmd) (k : Nat) (poison : Bool) : State :=
  if s.ctrPa x.ctr then s.ctrAdvance x.ctr k poison else s

/-- A refused invalidation advances its counter with poison. -/
def State.xlRefuse (s : State) (x : XlCmd) : State := s.xlAdvance x (x.inc % 2 ^ 63) true

/-- Fields that no invalidation may have. -/
def State.xlBad (s : State) (x : XlCmd) : Bool := decide (1 < x.flags) || decide (2 ^ 63 ≤ x.inc) || !s.ctrPa x.ctr

/-- An invalidation is taken. -/
def State.xlTake (s : State) (x : XlCmd) (all : Bool) (range : Option (Nat × Nat)) : State :=
  let v : Inval := { all := all, aspace := x.aspace, range := range, ats := x.flags = 1, ctr := x.ctr, inc := x.inc }
  { s with xl := { s.xl with invals := s.xl.invals ++ [v] } }

/-- INVALIDATE_RANGE (R64): a range above 4,096 pages becomes the whole space. -/
def execInvalidateRange (c : BitVec 256) (s : State) : Out :=
  let x := xlFields c
  if s.xlBad x || x.npages = 0 || x.va.toNat % 32768 ≠ 0 || decide (2 ^ 51 ≤ x.va.toNat) then .next (s.xlRefuse x)
  else .next (s.xlTake x false (if 4096 < x.npages then none else some (x.va.toNat / 32768, x.npages)))

/-- INVALIDATE_ASPACE (R64). -/
def execInvalidateAspace (c : BitVec 256) (s : State) : Out :=
  let x := xlFields c
  if s.xlBad x then .next (s.xlRefuse x) else .next (s.xlTake x false none)

/-- INVALIDATE_ALL (R64). -/
def execInvalidateAll (c : BitVec 256) (s : State) : Out :=
  let x := xlFields c
  if s.xlBad x then .next (s.xlRefuse x) else .next (s.xlTake x true none)

/-- May a thread access a space? Engines, sill commands and application cores may access any (log 47). -/
def State.threadIn (s : State) (t : Thread) (aspace : Nat) : Bool :=
  match t.kind with
  | 1 | 5 => (s.queue t.a).aspace = aspace
  | 0 | 2 | 3 | 4 => (s.work.launches.get t.a {}).aspace = aspace
  | _ => true

/-- Does an invalidation cover an address of a space? -/
def Inval.covers (v : Inval) (aspace : Nat) (va : W64) : Bool :=
  ({ aspace := aspace, vpn := va.toNat / 32768 } : Tlb).inRange v.all v.aspace v.range

/-- Does an engine hold a counter of the range of an invalidation, translated by a step, that it has still to advance? -/
def State.holdsCtr (s : State) (v : Inval) (by_ : Nat) : Bool :=
  let copy := fun (g : Nat) (q : CopyCmd) => q.ctr.isSome && decide (q.born ≤ by_) && v.covers (s.block g q.blk).aspace q.ctrVa
  s.eng.sills.any (fun e => decide (e.2.born ≤ by_) && v.covers e.2.aspace e.2.ctrVa)
    || s.eng.colls.any (fun e => e.2.ctr.isSome && decide (e.2.born ≤ by_) && v.covers e.2.aspace e.2.ctrVa)
    || s.clusters.any (fun e => e.2.copyQ.any (copy e.1) || e.2.copyHeld.any (fun h => copy e.1 h.cmd))

/-- Is an access not performed that may have been translated, by a step, through what an invalidation removes: an append that waits
at the hub, a request to another package, a write of an engine to stack 15, a counter that a command holds (R65 point 2)? -/
def State.invalLate (s : State) (v : Inval) (by_ : Nat) : Bool :=
  let mine := fun (t : Thread) => v.all || s.threadIn t v.aspace
  s.work.queues.any (fun e => e.2.waiting.any (fun w => decide (w.born ≤ by_) && w.party.any mine))
    || s.out.tlain.any (fun q => decide (q.born ≤ by_) && q.who.any mine)
    || !s.out.posted.isEmpty || s.holdsCtr v by_

/-- INVALIDATION_COMPLETE: the translations go, and then, when the accesses made through them are performed, the counter advances
(R65). -/
def execInvalidationComplete (i : Nat) (s : State) : Out :=
  match s.xl.invals[i]? with
  | none => .next s
  | some v =>
    let s := s.shootdown v.all v.aspace v.range v.ats
    let first := v.shot.getD s.ticks
    if s.invalLate v first then
      .next { s with xl := { s.xl with invals := s.xl.invals.set i { v with shot := some first } } }
    else
      .next (State.ctrAdvance { s with xl := { s.xl with invals := s.xl.invals.eraseIdx i } } v.ctr v.inc false)

/-- Is a destination frame malformed by itself (R49, R66)? -/
def frameBad (f : Nat) : Bool := f % 32768 ≠ 0 || decide (2 ^ 52 ≤ f) || badFrame f

/-- Fields that no MOVE_PAGE may have. -/
def XlCmd.moveBad (x : XlCmd) : Bool :=
  decide (1 < x.flags) || x.npages ≠ 0 || x.va.toNat % 32768 ≠ 0 || decide (2 ^ 51 ≤ x.va.toNat) || frameBad x.inc

/-- MOVE_PAGE: the leaf at VA moves to the frame of INC, whatever PIN says; a frame that makes the leaf malformed is refused
(R49, R53, R64, R66). With an unusable counter the command has no effect (log 47). -/
def execMovePage (c : BitVec 256) (s : State) : Out :=
  let x := xlFields c
  if !s.ctrPa x.ctr then .next s
  else if x.moveBad then .next (s.xlAdvance x 1 true)
  else match s.leafOf x.aspace x.va with
    | (s, none) => .next (s.xlAdvance x 1 true)
    | (s, some (pa, lvl, e)) =>
      if s.movable lvl e && !s.leafBad 0 (movedLeaf e x.inc) then
        .next (((s.moveLeaf pa e x.aspace x.va x.inc (x.flags = 1)).returnFrame (ptePa e)).xlAdvance x 1 false)
      else .next (s.xlAdvance x 1 true)

/-- REFUSED_TRANSLATION_COMMAND: an undefined OP (R64). -/
def execRefusedTranslationCommand (c : BitVec 256) (s : State) : Out := .next (s.xlRefuse (xlFields c))

end Sys2Proof.Machine
end

