-- ==== Sys2Proof/Machine/Checkpoint.lean ====
section
/-! DEFINITION. Checkpoints to a mirror package (R359). -/

namespace Sys2Proof.Machine

/-- Every L1 and every cache of an agent is cleaned to DRAM. -/
def State.cleanAll (s : State) : State :=
  let s := (s.mem.l1.keys).foldl (fun s k => s.cleanL1 (k / 2 ^ 45) (k % 2 ^ 45)) s
  (s.mem.cache).foldl (fun s e =>
    let slot := e.1 / 2 ^ 45
    let line := e.1 % 2 ^ 45
    match e.2.st with
    | .P => s.cleanPriv (slot % 16) line
    | .M | .O => s.cleanLine line 2
    | _ => s) s

/-- Lines of the stacks present. -/
def State.presentLines (s : State) : Nat := ((List.range 12).filter s.stackPresent).length * 2 ^ 29

/-- A write of CTL_CKPTCTL: with the start bit, the package is cleaned and streamed to the mirror, and the counter at
CTL_CKPTCTR advances by 1, with poison when the mirror does not accept the stream (R359). -/
def State.checkpoint (s : State) (v : W64) : State :=
  let s := s.setCtl 0 0x135 v
  if v.getLsbD 12 && decide (v.toNat < 2 ^ 13) then
    let pkg := bitsN v.toNat 0 12
    let s := s.cleanAll
    let (s, ok) := s.tlainSend [] (pkg * 2 ^ 33) true
    let s := if ok then { s with out := { s.out with mirror := (pkg, s.presentLines) :: s.out.mirror } } else s
    let ctr := s.pkgReg 0x136
    if s.ctrPa ctr then s.ctrAdvance ctr 1 (!ok) else s
  else s

/-- CHECKPOINT_START (R359). -/
def execCheckpointStart (v : W64) (s : State) : Out := .next (s.checkpoint v)

/-- CHECKPOINT_STREAM_RECEIVE: a line of a stream, written while CTL_CKPTACCEPT holds the sender's number: fresh check
bits, its poison, metadata I; a reservation on it goes (R261, R359). -/
def execCheckpointStreamReceive (src line : Nat) (data : Line) (poison : Bool) (s : State) : Out :=
  let l := s.pkgId * 2 ^ 33 + line % 2 ^ 33
  if s.pkgReg 0x137 = src && src ≠ 0xFFF && decide (paStack (l * 128) ≤ 11) then
    .next (s.updMem (fun m => ((m.setDram l data).setSide l { poison := poison }).clearResv l))
  else .next s

end Sys2Proof.Machine
end

