-- ==== Sys2Proof/Machine/QueueCtl.lean ====
section
/-! DEFINITION. The doorbell: TAIL, HEAD, enable, disable and clear (R29, R30, R36, R315, R367). -/

namespace Sys2Proof.Machine

/-! ### TAIL and HEAD -/

/-- May a queue's TAIL move to a value (R30)? A task queue takes 2^56 records at most (R19). -/
def Queue.tailOk (x : Queue) (v : Nat) : Bool :=
  decide (x.head ≤ v) && decide (v ≤ x.head + 2 ^ x.log) && decide (x.tail ≤ v) && (x.type ≠ 2 || decide (v ≤ 2 ^ 56))

/-- A TAILDB write of a command or task queue (R30). -/
def State.tailWrite (s : State) (q v : Nat) : State :=
  let x := s.queue q
  if x.stat = 0 || x.stat = 3 then s
  else if x.tailOk v then s.setTail q v
  else if x.stat = 1 then
    (s.updQueue q (fun y => { y with stopLen := 0 })).stopQueue q 6 (x.slotAddr x.tail)
  else s

/-- A TAILDB write of a completion queue: the consumer's new HEAD (R315). -/
def State.headWrite (s : State) (q v : Nat) : State :=
  let x := s.queue q
  if x.stat = 0 || x.stat = 3 then s
  else if x.head ≤ v && v ≤ x.tail then
    let s := s.setHead q v
    s.cqDrain (s.queue q).waiting.length q
  else if x.stat = 1 then
    (s.updQueue q (fun y => { y with stopLen := 0 })).stopQueue q 6 (x.slotAddr x.head)
  else s

/-- TAILDB_WRITE of a command or task queue (R30). -/
def execTaildbWrite (q : BitVec 16) (v : W64) (s : State) : Out :=
  if (s.queue q.toNat).type = 3 then .next s else .next (s.tailWrite q.toNat v.toNat)

/-- COMPLETION_QUEUE_HEAD_WRITE (R315). -/
def execCompletionQueueHeadWrite (q : BitVec 16) (v : W64) (s : State) : Out :=
  if (s.queue q.toNat).type = 3 then .next (s.headWrite q.toNat v.toNat) else .next s

/-! ### Enable (R29, R30, R367) -/

/-- The fields of a descriptor that a queue takes at enable. -/
def descQueue (b : List Byte) : Queue :=
  let n := fun k w => leNat ((b.drop k).take w)
  { stat := 1, base := BitVec.ofNat 64 (n 0 8), type := n 8 1, log := n 9 1, assign := n 10 2, aspace := n 12 4
    errMsi := BitVec.ofNat 64 (n 16 8) }

/-- Is a descriptor refused? -/
def descBad (b : List Byte) : Bool :=
  let x := descQueue b
  x.type = 0 || decide (3 < x.type) || decide (x.log < 4) || decide (24 < x.log)
    || x.base.toNat % (if x.type = 1 then 8 else if x.type = 2 then 128 else 64) ≠ 0
    || (match x.type with
        | 1 => decide (15 < x.assign)
        | 2 => x.assign = 0 || decide (256 ≤ x.assign)
        | _ => decide (1 < x.assign))
    || decide (65535 < x.aspace) || (b.drop 50).any (· ≠ 0)

/-- A write of 1 to QCTRL (R367). -/
def State.enableQueue (s : State) (q : Nat) : State :=
  if (s.queue q).stat ≠ 0 then s
  else
    let (s, b) := s.physRead (s.qDesc q) 64
    let y := descQueue b
    if descBad b then
      (s.updQueue q (fun x => { x with errMsi := y.errMsi, stopLen := 0 })).stopQueue q 7 (BitVec.ofNat 64 (s.qDesc q))
    else
      let old := s.queue q
      let s := s.updQueue q (fun _ =>
        { y with launches := old.launches, errCode := old.errCode, errAddr := old.errAddr, streams := [{}] })
      (s.setHead q 0).setTail q 0

/-- QUEUE_ENABLE (R367). -/
def execQueueEnable (q : BitVec 16) (s : State) : Out := .next (s.enableQueue q.toNat)

/-! ### Disable (R367) -/

/-- A WAITSEQ of a queue is abandoned. -/
def State.dropWaitseq (s : State) (q : Nat) : State :=
  match (s.queue q).waitseq with
  | none => s
  | some pa =>
    let s := { s with xl := { s.xl with waiters := s.xl.waiters.filter (fun w => !(w.who.unit = Unit.cp && w.who.slot = q)) } }
    (s.updQueue q (fun x => { x with waitseq := none })).watchDrop pa 8

/-- Has a draining queue nothing left under way (R367)? -/
def State.drained (s : State) (q : Nat) : Bool :=
  let x := s.queue q
  match x.type with
  | 1 => !x.busy
  | 2 => x.live = 0 && !s.work.parkedPull.has q
  | _ => true

/-- A draining queue whose work is done becomes disabled. -/
def State.drainCheck (s : State) (q : Nat) : State :=
  if (s.queue q).stat = 3 && s.drained q then s.updQueue q (fun x => { x with stat := 0 }) else s

/-- A write of 2 to QCTRL (R367). -/
def State.disableQueue (s : State) (q : Nat) : State :=
  let x := s.queue q
  if x.stat = 0 || x.stat = 3 then s
  else if x.stat = 2 && x.errCode = 7 then s.updQueue q (fun y => { y with stat := 0 })
  else
    let s := s.dropWaitseq q
    let s := s.updQueue q (fun y => { y with stat := 3, fence := false, released := none, waiting := [] })
    s.drainCheck q

/-- QUEUE_DISABLE (R367). -/
def execQueueDisable (q : BitVec 16) (s : State) : Out := .next (s.disableQueue q.toNat)

/-- QUEUE_DRAIN_COMPLETE (R367). -/
def execQueueDrainComplete (q : BitVec 16) (s : State) : Out := .next (s.drainCheck q.toNat)

/-! ### Clear (R36, R367) -/

/-- HEAD of a command queue: its ring position, held at the body of the outermost open LOOP of the ring (log 16). -/
def Queue.ringHead (x : Queue) : Nat :=
  match x.streams.getLast? with
  | some t =>
    match (t.nest.filterMap (fun n => match n with | .loop a _ => some a | _ => none)).getLast? with
    | some a => a
    | none => t.pos
  | none => x.head

/-- Put the consumed position of a command queue back to its descriptor. -/
def State.headBack (s : State) (q : Nat) : State :=
  let h := (s.queue q).ringHead
  if h = (s.queue q).head then s else s.setHead q h

/-- Move the innermost stream of a queue on by some words. -/
def Queue.advance (x : Queue) (n : Nat) : Queue :=
  { x with streams := match x.streams with | t :: r => { t with pos := t.pos + n } :: r | [] => [] }

/-- A write of 3 to QCTRL (R36, R367). -/
def State.clearStop (s : State) (q : Nat) : State :=
  let x := s.queue q
  if x.stat ≠ 2 then s
  else if x.errCode = 7 || x.type = 0 then s.updQueue q (fun y => { y with stat := 0 })
  else
    let s := s.updQueue q (fun y => { (if y.type = 1 then y.advance y.stopLen else y) with stat := 1, stopLen := 0 })
    if x.type = 1 then s.headBack q else if x.type = 3 then s.cqDrain x.waiting.length q else s

/-- QUEUE_CLEAR_STOP (R36, R367). -/
def execQueueClearStop (q : BitVec 16) (s : State) : Out := .next (s.clearStop q.toNat)

/-- A write of a doorbell register (R30): 0 TAILDB, 8 QCTRL. -/
def State.doorbell (s : State) (q reg : Nat) (v : W64) : State :=
  if reg = 0 then (if (s.queue q).type = 3 then s.headWrite q v.toNat else s.tailWrite q v.toNat)
  else if reg = 8 then
    (if v = 1 then s.enableQueue q else if v = 2 then s.disableQueue q else if v = 3 then s.clearStop q else s)
  else s

end Sys2Proof.Machine
end

