-- ==== Sys2Proof/Machine/Cq.lean ====
section
/-! DEFINITION. The append ports of completion queues and the notification timer (R316, R318). -/

namespace Sys2Proof.Machine

/-- An append access that is discarded and stops its queue with a code (R316). A queue already stopped or draining keeps
its state; one that was not enabled returns to disabled when the stop is cleared. -/
def State.appendStop (s : State) (q code : Nat) (va : W64) : State :=
  let x := s.queue q
  if x.stat = 2 || x.stat = 3 then s
  else
    let s := s.updQueue q (fun y => { y with stopLen := 0, type := if y.stat = 0 then 0 else y.type })
    s.stopQueue q code va

/-- An append of the record at an address (R316). -/
def State.append (s : State) (q : Nat) (va : W64) (who : Option Thread) : State :=
  let x := s.queue q
  if !x.cqOpen || va.toNat % 64 ≠ 0 then s.appendStop q 1 va
  else match s.rd x.aspace va 64 none with
    | (s, .fail _ _ _) => s.appendStop q 3 va
    | (s, .ok (b, _)) =>
      s.cqPush q { kind := 2, subkind := (b.getD 1 0).toNat, payload := (b.drop 16).take 48, party := who, born := s.ticks }

/-- CQ_APPEND: a 64-bit store to an append port (R316). -/
def execCqAppend (q : BitVec 16) (va : W64) (s : State) : Out := .next (s.append q.toNat va none)

/-- Does an append of a thread still wait at the hub (R317)? -/
def State.appendWaits (s : State) (th : Thread) : Bool :=
  s.work.queues.any (fun e => e.2.waiting.any (fun w => w.party = some th))

/-- Must a thread's append to a queue wait: for its appends at other queues, or its requests to other packages (R316)? -/
def State.appendAfter (s : State) (th : Thread) (q : Nat) : Bool :=
  s.tlainBusy th 7 || s.work.queues.any (fun e => e.1 ≠ q && e.2.waiting.any (fun w => w.party = some th))

/-- Has a thread an access that is not performed at a scope: an append that waits at the hub, or a request to another package
that has no reply (R286, R317)? -/
def State.fenceLate (s : State) (scope : Nat) (th : Thread) : Bool := s.appendWaits th || s.tlainBusy th scope

/-- The places whose release of a scope must wait: an access of theirs is not performed yet (R246, R260, R286, R317). -/
def State.releaseHeld (s : State) (c : Issuer) (scope : Nat) (ls : List Nat) : List Nat :=
  ls.filter (fun l => s.fenceLate scope (s.threadOf c l))

/-- Send an answer to whom a read came from outside. -/
def State.respond (s : State) (b : List Byte) : State := { s with out := { s.out with answers := b :: s.out.answers } }

/-- CQ_PORT_READ: a 64-bit load of an append port returns the queue's TAIL and appends nothing (R316). -/
def execCqPortRead (q : BitVec 16) (s : State) : Out := .next (s.respond (leBytes 8 (s.queue q.toNat).tail))

/-- CQ_TIMER_NOTIFY: an entry has been un-notified for CTL_CQTIMER nanoseconds (R318). -/
def execCqTimerNotify (q : BitVec 16) (s : State) : Out :=
  let x := s.queue q.toNat
  let timer := s.pkgReg 0x129
  if x.cqOpen && timer ≠ 0 && x.unnotified ≠ 0 && x.oldest + timer ≤ s.ns then
    .next ((s.updQueue q.toNat (fun y => { y with unnotified := 0, oldest := 0 })).sendMsi x.errMsi)
  else .next s

end Sys2Proof.Machine
end

