-- ==== Sys2Proof/Machine/Convert.lean ====
section
/-! DEFINITION. Conversions between registers and scaled quantisation (R127, R178 to R184). -/

namespace Sys2Proof.Machine

/-- Is a type code a floating-point one (R81)? -/
def isFloatTy (ty : Nat) : Bool := (4 ≤ ty && ty ≤ 7) || ty = 12 || ty = 13

/-- Bits of an element of any type. -/
def tyBits (ty : Nat) : Nat := if isFloatTy ty then (fmtOf ty).width else elemBits ty

/-- The elements of a conversion: those of A that SEL names, into those of D; others keep D's bits (R178). -/
def convertElems (o : Ops) (g : Nat → Nat × Flags) (a old : W64) : W64 × Flags :=
  let st := o.c.toNat % 16
  let sel := o.c.toNat / 16 % 4
  let ns := tyCount st
  let nd := tyCount o.ty
  let n := min ns nd
  let ws := tyBits st
  let wd := tyBits o.ty
  let r := fun i => g (bitsN a.toNat ((if nd < ns then i + n * sel else i) * ws) ws)
  let first := if ns < nd then n * sel else 0
  let e := fun d => if first ≤ d && d < first + n then (r (d - first)).1 else bitsN old.toNat (d * wd) wd
  (BitVec.ofNat 64 (packElems wd ((List.range nd).map (fun d => (e d : Int)))),
    (List.range n).foldl (fun f i => f ||| (r i).2) 0)

/-- A conversion in its active places. -/
def convertAlu (g : Ops → Nat → Nat × Flags) : Alu := perValue Ops.ty (fun s c o _ l =>
  convertElems o (g o) (s.opA c o l (wideTy (o.c.toNat % 16)))
    (s.regOf c (fileD c o) o.d.toNat l (wideTy o.ty)))

/-- NS in SUB[3] (R178). -/
def cvtNarrow (o : Ops) : Narrow := if o.sub / 8 % 2 = 1 then .ns else .sat

/-- F2F of an element (R179). -/
def f2fElem (o : Ops) (x : Nat) : Nat × Flags :=
  let st := o.c.toNat % 16
  let ftz := o.sub / 16 = 1
  let v := (fmtOf st).read (ftz && ftzTy st) x
  let (b, f) := (fmtOf o.ty).round o.rm (if widens st o.ty then .arith else cvtNarrow o) (ftz && ftzTy o.ty) v
  (b, f ||| snanFlag [v])
def aluF2f : Alu := convertAlu f2fElem
/-- F2F (R179). -/
def execF2f (o : Ops) (s : State) : Out := .next (s.alu (.f2f o) aluF2f)

/-- F2I of an element (R180). -/
def f2iElem (o : Ops) (x : Nat) : Nat × Flags :=
  let st := o.c.toNat % 16
  let (i, f) := toIntType o.ty o.rm ((fmtOf st).read (o.sub / 16 = 1) x)
  (wrapInt (elemBits o.ty) i, f)
def aluF2i : Alu := convertAlu f2iElem
/-- F2I (R180). -/
def execF2i (o : Ops) (s : State) : Out := .next (s.alu (.f2i o) aluF2i)

/-- I2F of an element (R181). Beyond the range of E4M3 with .NS the result is the NaN of R133, a choice of the model where R134
and R181 admit no NaN (log 76). -/
def i2fElem (o : Ops) (x : Nat) : Nat × Flags :=
  let st := o.c.toNat % 16
  (fmtOf o.ty).round o.rm (cvtNarrow o) false (Fp.ofInt (intOf (elemBits st) (isSigned st) x))
def aluI2f : Alu := convertAlu i2fElem
/-- I2F (R181). -/
def execI2f (o : Ops) (s : State) : Out := .next (s.alu (.i2f o) aluI2f)

/-! ### CVQ and CVD (R182 to R184) -/

/-- RM, NS and DF of CVQ and CVD (R168). -/
def cvRm (o : Ops) : Nat := (o.m.extractLsb' 6 3).toNat
def cvNs (o : Ops) : Bool := o.m.getLsbD 5
def cvDf (o : Ops) : Nat := (o.m.extractLsb' 0 5).toNat

/-- The element format of a DF (R182). -/
def dfFmt (df : Nat) : Fmt :=
  match df with
  | 0 => e4m3
  | 1 => e5m2
  | 2 => e2m3
  | 3 => e3m2
  | 4 => e2m1
  | 6 => fp16
  | _ => bf16

/-- The INT8 values of the Q16N codes (R127). -/
def q16n : List Int := [-127, -95, -72, -54, -39, -26, -14, -5, 0, 6, 16, 28, 41, 57, 78, 127]

/-- The exact value of element k of a packed register. -/
def dfElem (df k : Nat) (x : W32) : Fp :=
  let w := 32 / dfCount df
  let b := bitsN x.toNat (w * k) w
  if df = 8 then Fp.ofInt (q16n.getD b 0)
  else if df = 5 then Fp.ofInt (intOf 8 true b)
  else (dfFmt df).unpack (b % 2 ^ (dfFmt df).width)

/-- The mode of element k: SR takes its part of the random word (R131). -/
def cvMode (o : Ops) (rnd : W32) (k : Nat) : RMode :=
  let n := 32 / dfCount (cvDf o)
  if cvRm o = 4 then .sr (bitsN rnd.toNat (n * k) n) n else rmode (cvRm o)

/-- CVQ of an element (R183). -/
def cvqElem (o : Ops) (x sc rnd : W32) (k : Nat) : Nat × Flags :=
  let (p, f) := (f32Val x).mul (f32Val sc)
  let fl := f ||| snanFlag [f32Val x, f32Val sc]
  let df := cvDf o
  if df = 5 then
    let (i, g) := toIntType 9 (cvMode o rnd k) p
    (wrapInt 8 i, fl ||| g)
  else
    let (b, g) := (dfFmt df).round (cvMode o rnd k) (if cvNs o then .ns else .sat) false p
    (b, fl ||| g)

/-- CVQ in its active places (R183). -/
def aluCvq : Alu := perValue (fun _ => 0) (fun s c o pv l =>
  let n := dfCount (cvDf o)
  let sc := lo32 (s.opB c o pv l 4 false)
  let rnd := lo32 (s.regOf c (fileBC c o o.cs) o.c.toNat l false)
  let rs := (List.range n).map (fun k =>
    cvqElem o (lo32 (s.regOf c (fileA c o) (o.a.toNat + k) l false)) sc rnd k)
  (BitVec.ofNat 64 (packElems (32 / n) (rs.map (fun r => (r.1 : Int)))), rs.foldl (fun f r => f ||| r.2) 0))
/-- CVQ (R183). -/
def execCvq (o : Ops) (s : State) : Out := .next (s.alu (.cvq o) aluCvq)

/-- CVD of an element (R184). -/
def cvdElem (o : Ops) (x sc : W32) (k : Nat) : Nat × Flags :=
  let v := dfElem (cvDf o) k x
  let (p, f) := v.mul (f32Val sc)
  let (b, g) := fp32.round (rmode (cvRm o)) .arith false p
  (b, f ||| g ||| snanFlag [v, f32Val sc])

/-- CVD in its active places (R184). -/
def aluCvd : Alu := perLane (fun s c o pv l =>
  let n := dfCount (cvDf o)
  let sc := lo32 (s.opB c o pv l 4 false)
  let x := lo32 (s.opA c o l false)
  let rs := (List.range n).map (fun k => (k, cvdElem o x sc k))
  (rs.flatMap (fun r => resWrites (fileD c o) (o.d.toNat + r.1) l 4 false (BitVec.ofNat 64 r.2.1)),
    rs.foldl (fun f r => f ||| r.2.2) 0))
/-- CVD (R184). -/
def execCvd (o : Ops) (s : State) : Out := .next (s.alu (.cvd o) aluCvd)

end Sys2Proof.Machine
end

