-- ==== Sys2Proof/Machine/Ring.lean ====
section
/-! DEFINITION. Ring descriptors and their four transitions (R218 to R220). -/

namespace Sys2Proof.Machine

/-- A ring descriptor as it stands in the share (R218). -/
structure Ring where
  base : Nat
  slotsz : Nat
  nslots : Nat
  allow : Nat
  fill : Nat
  resv : Nat
  takn : Nat
  putix : Nat
  getix : Nat
  pcode : Nat
  ccode : Nat
  valid : Bool
  /-- A reserved byte is not zero. -/
  extra : Bool
deriving DecidableEq, Repr, Inhabited

/-- The transitions (R219). -/
inductive RingOp where
  | reserve | commit | take | ret
deriving DecidableEq, Repr, Inhabited

/-- The declaration of a ring number in a block's image. -/
def Block.ringDecl (b : Block) (num : Nat) : Option RingDecl := b.img.rings.find? (fun r => r.number = num)

/-- Read a descriptor. -/
def Block.readRing (b : Block) (off : Nat) : Ring :=
  let n := fun k w => b.scratchNat (off + k) w
  { base := n 0 4, slotsz := n 4 2, nslots := n 6 2, allow := n 8 2, fill := n 10 2, resv := n 12 2, takn := n 14 2
    putix := n 16 2, getix := n 18 2, pcode := n 20 1 % 4, ccode := n 21 1 % 4, valid := n 22 1 % 2 = 1
    extra := (List.range 40).any (fun k => b.scratchAt (off + 24 + k) ≠ 0) }

/-- Is a descriptor well formed (R220)? -/
def Ring.ok (r : Ring) : Bool :=
  r.valid && r.nslots ≠ 0 && !r.extra && decide (r.putix < r.nslots) && decide (r.getix < r.nslots)
    && r.allow + r.resv + r.fill + r.takn = r.nslots

/-- What a transition comes to. -/
inductive RingRes where
  | refused
  /-- It waits on a producer or consumer of a class code. -/
  | waits (code : Nat)
  | done (r : Ring) (slot : Nat)
deriving DecidableEq, Repr, Inhabited

/-- A transition of a descriptor (R219, R220). -/
def Ring.step (r : Ring) (op : RingOp) : RingRes :=
  if !r.ok then .refused
  else match op with
    | .reserve =>
      if r.allow = 0 then .waits r.ccode
      else .done { r with allow := r.allow - 1, resv := r.resv + 1, putix := (r.putix + 1) % r.nslots } r.putix
    | .commit => if r.resv = 0 then .refused else .done { r with resv := r.resv - 1, fill := r.fill + 1 } 0
    | .take =>
      if r.fill = 0 then .waits r.pcode
      else .done { r with fill := r.fill - 1, takn := r.takn + 1, getix := (r.getix + 1) % r.nslots } r.getix
    | .ret => if r.takn = 0 then .refused else .done { r with takn := r.takn - 1, allow := r.allow + 1 } 0

/-- Write a descriptor's counts. -/
def Block.writeRing (b : Block) (off : Nat) (r : Ring) : Block :=
  b.scratchPut (off + 8) (leBytes 2 r.allow ++ leBytes 2 r.fill ++ leBytes 2 r.resv ++ leBytes 2 r.takn
    ++ leBytes 2 r.putix ++ leBytes 2 r.getix)

/-- The descriptor of a ring number, when the image declares it. -/
def State.ringAt (s : State) (g b num : Nat) : Option (Nat × Ring) :=
  ((s.block g b).ringDecl num).map (fun d => (d.desc, (s.block g b).readRing d.desc))

/-- What a transition of a block's ring comes to. -/
def State.ringTry (s : State) (g b num : Nat) (op : RingOp) : RingRes :=
  match s.ringAt g b num with
  | none => .refused
  | some (_, r) => r.step op

/-- Perform a transition: the state and the slot. -/
def State.ringDo (s : State) (g b num : Nat) (op : RingOp) : Option (State × Nat) :=
  match s.ringAt g b num with
  | none => none
  | some (off, r) =>
    match r.step op with
    | .done r' slot => some (s.updBlock g b (fun x => x.writeRing off r'), slot)
    | _ => none

/-- The offset of a slot. -/
def Ring.slotOff (r : Ring) (slot : Nat) : Nat := r.base + 64 * r.slotsz * slot

/-- RING_FAULT raised by some places (R220). -/
def ringFault (ls : List Nat) (num : Nat) : Fail := { code := 13, lanes := ls, info := BitVec.ofNat 64 num }

/-- A waiting RESERVE or TAKE of some places: legal by R26, or ILLEGAL_WAIT (R219). -/
def State.ringWait (s : State) (c : Issuer) (ls : List Nat) (num code : Nat) (op : RingOp) (o : Ops) : Eff :=
  match ls.filter (fun l => !s.waitLegal c l code none) with
  | l :: r => .fail { code := 5, lanes := l :: r, info := BitVec.ofNat 64 (code + 4 * num) }
  | [] => .go (s.blockOn c ls 6 (.ring (num + (if op = .take then 32 else 0))) o.form.bytes o.sw false) ls

end Sys2Proof.Machine
end

