-- ==== Sys2Proof/Machine/Copy.lean ====
section
/-! DEFINITION. The tensor copy engine: descriptors, conversions, and the run of a command (R126 to R129, R221 to R228). -/

namespace Sys2Proof.Machine

/-! ### Descriptors (R223 to R225, R364) -/

/-- A TCOPY descriptor. -/
structure Desc where
  src : Nat
  dst : Nat
  sscale : Nat
  dscale : Nat
  ctr : Nat
  inc : Nat
  dir : Nat
  sfmt : Nat
  dfmt : Nat
  ndim : Nat
  flags : Nat
  scope : Nat
  mcast : Nat
  ext : List Nat
  str : List Nat
  /-- A reserved byte, or a field of a dimension beyond NDIM, is not zero. -/
  extra : Bool
deriving DecidableEq, Repr, Inhabited

/-- The fields of 256 bytes (R223). -/
def parseDesc (b : List Byte) : Desc :=
  let n := fun k w => leNat ((b.drop k).take w)
  let nd := n 51 1
  { src := n 0 8, dst := n 8 8, sscale := n 16 8, dscale := n 24 8, ctr := n 32 8, inc := n 40 8, dir := n 48 1
    sfmt := n 49 1, dfmt := n 50 1, ndim := nd, flags := n 52 1, scope := n 53 1, mcast := n 56 4
    ext := (List.range (min nd 16)).map (fun d => n (64 + 12 * d) 4)
    str := (List.range (min nd 16)).map (fun d => n (68 + 12 * d) 8)
    extra := n 54 2 ≠ 0 || n 60 4 ≠ 0 || ((b.drop (64 + 12 * min nd 16)).take (192 - 12 * min nd 16)).any (· ≠ 0) }

def Desc.acq (d : Desc) : Bool := d.flags % 2 = 1
def Desc.rel (d : Desc) : Bool := d.flags / 2 % 2 = 1
def Desc.canon (d : Desc) : Bool := d.flags / 4 % 2 = 1
/-- Extent of dimension k, 1 beyond NDIM. -/
def Desc.e (d : Desc) (k : Nat) : Nat := d.ext.getD k 1

/-- Bits of an element code (R224). -/
def copyBits (f : Nat) : Nat :=
  if f ≤ 1 then 16 else if f ≤ 4 then 8 else if f = 5 then 4 else if f = 6 || f = 14 then 32
  else if f = 9 || f = 10 then 6 else if f = 11 || f = 13 then 4 else 8

/-- Is a format an MX one? -/
def isMx (f : Nat) : Bool := 7 ≤ f && f ≤ 12

/-- Element bytes of an MX unit (R125). -/
def unitBytes (f : Nat) : Nat := 4 * copyBits f

/-- Bits of a run of n elements; a Q16N run is whole super-blocks (R128). -/
def runBits (f n : Nat) : Nat := if f = 13 then 4352 * (n / 1024) else copyBits f * n

/-- Elements of a canonical K-row (R221). -/
def krowLen (f : Nat) : Nat := if f ≤ 1 then 32 else if f = 5 then 128 else 64

/-- The admitted pairs of formats (R224). -/
def Desc.pairOk (d : Desc) : Bool :=
  if d.canon then
    d.dir = 0 && ((d.sfmt ≤ 5 && d.dfmt = d.sfmt) || (d.sfmt = 6 && d.dfmt ≤ 1)
      || (isMx d.sfmt && d.dfmt = [2, 3, 2, 2, 5, 4].getD (d.sfmt - 7) 99) || (d.sfmt = 13 && d.dfmt = 4))
  else
    d.sfmt = d.dfmt || (1 ≤ d.dir && d.sfmt = 6 && (d.dfmt ≤ 1 || isMx d.dfmt))

/-- A refused value of R223 to R225. -/
def Desc.refused (d : Desc) : Bool :=
  d.extra || decide (2 < d.dir) || decide (15 < d.sfmt) || decide (15 < d.dfmt) || d.ndim = 0 || decide (16 < d.ndim)
    || decide (7 < d.flags) || decide (7 < d.scope) || decide (2 ^ 20 ≤ d.mcast) || d.str.headD 0 ≠ 0
    || d.inc = 0 || decide (2 ^ 63 ≤ d.inc) || !d.pairOk
    || ((isMx d.sfmt || isMx d.dfmt) && d.e 0 % 32 ≠ 0) || (d.sfmt = 13 && d.e 0 % 1024 ≠ 0)
    || (d.canon && d.e 0 % krowLen d.dfmt ≠ 0)

/-- Alignment of the global side by its format (R364). -/
def globalAlign (f : Nat) : Nat :=
  if f = 13 then 32 else if isMx f then 8 else if f = 6 || f = 14 then 4 else if f ≤ 1 then 2 else 1

/-- The formats of the source and destination that lie in global memory. -/
def Desc.globals (d : Desc) : List (Nat × Nat) :=
  (if d.dir = 0 || d.dir = 2 then [(d.src, d.sfmt)] else []) ++ (if d.dir = 1 || d.dir = 2 then [(d.dst, d.dfmt)] else [])

/-- A misaligned field (R364); `base` is the scratchpad side's base. -/
def Desc.misaligned (d : Desc) (base : Nat) : Bool :=
  d.globals.any (fun g => g.1 % globalAlign g.2 ≠ 0 || (d.str.drop 1).any (fun t => t % globalAlign g.2 ≠ 0))
    || (d.dir ≠ 2 && base % (if d.canon then 64 else 4) ≠ 0)
    || (d.sscale % 4 ≠ 0 && d.canon && 2 ≤ d.sfmt && d.sfmt ≤ 5) || d.ctr % 16 ≠ 0

/-- Rows of the global side: the runs of dimension 0. -/
def Desc.rows (d : Desc) : Nat := (d.ext.drop 1).foldl (· * ·) 1

/-- K-rows along dimension 0. -/
def Desc.nq (d : Desc) : Nat := d.e 0 / krowLen d.dfmt

/-- K-rows in all. -/
def Desc.krows (d : Desc) : Nat := d.nq * d.rows

/-- K-groups of a K-row that have scales: none for the 16-bit types (R222). -/
def Desc.gs (d : Desc) : Nat := if d.dfmt ≤ 1 then 0 else krowLen d.dfmt / 32

/-- Bytes the command touches on the scratchpad side. -/
def Desc.span (d : Desc) : Nat :=
  if d.e 0 * d.rows = 0 then 0
  else if d.canon then 64 * d.krows + 4 * d.krows * d.gs
  else (runBits (if d.dir = 0 then d.dfmt else d.sfmt) (d.e 0) * d.rows + 7) / 8

/-- The scratchpad side's base as the descriptor gives it. -/
def Desc.padBase (d : Desc) : Nat := (if d.dir = 0 then d.dst else d.src) % 2 ^ 32

/-- Global offset of row j (R225). -/
def rowOff : List Nat → List Nat → Nat → Nat
  | e :: es, t :: ts, j => (j % max e 1) * t + rowOff es ts (j / max e 1)
  | _, _, _ => 0

/-- Global offset of row j. -/
def Desc.rowAt (d : Desc) (j : Nat) : Nat := rowOff (d.ext.drop 1) (d.str.drop 1) j

/-! ### Reading and writing the sides -/

/-- A side: its global address, with whether it holds MX units, or the share of a block. -/
inductive Side2 where
  | mem (asp : Nat) (base : Nat) (mx : Bool)
  | pad (g b : Nat) (base : Nat)
deriving DecidableEq, Repr, Inhabited

/-- Read bytes of a side. -/
def State.sideRead (s : State) (g : Nat) (x : Side2) (off n : Nat) : State × Got (List Byte × Bool) :=
  match x with
  | .mem asp base mx => s.rd asp (BitVec.ofNat 64 (base + off)) n (some g) mx
  | .pad g b base => (s, .ok ((s.block g b).scratchBytes (base + off) n, false))

/-- Write bytes of a side. -/
def State.sideWrite (s : State) (g : Nat) (x : Side2) (off : Nat) (b : List Byte) : State × Got PUnit :=
  match x with
  | .mem asp base mx => s.wrt asp (BitVec.ofNat 64 (base + off)) b (some g) mx
  | .pad g k base => (s.updBlock g k (fun y => y.scratchPut (base + off) b), .ok .unit)

/-- Read a bit string of a side. -/
def State.sideBits (s : State) (g : Nat) (x : Side2) (pos n : Nat) : State × Got (Nat × Bool) :=
  match s.sideRead g x (pos / 8) ((pos % 8 + n + 7) / 8) with
  | (s, .ok (b, p)) => (s, .ok (leNat b / 2 ^ (pos % 8) % 2 ^ n, p))
  | (s, .fail v a r) => (s, .fail v a r)

/-- Write a bit string of a side; bits of a byte outside it stay. -/
def State.sideSetBits (s : State) (g : Nat) (x : Side2) (pos n v : Nat) : State × Got PUnit :=
  let k := (pos % 8 + n + 7) / 8
  if pos % 8 = 0 && n % 8 = 0 then s.sideWrite g x (pos / 8) (leBytes k v)
  else match s.sideRead g x (pos / 8) k with
    | (s, .ok (b, _)) =>
      let o := leNat b
      let low := o % 2 ^ (pos % 8)
      let high := o / 2 ^ (pos % 8 + n) * 2 ^ (pos % 8 + n)
      s.sideWrite g x (pos / 8) (leBytes k (low + v % 2 ^ n * 2 ^ (pos % 8) + high))
    | (s, .fail v a r) => (s, .fail v a r)

/-! ### Conversions -/

/-- The floating format of a code. -/
def copyFmt (f : Nat) : Fmt :=
  match f with
  | 0 => bf16
  | 1 => fp16
  | 2 | 7 => e4m3
  | 3 | 8 => e5m2
  | 5 | 11 => e2m1
  | 9 => e2m3
  | 10 => e3m2
  | _ => fp32

/-- The flags that the copy engine ORs (R137). -/
def copyFlags (f : Flags) : Flags := f &&& (flNV ||| flOF ||| flSAT)

/-- FP32 to a 16-bit format: RNE, satfinite (R133, R224). -/
def packElem (f x : Nat) : Nat × Flags :=
  let v := fp32.unpack x
  let (b, g) := (copyFmt f).round .rne .sat false v
  (b, g ||| snanFlag [v])

/-- FP32 to an element of an MX unit of scale code e (R224). -/
def mxElem (f e x : Nat) : Nat × Flags :=
  let v := fp32.unpack x
  if e = 255 then
    (if f = 12 then (0, flNV) else (copyFmt f).round .rne .sat false (.nan false))
  else if f = 12 then
    let (i, g) := toIntType 9 .rne (v.mul (.fin false 1 (133 - e))).1
    (wrapInt 8 i, g)
  else
    let (b, g) := (copyFmt f).round .rne .sat false (v.mul (.fin false 1 (127 - e))).1
    (b, g ||| snanFlag [v])

/-- The FP32 scale of an E8M0 code for a canonical tile (R126). -/
def mxScale (f e : Nat) : W32 :=
  if e = 255 then nan32 else (roundF32 (.fin false 1 ((e : Int) - (if f = 12 then 133 else 127)))).1

/-- The canonical code of a source element (R126, R127, R224). -/
def canonElem (d : Desc) (x : Nat) : Nat × Flags :=
  if d.sfmt = 6 then packElem d.dfmt x
  else if d.sfmt = 9 || d.sfmt = 10 then ((e4m3.round .rne .sat false ((copyFmt d.sfmt).unpack x)).1, 0)
  else if d.sfmt = 13 then (wrapInt 8 (q16n.getD x 0), 0)
  else (x, 0)

/-- scale(b) of a Q16N block (R129). -/
def q16Scale (s8 : Nat) (sup : W32) : W32 × Flags :=
  let v := f32Val sup
  let (p, f) := v.mul (.fin false s8 (-7))
  let (r, g) := roundF32 p
  (r, f ||| g ||| snanFlag [v])

/-- The bytes of a K-row from its codes (R221). -/
def krowBytes (f r : Nat) (codes : List Nat) : List Byte :=
  let x := leBytes 64 (packElems (copyBits f) (codes.map Int.ofNat))
  (List.range 4).flatMap (fun c => (x.drop (16 * (c ^^^ (r % 4)))).take 16)

/-- What a chunk comes to: bytes to write on the scratchpad side or at the global side, flags, and a poisoned address. -/
structure Chunk where
  writes : List (Nat × Nat × Nat) := []
  flags : Flags := 0
  poison : Option W64 := none
deriving Repr, Inhabited

/-- The source side of a command. -/
def srcSide (d : Desc) (asp g b base : Nat) : Side2 := if d.dir = 1 then .pad g b base else .mem asp d.src (isMx d.sfmt)

/-- The codes of n elements from element i of row j of a global source, with what gives their scales. -/
def State.readCodes (s : State) (g : Nat) (x : Side2) (f pos n : Nat) : State × Got (List Nat × Bool) :=
  match s.sideBits g x pos (copyBits f * n) with
  | (s, .ok (v, p)) => (s, .ok ((List.range n).map (fun k => bitsN v (copyBits f * k) (copyBits f)), p))
  | (s, .fail v a r) => (s, .fail v a r)

/-- A 32-bit word or byte at a global address; the scale of an MX unit is part of the unit's access (R227, R252). -/
def State.readMem (s : State) (g asp a n : Nat) (mx : Bool := false) : State × Got (Nat × Bool) :=
  match s.rd asp (BitVec.ofNat 64 a) n (some g) mx with
  | (s, .ok (b, p)) => (s, .ok (leNat b, p))
  | (s, .fail v a r) => (s, .fail v a r)

/-- The scales of the K-groups of a K-row: words, flags, poison (R224, R225). -/
def State.canonScales (s : State) (g asp : Nat) (d : Desc) (j kq : Nat) (n : Nat) : State × Got (List W32 × Flags × Bool) :=
  match n with
  | 0 => (s, .ok ([], 0, false))
  | m + 1 =>
    match s.canonScales g asp d j kq m with
    | (s, .fail v a r) => (s, .fail v a r)
    | (s, .ok (ws, fl, p)) =>
      let grp := kq * d.gs + m
      let add := fun (x : State × Got (Nat × Bool)) (w : Nat → W32 × Flags) =>
        match x with
        | (s, .ok (v, q)) => (s, Got.ok (ws ++ [(w v).1], fl ||| (w v).2, p || q))
        | (s, .fail v a r) => (s, Got.fail v a r)
      if isMx d.sfmt then
        add (s.readMem g asp (d.sscale + (d.rowAt j + unitBytes d.sfmt * grp) / unitBytes d.sfmt) 1 true)
          (fun e => (mxScale d.sfmt e, 0))
      else if d.sfmt = 13 then
        let sb := d.src + d.rowAt j + 544 * (grp / 32)
        match s.readMem g asp sb 4 with
        | (s, .fail v a r) => (s, .fail v a r)
        | (s, .ok (w, q)) =>
          match add (s.readMem g asp (sb + 4 + grp % 32 / 2) 1) (fun s8 => q16Scale s8 (BitVec.ofNat 32 w)) with
          | (s, .ok (ws, fl, p)) => (s, .ok (ws, fl, p || q))
          | r => r
      else if d.sscale = 0 then (s, .ok (ws ++ [0x3F800000], fl, p))
      else add (s.readMem g asp (d.sscale + 4 * (grp + d.e 0 / 32 * j)) 4) (fun w => (BitVec.ofNat 32 w, 0))

/-- A canonical chunk: K-row kq of row j, as writes of offset, bytes and value. -/
def State.canonChunk (s : State) (g asp : Nat) (d : Desc) (j kq : Nat) : State × Got Chunk :=
  let k := krowLen d.dfmt
  let r := j % d.e 1 + d.e 1 * (kq + d.nq * (j / d.e 1))
  let pos := if d.sfmt = 13 then 4352 * (kq / 16) + 256 + 256 * (kq % 16) else copyBits d.sfmt * k * kq
  match s.readCodes g (.mem asp (d.src + d.rowAt j) (isMx d.sfmt)) d.sfmt pos k with
  | (s, .fail v a r) => (s, .fail v a r)
  | (s, .ok (cs, p)) =>
    match s.canonScales g asp d j kq d.gs with
    | (s, .fail v a r) => (s, .fail v a r)
    | (s, .ok (ws, fl, q)) =>
      let es := cs.map (canonElem d)
      let bad := p || q
      let row := krowBytes d.dfmt r (if bad then [] else es.map (·.1))
      let sc := ws.zipIdx.map (fun w => (64 * d.krows + 4 * (r * d.gs + w.2), 4, w.1.toNat))
      (s, .ok { writes := (64 * r, 64, leNat row) :: sc, flags := es.foldl (fun f e => f ||| e.2) fl
                poison := if bad then some (BitVec.ofNat 64 (d.src + d.rowAt j + pos / 8)) else none })

/-- The bits of a chunk of a dense side: 128 source bytes, or the whole MX units among them, which no chunk splits (R227,
log 76). -/
def Desc.chunkBits (d : Desc) : Nat := if isMx d.sfmt then 1024 / (8 * unitBytes d.sfmt) * (8 * unitBytes d.sfmt) else 1024

/-- A chunk of a dense or global destination: chunk k of row j, as writes of bit position, bits and value. Poison in the line of a
DSCALE byte is no poisoned source (log 79). -/
def State.plainChunk (s : State) (g asp : Nat) (d : Desc) (src : Side2) (j k : Nat) : State × Got Chunk :=
  let rb := runBits d.sfmt (d.e 0)
  let cb := d.chunkBits
  let n := min cb (rb - cb * k)
  let from_ := (if d.dir = 1 then j * rb else 8 * d.rowAt j) + cb * k
  match s.sideBits g src from_ n with
  | (s, .fail v a r) => (s, .fail v a r)
  | (s, .ok (v, p)) =>
    let poison := if p then some (BitVec.ofNat 64 (d.src + from_ / 8)) else none
    let v := if p then 0 else v
    if d.sfmt = d.dfmt then
      let to_ := (if d.dir = 0 then j * rb else 8 * d.rowAt j) + cb * k
      (s, .ok { writes := [(to_, n, v)], poison := poison })
    else
      let xs := (List.range (n / 32)).map (fun i => bitsN v (32 * i) 32)
      let w := copyBits d.dfmt
      let out := fun (es : List (Nat × Flags)) => Chunk.mk
        [(8 * d.rowAt j + w * 32 * k, w * es.length, packElems w (es.map (fun e => ((if p then 0 else e.1 : Nat) : Int))))]
        (es.foldl (fun f e => f ||| e.2) 0) poison
      if isMx d.dfmt then
        match s.readMem g asp (d.dscale + (d.rowAt j + unitBytes d.dfmt * k) / unitBytes d.dfmt) 1 true with
        | (s, .fail v a r) => (s, .fail v a r)
        | (s, .ok (e, _)) => (s, .ok (out (xs.map (mxElem d.dfmt e))))
      else (s, .ok (out (xs.map (packElem d.dfmt))))

/-! ### The run of a command (R227, R228) -/

/-- Chunks of a row. -/
def Desc.perRow (d : Desc) : Nat := if d.canon then d.nq else (runBits d.sfmt (d.e 0) + d.chunkBits - 1) / d.chunkBits

/-- Chunks of a command. -/
def Desc.chunks (d : Desc) : Nat := if d.e 0 = 0 then 0 else d.perRow * d.rows

/-- Perform some writes at a side; they stop at the first that fails. -/
def State.putChunk (s : State) (g : Nat) (x : Side2) (bits : Bool) : List (Nat × Nat × Nat) → State × Got PUnit
  | [] => (s, .ok .unit)
  | (o, n, v) :: r =>
    match (if bits then s.sideSetBits g x o n v else s.sideWrite g x o (leBytes n v)) with
    | (s, .ok _) => State.putChunk s g x bits r
    | e => e

/-- The sides a command writes. -/
def CopyCmd.dests (q : CopyCmd) (d : Desc) (asp : Nat) : List Side2 :=
  if d.dir = 0 then q.targets.map (fun t => .pad t.1 t.2.1 t.2.2) else [.mem asp d.dst (isMx d.dfmt)]

/-- Write a chunk to every side. -/
def State.putAll (s : State) (g : Nat) (bits : Bool) (ws : List (Nat × Nat × Nat)) : List Side2 → State × Got PUnit
  | [] => (s, .ok .unit)
  | x :: r =>
    match s.putChunk g x bits ws with
    | (s, .ok _) => State.putAll s g bits ws r
    | e => e

/-- Change the command at the head of a cluster's queue. -/
def State.updCopy (s : State) (g : Nat) (f : CopyCmd → CopyCmd) : State :=
  s.updCl g (fun c => { c with copyQ := match c.copyQ with | q :: r => f q :: r | [] => [] })

/-- An asynchronous cause of an engine command; one of UNIT 2 has the matrix sequencer's PC (R292, R293, R296). -/
def State.engineCause (s : State) (g b code unit : Nat) (addr info : W64) : State :=
  let pc := if unit = 2 then (s.seqr g false).pc else 0
  s.postCause g b { code := code, addr := addr, info := info, unit := unit, pc := pc, async := true }

/-- A COMMIT or RETURN at a command's end; a refused one raises RING_FAULT in the issuing block (R220). -/
def State.endRing (s : State) (g b num : Nat) (op : RingOp) (gi bi unit : Nat) : State × Bool :=
  match s.ringDo g b num op with
  | some (t, _) => (t, true)
  | none => (s.engineCause gi bi 13 unit 0 (BitVec.ofNat 64 num), false)

/-- A command ends: its ring transitions, its counter, and its sequencer (R227, R228). -/
def State.copyEnd (s : State) (g : Nat) (q : CopyCmd) (poison : Bool) : State :=
  let d := parseDesc q.desc
  let s := (s.updCl g (fun c => { c with copyQ := c.copyQ.drop 1 })).seqCounted g q.seq
  let (s, bad) := match q.ring with
    | none => (s, false)
    | some n =>
      let own := if d.dir = 0 then [(g, q.blk)] else []
      let all : List (Nat × Nat) :=
        if d.dir = 0 then own ++ (q.targets.filter (fun (t : Nat × Nat × Nat) => !(t.1 = g && t.2.1 = q.blk))).map (fun (t : Nat × Nat × Nat) => (t.1, t.2.1))
        else [(g, q.blk)]
      all.foldl (fun ((s : State), (bad : Bool)) (t : Nat × Nat) =>
        let (s, ok) := s.endRing t.1 t.2 n (if d.dir = 0 then .commit else .ret) g q.blk 4
        (s, bad || !ok)) (s, false)
  let s := match q.ctr with
    | some pa => s.ctrAdvance pa d.inc (poison || bad || q.poison)
    | none => s
  s.seqCommandDone g q.seq

/-- The blocks of a launch on a cluster. -/
def State.blocksOf (s : State) (g lnum : Nat) : List Nat :=
  ((s.cl g).blocks.filter (fun e => e.2.lnum = lnum && !e.2.aborted)).map (·.1)

/-- The shares a multicast names: those of every block of the launch on each named cluster of the die (R227). -/
def State.mcastBlocks (s : State) (g b : Nat) (mask : Nat) : List (Nat × Nat) :=
  let lnum := (s.block g b).lnum
  (List.range 20).flatMap (fun k =>
    if bitsN mask k 1 = 1 then (s.blocksOf (dieOf g * 20 + k) lnum).map (fun x => (dieOf g * 20 + k, x)) else [])

/-- Reserve a slot in each other block's ring; none when one of them must wait. A refused ring is left out, with
RING_FAULT in the issuing block and poison for the command's counter: the last Bool (R220). -/
def State.reserveAll (s : State) (g b num : Nat) : List (Nat × Nat) → Option (State × List (Nat × Nat × Nat) × Bool)
  | [] => some (s, [], false)
  | (h, k) :: r =>
    let refuse := fun (s : State) =>
      (State.reserveAll (s.engineCause g b 13 4 0 (BitVec.ofNat 64 num)) g b num r).map (fun x => (x.1, x.2.1, true))
    match s.ringAt h k num with
    | none => refuse s
    | some (off, x) =>
      match x.step .reserve with
      | .waits _ => none
      | .refused => refuse s
      | .done y slot =>
        match State.reserveAll (s.updBlock h k (fun z => z.writeRing off y)) g b num r with
        | some (t, ts, bad) => some (t, (h, k, x.slotOff slot) :: ts, bad)
        | none => none

/-- A command begins: its acquire, and the slots of a multicast; none while a ring has no room. -/
def State.copyBegin (s : State) (g : Nat) (q : CopyCmd) : Option State :=
  if q.begun then some s
  else
    let d := parseDesc q.desc
    let s := if d.acq then s.acquire g d.scope else s
    let base := q.base.getD d.padBase
    let all : List (Nat × Nat) := if d.mcast = 0 then [(g, q.blk)] else s.mcastBlocks g q.blk d.mcast
    let res : Option (State × List (Nat × Nat × Nat) × Bool) := match q.ring with
      | some n =>
        if d.dir = 0 && d.mcast ≠ 0 then
          (s.reserveAll g q.blk n (all.filter (fun t => t ≠ (g, q.blk)))).map (fun r =>
            (r.1, (if all.contains (g, q.blk) then [(g, q.blk, base)] else []) ++ r.2.1, r.2.2))
        else some (s, [(g, q.blk, base)], false)
      | none => some (s, all.map (fun t => (t.1, t.2, base)), false)
    res.map (fun r =>
      if (r.1.block g q.blk).aborted then r.1
      else r.1.updCopy g (fun x => { x with begun := true, targets := r.2.1, poison := x.poison || r.2.2 }))

/-- One chunk of the command at the head. False when it parks, ends or must wait. -/
def State.copyChunk (s : State) (g : Nat) (q : CopyCmd) : State × Bool :=
  let d := parseDesc q.desc
  let asp := (s.block g q.blk).aspace
  let j := q.chunk / max d.perRow 1
  let k := q.chunk % max d.perRow 1
  let base := q.base.getD d.padBase
  let park := fun (s : State) (v : W64) (a : Access) (r : Nat) =>
    if r = 6 then (s, false)
    else if r = 0 then ((s.copyEnd g q true).engineCause g q.blk 9 4 v 0xFFFF, false)
    else ((s.updCopy g (fun x => { x with parked := true })).recordFault (dieOf g) asp v a r [.copy g], false)
  let got := if d.canon then s.canonChunk g asp d j k else s.plainChunk g asp d (srcSide d asp g q.blk base) j k
  match got with
  | (s, .fail v a r) => park s v a r
  | (s, .ok c) =>
    match s.putAll g (!d.canon) c.writes (q.dests d asp) with
    | (s, .fail v a r) => park s v a r
    | (s, .ok _) =>
      let s := s.orBlockFlags g q.blk (copyFlags c.flags)
      let s := s.updCopy g (fun x => { x with chunk := x.chunk + 1, poison := x.poison || c.poison.isSome })
      let s := match c.poison with
        | some a => if q.poison then s else s.engineCause g q.blk 14 4 a q.addr
        | none => s
      (s, !(s.block g q.blk).aborted)

/-- Must a command whose chunks are written wait: with REL, for a write of its engine that is not performed at SCOPE, at another
package or in stack 15 (R227, R253, R286)? -/
def State.copyLate (s : State) (g : Nat) (q : CopyCmd) : Bool :=
  let d := parseDesc q.desc
  d.rel && ((engineThread (some g)).any (fun t => s.tlainBusy t d.scope) || (decide (4 ≤ d.scope) && !s.out.posted.isEmpty))

/-- The rest of the command at the head of a cluster's queue. -/
def State.copyRun (fuel : Nat) (s : State) (g : Nat) : State :=
  match fuel with
  | 0 => s
  | f + 1 =>
    match (s.cl g).copyQ with
    | [] => s
    | q :: _ =>
      if (parseDesc q.desc).chunks ≤ q.chunk then (if s.copyLate g q then s else s.copyEnd g q false)
      else match s.copyChunk g q with
        | (s, true) => State.copyRun f s g
        | (s, false) => s

/-- TCOPY_COMPLETION: the engine runs its oldest command to its end, or until it parks (R227, log 21). -/
def execTcopyCompletion (g : Nat) (s : State) : Out :=
  match (s.cl g).copyQ with
  | [] => .next s
  | q :: _ =>
    if q.parked || (s.block g q.blk).saving then .next s
    else match s.copyBegin g q with
      | none => .next s
      | some s =>
        .next (if (s.block g q.blk).aborted then s else s.copyRun ((parseDesc q.desc).chunks - q.chunk + 1) g)

end Sys2Proof.Machine
end

