-- ==== Sys2Proof/Machine/Capacity.lean ====
section
/-! DEFINITION. The sets and ways of the L1s and of the slices of the L2s, and what leaves a set that is full (R191, R356). -/

namespace Sys2Proof.Machine

/-! ### The L1s: 128 sets of 16 ways -/

/-- The lines of a cluster's L1 in the set of a line; the set is the line's low bits (log 77). -/
def Memory.l1Set (m : Memory) (g line : Nat) : List Nat :=
  m.l1.keys.filter (fun k => k / 2 ^ 45 = g && k % 128 = line % 128)

/-- The first of some candidates that may leave a set: those allocated with .STRM, when there are any (R197). -/
def firstOut (strm : Nat → Bool) (ks : List Nat) : List Nat :=
  match ks.filter strm with
  | [] => ks
  | xs => xs

/-- One line leaves a set of an L1 that holds more than 16. -/
def State.trimL1 (s : State) (k : Nat) : State :=
  let all := s.mem.l1Set (k / 2 ^ 45) (k % 2 ^ 45)
  if all.length ≤ 16 then s
  else
    let ks := firstOut (fun v => (s.mem.l1.get v {}).strm) all
    let v := ks.getD (Config.victim s.ticks k % ks.length) k
    s.flushL1 (v / 2 ^ 45) (v % 2 ^ 45)

/-! ### The L2s: 16 slices of 1,024 sets of 16 ways -/

/-- The slice of a line, PA[10:7] xor PA[18:15]. -/
def l2Slice (line : Nat) : Nat := (line % 16) ^^^ (line / 256 % 16)
/-- The set of a line in its slice, by the bits above PA[10:7] (log 77). -/
def l2Set (line : Nat) : Nat := line / 16 % 1024

/-- Is a way of a die's slice in service (R356)? -/
def State.wayOn (s : State) (die slice way : Nat) : Bool := !s.out.ways.contains ((16 * die + slice) * 16 + way)

/-- The lines that an agent holds in a set of a slice, and the way of each. -/
def Memory.l2Ways (m : Memory) (slot slice set : Nat) : Map Nat :=
  (m.cache.filter (fun e => e.1 / 2 ^ 45 = slot && l2Slice (e.1 % 2 ^ 45) = slice && l2Set (e.1 % 2 ^ 45) = set)).map
    (fun e => (e.1, e.2.way))

/-- A line of an L2 takes a way. -/
def State.putWay (s : State) (slot line way : Nat) : State :=
  s.updMem (fun m => match m.cline slot line with
    | some c => m.setCline slot line { c with way := way }
    | none => m)

/-- A line that has come into an L2 takes a free way of its set, or the way of a line that leaves; with every way disabled it
leaves itself. -/
def State.placeL2 (s : State) (slot line : Nat) : State :=
  let die := slot % 16
  let held := s.mem.l2Ways slot (l2Slice line) (l2Set line)
  let on := (List.range 16).filter (s.wayOn die (l2Slice line))
  match on.find? (fun w => !held.vals.contains w) with
  | some w => s.putWay slot line w
  | none =>
    match on with
    | [] => s.evictAgent slot line
    | w :: _ =>
      let strm := fun v => held.any (fun (e : Nat × Nat) => e.2 = v && (s.mem.cache.get e.1 {}).strm)
      let ks := firstOut strm on
      let way := ks.getD (Config.victim s.ticks (agKey slot line) % ks.length) w
      match List.find? (fun (e : Nat × Nat) => e.2 = way) held with
      | some e => (s.evictAgent slot (e.1 % 2 ^ 45)).putWay slot line way
      | none => s.putWay slot line way

/-- A line without a way takes one. -/
def State.trimL2 (s : State) (k : Nat) : State :=
  let slot := k / 2 ^ 45
  match s.mem.cache.find? k with
  | some c => if c.way = 16 && slot % 16 < 8 && s.isOwnAgent slot then s.placeL2 slot (k % 2 ^ 45) else s
  | none => s

/-- Every set holds no more than its ways. -/
def State.trim (s : State) : State :=
  let s := s.mem.l1.keys.foldl State.trimL1 s
  s.mem.cache.keys.foldl State.trimL2 s

/-- The lines of a way of a slice leave, dirty data first (R356). -/
def State.emptyWay (s : State) (n : Nat) : State :=
  let slot := s.agentId (n / 256)
  let mine := fun (e : Nat × CLine) => e.1 / 2 ^ 45 = slot && l2Slice (e.1 % 2 ^ 45) = n / 16 % 16 && e.2.way = n % 16
  (s.mem.cache.filter mine).foldl (fun s e => (s.evictAgent slot (e.1 % 2 ^ 45)).settle (e.1 % 2 ^ 45)) s

end Sys2Proof.Machine
end

