-- ==== Sys2Proof/Machine/Ras.lean ====
section
/-! DEFINITION. Error counts, classifications and fences (R278, R346, R352, R356, R357). -/

namespace Sys2Proof.Machine

/-! ### The leaves of a frame -/

/-- The leaves of a table of a level that map a frame: the page that maps it; `va` is where the table begins. -/
def State.leavesIn (s : State) (frame : Nat) : Nat → Nat → Nat → List W64
  | lvl, tbl, va => (List.range 4096).flatMap (fun k =>
      let e := BitVec.ofNat 64 (s.mem.peekN (tbl + 8 * k) 8)
      let a := va + k * levelBytes lvl
      if !pteV e then []
      else if pteR e || pteW e || pteX e then
        (if !s.leafBad lvl e && decide (ptePa e ≤ frame) && decide (frame < ptePa e + levelBytes lvl) then
          [BitVec.ofNat 64 (a + (frame - ptePa e))] else [])
      else match lvl with
        | 0 => []
        | l + 1 => State.leavesIn s frame l (ptePa e) a)

/-- Every space and page that map a frame. -/
def State.leavesOf (s : State) (frame : Nat) : List (Nat × W64) :=
  (List.range 65536).flatMap (fun asp =>
    let lo := s.mem.peekN (s.pkgReg 0x109 + 16 * asp) 8
    if lo % 2 = 0 then [] else (s.leavesIn frame 2 (bitsN lo 15 37 * 32768) 0).map (fun va => (asp, va)))

/-- A leaf above level 0 becomes a table of leaves of the level below, in a frame of a pool; false without one (log 49). -/
def State.splitLeaf (s : State) (row pa lvl : Nat) (e : W64) : State × Bool :=
  match s.takeFrame row with
  | (s, .error _) => (s, false)
  | (s, .ok t) =>
    let leaf := fun k => leBytes 8 (e.toNat + levelBytes (lvl - 1) * k)
    let s := (s.zeroFrame t).physWrite t ((List.range 4096).flatMap leaf)
    (s.physSetWord pa (BitVec.ofNat 64 (t + 1)), true)

/-- The level 0 leaf of a page, larger leaves split on the way. -/
def State.splitDown : Nat → State → Nat → Nat → W64 → State × Option (Nat × W64)
  | 0, s, _, asp, va =>
    match s.leafOf asp va with
    | (s, some (pa, 0, e)) => (s, some (pa, e))
    | (s, _) => (s, none)
  | n + 1, s, row, asp, va =>
    match s.leafOf asp va with
    | (s, some (pa, 0, e)) => (s, some (pa, e))
    | (s, some (pa, lvl, e)) =>
      match s.splitLeaf row pa lvl e with
      | (s, true) => State.splitDown n s row asp va
      | (s, false) => (s, none)
    | (s, none) => (s, none)

/-! ### Fencing (R346, R356, R357) -/

/-- Fields of a CTL_RASEVENT word. -/
def rasKind (w : W64) : Nat := bitsN w.toNat 0 4
def rasNum (w : W64) : Nat := bitsN w.toNat 4 10
def rasFrame (w : W64) : Nat := bitsN w.toNat 15 37 * 32768

/-- A word without its LEFT bit. -/
def rasPlain (w : W64) : W64 := w &&& ~~~(1#64 <<< 14)

/-- A word that names a unit or frame of the device. -/
def rasNames (w : W64) : Bool :=
  let n := rasNum w
  decide (w.toNat < 2 ^ 52) && (!w.getLsbD 14 || rasKind w = 7) && (rasFrame w = 0 || rasKind w = 7)
    && (match rasKind w with
        | 1 => decide (n < 160)
        | 2 => decide (n < 72)
        | 3 => decide (n < 16)
        | 4 | 5 => decide (n < 8)
        | 6 => true
        | 7 => n = 0
        | _ => false)

/-- Clear a bit of a package register. -/
def State.clearUnit (s : State) (reg bit : Nat) : State := s.setCtl 0 reg (s.ctlOf 0 reg &&& ~~~(1#64 <<< bit))

/-- A unit is classified no longer: its fence has completed. -/
def State.endFencing (s : State) (kind num : Nat) : State :=
  { s with out := { s.out with fencing := s.out.fencing.filter (fun w => w ≠ fenceWord kind num) } }

/-- A cluster's fence completes when its last block has left. -/
def State.fenceCluster (s : State) (g : Nat) : State :=
  if s.fencing 1 g && (s.cl g).blocks.isEmpty then
    (s.endFencing 1 g).clearUnit (0x12C + g / 64) (g % 64)
  else s

/-- A command processor's fence completes when no command of its queues is under way. -/
def State.fenceCp (s : State) (p : Nat) : State :=
  if s.fencing 3 p && !s.work.queues.any (fun e => e.2.type = 1 && e.2.assign = p && e.2.busy) then
    (s.endFencing 3 p).clearUnit 0x12B (36 + p)
  else s

/-- Append to the fence log (R357). -/
def State.fenceLog (s : State) (w : W64) : State :=
  let n := s.pkgReg 0x13C
  let s := if n < 256 then s.setCtl 0 (0x400 + n) w else s
  s.setCtl 0 0x13C (BitVec.ofNat 64 (min (n + 1) (2 ^ 64 - 1)))

/-- The port's bit clears in every mask of the route table (R352). -/
def State.clearRoutes (s : State) (port : Nat) : State :=
  let base := s.pkgReg 0x139
  (List.range 1024).foldl (fun s k =>
    let (s, b) := s.physRead (base + k) 1
    let x := b.headD 0
    if x.getLsbD port then s.physWrite (base + k) [x &&& ~~~(1#8 <<< port)] else s) s

/-- A Tlain port's fence completes when no request that took it stands unanswered (R356). -/
def State.fencePort (s : State) (n : Nat) : State :=
  if s.fencing 4 n && !s.out.tlain.any (fun q => q.port = n) then
    ((s.endFencing 4 n).clearUnit 0x12B (28 + n)).clearRoutes n
  else s

/-- A frame is kept out of every pool (R356). -/
def State.keepOut (s : State) (frame : Nat) : State := { s with out := { s.out with badFrames := frame :: s.out.badFrames } }

/-- Another leaf that mapped a moved frame maps its new place. -/
def State.remap (s : State) (row dst : Nat) (p : Nat × W64) : State :=
  match State.splitDown 2 s row p.1 p.2 with
  | (s, some (pa, e)) =>
    (s.shootdown false p.1 (some (p.2.toNat / 32768, 1)) true).physSetWord pa (movedLeaf e dst)
  | (s, none) => s

/-- A frame is moved away and kept out of every pool, whatever PIN and CONTIG say; a memory-side frame, and one for which no
pool has a frame, is left in service: the state, and LEFT. A frame that no leaf maps is only kept out (R356, log 49). -/
def State.retireFrame (s : State) (frame : Nat) : State × Bool :=
  let row := if paStack frame < 6 then 0 else 4
  let ps := s.leavesOf frame
  if ps.any (fun p => (s.peekLeaf p.1 p.2).any (·.1 = 3)) then (s, true)
  else match ps with
    | [] => (s.keepOut frame, false)
    | (asp, va) :: rest =>
      match State.splitDown 2 s row asp va with
      | (_, none) => (s, true)
      | (t, some (pa, e)) =>
        match t.takeFrame row with
        | (_, .error _) => (s, true)
        | (t, .ok dst) =>
          let t := t.moveLeaf pa e asp va dst true
          ((rest.foldl (fun (t : State) p => t.remap row dst p) t).keepOut frame, false)

/-- An L2 way is disabled, its lines written back first (R356). -/
def State.disableWay (s : State) (n : Nat) : State :=
  let t := s.emptyWay n
  { t with out := { t.out with ways := n :: t.out.ways } }

/-- The act on a classified unit or frame (R356), and whether a frame was left in service. -/
def State.fenceUnit (s : State) (w : W64) : State × Bool :=
  let n := rasNum w
  let wait := fun (s : State) => { s with out := { s.out with fencing := s.out.fencing ++ [fenceWord (rasKind w) n] } }
  match rasKind w with
  | 1 => ((wait s).fenceCluster n, false)
  | 2 => (s.clearUnit (0x12F + n / 64) (n % 64), false)
  | 3 => ((wait s).fenceCp n, false)
  | 4 => ((wait s).fencePort n, false)
  | 5 => (s.clearUnit 0x12B (20 + n), false)
  | 6 => (s.disableWay n, false)
  | _ => s.retireFrame (rasFrame w)

/-- Is a unit or frame fenced already, or being fenced? -/
def State.fenced (s : State) (w : W64) : Bool :=
  let n := rasNum w
  match rasKind w with
  | 1 => s.fencing 1 n || !s.clPresent n
  | 2 => !s.hartPresent n
  | 3 => s.fencing 3 n || !(s.ctlOf 0 0x12B).getLsbD (36 + n)
  | 4 => s.fencing 4 n || !(s.ctlOf 0 0x12B).getLsbD (28 + n)
  | 5 => !(s.ctlOf 0 0x12B).getLsbD (20 + n)
  | 6 => s.out.ways.contains n
  | _ => s.out.badFrames.contains (rasFrame w)

/-- A classification, or a fence by software: the act, CTL_RASEVENT, the log, and the MSI (R356, R357). -/
def State.classify (s : State) (w0 : W64) : State :=
  let w := rasPlain w0
  if s.fenced w then s
  else
    let (s, left) := s.fenceUnit w
    let e := if left then w ||| (1#64 <<< 14) else w
    ((s.setCtl 0 0x133 e).fenceLog e).sendMsi (s.ctlOf 0 0x132)

/-- A corrected error of a unit or frame at the present time: the third within CTL_ERRWIN seconds of the earlier of the
two remembered classifies it (R356). -/
def State.correctedError (s : State) (w0 : W64) : State :=
  let w := rasPlain w0
  let old := s.out.errs.get w.toNat []
  let s := { s with out := { s.out with errs := s.out.errs.put w.toNat ((old ++ [s.ns]).drop (old.length - 1)) } }
  match old with
  | [a, _] => if s.ns ≤ a + s.pkgReg 0x11D * 10 ^ 9 then s.classify w else s
  | _ => s

/-- CORRECTED_ERROR (R356). -/
def execCorrectedError (unit : W64) (s : State) : Out :=
  if rasNames unit then .next (s.correctedError unit) else .next s

/-- UNCORRECTABLE_ERROR: the line is poisoned with STATE I, and the error counts (R278, R356). -/
def execUncorrectableError (line : Nat) (unit : W64) (s : State) : Out :=
  let s := s.updMem (fun m => m.setSide line { poison := true })
  if rasNames unit then .next (s.correctedError unit) else .next s

/-- FENCE_REQUEST: a write of CTL_FENCEREQ (R356). -/
def execFenceRequest (v : W64) (s : State) : Out :=
  let s := s.setCtl 0 0x134 v
  if rasNames v then .next (s.classify v) else .next s

end Sys2Proof.Machine
end

