-- ==== Sys2Proof/Machine/Sill.lean ====
section
/-! DEFINITION. Sill commands: MSROW, MSBANK and their run (R207 to R212). -/

namespace Sys2Proof.Machine

/-! ### Issue (R207, R208) -/

/-- A sill command as its instruction names it: addresses, unit, count and what may overlap exactly. -/
structure SillReq where
  dst : W64
  srcs : List W64
  ctr : W64
  unit : Nat
  n : Nat
  exact : Bool
deriving DecidableEq, Repr, Inhabited

/-- Do two ranges of n units overlap? -/
def rangesMeet (a b len : Nat) : Bool := decide (a < b + len) && decide (b < a + len)

/-- The precise checks of R207 that need no translation: code and address. -/
def SillReq.check (r : SillReq) : Option (Nat × W64) :=
  let len := r.unit * r.n
  let all := r.dst :: r.srcs
  match all.find? (fun a => badRange a len) with
  | some a => some (9, a)
  | none =>
    if badAddr r.ctr then some (9, r.ctr)
    else match all.find? (fun a => a.toNat % r.unit ≠ 0) with
      | some a => some (7, a)
      | none =>
        if r.ctr.toNat % 16 ≠ 0 then some (7, r.ctr)
        else if r.srcs.any (fun a => rangesMeet a.toNat r.dst.toNat len && !(r.exact && a = r.dst)) then some (9, r.dst)
        else none

/-- Issue a sill command once for the group (R207). -/
def sillBody (s : State) (c : Issuer) (ls : List Nat) (r : SillReq) (cmd : SillCmd) : Eff :=
  match r.check with
  | some (k, a) => .fail { code := k, lanes := ls, addr := a, info := if k = 9 then 0xFFFF else 0 }
  | none =>
    match s.tlbFind c.g (s.aspaceOf c) r.ctr .write with
    | none => .go (s.missWalk c ls [(r.ctr, .write, 0)]) c.places
    | some t =>
      if t.cls ≠ 3 then accessAt ls r.ctr
      else
        let i := s.eng.nextSill
        let cmd := { cmd with g := c.g, aspace := s.aspaceOf c, dst := r.dst, srcA := r.srcs.getD 0 0, srcB := r.srcs.getD 1 0
                              n := r.n, ctr := t.addr r.ctr, ctrVa := r.ctr, born := s.ticks }
        let s := { s with eng := { s.eng with sills := s.eng.sills.put i cmd, nextSill := i + 1 } }
        .go (s.setEffects c ls) []

/-- A 64-bit address operand of the lowest active lane. -/
def State.addrReg (s : State) (c : Issuer) (f : RFile) (r : Nat) (ls : List Nat) : W64 := s.regOf c f r (ls.headD 0) true

/-- MSROW (R209). -/
def msrowBody (zero : Bool) (s : State) (c : Issuer) (o : Ops) (ls : List Nat) : Eff :=
  let f := fileA c o
  sillBody s c ls { dst := s.addrReg c f o.d.toNat ls, srcs := if zero then [] else [s.addrReg c f o.a.toNat ls]
                    ctr := s.addrReg c f o.c.toNat ls, unit := 32768, n := bitsN o.ext.toNat 0 16, exact := false }
    { op := if zero then 1 else 0, inc := bitsN o.ext.toNat 16 16 }

/-- MSROW.COPY (R209). -/
def execMsrowCopy (o : Ops) (s : State) : Out := .next (s.issue (.msrowCopy o) (fun s c o _ ls => msrowBody false s c o ls))
/-- MSROW.ZERO (R209). -/
def execMsrowZero (o : Ops) (s : State) : Out := .next (s.issue (.msrowZero o) (fun s c o _ ls => msrowBody true s c o ls))

/-- MSBANK (R211). -/
def msbankBody (s : State) (c : Issuer) (o : Ops) (ls : List Nat) : Eff :=
  let f := fileA c o
  sillBody s c ls { dst := s.addrReg c f o.d.toNat ls, srcs := [s.addrReg c f o.a.toNat ls, s.addrReg c f o.b.toNat ls]
                    ctr := s.addrReg c f o.c.toNat ls, unit := 128, n := bitsN o.ext.toNat 0 16, exact := true }
    { op := 2, inc := bitsN o.ext.toNat 16 16, bop := bitsN o.ext.toNat 32 4, ety := bitsN o.ext.toNat 36 4 }
/-- MSBANK (R211). -/
def execMsbank (o : Ops) (s : State) : Out := .next (s.issue (.msbank o) (fun s c o _ ls => msbankBody s c o ls))

/-! ### The run of a command -/

/-- A line as the sill reads it from DRAM, with its poison (R207). -/
def State.sillRead (s : State) (line : Nat) : State × Line × Bool :=
  if !s.isLocal (line * 128) then s.remoteRead [] line
  else if isIo (line * 128) then (s, s.ioLine (paOff (line * 128)), false)
  else
    let s := s.updMem (fun m => m.findError line)
    (s, s.mem.dram line, (s.mem.sideOf line).poison)

/-- The thread in whose name a sill command accesses other packages. -/
def sillThread (i : Nat) : Thread := { kind := 8, a := i }

/-- Write a destination line: its cached copies and reservations go first, but shared-tagged lines stay in the L1s; one of stack 15
is written at the hub, and one of another package at its home (R49, R207, R286). -/
def State.sillWrite (s : State) (i line cls : Nat) (x : Line) (p : Bool) : State :=
  if s.isLocal (line * 128) && !isIo (line * 128) then
    let s := s.purgeLine line
    let s := s.updMem (fun m => { m with l1 := m.l1.filter (fun e => e.1 % 2 ^ 45 ≠ line || e.2.shared) })
    s.updMem (fun m => (m.setDram line x).setSide line { st := if cls = 3 then .X else .I, poison := p })
  else if s.isLocal (line * 128) then s.post (paOff (line * 128)) (lineBytes x 0 128)
  else s.askWrite [sillThread i] line

/-- One element of MSBANK (R211). -/
def bankElem (bop ety a b : Nat) : Nat :=
  if ety = 3 then
    let x := intOf 32 true a
    let y := intOf 32 true b
    wrapInt 32 (match bop with | 0 => x + y | 1 => x - y | 2 => x * y | 3 => min x y | _ => max x y)
  else
    let f := match ety with | 0 => fp32 | 1 => bf16 | _ => fp16
    let sub := fun k => ({ m := BitVec.ofNat 9 (16 * k) } : Ops)
    (match bop with
     | 0 => faddElem (sub 0) f [a, b]
     | 1 => faddElem (sub 16) f [a, b]
     | 2 => fmulElem (sub 0) f [a, b]
     | 3 => fmnmxElem (sub 0) f [a, b]
     | _ => fmnmxElem (sub 1) f [a, b]).1

/-- MSBANK of two lines. -/
def bankLine (bop ety : Nat) (a b : Line) : Line :=
  let w := if ety = 0 || ety = 3 then 32 else 16
  BitVec.ofNat 1024 (packElems w ((List.range (1024 / w)).map (fun k =>
    Int.ofNat (bankElem bop ety (bitsN a.toNat (w * k) w) (bitsN b.toNat (w * k) w)))))

/-- A page of MSROW: 256 lines; the path taken is counted (R209, R210). -/
def State.sillPage (s : State) (i : Nat) (zero : Bool) (d cls src : Nat) : State :=
  let fast := zero || sameSubarray d src
  let n := if fast then 0x11B else 0x11C
  let s := s.setCtl 0 n (s.ctlOf 0 n + 1)
  (List.range 256).foldl (fun s k =>
    let (s, x, p) := if zero then (s, (0 : Line), false) else s.sillRead (src / 128 + k)
    s.sillWrite i (d / 128 + k) cls x p) s

/-- Change a sill command. -/
def State.updSill (s : State) (i : Nat) (f : SillCmd → SillCmd) : State :=
  { s with eng := { s.eng with sills := s.eng.sills.put i (f (s.eng.sills.get i {})) } }

/-- A sill command ends: its counter advances (R207, R212). -/
def State.sillEnd (s : State) (i : Nat) (poison : Bool) : State :=
  let q := s.eng.sills.get i {}
  let s := { s with eng := { s.eng with sills := s.eng.sills.del i } }
  s.ctrAdvance q.ctr q.inc poison

/-- Translate some addresses for a command, in order; the first failure parks it (R212). -/
def State.sillXlate (s : State) (q : SillCmd) : List (W64 × Access) → State × Got (List (Nat × Nat))
  | [] => (s, .ok [])
  | (a, acc) :: r =>
    match s.unitXlate q.aspace a acc (some q.g) with
    | (s, .fail v k n) => (s, .fail v k n)
    | (s, .ok p) =>
      match State.sillXlate s q r with
      | (s, .ok ps) => (s, .ok (p :: ps))
      | e => e

/-- The addresses that unit number `next` of a command touches. -/
def SillCmd.touches (q : SillCmd) : List (W64 × Access) :=
  let at_ := fun (a : W64) => a + BitVec.ofNat 64 (q.next * (if q.op = 2 then 128 else 32768))
  match q.op with
  | 0 => [(at_ q.dst, .write), (at_ q.srcA, .read)]
  | 1 => [(at_ q.dst, .write)]
  | _ => [(at_ q.dst, .write), (at_ q.srcA, .read), (at_ q.srcB, .read)]

/-- One page or line of a command. -/
def State.sillUnit (s : State) (i : Nat) (q : SillCmd) (ps : List (Nat × Nat)) : State :=
  let d := ps.getD 0 (0, 0)
  let a := ps.getD 1 (0, 0)
  let b := ps.getD 2 (0, 0)
  if q.op = 2 then
    let (s, x, p) := s.sillRead (a.1 / 128)
    let (s, y, r) := s.sillRead (b.1 / 128)
    if p || r then s.sillWrite i (d.1 / 128) d.2 0 true else s.sillWrite i (d.1 / 128) d.2 (bankLine q.bop q.ety x y) false
  else s.sillPage i (q.op = 1) d.1 d.2 a.1

/-- Must a command whose units are written wait for a write that is not performed, at another package or in stack 15 (R207)? -/
def State.sillLate (s : State) (i : Nat) : Bool := s.tlainBusy (sillThread i) 7 || !s.out.posted.isEmpty

/-- The rest of a command. -/
def State.sillRun (fuel : Nat) (s : State) (i : Nat) : State :=
  match fuel with
  | 0 => s
  | f + 1 =>
    let q := s.eng.sills.get i {}
    if q.n ≤ q.next then (if s.sillLate i then s else s.sillEnd i false)
    else match s.sillXlate q q.touches with
      | (s, .fail v a r) =>
        if r = 6 then s
        else (s.updSill i (fun x => { x with parked := true })).recordFault (dieOf q.g) q.aspace v a r [.sill i]
      | (s, .ok ps) => State.sillRun f ((s.sillUnit i q ps).updSill i (fun x => { x with next := x.next + 1 })) i

/-- SILL_COMMAND_COMPLETION: a sill runs a command to its end, or until it parks (R207 to R212, log 21). -/
def execSillCommandCompletion (i : Nat) (s : State) : Out :=
  match s.eng.sills.find? i with
  | some q => if q.parked then .next s else .next (s.sillRun (q.n - q.next + 1) i)
  | none => .next s

end Sys2Proof.Machine
end

