-- ==== Sys2Proof/Machine/Control.lean ====
section
/-! DEFINITION. Control flow: NOP, the transfers, EXIT, the rejoin masks, YIELD, PAUSE and BRK (R106 to R114). -/

namespace Sys2Proof.Machine

/-- NOP: no effect but the advance (R106). -/
def execNop (o : Ops) (s : State) : Out := .next (s.issue (.nop o) (fun s _ _ _ _ => .go s []))

/-- A transfer to a fixed offset from the instruction (R82, R107). -/
def offsetTarget (c : Issuer) (o : Ops) : W64 := c.pc + o.imm32.signExtend 64

/-- Move active places to one address each. -/
def State.jumpAll (s : State) (c : Issuer) (ls : List Nat) (t : Nat → W64) : State :=
  ls.foldl (fun (s : State) l => s.jump c l (t l)) s

/-- BRA (R107). -/
def execBra (o : Ops) (s : State) : Out :=
  .next (s.issue (.bra o) (fun s c o _ ls => .go (s.jumpAll c ls (fun _ => offsetTarget c o)) ls))

/-- The checks of a register target, points 1 and 2 of R107. -/
def targetCheck (s : State) (c : Issuer) (o : Ops) (ls : List Nat) (aligned : Bool) : Option Eff :=
  let t := fun l => s.opA c o l true
  match ls.filter (fun l => badAddr (t l)) with
  | l :: r => some (accessAt (l :: r) (t l))
  | [] =>
    match ls.filter (fun l => aligned && (t l).toNat % 4 ≠ 0) with
    | l :: r => some (misalignedAt (l :: r) (t l))
    | [] => none

/-- BRX and RET: each active place goes to its register's address (R107). -/
def transferBody (s : State) (c : Issuer) (o : Ops) (ls : List Nat) : Eff :=
  match targetCheck s c o ls true with
  | some e => e
  | none => .go (s.jumpAll c ls (fun l => s.opA c o l true)) ls

/-- BRX (R107). -/
def execBrx (o : Ops) (s : State) : Out := .next (s.issue (.brx o) (fun s c o _ ls => transferBody s c o ls))

/-- RET (R107). -/
def execRet (o : Ops) (s : State) : Out := .next (s.issue (.ret o) (fun s c o _ ls => transferBody s c o ls))

/-- The link of a call: the address after it, in D of each active place (R107). -/
def State.link (s : State) (c : Issuer) (o : Ops) (ls : List Nat) : State :=
  s.writeAll c (ls.flatMap (fun l => resWrites (fileD c o) o.d.toNat l 2 true (c.pc + BitVec.ofNat 64 o.form.bytes)))

/-- CALL (R107). -/
def execCall (o : Ops) (s : State) : Out :=
  .next (s.issue (.call o) (fun s c o _ ls => .go ((s.link c o ls).jumpAll c ls (fun _ => offsetTarget c o)) ls))

/-- The registers a function header names, when 8 bytes are one (R106). -/
def headerRegs (w : W64) : Option Nat :=
  let fb := bitsN w.toNat 54 9
  if w &&& ~~~(0x1FF#64 <<< 54) = 0x201 && 1 ≤ fb && fb ≤ 32 then some (8 * fb) else none

/-- The word before a target as a fetch reads it, when its page is translated for fetch. -/
def State.headerAt (s : State) (c : Issuer) (t : W64) : Option W64 :=
  (s.tlbFind c.g (s.aspaceOf c) (t - 8) .fetch).map (fun e =>
    let pa := e.addr (t - 8)
    (s.codeLine c (pa / 128)).extractLsb' (8 * (pa % 128)) 64)

/-- Does a target fail the checks of R108, and with which INFO (R362)? -/
def State.headerFail (s : State) (c : Issuer) (t : W64) : Option W64 :=
  if t.toNat % 8 ≠ 0 then some 0xFFFF
  else match (s.headerAt c t).bind headerRegs with
    | none => some 0xFFFF
    | some n => if c.unit = .lane && s.allocation c < n then some (BitVec.ofNat 64 (n - 1)) else none

/-- CALLX: the target checks, the header check of every active place, then the link and the transfer (R107, R108). -/
def callxBody (s : State) (c : Issuer) (o : Ops) (ls : List Nat) : Eff :=
  let t := fun l => s.opA c o l true
  match targetCheck s c o ls false with
  | some e => e
  | none =>
    let heads := ls.filter (fun l => (t l).toNat % 8 = 0)
    match heads.filter (fun l => badAddr (t l - 8)) with
    | l :: r => accessAt (l :: r) (t l - 8)
    | [] =>
      match heads.filter (fun l => (s.headerAt c (t l)).isNone) with
      | l :: r => .go (s.missWalk c ls ((l :: r).map (fun l => (t l - 8, .fetch, 1#32 <<< l)))) c.places
      | [] =>
        match ls.filter (fun l => (s.headerFail c (t l)).isSome) with
        | l :: r => .fail { code := 4, lanes := l :: r, addr := t l, info := (s.headerFail c (t l)).getD 0 }
        | [] => .go ((s.link c o ls).jumpAll c ls t) ls

/-- CALLX (R107, R108). -/
def execCallx (o : Ops) (s : State) : Out := .next (s.issue (.callx o) (fun s c o _ ls => callxBody s c o ls))

/-- The status operand of EXIT (R110). -/
def exitStatus (s : State) (c : Issuer) (o : Ops) (l : Nat) : Nat :=
  if o.bs = 3 then o.c.toNat * 256 + o.b.toNat else (s.opB c o [] l 0 false).toNat % 65536

/-- EXIT: a switch point, then each active place leaves with its status (R109). What its release carries is performed before
the record or the DONE that carries the release: a task's lane leaves once its accesses are, a block's record waits for those
of its threads (R45, R313). -/
def exitBody (s : State) (c : Issuer) (o : Ops) (ls : List Nat) : Eff :=
  match c.unit with
  | .lane =>
    let (s, pass) := s.atSwitch c ls
    let late := if (s.waveOf c).isSome then pass.filter (fun l => s.tlainBusy (s.threadOf c l) 7 || s.appendWaits (s.threadOf c l)) else []
    let s := s.updLanes c.g c.slot late (fun _ x => { x with passed := true })
    match (pass.filter (fun l => !late.contains l)).map (fun l => (l, exitStatus s c o l)) with
    | [] => .go s ls
    | out => .go (if (s.waveOf c).isSome then s.taskExit c out else s.blockExit c out) ls
  | .spine => .go (s.spineExit c (exitStatus s c o 0)) ls
  | _ => .go ((s.updSeqr c.g c.isCopy (fun q => { q with st := .done, hold := .free })).seqIdle c.g c.isCopy) ls

/-- EXIT (R109). -/
def execExit (o : Ops) (s : State) : Out := .next (s.issue (.exit o) (fun s c o _ ls => exitBody s c o ls))

/-! ### Rejoin masks -/

/-- Write a mask of the issuing warp and run its release check (R111). -/
def State.writeMask (s : State) (c : Issuer) (n : Nat) (f : W32 → W32) : State :=
  s.updWarp c.g c.slot (fun w => ({ w with jm := w.jm.put n (f (w.jm.get n 0)) } : Warp).release n)

/-- JARM in one of its forms. -/
def jarmBody (s : State) (c : Issuer) (o : Ops) (f : W32 → W32) : Eff := .go (s.writeMask c (o.d.toNat % 4) f) []

/-- JARM.SET (R111). -/
def execJarmSet (o : Ops) (s : State) : Out :=
  .next (s.issue (.jarmSet o) (fun s c o _ ls => jarmBody s c o (fun _ => lanesMask ls)))
/-- JARM.ADD (R111). -/
def execJarmAdd (o : Ops) (s : State) : Out :=
  .next (s.issue (.jarmAdd o) (fun s c o _ ls => jarmBody s c o (fun m => m ||| lanesMask ls)))
/-- JARM.CLR (R111). -/
def execJarmClr (o : Ops) (s : State) : Out :=
  .next (s.issue (.jarmClr o) (fun s c o _ ls => jarmBody s c o (fun m => m &&& ~~~lanesMask ls)))
/-- JARM.LOAD (R111). -/
def execJarmLoad (o : Ops) (s : State) : Out :=
  .next (s.issue (.jarmLoad o) (fun s c o _ _ => jarmBody s c o (fun _ => s.w c.g c.slot o.b.toNat)))

/-- REJOIN: a lane outside the mask advances; a lane of it is held until the check releases it (R103, R112). -/
def rejoinBody (s : State) (c : Issuer) (o : Ops) (ls : List Nat) : Eff :=
  let n := o.a.toNat % 4
  let (s, pass) := s.atSwitch c ls
  let m := (s.warp c.g c.slot).jm.get n 0
  let held := pass.filter (fun l => m.getLsbD l)
  let s := match held with
    | [] => s
    | _ => (s.setHolds c held (.rejoin n (s.cycles (dieOf c.g)))).updWarp c.g c.slot (fun w =>
        ({ w with jh := w.jh.put n (w.jh.get n 0 ||| lanesMask held) } : Warp).release n)
  .go s (ls.filter (fun l => !pass.contains l || held.contains l))

/-- REJOIN (R112). -/
def execRejoin (o : Ops) (s : State) : Out := .next (s.issue (.rejoin o) (fun s c o _ ls => rejoinBody s c o ls))

/-- YIELD: a switch point, then its lanes stay out of the vote for up to 32 cycles (R113). -/
def yieldBody (s : State) (c : Issuer) (ls : List Nat) : Eff :=
  match c.unit with
  | .lane =>
    let (s, pass) := s.atSwitch c ls
    let till := s.cycles (dieOf c.g) + 32
    .go (pass.foldl (fun (s : State) l => (s.setPc c l (c.pc + 8)).setHold c l (.yield till)) s) ls
  | _ => .go s []

/-- YIELD (R113). -/
def execYield (o : Ops) (s : State) : Out := .next (s.issue (.yield o) (fun s c _ _ ls => yieldBody s c ls))

/-- PAUSE: its places are held for 16 × (count + 1) cycles (R113). -/
def pauseBody (s : State) (c : Issuer) (o : Ops) (ls : List Nat) : Eff :=
  let till := s.cycles (dieOf c.g) + 16 * (o.b.toNat + 1)
  .go (ls.foldl (fun (s : State) l => (s.setPc c l (c.pc + 8)).setHold c l (.pause till o.sw)) s) ls

/-- PAUSE (R113). -/
def execPause (o : Ops) (s : State) : Out := .next (s.issue (.pause o) (fun s c o _ ls => pauseBody s c o ls))

/-- BRK: BREAKPOINT in its active places alone; ERET resumes at the BRK (R114, R296). -/
def execBrk (o : Ops) (s : State) : Out :=
  .next (s.issue (.brk o) (fun s c o _ ls =>
    .go (s.takeCause c ls { code := 17, lanes := ls, info := o.b.setWidth 64 } c.pc c.pc true) ls))

end Sys2Proof.Machine
end

