-- ==== Sys2Proof/Machine/Task.lean ====
section
/-! DEFINITION. Task records, their pull and checks, and waves (R43 to R45, R69, R368). -/

namespace Sys2Proof.Machine

/-! ### Records (R43) -/

/-- Bytes [k, k + n) of a record as a number. -/
def recNat (b : List Byte) (k n : Nat) : Nat := leNat ((b.drop k).take n)

/-- The task of a record (R43); its counters are named once they translate. -/
def recTask (q id : Nat) (va : W64) (b : List Byte) : Task :=
  let fl := recNat b 24 8
  { queue := q, id := id, record := va, entry := BitVec.ofNat 64 (recNat b 0 8), done := BitVec.ofNat 64 (recNat b 16 8)
    cls := bitsN fl 0 2, prio := bitsN fl 2 2, budget := bitsN fl 8 8, inline := (b.drop 96).take 32 }

/-- The used pairs of WAITS: address and threshold. -/
def recWaits (b : List Byte) : List (W64 × Nat) :=
  ((List.range 4).map (fun k => (BitVec.ofNat 64 (recNat b (32 + 16 * k) 8), recNat b (40 + 16 * k) 8))).filter (fun w => w.1 ≠ 0)

/-- A field check that a record fails: its cause (R44). -/
def recCheck (t : Task) (b : List Byte) : Option Nat :=
  let fl := recNat b 24 8
  if t.cls = 3 then some 9
  else if t.budget < 2 || 32 < t.budget then some 4
  else if bitsN fl 4 4 ≠ 0 || 2 ^ 16 ≤ fl || (recWaits b).any (fun w => decide (2 ^ 63 ≤ w.2)) then some 9
  else if t.entry.toNat % 8 ≠ 0 || t.done.toNat % 16 ≠ 0 || (recWaits b).any (fun w => w.1.toNat % 16 ≠ 0) then some 9
  else none

/-! ### Pulls (R44, R368) -/

/-- Has a queue a record that a cluster's gatherer may pull? -/
def State.pullable (s : State) (g q : Nat) : Bool :=
  let x := s.queue q
  x.stat = 1 && x.type = 2 && bitsN x.assign (dieOf g) 1 = 1 && decide (x.pull < x.tail) && !s.work.parkedPull.has q

/-- The queue that a gatherer's turn serves: round-robin in ascending number. -/
def State.nextPull (s : State) (g : Nat) : Option Nat :=
  let qs := s.work.queues.keys.filter (s.pullable g)
  match qs.find? (fun q => decide ((s.cl g).nextQueue ≤ q)) with
  | some q => some q
  | none => qs.head?

/-- The record at the pull position is taken. -/
def State.pulled (s : State) (q : Nat) : State :=
  let s := { s with work := { s.work with parkedPull := s.work.parkedPull.del q } }
  s.updQueue q (fun x => { x with pull := x.pull + 1, live := x.live + 1 })

/-- A pulled record that does not run: an entry, and DONE with poison. -/
def State.pullFail (s : State) (g : Nat) (t : Task) (cause : Nat) (addr info : W64) : State :=
  (s.pulled t.queue).taskFail g t cause 0 addr info

/-- A slot whose record was not read is retired without running: no counter is known (R368). -/
def State.slotFail (s : State) (q : Nat) (cause : Nat) : State :=
  let x := s.queue q
  let va := x.slotAddr x.pull
  let t : Task := { queue := q, id := x.pull, record := va }
  ((s.pulled q).taskErr (taskEntry t cause 0 va 0)).slotRetire q t.id

/-- A walk of a pull that fails: the pull parks, or an address with bits [63:51] set ends the record with ACCESS. -/
def State.pullPark (s : State) (g : Nat) (t : Task) (stage : Nat) (va : W64) (a : Access) (reason : Nat) : State :=
  if reason = 0 then
    if stage = 0 then s.slotFail t.queue 9 else s.pullFail g t 9 va 0xFFFF
  else if reason = 6 then s
  else
    let s := { s with work := { s.work with parkedPull := s.work.parkedPull.put t.queue t } }
    s.recordFault (dieOf g) (s.queue t.queue).aspace va a reason [.pull g t.queue stage]

/-- The header check of an entry (R16, R368): a failed walk, or the INFO of a failed check. -/
def State.entryCheck (s : State) (g asp : Nat) (t : Task) : State × Got (Option W64) :=
  let va := t.entry - 8
  match s.unitXlate asp va .fetch (some g) with
  | (s, .fail v a r) => (s, .fail v a r)
  | (s, .ok (pa, cls)) =>
    let (s, x, _) := s.unitLine (some g) cls (pa / 128) (byteMask (pa % 128) 8)
    let w := BitVec.ofNat 64 (leNat (lineBytes x (pa % 128) 8))
    match headerRegs w with
    | none => (s, .ok (some 0xFFFF))
    | some n => (s, .ok (if n = 8 * t.budget then none else some (BitVec.ofNat 64 (n - 1))))

/-- The frame addresses of the counters a record names; none for one that is not on a memory-side page. -/
def State.waitAddrs (s : State) (g asp : Nat) : List (W64 × Nat) → State × Got (Option (List (Nat × Nat)))
  | [] => (s, .ok (some []))
  | (va, thr) :: r =>
    match s.unitXlate asp va .read (some g) with
    | (s, .fail v a n) => (s, .fail v a n)
    | (s, .ok (pa, cls)) =>
      if cls ≠ 3 then (s, .ok none)
      else match State.waitAddrs s g asp r with
        | (s, .ok (some ps)) => (s, .ok (some ((pa, thr) :: ps)))
        | e => e

/-- A record all of whose checks pass: ready, retired for a poisoned counter, or entered in the die's wait table with its
watches, registered as its counters are read (R42, R44). -/
def State.judgeTask (s : State) (g : Nat) (t : Task) (ws : List (Nat × Nat)) : State :=
  let (s, lows) := ws.foldl (fun (s, l) w =>
    let (s, lo, _) := s.ctrWords w.1
    (s, l ++ [(w, lo)])) (s, ([] : List ((Nat × Nat) × Nat)))
  if lows.any (fun e => ctrPoison e.2) then
    s.taskFail g t (Config.taskCause s.ticks).toNat 0 (Config.openInfo s.ticks 0) (Config.openInfo s.ticks 1)
  else
    match (lows.filter (fun e => decide (ctrCount e.2 < e.1.2))).map (·.1) with
    | [] => s.taskReady g t
    | left =>
      let s := left.foldl (fun s w => (s.watchAdd w.1 (dieOf g)).1) s
      { s with work := { s.work with table := s.work.table.upd (dieOf g) [] (· ++ [{ t with waits := left }]) } }

/-- The checks of a record that has been read, and its fate (R44). -/
def State.pullRecord (s : State) (g : Nat) (t : Task) (b : List Byte) : State :=
  let asp := (s.queue t.queue).aspace
  match recCheck t b with
  | some 4 => s.pullFail g t 4 t.entry (Config.openInfo s.ticks 0)
  | some k => s.pullFail g t k 0 0xFFFF
  | none =>
    match s.entryCheck g asp t with
    | (s, .fail v a r) => s.pullPark g t 1 v a r
    | (s, .ok (some info)) => s.pullFail g t 4 t.entry info
    | (s, .ok none) =>
      match s.waitAddrs g asp (recWaits b) with
      | (s, .fail v a r) => s.pullPark g t 1 v a r
      | (s, .ok none) => s.pullFail g t 9 0 0xFFFF
      | (s, .ok (some ws)) => (s.pulled t.queue).judgeTask g t ws

/-- The gatherer of a cluster pulls the next record of a queue (R44). Its reads acquire at system scope. -/
def State.pullFrom (s : State) (g q : Nat) : State :=
  let x := s.queue q
  let va := x.slotAddr x.pull
  let t : Task := { queue := q, id := x.pull, record := va, g := g }
  let s := (s.acquire g 7).updCl g (fun c => { c with nextQueue := q + 1 })
  match s.rd x.aspace va 128 (some g) with
  | (s, .fail v a r) => s.pullPark g t 0 v a r
  | (s, .ok (b, _)) => s.pullRecord g { recTask q x.pull va b with g := g } b

/-- May a gatherer pull: its cluster is present, has task granules, and its die's wait table has room (R44, R45)? -/
def State.mayPull (s : State) (g : Nat) : Bool :=
  s.clPresent g && s.taskg g ≠ 0 && decide ((s.work.table.get (dieOf g) []).length < 16384)

/-- TASK_RECORD_PULL: one turn of a cluster's gatherer (R44). -/
def execTaskRecordPull (g : Nat) (s : State) : Out :=
  if s.mayPull g then
    match s.nextPull g with
    | some q => .next (s.pullFrom g q)
    | none => .next s
  else .next s

/-! ### Granules (R69, R70) -/

/-- Granules of a block of an image (R12). -/
def Image.granules (i : Image) : Nat := i.regg + i.spg + i.accg

/-- Granules of a cluster that blocks hold. -/
def State.blockGranules (s : State) (g : Nat) : Nat := (s.cl g).blocks.foldl (fun n e => n + e.2.img.granules) 0

/-- Does a block hold a warp slot of a cluster? It holds its slots until its last party has left (R70). -/
def State.slotHeld (s : State) (g k : Nat) : Bool := (s.cl g).blocks.any (fun e => e.2.slots.contains k)

/-- Granules of a cluster that blocks hold, or that R71 reserves. -/
def State.heldGranules (s : State) (g : Nat) : Nat :=
  let waiting := match (s.cl g).reserved with
    | some l => (s.work.launches.get l {}).img.granules
    | none => 0
  s.blockGranules g + waiting

/-- Granules that waves may use now (R70). -/
def State.waveGranules (s : State) (g : Nat) : Nat := min (s.taskg g) (64 - s.heldGranules g)

/-- KiB that waves of a cluster hold. -/
def State.waveKib (s : State) (g : Nat) : Nat :=
  (s.cl g).warps.foldl (fun n e => n + (match e.2.wave with | some w => w.kib | none => 0)) 0

/-- Physical granules that no block of a cluster holds, ascending. -/
def State.openGranules (s : State) (g : Nat) : List Nat :=
  let used := (s.cl g).blocks.flatMap (fun e => e.2.granules)
  (List.range 64).filter (fun k => !used.contains k)

/-! ### Waves (R45) -/

/-- May a task stand before another in a wave's choice? -/
def taskBefore (a b : Task) : Bool := decide (b.prio < a.prio) || (a.prio = b.prio && decide (a.id ≤ b.id))

/-- Do two ready tasks share a wave? A wave runs in one address space (R47). -/
def State.sameWave (s : State) (a b : Task) : Bool :=
  a.entry = b.entry && a.cls = b.cls && a.budget = b.budget && (s.queue a.queue).aspace = (s.queue b.queue).aspace

/-- An 8-byte word of a space as it stands, when its page is backed. -/
def State.peekWord (s : State) (asp : Nat) (va : W64) : Option Nat :=
  (s.peekLeaf asp va).map (fun e => leNat (Bytes.getAll s.mem.bytes e.2 8))

/-- Does a record that no gatherer has pulled wait on nothing: is every counter it names satisfied? -/
def State.slotReady (s : State) (asp : Nat) (va : W64) : Bool :=
  (List.range 4).all (fun k =>
    match s.peekWord asp (va + BitVec.ofNat 64 (32 + 16 * k)), s.peekWord asp (va + BitVec.ofNat 64 (40 + 16 * k)) with
    | some 0, _ => true
    | some a, some thr => match s.peekWord asp (BitVec.ofNat 64 a) with
      | some lo => ctrSat lo thr
      | none => false
    | _, _ => false)

/-- Is a record in a queue's slot a ready peer of a task (R45)? -/
def State.slotPeer (s : State) (q : Nat) (t : Task) (id : Nat) : Bool :=
  let x := s.queue q
  let va := x.slotAddr id
  match s.peekWord x.aspace va, s.peekWord x.aspace (va + 24) with
  | some e, some fl =>
    e = t.entry.toNat && bitsN fl 0 2 = t.cls && bitsN fl 8 8 = t.budget && x.aspace = (s.queue t.queue).aspace
      && s.slotReady x.aspace va
  | _, _ => false

/-- Do the queues of a gatherer, or its die's wait table, hold a further ready record of a wave (R45)? -/
def State.morePeers (s : State) (g : Nat) (t : Task) : Bool :=
  (s.work.table.get (dieOf g) []).any (fun u => !u.poisoned && u.waits = [] && s.sameWave t u)
    || (s.work.queues.keys.filter (s.pullable g)).any (fun q =>
        let x := s.queue q
        (List.range (x.tail - x.pull)).any (fun k => s.slotPeer q t (x.pull + k)))

/-- May a gatherer form the wave of some tasks now: it is full, its window has ended, or no further ready record of its
kind is found (R45)? -/
def State.waveDue (s : State) (g : Nat) (ts : List Task) : Bool :=
  decide (32 ≤ ts.length)
    || ts.any (fun t => decide (t.taken + s.dieReg (dieOf g) 0x149 ≤ s.cycles (dieOf g)))
    || (match ts with | t :: _ => !s.morePeers g t | [] => false)

/-- The tasks of a gatherer's ready ones that a task's wave takes: the first 32 of its kind. -/
def State.waveOfTask (s : State) (l : List Task) (t : Task) : List Task := (l.filter (s.sameWave t)).take 32

/-- The tasks of a cluster's next wave: those of the foremost ready task whose wave may form. -/
def State.waveTasks (s : State) (g : Nat) : List Task :=
  let l := sortBy taskBefore (s.work.ready.get g [])
  match l.find? (fun t => s.waveDue g (s.waveOfTask l t)) with
  | some t => s.waveOfTask l t
  | none => []

/-- A task lane at its start (R45). -/
def taskLane (t : Task) : Lane :=
  let arg := fun k => BitVec.ofNat 32 (leNat ((t.inline.drop (4 * k)).take 4))
  { live := true, pc := t.entry, task := some t
    v := (0, lo32 t.record) :: (1, hi32 t.record) :: (List.range 8).map (fun k => (2 + k, arg k)) }

/-- The lowest warp slot of a cluster that no warp and no block holds. -/
def State.freeSlot (s : State) (g : Nat) : Option Nat := (List.range 64).find? (fun k => !(s.cl g).warps.has k && !s.slotHeld g k)

/-- A wave of some tasks starts in a slot: lanes 0 upward in ascending identifier, after an acquire at system scope (R44,
R45, R302). Waves take the highest granules that no block holds. -/
def State.startWave (s : State) (g slot : Nat) (t : Task) (ts : List Task) : State :=
  let lanes := (sortBy (fun (a b : Task) => decide (a.id ≤ b.id)) ts).zipIdx.map (fun e => (e.2, taskLane e.1))
  let wave : Wave := { entry := t.entry, budget := t.budget, cls := t.cls, aspace := (s.queue t.queue).aspace, kib := t.budget }
  let warp : Warp := { wave := some wave, lanes := lanes, age := s.work.age, since := s.cycles (dieOf g) }
  let s := s.acquire g 7
  let s := s.updCl g (fun c => { c with warps := c.warps.put slot warp, cores := c.freshCores [slot] })
  let n := (s.waveKib g + 63) / 64
  let top := (s.openGranules g).reverse.take n
  let s := s.updCl g (fun c => { c with holders := top.foldl (fun m k => m.put k none) c.holders })
  { s with work := { s.work with
      age := s.work.age + 1
      ready := s.work.ready.upd g [] (fun l => l.filter (fun x => !ts.any (fun y => y.queue = x.queue && y.id = x.id))) } }

/-- WAVE_FORMATION: a cluster's gatherer forms a wave from its ready tasks, when it has a free warp slot and room for the
budget, and R71 does not reserve it (R45, R69, R71). -/
def execWaveFormation (g : Nat) (s : State) : Out :=
  match s.waveTasks g, s.freeSlot g with
  | t :: r, some slot =>
    if s.clPresent g && (s.cl g).reserved.isNone && decide (s.waveKib g + t.budget ≤ 64 * s.waveGranules g) then
      .next (s.startWave g slot t (t :: r))
    else .next s
  | _, _ => .next s

end Sys2Proof.Machine
end

