-- ==== Sys2Proof/Machine/FaultQueue.lean ====
section
/-! DEFINITION. The resolution of fault-queue records (R61 to R63, R212, R228, R294, R365, R368). -/

namespace Sys2Proof.Machine

/-! ### Writes that a failed walk parks (R365) -/

/-- Forget a parked retirement write. -/
def State.delRet (s : State) (i : Nat) : State :=
  { s with work := { s.work with retWrites := s.work.retWrites.del i } }

/-- The bytes of a record when it is written: TIME is the time then (R312, R365). -/
def State.stamped (s : State) (b : List Byte) : List Byte := b.take 32 ++ leBytes 8 s.ns ++ b.drop 40

/-- Make a parked write again. -/
def State.redoRet (s : State) (i : Nat) : State :=
  match s.work.retWrites.find? i with
  | none => s
  | some w =>
    let s := s.delRet i
    match w.task, w.lnum with
    | some t, _ => s.taskDone w.g t w.poison
    | none, some n => s.launchWrite n w.va (if w.advance then [] else s.stamped w.bytes) w.advance
    | none, none => s

/-- Drop a parked write: the retirement goes on (R365). -/
def State.dropRet (s : State) (i idx : Nat) : State :=
  match s.work.retWrites.find? i with
  | none => s
  | some w =>
    let s := s.delRet i
    match w.task, w.lnum with
    | some t, _ => (s.taskErr (taskEntry t 9 0 t.done (BitVec.ofNat 64 idx))).slotRetire t.queue t.id
    | none, some n =>
      { s with work := { s.work with launches := s.work.launches.put n { s.work.launches.get n {} with dropped := true } } }
    | none, none => s

/-! ### Requests of a record -/

/-- The places of a party that are still parked at its instruction. -/
def State.parkedPlaces (s : State) (i : Issuer) : List Nat :=
  i.places.filter (fun l => s.holdOf i l = .fault && s.pcOf i l = i.pc && s.stands i l)

/-- A request walks again (action 0). -/
def State.replayReq (s : State) (die asp : Nat) (r : Requester × W64 × Access) : State :=
  match r.1 with
  | .party i _ _ => (s.setHolds i (s.parkedPlaces i) .walk).joinWalk die asp r
  | .copy g => s.updCopy g (fun q => { q with parked := false })
  | .queue q => s.updQueue q (fun x => { x with parked := false })
  | .pull _ q _ => { s with work := { s.work with parkedPull := s.work.parkedPull.del q } }
  | .sill i => if s.eng.sills.has i then s.updSill i (fun q => { q with parked := false }) else s
  | .retire i => s.redoRet i

/-- A cause delivered to a parked party: precisely, at its instruction (R294). -/
def State.deliverParty (s : State) (i : Issuer) (m : W32) (va : W64) (code idx : Nat) : State :=
  let ls := s.parkedPlaces i
  let hit := match i.unit with | .lane => ls.filter (fun l => m.getLsbD l) | _ => ls
  let s := ls.foldl (fun s l => s.leaveWalks i l) s
  let s := s.setHolds i ls .free
  match hit with
  | [] => s
  | _ => s.takeCause { i with group := lanesMask ls } ls { code := code, lanes := hit, addr := va, info := BitVec.ofNat 64 idx }
           i.pc i.pc true

/-- A cause delivered to a request (actions 1 and 2). -/
def State.deliverReq (s : State) (code idx : Nat) (r : Requester × W64 × Access) : State :=
  match r.1 with
  | .party i m _ => s.deliverParty i m r.2.1 code idx
  | .copy g =>
    match (s.cl g).copyQ with
    | q :: _ => if q.parked then (s.copyEnd g q true).engineCause g q.blk code 4 r.2.1 (BitVec.ofNat 64 idx) else s
    | [] => s
  | .queue q =>
    if (s.queue q).parked then
      ((s.updQueue q (fun x => { x with parked := false })).stopCmd q 3).fenceCp (s.queue q).assign
    else s
  | .pull g q stage =>
    match s.work.parkedPull.find? q with
    | some t => if stage = 0 then s.slotFail q code else s.pullFail g t code r.2.1 (BitVec.ofNat 64 idx)
    | none => s
  | .sill i => if s.eng.sills.has i then s.sillEnd i true else s
  | .retire i => s.dropRet i idx

/-! ### Resolutions (R63) -/

/-- The unresolved record that a write of CTL_FQRESOLVE names: the latest at its index. -/
def State.resolves (s : State) (die : Nat) (v : W64) : Option FqRec :=
  if 2 ^ 14 ≤ v.toNat || bitsN v.toNat 12 2 = 3 then none
  else (s.xl.recs.filter (fun r => r.die = die && r.placed && r.idx = bitsN v.toNat 0 12)).getLast?

/-- Requests that wait without a record walk again at each resolution (R62). -/
def State.rewalk (s : State) (die : Nat) : State :=
  let wait := s.xl.recs.filter (fun r => r.die = die && !r.placed)
  let s := { s with xl := { s.xl with recs := s.xl.recs.filter (fun r => r.die ≠ die || r.placed) } }
  wait.foldl (fun s r => r.who.foldl (fun s q => s.replayReq r.die r.aspace q) s) s

/-- Resolve a record: it is unresolved no longer, and the action reaches each of its requests in the order in which they
joined. -/
def State.resolve (s : State) (r : FqRec) (f : State → Requester × W64 × Access → State) : State :=
  let s := { s with xl := { s.xl with recs := s.xl.recs.filter (fun x => !(x.die = r.die && x.seq = r.seq && x.placed)) } }
  (r.who.foldl f s).rewalk r.die

/-- A write that acts on no request: CTL_FQSTAT bit 1. -/
def State.resolveIgnored (s : State) (die : Nat) : State := s.setCtl (1 + die) 0x144 (s.ctlOf (1 + die) 0x144 ||| 2#64)

/-- FQ_REPLAY: action 0 (R63). -/
def execFqReplay (die : Nat) (v : W64) (s : State) : Out :=
  match s.resolves die v, bitsN v.toNat 12 2 with
  | some r, 0 => .next (s.resolve r (fun s q => s.replayReq r.die r.aspace q))
  | _, _ => .next s

/-- FQ_DELIVER_PAGE_FAULT: action 1 (R63). -/
def execFqDeliverPageFault (die : Nat) (v : W64) (s : State) : Out :=
  match s.resolves die v, bitsN v.toNat 12 2 with
  | some r, 1 => .next (s.resolve r (fun s q => s.deliverReq 8 r.idx q))
  | _, _ => .next s

/-- FQ_DELIVER_ACCESS: action 2 (R63). -/
def execFqDeliverAccess (die : Nat) (v : W64) (s : State) : Out :=
  match s.resolves die v, bitsN v.toNat 12 2 with
  | some r, 2 => .next (s.resolve r (fun s q => s.deliverReq 9 r.idx q))
  | _, _ => .next s

/-- FQ_RESOLVE_IGNORED: a write that acts on no request (R63). -/
def execFqResolveIgnored (die : Nat) (v : W64) (s : State) : Out :=
  match s.resolves die v with
  | none => .next (s.resolveIgnored die)
  | some _ => .next s

/-- A write of CTL_FQRESOLVE (R63). -/
def State.fqResolve (s : State) (die : Nat) (v : W64) : State :=
  match s.resolves die v with
  | none => s.resolveIgnored die
  | some r =>
    match bitsN v.toNat 12 2 with
    | 0 => s.resolve r (fun s q => s.replayReq r.die r.aspace q)
    | 1 => s.resolve r (fun s q => s.deliverReq 8 r.idx q)
    | _ => s.resolve r (fun s q => s.deliverReq 9 r.idx q)

end Sys2Proof.Machine
end

