-- ==== Sys2Proof/Machine/Registers.lean ====
section
/-! DEFINITION. Control registers through the control window, and the writes that act (R305). -/

namespace Sys2Proof.Machine

/-- Registers in which the device reports, and which software does not write. -/
def deviceReg (n : Nat) : Bool :=
  n = 0x100 || n = 0x11A || n = 0x11B || n = 0x11C || (0x12B ≤ n && n ≤ 0x130) || n = 0x133 || n = 0x13B || n = 0x13C
    || n = 0x142 || n = 0x146 || (0x280 ≤ n && n ≤ 0x2FF) || (0x400 ≤ n && n ≤ 0x4FF)

/-- A write of CTL_TASKG: a value above 64 is taken as 64 (R70). -/
def State.setTaskg (s : State) (g : Nat) (v : W64) : State := s.setCtl (16 + g) 0x200 (BitVec.ofNat 64 (min v.toNat 64))

/-- A write of CTL_DIEFREQ: points 5 to 7 are ignored (R360). -/
def State.setDieFreq (s : State) (die : Nat) (v : W64) : State :=
  if bitsN v.toNat 0 3 ≤ 4 then s.setCtl (1 + die) 0x14A (v &&& 7#64) else s

/-- A write of a register, with what it starts (R305). -/
def State.regWrite (s : State) (inst n : Nat) (v : W64) : State :=
  if !regUsed inst n || deviceReg n then s
  else if n = 0x145 then s.fqResolve (inst - 1) v
  else if n = 0x134 then (let t := s.setCtl 0 0x134 v; if rasNames v then t.classify v else t)
  else if n = 0x135 then s.checkpoint v
  else if n = 0x14A then s.setDieFreq (inst - 1) v
  else if n = 0x200 then s.setTaskg (inst - 16) v
  else s.setCtl inst n v

/-- REGISTER_WRITE (R305). -/
def execRegisterWrite (inst num : Nat) (v : W64) (s : State) : Out := .next (s.regWrite inst num v)

/-- TASKG_WRITE (R70). -/
def execTaskgWrite (g : Nat) (v : W64) (s : State) : Out := if g < 160 then .next (s.setTaskg g v) else .next s

/-- DIE_FREQ_CHANGE (R360). -/
def execDieFreqChange (die : Nat) (v : W64) (s : State) : Out := if die < 8 then .next (s.setDieFreq die v) else .next s

/-- The highest die present that is not at the lowest point. -/
def State.lowerDie (s : State) : Option Nat :=
  ((List.range 8).reverse).find? (fun d => s.diePresent d && decide (bitsN (s.dieReg d 0x14A) 0 3 < 4))

/-- POWER_LIMIT: the package lowers the highest-numbered die's point (R360). -/
def execPowerLimit (s : State) : Out :=
  match s.lowerDie with
  | some d => .next (s.setCtl (1 + d) 0x14A (s.ctlOf (1 + d) 0x14A + 1))
  | none => .next s

end Sys2Proof.Machine
end

