-- ==== Sys2Proof/Machine/Io.lean ====
section
/-! DEFINITION. Stack 15 of the local package: control registers, append ports and interrupt pages (R49, R305, R316,
R347). -/

namespace Sys2Proof.Machine

/-- Raise the identity of a write to an interrupt page (R347). -/
def State.msiStore (s : State) (hart file v : Nat) : State :=
  if s.hartPresent hart && 1 ≤ v && v ≤ 2047 && file < 64 then s.raiseMsi hart file v else s

/-- Write n bytes at an offset. A part of a register leaves its other bytes; what no rule names ignores writes. -/
def State.ioWrite (s : State) (off n v : Nat) (who : Option Thread) : State :=
  match ioPlace off with
  | .reg i k b =>
    let old := (s.regRead i k).toNat
    let low := old % 256 ^ b
    let high := old / 256 ^ (b + n) * 256 ^ (b + n)
    s.regWrite i k (BitVec.ofNat 64 (low + v % 256 ^ n * 256 ^ b + high))
  | .port q b => if n = 8 && b = 0 then s.append q (BitVec.ofNat 64 v) who else s.appendStop q 1 (BitVec.ofNat 64 v)
  | .msi h f o => if n = 4 && o = 0 then s.msiStore h f v else s
  | .none => s

/-- MSI_WRITE: a 32-bit write of an identity to an interrupt file's page (R347). -/
def execMsiWrite (hart file : Nat) (v : W32) (s : State) : Out :=
  if hart < 72 then .next (s.msiStore hart file v.toNat) else .next s

end Sys2Proof.Machine
end

