-- ==== Sys2Proof/Machine/LoadStore.lean ====
section
/-! DEFINITION. Loads, stores, MX units, prefetch and cache maintenance (R196 to R206). -/

namespace Sys2Proof.Machine

/-! ### Pieces, stack 15 among them -/

/-- Is a piece in stack 15 of the local package? -/
def State.pieceIo (s : State) (p : Piece) : Bool := isIo p.pa && s.isLocal p.pa

/-- Read the pieces of an access by a place: its bytes, and the address of the first poisoned one. -/
def State.readReq (s : State) (who : List Thread) (g : Nat) (noL1 : Bool) (ps : List Piece) :
    State × List Byte × Option W64 :=
  match ps with
  | [p] => if s.pieceIo p then (s, leBytes p.n (s.ioRead (paOff p.pa) p.n), none) else s.readPieces who g noL1 ps
  | _ => s.readPieces who g noL1 ps

/-- Store bytes of several places: those of stack 15 in place order, the others line by line (R199). -/
def State.storeReqs (s : State) (c : Issuer) (noL1 : Bool) (xs : List (Nat × List Piece × List Byte)) : State :=
  let s := s.writePuts (xs.map (fun x => s.threadOf c x.1)) c.g noL1
    (putsOf ((xs.map (fun x => (x.2.1.filter (fun p => !s.pieceIo p), x.2.2)))))
  xs.foldl (fun s x => (x.2.1.filter s.pieceIo).foldl (fun s p =>
    s.ioWrite (paOff p.pa) p.n (leNat (x.2.2.take p.n)) (some (s.threadOf c x.1))) s) s

/-- Must a place's store wait: an append whose thread has accesses that are not performed yet (R316)? -/
def State.appendHeld (s : State) (c : Issuer) (l : Nat) (ps : List Piece) : Bool :=
  ps.any (fun p => s.pieceIo p && match ioPlace (paOff p.pa) with
    | .port q _ => s.appendAfter (s.threadOf c l) q
    | _ => false)

/-! ### Addresses -/

/-- sext(B) (R198). -/
def State.offB (s : State) (c : Issuer) (o : Ops) (l : Nat) : W64 := (lo32 (s.opB c o [] l 0 false)).signExtend 64

/-- A + sext(B) (R198). -/
def State.addrAB (s : State) (c : Issuer) (o : Ops) (l : Nat) : W64 := s.opA c o l true + s.offB c o l

/-- The scratchpad offset of LDS and STS (R202). -/
def State.scratchOff (s : State) (c : Issuer) (o : Ops) (l : Nat) : Nat :=
  (lo32 (s.opA c o l false) + lo32 (s.opB c o [] l 0 false)).toNat

/-- Bytes of a load or store. -/
def opBytes (o : Ops) : Nat := sizeBytes (o.sub % 8)

/-- The hint .L2 (R197). -/
def hintL2 (o : Ops) : Bool := o.sub / 8 = 2

/-- The lines that have come into a cluster's L1 and its die's L2 since a state are first in line to leave (R197). -/
def State.markStrm (t s : State) (g : Nat) : State :=
  let slot := s.agentId (dieOf g)
  t.updMem (fun m => { m with
    l1 := m.l1.mapv (fun k x => if k / 2 ^ 45 = g && !s.mem.l1.has k then { x with strm := true } else x)
    cache := m.cache.mapv (fun k x => if k / 2 ^ 45 = slot && !s.mem.cache.has k then { x with strm := true } else x) })

/-- What the hint .STRM makes of an access from `s` to `t` (R197). -/
def State.hinted (t s : State) (g : Nat) (o : Ops) : State := if o.sub / 8 = 1 then t.markStrm s g else t

/-! ### LD and ST (R201) -/

/-- LD: every place's load, pending in lane code. -/
def ldBody (s : State) (c : Issuer) (o : Ops) (ls : List Nat) : Eff :=
  let n := opBytes o
  match s.checkAccess c .read { al := n } (ls.map (fun l => ⟨l, s.addrAB c o l, n⟩)) with
  | .error e => s.stopEff c ls e
  | .ok qs =>
    let (t, ws, ps) := qs.foldl (fun (s, ws, ps) q =>
      let (s, b, bad) := s.readReq (s.waiting c [q.1.lane]) c.g (hintL2 o) q.2
      (s, ws ++ loadWrites (fileD c o) o.d.toNat q.1.lane (o.sub % 8) (leNat b),
        match bad with | some a => Map.put ps q.1.lane a | none => ps)) (s, ([] : List PWrite), ([] : Map W64))
    let (s, keep) := (t.hinted s c.g o).giveLoad c o false ls ws none ps
    .go s keep

/-- LD (R201). -/
def execLd (o : Ops) (s : State) : Out := .next (s.issue (.ld o) (fun s c o _ ls => ldBody s c o ls))

/-- ST: every place's store; an append waits for its thread's earlier accesses (R199, R201, R316, R319). -/
def stBody (s : State) (c : Issuer) (o : Ops) (ls : List Nat) : Eff :=
  let n := opBytes o
  match s.checkAccess c .write { al := n } (ls.map (fun l => ⟨l, s.addrAB c o l, n⟩)) with
  | .error e => s.stopEff c ls e
  | .ok qs =>
    let val := fun l => leBytes n (s.storeVal c (fileBC c o o.cs) o.c.toNat l (o.sub % 8))
    let held := fun (q : Req × List Piece) => s.appendHeld c q.1.lane q.2
    let now := qs.filter (fun q => !held q)
    .again (((s.setEffects c (now.map (fun q => q.1.lane))).storeReqs c (hintL2 o)
      (now.map (fun q => (q.1.lane, q.2, val q.1.lane)))).hinted s c.g o) ((qs.filter held).map (fun q => q.1.lane))

/-- ST (R201). -/
def execSt (o : Ops) (s : State) : Out := .next (s.issue (.st o) (fun s c o _ ls => stBody s c o ls))

/-! ### LDS and STS (R202) -/

/-- The checks of a scratchpad access of n bytes; without a share, as in a task lane, every access raises ACCESS (R202, R363,
log 76). -/
def State.scratchCheck (s : State) (c : Issuer) (n : Nat) (off : Nat → Nat) (ls : List Nat) : Option Eff :=
  if (s.blockOf c).share = 0 then some (accessAt ls (BitVec.ofNat 64 (off (ls.headD 0))))
  else
    match ls.filter (fun l => off l % n ≠ 0) with
    | l :: r => some (misalignedAt (l :: r) (BitVec.ofNat 64 (off l)))
    | [] =>
      match ls.filter (fun l => decide ((s.blockOf c).share < off l + n)) with
      | l :: r => some (accessAt (l :: r) (BitVec.ofNat 64 (off l)))
      | [] => none

/-- LDS. -/
def ldsBody (s : State) (c : Issuer) (o : Ops) (ls : List Nat) : Eff :=
  let n := opBytes o
  match s.scratchCheck c n (s.scratchOff c o) ls with
  | some e => e
  | none =>
    let ws := ls.flatMap (fun l =>
      loadWrites (fileD c o) o.d.toNat l (o.sub % 8) ((s.blockOf c).scratchNat (s.scratchOff c o l) n))
    let (s, keep) := s.giveLoad c o false ls ws none []
    .go s keep

/-- LDS (R202). -/
def execLds (o : Ops) (s : State) : Out := .next (s.issue (.lds o) (fun s c o _ ls => ldsBody s c o ls))

/-- STS: the highest place's byte stands (R199). -/
def stsBody (s : State) (c : Issuer) (o : Ops) (ls : List Nat) : Eff :=
  let n := opBytes o
  match s.scratchCheck c n (s.scratchOff c o) ls with
  | some e => e
  | none =>
    .go (s.updBlockOf c (fun b => ls.foldl (fun b l =>
      b.scratchPut (s.scratchOff c o l) (leBytes n (s.storeVal c (fileBC c o o.cs) o.c.toNat l (o.sub % 8)))) b)) []

/-- STS (R202). -/
def execSts (o : Ops) (s : State) : Out := .next (s.issue (.sts o) (fun s c o _ ls => stsBody s c o ls))

/-! ### LDW (R203) -/

/-- A stop of an access made once for a group concerns every active lane. -/
def Stop.forAll (e : Stop) (ls : List Nat) : Stop :=
  match e with
  | .fail f => .fail { f with lanes := ls }
  | .miss ms => .miss (ms.map (fun m => (m.1, m.2.1, lanesMask ls)))

/-- LDW once for the group. -/
def ldwBody (s : State) (c : Issuer) (o : Ops) (ls : List Nat) : Eff :=
  let n := opBytes o
  let l := ls.headD 0
  match s.checkAccess c .read { al := n } [⟨l, s.addrAB c o l, n⟩] with
  | .error e => s.stopEff c ls (e.forAll ls)
  | .ok qs =>
    let (s, b, bad) := s.readReq (s.waiting c ls) c.g false (qs.flatMap (·.2))
    let ps := match bad with | some a => [(l, a)] | none => []
    let (s, keep) := s.giveLoad c o true ls (loadWrites .w o.d.toNat l (o.sub % 8) (leNat b)) none ps
    .go s keep

/-- LDW (R203). -/
def execLdw (o : Ops) (s : State) : Out := .next (s.issue (.ldw o) (fun s c o _ ls => ldwBody s c o ls))

/-! ### LDMX and STMX (R204) -/

/-- Element bytes of a unit. -/
def mxBytes (o : Ops) : Nat := [32, 24, 16, 32].getD o.sub 32

/-- The scale address. -/
def State.scaleAddr (s : State) (c : Issuer) (o : Ops) (l : Nat) : W64 := s.opC c o [] l 2 true

/-- The checks of both addresses of every lane: R198, its alignment on memory-side pages among them, then the alignment of
every page, then stack 15. -/
def State.mxCheck (s : State) (c : Issuer) (o : Ops) (acc : Access) (ls : List Nat) :
    Except Stop (List (Req × List Piece) × List (Req × List Piece)) :=
  let n := mxBytes o
  let ea := s.addrAB c o
  let sa := s.scaleAddr c o
  match ls.filter (fun l => badRange (ea l) n || badRange (sa l) 1) with
  | l :: r => .error (.fail { code := 9, lanes := l :: r, addr := if badRange (ea l) n then ea l else sa l, info := 0xFFFF })
  | [] =>
    let rule : Nat → Rule := fun al => { al := al, noIo := true, ioMax := 128 }
    match s.checkAccess c acc (rule n) (ls.map (fun l => ⟨l, ea l, n⟩)), s.checkAccess c acc (rule 1) (ls.map (fun l => ⟨l, sa l, 1⟩)) with
    | .error (.miss a), .error (.miss b) => .error (.miss (a ++ b))
    | .error (.miss a), _ => .error (.miss a)
    | _, .error (.miss b) => .error (.miss b)
    | .error (.fail { code := 7, lanes := k, addr := a, info := i }), _ => .error (.fail { code := 7, lanes := k, addr := a, info := i })
    | x, y =>
      match ls.filter (fun l => (ea l).toNat % 8 ≠ 0 || decide (128 < (ea l).toNat % 128 + n)) with
      | l :: r => .error (.fail { code := 7, lanes := l :: r, addr := ea l })
      | [] =>
        match x, y with
        | .ok p, .ok q => .ok (p, q)
        | .error e, _ => .error e
        | _, .error e => .error e

/-- The one piece of a request that lies in a line. -/
def onePiece (q : Req × List Piece) : Piece := q.2.headD {}

/-- LDMX of one lane: its writes, and its first poisoned address. -/
def State.ldmxLane (s : State) (who : List Thread) (g d n : Nat) (p q : Piece) (l : Nat) :
    State × List PWrite × Option W64 :=
  let s := (s.makeCurrent (p.pa / 128) p.cls).makeCurrent (q.pa / 128) q.cls
  let s := (s.dropStale g (p.pa / 128)).dropStale g (q.pa / 128)
  let (s, x, bx) := s.atHome who (p.pa / 128) (some (dieOf g))
  let (s, y, bads) := s.atHome who (q.pa / 128) (some (dieOf g))
  let e := lineBytes x (p.pa % 128) n
  let ws := (List.range (n / 4)).map (fun k => (⟨l, .v, d + k, BitVec.ofNat 64 (leNat ((e.drop (4 * k)).take 4))⟩ : PWrite))
  (s, ws ++ [⟨l, .v, d + n / 4, (lineByte y (q.pa % 128)).setWidth 64⟩],
    if bx then some p.va else if bads then some q.va else none)

/-- LDMX of the active lanes. -/
def ldmxBody (s : State) (c : Issuer) (o : Ops) (ls : List Nat) : Eff :=
  match s.mxCheck c o .read ls with
  | .error e => s.stopEff c ls e
  | .ok (ps, qs) =>
    let (s, ws, bad) := (ps.zip qs).foldl (fun (s, ws, bad) x =>
      let l := x.1.1.lane
      let (s, w, a) := s.ldmxLane (s.waiting c [l]) c.g o.d.toNat (mxBytes o) (onePiece x.1) (onePiece x.2) l
      (s, ws ++ w, match a with | some v => Map.put bad l v | none => bad)) (s, ([] : List PWrite), ([] : Map W64))
    let (s, keep) := s.giveLoad c o false ls ws none bad
    .go s keep

/-- LDMX (R204). -/
def execLdmx (o : Ops) (s : State) : Out := .next (s.issue (.ldmx o) (fun s c o _ ls => ldmxBody s c o ls))

/-- Write bytes of a line at its home, for a cluster. -/
def State.homePut (s : State) (who : List Thread) (g : Nat) (p : Piece) (b : List Byte) : State :=
  if s.isLocal p.pa then
    s.homeWrite (p.pa / 128) (byteMask (p.pa % 128) b.length) (setLineBytes 0 (p.pa % 128) b) (p.cls = 3) false (some (dieOf g))
  else s.askWrite who (p.pa / 128)

/-- STMX of one lane. -/
def State.stmxLane (s : State) (who : List Thread) (g : Nat) (p q : Piece) (e : List Byte) (sc : Byte) : State :=
  let s := (s.dropCopies (p.pa / 128)).dropCopies (q.pa / 128)
  (s.homePut who g p e).homePut who g q [sc]

/-- STMX of the active lanes. -/
def stmxBody (s : State) (c : Issuer) (o : Ops) (ls : List Nat) : Eff :=
  match s.mxCheck c o .write ls with
  | .error e => s.stopEff c ls e
  | .ok (ps, qs) =>
    let n := mxBytes o
    let reg := fun l k => (s.v c.g c.slot l (o.d.toNat + k)).toNat
    .go ((ps.zip qs).foldl (fun s x =>
      let l := x.1.1.lane
      let e := (List.range (n / 4)).flatMap (fun k => leBytes 4 (reg l k))
      s.stmxLane [s.threadOf c l] c.g (onePiece x.1) (onePiece x.2) e (BitVec.ofNat 8 (reg l (n / 4)))) s) []

/-- STMX (R204). -/
def execStmx (o : Ops) (s : State) : Out := .next (s.issue (.stmx o) (fun s c o _ ls => stmxBody s c o ls))

/-! ### PREF (R205) -/

/-- Does the walk of a PREF give a translation, without a frame, a fault or a change of class (R205, log 76)? -/
def State.prefWalks (s : State) (g asp : Nat) (va : W64) : Bool :=
  match (s.leafOf asp va).2 with
  | some (_, lvl, e) =>
    pteV e && !s.leafBad lvl e && !pteMig e && permits e .read && admits (pteCls e) (pteOwner e) (some g)
      && pteCls e ≠ 3 && !isIo (ptePa e)
  | none => false

/-- The translation that a PREF uses: one held, or that of a walk. -/
def State.prefXlate (s : State) (g asp : Nat) (va : W64) : State × Option Tlb :=
  match s.tlbFind g asp va .read with
  | some t => (s, some t)
  | none =>
    if s.prefWalks g asp va then
      match s.walk asp va .read (some g) with
      | (s, .ok t) => (s.tlbInstall g t, some t)
      | (s, _) => (s, none)
    else (s, none)

/-- PREF of one place: a line of a page of a cached class, of another package of the island too, comes into the L2, and into the L1
when the L1 is named; else nothing. -/
def State.prefetch (s : State) (c : Issuer) (noL1 : Bool) (va : W64) : State :=
  if badAddr va then s
  else match s.prefXlate c.g (s.aspaceOf c) va with
    | (s, none) => s
    | (s, some t) =>
      let pa := t.addr va
      let line := pa / 128
      if t.cls = 3 || isIo pa then s
      else if !s.isLocal pa then
        (if t.cls ≠ 2 || !s.isPeer line then s
         else if noL1 then (s.peerRead [] (s.agentId (dieOf c.g)) line).1
         else (s.peerLoad [] c.g line false).1)
      else if noL1 then (s.l2Read (dieOf c.g) t.cls (pa / 128)).1
      else (s.loadLine c.g t.cls (pa / 128) fullMask false).1

/-- PREF (R205). -/
def execPref (o : Ops) (s : State) : Out :=
  .next (s.issue (.pref o) (fun s c o _ ls =>
    .go (ls.foldl (fun s l => s.prefetch c (o.sub = 0) (s.addrAB c o l)) s) []))

/-! ### CMAINT (R206) -/

/-- The pages of a range: the address in each. -/
def rangePages (a : W64) (len : Nat) : List W64 :=
  if len = 0 then []
  else
    let p := a.toNat / 32768
    (List.range ((a.toNat + len - 1) / 32768 + 1 - p)).map (fun k => if k = 0 then a else BitVec.ofNat 64 ((p + k) * 32768))

/-- What a page of a range is to CMAINT: skipped, to be maintained from a physical address, or faulting. -/
inductive MaintPage where
  | skip
  | lines (pa cls : Nat)
  | fault
deriving DecidableEq, Repr, Inhabited

/-- Look at a page of a range. -/
def State.maintPage (s : State) (asp : Nat) (va : W64) : MaintPage :=
  match (s.leafOf asp va).2 with
  | none => .fault
  | some (_, lvl, e) =>
    if !pteV e then .skip
    else if s.leafBad lvl e || pteMig e || !permits e .read then .fault
    else if pteCls e = 3 then .skip
    else .lines ((leafTlb asp lvl va e).addr va) (pteCls e)

/-- The lines that some bytes overlap. -/
def linesOf (pa n : Nat) : List Nat := (List.range ((pa + n - 1) / 128 + 1 - pa / 128)).map (pa / 128 + ·)

/-- Maintain one line. -/
def State.maintLine (s : State) (inv : Bool) (line cls : Nat) : State :=
  let s := s.cleanLine line cls
  if inv then s.dropCopies line else s

/-- Maintain the lines of a range that lie in one page. -/
def State.maintLines (s : State) (inv : Bool) (pa cls n : Nat) : State :=
  if isIo pa then s
  else (linesOf pa n).foldl (fun s line => s.maintLine inv line cls) s

/-- The lines of a place's range, with their classes. -/
def State.maintRange (s : State) (asp : Nat) (a : W64) (len : Nat) : List (Nat × Nat) :=
  (rangePages a len).flatMap (fun va =>
    match s.maintPage asp va with
    | .lines pa cls =>
      if isIo pa then []
      else (linesOf pa (min (32768 - va.toNat % 32768) (a.toNat + len - va.toNat))).map (fun l => (l, cls))
    | _ => [])

/-- One place's CMAINT begins: its lines wait to be brought into their state, each at a time of its own (R206). -/
def State.maintain (s : State) (th : Thread) (asp : Nat) (inv : Bool) (a : W64) (len : Nat) : State :=
  let ms := (s.maintRange asp a len).map (fun e => ({ who := th, line := e.1, cls := e.2, inv := inv } : Maint))
  { s with eng := { s.eng with maints := s.eng.maints ++ ms } }

/-- One line of a CMAINT is brought into its state. -/
def State.maintNext (s : State) (i : Nat) : State :=
  match s.eng.maints[i]? with
  | some m => ({ s with eng := { s.eng with maints := s.eng.maints.eraseIdx i } }).maintLine m.inv m.line m.cls
  | none => s

/-- Every CMAINT of a thread completes (R206). -/
def State.maintAll (s : State) (th : Thread) : State :=
  let mine := s.eng.maints.filter (fun m => m.who = th)
  mine.foldl (fun s m => s.maintLine m.inv m.line m.cls)
    { s with eng := { s.eng with maints := s.eng.maints.filter (fun m => m.who ≠ th) } }

/-- CMAINT of the active places. -/
def cmaintBody (inv : Bool) (s : State) (c : Issuer) (o : Ops) (ls : List Nat) : Eff :=
  let a := fun l => s.opA c o l true
  let n := fun l => (lo32 (s.opB c o [] l 0 false)).toNat
  let asp := s.aspaceOf c
  match ls.filter (fun l => n l ≠ 0 && badRange (a l) (n l)) with
  | l :: r => accessAt (l :: r) (a l)
  | [] =>
    let miss := ls.flatMap (fun l => ((rangePages (a l) (n l)).filter (fun va => s.maintPage asp va = .fault)).map (fun va =>
      (va, Access.read, 1#32 <<< l)))
    match miss with
    | m :: ms => .go (s.missWalk c ls (m :: ms)) c.places
    | [] => .go (ls.foldl (fun s l => s.maintain (s.threadOf c l) asp inv (a l) (n l)) s) []

/-- CMAINT.CLEAN (R206). -/
def execCmaintClean (o : Ops) (s : State) : Out :=
  .next (s.issue (.cmaintClean o) (fun s c o _ ls => cmaintBody false s c o ls))
/-- CMAINT.CLINV (R206). -/
def execCmaintClinv (o : Ops) (s : State) : Out :=
  .next (s.issue (.cmaintClinv o) (fun s c o _ ls => cmaintBody true s c o ls))

end Sys2Proof.Machine
end

