-- ==== Sys2Proof/Machine/Atomics.lean ====
section
/-! DEFINITION. ATOM, ATOMS, RED, LR and SC (R256 to R261). -/

namespace Sys2Proof.Machine

/-! ### Operations (R258) -/

/-- Bytes of an atomic. -/
def atomBytes (o : Ops) : Nat := if o.sub = 8 then 16 else if wideTy o.ty then 8 else 4

/-- The fields of a float operation with a SUB of its own: RNE, subnormals kept. -/
def plainSub (o : Ops) (sub : Nat) : Ops := { o with m := BitVec.ofNat 9 (16 * sub) }

/-- The lesser or greater of two integers of w bits, in a type's signedness. -/
def pickInt (w : Nat) (signed isMax : Bool) (x y : Nat) : Nat :=
  let v := fun n => if signed && decide (2 ^ (w - 1) ≤ n) then (n : Int) - 2 ^ w else (n : Int)
  if (if isMax then decide (v y ≤ v x) else decide (v x ≤ v y)) then x else y

/-- A float operation on the elements of old and b. -/
def atomFloat (o : Ops) (g : Fmt → List Nat → Nat × Flags) (old b : Nat) : Nat :=
  (fpMap o.ty (fmtOf o.ty).width [BitVec.ofNat 64 old, BitVec.ofNat 64 b] (g (fmtOf o.ty))).1.toNat

/-- The new value of an atomic (R258). -/
def atomNew (o : Ops) (old b c : Nat) : Nat :=
  let w := 8 * atomBytes o
  let signed := o.ty % 2 = 1
  match o.sub with
  | 0 => (old + b) % 2 ^ w
  | 1 => pickInt w signed false old b
  | 2 => pickInt w signed true old b
  | 3 => old &&& b
  | 4 => old ||| b
  | 5 => old ^^^ b
  | 6 => b
  | 7 | 8 => if old = b then c else old
  | 9 => atomFloat o (faddElem (plainSub o 0)) old b % 2 ^ w
  | 10 => atomFloat o (fmnmxElem (plainSub o 0)) old b % 2 ^ w
  | _ => atomFloat o (fmnmxElem (plainSub o 1)) old b % 2 ^ w

/-- The operand B of an atomic. -/
def State.atomB (s : State) (c : Issuer) (o : Ops) (l : Nat) : Nat :=
  if o.sub = 8 then s.storeVal c (fileBC c o o.bs) o.b.toNat l 6
  else (s.opB c o [] l o.ty (wideTy o.ty)).toNat % 2 ^ (8 * atomBytes o)

/-- The swap value C of CAS and CAS128. -/
def State.atomC (s : State) (c : Issuer) (o : Ops) (l : Nat) : Nat :=
  if o.sub = 8 then s.storeVal c (fileBC c o o.cs) o.c.toNat l 6
  else (s.regOf c (fileBC c o o.cs) o.c.toNat l (wideTy o.ty)).toNat % 2 ^ (8 * atomBytes o)

/-- The writes of an old value. -/
def atomWrites (c : Issuer) (o : Ops) (l v : Nat) : List PWrite :=
  if o.sub = 8 then loadWrites (fileD c o) o.d.toNat l 6 v
  else resWrites (fileD c o) o.d.toNat l o.ty (wideTy o.ty) (BitVec.ofNat 64 v)

/-- The scope of an acquire that the ordering byte of a 96-bit form asks for (R257). -/
def atomAcq (o : Ops) : Option Nat :=
  if o.form = .f96 && bitsN o.ext.toNat 3 1 = 1 then some (bitsN o.ext.toNat 0 3) else none

/-- The places whose atomic releases accesses that are not performed yet (R260). -/
def State.atomHeld (s : State) (c : Issuer) (rel : Option Nat) (ls : List Nat) : List Nat :=
  match rel with
  | some scope => s.releaseHeld c scope ls
  | none => []

/-- The scope of a release that the ordering byte of a 96-bit form asks for (R257). -/
def atomRel (o : Ops) : Option Nat :=
  if o.form = .f96 && bitsN o.ext.toNat 4 1 = 1 then some (bitsN o.ext.toNat 0 3) else none

/-! ### Where an atomic is performed (R192, R251) -/

/-- The line as the L2 of a die performs atomics on it: an M copy of a shared line, or the private line; none when the home
must serve it. -/
def State.atomLine (s : State) (g cls line : Nat) : State × Option (Line × Bool) :=
  let slot := s.agentId (dieOf g)
  if cls = 2 then
    let (s, ok) := s.agentOwn slot line
    match ok, s.mem.cline slot line with
    | true, some x => (s, some (x.data, x.poison))
    | _, _ => (s, none)
  else
    let s := if cls = 0 then s.flushL1 g line else s
    let (s, x, p) := s.privRead (dieOf g) line
    (s, some (x, p))

/-- One read-modify-write of n bytes in a line: the old value and whether the line was poisoned, in which case nothing is
written. The cluster's own L1 copy goes. -/
def State.rmw (s : State) (who : List Thread) (g : Nat) (p : Piece) (f : Nat → Nat) : State × Nat × Bool :=
  let line := p.pa / 128
  let off := p.pa % 128
  let val := fun x => leNat (lineBytes x off p.n)
  let data := fun x => setLineBytes 0 off (leBytes p.n (f (val x)))
  let mask := byteMask off p.n
  if !s.isLocal p.pa then
    let s := s.updMem (fun m => m.clearResv line)
    if p.cls = 2 && s.isPeer line then
      let s := s.updMem (fun m => m.dropL1 g line)
      let slot := s.agentId (dieOf g)
      let (s, ok) := s.peerOwn who slot line false
      match ok, s.mem.cline slot line with
      | true, some c => (if c.poison then s else s.agentPut slot line mask (data c.data), val c.data, c.poison)
      | _, _ => (s, val (Config.remoteLine s.ticks line), true)
    else
      let (s, x, bad) := s.askRead who line
      (s, val x, bad)
  else if p.cls = 3 then
    let (s, x, bad) := s.msRead line (some (dieOf g))
    (if bad then s else s.homeWrite line mask (data x) true false (some (dieOf g)), val x, bad)
  else
    let (s, got) := s.atomLine g p.cls line
    let s := s.updMem (fun m => m.dropL1 g line)
    match got with
    | some (x, bad) =>
      (if bad then s else (s.updMem (fun m => m.clearResv line)).agentPut (s.agentId (dieOf g)) line mask (data x), val x, bad)
    | none =>
      let (s, x, bad) := s.homeRead line
      (if bad then s else s.homeWrite line mask (data x) false, val x, bad)

/-- The rule of the addresses of atomics (R259, R261). -/
def atomRule (n : Nat) : Rule := { al := n, always := true, noIo := true, ioMax := 128 }

/-! ### ATOM, RED and ATOMS (R259) -/

/-- ATOM and RED of the active places, in ascending order: old values and poisoned addresses. -/
def State.atomAll (s : State) (c : Issuer) (o : Ops) (qs : List (Req × List Piece)) :
    State × List (Nat × Nat) × Map W64 :=
  qs.foldl (fun (s, olds, bad) q =>
    let l := q.1.lane
    let (s, old, p) := s.rmw (s.waiting c [l]) c.g (q.2.headD {}) (fun old => atomNew o old (s.atomB c o l) (s.atomC c o l))
    (s, olds ++ [(l, old)], if p then Map.put bad l q.1.va else bad)) (s, [], [])

/-- ATOM. -/
def atomBody (s : State) (c : Issuer) (o : Ops) (ls : List Nat) : Eff :=
  let n := atomBytes o
  match s.checkAccess c .atomic (atomRule n) (ls.map (fun l => ⟨l, s.opA c o l true, n⟩)) with
  | .error e => s.stopEff c ls e
  | .ok qs =>
    let held := s.atomHeld c (atomRel o) ls
    match ls.filter (fun l => !held.contains l) with
    | [] => .again s ls
    | now =>
      let (s, olds, bad) := (s.setEffects c now).atomAll c o (qs.filter (fun q => !held.contains q.1.lane))
      let (s, keep) := s.giveLoad c o false now (olds.flatMap (fun e => atomWrites c o e.1 e.2)) (atomAcq o) bad
      .again s (keep ++ held)

/-- ATOM (R258 to R260). -/
def execAtom (o : Ops) (s : State) : Out := .next (s.issue (.atom o) (fun s c o _ ls => atomBody s c o ls))

/-- RED. -/
def redBody (s : State) (c : Issuer) (o : Ops) (ls : List Nat) : Eff :=
  let n := atomBytes o
  match s.checkAccess c .atomic (atomRule n) (ls.map (fun l => ⟨l, s.opA c o l true, n⟩)) with
  | .error e => s.stopEff c ls e
  | .ok qs =>
    let held := s.atomHeld c (atomRel o) ls
    match ls.filter (fun l => !held.contains l) with
    | [] => .again s ls
    | now => .again ((s.setEffects c now).atomAll c o (qs.filter (fun q => !held.contains q.1.lane))).1 held

/-- RED (R258 to R260). -/
def execRed (o : Ops) (s : State) : Out := .next (s.issue (.red o) (fun s c o _ ls => redBody s c o ls))

/-- ATOMS: at the scratchpad bank (R259). -/
def atomsBody (s : State) (c : Issuer) (o : Ops) (ls : List Nat) : Eff :=
  let n := atomBytes o
  let off := fun l => (s.opA c o l false).toNat
  match s.scratchCheck c n off ls with
  | some e => e
  | none =>
    let held := s.atomHeld c (atomRel o) ls
    match ls.filter (fun l => !held.contains l) with
    | [] => .again s ls
    | now =>
      let b := fun l => s.atomB c o l
      let x := fun l => s.atomC c o l
      let (s, ws) := now.foldl (fun ((s : State), ws) l =>
        let old := (s.blockOf c).scratchNat (off l) n
        (s.updBlockOf c (fun k => k.scratchPut (off l) (leBytes n (atomNew o old (b l) (x l)))), ws ++ atomWrites c o l old))
        (s, ([] : List PWrite))
      let (s, keep) := s.giveLoad c o false now ws (atomAcq o) []
      .again s (keep ++ held)

/-- ATOMS (R258 to R260). -/
def execAtoms (o : Ops) (s : State) : Out := .next (s.issue (.atoms o) (fun s c o _ ls => atomsBody s c o ls))

/-! ### LR and SC (R261) -/

/-- Does a reservation belong to a place's warp or context? -/
def Resv.isOf (r : Resv) (c : Issuer) : Bool := r.g = c.g && r.slot = c.slot && r.spine = (c.unit = .spine)

/-- Clear the reservation of a place's warp or context. -/
def State.dropResv (s : State) (c : Issuer) : State :=
  s.updMem (fun m => { m with resv := m.resv.filter (fun r => !r.isOf c) })

/-- ACCESS for the places whose page is memory-side. -/
def memSideFail (qs : List (Req × List Piece)) : Option Fail :=
  match qs.filter (fun q => q.2.any (fun p => p.cls = 3)) with
  | q :: r => some { code := 9, lanes := (q :: r).map (fun x => x.1.lane), addr := q.1.va, info := 0xFFFF }
  | [] => none

/-- LR reads at the L2; the cluster's own L1 copy goes, so that no later load returns an older value (R192, R250). -/
def State.lrRead (s : State) (who : List Thread) (g : Nat) (p : Piece) : State × Nat × Bool :=
  let line := p.pa / 128
  let val := fun x => leNat (lineBytes x (p.pa % 128) p.n)
  if s.isLocal p.pa then
    let s := if p.cls = 0 then s.flushL1 g line else s.updMem (fun m => m.dropL1 g line)
    let (s, x, bad) := s.l2Read (dieOf g) p.cls line
    (s, val x, bad)
  else if p.cls = 2 && s.isPeer line then
    let (s, x, bad) := (s.updMem (fun m => m.dropL1 g line)).peerLoad who g line true
    (s, val x, bad)
  else
    let (s, x, bad) := s.askRead who line
    (s, val x, bad)

/-- LR. -/
def lrBody (s : State) (c : Issuer) (o : Ops) (ls : List Nat) : Eff :=
  let n := if wideTy o.ty then 8 else 4
  match s.checkAccess c .read (atomRule n) (ls.map (fun l => ⟨l, s.opA c o l true, n⟩)) with
  | .error e => s.stopEff c ls e
  | .ok qs =>
    match memSideFail qs with
    | some f => .fail f
    | none =>
      let (s, ws, bad) := qs.foldl (fun (s, ws, bad) q =>
        let l := q.1.lane
        let (s, v, p) := s.lrRead (s.waiting c [l]) c.g (q.2.headD {})
        (s, ws ++ resWrites (fileD c o) o.d.toNat l o.ty (wideTy o.ty) (BitVec.ofNat 64 v),
          if p then Map.put bad l q.1.va else bad)) (s, ([] : List PWrite), ([] : Map W64))
      let line := (((qs.headD default).2.headD {}).pa) / 128
      let r : Resv := { g := c.g, spine := c.unit = Unit.spine, slot := c.slot, line := line, agent := s.agentId (dieOf c.g) }
      let s := (s.dropResv c).updMem (fun m => { m with resv := m.resv ++ [r] })
      let acq := if o.b.getLsbD 3 then some (o.b.toNat % 8) else none
      let (s, keep) := s.giveLoad c o false ls ws acq bad
      .go s keep

/-- LR (R261). -/
def execLr (o : Ops) (s : State) : Out := .next (s.issue (.lr o) (fun s c o _ ls => lrBody s c o ls))

/-- The store of one place of SC, at the L2. -/
def State.scStore (s : State) (who : List Thread) (g : Nat) (p : Piece) (v : Nat) : State :=
  let line := p.pa / 128
  let mask := byteMask (p.pa % 128) p.n
  let data := setLineBytes 0 (p.pa % 128) (leBytes p.n v)
  if !s.isLocal p.pa && p.cls = 2 && s.isPeer line then s.peerStore who g line mask data
  else if !s.isLocal p.pa then s.askWrite who line
  else
  let s := if p.cls = 0 then s.flushL1 g line else s
  let s := s.updMem (fun m => m.dropL1 g line)
  if p.cls = 2 then s.agentStore (s.agentId (dieOf g)) line mask data else s.privStore (dieOf g) line mask data

/-- SC: the places whose address lies in the reserved line store, in ascending order, and the reservation goes. -/
def scBody (s : State) (c : Issuer) (o : Ops) (ls : List Nat) : Eff :=
  let n := if wideTy o.ty then 8 else 4
  match s.checkAccess c .write (atomRule n) (ls.map (fun l => ⟨l, s.opA c o l true, n⟩)) with
  | .error e => s.stopEff c ls e
  | .ok qs =>
    match memSideFail qs with
    | some f => .fail f
    | none =>
      match s.atomHeld c (if o.b.getLsbD 4 then some (o.b.toNat % 8) else none) ls with
      | _ :: _ => .again s ls
      | [] =>
        let held := s.mem.resv.find? (fun r => r.isOf c)
        let wins := qs.filter (fun q => held.any (fun r => r.line = (q.2.headD {}).pa / 128))
        let val := fun l => (s.regOf c (fileBC c o o.cs) o.c.toNat l (wideTy o.ty)).toNat
        let won := wins.map (fun q => q.1.lane)
        let t := wins.foldl (fun s q => s.scStore [s.threadOf c q.1.lane] c.g (q.2.headD {}) (val q.1.lane)) (s.setEffects c won)
        let ws := ls.flatMap (fun l => resWrites (fileD c o) o.d.toNat l 0 false (if won.contains l then 0 else 1))
        let (t, keep) := (t.dropResv c).giveLoad c o false ls ws none []
        .go t keep

/-- SC (R261). -/
def execSc (o : Ops) (s : State) : Out := .next (s.issue (.sc o) (fun s c o _ ls => scBody s c o ls))

end Sys2Proof.Machine
end

