-- ==== Sys2Proof/Machine/Barriers.lean ====
section
/-! DEFINITION. FENCE, FENCER and BAR (R262 to R266). -/

namespace Sys2Proof.Machine

/-! ### Fences (R262) -/

/-- A fence of a scope: the places whose accesses are not performed issue it again; the CMAINTs of the others complete, and
they drop what an acquire of the scope drops (R206, R262). -/
def fenceGo (s : State) (c : Issuer) (scope : Nat) (ls : List Nat) : Eff :=
  let late := ls.filter (fun l => s.fenceLate scope (s.threadOf c l))
  match ls.filter (fun l => !late.contains l) with
  | [] => .again s ls
  | done => .again ((done.foldl (fun (t : State) l => t.maintAll (s.threadOf c l)) s).acquire c.g scope) late

/-- FENCE (R262). -/
def execFence (o : Ops) (s : State) : Out :=
  .next (s.issue (.fence o) (fun s c o _ ls => fenceGo s c o.b.toNat ls))

/-- FENCER: a fence once every base is within the address space. -/
def fencerBody (s : State) (c : Issuer) (o : Ops) (ls : List Nat) : Eff :=
  let a := fun l => s.opA c o l true
  match ls.filter (fun l => badAddr (a l)) with
  | l :: r => accessAt (l :: r) (a l)
  | [] => fenceGo s c o.c.toNat ls

/-- FENCER (R262). -/
def execFencer (o : Ops) (s : State) : Out := .next (s.issue (.fencer o) (fun s c o _ ls => fencerBody s c o ls))

/-! ### Groups that a BAR names (R263) -/

/-- ACCESS with no address. -/
def accessNone (ls : List Nat) : Eff := .fail { code := 9, lanes := ls, info := 0xFFFF }

/-- The table indexes of a warp's groups, ascending (R14). -/
def Block.warpGroups (b : Block) (bw : Nat) : List Nat :=
  (List.range b.img.groups.length).filter (fun k => (b.img.groups.getD k {}).warps.getLsbD bw)

/-- The table index that a BAR names, none when the party holds no such group. -/
def State.barIndex (s : State) (c : Issuer) (o : Ops) : Option Nat :=
  let b := s.blockOf c
  if (s.waveOf c).isSome then none
  else if bitsN o.sub 3 1 = 1 then (if o.a.toNat < b.img.groups.length then some o.a.toNat else none)
  else (b.warpGroups (s.warp c.g c.slot).bw)[o.a.toNat % 4]?

/-- The group entry of a table index of the issuer's block. -/
def State.barEntry (s : State) (c : Issuer) (k : Nat) : Nat := (s.blockOf c).groupMap.getD k 0

/-- Is the party a member of an entry? -/
def State.barMember (s : State) (c : Issuer) (e : Nat) : Bool :=
  match c.unit with
  | .lane => (s.group c.g e).warps.getLsbD c.slot
  | _ => (s.group c.g e).spine

/-- What a party holds of its arrivals at an entry. -/
def State.arriveOf (s : State) (c : Issuer) (e : Nat) : Arrive :=
  match c.unit with
  | .lane => (s.warp c.g c.slot).arr.get e {}
  | _ => (s.spine c.g c.slot).arr.get e {}

/-- The spine context arrives; its arrival counts at once, and a drop once in a phase (R264). -/
def State.arriveSpine (s : State) (c : Issuer) (e : Nat) (drop : Bool) : State :=
  let a := (s.spine c.g c.slot).arr.get e {}
  let was := a.drop && s.arrivedNow c.g e a
  let r := (s.group c.g e).round
  let s := s.updSpine c.g c.slot (fun x => { x with arr := x.arr.put e { drop := drop || was, round := r, counted := true } })
  s.countArrival c.g e (drop && !was)

/-- Places arrive at an entry. -/
def State.arrive (s : State) (c : Issuer) (e : Nat) (ls : List Nat) (drop : Bool) : State :=
  match ls, c.unit with
  | [], _ => s
  | _, .lane => s.arriveLanes c.g c.slot e ls drop
  | _, _ => s.arriveSpine c e drop

/-- Must a party that waits now wait for the present phase (R265)? -/
def State.barWaits (s : State) (c : Issuer) (e : Nat) : Bool :=
  let a := s.arriveOf c e
  a.mask ≠ 0 || s.arrivedNow c.g e a

/-- Places block on an entry's present phase: ILLEGAL_WAIT in `before`, or the wait (R26, R265). -/
def State.barBlock (before s : State) (c : Issuer) (o : Ops) (k e : Nat) (obj : WaitObj) (ls : List Nat) (sync : Bool)
    (rest : List Nat) : Eff :=
  let code := (before.group c.g e).pcode
  match ls.filter (fun l => !before.waitLegal c l code none) with
  | l :: r => .fail { code := 5, lanes := l :: r, info := BitVec.ofNat 64 (code + 4 * k) }
  | [] => .go (s.blockOn c ls 2 obj o.form.bytes o.sw sync) (ls ++ rest)

/-- Is a lane of the warp to be held because its warp has been counted in the present phase (R264)? -/
def State.barHeld (s : State) (c : Issuer) (e : Nat) : Bool := c.unit = .lane && s.arrivedNow c.g e (s.arriveOf c e)

/-- BAR in its local forms: which of ARRIVE, WAIT, SYNC and DROP it is says whether it arrives, drops and waits. Lanes with
WAITONLY perform only the wait half (R296). -/
def barBody (arrives drops waits : Bool) (s : State) (c : Issuer) (o : Ops) (ls : List Nat) : Eff :=
  match s.barIndex c o with
  | none => accessNone ls
  | some k =>
    let e := s.barEntry c k
    let a := s.arriveOf c e
    if a.dropped || (arrives && !s.barMember c e) then accessNone ls
    else
      let only := fun l => match c.unit with
        | .lane => (s.lane c.g c.slot l).waitOnly
        | _ => (s.spine c.g c.slot).waitOnly
      let come := if arrives then ls.filter (fun l => !(waits && only l)) else []
      let rest := ls.filter (fun l => !come.contains l)
      if come ≠ [] && s.barHeld c e then
        match rest with
        | [] => s.barBlock s c o k e (.regroup e) come false []
        | _ =>
          let t := s.blockOn c rest 2 (.group e) o.form.bytes o.sw true
          s.barBlock t c o k e (.regroup e) come false rest
      else
        let t := s.arrive c e come drops
        if waits && t.barWaits c e then s.barBlock t c o k e (.group e) ls (arrives || o.sub % 8 = 2) []
        else .go t []

/-- BAR.ARRIVE (R263, R264). -/
def execBarArrive (o : Ops) (s : State) : Out :=
  .next (s.issue (.barArrive o) (fun s c o _ ls => barBody true false false s c o ls))
/-- BAR.WAIT (R263, R265). -/
def execBarWait (o : Ops) (s : State) : Out :=
  .next (s.issue (.barWait o) (fun s c o _ ls => barBody false false true s c o ls))
/-- BAR.SYNC (R263 to R265). -/
def execBarSync (o : Ops) (s : State) : Out :=
  .next (s.issue (.barSync o) (fun s c o _ ls => barBody true false true s c o ls))
/-- BAR.DROP (R263, R264). -/
def execBarDrop (o : Ops) (s : State) : Out :=
  .next (s.issue (.barDrop o) (fun s c o _ ls => barBody true true false s c o ls))

/-! ### BAR.REMOTE (R266) -/

/-- Where a block of a launch is resident: cluster and block slot. -/
def State.findBlock (s : State) (lnum blk : Nat) : Option (Nat × Nat) :=
  (s.clusters.flatMap (fun e => (e.2.blocks.filter (fun x => x.2.lnum = lnum && x.2.blk = blk)).map (fun x => (e.1, x.1)))).head?

/-- Add 1 to the ARR word of a group of a block that is away (R307, R308). -/
def State.arrAdd (s : State) (lnum blk k : Nat) : State :=
  let l := s.work.launches.get lnum {}
  match l.areas.find? blk with
  | none => s
  | some a =>
    match s.unitXlate l.aspace (BitVec.ofNat 64 (a + 256 + 32 * k + 24)) .write none with
    | (s, .ok (pa, _)) =>
      let (s, x) := s.physWord pa
      s.physWrite pa (leBytes 8 (x + 1).toNat) true
    | (s, .fail _ _ _) => s

/-- A remote arrival at group k of a block: at its entry, or at its ARR word while the launch is away; an arrival for a
retired block is discarded. -/
def State.remoteArrive (s : State) (lnum blk k : Nat) : State :=
  if (s.work.launches.get lnum {}).away then s.arrAdd lnum blk k
  else match s.findBlock lnum blk with
    | some (g, b) => s.countArrival g ((s.block g b).groupMap.getD k 0) false
    | none => s

/-- BAR.REMOTE once for the group, once the accesses that it releases are performed (R263, R266). -/
def barRemoteBody (s : State) (c : Issuer) (o : Ops) (ls : List Nat) : Eff :=
  let b := s.blockOf c
  let blk := (s.opB c o [] (ls.headD 0) 2 true).toNat
  if (s.waveOf c).isSome || b.img.cls ≠ 0 || decide (b.nx * b.ny * b.nz ≤ blk) || decide (b.img.groups.length ≤ o.a.toNat) then
    accessNone ls
  else if s.releaseHeld c 4 ls ≠ [] then .again s ls
  else .go ((s.setEffects c ls).remoteArrive b.lnum blk o.a.toNat) []

/-- BAR.REMOTE (R263, R266). -/
def execBarRemote (o : Ops) (s : State) : Out :=
  .next (s.issue (.barRemote o) (fun s c o _ ls => barRemoteBody s c o ls))

end Sys2Proof.Machine
end

