-- ==== Sys2Proof/Machine/Boot.lean ====
section
/-! DEFINITION. Power, reset, freeze, boot and attestation (R353 to R355, R357, R358, R360). -/

namespace Sys2Proof.Machine

/-! ### Power, reset and freeze (R353, R358, R360) -/

/-- The package after reset or power-on; the model's own order of turns goes on. -/
def State.fresh (s : State) (p : Power) : State := { State.reset with power := p, ticks := s.ticks, agenda := s.agenda }

/-- POWER_ON (R353). -/
def execPowerOn (s : State) : Out := if s.power = .off then .next (s.fresh .running) else .next s
/-- POWER_OFF: nothing in the device outlives it (R360). -/
def execPowerOff (s : State) : Out := .next (s.fresh .off)
/-- RESET (R358). -/
def execReset (s : State) : Out := if s.power = .off then .next s else .next (s.fresh .running)
/-- FREEZE: every clock stops (R358). -/
def execFreeze (s : State) : Out := if s.power = .running then .next { s with power := .frozen } else .next s

/-! ### The image (R354) -/

/-- A section entry. -/
structure Section where
  kind : Nat
  off : Nat
  len : Nat
  target : Nat
deriving DecidableEq, Repr, Inhabited

/-- The staged image's bytes. -/
def Boot.image (b : Boot) : List Byte := (List.range b.len.toNat).map (fun k => b.stage.get k 0)

/-- A number of an image. -/
def imgNum (b : List Byte) (k n : Nat) : Nat := leNat ((b.drop k).take n)

/-- Sections of an image. -/
def imgSections (b : List Byte) : List Section :=
  (List.range (imgNum b 6 2)).map (fun i =>
    let o := 3088 + 16 * i
    { kind := imgNum b o 4, off := imgNum b (o + 4) 4, len := imgNum b (o + 8) 4, target := imgNum b (o + 12) 4 })

/-- The bytes of a section. -/
def Section.bytes (x : Section) (b : List Byte) : List Byte := (b.drop x.off).take x.len

/-- Is a section malformed by itself: its kind, its place, its TARGET, its contents? -/
def Section.bad (x : Section) (b : List Byte) (table : Nat) : Bool :=
  x.off % 16 ≠ 0 || decide (x.off < table) || decide (b.length < x.off + x.len)
    || (match x.kind with
        | 1 => decide (2 ^ 16 ≤ x.target)
        | 2 => decide (2 ^ 12 ≤ x.target)
        | 3 => decide (x.len ≤ x.target)
        | 4 => x.target ≠ 0 || x.len % 8 ≠ 0
        | 5 => x.target ≠ 0 || x.len ≠ 8 || decide (2 ^ 12 ≤ leNat (x.bytes b))
        | _ => true)

/-- Do two sections of a list overlap? -/
def sectionsMeet : List Section → Bool
  | [] => false
  | x :: r => r.any (fun y => decide (x.off < y.off + y.len) && decide (y.off < x.off + x.len)) || sectionsMeet r

/-- The times that the sections of a kind name unit k. -/
def timesNamed (xs : List Section) (kind k : Nat) : Nat := (xs.filter (fun x => x.kind = kind && x.target.testBit k)).length

/-- Failure code 1 (R354 step 1). -/
def imgMalformed (len now : Nat) (b : List Byte) : Bool :=
  let xs := imgSections b
  let n := imgNum b 6 2
  let table := 3088 + 16 * n
  decide (2 ^ 22 < len) || decide (b.length < 3088) || imgNum b 0 4 ≠ 0x46544E44 || imgNum b 4 2 ≠ 1 || n = 0
    || decide (64 < n) || ((b.drop 1801).take 7).any (· ≠ 0) || decide (b.length < table)
    || xs.any (fun x => x.bad b table) || sectionsMeet xs
    || (xs.filter (fun x => x.kind = 3)).length ≠ 1 || (xs.filter (fun x => x.kind = 5)).length ≠ 1
    || (List.range 16).any (fun k => timesNamed xs 1 k ≠ 1)
    || (List.range 12).any (fun k => (Config.hbmResponds now).getLsbD k && timesNamed xs 2 k ≠ 1)

/-- Failure code 4: a section aimed at a unit that does not respond (R354 step 5). -/
def imgUnanswered (now : Nat) (xs : List Section) : Bool :=
  xs.any (fun x => (x.kind = 1 && (List.range 16).any (fun k => x.target.testBit k && !(Config.cpResponds now).getLsbD k))
    || (x.kind = 2 && (List.range 12).any (fun k => x.target.testBit k && !(Config.hbmResponds now).getLsbD k)))

/-- The first failure of steps 1 to 5, 0 for none (R354). -/
def bootCode (len now : Nat) (b : List Byte) : Nat :=
  let key := (b.drop 8).take 1793
  if imgMalformed len now b then 1
  else if !(List.range 4).any (fun k => !Config.fuseRevoked k && Config.fuseHash k = Config.shake256 key) then 2
  else if !Config.falconVerifies key (Config.shake512 (b.take 1808 ++ b.drop 3088)) ((b.drop 1808).take 1280) then 3
  else if imgUnanswered now (imgSections b) then 4
  else 0

/-! ### Boot (R353, R354) -/

/-- The units present before any fence list: every one that exists, stacks that train, processors that respond (R346). -/
def State.unitsAtBoot (s : State) : State :=
  let answering := Config.hbmResponds s.ticks &&& Config.hbmTrains s.ticks
  let units := 0xFF + answering.toNat * 2 ^ 8 + 0xFF * 2 ^ 20 + 0xFF * 2 ^ 28 + (Config.cpResponds s.ticks).toNat * 2 ^ 36
  let ones := fun (s : State) n x => s.setCtl 0 n x
  let s := s.setCtl 0 0x12B (BitVec.ofNat 64 units)
  let s := ones (ones (ones s 0x12C (BitVec.allOnes 64)) 0x12D (BitVec.allOnes 64)) 0x12E (BitVec.ofNat 64 (2 ^ 32 - 1))
  ones (ones s 0x12F (BitVec.allOnes 64)) 0x130 (BitVec.ofNat 64 (2 ^ 8 - 1))

/-- An entry of a fence list: the unit is absent, the frame is logged with LEFT clear, as one that an earlier log left in
service is too (R354, R357). -/
def State.bootFence (s : State) (w : W64) : State :=
  if !rasNames w then s
  else
    let n := rasNum w
    let s := match rasKind w with
      | 1 => s.clearUnit (0x12C + n / 64) (n % 64)
      | 2 => s.clearUnit (0x12F + n / 64) (n % 64)
      | 3 => s.clearUnit 0x12B (36 + n)
      | 4 => s.clearUnit 0x12B (28 + n)
      | 5 => s.clearUnit 0x12B (20 + n)
      | 6 => { s with out := { s.out with ways := n :: s.out.ways } }
      | _ => s
    s.fenceLog (rasPlain w)

/-- The words of a fence list. -/
def fenceWords (b : List Byte) : List W64 :=
  (List.range (b.length / 8)).map (fun k => BitVec.ofNat 64 (leNat ((b.drop (8 * k)).take 8)))

/-- Steps 5 to 7 of a verified image: firmware, HBM, fence lists, identity, boot firmware, hart 0 (R354). That a command
processor holds its firmware is all that is kept of it: the spec gives neither its program nor what the program does beyond
R33 (log 78). -/
def State.bootRun (s : State) (b : List Byte) : State :=
  let xs := imgSections b
  let s := { s with boot := { s.boot with cpFw := Config.cpResponds s.ticks, sillFw := Config.hbmResponds s.ticks } }
  let s := s.unitsAtBoot
  let s := ((xs.filter (fun x => x.kind = 4)).flatMap (fun x => fenceWords (x.bytes b))).foldl State.bootFence s
  let s := match xs.find? (fun x => x.kind = 5) with
    | some x => s.setCtl 0 0x100 (BitVec.ofNat 64 (leNat (x.bytes b)))
    | none => s
  let s := match xs.find? (fun x => x.kind = 3), (List.range 12).find? s.stackPresent with
    | some x, some k =>
      let base := s.pkgId * 2 ^ 40 + k * 2 ^ 36
      let s := s.updMem (fun m => { m with bytes := Bytes.putAll m.bytes base (x.bytes b) })
      { s with boot := { s.boot with hart0 := some (base + x.target) } }
    | _, _ => s
  { s with boot := { s.boot with stat := 4, code := 0 } }

/-- Does the root of trust still serve the boot window: waiting, or failed? -/
def Boot.open_ (b : Boot) : Bool := b.stat = 0 || b.stat = 5

/-- BOOT_VERIFY_START: BOOTCTL written with 1 (R353, R354). -/
def execBootVerifyStart (s : State) : Out :=
  if !s.boot.open_ then .next s
  else
    let b := s.boot.image
    let code := bootCode s.boot.len.toNat s.ticks b
    let s := if code = 0 || code = 4 then
        { s with boot := { s.boot with measure := Config.shake512 (b.take 1808 ++ b.drop 3088) } } else s
    if code = 0 then .next (s.bootRun b) else .next { s with boot := { s.boot with stat := 5, code := code } }

/-- BOOT_DISCARD: BOOTCTL written with 2 (R353). -/
def execBootDiscard (s : State) : Out :=
  if s.boot.open_ then .next { s with boot := { s.boot with stage := [], len := 0, stat := 0, code := 0 } } else .next s

/-- A write of STAGE (R353). -/
def State.stageWrite (s : State) (off : Nat) (b : List Byte) : State :=
  if s.boot.open_ && decide (off + b.length ≤ 2 ^ 22) then
    { s with boot := { s.boot with stage := (b.zipIdx).foldl (fun m e => m.put (off + e.2) e.1) s.boot.stage } }
  else s

/-- A write of BOOTLEN (R353). -/
def State.bootLenWrite (s : State) (v : W64) : State :=
  if s.boot.open_ then { s with boot := { s.boot with len := v } } else s

/-- A read of the boot window: BOOTSTAT, whole or in part, and MEASURE; what no row gives is free (R353, log 24). -/
def State.bootRead (s : State) (off n : Nat) : Nat :=
  if 8 ≤ off && off + n ≤ 16 then (s.boot.stat + 256 * s.boot.code) / 256 ^ (off - 8) % 256 ^ n
  else if 0x100 ≤ off && off + n ≤ 0x140 then leNat ((s.boot.measure.drop (off - 0x100)).take n)
  else (Config.ioWord s.ticks (2 ^ 40 + off)).toNat % 256 ^ n

/-! ### Attestation (R355) -/

/-- An answer of SPDM, whose own contents R355 leaves to SPDM (log 10). -/
def State.spdmReply (s : State) (code : Nat) (data : List Byte) : State :=
  { s with out := { s.out with spdm := (Config.spdmAnswer code s.ticks ++ data) :: s.out.spdm } }

/-- What a measurement index reports: MEASURE, the fuse state, the present units. -/
def State.measurement (s : State) (index : Nat) : List Byte :=
  match index with
  | 1 => s.boot.measure
  | 2 => (List.range 4).flatMap (fun k => Config.fuseHash k ++ [if Config.fuseRevoked k then 1 else 0])
  | 3 => [0x12B, 0x12C, 0x12D, 0x12E, 0x12F, 0x130].flatMap (fun n => leBytes 8 (s.ctlOf 0 n).toNat)
  | _ => []

/-- GET_VERSION (R355). -/
def execGetVersion (_req : List Byte) (s : State) : Out := .next (s.spdmReply 0x84 [])
/-- GET_CAPABILITIES (R355). -/
def execGetCapabilities (_req : List Byte) (s : State) : Out := .next (s.spdmReply 0xE1 [])
/-- NEGOTIATE_ALGORITHMS (R355). -/
def execNegotiateAlgorithms (_req : List Byte) (s : State) : Out := .next (s.spdmReply 0xE3 [])
/-- GET_DIGESTS (R355). -/
def execGetDigests (_req : List Byte) (s : State) : Out := .next (s.spdmReply 0x81 [])
/-- GET_CERTIFICATE (R355). -/
def execGetCertificate (_req : List Byte) (s : State) : Out := .next (s.spdmReply 0x82 [])
/-- CHALLENGE (R355). -/
def execChallenge (_req : List Byte) (s : State) : Out := .next (s.spdmReply 0x83 [])
/-- GET_MEASUREMENTS (R355). -/
def execGetMeasurements (index : Nat) (_req : List Byte) (s : State) : Out :=
  .next (s.spdmReply 0xE0 (s.measurement index))

end Sys2Proof.Machine
end

