-- ==== Sys2Proof/Machine/CoherenceEvents.lean ====
section
/-! DEFINITION. The messages of a line as events of their own (R280 to R285). -/

namespace Sys2Proof.Machine

/-- Is a line held for a private page by some cache (R290)? -/
def State.privateLine (s : State) (line : Nat) : Bool :=
  s.mem.cache.any (fun e => e.1 % 2 ^ 45 = line && e.2.st = .P) || s.mem.l1.any (fun e => e.1 % 2 ^ 45 = line && !e.2.shared)

/-- Is an identifier that of an agent of another member of the island (R276, R277)? -/
def State.islandAgent (s : State) (a : Nat) : Bool :=
  let i := a / 16
  !s.isOwnAgent a && decide (a < 256) && decide (a % 16 < 10) && (s.ctlOf 0 (0x102 + i / 4)).getLsbD (16 * (i % 4) + 15)

/-- May an agent have a request of its own for a line that the model has not sent: the application cores' agent by what
it holds, and the agents of other packages (log 11)? -/
def State.mayAsk (s : State) (k : MsgKind) (slot line : Nat) : Bool :=
  let idle := !s.mem.msgs.any (fun m => m.line = line && m.slot = slot) && !s.mem.wb.has (agKey slot line)
  s.isLocal (line * 128) && !isIo (line * 128) && !s.privateLine line
    && (s.islandAgent slot
      || (slot = s.agentId 8 && idle
        && (match k, s.mem.cline slot line with
            | .rdS, none | .rdX, none => true
            | .rdX, some c => c.st = .E
            | .upg, some c => c.st = .S || c.st = .O
            | _, _ => false)))

/-- A request reaches the home: one in flight, or one that its agent makes now. -/
def State.arriveReq (s : State) (k : MsgKind) (slot line : Nat) : State :=
  if s.mem.txns.has line then s
  else if s.mem.msgs.any (fun m => m.kind = k && m.line = line && m.slot = slot) then s.deliverKind k slot line
  else if s.mayAsk k slot line then s.homeStart { kind := k, line := line, slot := slot, data := Config.remoteLine s.ticks line }
  else s

/-- A request of the home's side: one in flight, or one from outside the island, whose bytes are free (R281, R286). -/
def State.arriveHome (s : State) (k : MsgKind) (line : Nat) : State :=
  if s.mem.txns.has line then s
  else if s.mem.msgs.any (fun m => m.kind = k && m.line = line && m.slot = 255) then s.deliverKind k 255 line
  else if s.isLocal (line * 128) && !isIo (line * 128) && !s.privateLine line then
    s.homeStart { kind := k, line := line, slot := 255, data := Config.remoteLine s.ticks line
                  mask := Config.openInfo s.ticks 0 ++ Config.openInfo s.ticks 1
                  req := if Config.remoteReply s.ticks line then 1 else 0 }
  else s

/-- A probe reaches an agent: one in flight, or one of another package for a line of its own (R283, R285). -/
def State.arriveProbe (s : State) (k : MsgKind) (slot line : Nat) : State :=
  if s.isLocal (line * 128) then s.deliverKind k slot line else s.peerProbe k slot line

/-- RDS (R282). -/
def execRds (slot line : Nat) (s : State) : Out := .next (s.arriveReq .rdS slot line)
/-- RDX (R282). -/
def execRdx (slot line : Nat) (s : State) : Out := .next (s.arriveReq .rdX slot line)
/-- UPG (R282). -/
def execUpg (slot line : Nat) (s : State) : Out := .next (s.arriveReq .upg slot line)
/-- WBD (R282). -/
def execWbd (slot line : Nat) (s : State) : Out := .next (s.arriveReq .wbD slot line)
/-- CLN (R282). -/
def execCln (slot line : Nat) (s : State) : Out := .next (s.arriveReq .cln slot line)
/-- HR (R282). -/
def execHr (line : Nat) (s : State) : Out := .next (s.arriveHome .hR line)
/-- HW (R282). -/
def execHw (line : Nat) (s : State) : Out := .next (s.arriveHome .hW line)
/-- RR (R282). -/
def execRr (line : Nat) (s : State) : Out := .next (s.arriveHome .rR line)
/-- FWDS (R283). -/
def execFwds (slot line : Nat) (s : State) : Out := .next (s.arriveProbe .fwdS slot line)
/-- FWDX (R283). -/
def execFwdx (slot line : Nat) (s : State) : Out := .next (s.arriveProbe .fwdX slot line)
/-- FWDH (R283). -/
def execFwdh (slot line : Nat) (s : State) : Out := .next (s.arriveProbe .fwdH slot line)
/-- INV (R283). -/
def execInv (slot line : Nat) (s : State) : Out := .next (s.arriveProbe .inv slot line)
/-- RCL (R283). -/
def execRcl (slot line : Nat) (s : State) : Out := .next (s.arriveProbe .rcl slot line)
/-- DATA (R281, R284). -/
def execData (slot line : Nat) (s : State) : Out := .next (s.deliverKind .data slot line)
/-- NODATA (R281). -/
def execNodata (slot line : Nat) (s : State) : Out := .next (s.deliverKind .noData slot line)
/-- ACK (R281). -/
def execAck (slot line : Nat) (s : State) : Out := .next (s.deliverKind .ack slot line)

end Sys2Proof.Machine
end

