-- ==== Sys2Proof/Machine/Coll.lean ====
section
/-! DEFINITION. Collective steps among packages (R237 to R239). -/

namespace Sys2Proof.Machine

/-! ### Issue (R237) -/

/-- The fields of a COLL descriptor, as a step, and its peer list's address. -/
def collDesc (g asp op wire : Nat) (b : List Byte) : Coll × Nat :=
  let n := fun k w => leNat ((b.drop k).take w)
  ({ g := g, aspace := asp, op := op, wire := wire, src := BitVec.ofNat 64 (n 0 8), dst := BitVec.ofNat 64 (n 8 8)
     resid := BitVec.ofNat 64 (n 16 8), len := n 32 4, npart := n 36 2, rank := n 38 2, sq := BitVec.ofNat 32 (n 40 4)
     sd := BitVec.ofNat 32 (n 44 4), inc := n 60 2, stepId := BitVec.ofNat 32 (n 56 4)
     ctrVa := BitVec.ofNat 64 (n 48 8) }, n 24 8)

/-- A refused field of a descriptor. -/
def collBad (q : Coll) (b : List Byte) : Bool :=
  decide (q.npart < 2) || decide (1024 < q.npart) || q.len % (4 * q.npart) ≠ 0
    || decide ((if q.op = 0 then 4096 else 2 ^ 24) < q.len) || decide (q.npart ≤ q.rank) || q.inc = 0
    || (q.op = 2 && q.wire ≠ 0) || (b.drop 62).any (· ≠ 0)

/-- Bytes of a contribution and of a result. -/
def Coll.inLen (q : Coll) : Nat := if q.op = 2 then q.len / q.npart else q.len
def Coll.outLen (q : Coll) : Nat := if q.op = 1 then q.len / q.npart else q.len

/-- Step through checks: the first stop. -/
def firstStop (xs : List (Except Stop (List (Req × List Piece)))) : Option Stop :=
  xs.findSome? (fun x => match x with | .error e => some e | .ok _ => none)

/-- The counter of a step: none, its frame address, or what stops the issue. -/
def State.collCtr (s : State) (c : Issuer) (va : W64) (ls : List Nat) : Except Stop (Option Nat) :=
  if va = 0 then .ok none
  else if badAddr va then .error (.fail { code := 9, lanes := ls, addr := va, info := 0xFFFF })
  else if va.toNat % 16 ≠ 0 then .error (.fail { code := 7, lanes := ls, addr := va })
  else match s.tlbFind c.g (s.aspaceOf c) va .write with
    | none => .error (.miss [(va, .write, 0)])
    | some t => if t.cls = 3 then .ok (some (t.addr va)) else .error (.fail { code := 9, lanes := ls, addr := va, info := 0xFFFF })

/-- The address checks of SRC, DST and RESID. -/
def State.collPages (s : State) (c : Issuer) (l : Nat) (q : Coll) : Option Stop :=
  let chk := fun acc va n => s.checkAccess c acc { al := 4, noIo := false, ioMax := 8 } [⟨l, va, n⟩]
  firstStop ([chk .read q.src q.inLen, chk .write q.dst q.outLen]
    ++ (if q.resid = 0 then [] else [chk .read q.resid q.inLen, chk .write q.resid q.inLen]))

/-- COLL once for the group, after its descriptor has been read. -/
def collGo (s : State) (c : Issuer) (ls : List Nat) (a : W64) (b : List Byte) (op wire : Nat) : Eff :=
  let l := ls.headD 0
  let (q, peers) := collDesc c.g (s.aspaceOf c) op wire b
  let pv := BitVec.ofNat 64 peers
  let bad : Fail := { code := 9, lanes := ls, addr := a, info := 0xFFFF }
  if collBad q b then .fail bad
  else if peers % 2 ≠ 0 then misalignedAt ls pv
  else match s.checkAccess c .read { al := 2 } [⟨l, pv, 2 * q.npart⟩] with
    | .error e => s.stopEff c ls (e.forAll ls)
    | .ok ps =>
      let (s, lb, _) := s.readPieces [] c.g false (ps.flatMap (·.2))
      let list := (List.range q.npart).map (fun k => leNat ((lb.drop (2 * k)).take 2))
      if list.any (fun p => decide (1024 ≤ p)) || list.getD q.rank 0 ≠ s.pkgId then .fail bad
      else match s.collPages c l q with
        | some e => s.stopEff c ls (e.forAll ls)
        | none =>
          match s.collCtr c (BitVec.ofNat 64 (leNat ((b.drop 48).take 8))) ls with
          | .error e => s.stopEff c ls e
          | .ok ctr =>
            let q := { q with peers := list, ctr := ctr, start := s.cycles (dieOf c.g), born := s.ticks
                              blk := s.blkOf c |>.map (fun _ => ((s.blockOf c).lnum, (s.blockOf c).blk)) }
            let s := { s with eng := { s.eng with colls := s.eng.colls.put s.eng.nextColl q, nextColl := s.eng.nextColl + 1 } }
            .go (s.setEffects c ls) []

/-- COLL (R237). -/
def collBody (s : State) (c : Issuer) (o : Ops) (ls : List Nat) : Eff :=
  let l := ls.headD 0
  let a := s.opA c o l true
  match s.checkAccess c .read {} [⟨l, a, 64⟩] with
  | .error e => s.stopEff c ls (e.forAll ls)
  | .ok ps =>
    let (s, b, _) := s.readPieces [] c.g false (ps.flatMap (·.2))
    collGo s c ls a b (bitsN o.ext.toNat 0 2) (bitsN o.ext.toNat 2 3)

/-- COLL (R237). -/
def execColl (o : Ops) (s : State) : Out := .next (s.issue (.coll o) (fun s c o _ ls => collBody s c o ls))

/-! ### The step (R238, R239) -/

/-- The words of a buffer. -/
def wordsOf (b : List Byte) (n : Nat) : List W32 := (List.range n).map (fun k => BitVec.ofNat 32 (leNat ((b.drop (4 * k)).take 4)))

/-- The product of two FP32 words, rounded to FP32. -/
def f32Mul (a b : W32) : W32 := (roundF32 ((f32Val a).mul (f32Val b)).1).1

/-- y − d in FP32. -/
def f32Sub (a b : W32) : W32 := (f32Add a (b ^^^ 0x80000000)).1

/-- The wire value of y as the receivers use it (R238). -/
def wireValue (wire : Nat) (sq sd y : W32) : W32 :=
  match wire with
  | 0 => y
  | _ =>
    let f := [bf16, e4m3, e5m2].getD (wire - 1) e5m2
    let q := (f.round .rne .sat false (f32Val (f32Mul y sq))).1
    (roundF32 ((f.unpack q).mul (f32Val sd)).1).1

/-- A participant's values d and its new residuals. -/
def collValues (q : Coll) (x r : List W32) : List W32 × List W32 :=
  let ys := (x.zip r).map (fun e => if q.resid = 0 then (f32Add e.1 0).1 else (f32Add e.1 e.2).1)
  let ds := ys.map (wireValue q.wire q.sq q.sd)
  (ds, (ys.zip ds).map (fun e => f32Sub e.1 e.2))

/-- Is a step issued here a participant of another's, at a rank? -/
def Coll.joins (p q : Coll) (rank : Nat) : Bool :=
  !p.written && p.rank = rank && p.stepId = q.stepId && p.op = q.op && p.wire = q.wire && p.len = q.len && p.npart = q.npart && p.peers = q.peers

/-- What a local participant brings: its number, values, residuals; none when a page of it no longer translates. -/
def State.collRead (s : State) (i : Nat) (q : Coll) : State × Option (Nat × List W32 × List W32) :=
  match s.rd q.aspace q.src q.inLen (some q.g) with
  | (s, .fail _ _ _) => (s, none)
  | (s, .ok (b, _)) =>
    let x := wordsOf b (q.inLen / 4)
    let vals := fun (d : List W32) => if q.op = 2 then x else d
    if q.resid = 0 then
      let (d, _) := collValues q x x
      (s, some (i, vals d, []))
    else match s.rd q.aspace q.resid q.inLen (some q.g) with
      | (s, .fail _ _ _) => (s, none)
      | (s, .ok (rb, _)) =>
        let (d, r) := collValues q x (wordsOf rb (q.inLen / 4))
        (s, some (i, vals d, r))

/-- Each rank's values: those read here, and free ones of other packages (log 11). -/
def State.rankValues (s : State) (q : Coll) (mine : Map (List W32)) : List (List W32) :=
  (List.range q.npart).map (fun k => match mine.find? k with
    | some v => v
    | none => (List.range (q.inLen / 4)).map (fun e => Config.remoteElement s.ticks k e))

/-- The left fold of the values of one element, in ascending rank. -/
def foldElem (vs : List (List W32)) (e : Nat) : W32 :=
  match vs.map (fun v => v.getD e 0) with
  | [] => 0
  | x :: r => r.foldl (fun a b => (f32Add a b).1) x

/-- A participant's result (R238). -/
def collResult (q : Coll) (vs : List (List W32)) : List W32 :=
  match q.op with
  | 0 => (List.range (q.len / 4)).map (foldElem vs)
  | 1 => (List.range (q.len / (4 * q.npart))).map (fun e => foldElem vs (q.rank * (q.len / (4 * q.npart)) + e))
  | _ => vs.flatten

/-- The bytes of words. -/
def wordBytes (l : List W32) : List Byte := l.flatMap (fun w => leBytes 4 w.toNat)

/-- A participant's step ends here: its counter, with poison when the step failed. -/
def State.collEnd (s : State) (i : Nat) (poison : Bool) : State :=
  match s.eng.colls.find? i with
  | none => s
  | some q =>
    let s := { s with eng := { s.eng with colls := s.eng.colls.del i } }
    match q.ctr with
    | some pa => s.ctrAdvance pa q.inc poison
    | none => s

/-- Do the pages that a participant writes translate? -/
def State.collReady (s : State) (q : Coll) : State × Bool :=
  match State.unitPages (q.outLen / 32768 + 3) s q.aspace q.dst q.outLen .write (some q.g) with
  | (s, .fail _ _ _) => (s, false)
  | (s, .ok _) =>
    if q.resid = 0 then (s, true)
    else match State.unitPages (q.inLen / 32768 + 3) s q.aspace q.resid q.inLen .write (some q.g) with
      | (s, .fail _ _ _) => (s, false)
      | (s, .ok _) => (s, true)

/-- Are all the writes of a participant performed at domain scope (R253, R286)? -/
def State.collQuiet (s : State) (q : Coll) : Bool := (engineThread (some q.g)).all (fun t => !s.tlainBusy t 6) && s.out.posted.isEmpty

/-- A participant whose buffers are written advances CTR, once the writes are performed. -/
def State.collLast (s : State) (i : Nat) : State :=
  match s.eng.colls.find? i with
  | none => s
  | some q =>
    if s.collQuiet q then s.collEnd i false
    else { s with eng := { s.eng with colls := s.eng.colls.put i { q with written := true } } }

/-- A participant whose pages translate writes DST and RESID. -/
def State.collWrite (s : State) (i : Nat) (vs : List (List W32)) (r : List W32) : State :=
  match s.eng.colls.find? i with
  | none => s
  | some q =>
    let put := fun (s : State) va (b : List Byte) => State.unitWrite (b.length / 128 + 3) s q.aspace va b (some q.g)
    let s := put s q.dst (wordBytes (collResult q vs))
    (if r.isEmpty then s else put s q.resid (wordBytes r)).collLast i

/-- The local participants of a step: rank and number; none while a rank of this package has not issued. -/
def State.collLocals (s : State) (q : Coll) : Option (List (Nat × Nat)) :=
  let ranks := (List.range q.npart).filter (fun k => q.peers.getD k 0 = s.pkgId)
  let found := ranks.filterMap (fun k => (List.find? (fun (e : Nat × Coll) => e.2.joins q k) s.eng.colls).map (fun e => (k, e.1)))
  if found.length = ranks.length then some found else none

/-- The participants that this package has issued for a step tag at the ranks that a peer list gives it. -/
def State.collIssued (s : State) (q : Coll) : List (Nat × Coll) :=
  s.eng.colls.filter (fun e => !e.2.written && e.2.stepId = q.stepId && q.peers.getD e.2.rank 1024 = s.pkgId)

/-- A step fails: every participant of it that has issued here advances its counter with poison (R239). -/
def State.collFail (s : State) (q : Coll) : State := (s.collIssued q).foldl (fun s e => s.collEnd e.1 true) s

/-- COLL_STEP_COMPLETION: every participant has issued, and the step is performed; a mismatch, another package that does not
agree, or a page that no longer translates fails it (R239, log 11). -/
def execCollStepCompletion (i : Nat) (s : State) : Out :=
  match s.eng.colls.find? i with
  | none => .next s
  | some q =>
    if q.written then .next (s.collLast i)
    else match s.collLocals q with
    | none => .next (if (s.collIssued q).all (fun e => e.2.joins q e.2.rank) then s else s.collFail q)
    | some locals =>
      let others := decide (locals.length < q.npart)
      if others && !Config.remoteReply s.ticks i then .next (s.collFail q)
      else
        let (s, got) := locals.foldl (fun (s, got) e =>
          let (s, x) := s.collRead e.2 (s.eng.colls.get e.2 {})
          (s, got ++ [(e.1, x)])) (s, ([] : List (Nat × Option (Nat × List W32 × List W32))))
        let (s, ok) := locals.foldl (fun ((s : State), (ok : Bool)) e =>
          let (s, b) := s.collReady (s.eng.colls.get e.2 {})
          (s, ok && b)) (s, true)
        if !ok || got.any (fun e => e.2.isNone) then .next (s.collFail q)
        else
          let mine : Map (List W32) := got.foldl (fun m e => match e.2 with | some x => m.put e.1 x.2.1 | none => m) []
          let vs := s.rankValues q mine
          .next (got.foldl (fun s e => match e.2 with | some x => s.collWrite x.1 vs x.2.2 | none => s) s)

/-- COLL_TIMEOUT: a participant absent for CTL_COLLWAIT cycles fails the step (R239). -/
def execCollTimeout (i : Nat) (s : State) : Out :=
  match s.eng.colls.find? i with
  | none => .next s
  | some q => if !q.written && q.start + s.pkgReg 0x115 ≤ s.cycles (dieOf q.g) then .next (s.collFail q) else .next s

end Sys2Proof.Machine
end

