-- ==== Sys2Proof/Machine/Counters.lean ====
section
/-! DEFINITION. SEQWAIT and SEQADD (R267). -/

namespace Sys2Proof.Machine

/-- The checks of the counters that the places of an instruction name: their frame addresses (R267). -/
def State.counterCheck (s : State) (c : Issuer) (o : Ops) (acc : Access) (ls : List Nat) : Except Stop (List (Nat × Nat)) :=
  match ls.filter (fun l => (s.unsB c o l true).getLsbD 63) with
  | l :: r => .error (.fail { code := 9, lanes := l :: r, info := 0xFFFF })
  | [] =>
    match s.checkAccess c acc (atomRule16 c) (ls.map (fun l => ⟨l, s.opA c o l true, 16⟩)) with
    | .error e => .error e
    | .ok qs =>
      match qs.filter (fun q => q.2.any (fun p => p.cls ≠ 3)) with
      | q :: r => .error (.fail { code := 9, lanes := (q :: r).map (fun x => x.1.lane), addr := q.1.va, info := 0xFFFF })
      | [] => .ok (qs.map (fun q => (q.1.lane, (q.2.headD {}).pa)))
where
  /-- A counter is 16-byte aligned on every page class. -/
  atomRule16 (_ : Issuer) : Rule := { al := 16, always := true, noIo := true, ioMax := 128 }

/-- What a place finds in its counter: lane, frame address, low word, producer code, floor. -/
structure SeqView where
  lane : Nat
  pa : Nat
  lo : Nat
  code : Nat
  floor : Nat
deriving DecidableEq, Repr, Inhabited

/-- Read the counters of some places at their homes. -/
def State.seqViews (s : State) (xs : List (Nat × Nat)) : State × List SeqView :=
  xs.foldl (fun (s, vs) x =>
    let (s, lo, hi) := s.ctrWords x.2
    (s, vs ++ [{ lane := x.1, pa := x.2, lo := lo, code := hi % 4, floor := hi / 256 }])) (s, [])

/-- Write a predicate in each place. -/
def State.putPreds (s : State) (c : Issuer) (p : Nat) (xs : List (Nat × Bool)) : State :=
  xs.foldl (fun s x => s.setPred c x.1 p x.2) s

/-- A place blocks on a counter, with a watch at its home or by polling (R42). -/
def State.seqBlock (s : State) (c : Issuer) (o : Ops) (v : SeqView) : State :=
  let die := dieOf c.g
  let thr := (s.unsB c o v.lane true).toNat
  let (s, watched) := s.watchAdd v.pa die
  let w : CtrWait := { pa := v.pa, thr := thr, pd := o.d.toNat % 16, scope := o.c.toNat % 8, va := s.opA c o v.lane true
                       who := c, lane := v.lane, die := die, watched := watched }
  let s := { s with xl := { s.xl with waiters := s.xl.waiters ++ [w] } }
  s.blockOn c [v.lane] 1 (.counter v.pa) o.form.bytes o.sw false

/-- SEQWAIT: the places whose counters are satisfied go on; the others block, when R26 lets them. -/
def seqwaitBody (s : State) (c : Issuer) (o : Ops) (ls : List Nat) : Eff :=
  match s.counterCheck c o .read ls with
  | .error e => s.stopEff c ls e
  | .ok xs =>
    let (t, vs) := s.seqViews xs
    let ok := fun (v : SeqView) => ctrSat v.lo (s.unsB c o v.lane true).toNat
    let left := vs.filter (fun v => !ok v)
    match left.filter (fun v => !s.waitLegal c v.lane v.code (some v.floor)) with
    | v :: r => .fail { code := 5, lanes := (v :: r).map SeqView.lane, addr := s.opA c o v.lane true, info := BitVec.ofNat 64 v.code }
    | [] =>
      let done := vs.filter ok
      let t := t.putPreds c (o.d.toNat % 16) (done.map (fun v => (v.lane, ctrPoison v.lo)))
      let t := match done with | [] => t | _ => t.acquire c.g (o.c.toNat % 8)
      .go (left.foldl (fun t v => t.seqBlock c o v) t) (left.map SeqView.lane)

/-- SEQWAIT (R267). -/
def execSeqwait (o : Ops) (s : State) : Out := .next (s.issue (.seqwait o) (fun s c o _ ls => seqwaitBody s c o ls))

/-- SEQWAIT.TRY: the predicate says whether the counter is satisfied. -/
def seqwaitTryBody (s : State) (c : Issuer) (o : Ops) (ls : List Nat) : Eff :=
  match s.counterCheck c o .read ls with
  | .error e => s.stopEff c ls e
  | .ok xs =>
    let (t, vs) := s.seqViews xs
    let rs := vs.map (fun v => (v.lane, ctrSat v.lo (s.unsB c o v.lane true).toNat))
    let t := t.putPreds c (o.d.toNat % 16) rs
    .go (if rs.any (·.2) then t.acquire c.g (o.c.toNat % 8) else t) []

/-- SEQWAIT.TRY (R267). -/
def execSeqwaitTry (o : Ops) (s : State) : Out :=
  .next (s.issue (.seqwaitTry o) (fun s c o _ ls => seqwaitTryBody s c o ls))

/-- SEQADD: each place advances its counter once the accesses that it releases are performed; a sequencer first waits for its
commands (R214, R267). -/
def seqaddBody (s : State) (c : Issuer) (o : Ops) (ls : List Nat) : Eff :=
  if c.isSeq && (s.seqr c.g c.isCopy).flight ≠ 0 then .again s ls
  else match s.counterCheck c o .write ls with
    | .error e => s.stopEff c ls e
    | .ok xs =>
      let held := s.releaseHeld c (o.c.toNat % 8) ls
      let now := xs.filter (fun x => !held.contains x.1)
      .again (now.foldl (fun t x => t.ctrAdvance x.2 (s.unsB c o x.1 true).toNat (o.sub % 2 = 1) [s.threadOf c x.1])
        (s.setEffects c (now.map (·.1)))) held

/-- SEQADD (R267). -/
def execSeqadd (o : Ops) (s : State) : Out := .next (s.issue (.seqadd o) (fun s c o _ ls => seqaddBody s c o ls))

/-! ### Release of waiters (R42) -/

/-- A satisfied SEQWAIT of a place completes: its predicate, its acquire, and the advance. -/
def State.seqRelease (s : State) (w : CtrWait) (poison : Bool) : State :=
  let c := w.who
  match s.holdOf c w.lane with
  | .wait x =>
    if x.obj = .counter w.pa then
      let s := (s.setPred c w.lane w.pd poison).acquire c.g w.scope
      match c.unit with
      | .lane => s.updWarp c.g c.slot (fun k => k.endWait w.lane x.len x.sw)
      | _ => s.jump c w.lane (s.pcOf c w.lane + BitVec.ofNat 64 x.len)
    else s
  | _ => s

/-- The waiters of a die on a counter whose release has been decided are released, and the die's watch goes with its last
waiter. -/
def State.seqNotify (s : State) (pa die : Nat) : State :=
  let mine := fun (w : CtrWait) => w.pa = pa && w.die = die && w.sat.isSome
  let ws := s.xl.waiters.filter mine
  let s := { s with xl := { s.xl with waiters := s.xl.waiters.filter (fun w => !mine w) } }
  let s := ws.foldl (fun s w =>
    match w.who.unit with
    | .cp => s.updQueue w.who.slot (fun x => { x with released := w.sat })
    | _ => s.seqRelease w (w.sat.getD false)) s
  s.watchDrop pa die

/-- Table tasks of a die whose counters are all satisfied become ready, and those that met poison are retired (R44, R45). -/
def State.tableNotify (s : State) (die : Nat) : State :=
  let ts := s.work.table.get die []
  let out := ts.filter (fun t => t.poisoned || t.waits = [])
  let s := { s with work := { s.work with table := s.work.table.put die (ts.filter (fun t => !(t.poisoned || t.waits = []))) } }
  out.foldl (fun s t =>
    let s := if t.poisoned then
        s.taskFail t.g t (Config.taskCause s.ticks).toNat 0 (Config.openInfo s.ticks 0) (Config.openInfo s.ticks 1)
      else s.taskReady t.g t
    t.waits.foldl (fun s w => s.watchDrop w.1 die) s) s

/-- WATCH_NOTIFICATION: a write at a counter's home has released waiters of a die (R42). -/
def execWatchNotification (die : Nat) (ctr : W64) (s : State) : Out := .next ((s.seqNotify ctr.toNat die).tableNotify die)

/-- A polling waiter of a die is decided by the value that the poll reads. -/
def State.pollMark (s : State) (pa die lo : Nat) : State :=
  { s with
    xl := { s.xl with waiters := s.xl.waiters.map (fun w =>
      if w.pa = pa && w.die = die && !w.watched && w.sat.isNone && ctrSat lo w.thr then { w with sat := some (ctrPoison lo) } else w) }
    work := { s.work with table := s.work.table.upd die [] (fun l => l.map (fun t =>
      if !t.waits.any (fun w => w.1 = pa) then t
      else if ctrPoison lo then { t with poisoned := true }
      else { t with waits := t.waits.filter (fun w => !(w.1 = pa && decide (w.2 ≤ ctrCount lo))) })) } }

/-- SEQ_POLL: a die whose watch found no room reads the counter, every CTL_SEQPOLL cycles (R42). -/
def execSeqPoll (die : Nat) (ctr : W64) (s : State) : Out :=
  let pa := ctr.toNat
  let polls := s.xl.waiters.any (fun w => w.pa = pa && w.die = die && !w.watched)
    || (s.work.table.get die []).any (fun t => t.waits.any (fun w => w.1 = pa))
  if polls && !s.watching pa die && s.pollDue pa die then
    let (s, lo, _) := (s.pollNow pa die).ctrWords pa
    .next (((s.pollMark pa die lo).seqNotify pa die).tableNotify die)
  else .next s

end Sys2Proof.Machine
end

