-- ==== Sys2Proof/Machine/Image.lean ====
section
/-! DEFINITION. Kernel images: the header, the tables, the checks of R17, and what a block needs of a cluster (R10 to R20,
R70, R366). -/

namespace Sys2Proof.Machine

/-! ### Sizes of a block -/

/-- Threads of a block (R11). -/
def Image.threads (i : Image) : Nat := i.bx * i.byy * i.bz
/-- Warps of a block (R11). -/
def Image.warpCount (i : Image) : Nat := (i.threads + 31) / 32
/-- Block warps placed on SIMT core k (R20). -/
def Image.coreWarps (i : Image) (k : Nat) : Nat := (i.warpCount + 3 - k) / 4

/-- Blocks of an image that an empty cluster holds (R70). -/
def State.clusterHolds (s : State) (g : Nat) (i : Image) : Nat :=
  let per := fun (have_ need : Nat) => if need = 0 then 64 else have_ / need
  let caps := [per (64 - s.taskg g) i.granules, per 256 i.pegs, per 256 i.groups.length,
    per 4 (if i.spineEnt = 0 then 0 else 1)] ++ (List.range 4).map (fun k => per 16 (i.coreWarps k))
  caps.foldl min 64

/-- Blocks of an image that the present clusters hold when they are empty. -/
def State.packageHolds (s : State) (i : Image) : Nat := s.clustersPresent.foldl (fun n g => n + s.clusterHolds g i) 0

/-! ### The header (R10) -/

/-- A header as it is read. -/
structure Header where
  b : List Byte
deriving DecidableEq, Repr, Inhabited

/-- A field of a header. -/
def Header.at_ (h : Header) (k w : Nat) : Nat := leNat ((h.b.drop k).take w)
/-- Bytes of a header that are all zero. -/
def Header.zero (h : Header) (k w : Nat) : Bool := ((h.b.drop k).take w).all (· = 0)

def Header.codeSize (h : Header) : Nat := h.at_ 8 8
def Header.nGroups (h : Header) : Nat := h.at_ 56 2
def Header.nRings (h : Header) : Nat := h.at_ 58 2
def Header.nTasks (h : Header) : Nat := h.at_ 88 2
def Header.groupOff (h : Header) : Nat := h.at_ 64 8
def Header.ringOff (h : Header) : Nat := h.at_ 72 8
def Header.taskOff (h : Header) : Nat := h.at_ 80 8

/-- The image without its tables. -/
def Header.image (h : Header) (base : W64) : Image :=
  let p := h.at_ 52 4
  { base := base, codeSize := h.codeSize, warpEnt := h.at_ 16 8, spineEnt := h.at_ 24 8, trapEnt := h.at_ 32 8
    bx := h.at_ 40 2, byy := h.at_ 42 2, bz := h.at_ 44 2, budget := h.at_ 46 1, cls := h.at_ 47 1, pegs := h.at_ 48 2
    regg := bitsN p 0 7, spg := bitsN p 8 7, accg := bitsN p 16 7 }

/-- Does an entry offset lie within the code, at an alignment (R366)? -/
def Header.inCode (h : Header) (off al : Nat) : Bool := decide (128 ≤ off) && decide (off < 128 + h.codeSize) && off % al = 0

/-- Do two ranges of bytes overlap? -/
def spansMeet (a m b n : Nat) : Bool := decide (a < b + n) && decide (b < a + m) && m ≠ 0 && n ≠ 0

/-- Do any two ranges of a list overlap? -/
def anyMeet : List (Nat × Nat) → Bool
  | [] => false
  | x :: r => r.any (fun y => spansMeet x.1 x.2 y.1 y.2) || anyMeet r

/-- The tables of a header: offset and bytes. -/
def Header.tables (h : Header) : List (Nat × Nat) :=
  [(h.groupOff, 16 * h.nGroups), (h.ringOff, 16 * h.nRings), (h.taskOff, 16 * h.nTasks)]

/-- Code 1 (R17). -/
def Header.bad1 (h : Header) : Bool :=
  h.at_ 0 4 ≠ 0x394E4C44 || h.at_ 4 2 ≠ 1 || h.at_ 6 2 ≠ 128 || !h.zero 50 2 || !h.zero 60 4 || !h.zero 90 38

/-- Code 2 (R366). -/
def Header.bad2 (h : Header) : Bool :=
  h.codeSize % 32 ≠ 0 || !h.inCode (h.at_ 16 8) 8
    || (h.at_ 24 8 ≠ 0 && !h.inCode (h.at_ 24 8) 4) || (h.at_ 32 8 ≠ 0 && !h.inCode (h.at_ 32 8) 4)
    || h.tables.any (fun t => t.2 ≠ 0 && (decide (t.1 < 128 + h.codeSize) || t.1 % 8 ≠ 0)) || anyMeet h.tables

/-- Code 3 (R11), which a BZ above 64 takes as well: a choice of the model, for R17 gives that case no code (log 76). -/
def Image.bad3 (i : Image) : Bool :=
  i.threads = 0 || decide (2048 < i.threads) || decide (64 < i.bz)

/-- Code 4. -/
def Image.bad4 (i : Image) : Bool := i.budget = 0 || decide (32 < i.budget) || decide (2 < i.cls)

/-- Code 5 (R12). -/
def Header.bad5 (h : Header) (i : Image) : Bool :=
  let p := h.at_ 52 4
  bitsN p 7 1 ≠ 0 || bitsN p 15 1 ≠ 0 || bitsN p 23 9 ≠ 0 || decide (64 < i.granules)
    || decide (i.regg < (i.warpCount * 32 * i.budget * 8 * 4 + 65535) / 65536)

/-- A field of an entry of a table. -/
def entryNat (b : List Byte) (k w : Nat) : Nat := leNat ((b.drop k).take w)

/-- A group declaration (R14). -/
def groupOf (b : List Byte) : GroupDecl :=
  { warps := BitVec.ofNat 64 (entryNat b 0 8), extras := entryNat b 8 1, remote := entryNat b 12 4 }

/-- Members of a declaration within the block. -/
def GroupDecl.members (d : GroupDecl) : Nat :=
  ((List.range 64).filter (fun k => d.warps.getLsbD k)).length + bitsN d.extras 0 1 + bitsN d.extras 1 1 + bitsN d.extras 2 1

/-- Is a declaration refused (R14)? -/
def Image.groupBad (i : Image) (b : List Byte) : Bool :=
  let d := groupOf b
  decide (2 ^ i.warpCount ≤ d.warps.toNat) || (bitsN d.extras 0 1 = 1 && i.spineEnt = 0) || decide (8 ≤ d.extras)
    || entryNat b 9 3 ≠ 0 || d.members = 0 || decide (16777215 < d.remote + d.members)

/-- Code 7 (R14). -/
def Image.bad7 (i : Image) (ts : List (List Byte)) : Bool :=
  ts.any i.groupBad || (List.range 64).any (fun w => decide (4 < (ts.filter (fun b => (groupOf b).warps.getLsbD w)).length))

/-- A ring declaration (R15). -/
def ringDeclOf (b : List Byte) : RingDecl :=
  { number := entryNat b 0 1, pclass := entryNat b 1 1, cclass := entryNat b 2 1, desc := entryNat b 4 4
    slot0 := entryNat b 8 4, slotsz := entryNat b 12 2, nslots := entryNat b 14 2 }

/-- The bytes of a declaration's descriptor and slots. -/
def RingDecl.ranges (d : RingDecl) : List (Nat × Nat) := [(d.desc, 64), (d.slot0, 64 * d.slotsz * d.nslots)]

/-- Code 8 (R15). -/
def Image.bad8 (i : Image) (ts : List (List Byte)) : Bool :=
  let ds := ts.map ringDeclOf
  ds.any (fun d => decide (31 < d.number) || decide (3 < d.pclass) || decide (3 < d.cclass) || d.desc % 64 ≠ 0
      || d.slot0 % 64 ≠ 0 || d.slotsz = 0 || d.nslots = 0 || decide (4096 < d.nslots)
      || d.ranges.any (fun r => decide (i.spg * 65536 < r.1 + r.2)))
    || ts.any (fun b => entryNat b 3 1 ≠ 0) || anyMeet (ds.flatMap RingDecl.ranges)
    || (ds.map RingDecl.number).eraseDups.length ≠ ds.length

/-- Code 9 (R16, R366). -/
def Header.bad9 (h : Header) (ts : List (List Byte)) : Bool :=
  ts.any (fun b => !h.inCode (entryNat b 0 8) 8 || decide (entryNat b 0 8 < 136) || entryNat b 8 1 = 0
    || decide (32 < entryNat b 8 1) || decide (2 < entryNat b 9 1) || entryNat b 10 6 ≠ 0)

/-- Cut bytes into n entries of 16. -/
def entries16 (n : Nat) (b : List Byte) : List (List Byte) := (List.range n).map (fun k => (b.drop (16 * k)).take 16)

/-! ### The checks of a launch (R17) -/

/-- Read a table of an image: nothing for an empty one. -/
def State.readTable (s : State) (asp : Nat) (base : W64) (off n : Nat) : State × Got (List (List Byte)) :=
  if n = 0 then (s, .ok [])
  else match s.rd asp (base + BitVec.ofNat 64 off) (16 * n) none with
    | (s, .ok (b, _)) => (s, .ok (entries16 n b))
    | (s, .fail v a r) => (s, .fail v a r)

/-- The first refusal that the header decides, codes 1 to 6 and the counts of codes 7 and 8. -/
def Header.refusal (h : Header) (i : Image) : Option Nat :=
  if h.bad1 then some 1 else if h.bad2 then some 2 else if i.bad3 then some 3 else if i.bad4 then some 4
  else if h.bad5 i then some 5 else if 256 < i.pegs then some 6 else if 256 < h.nGroups then some 7 else none

/-- The first refusal that the grid and the package decide, codes 10 to 12 (R18, R71). -/
def State.gridRefusal (s : State) (i : Image) (nx ny nz : Nat) : Option Nat :=
  let n := nx * ny * nz
  if 2 ^ 56 < n * i.threads then some 10
  else if i.cls = 0 && decide (s.packageHolds i < n) then some 11
  else if s.clustersPresent.all (fun g => s.clusterHolds g i = 0) then some 12
  else none

/-- What the check of an image comes to: the image, or a refusal code. -/
abbrev Checked := Except Nat Image

/-- The tables of an image, and its refusal by codes 7 to 12. -/
def State.checkTables (s : State) (asp : Nat) (h : Header) (i : Image) (nx ny nz : Nat) : State × Got Checked :=
  match s.readTable asp i.base h.groupOff h.nGroups with
  | (s, .fail v a r) => (s, .fail v a r)
  | (s, .ok gs) =>
    if i.bad7 gs then (s, .ok (.error 7))
    else if 32 < h.nRings then (s, .ok (.error 8))
    else match s.readTable asp i.base h.ringOff h.nRings with
      | (s, .fail v a r) => (s, .fail v a r)
      | (s, .ok rs) =>
        if i.bad8 rs then (s, .ok (.error 8))
        else match s.readTable asp i.base h.taskOff h.nTasks with
          | (s, .fail v a r) => (s, .fail v a r)
          | (s, .ok ts) =>
            if h.bad9 ts then (s, .ok (.error 9))
            else
              let i := { i with groups := gs.map groupOf, rings := rs.map ringDeclOf }
              match s.gridRefusal i nx ny nz with
              | some k => (s, .ok (.error k))
              | none => (s, .ok (.ok i))

/-- The check of an image at a base for a grid (R17): the lowest code that applies. -/
def State.checkImage (s : State) (asp : Nat) (base : W64) (nx ny nz : Nat) : State × Got Checked :=
  match s.rd asp base 128 none with
  | (s, .fail v a r) => (s, .fail v a r)
  | (s, .ok (b, _)) =>
    let h : Header := ⟨b⟩
    let i := h.image base
    match h.refusal i with
    | some k => (s, .ok (.error k))
    | none => s.checkTables asp h i nx ny nz

end Sys2Proof.Machine
end

