-- ==== Sys2Proof/Machine/Command.lean ====
section
/-! DEFINITION. Command processors and the command language (R33 to R38, R42, R367). -/

namespace Sys2Proof.Machine

/-! ### Headers (R33) -/

def cmdArg (h : W64) : Nat := bitsN h.toNat 32 32
def cmdFlags (h : W64) : Nat := bitsN h.toNat 16 16
def cmdLen (h : W64) : Nat := bitsN h.toNat 8 8

/-- The command of a queue ends: it moves on by its words, HEAD follows, and a draining queue or a fenced processor is done
(R31, R356, R367). -/
def State.cmdDone (s : State) (q n : Nat) : State :=
  let s := s.updQueue q (fun x => { x.advance n with busy := false })
  ((s.headBack q).drainCheck q).fenceCp (s.queue q).assign

/-- The command at which a queue stands stops it (R36). -/
def State.cmdStop (s : State) (q code : Nat) : State :=
  (s.stopCmd q code).fenceCp (s.queue q).assign

/-- A command's access has failed: a bad address stops the queue; a failed walk parks it (R36, R48, R61). -/
def State.cmdFault (s : State) (q : Nat) (va : W64) (a : Access) (reason : Nat) : State :=
  if reason = 0 then s.cmdStop q 3
  else
    let s := s.updQueue q (fun x => { x with parked := true })
    if reason = 6 then s.updQueue q (fun x => { x with parked := false })
    else s.recordFault s.lowestDie (s.queue q).aspace va a reason [.queue q]

/-- The constructs open in a queue's innermost stream. -/
def Queue.nest (x : Queue) : List Nest := match x.streams with | t :: _ => t.nest | [] => []

/-- Change the constructs of a queue's innermost stream. -/
def Queue.setNest (x : Queue) (n : List Nest) : Queue :=
  { x with streams := match x.streams with | t :: r => { t with nest := n } :: r | [] => [] }

/-- Is a body being skipped? -/
def Nest.skips : Nest → Option Nat
  | .skipIf d | .skipElse d | .skipLoop d => some d
  | _ => none

/-- A skipping construct at another depth. -/
def Nest.setDepth (n : Nest) (d : Nat) : Nest :=
  match n with
  | .skipIf _ => .skipIf d
  | .skipElse _ => .skipElse d
  | .skipLoop _ => .skipLoop d
  | x => x

/-- Depth of the constructs of a stream. -/
def nestDepth (n : List Nest) : Nat := n.length + ((n.head?.bind Nest.skips).getD 0)

/-- What a skipped command does to its stream's constructs: the new list, or none for code 2. -/
def skipOver (h : W64) (x : Nest) (r : List Nest) (d : Nat) : Option (List Nest) :=
  let deeper := if 8 ≤ nestDepth (x :: r) then none else some (x.setDepth (d + 1) :: r)
  match (h.extractLsb' 0 8).toNat with
  | 0x07 | 0x09 => deeper
  | 0x08 => if d = 0 then (match x with | .skipLoop _ => some r | _ => none) else some (x.setDepth (d - 1) :: r)
  | 0x0A => if d ≠ 0 then some (x :: r) else (match x with | .skipIf _ => some (.elseBody :: r) | _ => none)
  | 0x0B => if d = 0 then (match x with | .skipLoop _ => none | _ => some r) else some (x.setDepth (d - 1) :: r)
  | _ => some (x :: r)

/-- A command in a body that is skipped is only passed over (R34). -/
def State.skipCmd (s : State) (q : Nat) (h : W64) (x : Nest) (r : List Nest) (d : Nat) : State :=
  if commandLen h ≠ some (cmdLen h) then s.cmdStop q 1
  else match skipOver h x r d with
    | none => s.cmdStop q 2
    | some n => (s.updQueue q (fun y => y.setNest n)).cmdDone q (cmdLen h)

/-- A command of the current processor's queue: passed over when its body is skipped; else code 1 for a wrong LEN, a FLAGS
bit that is not defined or an ARG out of range; else its effect (R33, R34). -/
def State.command (s : State) (h : W64) (len flags args : Nat) (body : State → Nat → State) : State :=
  let q := s.cur.slot
  match (s.queue q).nest with
  | x :: r =>
    match x.skips with
    | some d => s.skipCmd q h x r d
    | none => if cmdLen h ≠ len || flags < cmdFlags h || args < cmdArg h then s.cmdStop q 1 else body s q
  | [] => if cmdLen h ≠ len || flags < cmdFlags h || args < cmdArg h then s.cmdStop q 1 else body s q

/-! ### Simple commands (R34) -/

/-- END (R34). -/
def execCEnd (h : W64) (_ : List W64) (s : State) : Out :=
  .next (s.command h 1 0 0 (fun s q =>
    match (s.queue q).streams with
    | _ :: t :: r => (s.updQueue q (fun x => { x with streams := t :: r })).cmdDone q 0
    | _ => s.cmdDone q 1))

/-- An operand word. -/
def operand (ws : List W64) (k : Nat) : W64 := ws.getD k 0

/-- The thread in whose name a queue's commands write. -/
def queueThread (q : Nat) : Thread := { kind := 5, a := q }

/-- ADDSEQ (R34, R41). -/
def execCAddseq (h : W64) (ws : List W64) (s : State) : Out :=
  .next (s.command h 3 1 0 (fun s q =>
    let va := operand ws 0
    let k := operand ws 1
    if va.toNat % 16 ≠ 0 || k.getLsbD 63 then s.cmdStop q 5
    else match s.unitXlate (s.queue q).aspace va .write none with
      | (s, .fail v a r) => s.cmdFault q v a r
      | (s, .ok (pa, cls)) =>
        if cls ≠ 3 then s.cmdStop q 5 else (s.ctrAdvance pa k.toNat (cmdFlags h = 1) [queueThread q]).cmdDone q 3))

/-- WAITSEQ whose counter satisfies it, with the poison it saw. -/
def State.waitseqDone (s : State) (q : Nat) (h : W64) (poison : Bool) : State :=
  let s := s.updQueue q (fun x => { x with waitseq := none, released := none })
  if poison && cmdFlags h = 0 then s.cmdStop q 4 else s.cmdDone q 3

/-- WAITSEQ that its counter does not satisfy: the queue waits with the hub's watch (R33, R42). -/
def State.waitseqBlock (s : State) (q pa thr : Nat) : State :=
  let (s, watched) := s.watchAdd pa 8
  let w : CtrWait := { pa := pa, thr := thr, who := { unit := .cp, slot := q }, die := 8, watched := watched }
  let s := { s with xl := { s.xl with waiters := s.xl.waiters ++ [w] } }
  s.updQueue q (fun x => { x with waitseq := some pa, busy := false })

/-- WAITSEQ (R34, R42). -/
def execCWaitseq (h : W64) (ws : List W64) (s : State) : Out :=
  .next (s.command h 3 1 0 (fun s q =>
    let va := operand ws 0
    let thr := operand ws 1
    match (s.queue q).released with
    | some p => s.waitseqDone q h p
    | none =>
      if va.toNat % 16 ≠ 0 || thr.getLsbD 63 then s.cmdStop q 5
      else match s.unitXlate (s.queue q).aspace va .read none with
        | (s, .fail v a r) => s.cmdFault q v a r
        | (s, .ok (pa, cls)) =>
          if cls ≠ 3 then s.cmdStop q 5
          else
            let (s, lo, _) := s.ctrWords pa
            if ctrSat lo thr.toNat then s.waitseqDone q h (ctrPoison lo) else s.waitseqBlock q pa thr.toNat))

/-- WRITE, in stack 15 too (R34, R49). -/
def execCWrite (h : W64) (ws : List W64) (s : State) : Out :=
  .next (s.command h 3 1 0 (fun s q =>
    let va := operand ws 0
    let n := if cmdFlags h = 1 then 8 else 4
    if va.toNat % n ≠ 0 then s.cmdStop q 5
    else match s.unitXlate (s.queue q).aspace va .write none with
      | (s, .fail v a r) => s.cmdFault q v a r
      | (s, .ok (pa, cls)) =>
        let b := leBytes n (operand ws 1).toNat
        let s := if !s.isLocal pa then s.askWrite [queueThread q] (pa / 128)
          else if isIo pa then s.ioWrite (paOff pa) n (leNat b) (some (queueThread q))
          else s.homeWrite (pa / 128) (byteMask (pa % 128) n) (setLineBytes 0 (pa % 128) b) (cls = 3)
        s.cmdDone q 3))

/-- Is a target word a bad INTR target (R35)? -/
def intrBad (t : W64) : Bool :=
  let x := t.toNat
  bitsN x 39 25 ≠ 0 || bitsN x 18 14 ≠ 0 || decide (71 < bitsN x 32 7) || bitsN x 0 12 = 0 || decide (2047 < bitsN x 0 12)

/-- INTR (R34, R35). -/
def execCIntr (h : W64) (ws : List W64) (s : State) : Out :=
  .next (s.command h 2 0 0 (fun s q =>
    if intrBad (operand ws 0) then s.cmdStop q 1 else (s.sendMsi (operand ws 0)).cmdDone q 2))

/-- Is all performed that a queue's FENCE waits for: its earlier WRITEs and ADDSEQs, and with LAUNCHES its earlier launches
(R34, R286, R317)? -/
def State.fenceDone (s : State) (q : Nat) : Bool :=
  !s.fenceLate 7 (queueThread q) && (!(s.queue q).fenceAll || (s.queue q).launches = [])

/-- FENCE: at once, when there is nothing to wait for (R34). -/
def execCFence (h : W64) (_ : List W64) (s : State) : Out :=
  .next (s.command h 1 1 0 (fun s q =>
    let s := s.updQueue q (fun x => { x with fenceAll := cmdFlags h = 1 })
    if s.fenceDone q then s.cmdDone q 1 else s.updQueue q (fun x => { x with fence := true, busy := false })))

/-- FENCE_COMMAND_COMPLETE: what a FENCE waits for is performed (R34). -/
def execFenceCommandComplete (q : BitVec 16) (s : State) : Out :=
  if (s.queue q.toNat).fence && s.fenceDone q.toNat then
    .next ((s.updQueue q.toNat (fun y => { y with fence := false })).cmdDone q.toNat 1)
  else .next s

/-- UNDEFINED_OP: a code of no command stops the queue (R34, R36). -/
def execUndefinedOp (_ : W64) (_ : List W64) (s : State) : Out := .next (s.cmdStop s.cur.slot 1)

/-! ### Constructs (R34) -/

/-- An 8-byte word that a command reads, or what becomes of the command. -/
def State.cmdWord (s : State) (q : Nat) (va : W64) (k : State → W64 → State) : State :=
  if va.toNat % 8 ≠ 0 then s.cmdStop q 5
  else match s.rd (s.queue q).aspace va 8 none with
    | (s, .fail v a r) => s.cmdFault q v a r
    | (s, .ok (b, _)) => k s (BitVec.ofNat 64 (leNat b))

/-- Open a construct in the innermost stream, after the command that opens it. -/
def State.openNest (s : State) (q len : Nat) (n : Nest) : State :=
  (s.updQueue q (fun x => x.setNest (n :: x.nest))).cmdDone q len

/-- The position after a command in the innermost stream. -/
def Queue.after (x : Queue) (n : Nat) : Nat := match x.streams with | t :: _ => t.pos + n | [] => n

/-- LOOP (R34). -/
def execCLoop (h : W64) (ws : List W64) (s : State) : Out :=
  .next (s.command h 2 0 0 (fun s q =>
    if 8 ≤ nestDepth (s.queue q).nest then s.cmdStop q 2
    else s.cmdWord q (operand ws 0) (fun s n =>
      s.openNest q 2 (if n = 0 then .skipLoop 0 else .loop ((s.queue q).after 2) n.toNat))))

/-- ENDLOOP (R34). -/
def execCEndloop (h : W64) (_ : List W64) (s : State) : Out :=
  .next (s.command h 1 0 0 (fun s q =>
    match (s.queue q).nest with
    | .loop a n :: r =>
      if 1 < n then
        (s.updQueue q (fun x => { (x.setNest (.loop a (n - 1) :: r)) with streams :=
          match x.streams with | t :: ts => { t with nest := .loop a (n - 1) :: r, pos := a } :: ts | [] => [] })).cmdDone q 0
      else (s.updQueue q (fun x => x.setNest r)).cmdDone q 1
    | _ => s.cmdStop q 2))

/-- The comparisons of IF. -/
def ifHolds (k : Nat) (x y : W64) : Bool :=
  match k with
  | 0 => x = y
  | 1 => x ≠ y
  | 2 => decide (x.toNat < y.toNat)
  | 3 => decide (y.toNat ≤ x.toNat)
  | 4 => decide (x.toInt < y.toInt)
  | _ => decide (y.toInt ≤ x.toInt)

/-- IF (R34). -/
def execCIf (h : W64) (ws : List W64) (s : State) : Out :=
  .next (s.command h 3 0 5 (fun s q =>
    if 8 ≤ nestDepth (s.queue q).nest then s.cmdStop q 2
    else s.cmdWord q (operand ws 0) (fun s x =>
      s.openNest q 3 (if ifHolds (cmdArg h) x (operand ws 1) then .ifBody else .skipIf 0))))

/-- ELSE (R34). -/
def execCElse (h : W64) (_ : List W64) (s : State) : Out :=
  .next (s.command h 1 0 0 (fun s q =>
    match (s.queue q).nest with
    | .ifBody :: r => (s.updQueue q (fun x => x.setNest (.skipElse 0 :: r))).cmdDone q 1
    | _ => s.cmdStop q 2))

/-- ENDIF (R34). -/
def execCEndif (h : W64) (_ : List W64) (s : State) : Out :=
  .next (s.command h 1 0 0 (fun s q =>
    match (s.queue q).nest with
    | .ifBody :: r | .elseBody :: r => (s.updQueue q (fun x => x.setNest r)).cmdDone q 1
    | _ => s.cmdStop q 2))

/-- CALLSTREAM (R34). -/
def execCCallstream (h : W64) (ws : List W64) (s : State) : Out :=
  .next (s.command h 2 0 0 (fun s q =>
    let va := operand ws 0
    if va.toNat % 8 ≠ 0 then s.cmdStop q 5
    else if 5 ≤ (s.queue q).streams.length then s.cmdStop q 2
    else
      let s := s.updQueue q (fun x =>
        let y := x.advance 2
        { y with streams := { base := some va } :: y.streams })
      s.cmdDone q 0))

/-! ### Launches (R38, R39, R304) -/

/-- A launch of a record's fields. -/
def launchOf (q asp : Nat) (img : Image) (nx ny nz : Nat) (ws : List W64) : Launch :=
  { queue := q, aspace := asp, img := img, nx := nx, ny := ny, nz := nz, args := operand ws 2, done := operand ws 3
    crec := operand ws 4, aff0 := operand ws 5, aff1 := operand ws 6, affStride := bitsN (operand ws 7).toNat 0 32
    cq := bitsN (operand ws 7).toNat 32 16 }

/-- Submit a launch: its number is its arrival (R39, R304). -/
def State.submit (s : State) (q : Nat) (l : Launch) : State :=
  let n := s.work.nextLnum
  let s := { s with work := { s.work with launches := s.work.launches.put n l, nextLnum := n + 1 } }
  s.updQueue q (fun x => { x with launches := x.launches ++ [n] })

/-- The grid word's fields. -/
def gridX (g : W64) : Nat := bitsN g.toNat 0 32
def gridY (g : W64) : Nat := bitsN g.toNat 32 16
def gridZ (g : W64) : Nat := bitsN g.toNat 48 16

/-- A launch with its grid: the checks of R17, and the submission. -/
def State.cmdLaunch (s : State) (q : Nat) (ws : List W64) (grid : W64) : State :=
  let asp := (s.queue q).aspace
  match s.checkImage asp (operand ws 0) (gridX grid) (gridY grid) (gridZ grid) with
  | (s, .fail v a r) => s.cmdFault q v a r
  | (s, .ok (.error k)) => s.cmdStop q (0x100 + k)
  | (s, .ok (.ok img)) => (s.submit q (launchOf q asp img (gridX grid) (gridY grid) (gridZ grid) ws)).cmdDone q 9

/-- What the record itself decides: code 13, or a misaligned address. -/
def recordStop (ws : List W64) : Option Nat :=
  if bitsN (operand ws 7).toNat 48 16 ≠ 0 then some 0x10D
  else if (operand ws 0).toNat % 64 ≠ 0 || (operand ws 3).toNat % 16 ≠ 0 then some 5
  else none

/-- LAUNCH (R34, R38). -/
def execCLaunch (h : W64) (ws : List W64) (s : State) : Out :=
  .next (s.command h 9 0 0 (fun s q =>
    match recordStop ws with
    | some k => s.cmdStop q k
    | none => s.cmdLaunch q ws (operand ws 1)))

/-- LAUNCH.IND: the grid word is read when the command executes (R34). -/
def execCLaunchInd (h : W64) (ws : List W64) (s : State) : Out :=
  .next (s.command h 9 0 0 (fun s q =>
    match recordStop ws with
    | some k => s.cmdStop q k
    | none => s.cmdWord q (operand ws 1) (fun s grid => s.cmdLaunch q ws grid)))

/-! ### The turn of a processor (R33) -/

/-- May a processor serve a queue now? -/
def Queue.serves (x : Queue) (p : Nat) : Bool :=
  x.type = 1 && x.assign = p && (x.stat = 1 || (x.stat = 3 && x.busy)) && !x.parked && !x.fence
    && (x.waitseq.isNone || x.released.isSome)
    && (match x.streams with
        | [t] => decide (t.pos < x.tail)
        | [] => false
        | _ => true)

/-- Words of the innermost stream that the queue may read at its position. -/
def Queue.visible (x : Queue) (n : Nat) : Bool :=
  match x.streams with
  | [t] => decide (t.pos + n ≤ x.tail)
  | _ => true

/-- The address of word k after the header. -/
def Queue.wordAddr (x : Queue) (k : Nat) : W64 :=
  match x.streams with
  | t :: _ => match t.base with
    | some b => b + BitVec.ofNat 64 (8 * (t.pos + k))
    | none => x.slotAddr (t.pos + k)
  | [] => x.slotAddr (x.head + k)

/-- The next queue that a processor serves, round-robin; one that is classified only ends the commands it has begun (R356). -/
def State.nextCmdQueue (s : State) (p : Nat) : Option Nat :=
  let qs := (s.work.queues.filter (fun e => e.2.serves p && (e.2.busy || !s.fencing 3 p))).map (·.1)
  let from_ := s.work.cpNext.get p 0
  match qs.find? (fun q => decide (from_ ≤ q)) with
  | some q => some q
  | none => qs.head?

/-- Read some words of a queue's stream. -/
def State.cmdWords (s : State) (q : Nat) (ks : List Nat) : State × Got (List W64) :=
  ks.foldl (fun (s, got) k =>
    match got with
    | .fail v a r => (s, .fail v a r)
    | .ok ws =>
      match s.rd (s.queue q).aspace ((s.queue q).wordAddr k) 8 none with
      | (s, .fail v a r) => (s, .fail v a r)
      | (s, .ok (b, _)) => (s, .ok (ws ++ [BitVec.ofNat 64 (leNat b)]))) (s, .ok [])

/-- The command that a processor takes next from a queue, or the state in which it takes none. A header that cannot be read counts
as a command of one word for a clear after its stop (log 79). -/
def State.fetchCmd (s : State) (p q : Nat) : State × Option Instr :=
  let s := { s with work := { s.work with cpNext := s.work.cpNext.put p (q + 1) }
                    cur := { unit := .cp, g := p, slot := q } }
  let s := s.updQueue q (fun x => { x with cmdLen := 1, busy := true })
  match s.cmdWords q [0] with
  | (s, .fail v a r) => (s.cmdFault q v a r, none)
  | (s, .ok hs) =>
    let h := operand hs 0
    let n := cmdLen h
    let s := s.updQueue q (fun x => { x with cmdLen := max 1 n })
    if commandLen h ≠ some n then (s, some (decodeCommand h []))
    else if !(s.queue q).visible n then (s.updQueue q (fun x => { x with busy := false }), none)
    else
      match s.cmdWords q ((List.range (n - 1)).map (· + 1)) with
      | (s, .fail v a r) => (s.cmdFault q v a r, none)
      | (s, .ok ws) => (s, some (decodeCommand h ws))

end Sys2Proof.Machine
end

