-- ==== Sys2Proof/Machine/Cross.lean ====
section
/-! DEFINITION. Exchange across lanes: XLANE and RDLANE (R165, R166). -/

namespace Sys2Proof.Machine

/-- The B operand of a cross-lane instruction; an immediate is unsigned (R165, R166). -/
def crossB (s : State) (c : Issuer) (o : Ops) (l : Nat) : Nat :=
  if o.bs = 3 then o.b.toNat else (s.opB c o [] l 0 false).toNat

/-- The source lane of XLANE, none below lane 0 (R165). -/
def xlaneSource (sub sw l b : Nat) : Option Nat :=
  match sub with
  | 0 => some (l - l % sw + b % sw)
  | 1 => if b ≤ l then some (l - b) else none
  | 2 => some (l + b)
  | _ => some (l ^^^ b)

/-- XLANE over the active lanes of the group (R165). -/
def xlaneAlu : Alu := fun s c o _ ls =>
  let wide := wideTy o.ty
  let sw := 2 ^ o.c.toNat
  let a := fun l => s.opA c o l wide
  (ls.flatMap (fun l =>
    let base := l - l % sw
    let x := match xlaneSource o.sub sw l (crossB s c o l) with
      | some m => if base ≤ m && m < base + sw && ls.contains m then a m else a l
      | none => a l
    resWrites .v o.d.toNat l o.ty wide x), [])

/-- XLANE (R165). -/
def execXlane (o : Ops) (s : State) : Out := .next (s.alu (.xlane o) xlaneAlu)

/-- RDLANE over the active lanes of the group (R166). -/
def rdlaneAlu : Alu := fun s c o _ ls =>
  let wide := wideTy o.ty
  let low := ls.headD 0
  let k := if o.sub = 1 then low else crossB s c o low % 32
  let x := s.opA c o (if ls.contains k then k else low) wide
  (ls.flatMap (fun l => resWrites .v o.d.toNat l o.ty wide x), [])

/-- RDLANE (R166). -/
def execRdlane (o : Ops) (s : State) : Out := .next (s.alu (.rdlane o) rdlaneAlu)

end Sys2Proof.Machine
end

