-- ==== Sys2Proof/Machine/Matrix.lean ====
section
/-! DEFINITION. The matrix engine: MMA and accumulator memory (R138 to R142, R221, R222, R229 to R236). -/

namespace Sys2Proof.Machine

/-! ### MMA (R229 to R231) -/

/-- The fields of an MMA's extension word (R229). -/
structure MmaForm where
  ra : Nat
  rb : Nat
  base : Nat
  m : Nat
  n : Nat
  ta : Nat
  tb : Nat
  acc : Bool
  cplx : Bool
  rel : Bool
deriving DecidableEq, Repr, Inhabited

/-- Read the extension word. -/
def mmaForm (e : W64) : MmaForm :=
  let f := fun k w => bitsN e.toNat k w
  { ra := f 0 5, rb := f 5 5, base := f 10 8, m := 32 * (f 18 2 + 1), n := 16 * (f 20 6 + 1), ta := f 26 4, tb := f 30 4
    acc := f 34 1 = 1, cplx := f 35 1 = 1, rel := f 36 1 = 1 }

/-- K of a pair of types: that of the wider one (R230). -/
def MmaForm.k (x : MmaForm) : Nat :=
  if x.ta ≤ 1 || x.tb ≤ 1 then 32 else if x.ta = 5 && x.tb = 5 then 128 else 64

/-- The group size G (R139). -/
def MmaForm.g (x : MmaForm) : Nat := if x.ta ≤ 1 || x.tb ≤ 1 then 8 else 32

/-- Operand rows of B (R230). -/
def MmaForm.bRows (x : MmaForm) : Nat := if x.cplx then x.n / 2 else x.n

/-- Bytes of an operand tile (R222). -/
def MmaForm.tileBytes (x : MmaForm) (t rows : Nat) : Nat := 64 * rows + (if t ≤ 1 then 0 else 4 * rows * (x.k / 32))

/-- Column banks of a tile. -/
def MmaForm.cols (x : MmaForm) : Nat := (x.n + 63) / 64

/-- The banks of a tile (R232). -/
def MmaForm.banks (x : MmaForm) : List Nat := (List.range (x.m / 32 * x.cols)).map (x.base + ·)

/-- An operand tile: where it lies, its type and rows, and K / 32. -/
structure Tile where
  base : Nat
  t : Nat
  rows : Nat
  gs : Nat
deriving DecidableEq, Repr, Inhabited

/-- The code of element k of K-row r (R221). -/
def Tile.code (x : Tile) (b : Block) (r k : Nat) : Nat :=
  let bp := if x.t ≤ 1 then 2 * k else if x.t = 5 then k / 2 else k
  let a := x.base + 64 * r + 16 * ((bp / 16) ^^^ (r % 4)) + bp % 16
  if x.t ≤ 1 then b.scratchNat a 2
  else if x.t = 5 then bitsN (b.scratchAt a).toNat (4 * (k % 2)) 4
  else (b.scratchAt a).toNat

/-- An element's value. -/
def Tile.val (x : Tile) (b : Block) (r k : Nat) : Fp :=
  let c := x.code b r k
  if x.t = 4 then Fp.ofInt (intOf 8 true c) else (copyFmt x.t).unpack c

/-- The scale of row r and K-group kg (R222). -/
def Tile.scale (x : Tile) (b : Block) (r kg : Nat) : Fp :=
  if x.t ≤ 1 then .fin false 1 0 else f32Val (BitVec.ofNat 32 (b.scratchNat (x.base + 64 * x.rows + 4 * (r * x.gs + kg)) 4))

/-- The key of an accumulator element (R232). -/
def accKey (bank row col : Nat) : Nat := (bank * 32 + row) * 64 + col

/-- An accumulator element. -/
def Block.accAt (b : Block) (bank row col : Nat) : W32 := b.acc.get (accKey bank row col) 0

/-- The key of element (m, n) of a tile (R232). -/
def MmaForm.key (x : MmaForm) (m n : Nat) : Nat := accKey (x.base + m / 32 * x.cols + n / 64) (m % 32) (n % 64)

/-- The flags of a group's products: NV of 0 × ∞ and of signalling NaNs. -/
def prodFlags (ps : List (Fp × Fp)) : Flags := ps.foldl (fun f p => f ||| (p.1.mul p.2).2 ||| snanFlag [p.1, p.2]) 0

/-- Add a group's exact sum, scaled, into an accumulator (R139). `ps` are products, each with a sign. -/
def addGroup (acc : W32 × Flags) (ps : List (Fp × Fp × Bool)) (sa sb : Fp) : W32 × Flags :=
  let ts := ps.map (fun p => let t := (p.1.mul p.2.1).1; if p.2.2 then t.negate else t)
  let (x, f1) := exactSum .rne ts
  let (u, f2) := x.mul sa
  let (w, f3) := u.mul sb
  let (y, f4) := roundF32 w
  let (r, f5) := f32Add acc.1 y
  (r, acc.2 ||| f1 ||| f2 ||| f3 ||| f4 ||| f5 ||| prodFlags (ps.map (fun p => (p.1, p.2.1))) ||| snanFlag [sa, sb])

/-- The products of a group of an output column (R139, R142). `part` is none in real mode, else whether the column is
the imaginary part. -/
def groupTerms (a b : Nat → Fp) (g G : Nat) (part : Option Bool) : List (Fp × Fp × Bool) :=
  match part with
  | none => (List.range G).map (fun i => (a (g * G + i), b (g * G + i), false))
  | some im => (List.range (G / 2)).flatMap (fun i =>
      let k := g * G + 2 * i
      if im then [(a k, b (k + 1), false), (a (k + 1), b k, false)]
      else [(a k, b k, false), (a (k + 1), b (k + 1), true)])

/-- One output element in floating mode: the old accumulator, then the groups in ascending K (R139, R142). -/
def mmaElem (x : MmaForm) (blk : Block) (ta tb : Tile) (m n : Nat) : W32 × Flags :=
  let row := if x.cplx then n / 2 else n
  let part := if x.cplx then some (decide (n % 2 = 1)) else none
  let old : W32 := if x.acc then blk.acc.get (x.key m n) 0 else 0
  (List.range (x.k / x.g)).foldl (fun acc g =>
    let kg := g * x.g / 32
    addGroup acc (groupTerms (ta.val blk m) (tb.val blk row) g x.g part) (ta.scale blk m kg) (tb.scale blk row kg)) (old, 0)

/-- One output element in integer mode (R141). -/
def mmaInt (x : MmaForm) (blk : Block) (ta tb : Tile) (m n : Nat) : W32 :=
  let old : W32 := if x.acc then blk.acc.get (x.key m n) 0 else 0
  let e := fun (t : Tile) r k => intOf 8 true (t.code blk r k)
  BitVec.ofNat 32 (wrapInt 32 ((List.range x.k).foldl (fun (s : Int) k => s + e ta m k * e tb n k) old.toNat))

/-- Perform an MMA on a block (R231). -/
def State.mmaRun (s : State) (g : Nat) (q : MatCmd) : State :=
  let x := mmaForm q.ext
  let blk := s.block g q.blk
  let ta : Tile := { base := q.slotA, t := x.ta, rows := x.m, gs := x.k / 32 }
  let tb : Tile := { base := q.slotB, t := x.tb, rows := x.bRows, gs := x.k / 32 }
  let cells := (List.range x.m).flatMap (fun m => (List.range x.n).map (fun n => (m, n)))
  let out := cells.map (fun c => (x.key c.1 c.2, if q.int then (mmaInt x blk ta tb c.1 c.2, (0 : Flags)) else mmaElem x blk ta tb c.1 c.2))
  let fl := out.foldl (fun f e => f ||| e.2.2) 0
  let s := s.updBlock g q.blk (fun b => { b with acc := out.foldl (fun a e => a.put e.1 e.2.1) b.acc })
  s.orBlockFlags g q.blk (fl &&& (flNV ||| flOF))

/-! ### Accumulator allocation (R233) -/

/-- The allocation that holds a bank. -/
def Block.allocOf (b : Block) (bank : Nat) : Option AccAlloc :=
  b.allocs.find? (fun a => decide (a.first ≤ bank) && decide (bank < a.first + a.count))

/-- The first bank and count of a range word. -/
def accFirst (w : Nat) : Nat := bitsN w 0 10
def accCount (w : Nat) : Nat := bitsN w 16 10

/-- The groups that an ALLOC names. -/
def allocGroups (e : W64) : List Nat := (List.range (e.toNat % 8)).map (fun k => bitsN e.toNat (8 + 8 * k) 8)

/-- The check of an ACCOP: a cause's code, if any (R233). -/
def Block.accCheck (b : Block) (sub w : Nat) (e : W64) : Option Nat :=
  let first := accFirst w
  let n := accCount w
  if bitsN w 10 6 ≠ 0 || bitsN w 26 38 ≠ 0 || n = 0 || 512 < n || 8 * b.img.accg < first + n then some 9
  else match sub with
    | 0 =>
      let cb := bitsN e.toNat 3 5
      let gs := allocGroups e
      if (List.range n).any (fun k => (b.allocOf (first + k)).isSome) || n % cb ≠ 0 || (n / cb * 32) % gs.length ≠ 0
          || gs.any (fun g => decide (b.img.groups.length ≤ g)) || 16 ≤ b.allocs.length then some 9
      else none
    | 1 => if (List.range n).any (fun k => (b.allocOf (first + k)).isNone) then some 10 else none
    | _ => if b.allocs.any (fun a => a.first = first && a.count = n) then none else some 9

/-- Zero every element of a range. -/
def Block.accZero (b : Block) (w : Nat) : Block :=
  let lo := accKey (accFirst w) 0 0
  let hi := accKey (accFirst w + accCount w) 0 0
  { b with acc := b.acc.filter (fun e => decide (e.1 < lo) || decide (hi ≤ e.1)) }

/-- The record of an ACCOP: an allocation is entered or removed. -/
def Block.accNote (b : Block) (sub w : Nat) (e : W64) : Block :=
  match sub with
  | 0 => { b with allocs := b.allocs ++ [{ first := accFirst w, count := accCount w, cb := bitsN e.toNat 3 5, owners := allocGroups e }] }
  | 1 => b
  | _ => { b with allocs := b.allocs.filter (fun a => !(a.first = accFirst w && a.count = accCount w)) }

/-- The effect of an ACCOP: ALLOC and ZERO leave every element of the range 0. -/
def Block.accApply (b : Block) (sub w : Nat) (e : W64) : Block := if sub = 2 then b.accNote 2 w e else (b.accNote sub w e).accZero w

/-- The block as a party's next accumulator operation finds it: in sequencer code the commands that the engine still holds
come first (R236, log 25). -/
def State.accView (s : State) (c : Issuer) : Block :=
  let b := s.blockOf c
  if !c.isSeq then b
  else (((s.cl c.g).matQ.filter (fun q => some q.blk = s.blkOf c)).filterMap (·.accop)).foldl (fun b x => b.accNote x.1 x.2.1 x.2.2) b

/-- The range word of an ACCOP: a w register in lane code, an s or e register of 64 bits elsewhere. -/
def State.accWord (s : State) (c : Issuer) (o : Ops) (l : Nat) : Nat :=
  (s.regOf c (fileBC c o o.bs) o.b.toNat l (c.unit ≠ .lane)).toNat

/-- An ACCOP: at once in lane and spine code; in sequencer code it is handed to the matrix engine and takes effect after the
engine's earlier commands (R214, R233, R236, log 25). -/
def accopBody (sub : Nat) (s : State) (c : Issuer) (o : Ops) (ls : List Nat) : Eff :=
  let w := s.accWord c o (ls.headD 0)
  if (s.waveOf c).isSome then .fail { code := 9, lanes := ls, info := 0xFFFF }
  else match (s.accView c).accCheck sub w o.ext with
    | some 10 => .fail { code := 10, lanes := ls, info := BitVec.ofNat 64 w }
    | some k => .fail { code := k, lanes := ls, info := 0xFFFF }
    | none =>
      if c.isSeq then
        let q : MatCmd := { blk := (s.blkOf c).getD 0, accop := some (sub, w, o.ext), seq := some (if c.isCopy then 0 else 1) }
        let s := s.updCl c.g (fun k => { k with matQ := k.matQ ++ [q] })
        .go (s.updSeqr c.g c.isCopy (fun x => { x with flight := x.flight + 1 })) []
      else .go (s.updBlockOf c (fun b => b.accApply sub w o.ext)) []

/-- ACCOP.ALLOC (R233). -/
def execAccopAlloc (o : Ops) (s : State) : Out := .next (s.issue (.accopAlloc o) (fun s c o _ ls => accopBody 0 s c o ls))
/-- ACCOP.ZERO (R233). -/
def execAccopZero (o : Ops) (s : State) : Out := .next (s.issue (.accopZero o) (fun s c o _ ls => accopBody 1 s c o ls))
/-- ACCOP.FREE (R233). -/
def execAccopFree (o : Ops) (s : State) : Out := .next (s.issue (.accopFree o) (fun s c o _ ls => accopBody 2 s c o ls))

/-! ### ACCRD and ACCWR (R234, R235) -/

/-- Is a warp of the block in the owner group of an allocation's row? -/
def Block.ownsRow (b : Block) (a : AccAlloc) (bw bank row : Nat) : Bool :=
  let rt := a.count / max a.cb 1 * 32
  let p := 32 * ((bank - a.first) / max a.cb 1) + row
  let gi := a.owners.getD (p / max (rt / max a.owners.length 1) 1) 256
  match b.img.groups[gi]? with
  | some d => d.warps.getLsbD bw
  | none => false

/-- The checks of ACCRD and ACCWR on an address word (R234). -/
def State.accFail (s : State) (c : Issuer) (w : Nat) (ls : List Nat) : Option Fail :=
  let b := s.blockOf c
  let bank := bitsN w 11 9
  if (s.waveOf c).isSome || bitsN w 20 12 ≠ 0 || 32 < bitsN w 0 6 then some { code := 9, lanes := ls, info := 0xFFFF }
  else match b.allocOf bank with
    | none => some { code := 10, lanes := ls, info := BitVec.ofNat 64 w }
    | some a =>
      if b.ownsRow a (s.warp c.g c.slot).bw bank (bitsN w 6 5) then none
      else some { code := 11, lanes := ls, info := BitVec.ofNat 64 w }

/-- The key of the element of lane l. -/
def accLaneKey (w l : Nat) : Nat := accKey (bitsN w 11 9) (bitsN w 6 5) (bitsN w 0 6 + l)

/-- The conversion of ACCRD (R234). -/
def accrdVal (cvt : Nat) (x : W32) : W32 × Flags :=
  let v := f32Val x
  match cvt with
  | 0 => (x, 0)
  | 3 => let (i, f) := toIntType 1 .rne v; (BitVec.ofNat 32 (wrapInt 32 i), f)
  | k => let (b, f) := (if k = 1 then bf16 else fp16).round .rne .sat false v; (BitVec.ofNat 32 b, f ||| snanFlag [v])

/-- ACCRD (R234). -/
def accrdBody (s : State) (c : Issuer) (o : Ops) (ls : List Nat) : Eff :=
  let w := s.accWord c o (ls.headD 0)
  match s.accFail c w ls with
  | some f => .fail f
  | none =>
    let b := s.blockOf c
    let rs := ls.map (fun l => (l, accrdVal (o.sub % 4) (b.acc.get (accLaneKey w l) 0)))
    let s := s.giveResult (.accrd o) c o ls (rs.flatMap (fun r => resWrites .v o.d.toNat r.1 0 false (r.2.1.setWidth 64)),
      rs.map (fun r => (r.1, r.2.2)))
    .go (if o.sub / 4 = 1 then s.updBlockOf c (fun b => { b with acc := ls.foldl (fun a l => a.del (accLaneKey w l)) b.acc })
      else s) []
/-- ACCRD (R234). -/
def execAccrd (o : Ops) (s : State) : Out := .next (s.issue (.accrd o) (fun s c o _ ls => accrdBody s c o ls))

/-- The conversion of ACCWR (R235). -/
def accwrVal (cvt : Nat) (x : W32) : W32 × Flags :=
  if cvt = 0 then (x, 0)
  else
    let v := (if cvt = 1 then bf16 else fp16).unpack (x.toNat % 65536)
    ((roundF32 v).1, snanFlag [v])

/-- ACCWR (R235). -/
def accwrBody (s : State) (c : Issuer) (o : Ops) (ls : List Nat) : Eff :=
  let w := s.accWord c o (ls.headD 0)
  match s.accFail c w ls with
  | some f => .fail f
  | none =>
    let rs := ls.map (fun l => (l, accwrVal (o.sub % 4) (s.v c.g c.slot l o.c.toNat)))
    let s := s.updBlockOf c (fun b => { b with acc := rs.foldl (fun a r => a.put (accLaneKey w r.1) r.2.1) b.acc })
    .go (s.orFlags c (rs.foldl (fun f r => f ||| r.2.2) 0)) []
/-- ACCWR (R235). -/
def execAccwr (o : Ops) (s : State) : Out := .next (s.issue (.accwr o) (fun s c o _ ls => accwrBody s c o ls))

/-! ### The issue of an MMA, and its end (R231) -/

/-- An operand's ring as an MMA finds it: refused, or the ring, with whether its slot is large enough. -/
def State.mmaRing (s : State) (c : Issuer) (num need : Nat) : Option Ring :=
  match s.ringAt c.g ((s.blkOf c).getD 0) num with
  | some (_, r) => if r.ok && decide (need ≤ 64 * r.slotsz) then some r else none
  | none => none

/-- Hand an MMA to the engine. -/
def State.mmaSubmit (s : State) (c : Issuer) (q : MatCmd) : State :=
  (s.updCl c.g (fun k => { k with matQ := k.matQ ++ [q] })).updSeqr c.g false (fun x => { x with flight := x.flight + 1 })

/-- MMA at issue (R231). -/
def mmaBody (s : State) (c : Issuer) (o : Ops) : Eff :=
  let x := mmaForm o.ext
  let b := (s.blkOf c).getD 0
  match s.mmaRing c x.ra (x.tileBytes x.ta x.m), s.mmaRing c x.rb (x.tileBytes x.tb x.bRows) with
  | none, _ => .fail (ringFault [0] x.ra)
  | some _, none => .fail (ringFault [0] x.rb)
  | some ra, some rb =>
    if x.banks.any (fun k => ((s.accView c).allocOf k).isNone) then
      .fail { code := 10, lanes := [0], info := BitVec.ofNat 64 (x.base + 65536 * x.banks.length) }
    else if ra.fill = 0 then s.ringWait c [0] x.ra ra.pcode .take o
    else if rb.fill = 0 then s.ringWait c [0] x.rb rb.pcode .take o
    else
      let q : MatCmd := { blk := b, ext := o.ext, int := o.sub = 1, slotA := ra.slotOff ra.getix, slotB := rb.slotOff rb.getix
                          seq := some 1 }
      let s := if x.rel then
          match s.ringDo c.g b x.ra .take with
          | some (t, _) => ((t.ringDo c.g b x.rb .take).map (·.1)).getD t
          | none => s
        else s
      .go (s.mmaSubmit c q) []
/-- MMA (R229 to R231). -/
def execMma (o : Ops) (s : State) : Out := .next (s.issue (.mma o) (fun s c o _ _ => mmaBody s c o))

/-- A matrix command ends. -/
def State.matEnd (s : State) (g : Nat) (q : MatCmd) : State :=
  let s := (s.updCl g (fun c => { c with matQ := c.matQ.drop 1 })).seqCounted g q.seq
  let s := match q.accop with
    | some (k, w, e) => s.updBlock g q.blk (fun b => b.accApply k w e)
    | none =>
      let x := mmaForm q.ext
      let s := s.mmaRun g q
      if x.rel then ((s.endRing g q.blk x.ra .ret g q.blk 2).1.endRing g q.blk x.rb .ret g q.blk 2).1 else s
  s.seqCommandDone g q.seq

/-- MMA_COMPLETION: the matrix engine performs its oldest command (R231, log 21). -/
def execMmaCompletion (g : Nat) (s : State) : Out :=
  match (s.cl g).matQ with
  | [] => .next s
  | q :: _ => .next (s.matEnd g q)

end Sys2Proof.Machine
end

