-- ==== Sys2Proof/Machine/Engines.lean ====
section
/-! DEFINITION. FORK, RDV and the issue of TCOPY (R214 to R217, R226). -/

namespace Sys2Proof.Machine

/-! ### FORK (R215) -/

/-- Is a named sequencer of a mask not IDLE? -/
def State.seqsIdle (s : State) (g mask : Nat) : Bool :=
  (mask % 2 = 0 || (s.cl g).mseq.st = .idle) && (mask / 2 % 2 = 0 || (s.cl g).cseq.st = .idle)

/-- Do two masks name one sequencer? -/
def masksMeet (a b : Nat) : Bool := (a % 2 = 1 && b % 2 = 1) || (a / 2 % 2 = 1 && b / 2 % 2 = 1)

/-- The waiting FORKs before the first of this place. -/
def forksBefore (c : Issuer) (ls : List Nat) (q : List ForkWait) : List ForkWait :=
  q.takeWhile (fun x => !ls.any (fun l => x.isFor c l))

/-- May a FORK of some places start its sequencers: they are IDLE, and no earlier FORK waits for one of them (R215)? -/
def State.forkOk (s : State) (c : Issuer) (ls : List Nat) (mask : Nat) : Bool :=
  s.seqsIdle c.g mask && (forksBefore c ls (s.cl c.g).forkQ).all (fun x => !masksMeet x.mask mask)

/-- The sequencer as a FORK starts it. -/
def forkSeqr (blk : Nat) (pc : W64) (e : Map W64) : Seqr := { st := .run, blk := blk, pc := pc, e := e }

/-- FORK once for the group (R215). -/
def forkBody (s : State) (c : Issuer) (o : Ops) (ls : List Nat) : Eff :=
  let x := o.ext.toNat
  let img := (s.blockOf c).img
  let ment := 8 * bitsN x 4 28
  let cent := 8 * bitsN x 32 28
  let out := fun e => decide (e < 128) || decide (128 + img.codeSize ≤ e)
  if (s.waveOf c).isSome || (x % 2 = 1 && out ment) || (x / 2 % 2 = 1 && out cent) then
    .fail { code := 9, lanes := ls, info := 0xFFFF }
  else
    let mask := x % 4
    if s.forkOk c ls mask then
      let f : RFile := match c.unit with | .lane => .w | _ => .s
      let step := match c.unit with | .lane => 2 | _ => 1
      let e : Map W64 := (List.range 4).map (fun k => (k, s.regOf c f (o.a.toNat + step * k) (ls.headD 0) true))
      let b := (s.blkOf c).getD 0
      let s := ls.foldl (fun (s : State) l => s.giveUp c l) s
      let s := if x % 2 = 1 then s.updSeqr c.g false (fun _ => forkSeqr b (img.base + BitVec.ofNat 64 ment) e) else s
      let s := if x / 2 % 2 = 1 then s.updSeqr c.g true (fun _ => forkSeqr b (img.base + BitVec.ofNat 64 cent) e) else s
      .go s []
    else
      let waits := (s.cl c.g).forkQ.any (fun y => ls.any (fun l => y.isFor c l))
      let s := if waits then s
        else s.updCl c.g (fun k => { k with forkQ := k.forkQ ++ [{ who := { c with group := lanesMask ls }, mask := mask }] })
      .go (s.blockOn c ls 8 (.fork mask) o.form.bytes o.sw false) ls
/-- FORK (R215). -/
def execFork (o : Ops) (s : State) : Out := .next (s.issue (.fork o) (fun s c o _ ls => forkBody s c o ls))

/-! ### RDV (R216) -/

/-- RDV of lanes or a context, or of a sequencer once its commands have completed (R214, R216, R217). -/
def rdvBody (s : State) (c : Issuer) (o : Ops) (ls : List Nat) : Eff :=
  match c.unit with
  | .mseq | .cseq =>
    let q := s.seqr c.g c.isCopy
    if q.flight ≠ 0 then .again s [0]
    else
      let came := s.seqGroups c.g c.isCopy
      let s := (s.blockOn c ls 7 (.rdv 0) o.form.bytes false false).updSeqr c.g c.isCopy (fun q => { q with st := .rdv, came := came })
      .go ((s.seqArrive c.g c.isCopy).rdvCheck c.g q.blk) [0]
  | _ =>
    if (s.waveOf c).isSome then .fail { code := 9, lanes := ls, info := 0xFFFF }
    else
      let s := s.blockOn c ls 7 (.rdv o.b.toNat) o.form.bytes o.sw false
      .go (s.rdvCheck c.g ((s.blkOf c).getD 0)) ls
/-- RDV (R216). -/
def execRdv (o : Ops) (s : State) : Out := .next (s.issue (.rdv o) (fun s c o _ ls => rdvBody s c o ls))

/-! ### TCOPY at issue (R226) -/

/-- The 256 bytes of a descriptor, or what stops their read: steps 1 and 2 of R226. -/
def State.tcopyDesc (s : State) (c : Issuer) (o : Ops) (l : Nat) (ls : List Nat) : Except Stop (State × W64 × List Byte) :=
  if o.ext.toNat % 2 = 1 then
    let a := lo32 (s.opA c o l false)
    if a.toNat % 64 ≠ 0 then .error (.fail { code := 7, lanes := ls, addr := a.setWidth 64 })
    else if (s.blockOf c).share < a.toNat + 256 then .error (.fail { code := 9, lanes := ls, addr := a.setWidth 64, info := 0xFFFF })
    else .ok (s, a.setWidth 64, (s.blockOf c).scratchBytes a.toNat 256)
  else
    let a := s.opA c o l true
    if a.toNat % 64 ≠ 0 then .error (.fail { code := 7, lanes := ls, addr := a })
    else match s.checkAccess c .read { al := 1 } [⟨l, a, 256⟩] with
      | .error (.fail f) => .error (.fail { f with lanes := ls })
      | .error e => .error e
      | .ok ps =>
        let (s, b, _) := s.readPieces [] c.g false (ps.flatMap (·.2))
        .ok (s, a, b)

/-- The counter of a command: its frame address, when it names one (step 3 of R226). -/
def State.tcopyCtr (s : State) (c : Issuer) (d : Desc) (ls : List Nat) : Except Stop (Option Nat) :=
  let va := BitVec.ofNat 64 d.ctr
  if d.ctr = 0 then .ok none
  else if badAddr va then .error (.fail { code := 9, lanes := ls, addr := va, info := 0xFFFF })
  else match s.tlbFind c.g (s.aspaceOf c) va .write with
    | none => .error (.miss [(va, .write, 0)])
    | some t => if t.cls = 3 then .ok (some (t.addr va)) else .error (.fail { code := 9, lanes := ls, addr := va, info := 0xFFFF })

/-- Enter a command in the engine's queue (step 5 of R226). -/
def State.tcopySubmit (s : State) (c : Issuer) (q : CopyCmd) : State :=
  let s := s.updCl c.g (fun k => { k with copyQ := k.copyQ ++ [q] })
  if c.isSeq then s.updSeqr c.g c.isCopy (fun x => { x with flight := x.flight + 1 }) else s

/-- The rings a command will use: its own block's, and with MCAST those of the named blocks (step 4 of R226). -/
def State.tcopyRings (s : State) (c : Issuer) (d : Desc) : List (Nat × Nat) :=
  let own := (c.g, (s.blkOf c).getD 0)
  if d.mcast = 0 then [own] else own :: (s.mcastBlocks c.g own.2 d.mcast).filter (· ≠ own)

/-- The class of a party's launch is C (R226). -/
def State.isClassC (s : State) (c : Issuer) : Bool := (s.blockOf c).img.cls = 0

/-- The base of the scratchpad side: the override, the slot that the ring's next transition gives, or the descriptor's; none
when the ring has no descriptor that gives one, which step 4 finds. -/
def State.tcopyBase (s : State) (c : Issuer) (d : Desc) (ovr ring : Option Nat) : Option Nat :=
  match ring with
  | none => some (ovr.getD d.padBase)
  | some n => match s.ringAt c.g ((s.blkOf c).getD 0) n with
    | some (_, r) => if r.ok then some (r.slotOff (if d.dir = 0 then r.putix else r.getix)) else none
    | none => none

/-- The field checks of step 3 of R226, with the scratchpad side's base: a cause's code. -/
def State.tcopyCheck (s : State) (c : Issuer) (d : Desc) (base : Option Nat) : Option Nat :=
  if d.refused then some 9
  else if d.misaligned (base.getD 0) then some 7
  else if d.dir ≠ 2 && base.any (fun b => decide ((s.blockOf c).share < b + d.span)) then some 9
  else if d.mcast ≠ 0 && (!s.isClassC c || d.dir ≠ 0) then some 9
  else none

/-- Step 5 of R226: a command that has been checked, and has its slot, enters the engine's queue; while the queue is full the
group waits with the command, which keeps its slot. -/
def tcopyEnter (s : State) (c : Issuer) (ls : List Nat) (q : CopyCmd) : Eff :=
  if 16 ≤ (s.cl c.g).copyQ.length then
    .again (s.updCl c.g (fun k => { k with copyHeld := k.copyHeld ++ [{ who := { c with group := lanesMask ls }, cmd := q }] })) ls
  else .go ((s.tcopySubmit c q).setEffects c ls) []

/-- Steps 3 to 5 of R226 for a descriptor that has been read. -/
def tcopyGo (s : State) (c : Issuer) (o : Ops) (ls : List Nat) (addr : W64) (bytes : List Byte) : Eff :=
  let x := o.ext.toNat
  let d := parseDesc bytes
  let ovr := if x / 2 % 2 = 1 then some (lo32 (s.opB c o [] (ls.headD 0) 0 false)).toNat else none
  let num := bitsN x 2 5
  let ringen := bitsN x 7 1 = 1
  let b := (s.blkOf c).getD 0
  match s.tcopyCheck c d (s.tcopyBase c d ovr (if ringen then some num else none)) with
  | some k => .fail { code := k, lanes := ls, addr := addr, info := if k = 9 then 0xFFFF else 0 }
  | none =>
    match s.tcopyCtr c d ls with
    | .error e => s.stopEff c ls e
    | .ok ctr =>
      let q : CopyCmd := { blk := b, desc := bytes, addr := addr, base := ovr, ctr := ctr, ctrVa := BitVec.ofNat 64 d.ctr, born := s.ticks
                           seq := if c.isSeq then some (if c.isCopy then 0 else 1) else none }
      if !ringen then tcopyEnter s c ls q
      else if d.dir = 2 then illegalAt (.tcopy o) ls
      else
        let bad := (s.tcopyRings c d).any (fun t => match s.ringAt t.1 t.2 num with
          | some (_, r) => !r.ok || decide (64 * r.slotsz < d.span)
          | none => true)
        if bad then .fail (ringFault ls num)
        else
          let op : RingOp := if d.dir = 0 then .reserve else .take
          match s.ringAt c.g b num with
          | none => .fail (ringFault ls num)
          | some (off, r) =>
            match r.step op with
            | .refused => .fail (ringFault ls num)
            | .waits code => s.ringWait c ls num code op o
            | .done r' slot =>
              tcopyEnter (s.updBlock c.g b (fun y => y.writeRing off r')) c ls
                { q with base := some (r.slotOff slot), ring := some num }

/-- Is a command that waits for the engine's queue one of these places'? -/
def CopyHeld.isOf (h : CopyHeld) (c : Issuer) (ls : List Nat) : Bool :=
  h.who.unit = c.unit && h.who.slot = c.slot && h.who.pc = c.pc && (c.unit ≠ .lane || ls.any (fun l => h.who.group.getLsbD l))

/-- Places that wait with a command try step 5 again; others of the group issue after them. -/
def tcopyRetry (s : State) (c : Issuer) (ls : List Nat) (h : CopyHeld) : Eff :=
  if 16 ≤ (s.cl c.g).copyQ.length then .again s ls
  else
    let mine := fun l => c.unit ≠ .lane || h.who.group.getLsbD l
    let s := s.updCl c.g (fun k => { k with copyHeld := k.copyHeld.filter (· ≠ h) })
    .again ((s.tcopySubmit c h.cmd).setEffects c (ls.filter mine)) (ls.filter (fun l => !mine l))

/-- TCOPY once for the group (R226). -/
def tcopyBody (s : State) (c : Issuer) (o : Ops) (ls : List Nat) : Eff :=
  if (s.waveOf c).isSome then .fail { code := 9, lanes := ls, info := 0xFFFF }
  else match (s.cl c.g).copyHeld.find? (fun h => h.isOf c ls) with
    | some h => tcopyRetry s c ls h
    | none =>
      match s.tcopyDesc c o (ls.headD 0) ls with
      | .error e => s.stopEff c ls e
      | .ok (s, addr, bytes) => tcopyGo s c o ls addr bytes
/-- TCOPY (R226). -/
def execTcopy (o : Ops) (s : State) : Out := .next (s.issue (.tcopy o) (fun s c o _ ls => tcopyBody s c o ls))

end Sys2Proof.Machine
end

