-- ==== Sys2Proof/Machine/Launch.lean ====
section
/-! DEFINITION. Admission, placement, dispatch and retirement of launches and blocks (R20 to R24, R38 to R40, R69 to R71,
R311 to R314). -/

namespace Sys2Proof.Machine

/-- A launch by its number. -/
def State.launch (s : State) (n : Nat) : Launch := s.work.launches.get n {}
/-- Change a launch. -/
def State.updLaunch (s : State) (n : Nat) (f : Launch → Launch) : State :=
  { s with work := { s.work with launches := s.work.launches.put n (f (s.launch n)) } }
/-- Blocks of a launch's grid. -/
def Launch.blocks (l : Launch) : Nat := l.nx * l.ny * l.nz

/-! ### Room for a block (R69 to R71) -/

/-- Free slots of a SIMT core of a cluster, ascending; waves count or not. -/
def State.coreSlots (s : State) (g k : Nat) (waves : Bool) : List Nat :=
  ((List.range 16).map (fun j => 16 * k + j)).filter (fun j =>
    !s.slotHeld g j && (match (s.cl g).warps.find? j with
    | some w => !waves && w.wave.isSome
    | none => true))

/-- Pegs and group entries that no block of a cluster holds, ascending. -/
def State.openPegs (s : State) (g : Nat) : List Nat :=
  let used := (s.cl g).blocks.flatMap (fun e => e.2.pegMap)
  (List.range 256).filter (fun k => !used.contains k)
def State.openGroups (s : State) (g : Nat) : List Nat :=
  let used := (s.cl g).blocks.flatMap (fun e => e.2.groupMap)
  (List.range 256).filter (fun k => !used.contains k)
/-- Spine contexts that no block holds. -/
def State.openSpines (s : State) (g : Nat) : List Nat :=
  let used := (s.cl g).blocks.filterMap (fun e => e.2.spineCtx)
  (List.range 4).filter (fun k => !used.contains k)

/-- Granules that a block of a launch may take: beyond CTL_TASKG, the granules that waves hold when they count, those that
blocks hold, and a reservation of another launch. A raise of CTL_TASKG takes nothing from the launch's own reservation
(R70, R71). -/
def State.roomFor (s : State) (g n : Nat) (waves : Bool) : Nat :=
  let w := if waves then (s.waveKib g + 63) / 64 else 0
  if (s.cl g).reserved = some n then 64 - w - s.blockGranules g
  else 64 - max (s.taskg g) w - s.heldGranules g

/-- Is every resource of R70 free for a block of a launch on a cluster? -/
def State.fits (s : State) (g n : Nat) (waves : Bool) : Bool :=
  let i := (s.launch n).img
  s.clPresent g && !s.fencing 1 g && decide (i.granules ≤ s.roomFor g n waves)
    && decide (i.pegs ≤ (s.openPegs g).length) && decide (i.groups.length ≤ (s.openGroups g).length)
    && (i.spineEnt = 0 || s.openSpines g ≠ []) && decide ((s.cl g).blocks.length < 64)
    && (List.range 4).all (fun k => decide (i.coreWarps k ≤ (s.coreSlots g k waves).length))

/-! ### Placement (R39) -/

/-- The stack that an affinity buffer names for a block, when its page is backed; a page of another package or of stack 15
names no stack of CTL_DIST, and counts as none (log 76). -/
def State.affStack (s : State) (l : Launch) (base : W64) (blk : Nat) : Option Nat :=
  if base = 0 then none
  else match s.peekLeaf l.aspace (base + BitVec.ofNat 64 (blk * l.affStride)) with
    | some (_, pa) => if s.isLocal pa && decide (paStack pa < 12) then some (paStack pa) else none
    | none => none

/-- The clusters that a block prefers: the present ones of the dies whose entry holds the lowest value of its stack's column
(R51); none without a preference. -/
def State.preferred (s : State) (l : Launch) (blk : Nat) : Option (List Nat) :=
  let k := match s.affStack l l.aff0 blk with
    | some k => some k
    | none => s.affStack l l.aff1 blk
  k.map (fun k =>
    let near := (List.range 9).foldl (fun d row => min d (s.dist row k)) 3
    s.clustersPresent.filter (fun g => s.dist (dieOf g) k = near))

/-- The first cluster of a list on which a block of a launch fits. -/
def State.firstFit (s : State) (n : Nat) (gs : List Nat) : Option Nat := gs.find? (fun g => s.fits g n true)

/-! ### Dispatch (R20, R21, R23, R40, R69) -/

/-- Slots for the warps of a block, by block warp index. -/
def State.pickSlots (s : State) (g : Nat) (i : Image) : List Nat :=
  (List.range i.warpCount).map (fun w => (s.coreSlots g (w % 4) true).getD (w / 4) 0)

/-- The group entry of a declaration (R21, R23). -/
def entryOf (d : GroupDecl) (blk cls : Nat) (slots : List Nat) : GroupEntry :=
  let ws := (List.range 64).filter (fun k => d.warps.getLsbD k)
  { valid := true, blk := blk, expect_ := d.members + d.remote, pcode := if d.remote = 0 then 3 else cls
    spine := bitsN d.extras 0 1 = 1, mseq := bitsN d.extras 1 1 = 1, cseq := bitsN d.extras 2 1 = 1
    warps := ws.foldl (fun m k => setBit m (slots.getD k 0) true) 0 }

/-- The descriptor of a ring at dispatch (R15, R218). -/
def ringBytes (d : RingDecl) : List Byte :=
  leBytes 4 d.slot0 ++ leBytes 2 d.slotsz ++ leBytes 2 d.nslots ++ leBytes 2 d.nslots ++ leBytes 10 0
    ++ leBytes 1 d.pclass ++ leBytes 1 d.cclass ++ leBytes 1 1 ++ leBytes 1 d.number ++ List.replicate 40 0

/-- A warp at dispatch (R40). -/
def warpOf (l : Launch) (b k age now : Nat) (crec : W64) : Warp :=
  let i := l.img
  let lane : Lane := { live := true, pc := i.base + BitVec.ofNat 64 i.warpEnt }
  { blk := some b, bw := k, age := age, since := now
    lanes := ((List.range 32).filter (fun j => decide (32 * k + j < i.threads))).map (fun j => (j, lane))
    w := [(0, lo32 l.args), (1, hi32 l.args), (2, lo32 crec), (3, hi32 crec)] }

/-- The granules of a block: the lowest that are open. -/
def State.pickGranules (s : State) (g : Nat) (i : Image) : List Nat := (s.openGranules g).take i.granules

/-- The scratchpad granules of a share whose last holder was a wave or another launch, which are cleared (R69). -/
def State.cleared (s : State) (g n : Nat) (i : Image) (grs : List Nat) : List Nat :=
  (List.range i.spg).filter (fun k =>
    match (s.cl g).holders.find? (grs.getD (i.regg + k) 64) with
    | some h => h ≠ some n
    | none => false)

/-- Dispatch a block of a launch to a cluster on which it fits. -/
def State.dispatch (s : State) (n blk g : Nat) : State :=
  let l := s.launch n
  let i := l.img
  let b := ((List.range 64).find? (fun k => !(s.cl g).blocks.has k)).getD 0
  let slots := s.pickSlots g i
  let grs := s.pickGranules g i
  let pegs := (s.openPegs g).take i.pegs
  let grps := (s.openGroups g).take i.groups.length
  let ctx := if i.spineEnt = 0 then none else (s.openSpines g).head?
  let crec := if l.crec = 0 then 0 else l.crec + BitVec.ofNat 64 (64 * blk)
  let now := s.cycles (dieOf g)
  let x : Block := { lnum := n, blk := blk, aspace := l.aspace, img := i, nx := l.nx, ny := l.ny, nz := l.nz, crec := l.crec
                     granules := grs, pegMap := pegs, groupMap := grps, slots := slots, spineCtx := ctx
                     clean := s.cleared g n i grs, born := s.ticks }
  let x := i.rings.foldl (fun x d => x.scratchPut d.desc (ringBytes d)) x
  let s := s.acquire g 7
  let s := s.updCl g (fun c => { c with
    blocks := c.blocks.put b x
    holders := grs.foldl (fun m k => m.put k (some n)) c.holders
    reserved := if c.reserved = some n then none else c.reserved
    pegs := pegs.foldl (fun m k => m.put k {}) c.pegs
    groups := (grps.zip i.groups).foldl (fun m e => m.put e.1 (entryOf e.2 b i.cls slots)) c.groups
    cores := c.freshCores slots
    warps := (slots.zipIdx).foldl (fun m e => m.put e.1 (warpOf l b e.2 (s.work.age + e.2) now crec)) c.warps
    spines := match ctx with
      | some k => c.spines.put k { blk := b, live := true, pc := i.base + BitVec.ofNat 64 i.spineEnt
                                   s := [(1, l.args), (2, crec)] }
      | none => c.spines })
  { s with work := { s.work with age := s.work.age + slots.length } }

/-- No cluster keeps a reservation for a launch. -/
def State.dropReserved (s : State) (n : Nat) : State :=
  { s with clusters := s.clusters.mapv (fun _ c => if c.reserved = some n then { c with reserved := none } else c) }

/-! ### Block retirement (R311 to R313) -/

/-- The bytes of a completion record (R312). -/
def recordBytes (max flags nonzero maxId blk lnum cluster parties ns : Nat) : List Byte :=
  leBytes 2 max ++ leBytes 2 flags ++ leBytes 4 nonzero ++ leBytes 8 maxId ++ leBytes 8 blk ++ leBytes 4 lnum
    ++ leBytes 2 cluster ++ leBytes 2 parties ++ leBytes 8 ns ++ List.replicate 24 0

/-- Count a retired block in its launch (R314). -/
def Launch.retireBlock (l : Launch) (blk max nonzero : Nat) (abort : Bool) : Launch :=
  let first := l.retired = 0
  let up := first || decide (l.maxSt < max)
  { l with retired := l.retired + 1, maxSt := if up then max else l.maxSt
           maxBlk := if up then blk else if max = l.maxSt then min blk l.maxBlk else l.maxBlk
           nzBlk := l.nzBlk + (if nonzero = 0 then 0 else 1), abort := l.abort || abort }

/-- A block's record is written, when its launch asks for one, and the block is counted. -/
def State.blockDone (s : State) (n blk max nonzero : Nat) (abort : Bool) (bytes : List Byte) : State :=
  let s := s.updLaunch n (fun l => l.retireBlock blk max nonzero abort)
  let crec := (s.launch n).crec
  if crec = 0 then s else s.launchWrite n (crec + BitVec.ofNat 64 (64 * blk)) bytes false

/-- Does a save under way concern a block (R307)? -/
def State.savingOf (s : State) (n blk : Nat) : Bool := s.eng.save.any (fun o => o.lnum = n && o.blks.contains blk)

/-- Is an access of a thread of a block not performed: an append that waits at the hub, or a request to another package
(R286, R313, R317)? -/
def State.blockLate (s : State) (n blk : Nat) : Bool :=
  let mine := fun (t : Thread) => t.kind ≠ 1 && decide (t.kind ≤ 4) && t.a = n && t.b = blk
  s.work.queues.any (fun e => e.2.waiting.any (fun w => w.party.any mine)) || s.out.tlain.any (fun q => q.who.any mine)

/-- Have all parties and engine commands of a block left, their accesses performed (R313)? -/
def State.blockOver (s : State) (g b : Nat) : Bool :=
  let c := s.cl g
  !s.blockLate (s.block g b).lnum (s.block g b).blk && (s.blockWarps g b).isEmpty && (s.blockSpine g b).isNone
    && !c.copyQ.any (fun q => q.blk = b) && !c.matQ.any (fun q => q.blk = b)
    && !s.eng.colls.any (fun e => e.2.blk = some ((s.block g b).lnum, (s.block g b).blk))
    && (c.mseq.st = .idle || c.mseq.blk ≠ b) && (c.cseq.st = .idle || c.cseq.blk ≠ b)

/-- Free what a block holds of its cluster (R70). -/
def State.freeBlock (s : State) (g b : Nat) : State :=
  let x := s.block g b
  let s := s.updCl g (fun c => { c with
    blocks := c.blocks.del b
    pegs := x.pegMap.foldl (fun m k => m.del k) c.pegs
    groups := x.groupMap.foldl (fun m k => m.del k) c.groups
    spines := match x.spineCtx with | some k => c.spines.del k | none => c.spines })
  s.fenceCluster g

/-- BLOCK_RETIRE: a block whose parties and commands have left writes its record and frees its resources (R312, R313). -/
def execBlockRetire (g slot : Nat) (s : State) : Out :=
  let x := s.block g slot
  if (s.cl g).blocks.has slot && !s.savingOf x.lnum x.blk && s.blockOver g slot then
    let flags := (if x.aborted then 1 else 0) + (if x.spineSt then 2 else 0)
    let bytes := recordBytes x.maxSt flags x.nonzero x.maxId x.blk x.lnum g x.parties s.ns
    .next ((s.freeBlock g slot).blockDone x.lnum x.blk x.maxSt x.nonzero x.aborted bytes)
  else .next s

/-- A block that no present cluster could hold retires without running (R71); what its record does not give is free. -/
def State.retireUnrun (s : State) (n blk : Nat) : State :=
  let id := (Config.openInfo s.ticks 0).toNat
  let cluster := (Config.openInfo s.ticks 1).toNat % 65536
  s.blockDone n blk 0xFE00 0 true (recordBytes 0xFE00 1 0 id blk n cluster 0 s.ns)

/-! ### Launch retirement (R314) -/

/-- The launch entry of a completion queue (R314). -/
def Launch.entry (l : Launch) (n ns : Nat) : CqEntry :=
  { kind := 1, payload := leBytes 4 n ++ leBytes 2 l.maxSt
      ++ leBytes 2 ((if l.abort then 1 else 0) + (if l.dropped then 2 else 0)) ++ leBytes 8 l.maxBlk ++ leBytes 8 l.blocks
      ++ leBytes 8 l.nzBlk ++ leBytes 8 l.img.base.toNat ++ leBytes 8 ns }

/-- The end of a launch: its entry, and it leaves its queue. -/
def State.launchEnd (s : State) (n : Nat) : State :=
  let l := s.launch n
  let s := if l.cq = 0xFFFF then s else s.cqPush l.cq (l.entry n s.ns)
  let s := { s with work := { s.work with launches := s.work.launches.del n } }
  s.updQueue l.queue (fun x => { x with launches := x.launches.filter (· ≠ n) })

/-- Retire a launch all of whose blocks have retired: DONE, then, once every write of it has been made or dropped, the
entry. -/
def State.retireLaunch (s : State) (n : Nat) : State :=
  if s.retPending n then s
  else
    let l := s.launch n
    let s := if l.doneSent then s
      else
        let s := s.updLaunch n (fun l => { l with doneSent := true })
        if l.done = 0 then s else s.launchWrite n l.done [] true
    if s.retPending n then s else s.launchEnd n

/-- LAUNCH_RETIRE (R314). -/
def execLaunchRetire (lnum : Nat) (s : State) : Out :=
  let l := s.launch lnum
  if s.work.launches.has lnum && l.admitted && l.retired = l.blocks then .next (s.retireLaunch lnum) else .next s

/-! ### Admission (R39) -/

/-- The launch whose next block is first in dispatch order. -/
def State.nextDispatch (s : State) : Option Nat :=
  (List.find? (fun (e : Nat × Launch) => e.2.admitted && decide (e.2.next < e.2.blocks)) s.work.launches).map (·.1)

/-- Place and dispatch the blocks of a class C launch, from one on: none when some block finds no room. -/
def State.reserveC (n : Nat) : Nat → State → Option State
  | 0, s => some s
  | k + 1, s =>
    let l := s.launch n
    let blk := l.blocks - (k + 1)
    let pref := (s.preferred l blk).getD []
    match (s.firstFit n pref).or (s.firstFit n s.clustersPresent) with
    | some g => State.reserveC n k (s.dispatch n blk g)
    | none => none

/-- Retire the last k blocks of a launch without running. -/
def State.unrunAll (s : State) (n k : Nat) : State :=
  (List.range k).foldl (fun s j => s.retireUnrun n ((s.launch n).blocks - k + j)) s

/-- A launch of class C: reserved and dispatched whole when its blocks have room at once, and no block of an older launch
waits (R39). -/
def State.admitC (s : State) (n : Nat) : State :=
  let l := s.launch n
  if s.packageHolds l.img < l.blocks then
    (s.updLaunch n (fun x => { x with admitted := true, next := l.blocks })).unrunAll n l.blocks
  else match (if s.nextDispatch.isNone then s.reserveC n l.blocks else none) with
    | some t => t.updLaunch n (fun x => { x with admitted := true, next := l.blocks })
    | none => s

/-- The launch that is next to be admitted: one of an empty grid, which completes at once, else the oldest (R18, R39). -/
def State.nextAdmit (s : State) : Option Nat :=
  let waits := s.work.launches.filter (fun (e : Nat × Launch) => !e.2.admitted)
  ((waits.find? (fun e => e.2.blocks = 0)).or waits.head?).map (·.1)

/-- LAUNCH_ADMISSION: the next launch that waits; a grid with a zero dimension retires at once (R18, R39, R314). -/
def execLaunchAdmission (s : State) : Out :=
  match s.nextAdmit with
  | none => .next s
  | some n =>
    let l := s.launch n
    if l.blocks = 0 then .next ((s.updLaunch n (fun x => { x with admitted := true })).retireLaunch n)
    else if l.img.cls = 0 then .next (s.admitC n)
    else .next (s.updLaunch n (fun x => { x with admitted := true }))

/-! ### Dispatch of blocks (R39, R71) -/

/-- The next block of a launch goes to a cluster. -/
def State.dispatchNext (s : State) (n g : Nat) : State :=
  let s := s.dispatch n (s.launch n).next g
  (s.dropReserved n).updLaunch n (fun l => { l with next := l.next + 1, affSince := none, affExpired := false })

/-- A launch's reservation of a cluster that is fenced since goes. -/
def State.dropFenced (s : State) (n : Nat) : State :=
  { s with clusters := s.clusters.mapv (fun g c =>
      if c.reserved = some n && (!s.clPresent g || s.fencing 1 g) then { c with reserved := none } else c) }

/-- The next block of a launch has no room: it keeps the reservation that it has; it is retired without running when no
present cluster could hold it; else the lowest cluster that only waves keep from it is reserved (R71). -/
def State.noRoom (s : State) (n : Nat) : State :=
  let l := s.launch n
  let s := s.dropFenced n
  if s.clusters.any (fun e => e.2.reserved = some n) then s
  else if s.clustersPresent.all (fun g => s.clusterHolds g l.img = 0) then
    (s.retireUnrun n l.next).updLaunch n (fun l => { l with next := l.next + 1, affSince := none, affExpired := false })
  else match s.clustersPresent.find? (fun g => s.fits g n false && (s.cl g).reserved.isNone) with
    | some g => s.updCl g (fun c => { c with reserved := some n })
    | none => s

/-- The dispatch of the next block of a launch. Once CTL_AFFWAIT has expired a later try still takes a preferred cluster before the
lowest-numbered one on which the block fits (log 79). -/
def State.tryDispatch (s : State) (n : Nat) : State :=
  let l := s.launch n
  let pref := s.preferred l l.next
  match s.firstFit n (pref.getD []) with
  | some g => s.dispatchNext n g
  | none =>
    if pref.isSome && !l.affExpired then
      s.updLaunch n (fun l => { l with affSince := some (l.affSince.getD (s.cycles s.lowestDie)) })
    else match s.firstFit n s.clustersPresent with
      | some g => s.dispatchNext n g
      | none => s.noRoom n

/-- BLOCK_DISPATCH: the next block of the oldest launch that has one (R39, R40). -/
def execBlockDispatch (lnum : Nat) (s : State) : Out :=
  if s.nextDispatch = some lnum then .next (s.tryDispatch lnum) else .next s

/-- AFFINITY_WAIT_EXPIRY: a block has waited CTL_AFFWAIT cycles for a preferred cluster (R39). -/
def execAffinityWaitExpiry (lnum : Nat) (s : State) : Out :=
  match (s.launch lnum).affSince with
  | some t =>
    if t + s.pkgReg 0x113 ≤ s.cycles s.lowestDie then .next (s.updLaunch lnum (fun l => { l with affExpired := true }))
    else .next s
  | none => .next s

end Sys2Proof.Machine
end

