-- ==== Sys2Proof/Machine/Logic.lean ====
section
/-! DEFINITION. Logic, shifts, bit fields and byte arrangement (R152 to R157, R163, R164). -/

namespace Sys2Proof.Machine

/-- BOOL3 of three values: bit i of the result is the table bit that the inputs' bits select (R152). -/
def bool3Val (table : BitVec 8) (a b c : W64) : W64 :=
  let n := fun (x : W64) (i : Nat) => if x.getLsbD i then 1 else 0
  (List.range 64).foldl (fun (r : W64) i => r ||| (if table.getLsbD (4 * n a i + 2 * n b i + n c i) then 1#64 <<< i else 0)) 0

/-- The type of a BOOL3: b32, or b64 with W. -/
def bool3Ty (o : Ops) : Nat := if o.m.getLsbD 0 then 2 else 0
def aluBool3 : Alu := perValue bool3Ty (fun s c o pv l =>
  let t := bool3Ty o
  (bool3Val (o.m.extractLsb' 1 8) (s.opA c o l (wideTy t)) (s.opB c o pv l t (wideTy t)) (s.opC c o pv l t (wideTy t)), 0))
/-- BOOL3 (R152). -/
def execBool3 (o : Ops) (s : State) : Out := .next (s.alu (.bool3 o) aluBool3)

/-- A value of the instruction's type and a 32-bit count in B (R153). -/
def countAlu (f : Ops → W64 → Nat → W64) : Alu :=
  perValue Ops.ty (fun s c o pv l => (f o (s.opA c o l (wideTy o.ty)) (s.opB c o pv l 0 false).toNat, 0))

/-- SHL of a value by a count (R153). -/
def shlVal (o : Ops) (a : W64) (n : Nat) : W64 :=
  let w := elemBits o.ty
  let n := if o.sub = 1 then n % w else n
  if w ≤ n then 0 else BitVec.ofNat 64 (a.toNat * 2 ^ n % 2 ^ w)
def aluShl : Alu := countAlu shlVal
/-- SHL (R153). -/
def execShl (o : Ops) (s : State) : Out := .next (s.alu (.shl o) aluShl)

/-- SHR of a value by a count (R153). -/
def shrVal (o : Ops) (a : W64) (n : Nat) : W64 :=
  let w := elemBits o.ty
  let n := if o.sub = 1 then n % w else n
  BitVec.ofNat 64 (wrapInt w (elemVal o.ty 0 a / (2 ^ min n w : Nat)))
def aluShr : Alu := countAlu shrVal
/-- SHR (R153). -/
def execShr (o : Ops) (s : State) : Out := .next (s.alu (.shr o) aluShr)

/-- SHF of the value B:A by a count (R154). -/
def shfVal (o : Ops) (a b : W64) (n : Nat) : W64 :=
  let w := elemBits o.ty
  let x := a.toNat + 2 ^ w * b.toNat
  let n := if o.sub / 2 = 1 then n % w else min n w
  BitVec.ofNat 64 (if o.sub % 2 = 0 then x * 2 ^ n / 2 ^ w % 2 ^ w else x / 2 ^ n % 2 ^ w)
def aluShf : Alu := perValue Ops.ty (fun s c o pv l =>
  let (a, b) := s.opAB c o pv l
  (shfVal o a b (s.opC c o pv l 0 false).toNat, 0))
/-- SHF (R154). -/
def execShf (o : Ops) (s : State) : Out := .next (s.alu (.shf o) aluShf)

/-- ROT of a value by a count (R155). -/
def rotVal (o : Ops) (a : W64) (n : Nat) : W64 :=
  let w := elemBits o.ty
  let n := if o.sub = 0 then n % w else (w - n % w) % w
  let x := a.toNat % 2 ^ w
  BitVec.ofNat 64 (x * 2 ^ n % 2 ^ w + x / 2 ^ (w - n))
def aluRot : Alu := countAlu rotVal
/-- ROT (R155). -/
def execRot (o : Ops) (s : State) : Out := .next (s.alu (.rot o) aluRot)

/-- POPC of a value (R156). -/
def popcVal (o : Ops) (a : W64) : W64 :=
  BitVec.ofNat 64 ((List.range (elemBits o.ty)).filter (fun i => a.getLsbD i)).length
def aluPopc : Alu := unAlu (fun _ => 0) popcVal
/-- POPC (R156). -/
def execPopc (o : Ops) (s : State) : Out := .next (s.alu (.popc o) aluPopc)

/-- CLZ of a value (R156). -/
def clzVal (o : Ops) (a : W64) : W64 :=
  let w := elemBits o.ty
  let x := a.toNat % 2 ^ w
  BitVec.ofNat 64 (if x = 0 then w else w - 1 - x.log2)
def aluClz : Alu := unAlu (fun _ => 0) clzVal
/-- CLZ (R156). -/
def execClz (o : Ops) (s : State) : Out := .next (s.alu (.clz o) aluClz)

/-- BREV of a value (R156). -/
def brevVal (o : Ops) (a : W64) : W64 :=
  let w := elemBits o.ty
  (List.range w).foldl (fun (r : W64) i => if a.getLsbD i then r ||| (1#64 <<< (w - 1 - i)) else r) 0
def aluBrev : Alu := unAlu Ops.ty brevVal
/-- BREV (R156). -/
def execBrev (o : Ops) (s : State) : Out := .next (s.alu (.brev o) aluBrev)

/-- BFE of a value by a control word (R157). -/
def bfeVal (o : Ops) (a : W64) (ctl : Nat) : W64 :=
  let pos := ctl % 256
  let len := bitsN ctl 8 8
  if len = 0 then 0
  else
    let f := ((elemVal o.ty 0 a / (2 ^ pos : Nat)) % (2 ^ len : Nat)).toNat
    BitVec.ofNat 64 (wrapInt (elemBits o.ty) (intOf len (isSigned o.ty) f))
def aluBfe : Alu := countAlu bfeVal
/-- BFE (R157). -/
def execBfe (o : Ops) (s : State) : Out := .next (s.alu (.bfe o) aluBfe)

/-- BFI of a field into a base (R157). -/
def bfiVal (o : Ops) (a b : W64) (ctl : Nat) : W64 :=
  let pos := ctl % 256
  let len := bitsN ctl 8 8
  (List.range (elemBits o.ty)).foldl (fun (r : W64) i =>
    let x := if pos ≤ i && i < pos + len then b.getLsbD (i - pos) else a.getLsbD i
    if x then r ||| (1#64 <<< i) else r) 0
def aluBfi : Alu := perValue Ops.ty (fun s c o pv l =>
  let (a, b) := s.opAB c o pv l
  (bfiVal o a b (s.opC c o pv l 0 false).toNat, 0))
/-- BFI (R157). -/
def execBfi (o : Ops) (s : State) : Out := .next (s.alu (.bfi o) aluBfi)

/-- BYSEL of eight bytes by a selector (R163). -/
def byselVal (a b c : W64) : W64 :=
  let y := a.toNat % 2 ^ 32 + 2 ^ 32 * (b.toNat % 2 ^ 32)
  BitVec.ofNat 64 (leNat ((List.range 4).map (fun k =>
    let v := bitsN y (8 * bitsN c.toNat (3 * k) 3) 8
    BitVec.ofNat 8 (if c.getLsbD (12 + k) then (if 128 ≤ v then 255 else 0) else v))))
def aluBysel : Alu := perValue Ops.ty (fun s c o pv l =>
  (byselVal (s.opA c o l false) (s.opB c o pv l 0 false) (s.opC c o pv l 0 false), 0))
/-- BYSEL (R163). -/
def execBysel (o : Ops) (s : State) : Out := .next (s.alu (.bysel o) aluBysel)

/-- TLUT of four indices in the bytes of 2, 4 or 8 registers (R164). -/
def aluTlut : Alu := perValue (fun _ => 0) (fun s c o pv l =>
  let n := 2 ^ (o.c.toNat + 1)
  let fill := (o.m.extractLsb' 0 8).toNat
  let b := (s.opB c o pv l 0 false).toNat
  let t := fun i => bitsN (s.regOf c (fileA c o) (o.a.toNat + i / 4) l false).toNat (8 * (i % 4)) 8
  (BitVec.ofNat 64 (leNat ((List.range 4).map (fun k =>
    let i := bitsN b (8 * k) 8
    BitVec.ofNat 8 (if i < 4 * n then t i else fill)))), 0))
/-- TLUT (R164). -/
def execTlut (o : Ops) (s : State) : Out := .next (s.alu (.tlut o) aluTlut)

end Sys2Proof.Machine
end

