-- ==== Sys2Proof/Machine/Outside.lean ====
section
/-! DEFINITION. What reaches memory from outside the clusters: the accesses of application cores and attached PCIe functions,
other packages, and the links (R287, R288, R347 to R352). -/

namespace Sys2Proof.Machine

/-! ### Accesses through the shared tables (R68, R287, R288) -/

/-- What is sent to an attached function or an application core. -/
def State.tell (s : State) (b : List Byte) : State := { s with out := { s.out with answers := b :: s.out.answers } }

/-- Whose access it is: an application core's, in whose name slot 8 is an agent, or an attached device's, in whose name slot 9 is
(R276). -/
inductive BusAgent where
  | core (h : Nat)
  | device
deriving DecidableEq, Repr

/-- The thread that waits for an access's answers from other packages. -/
def BusAgent.thread (who : BusAgent) : List Thread :=
  match who with
  | .core h => [{ kind := 7, a := h }]
  | .device => []

/-- A line as an agent reads it: an application core keeps a copy, a device reads at the home; so too a line whose home is another
package of the island (R287, R288). -/
def State.busLine (s : State) (who : BusAgent) (cls line : Nat) : State × Line × Bool :=
  match who with
  | .core _ =>
    if cls = 2 && s.isPeer line then
      let (s, x, p, _) := s.peerRead [] (s.agentId 8) line
      (s, x, p)
    else if !s.isLocal (line * 128) then s.askRead [] line
    else if cls = 3 then s.msRead line
    else s.agentRead (s.agentId 8) line
  | .device =>
    if !s.isLocal (line * 128) then s.askRead [] line
    else if cls = 3 then s.msRead line
    else s.homeRead line

/-- How an agent's addresses are translated: a page's physical address and class. -/
abbrev Xlator := State → W64 → Access → State × Got (Nat × Nat)

/-- The translation of an attached function's addresses in a space (R350). -/
def busXlate (asp : Nat) : Xlator := fun s va a => s.unitXlate asp va a none

/-- Read bytes for an agent: the bytes, and whether a line was poisoned. -/
def State.busRead : Nat → State → BusAgent → Xlator → Access → W64 → Nat → State × Got (List Byte × Bool)
  | 0, s, _, _, _, _, _ => (s, .ok ([], false))
  | f + 1, s, who, tr, acc, va, n =>
    if n = 0 then (s, .ok ([], false))
    else match tr s va acc with
      | (s, .fail v a r) => (s, .fail v a r)
      | (s, .ok (pa, cls)) =>
        let k := min n (128 - pa % 128)
        let (s, b, p) :=
          if isIo pa && s.isLocal pa then (s, leBytes k (s.ioRead (paOff pa) k), false)
          else
            let (s, x, p) := s.busLine who cls (pa / 128)
            (s, lineBytes x (pa % 128) k, p)
        match State.busRead f s who tr acc (va + BitVec.ofNat 64 k) (n - k) with
        | (s, .ok (c, q)) => (s, .ok (b ++ c, p || q))
        | r => r

/-- Lines that the I/O agent's merge buffer holds (R288). -/
def State.mergeKeys (s : State) : List Nat := s.mem.cache.keys.filter (fun k => k / 2 ^ 45 = s.agentId 9)

/-- The merge buffer of 512 lines has room for one more: it returns a line of its choice by WbD when it is full (R288). -/
def State.mergeRoom (s : State) (line : Nat) : State :=
  let ks := s.mergeKeys
  if ks.length < 512 || ks.contains (agKey (s.agentId 9) line) then s
  else
    let k := ks.getD ((Config.openInfo s.ticks line).toNat % ks.length) 0
    (s.evictAgent (s.agentId 9) (k % 2 ^ 45)).settle (k % 2 ^ 45)

/-- Bytes of one line as an agent writes them (R287, R288). -/
def State.busPut (s : State) (who : BusAgent) (cls pa : Nat) (b : List Byte) : State :=
  let line := pa / 128
  let m := byteMask (pa % 128) b.length
  let x := setLineBytes 0 (pa % 128) b
  let whole : Bool := b.length = 128
  if cls = 2 && s.isPeer line then
    match who with
    | .core _ => s.peerPut who.thread (s.agentId 8) line m x
    | .device => if whole then s.askWrite [] line else (s.mergeRoom line).peerPut [] (s.agentId 9) line m x
  else if !s.isLocal pa then s.askWrite who.thread line
  else if isIo pa then s.ioWrite (paOff pa) b.length (leNat b) who.thread.head?
  else if cls = 3 then s.homeWrite line m x true
  else match who with
    | .core _ => s.agentStore (s.agentId 8) line m x
    | .device => if whole then s.homeWrite line m x false else (s.mergeRoom line).agentStore (s.agentId 9) line m x

/-- Write bytes for an agent, line by line; nothing is written when a page fails. -/
def State.busParts : Nat → State → BusAgent → Xlator → W64 → List Byte → State
  | 0, s, _, _, _, _ => s
  | _, s, _, _, _, [] => s
  | f + 1, s, who, tr, va, b =>
    match tr s va .write with
    | (s, .ok (pa, cls)) =>
      let k := min b.length (128 - pa % 128)
      State.busParts f (s.busPut who cls pa (b.take k)) who tr (va + BitVec.ofNat 64 k) (b.drop k)
    | (s, _) => s

/-- Translate every page of a range for an agent, before any of it is accessed. -/
def State.busPages : Nat → State → Xlator → W64 → Nat → State × Got PUnit
  | 0, s, _, _, _ => (s, .ok .unit)
  | f + 1, s, tr, va, n =>
    if n = 0 then (s, .ok .unit)
    else match tr s va .write with
      | (s, .fail v a r) => (s, .fail v a r)
      | (s, .ok _) =>
        let k := min n (32768 - va.toNat % 32768)
        State.busPages f s tr (va + BitVec.ofNat 64 k) (n - k)

/-- Write bytes for an agent once every page has translated. -/
def State.busWrite (s : State) (who : BusAgent) (tr : Xlator) (va : W64) (b : List Byte) : State × Got PUnit :=
  match State.busPages (b.length / 32768 + 3) s tr va b.length with
  | (s, .ok _) => (State.busParts (b.length / 128 + 3) s who tr va b, .ok .unit)
  | r => r

/-- The merge buffer returns its lines by WbD when a device's write sequence ends; each DMA_WRITE is one (R288, log 39). -/
def State.mergeEnd (s : State) : State :=
  s.mergeKeys.foldl (fun s k => (s.evictAgent (s.agentId 9) (k % 2 ^ 45)).settle (k % 2 ^ 45)) s

/-! ### Attached functions (R288, R350) -/

/-- A function's request ends with Unsupported Request. -/
def State.unsupported (s : State) : State := s.tell [3]

/-- The binding entry of a function: its ASPACE, ATS and PRI bits (R350). -/
def State.binding (s : State) (port rid : Nat) : State × Option (Nat × Bool × Bool) :=
  let (s, b) := s.physRead (s.pkgReg 0x131 + 0x40000 * port + 4 * rid) 4
  let e := leNat b
  (s, if bitsN e 16 1 = 1 && bitsN e 19 13 = 0 then some (bitsN e 0 16, bitsN e 17 1 = 1, bitsN e 18 1 = 1) else none)

/-- Is a root port present (R346)? -/
def State.portPresent (s : State) (port : Nat) : Bool := decide (port < 8) && (s.ctlOf 0 0x12B).getLsbD (20 + port)

/-- A request of a function through its binding entry. -/
def State.fromFunction (s : State) (port rid : Nat) (f : State → Nat → Bool → Bool → State) : Out :=
  if s.portPresent port && decide (rid < 65536) then
    match s.binding port rid with
    | (s, none) => .next s.unsupported
    | (s, some (asp, ats, pri)) => .next (f s asp ats pri)
  else .next s

/-- DMA_READ (R288, R350). -/
def execDmaRead (port rid : Nat) (addr : W64) (n : Nat) (s : State) : Out :=
  s.fromFunction port rid (fun s asp _ _ =>
    match State.busRead (n / 128 + 3) s .device (busXlate asp) .read addr n with
    | (t, .ok (b, p)) => t.tell (2 :: (if p then 1 else 0) :: b)
    | (t, .fail _ _ r) => if r = 6 then s else t.unsupported)

/-- DMA_WRITE (R288, R350). -/
def execDmaWrite (port rid : Nat) (addr : W64) (bytes : List Byte) (s : State) : Out :=
  s.fromFunction port rid (fun s asp _ _ =>
    match s.busWrite .device (busXlate asp) addr bytes with
    | (t, .ok _) => t.mergeEnd
    | (t, .fail _ _ r) => if r = 6 then s else t.unsupported)

/-- The walk of a request for a function, with address bits [63:51] checked (R48). -/
def State.functionWalk (s : State) (asp : Nat) (addr : W64) (write : Bool) : State × WalkRes :=
  if 2 ^ 51 ≤ addr.toNat then (s, .fail 4) else s.walkNow asp addr (if write then .write else .read) none

/-- ATS_TRANSLATION_REQUEST: the translation, held by the function, or no permission (R350, R361). -/
def execAtsTranslationRequest (port rid : Nat) (addr : W64) (write : Bool) (s : State) : Out :=
  s.fromFunction port rid (fun s asp ats _ =>
    if !ats then s.unsupported
    else match s.functionWalk asp addr write with
      | (s, .ok t) =>
        let s := { s with xl := { s.xl with ats := s.xl.ats ++ [(port * 65536 + rid, t)] } }
        s.tell (4 :: (if t.r then 1 else 0) :: (if t.w && write then 1 else 0) :: leBytes 8 (t.addr addr))
      | (s, .fail _) => s.tell (4 :: 0 :: 0 :: leBytes 8 0)
      | _ => s)

/-- PAGE_REQUEST: a touch from the I/O agent; Invalid Request when the walk fails (R350). -/
def execPageRequest (port rid : Nat) (addr : W64) (write : Bool) (s : State) : Out :=
  s.fromFunction port rid (fun s asp _ pri =>
    if !pri then s.unsupported
    else match s.functionWalk asp addr write with
      | (s, .ok _) => s.tell [5, 0]
      | (s, .fail _) => s.tell [5, 1]
      | _ => s)

/-! ### Links (R349, R351, R352) -/

/-- Has a request to another package waited for CTL_TLTIMEOUT nanoseconds (R352)? -/
def State.tlainLate (s : State) (q : TlReq) : Bool := decide (q.since + s.pkgReg 0x13A ≤ s.ns)

/-- TLAIN_TIMEOUT: a request to another package has had no reply in time (R352). -/
def execTlainTimeout (i : Nat) (s : State) : Out :=
  match s.out.tlain[i]? with
  | some q =>
    if s.tlainLate q then
      .next ((State.tlainDrop { s with out := { s.out with tlain := s.out.tlain.eraseIdx i } }).fencePort q.port)
    else .next s
  | none => .next s

/-- The links of a root port: one, or two or four of a bifurcated one (R349). -/
def State.splitOf (s : State) (port : Nat) : Nat := s.out.split.get port 1

/-- LINK_TRAINING: link k of root port p, named p + 8k, takes the width and speed that its partner supports, up to its share of
sixteen lanes and to 128 GT/s, at which flit mode is the only mode (R349, log 22). -/
def execLinkTraining (port width gts : Nat) (s : State) : Out :=
  let p := port % 8
  let k := port / 8
  if s.portPresent p && decide (k < s.splitOf p) then
    let speed := min gts 128
    let x : Link := { width := min width (16 / s.splitOf p), gts := speed, flit := speed = 128 || Config.flitMode s.ticks port }
    .next { s with out := { s.out with links := s.out.links.put (4 * p + k) x } }
  else .next s

/-- A root port is split into one, two or four links, which train again (R349). -/
def State.bifurcate (s : State) (port n : Nat) : State :=
  if s.portPresent port && (n = 1 || n = 2 || n = 4) then
    { s with out := { s.out with split := s.out.split.put port n
                                 links := s.out.links.filter (fun e => e.1 / 4 ≠ port) } }
  else s

/-- Link IDE of a root port starts or ends (R349). -/
def State.setLinkIde (s : State) (port : Nat) (on : Bool) : State :=
  if s.portPresent port then
    let rest := s.out.linkIde.filter (· ≠ port)
    { s with out := { s.out with linkIde := if on then port :: rest else rest } }
  else s

/-- One of the eight selective IDE streams of a root port starts or ends (R349). -/
def State.setIdeStream (s : State) (port k : Nat) (on : Bool) : State :=
  if s.portPresent port && decide (k < 8) then
    let rest := s.out.streams.filter (· ≠ 8 * port + k)
    { s with out := { s.out with streams := if on then (8 * port + k) :: rest else rest } }
  else s

/-- FLIT_REPLAY: a flit whose CRC fails is sent again, and nothing else changes (R351). -/
def execFlitReplay (port : Nat) (s : State) : Out :=
  if decide (port < 8) && (s.ctlOf 0 0x12B).getLsbD (28 + port) then
    .next { s with out := { s.out with replays := s.out.replays.put port (s.out.replays.get port 0 + 1) } }
  else .next s

end Sys2Proof.Machine
end

