-- ==== Sys2Proof/Machine/Pegs.lean ====
section
/-! DEFINITION. PEGW, PEGR, PEGCTL and REDW (R268 to R274). -/

namespace Sys2Proof.Machine

/-- The 64 bits that a value of a type fills a peg with (R270). -/
def pegFill (ty : Nat) (x : W64) : W64 :=
  if wideTy ty then x else if ty = 1 then (lo32 x).signExtend 64 else (lo32 x).setWidth 64

/-- A peg fills with a new generation. -/
def Peg.fill (p : Peg) (x : W64) (n : Nat) : Peg :=
  { p with full := true, val := x, cnt := n, gen := p.gen + 1, seen := 0, seenSpine := 0 }

/-! ### Broadcast (R270) -/

/-- PEGW once for the group. -/
def pegwBody (s : State) (c : Issuer) (o : Ops) (ls : List Nat) : Eff :=
  let p := s.pegPhys c o.d.toNat
  let x := s.peg c.g p
  if x.gather then accessNone ls
  else if x.full then .go (s.blockOn c ls 5 (.pegEmpty p) o.form.bytes o.sw false) ls
  else
    let v := pegFill o.ty (s.opB c o [] (ls.headD 0) o.ty (wideTy o.ty))
    .go ((s.setEffects c ls).updPeg c.g p (fun y => y.fill v o.c.toNat)) []

/-- PEGW (R270). -/
def execPegw (o : Ops) (s : State) : Out := .next (s.issue (.pegw o) (fun s c o _ ls => pegwBody s c o ls))

/-! ### Gathers (R271, R272) -/

/-- The fields of a control word. -/
def armN (x : W32) : Nat := bitsN x.toNat 0 5
def armOp (x : W32) : Nat := bitsN x.toNat 5 3
def armTy (x : W32) : Nat := bitsN x.toNat 8 4
def armCnt (x : W32) : Nat := bitsN x.toNat 12 6

/-- Does a control word lie within R271? -/
def armOk (x : W32) : Bool :=
  decide (1 ≤ armN x) && decide (armN x ≤ 16) && decide (armOp x ≤ 2) && decide (armTy x ≤ 4) && decide (1 ≤ armCnt x)
    && decide (x.toNat < 2 ^ 18)

/-- One step of a reduction: ADD, MIN or MAX of a type (R138, R271, R273). -/
def redStep (op ty : Nat) (x y : W64 × Flags) : W64 × Flags :=
  if ty = 4 then
    let (r, f) := if op = 0 then f32Add (lo32 x.1) (lo32 y.1) else f32Pick (op = 2) (lo32 x.1) (lo32 y.1)
    (r.setWidth 64, x.2 ||| y.2 ||| f)
  else
    let w := if wideTy ty then 64 else 32
    let a := x.1.toNat % 2 ^ w
    let b := y.1.toNat % 2 ^ w
    (BitVec.ofNat 64 (if op = 0 then (a + b) % 2 ^ w else pickInt w (ty % 2 = 1) (op = 2) a b), 0)

/-- The combination of a round, in ascending slot order (R138). -/
def gatherFold (ctl : W32) (xs : List W64) : W64 × Flags :=
  match xs with
  | [] => (0, 0)
  | x :: r => r.foldl (fun a y => redStep (armOp ctl) (armTy ctl) a (y, 0)) (x, 0)

/-- A contribution that is accepted; the last of its round fills the peg (R272). -/
def State.contribute (s : State) (c : Issuer) (p slot : Nat) (v : W64) : State :=
  let x := s.peg c.g p
  let cs := x.contrib.put slot v
  if cs.length < armN x.armed then s.updPeg c.g p (fun y => { y with contrib := cs })
  else
    let (r, f) := gatherFold x.armed cs.vals
    (s.updPeg c.g p (fun y => { (y.fill (pegFill (armTy x.armed) r) (armCnt x.armed)) with contrib := [] })).orFlags c f

/-- A contribution of a value in a slot of a peg: its checks, its wait, and its entry (R272). -/
def contribBody (s : State) (c : Issuer) (o : Ops) (ls : List Nat) (slot : Nat) (v : W64) (fl : Flags) : Eff :=
  let p := s.pegPhys c o.d.toNat
  let x := s.peg c.g p
  if !x.gather || decide (armN x.armed ≤ slot) || armTy x.armed ≠ o.ty then accessNone ls
  else if x.full then .go (s.blockOn c ls 5 (.pegEmpty p) o.form.bytes o.sw false) ls
  else if x.contrib.has slot then accessNone ls
  else .go ((s.orFlags c fl).contribute c p slot v) []

/-- PEGW.G once for the group. -/
def pegwGBody (s : State) (c : Issuer) (o : Ops) (ls : List Nat) : Eff :=
  contribBody (s.setEffects c ls) c o ls o.c.toNat (s.opB c o [] (ls.headD 0) o.ty (wideTy o.ty)) 0

/-- PEGW.G (R270, R272). -/
def execPegwG (o : Ops) (s : State) : Out := .next (s.issue (.pegwG o) (fun s c o _ ls => pegwGBody s c o ls))

/-! ### PEGR (R274) -/

/-- PEGR: the spine's counted read. -/
def pegrBody (s : State) (c : Issuer) (o : Ops) (ls : List Nat) : Eff :=
  let p := s.pegPhys c o.b.toNat
  if (s.peg c.g p).full then
    .go ((s.updPeg c.g p (fun y => y.read c)).setS c.g c.slot o.d.toNat (s.peg c.g p).val) []
  else .go (s.blockOn c ls 4 (.pegFull p) o.form.bytes o.sw false) ls

/-- PEGR (R268, R274). -/
def execPegr (o : Ops) (s : State) : Out := .next (s.issue (.pegr o) (fun s c o _ ls => pegrBody s c o ls))

/-! ### PEGCTL (R271) -/

/-- Armed pegs of a cluster. -/
def Cluster.armedPegs (k : Cluster) : Nat := (k.pegs.filter (fun e => e.2.gather)).length

/-- PEGCTL.ARM once for the group. -/
def pegArmBody (s : State) (c : Issuer) (o : Ops) (ls : List Nat) : Eff :=
  let p := s.pegPhys c o.d.toNat
  let ctl := lo32 (s.unsB c o (ls.headD 0) false)
  if !armOk ctl || (!(s.peg c.g p).gather && decide (32 ≤ (s.cl c.g).armedPegs)) then accessNone ls
  else .go (s.updPeg c.g p (fun y => { y.clear with gather := true, armed := ctl, contrib := [] })) []

/-- PEGCTL.ARM (R271). -/
def execPegctlArm (o : Ops) (s : State) : Out := .next (s.issue (.pegctlArm o) (fun s c o _ ls => pegArmBody s c o ls))

/-- PEGCTL.CLEAR (R271). -/
def execPegctlClear (o : Ops) (s : State) : Out :=
  .next (s.issue (.pegctlClear o) (fun s c o _ _ =>
    .go (s.updPeg c.g (s.pegPhys c o.d.toNat) (fun y => { y.clear with contrib := [] })) []))

/-- PEGCTL.DISARM (R271). -/
def execPegctlDisarm (o : Ops) (s : State) : Out :=
  .next (s.issue (.pegctlDisarm o) (fun s c o _ _ =>
    .go (s.updPeg c.g (s.pegPhys c o.d.toNat) (fun y => { y.clear with gather := false, armed := 0, contrib := [] })) []))

/-! ### REDW (R273) -/

/-- The identity of a reduction (R273). -/
def redIdentity (op ty : Nat) : W64 :=
  match op, ty with
  | 0, _ => 0
  | 1, 4 => 0x7F800000
  | 1, 1 => 0x7FFFFFFF
  | 1, _ => 0xFFFFFFFF
  | _, 4 => 0xFF800000
  | _, 1 => 0x80000000
  | _, _ => 0

/-- One level of the tree: adjacent values are combined. -/
def pairUp {α : Type} (f : α → α → α) : List α → List α
  | x :: y :: r => f x y :: pairUp f r
  | r => r

/-- The tree over 32 lanes (R138). -/
def redTree (op ty : Nat) (xs : List W64) : W64 × Flags :=
  let f := pairUp (redStep op ty)
  (f (f (f (f (f (xs.map (fun x => (x, (0 : Flags)))))))) ).headD (0, 0)

/-- The reduction of A over the group. -/
def State.redwVal (s : State) (c : Issuer) (o : Ops) (ls : List Nat) : W64 × Flags :=
  redTree o.sub o.ty (lanes32.map (fun l => if ls.contains l then s.opA c o l false else redIdentity o.sub o.ty))

/-- REDW with a register result, or as a contribution to a peg. -/
def redwBody (s : State) (c : Issuer) (o : Ops) (ls : List Nat) : Eff :=
  let (v, fl) := s.redwVal c o ls
  if o.ds = 3 then
    let slot := if o.cs = 3 then o.c.toNat else (s.regOf c .w o.c.toNat 0 false).toNat
    if 15 < slot then accessNone ls else contribBody s c o ls slot v fl
  else .go ((s.writeAll c (ls.flatMap (fun l => resWrites (fileD c o) o.d.toNat l o.ty false v))).orFlags c fl) []

/-- REDW (R273). -/
def execRedw (o : Ops) (s : State) : Out := .next (s.issue (.redw o) (fun s c o _ ls => redwBody s c o ls))

end Sys2Proof.Machine
end

