-- ==== Sys2Proof/Machine/Pred.lean ====
section
/-! DEFINITION. Predicates, votes and special values: PLOP3, PMOV, VOTE, MATCH and MOVSP (R115 to R119). -/

namespace Sys2Proof.Machine

/-- PLOP3 of one place (R115). -/
def plop3One (s : State) (c : Issuer) (o : Ops) (_ : PegVals) (l : Nat) : List PWrite × Flags :=
  let b := fun (f : BitVec 8) => if s.pred c l (f.toNat % 16) then 1 else 0
  ([predWrite l (o.d.toNat % 16) (o.m.getLsbD (1 + 4 * b o.a + 2 * b o.b + b o.c))], 0)

/-- PLOP3 (R115). -/
def execPlop3 (o : Ops) (s : State) : Out := .next (s.alu (.plop3 o) (perLane plop3One))

/-- The predicates of a place as bits [15:0]. -/
def State.predBits (s : State) (c : Issuer) (l : Nat) : Nat :=
  (List.range 16).foldl (fun a k => a + (if s.pred c l k then 2 ^ k else 0)) 0

/-- PMOV.TOR (R116). -/
def execPmovTor (o : Ops) (s : State) : Out :=
  .next (s.alu (.pmovTor o) (perValue (fun _ => 0) (fun s c _ _ l => (BitVec.ofNat 64 (s.predBits c l), 0))))

/-- The mask of PMOV.FROMR in a place (R116). -/
def pmovMask (s : State) (c : Issuer) (o : Ops) (l : Nat) : Nat :=
  if o.bs = 3 then o.c.toNat * 256 + o.b.toNat else (s.opB c o [] l 0 false).toNat % 65536

/-- The predicates that PMOV.FROMR writes in a place. -/
def pmovSet (s : State) (c : Issuer) (o : Ops) (l : Nat) : List Nat :=
  (List.range 16).filter (fun k => (pmovMask s c o l).testBit k)

/-- PMOV.FROMR (R116). -/
def execPmovFromr (o : Ops) (s : State) : Out :=
  .next (s.issueW (.pmovFromr o)
    (fun c l => (List.range 16).map (fun k =>
      { file := .p, idx := k, n := if (pmovSet s c o l).contains k then 1 else 0, wr := true, rd := false }))
    (fun s c o _ ls =>
      .go (s.writeAll c (ls.flatMap (fun l =>
        (pmovSet s c o l).map (fun k => predWrite l k ((s.opA c o l false).getLsbD k))))) []))

/-- x(l) of a VOTE (R117). -/
def voteBit (s : State) (c : Issuer) (o : Ops) (l : Nat) : Bool := s.pred c l (o.a.toNat % 16) != o.a.getLsbD 4

/-- VOTE over the active lanes of the group (R117). -/
def voteAlu : Alu := fun s c o _ ls =>
  let x := voteBit s c o
  let b : Bool := match o.sub with
    | 0 => ls.all x
    | 1 => ls.any x
    | _ => ls.all x || !ls.any x
  let m := lanesMask (ls.filter x)
  (ls.flatMap (fun l =>
    if o.sub = 3 then resWrites .v o.d.toNat l 0 false (m.setWidth 64) else [predWrite l (o.d.toNat % 16) b]), [])

/-- VOTE (R117). -/
def execVote (o : Ops) (s : State) : Out := .next (s.alu (.vote o) voteAlu)

/-- MATCH over the active lanes of the group (R118). -/
def matchAlu : Alu := fun s c o _ ls =>
  let x := fun l => s.opA c o l (wideTy o.ty)
  let same := fun l => lanesMask (ls.filter (fun k => x k = x l))
  let all := lanesMask ls
  (ls.flatMap (fun l => resWrites .v o.d.toNat l 0 false
    ((if o.sub = 0 then same l else if same l = all then all else 0).setWidth 64)), [])

/-- MATCH (R118). -/
def execMatch (o : Ops) (s : State) : Out := .next (s.alu (.match_ o) matchAlu)

/-- The special values of R119. -/
def special (s : State) (c : Issuer) (o : Ops) (l idx : Nat) : Nat :=
  let b := s.blockOf c
  let wave := (s.waveOf c).isSome
  let t := (s.warp c.g c.slot).bw * 32 + l
  match idx with
  | 0 => l
  | 1 => l / 4
  | 2 => if wave then 0 else (s.warp c.g c.slot).bw
  | 3 => if wave then l else t % b.img.bx
  | 4 => if wave then 0 else t / b.img.bx % b.img.byy
  | 5 => if wave then 0 else t / (b.img.bx * b.img.byy)
  | 6 => if wave then 0 else b.blk % b.nx
  | 7 => if wave then 0 else b.blk / b.nx % b.ny
  | 8 => if wave then 0 else b.blk / (b.nx * b.ny)
  | 9 => if wave then 1 else b.nx
  | 10 => if wave then 1 else b.ny
  | 11 => if wave then 1 else b.nz
  | 12 => c.g
  | 13 => dieOf c.g
  | 14 => s.pkgId
  | 15 => s.cycles (dieOf c.g)
  | 16 => s.ns
  | 17 => (lanesMask (s.active c o)).toNat
  | _ => match s.waveOf c with | some w => w.cls | none => b.img.cls

/-- MOVSP of one place. -/
def movspOne (s : State) (c : Issuer) (o : Ops) (_ : PegVals) (l : Nat) : List PWrite × Flags :=
  let wide : Bool := o.b = 15 || o.b = 16
  (resWrites (fileD c o) o.d.toNat l 0 wide (BitVec.ofNat 64 (special s c o l o.b.toNat)), 0)

/-- MOVSP (R119). -/
def execMovsp (o : Ops) (s : State) : Out := .next (s.alu (.movsp o) (perLane movspOne))

end Sys2Proof.Machine
end

