-- ==== Sys2Proof/Machine/Trap.lean ====
section
/-! DEFINITION. TRAP, ERET, CTLR, CTLW and the reserved majors (R87, R296, R298 to R300). -/

namespace Sys2Proof.Machine

/-- A reserved major, or a pad word out of place: ILLEGAL_INSN for the whole group (R73, R87). -/
def execReservedMajor (w : W64) (s : State) : Out := .next (s.illegal s.cur 1 w)

/-- TRAP: SOFTWARE in its active places; ERET resumes after it (R296, R298). -/
def execTrap (o : Ops) (s : State) : Out :=
  .next (s.issue (.trap o) (fun s c o _ ls =>
    .go (s.takeCause c ls { code := 16, lanes := ls, info := o.b.setWidth 64 } c.pc (c.pc + 8) true) ls))

/-- The handler party's ERET acts on the sequencer of its frame: it runs on at NPC, or ends with KILL (R299). -/
def State.resumeSeq (s : State) (c : Issuer) (f : Frame) : State :=
  if f.acted then s
  else
    let copy : Bool := f.unit = 3
    let b := (s.blkOf c).getD 0
    let q := s.seqr c.g copy
    let s := s.updFrame c (fun x => { x with acted := true })
    if 2 ≤ f.unit && f.unit ≤ 3 && q.st = .fault && q.blk = b then
      if f.kill then (s.updSeqr c.g copy (fun q => { q with st := .done })).seqIdle c.g copy
      else s.updSeqr c.g copy (fun q => { q with st := .run, pc := f.npc })
    else s

/-- Lanes or a context leave trap mode for where the frame says (R299). -/
def State.leaveTrap (s : State) (c : Issuer) (ls : List Nat) : State :=
  let f := s.frameOf c
  let pc := if 2 ≤ f.unit then f.rpc else f.npc
  let s := s.resumeSeq c f
  let s := ls.foldl (fun (s : State) l =>
    let s := s.jump c l pc
    match c.unit with
    | .lane => s.updLane c.g c.slot l (fun x =>
        { x with trap := false, waitOnly := f.waitOnly && (f.waits = 0 || f.waits.getLsbD l) })
    | _ => s.updSpine c.g c.slot (fun x => { x with trap := false, waitOnly := f.waitOnly })) s
  let left := match c.unit with | .lane => f.left &&& ~~~lanesMask ls | _ => 0
  let s := s.updFrame c (fun x => { x with left := left, busy := left ≠ 0 })
  if left ≠ 0 then s
  else match c.unit with
    | .lane => s.updLanes c.g c.slot lanes32 (fun _ x => if x.hold = .frame then { x with hold := .free } else x)
    | _ => s

/-- ERET of the active places (R299). -/
def eretBody (s : State) (c : Issuer) (o : Ops) (ls : List Nat) : Eff :=
  match ls.filter (fun l => !s.inTrap c l) with
  | l :: r => illegalAt (.eret o) (l :: r)
  | [] =>
    let (s, pass) := s.atSwitch c ls
    match pass with
    | [] => .go s ls
    | _ => .go (s.leaveTrap c pass) ls

/-- ERET (R299). -/
def execEret (o : Ops) (s : State) : Out := .next (s.issue (.eret o) (fun s c o _ ls => eretBody s c o ls))

/-- A bit as a number. -/
def bitN (b : Bool) : Nat := if b then 1 else 0

/-- The FLAGS byte of a frame (R296). -/
def Frame.flags (f : Frame) : Nat := bitN f.precise + 2 * bitN f.async + 4 * bitN f.waitOnly + 8 * bitN f.kill

/-- CTL_SFk (R296). -/
def Frame.word (f : Frame) (k : Nat) : W64 :=
  match k with
  | 0 => f.pc
  | 1 => f.npc
  | 2 => f.addr
  | 3 => f.info
  | 4 => pair64 f.issue f.cmask
  | 5 => BitVec.ofNat 64 (f.cause + 256 * f.unit + 65536 * f.flags)
  | 6 => f.rpc
  | _ => 0

/-- A frame with the writable fields of a word replaced (R296, R300). -/
def Frame.setWord (f : Frame) (k : Nat) (x : W64) : Frame :=
  match k with
  | 1 => { f with npc := x }
  | 5 => { f with waitOnly := x.getLsbD 18, kill := x.getLsbD 19 }
  | 6 => { f with rpc := x }
  | _ => f

/-- The value CTLR gives a place (R300, R305). -/
def State.ctlRead (s : State) (c : Issuer) (l n : Nat) : W64 :=
  if n = 0 then (s.fpflags c).setWidth 64
  else if n = 1 then (if s.wte c then 1 else 0)
  else if n < 16 then (if s.inTrap c l then (s.frameOf c).word (n - 8) else 0)
  else if n < 0x140 then s.ctlOf 0 n
  else if n < 0x200 then s.ctlOf (1 + dieOf c.g) n
  else s.ctlOf (16 + c.g) n

/-- CTLR (R300). -/
def execCtlr (o : Ops) (s : State) : Out :=
  .next (s.alu (.ctlr o) (perValue (fun _ => 2) (fun s c o _ l => (s.ctlRead c l (ctlNumber o), 0))))

/-- CTLW of a register (R300). -/
def State.ctlWrite (s : State) (c : Issuer) (n : Nat) (x : W64) : State :=
  if n = 0 then s.setFpflags c (x.setWidth 7)
  else if n = 1 then s.setWte c (x.getLsbD 0)
  else s.updFrame c (fun f => f.setWord (n - 8) x)

/-- CTLW: once for the group, with the value of the lowest active lane (R300). -/
def ctlwBody (s : State) (c : Issuer) (o : Ops) (ls : List Nat) : Eff :=
  let n := ctlNumber o
  let out := ls.filter (fun l => !s.inTrap c l)
  if !ctlWritable n then illegalAt (.ctlw o) ls
  else if 8 ≤ n && !out.isEmpty then illegalAt (.ctlw o) out
  else .go (s.ctlWrite c n (s.opA c o (ls.headD 0) true)) []

/-- CTLW (R300). -/
def execCtlw (o : Ops) (s : State) : Out := .next (s.issue (.ctlw o) (fun s c o _ ls => ctlwBody s c o ls))

end Sys2Proof.Machine
end

