-- ==== Sys2Proof/Machine/RingOps.lean ====
section
/-! DEFINITION. QPUSH and QPOP (R275). -/

namespace Sys2Proof.Machine

/-- The ring that an operation names. -/
def State.ringNum (s : State) (c : Issuer) (o : Ops) (ls : List Nat) : Nat := (s.unsB c o (ls.headD 0) false).toNat

/-- What a transition of the issuer's block comes to; no ring stands above 31 or in a wave. -/
def State.ringOf (s : State) (c : Issuer) (num : Nat) (op : RingOp) : RingRes :=
  match s.blkOf c with
  | some b => if num ≤ 31 then s.ringTry c.g b num op else .refused
  | none => .refused

/-- The state after a transition. -/
def State.ringPut (s : State) (c : Issuer) (num : Nat) (op : RingOp) : State :=
  match (s.blkOf c).bind (fun b => s.ringDo c.g b num op) with
  | some (t, _) => t
  | none => s

/-- A ring number as INFO of RING_FAULT. -/
def ringBad (ls : List Nat) (num : Nat) : Eff := .fail (ringFault ls num)

/-- The writes of a slot index, and of the predicate of a TRY form. -/
def ringWrites (c : Issuer) (o : Ops) (ls : List Nat) (x : W64) (pred : Option Bool) : List PWrite :=
  ls.flatMap (fun l => resWrites (fileD c o) o.d.toNat l 0 false x
    ++ (match pred with | some b => [predWrite l (o.c.toNat % 16) b] | none => []))

/-- A producer's transition sets the effects bits (R319). -/
def State.pushEffects (s : State) (c : Issuer) (op : RingOp) (ls : List Nat) : State :=
  if op = .reserve || op = .commit then s.setEffects c ls else s

/-- Give a slot index and predicate: TAKE's results are pending in lane code, RESERVE's visible at once (R97, R275). -/
def State.giveSlot (s : State) (c : Issuer) (o : Ops) (op : RingOp) (ls : List Nat) (ws : List PWrite) : State × List Nat :=
  if op = .take then s.giveLoad c o false ls ws none [] else (s.writeAll c ws, [])

/-- RESERVE or TAKE, blocking (R275). -/
def ringBlocking (op : RingOp) (s : State) (c : Issuer) (o : Ops) (ls : List Nat) : Eff :=
  let num := s.ringNum c o ls
  match s.ringOf c num op with
  | .refused => ringBad ls num
  | .waits code => s.ringWait c ls num code op o
  | .done _ slot =>
    let (t, keep) := ((s.ringPut c num op).pushEffects c op ls).giveSlot c o op ls
      (ringWrites c o ls (BitVec.ofNat 64 slot) none)
    .go t keep

/-- RESERVE or TAKE when the ring allows it (R275). -/
def ringTrying (op : RingOp) (s : State) (c : Issuer) (o : Ops) (ls : List Nat) : Eff :=
  let num := s.ringNum c o ls
  match s.ringOf c num op with
  | .refused => ringBad ls num
  | .waits _ =>
    let (t, keep) := s.giveSlot c o op ls (ringWrites c o ls 0xFFFFFFFF (some false))
    .go t keep
  | .done _ slot =>
    let (t, keep) := ((s.ringPut c num op).pushEffects c op ls).giveSlot c o op ls
      (ringWrites c o ls (BitVec.ofNat 64 slot) (some true))
    .go t keep

/-- COMMIT or RETURN (R275). -/
def ringGive (op : RingOp) (s : State) (c : Issuer) (o : Ops) (ls : List Nat) : Eff :=
  let num := s.ringNum c o ls
  match s.ringOf c num op with
  | .done _ _ => .go ((s.ringPut c num op).pushEffects c op ls) []
  | _ => ringBad ls num

/-- QPUSH.RSV (R275). -/
def execQpushRsv (o : Ops) (s : State) : Out :=
  .next (s.issue (.qpushRsv o) (fun s c o _ ls => ringBlocking .reserve s c o ls))
/-- QPUSH.CMT (R275). -/
def execQpushCmt (o : Ops) (s : State) : Out := .next (s.issue (.qpushCmt o) (fun s c o _ ls => ringGive .commit s c o ls))
/-- QPUSH.RSV.TRY (R275). -/
def execQpushRsvTry (o : Ops) (s : State) : Out :=
  .next (s.issue (.qpushRsvTry o) (fun s c o _ ls => ringTrying .reserve s c o ls))
/-- QPOP (R275). -/
def execQpop (o : Ops) (s : State) : Out := .next (s.issue (.qpop o) (fun s c o _ ls => ringBlocking .take s c o ls))
/-- QPOP.RET (R275). -/
def execQpopRet (o : Ops) (s : State) : Out := .next (s.issue (.qpopRet o) (fun s c o _ ls => ringGive .ret s c o ls))
/-- QPOP.TRY (R275). -/
def execQpopTry (o : Ops) (s : State) : Out := .next (s.issue (.qpopTry o) (fun s c o _ ls => ringTrying .take s c o ls))

end Sys2Proof.Machine
end

