-- ==== Sys2Proof/Machine/Vote.lean ====
section
/-! DEFINITION. Readiness, the vote, the boosts, the expiry of waits, and the delivery of causes (R93 to R101, R113, R293 to
R296, R301). -/

namespace Sys2Proof.Machine

/-! ### Readiness (R93) -/

/-- May a place try its waiting instruction again: is its object as it needs it? Of several RESERVEs or TAKEs that wait at a ring the
one that issues first has it (R219, log 79). -/
def State.waitOver (s : State) (c : Issuer) (l : Nat) (o : WaitObj) : Bool :=
  match o with
  | .pegFull p => (s.peg c.g p).full
  | .pegEmpty p => !(s.peg c.g p).full
  | .ring r => match s.ringOf c (r % 32) (if r < 32 then .reserve else .take) with
    | .waits _ => false
    | _ => true
  | .fork m => s.forkOk c [l] m
  | _ => false

/-- Is a place ready (R93)? The parties of a block that is being saved have stopped (R307). -/
def State.readyAt (s : State) (c : Issuer) (l : Nat) : Bool :=
  if (s.blockOf c).saving then false
  else match s.holdOf c l with
  | .free => true
  | .wait w => s.waitOver c l w.obj
  | _ => false

/-- A warp as an issuer. -/
def warpIssuer (g k : Nat) : Issuer := { unit := .lane, g := g, slot := k }

/-- The ready lanes of a warp. -/
def State.readyLanes (s : State) (g k : Nat) : List Nat :=
  let c := warpIssuer g k
  lanes32.filter (fun l => (s.lane g k l).live && s.readyAt c l)

/-! ### The vote (R94, R101) -/

/-- The boosted lane that has waited longest among some lanes (R101); of lanes that have waited equally long the lowest, a
choice of the model (log 76). -/
def State.boostedLane (s : State) (g k : Nat) (ls : List Nat) : Option Nat :=
  (ls.filter (fun l => (s.lane g k l).boost)).foldl (fun r l => match r with
    | some m => if (s.lane g k m).starve < (s.lane g k l).starve then some l else some m
    | none => some l) none

/-- The least PC of some lanes. -/
def State.minPc (s : State) (g k : Nat) (ls : List Nat) : W64 :=
  match ls with
  | [] => 0
  | l :: r => r.foldl (fun p m => if (s.lane g k m).pc.toNat < p.toNat then (s.lane g k m).pc else p) (s.lane g k l).pc

/-- The primary group of some ready lanes, and the rest. -/
def State.firstGroup (s : State) (g k : Nat) (rd : List Nat) : List Nat × List Nat :=
  let p := match s.boostedLane g k rd with
    | some l => (s.lane g k l).pc
    | none => s.minPc g k rd
  (rd.filter (fun l => (s.lane g k l).pc = p), rd.filter (fun l => (s.lane g k l).pc ≠ p))

/-- A group of a warp as an issuer. -/
def State.groupIssuer (s : State) (g k : Nat) (ls : List Nat) : Issuer :=
  { warpIssuer g k with group := lanesMask ls, pc := s.minPc g k ls }

/-- The class of an instruction for dual issue: 0 lane ALU, 1 to 4 a port, none for one that never dual-issues (R96). -/
def portClass (i : Instr) : Option Nat :=
  if (uses .lane i).any (fun u => u.file = .pg) then some 2
  else match i with
    | .trap _ | .eret _ | .ctlr _ | .ctlw _ => none
    | .ld _ | .st _ | .lds _ | .sts _ | .ldw _ | .ldmx _ | .stmx _ | .pref _ | .cmaintClean _ | .cmaintClinv _ | .msrowCopy _
    | .msrowZero _ | .msbank _ | .atom _ | .atoms _ | .red _ | .lr _ | .sc _ | .fence _ | .fencer _ | .spawn _ => some 1
    | .pegw _ | .pegwG _ | .pegctlArm _ | .pegctlClear _ | .pegctlDisarm _ | .redw _ | .barArrive _ | .barWait _ | .barSync _
    | .barDrop _ | .barRemote _ => some 2
    | .fork _ | .rdv _ | .tcopy _ | .accopAlloc _ | .accopZero _ | .accopFree _ | .accrd _ | .accwr _ | .qpushRsv _ | .qpushCmt _
    | .qpushRsvTry _ | .qpop _ | .qpopRet _ | .qpopTry _ | .coll _ | .seqwait _ | .seqwaitTry _ | .seqadd _ => some 3
    | .frcp _ | .frsq _ | .fex2 _ | .flg2 _ | .fsin _ | .fcos _ | .fdiv _ | .fsqrt _ | .idiv _ | .act _ | .actld _ | .actswap _
    | .rng _ | .sample _ => some 4
    | _ => some 0

/-- The class of what a group would issue; none when its page is not translated. -/
def State.groupClass (s : State) (c : Issuer) : Option Nat :=
  match s.fetch (s.skipPads padGranules c) with
  | some (.one i _) => portClass i
  | some _ => some 0
  | none => none

/-- May two groups issue in one cycle (R96)? -/
def State.dual (s : State) (c d : Issuer) : Bool :=
  match s.groupClass c, s.groupClass d with
  | some a, some b => a = 0 || b = 0
  | _, _ => false

/-- The groups that a warp's vote forms (R94). -/
def State.voteGroups (s : State) (g k : Nat) (rd : List Nat) : List Issuer :=
  let (g1, rest) := s.firstGroup g k rd
  let c := s.groupIssuer g k g1
  match rest with
  | [] => [c]
  | _ =>
    let d := s.groupIssuer g k (rest.filter (fun l => (s.lane g k l).pc = s.minPc g k rest))
    if s.dual c d then [c, d] else [c]

/-! ### Choosing the warp (R100) -/

/-- The rank of a warp in R100: step, then a number within the step. -/
def State.warpRank (s : State) (g k : Nat) (last : Option Nat) (rd : List Nat) : Nat × Nat :=
  let w := s.warp g k
  let c := warpIssuer g k
  let cls := s.classOf c
  if w.boost then (0, w.age)
  else if cls = 2 then (3, rd.foldl (fun m l => min m (s.laneId c l)) (2 ^ 57))
  else (1 + cls, if last = some k then 0 else w.age + 1)

/-- The warp that a core issues from: slot and ready lanes (R100). Of warps that R100 does not tell apart, such as class W
warps of equal lowest identifiers, it is the one in the lowest slot, a choice of the model (log 76). -/
def State.chooseWarp (s : State) (g core : Nat) : Option (Nat × List Nat) :=
  let last := ((s.cl g).cores.get core {}).last
  let ks := (List.range 16).map (fun j => 16 * core + j)
  let cand := (ks.map (fun k => (k, s.readyLanes g k))).filter (fun e => e.2 ≠ [])
  cand.foldl (fun r e => match r with
    | none => some e
    | some x =>
      let a := s.warpRank g e.1 last e.2
      let b := s.warpRank g x.1 last x.2
      if a.1 < b.1 || (a.1 = b.1 && decide (a.2 < b.2)) then some e else some x) none

/-! ### Causes that wait for a party (R293 to R296) -/

/-- The frame of a cause delivered to the handler party, which stands at an address. -/
def causeFrame (x : Cause) (open_ rpc : W64) : Frame :=
  { pc := if x.unit = 4 then 0 else x.pc, npc := if x.unit = 4 then open_ else x.pc, addr := x.addr, info := x.info
    cause := x.code, unit := x.unit, precise := !x.async, async := x.async, rpc := rpc }

/-- The lanes of a handler warp that take a cause: the group of its vote; or, when every live lane is in a blocking wait or
a REJOIN hold, those at the lowest PC. -/
def State.handlerLanes (s : State) (g k : Nat) : List Nat :=
  match s.readyLanes g k with
  | l :: r => (s.firstGroup g k (l :: r)).1
  | [] =>
    let live := maskLanes (s.warp g k).liveMask
    let waits := live.all (fun l => match (s.lane g k l).hold with | .wait _ | .rejoin _ _ => true | _ => false)
    if waits then live.filter (fun l => (s.lane g k l).pc = s.minPc g k live) else []

/-- A cause delivered to places of the handler party, which leaves the block's causes; it stays when no place can enter. -/
def State.deliverTo (s : State) (c : Issuer) (b : Nat) (ls : List Nat) (i : Nat) (x : Cause) : State :=
  let rpc := s.pcOf c (ls.headD 0)
  match (s.markWaits c (ls.filter (s.inSyncWait c))).entrySwitch c ls with
  | (t, []) => t
  | (t, l :: r) =>
    (t.updBlock c.g b (fun y => { y with causes := y.causes.eraseIdx i })).toHandler c (l :: r)
      (causeFrame x (Config.openInfo s.ticks 0) rpc)

/-- A POISON that waited for the frame of its warp is taken by its lanes, those that still run (R295). -/
def State.deliverPoison (s : State) (g b k i : Nat) (x : Cause) : State :=
  let c := warpIssuer g k
  let s := s.updBlock g b (fun y => { y with causes := y.causes.eraseIdx i })
  match (maskLanes x.lanes).filter (fun l => (s.lane g k l).live) with
  | [] => s
  | l :: r => s.takeCause { c with group := lanesMask (l :: r) } (l :: r)
      { code := 14, lanes := (l :: r).filter (fun l => x.cmask.getLsbD l), addr := x.addr } x.pc (s.pcOf c l) false

/-- Take cause i of a block, when it can be taken now (R293, R295). -/
def State.deliverOne (s : State) (g b i : Nat) (x : Cause) : Option State :=
  match x.slot with
  | some k => if (s.frameOf (warpIssuer g k)).busy then none else some (s.deliverPoison g b k i x)
  | none =>
    match s.handler g b with
    | none => some (s.abortBlock g b x.code none)
    | some c =>
      if (s.frameOf c).busy then none
      else match c.unit with
        | .lane =>
          match s.handlerLanes g c.slot with
          | [] => none
          | ls => some (s.deliverTo { c with group := lanesMask ls } b ls i x)
        | _ =>
          match (s.spine g c.slot).hold with
          | .walk | .fault => none
          | _ => some (s.deliverTo c b [0] i x)

/-- Deliver the oldest cause of a block that can be taken now: one whose frame is busy, or that no lane can take, holds up
no other (R293, R295). -/
def State.deliverCause (s : State) (g b : Nat) : Option State :=
  if (s.block g b).saving then none
  else ((s.block g b).causes.zipIdx).findSome? (fun e => s.deliverOne g b e.2 e.1)

/-- CAUSE_DELIVERY: a block's oldest waiting cause is taken (R293, R295). -/
def execCauseDelivery (g slot : Nat) (s : State) : Out := .next ((s.deliverCause g slot).getD s)

/-! ### ISSUE_VOTE -/

/-- A lane of a warp after its core has formed groups of the warp: lanes left out count toward their boost (R101). -/
def Lane.afterVote (x : Lane) (issued ready : Bool) : Lane :=
  if issued || !ready then { x with starve := 0, boost := false }
  else { x with starve := x.starve + 1 }

/-- A core has formed the groups of a warp. This counts as the warp's issue, also where the fetch of a group formed then misses
(R101, log 79). -/
def State.afterVote (s : State) (g core k : Nat) (rd issued : List Nat) : State :=
  let now := s.cycles (dieOf g)
  s.updCl g (fun c => { c with
    cores := c.cores.upd core {} (fun x => { x with last := some k })
    warps := c.warps.mapv (fun j w =>
      if j ≠ k then w
      else { w with lanes := w.lanes.mapv (fun l x => x.afterVote (issued.contains l) (rd.contains l))
                    since := now, boost := false }) })

/-- Warps of a core that are not runnable start their count anew (R101). -/
def State.restCount (s : State) (g core : Nat) : State :=
  let idle := ((List.range 16).map (fun j => 16 * core + j)).filter (fun k => (s.readyLanes g k).isEmpty)
  let now := s.cycles (dieOf g)
  s.updCl g (fun c => { c with warps := c.warps.mapv (fun j w => if idle.contains j then { w with since := now } else w) })

/-- A core picks a warp and forms its groups; a handler warp with a cause waiting takes it in place of issuing (R293). -/
def State.vote (s : State) (g core : Nat) : State :=
  let s := ((s.cl g).warps.filter (fun e => e.1 / 16 = core)).foldl (fun s e => s.unpark (warpIssuer g e.1)) s
  let s := s.restCount g core
  match s.chooseWarp g core with
  | none => s
  | some (k, rd) =>
    let taken := match (s.warp g k).blk with
      | some b => if s.handler g b = some (warpIssuer g k) then s.deliverCause g b else none
      | none => none
    match taken with
    | some t => t
    | none =>
      let cs := s.voteGroups g k rd
      let t := s.afterVote g core k rd (cs.flatMap Issuer.places)
      { t with ports := t.ports ++ cs }

/-- ISSUE_VOTE (R94, R100). -/
def execIssueVote (g core : Nat) (s : State) : Out := if core < 4 then .next (s.vote g core) else .next s

/-- WARP_BOOST (R101). -/
def execWarpBoost (g slot : Nat) (s : State) : Out :=
  if s.readyLanes g slot ≠ [] && (s.warp g slot).since + s.dieReg (dieOf g) 0x147 ≤ s.cycles (dieOf g) then
    .next (s.updWarp g slot (fun w => { w with boost := true }))
  else .next s

/-- LANE_BOOST (R101). -/
def execLaneBoost (g slot lane : Nat) (s : State) : Out :=
  if (s.readyLanes g slot).contains lane && s.dieReg (dieOf g) 0x147 ≤ (s.lane g slot lane).starve then
    .next (s.updLane g slot lane (fun x => { x with boost := true }))
  else .next s

/-! ### Expiries (R113, R301) -/

/-- The place that an event's slot number names: a warp slot, a spine context from 64, the matrix sequencer 68, the copy
sequencer 69. -/
def placeOf (g slot : Nat) : Issuer :=
  if slot < 64 then warpIssuer g slot
  else if slot < 68 then { unit := .spine, g := g, slot := slot - 64 }
  else { unit := if slot = 68 then .mseq else .cseq, g := g }

/-- YIELD_EXPIRY: 32 cycles have passed (R113). -/
def execYieldExpiry (g slot lane : Nat) (s : State) : Out :=
  match (s.lane g slot lane).hold with
  | .yield t => if t ≤ s.cycles (dieOf g) then .next (s.updLane g slot lane (fun x => { x with hold := .free })) else .next s
  | _ => .next s

/-- PAUSE_EXPIRY (R113). -/
def execPauseExpiry (g slot lane : Nat) (s : State) : Out :=
  let c := placeOf g slot
  match s.holdOf c lane with
  | .pause t sw =>
    if t ≤ s.cycles (dieOf g) then
      let s := s.setHold c lane .free
      .next (if sw && c.unit = .lane then s.switchPoint c [lane] else s)
    else .next s
  | _ => .next s

/-- The kind and start of a wait. -/
def Hold.timed (h : Hold) : Option (Nat × Nat) :=
  match h with
  | .wait w => some (w.kind, w.start)
  | .rejoin _ t => some (3, t)
  | _ => none

/-- The lanes that stop waiting together with a lane: those of its warp at its PC whose equal wait has lasted as long. -/
def State.timedOut (s : State) (c : Issuer) (l kind : Nat) : List Nat :=
  let limit := s.dieReg (dieOf c.g) 0x148
  let late := fun m => match (s.holdOf c m).timed with
    | some (k, t) => k = kind && decide (t + limit ≤ s.cycles (dieOf c.g))
    | none => false
  match c.unit with
  | .lane => lanes32.filter (fun m => (s.lane c.g c.slot m).live && s.pcOf c m = s.pcOf c l && late m)
  | _ => if late l then [l] else []

/-- The counter address of a place's wait. -/
def State.waitAddr (s : State) (c : Issuer) (l : Nat) : W64 :=
  match s.xl.waiters.find? (fun w => w.isFor c l) with
  | some w => w.va
  | none => 0

/-- Places abandon their waits and raise WAIT_TIMEOUT; those in the wait half of a BAR.SYNC are marked, and a sequencer's RDV takes back
its arrivals (R301). -/
def State.abandon (s : State) (c : Issuer) (ls : List Nat) (kind : Nat) : State :=
  let pc := s.pcOf c (ls.headD 0)
  let f : Fail := { code := 6, lanes := ls, addr := s.waitAddr c (ls.headD 0), info := BitVec.ofNat 64 kind }
  let s := s.markWaits c (ls.filter (s.inSyncWait c))
  let s := ls.foldl (fun (s : State) l => s.giveUp c l) s
  let s := if c.isSeq && kind = 7 then s.seqUnarrive c.g c.isCopy else s
  s.takeCause { c with group := lanesMask ls, pc := pc } ls f pc pc true

/-- WAIT_TIMEOUT: a wait has reached CTL_WAITLIMIT and WTE is 1 (R301, R302). -/
def execWaitTimeout (g slot lane : Nat) (s : State) : Out :=
  let c := placeOf g slot
  match (s.holdOf c lane).timed, (s.blockOf c).saving with
  | none, _ | _, true => .next s
  | some (kind, _), false =>
    match s.wte c, s.timedOut c lane kind with
    | true, l :: r => .next (if (l :: r).contains lane then s.abandon c (l :: r) kind else s)
    | _, _ => .next s

/-- Has a lane of a pending result a request to another package that is not answered yet (R352)? -/
def State.pendLate (s : State) (g slot i : Nat) : Bool :=
  match (s.warp g slot).pend[i]? with
  | some p => (maskLanes p.lanes).any (fun l =>
      s.out.tlain.any (fun q => !q.write && q.who.contains (s.threadOf (warpIssuer g slot) l)))
  | none => true

/-- PENDING_RESULT_READY: a pending result of a warp has arrived (R97, log 14). -/
def execPendingResultReady (g slot i : Nat) (s : State) : Out :=
  if !s.pendLate g slot i then
    .next ((s.updWarp g slot (fun w => { w with pend := (w.pend.zipIdx).map (fun e =>
      if e.2 = i then { e.1 with ready := true } else e.1) })).unpark (warpIssuer g slot))
  else .next s

end Sys2Proof.Machine
end

