-- ==== Sys2Proof/Machine/Preempt.lean ====
section
/-! DEFINITION. Pre-emption: SAVE and RESTORE, and what a save area holds (R303 to R310). -/

namespace Sys2Proof.Machine

/-! ### Commands (R303, R306) -/

/-- The fields of a command (R303). -/
structure PmCmd where
  flags : Nat
  aspace : Nat
  lnum : Nat
  blk : Nat
  area : W64
  stride : Nat
  ctr : Nat
  inc : Nat
  target : Nat
  zero : Bool
deriving DecidableEq, Repr, Inhabited

/-- The fields of a 64-byte entry. -/
def pmFields (c : BitVec 512) : PmCmd :=
  let n := fun lo w => bitsN c.toNat lo w
  { flags := n 8 8, aspace := n 16 16, lnum := n 32 32, blk := n 64 64, area := BitVec.ofNat 64 (n 128 64), stride := n 192 64
    ctr := n 256 64, inc := n 320 64, target := n 384 16, zero := n 400 112 = 0 }

/-- FLAGS LAUNCH. -/
def PmCmd.whole (x : PmCmd) : Bool := x.flags % 2 = 1
/-- The save area of a block. -/
def PmCmd.areaOf (x : PmCmd) (b : Nat) : W64 := if x.whole then x.area + BitVec.ofNat 64 (x.stride * b) else x.area

/-- The launch that a 32-bit number names: LNUM is modulo 2^32 (R304). -/
def State.lnumOf (s : State) (n : Nat) : Nat := (s.work.launches.keys.find? (fun k => k % 2 ^ 32 = n)).getD n

/-- Fields that no command may have. -/
def State.pmBad (s : State) (x : PmCmd) : Bool :=
  decide (1 < x.flags) || !x.zero || decide (2 ^ 63 ≤ x.inc) || x.area.toNat % 256 ≠ 0 || (x.whole && x.stride % 256 ≠ 0)
    || !s.ctrPa x.ctr

/-- The agent has carried out the command at the head of its ring. -/
def State.pmNext (s : State) : State :=
  { s with eng := { s.eng with pmHead := s.eng.pmHead + 1, restSince := none } }

/-- A command that ends without its effect: its counter advances with poison, when it can, and an MSI goes (R306, R310). -/
def State.pmFail (s : State) (x : PmCmd) : State :=
  let s := if s.ctrPa x.ctr then s.ctrAdvance x.ctr (x.inc % 2 ^ 63) true else s
  (s.sendMsi (s.ctlOf 0 0x11E)).pmNext

/-- REFUSED_PREEMPTION_COMMAND: an OP that R303 does not define (R306). -/
def execRefusedPreemptionCommand (c : BitVec 512) (s : State) : Out := .next (s.pmFail (pmFields c))

/-! ### The area (R308) -/

/-- A size rounded up to 256 bytes. -/
def up256 (n : Nat) : Nat := (n + 255) / 256 * 256

/-- The sizes of the sections of an area, in order. -/
def areaSizes (i : Image) : List Nat :=
  [256, up256 (32 * i.groups.length), up256 (192 * i.pegs), if i.spineEnt = 0 then 0 else 1024, 512, 16 * 320, 256,
   1024 * i.warpCount, i.warpCount * 32 * i.budget * 32, 65536 * i.spg, 65536 * i.accg]

/-- The offset of section k, and the size of the area. -/
def areaOff (i : Image) (k : Nat) : Nat := ((areaSizes i).take k).foldl (· + ·) 0
def areaSize (i : Image) : Nat := areaOff i 11

/-- The header (R308). -/
def headerBytes (b : Block) (g status : Nat) : List Byte :=
  let i := b.img
  leBytes 4 0x4C4E5341 ++ leBytes 2 1 ++ leBytes 2 status ++ leBytes 8 (areaSize i) ++ leBytes 8 i.base.toNat ++ leBytes 8 b.blk
    ++ leBytes 4 b.lnum ++ leBytes 1 i.cls ++ leBytes 1 i.warpCount ++ leBytes 2 i.pegs
    ++ leBytes 4 (i.regg + 256 * i.spg + 65536 * i.accg) ++ leBytes 2 i.groups.length ++ leBytes 2 g
    ++ leBytes 4 b.fpflags.toNat ++ leBytes 4 (if b.trapctl then 1 else 0) ++ List.replicate 200 0

/-- A group entry as its 24 bytes (R21). -/
def groupWords (e : GroupEntry) : List Byte :=
  leBytes 8 e.warps.toNat
    ++ leBytes 4 (bitN e.spine + 2 * bitN e.mseq + 4 * bitN e.cseq + 8 * e.pcode + 32 * bitN e.phase + 64 * bitN e.away
      + 128 * bitN e.valid + 256 * e.expect_)
    ++ leBytes 3 e.arrived ++ leBytes 3 e.drops ++ leBytes 6 e.blk

/-- The groups of a block that a warp is a member of, by block-relative index. -/
def State.warpGroups (s : State) (g k : Nat) (b : Block) : List Nat :=
  (List.range b.groupMap.length).filter (fun j => (s.group g (b.groupMap.getD j 0)).warps.getLsbD k)

/-- A warp's record (R308). -/
def State.warpBytes (s : State) (g k : Nat) (b : Block) : List Byte :=
  let w := s.warp g k
  let arr := (List.range 4).map (fun j => match (s.warpGroups g k b)[j]? with
    | some e => w.arr.get (b.groupMap.getD e 0) {}
    | none => {})
  let bits := fun (f : Arrive → Bool) => (arr.zipIdx).foldl (fun n e => n + (if f e.1 then 2 ^ e.2 else 0)) 0
  lanes32.flatMap (fun l => leBytes 8 (w.lane l).pc.toNat)
    ++ (List.range 64).flatMap (fun r => leBytes 4 (w.w.get r 0).toNat)
    ++ lanes32.flatMap (fun l => leBytes 2 (w.lane l).p.toNat)
    ++ leBytes 4 w.liveMask.toNat
    ++ leBytes 4 (lanesMask (lanes32.filter (fun l => (w.lane l).waitOnly))).toNat
    ++ (List.range 4).flatMap (fun j => leBytes 4 (w.jm.get j 0).toNat ++ leBytes 4 (w.jh.get j 0).toNat)
    ++ arr.flatMap (fun a => leBytes 4 a.mask.toNat)
    ++ leBytes 4 (bits (fun a => decide (a.round % 2 = 1)) + 16 * bits (·.counted))
    ++ leBytes 4 (lanesMask (lanes32.filter (fun l => (w.lane l).trap))).toNat
    ++ (List.range 8).flatMap (fun j => leBytes 8 (w.frame.word j).toNat)
    ++ List.replicate 320 0

/-- Are the pages of an area memory-side, with R and W (R306)? -/
def State.areaOk : Nat → State → Nat → W64 → Nat → State × Bool
  | 0, s, _, _, _ => (s, true)
  | f + 1, s, asp, va, n =>
    if n = 0 then (s, true)
    else match s.unitXlate asp va .atomic none with
      | (s, .ok (_, 3)) =>
        let k := min n (32768 - va.toNat % 32768)
        State.areaOk f s asp (va + BitVec.ofNat 64 k) (n - k)
      | (s, _) => (s, false)

/-- The check of a whole area. -/
def State.areaPages (s : State) (asp : Nat) (va : W64) (n : Nat) : State × Bool := State.areaOk (n / 32768 + 3) s asp va n

/-- Write a part of an area. -/
def State.areaPut (s : State) (asp : Nat) (va : W64) (off : Nat) (b : List Byte) : State :=
  (s.wrt asp (va + BitVec.ofNat 64 off) b none).1

/-- The address of the ARR word of group k in an area. -/
def arrAddr (va : W64) (k : Nat) : W64 := va + BitVec.ofNat 64 (256 + 32 * k + 24)

/-! ### SAVE (R307) -/

/-- Where the blocks of a save are resident: the one, or every one of the launch: block, cluster, block slot. -/
def State.saveBlocks (s : State) (x : PmCmd) : List (Nat × Nat × Nat) :=
  (s.clusters.flatMap (fun e => (e.2.blocks.filter (fun b => b.2.lnum = x.lnum && (x.whole || b.2.blk = x.blk))).map
    (fun b => (b.2.blk, e.1, b.1)))).foldl (fun r b => insertBy (fun p q => decide (p.1 ≤ q.1)) b r) []

/-- Are the areas of some blocks of a launch usable? -/
def State.areasOk (s : State) (x : PmCmd) (l : Launch) : List Nat → State × Bool
  | [] => (s, true)
  | b :: r =>
    match s.areaPages l.aspace (x.areaOf b) (areaSize l.img) with
    | (s, true) => State.areasOk s x l r
    | (s, false) => (s, false)

/-- A save begins: the area is marked as being written, and ARR words are zero (R307 step 1). The block's parties stop
later, each block at a turn of its own (step 2). -/
def State.saveBegin (s : State) (x : PmCmd) (l : Launch) (e : Nat × Nat × Nat) : State :=
  let va := x.areaOf e.1
  let s := s.areaPut l.aspace va 0 (headerBytes (s.block e.2.1 e.2.2) e.2.1 0)
  let s := (List.range l.img.groups.length).foldl (fun (s : State) k => s.areaPut l.aspace (arrAddr va k) 0 (leBytes 8 0)) s
  s.updLaunch x.lnum (fun l => { l with areas := l.areas.put e.1 va.toNat })

/-- SAVE (R303, R306, R307). -/
def execSave (c : BitVec 512) (s : State) : Out :=
  let x := { pmFields c with lnum := s.lnumOf (pmFields c).lnum }
  let l := s.launch x.lnum
  if s.pmBad x || x.aspace ≠ 0 || !s.work.launches.has x.lnum || !l.admitted || (x.whole ≠ decide (l.img.cls = 0)) then
    .next (s.pmFail x)
  else
    let es := s.saveBlocks x
    match es with
    | [] => .next (s.pmFail x)
    | _ =>
      match s.areasOk x l (es.map (·.1)) with
      | (s, false) => .next (s.pmFail x)
      | (s, true) =>
        let s := es.foldl (fun (s : State) e => s.saveBegin x l e) s
        let s := s.updLaunch x.lnum (fun l => { l with away := x.whole })
        let o : SaveOp := { lnum := x.lnum, blks := es.map (fun (e : Nat × Nat × Nat) => e.1), ctr := x.ctr, inc := x.inc }
        .next (State.pmNext { s with eng := { s.eng with save := some o } })

/-! ### What is saved -/

/-- Change the slots of a mask: bit `from_[j]` becomes bit `to_[j]`. -/
def moveSlots (from_ to_ : List Nat) (m : BitVec 64) : BitVec 64 :=
  (from_.zip to_).foldl (fun x e => if m.getLsbD e.1 then setBit x e.2 true else x) 0

/-- Change the keys of a map. -/
def moveKeys {V : Type} (from_ to_ : List Nat) (m : Map V) : Map V :=
  (from_.zip to_).foldl (fun (x : Map V) e => match m.find? e.1 with | some v => x.put e.2 v | none => x) []

/-- Change the slots that the causes of a block name. -/
def moveCauses (from_ to_ : List Nat) (l : List Cause) : List Cause :=
  l.map (fun x => { x with slot := x.slot.map (fun k => ((from_.zip to_).filter (fun e => e.1 = k)).map (·.2) |>.headD 0) })

/-- Change the slot, and the block, that a waiting command of some warps or of a spine context names. -/
def moveHeld (from_ to_ : List Nat) (b : Nat) (h : CopyHeld) : CopyHeld :=
  { h with who := { h.who with slot := (((from_.zip to_).filter (fun e => e.1 = h.who.slot)).map (·.2)).headD 0 }, cmd := { h.cmd with blk := b } }

/-- The waiting commands of a block whose warps or context come to other slots. -/
def moveHelds (ws to_ : List Nat) (sp st : Option Nat) (b : Nat) (l : List CopyHeld) : List CopyHeld :=
  l.map (fun h => match h.who.unit with
    | .lane => moveHeld ws to_ b h
    | .spine => moveHeld sp.toList st.toList b h
    | _ => moveHeld [] [] b h)

/-- The hold that a saved or restored lane keeps: a REJOIN hold, and a switch point whose POISON waits for the frame
(R307). -/
def Hold.kept (h : Hold) (now : Nat) : Hold :=
  match h with
  | .rejoin n _ => .rejoin n now
  | .park => .park
  | _ => .free

/-- A place abandons its wait or park; WAITONLY for the wait half of a BAR.SYNC (R307 step 3). -/
def State.saveWait (s : State) (c : Issuer) (l : Nat) : State :=
  let sync := s.inSyncWait c l
  match s.holdOf c l with
  | .rejoin _ _ | .park => s
  | _ =>
    let s := s.giveUp c l
    if sync then s.markWaits c [l] else s

/-- A warp stops at a switch point: its waits are abandoned and its results commit (R307 steps 2 and 3). -/
def State.saveWarp (s : State) (g k : Nat) : State :=
  let c := warpIssuer g k
  let ls := maskLanes (s.warp g k).liveMask
  let s := ls.foldl (fun (s : State) l => s.saveWait c l) s
  s.switchPoint c (ls.filter (fun l => s.holdOf c l = .free))

/-- A sequencer of a block, as saved; none when it serves another block or is IDLE. -/
def Seqr.ofBlock (q : Seqr) (b : Nat) : Option Seqr :=
  if q.blk = b && q.st ≠ .idle then some { q with hold := .free } else none

/-- What is saved of a block whose parties have stopped. -/
def State.savedOf (s : State) (g b : Nat) : Saved :=
  let c := s.cl g
  let x := s.block g b
  let ng := List.range x.groupMap.length
  let nw := List.range x.slots.length
  { blk := { x with causes := moveCauses x.slots nw x.causes, saving := false }
    warps := nw.foldl (fun (m : Map Warp) j => match c.warps.find? (x.slots.getD j 64) with
      | some w => if w.blk = some b then m.put j { w with arr := moveKeys x.groupMap ng w.arr } else m
      | none => m) []
    spine := match x.spineCtx with
      | some k => (c.spines.find? k).map (fun y => { y with arr := moveKeys x.groupMap ng y.arr, hold := .free })
      | none => none
    mseq := c.mseq.ofBlock b
    cseq := c.cseq.ofBlock b
    copyQ := (c.copyQ.filter (fun q => q.blk = b)).map (fun q => { q with parked := false })
    copyHeld := moveHelds x.slots nw x.spineCtx (x.spineCtx.map (fun _ => 0)) b (c.copyHeld.filter (fun h => h.cmd.blk = b))
    pegs := moveKeys x.pegMap (List.range x.pegMap.length) (c.pegs.mapv (fun _ p =>
      { p with seen := moveSlots x.slots nw p.seen
               seenSpine := match x.spineCtx with | some k => setBit 0 0 (p.seenSpine.getLsbD k) | none => 0 }))
    groups := moveKeys x.groupMap ng (c.groups.mapv (fun _ e => { e with warps := moveSlots x.slots nw e.warps }))
    g := g, slot := b }

/-- The parts of an area whose layout R308 gives, the private sections with free bytes, and the token (log 23). -/
def State.saveWrite (s : State) (g b : Nat) (asp : Nat) (va : W64) (tok : Nat) : State :=
  let x := s.block g b
  let off := areaOff x.img
  let s := s.areaPut asp va (off 2) ((List.range (off 7 - off 2)).map (Config.privateByte s.ticks))
  let s := s.areaPut asp va (off 8) ((List.range (off 11 - off 8)).map (fun k => Config.privateByte s.ticks (off 7 + k)))
  let s := s.areaPut asp va (off 4) (leBytes 8 tok)
  let s := (List.range x.groupMap.length).foldl (fun (s : State) k =>
    s.areaPut asp va (256 + 32 * k) (groupWords (s.group g (x.groupMap.getD k 0)))) s
  let s := (x.slots.zipIdx).foldl (fun (s : State) e => s.areaPut asp va (off 7 + 1024 * e.2)
    (if (s.warp g e.1).blk = some b then s.warpBytes g e.1 x else List.replicate 1024 0)) s
  s.areaPut asp va 0 (headerBytes x g 1)

/-- The parties of a block stop; its commands leave the engines, its reservations go, and its group entries are AWAY (R307
steps 2 to 5). -/
def State.saveStop (s : State) (g b : Nat) : State :=
  let s := (s.blockWarps g b).foldl (fun (s : State) k => s.saveWarp g k) s
  let s := match s.blockSpine g b with
    | some k => s.saveWait { unit := .spine, g := g, slot := k } 0
    | none => s
  let s := s.seqsGiveUp g b
  let s := if (s.cl g).copyQ.any (fun q => q.blk = b && q.parked) then
    s.updReqs (fun r => if r = .copy g then none else some r) else s
  let warps := s.blockWarps g b
  let spine := (s.block g b).spineCtx
  let s := s.updMem (fun m => { m with resv := m.resv.filter (fun r =>
    !(r.g = g && (if r.spine then spine = some r.slot else warps.contains r.slot))) })
  (s.block g b).groupMap.foldl (fun (s : State) e => s.updGroup g e (fun y => { y with away := true })) s

/-- The block leaves its cluster. -/
def State.saveLeave (s : State) (g b : Nat) : State :=
  let s := s.updCl g (fun c => { c with
    warps := c.warps.filter (fun e => e.2.blk ≠ some b)
    copyQ := c.copyQ.filter (fun q => q.blk ≠ b)
    copyHeld := c.copyHeld.filter (fun h => h.cmd.blk ≠ b)
    mseq := if (c.mseq.ofBlock b).isSome then {} else c.mseq
    cseq := if (c.cseq.ofBlock b).isSome then {} else c.cseq })
  (s.freeBlock g b).seqFreed g

/-- One block is saved (R307 steps 2 to 7). -/
def State.saveBlock (s : State) (lnum blk : Nat) : State :=
  match s.findBlock lnum blk with
  | none => s
  | some (g, b) =>
    let s := s.saveStop g b
    let tok := s.eng.nextSaved
    let l := s.launch lnum
    let sv := s.savedOf g b
    let s := { s with eng := { s.eng with saved := s.eng.saved.put tok sv, nextSaved := tok + 1 } }
    let s := s.saveWrite g b l.aspace (BitVec.ofNat 64 (l.areas.get blk 0)) tok
    s.saveLeave g b

/-- The parties of a block that is to be saved stop issuing (R307 step 2). -/
def State.stopBlock (s : State) (g b : Nat) : State :=
  let x := s.block g b
  if (s.cl g).blocks.has b && s.savingOf x.lnum x.blk then s.updBlock g b (fun b => { b with saving := true }) else s

/-- May a block be saved now: its parties have stopped, its results have arrived, and the matrix engine has completed its commands (R307 steps 2 and
4)? -/
def State.saveReady (s : State) (lnum blk : Nat) : Bool :=
  match s.findBlock lnum blk with
  | none => true
  | some (g, b) => (s.block g b).saving && (s.blockWarps g b).all (fun k => lanes32.all (fun l => (s.warp g k).laneArrived l))
      && !(s.cl g).matQ.any (fun q => q.blk = b)

/-- SAVE_COMPLETE (R307). -/
def execSaveComplete (s : State) : Out :=
  match s.eng.save with
  | none => .next s
  | some o =>
    if o.blks.all (s.saveReady o.lnum) then
      let s := o.blks.foldl (fun (s : State) b => s.saveBlock o.lnum b) s
      let s := { s with eng := { s.eng with save := none } }
      .next (s.ctrAdvance o.ctr o.inc false)
    else .next s

/-! ### RESTORE (R309, R310) -/

/-- What a restore finds at an area. -/
inductive AreaRead where
  /-- Pages that R306 refuses. -/
  | refused
  /-- MAGIC, VERSION or STATUS wrong, or no block of this device is held there. -/
  | bad
  | ok (tok : Nat) (sv : Saved)
deriving Repr

/-- Read an area: its header, and the token of what the device keeps of it. -/
def State.readArea (s : State) (asp : Nat) (va : W64) : State × AreaRead :=
  match s.areaPages asp va 256 with
  | (s, false) => (s, .refused)
  | (s, true) =>
    match s.rd asp va 256 none with
    | (s, .fail _ _ _) => (s, .refused)
    | (s, .ok (h, _)) =>
      let n := s.lnumOf (leNat ((h.drop 32).take 4))
      if leNat (h.take 4) ≠ 0x4C4E5341 || leNat ((h.drop 4).take 2) ≠ 1 || h.getD 6 0 ≠ 1 || !s.work.launches.has n then (s, .bad)
      else
        let i := (s.launch n).img
        match s.areaPages asp va (areaSize i) with
        | (s, false) => (s, .refused)
        | (s, true) =>
          match s.rd asp (va + BitVec.ofNat 64 (areaOff i 4)) 8 none with
          | (s, .fail _ _ _) => (s, .refused)
          | (s, .ok (t, _)) =>
            match s.eng.saved.find? (leNat t) with
            | some sv => if sv.blk.lnum = n then (s, .ok (leNat t) sv) else (s, .bad)
            | none => (s, .bad)

/-- RESTORE_MISMATCH: the reason goes into STATUS [15:8] of the areas (R310). -/
def State.mismatch (s : State) (x : PmCmd) (areas : List W64) (reason : Nat) : State :=
  (areas.foldl (fun (s : State) a => s.areaPut x.aspace a 7 (leBytes 1 reason)) s).pmFail x

/-- Are the resources of a saved block free on a cluster, with the sequencers it held (R70, R309)? -/
def State.fitsSaved (s : State) (g : Nat) (sv : Saved) : Bool :=
  s.fits g sv.blk.lnum true && (sv.mseq.isNone || (s.cl g).mseq.st = .idle) && (sv.cseq.isNone || (s.cl g).cseq.st = .idle)

/-- A saved warp in its new slot. -/
def Warp.restored (w : Warp) (b age now : Nat) (groups : List Nat) : Warp :=
  { w with blk := some b, age := age, since := now, boost := false
           arr := moveKeys (List.range groups.length) groups w.arr
           lanes := w.lanes.mapv (fun _ x => { x with hold := x.hold.kept now, boost := false, starve := 0 }) }

/-- A saved sequencer in its new block; one that waits in RDV waits anew (R301, R309). -/
def Seqr.restored (q : Seqr) (b now : Nat) : Seqr :=
  { q with blk := b, hold := if q.st = .rdv then .wait { kind := 7, obj := .rdv 0, start := now, len := 8 } else .free }

/-- A saved block is written back on a cluster, its group entries AWAY (R309 step 2). -/
def State.install (s : State) (g : Nat) (sv : Saved) : State :=
  let x := sv.blk
  let i := x.img
  let b := ((List.range 64).find? (fun k => !(s.cl g).blocks.has k)).getD 0
  let slots := s.pickSlots g i
  let grs := s.pickGranules g i
  let pegs := (s.openPegs g).take i.pegs
  let grps := (s.openGroups g).take i.groups.length
  let ctx := if i.spineEnt = 0 then none else (s.openSpines g).head?
  let nw := List.range slots.length
  let now := s.cycles (dieOf g)
  let y : Block := { x with granules := grs, pegMap := pegs, groupMap := grps, slots := slots, spineCtx := ctx
                            causes := moveCauses nw slots x.causes }
  let s := s.acquire g 7
  let s := s.updCl g (fun c => { c with
    blocks := c.blocks.put b y
    holders := grs.foldl (fun m k => m.put k (some x.lnum)) c.holders
    reserved := if c.reserved = some x.lnum then none else c.reserved
    pegs := (moveKeys (List.range pegs.length) pegs (sv.pegs.mapv (fun _ p =>
      { p with seen := moveSlots nw slots p.seen
               seenSpine := match ctx with | some k => setBit 0 k (p.seenSpine.getLsbD 0) | none => 0 }))).foldl
        (fun m e => m.put e.1 e.2) c.pegs
    groups := (moveKeys (List.range grps.length) grps (sv.groups.mapv (fun _ e =>
      { e with blk := b, away := true, warps := moveSlots nw slots e.warps }))).foldl (fun m e => m.put e.1 e.2) c.groups
    cores := c.freshCores slots
    warps := sv.warps.foldl (fun m e => m.put (slots.getD e.1 0) (e.2.restored b (s.work.age + e.1) now grps)) c.warps
    spines := match ctx, sv.spine with
      | some k, some p => c.spines.put k { p with blk := b, arr := moveKeys (List.range grps.length) grps p.arr }
      | _, _ => c.spines
    mseq := match sv.mseq with | some q => q.restored b now | none => c.mseq
    cseq := match sv.cseq with | some q => q.restored b now | none => c.cseq
    copyQ := c.copyQ ++ sv.copyQ.map (fun q => { q with blk := b })
    copyHeld := c.copyHeld ++ moveHelds nw slots (ctx.map (fun _ => 0)) ctx b sv.copyHeld })
  { s with work := { s.work with age := s.work.age + slots.length } }

/-- The present phase completes while ARRIVED has reached EXPECT (R309 step 4). -/
def State.phaseLoop : Nat → State → Nat → Nat → State
  | 0, s, _, _ => s
  | f + 1, s, g, e =>
    let en := s.group g e
    if en.expect_ ≠ 0 && en.expect_ ≤ en.arrived then State.phaseLoop f (s.phaseCheck g e) g e else s

/-- The redirected arrivals of one group are taken into its entry (R309 step 3). -/
def State.takeArr (s : State) (asp : Nat) (va : W64) (g e k : Nat) : State :=
  match s.unitXlate asp (arrAddr va k) .atomic none with
  | (s, .ok (pa, _)) =>
    let (s, n) := s.physWord pa
    let s := s.physWrite pa (leBytes 8 0) true
    let s := s.updGroup g e (fun y => { y with arrived := y.arrived + n.toNat })
    s
  | (s, .fail _ _ _) => s

/-- A block that has been installed resumes: steps 3 to 5 of R309. -/
def State.resumeBlock (s : State) (lnum blk : Nat) (asp : Nat) (va : W64) : State :=
  match s.findBlock lnum blk with
  | none => s
  | some (g, b) =>
    let es := ((s.block g b).groupMap).zipIdx
    let s := es.foldl (fun (s : State) e => s.takeArr asp va g e.1 e.2) s
    let s := es.foldl (fun (s : State) e =>
      let s := s.updGroup g e.1 (fun y => { y with away := false })
      State.phaseLoop ((s.group g e.1).arrived + 1) s g e.1) s
    let s := s.updLaunch lnum (fun l => { l with areas := l.areas.del blk })
    s.areaPut asp va 6 (leBytes 2 2)

/-- The blocks of a restore resume, and the counter advances. -/
def State.restoreEnd (s : State) (x : PmCmd) (lnum : Nat) (es : List (Nat × Nat × Saved)) : State :=
  let s := s.updLaunch lnum (fun l => { l with away := false })
  let s := es.foldl (fun (s : State) e => s.resumeBlock lnum e.1 x.aspace (x.areaOf e.1)) s
  let left := es.foldl (fun (m : Map Saved) (e : Nat × Nat × Saved) => m.del e.2.1) s.eng.saved
  let s := { s with eng := { s.eng with saved := left } }
  (s.ctrAdvance x.ctr x.inc false).pmNext

/-- Copy commands of restored blocks name the new places of their targets. -/
def State.moveTargets (s : State) (old new_ : List (Nat × Nat)) : State :=
  let f := fun (t : Nat × Nat × Nat) => match (old.zip new_).filter (fun e => e.1 = (t.1, t.2.1)) with
    | e :: _ => (e.2.1, e.2.2, t.2.2)
    | [] => t
  { s with clusters := s.clusters.mapv (fun g c => { c with copyQ := c.copyQ.map (fun q =>
      if new_.contains (g, q.blk) then { q with targets := q.targets.map f } else q) }) }

/-- The clusters that a restore tries for a block: those of R39 with its affinity, all of them once it has waited long
enough, or those from a target on (R309). -/
def State.restoreTries (s : State) (x : PmCmd) (sv : Saved) (expired : Bool) : List Nat :=
  if x.target ≠ 0xFFFF then
    if x.whole then s.clustersPresent.filter (fun g => decide (x.target ≤ g)) ++ s.clustersPresent.filter (fun g => decide (g < x.target))
    else [x.target]
  else match s.preferred (s.launch sv.blk.lnum) sv.blk.blk with
    | some near => near ++ (if expired then s.clustersPresent else [])
    | none => s.clustersPresent

/-- Place the blocks of a restore in order; none when one finds no cluster. -/
def State.placeAll (x : PmCmd) (expired : Bool) : State → List (Nat × Nat × Saved) → Option State
  | s, [] => some s
  | s, e :: r =>
    match (s.restoreTries x e.2.2 expired).find? (fun g => s.fitsSaved g e.2.2) with
    | some g => State.placeAll x expired (s.install g e.2.2) r
    | none => none

/-- Where some blocks of a launch are now. -/
def State.placesOf (s : State) (lnum : Nat) (bs : List Nat) : List (Nat × Nat) := bs.filterMap (fun b => s.findBlock lnum b)

/-- The restore of blocks whose areas have been read: mismatch, wait, or the restore (R309, R310). -/
def State.restoreAll (s : State) (x : PmCmd) (lnum : Nat) (es : List (Nat × Nat × Saved)) : State :=
  let areas := es.map (fun e => x.areaOf e.1)
  if x.target ≠ 0xFFFF && !(decide (x.target < 160) && s.clPresent x.target) then s.mismatch x areas 4
  else
    let now := s.cycles s.lowestDie
    let since := s.eng.restSince.getD now
    match State.placeAll x (x.whole || decide (since + s.pkgReg 0x113 ≤ now)) s es with
    | some t =>
      let bs := es.map (·.1)
      let t := t.moveTargets (es.map (fun e => (e.2.2.g, e.2.2.slot))) (t.placesOf lnum bs)
      t.restoreEnd x lnum es
    | none =>
      if x.target ≠ 0xFFFF then s.mismatch x areas 2
      else { s with eng := { s.eng with restSince := some since } }

/-- Read the areas of some blocks of a launch: what they hold, or the reason they cannot be restored, 0 for a refusal. -/
def State.readAreas (s : State) (x : PmCmd) (lnum : Nat) : List Nat → State × Except Nat (List (Nat × Nat × Saved))
  | [] => (s, .ok [])
  | b :: r =>
    match s.readArea x.aspace (x.areaOf b) with
    | (s, .refused) => (s, .error 0)
    | (s, .bad) => (s, .error 1)
    | (s, .ok tok sv) =>
      if sv.blk.lnum ≠ lnum then (s, .error 3)
      else if sv.blk.blk ≠ b then (s, .error 1)
      else match State.readAreas s x lnum r with
        | (s, .ok l) => (s, .ok ((b, tok, sv) :: l))
        | e => e

/-- The launch whose blocks lie at the areas of a restore with LAUNCH: its lowest saved block tells (R309). -/
def State.restoreLaunch (s : State) (x : PmCmd) : State × AreaRead :=
  match (s.work.launches.filter (fun e => e.2.away && e.2.aspace = x.aspace)).filterMap (fun e => e.2.areas.keys.head?.map (fun b => (e.1, b)))
      |>.find? (fun e => match (s.readArea x.aspace (x.areaOf e.2)).2 with
        | .ok _ sv => sv.blk.lnum = e.1
        | _ => false) with
  | some e => s.readArea x.aspace (x.areaOf e.2)
  | none => s.readArea x.aspace x.area

/-- RESTORE of a whole launch. -/
def State.restoreWhole (s : State) (x : PmCmd) : State :=
  match s.restoreLaunch x with
  | (s, .refused) => s.pmFail x
  | (s, .bad) => s.mismatch x [x.area] 1
  | (s, .ok _ sv) =>
    let n := sv.blk.lnum
    let l := s.launch n
    if l.img.cls ≠ 0 || l.aspace ≠ x.aspace then s.pmFail x
    else
      match s.readAreas x n l.areas.keys with
      | (s, .error 0) => s.pmFail x
      | (s, .error r) => s.mismatch x (l.areas.keys.map x.areaOf) r
      | (s, .ok es) => s.restoreAll x n es

/-- RESTORE of one block. -/
def State.restoreOne (s : State) (x : PmCmd) : State :=
  match s.readArea x.aspace x.area with
  | (s, .refused) => s.pmFail x
  | (s, .bad) => s.mismatch x [x.area] 1
  | (s, .ok tok sv) =>
    if sv.blk.aspace ≠ x.aspace then s.pmFail x
    else if sv.blk.img.cls = 0 then s.mismatch x [x.area] 3
    else s.restoreAll x sv.blk.lnum [(sv.blk.blk, tok, sv)]

/-- RESTORE: carried out, refused, or still waiting at the head of the ring (R306, R309, R310). -/
def execRestore (c : BitVec 512) (s : State) : Out :=
  let x := pmFields c
  if s.pmBad x || (s.rootOf x.aspace).2.isNone then .next (s.pmFail x)
  else if x.whole then .next (s.restoreWhole x)
  else .next (s.restoreOne x)

end Sys2Proof.Machine
end

