-- ==== Sys2Proof/Machine/Sampling.lean ====
section
/-! DEFINITION. Reductions over the issuing group, the activation tables, and random bits (R185 to R190). -/

namespace Sys2Proof.Machine

/-! ### AMAX and SAMPLE -/

/-- The greater of two values of which neither is negative; a NaN stands. -/
def amax2 (x y : Fp) : Fp :=
  if x.isNan then x else if y.isNan then y else if x.cmp y = some .lt then y else x

/-- The largest magnitude of some elements of a format (R185). -/
def amaxElems (f : Fmt) (xs : List Nat) : Nat × Flags :=
  let v := xs.map f.unpack
  match (v.map Fp.abs).foldl amax2 (.fin false 0 0) with
  | .nan _ => (f.nanCode, snanFlag v)
  | r => ((f.round .rne .arith false r).1, snanFlag v)

/-- AMAX over the active lanes of the group (R185). -/
def aluAmax : Alu := fun s c o _ ls =>
  let f := fmtOf o.ty
  let a := ls.map (fun l => s.opA c o l false)
  let rs := (List.range (tyCount o.ty)).map (fun k => amaxElems f (a.map (fpElem f k)))
  let x := BitVec.ofNat 64 (packElems f.width (rs.map (fun r => (r.1 : Int))))
  let fl := rs.foldl (fun g r => g ||| r.2) 0
  (ls.flatMap (fun l => resWrites .v o.d.toNat l o.ty false x), ls.map (fun l => (l, fl)))
/-- AMAX (R185). -/
def execAmax (o : Ops) (s : State) : Out := .next (s.alu (.amax o) aluAmax)

/-- A weight as SAMPLE counts it, and WN (R186). -/
def sampleWeight (x : W32) : W32 × Flags :=
  match f32Val x with
  | .fin neg m _ => if m = 0 then (0, 0) else if neg then (0, flWN) else (x, 0)
  | _ => (0, flWN)

/-- Inclusive prefix sums in lane order. -/
def prefixes (p : W32) : List W32 → List (W32 × Flags)
  | [] => []
  | w :: r => let (q, f) := f32Add p w; (q, f) :: prefixes q r

/-- The lane SAMPLE draws: 32 and 0, or a lane and 1, with its flags (R186). -/
def sampleDraw (ws : List W32) (rnd : W32) : Nat × Bool × Flags :=
  let pre := prefixes 0 ws
  let fl := pre.foldl (fun f p => f ||| p.2) 0
  let t := f32Val ((pre.getD 31 (0, 0)).1)
  if t.isZero || !t.isFin then (32, false, fl)
  else
    let (x, _) := (Fp.fin false (rnd.toNat / 256) (-24)).mul t
    let (b, g) := roundF32 x
    let past := fun (p : W32) => (f32Val p).cmp (f32Val b) = some .gt
    let r := match lanes32.find? (fun l => past (pre.getD l (0, 0)).1) with
      | some l => l
      | none => (lanes32.reverse.find? (fun l => ws.getD l 0 ≠ 0)).getD 0
    (r, true, fl ||| g)

/-- SAMPLE over the active lanes of the group (R186). -/
def aluSample : Alu := fun s c o _ ls =>
  let ws := lanes32.map (fun l => if ls.contains l then sampleWeight (lo32 (s.opA c o l false)) else (0, 0))
  let rnd := lo32 (s.opB c o [] (ls.headD 0) 0 false)
  let (r, q, fl) := sampleDraw (ws.map (·.1)) rnd
  let fl := ws.foldl (fun f w => f ||| w.2) fl
  (ls.flatMap (fun l => resWrites .v o.d.toNat l 0 false (BitVec.ofNat 64 r) ++ [predWrite l (o.c.toNat % 16) q]),
    ls.map (fun l => (l, fl)))
/-- SAMPLE (R186). -/
def execSample (o : Ops) (s : State) : Out := .next (s.alu (.sample o) aluSample)

/-! ### Activation tables (R187 to R189) -/

/-- The SIMT core of an issuer. -/
def State.coreOf (s : State) (c : Issuer) : Core := (s.cl c.g).cores.get (c.slot / 16) {}
/-- Change the SIMT core of an issuer. -/
def State.updCore (s : State) (c : Issuer) (f : Core → Core) : State :=
  s.updCl c.g (fun k => { k with cores := k.cores.put (c.slot / 16) (f (k.cores.get (c.slot / 16) {})) })

/-- Write an entry of a bank (R187). -/
def ActBank.load (b : ActBank) (i : Nat) (x y : W32) : ActBank :=
  if i < 256 then { b with y0 := b.y0.put i x, y1 := b.y1.put i y }
  else if i = 256 then { b with lo := x, scl := y }
  else b

/-- ACTLD: the shadow bank, in lane order. An ACT reads its bank whole in its issue step, so none in flight keeps ACTLD waiting
(R187, log 79). -/
def execActld (o : Ops) (s : State) : Out :=
  .next (s.issue (.actld o) (fun s c o pv ls =>
    .go (ls.foldl (fun (t : State) l =>
      let i := (lo32 (s.opA c o l false)).toNat
      let x := lo32 (s.opB c o pv l 4 false)
      let y := lo32 (s.opC c o pv l 4 false)
      t.updCore c (fun k => { k with shadow := k.shadow.load i x y })) s) []))

/-- The tag operand: an unsigned immediate or a w register (R188, R189). -/
def actTag (s : State) (c : Issuer) (o : Ops) : W32 :=
  if o.bs = 3 then o.b.setWidth 32 else s.w c.g c.slot o.b.toNat

/-- ACTSWAP: once for the group (R188). -/
def execActswap (o : Ops) (s : State) : Out :=
  .next (s.issue (.actswap o) (fun s c o _ _ =>
    .go (s.updCore c (fun k => { k with live := { k.shadow with tag := actTag s c o }, shadow := k.live })) []))

/-- An end value, returned unchanged unless it is a NaN; it raises no flag (R189). -/
def actEnd (y : W32) : W32 × Flags := (if (f32Val y).isNan then nan32 else y, 0)

/-- The interpolation between two end values at f / 2^16 (R189). -/
def actBetween (y0 y1 : W32) (f : Nat) : W32 × Flags :=
  let a := f32Val y0
  let b := f32Val y1
  let t := Fp.fin false f (-16)
  let (r, g) := exactSum .rne [a, (t.mul b).1, ((t.mul a).1).negate]
  let (x, h) := roundF32 r
  (x, g ||| h)

/-- ACT of a value in a bank: NV for a failed header check, and none for a NaN operand, signalling or not (R122, R189). -/
def actVal (b : ActBank) (tag x : W32) : W32 × Flags :=
  let sc := f32Val b.scl
  let lo := f32Val b.lo
  let v := f32Val x
  if b.tag ≠ tag || !lo.isFin || !sc.isFin || sc.neg || sc.isZero then (nan32, flNV)
  else if v.isNan then (nan32, 0)
  else
    let d := exactSum .rne [v, lo.negate]
    match (d.1.mul sc).1 with
    | .nan _ => (nan32, flNV)
    | .inf neg => actEnd (if neg then b.y0.get 0 0 else b.y1.get 255 0)
    | .fin neg m e =>
      let (i, _) := toIntegral .rdn neg m e
      if i < 0 then actEnd (b.y0.get 0 0)
      else if 256 ≤ i then actEnd (b.y1.get 255 0)
      else
        let (j, _) := toIntegral .rdn neg m (e + 16)
        let f := (j - i * 65536).toNat
        let y0 := b.y0.get i.toNat 0
        if f = 0 then actEnd y0 else actBetween y0 (b.y1.get i.toNat 0) f

/-- ACT in its active places (R189). -/
def aluAct : Alu := perValue (fun _ => 4) (fun s c o _ l =>
  let (y, f) := actVal (s.coreOf c).live (actTag s c o) (lo32 (s.opA c o l false))
  (y.setWidth 64, f))
/-- ACT (R189). -/
def execAct (o : Ops) (s : State) : Out := .next (s.alu (.act o) aluAct)

/-! ### Random bits (R190) -/

/-- The rounds of Philox-4x32-10 that are left. -/
def philox : Nat → Nat × Nat × Nat × Nat → Nat × Nat → Nat × Nat × Nat × Nat
  | 0, c, _ => c
  | r + 1, (c0, c1, c2, c3), (k0, k1) =>
    let p0 := 0xD2511F53 * c0
    let p1 := 0xCD9E8D57 * c2
    philox r ((p1 / 2 ^ 32) ^^^ c1 ^^^ k0, p1 % 2 ^ 32, (p0 / 2 ^ 32) ^^^ c3 ^^^ k1, p0 % 2 ^ 32)
      ((k0 + 0x9E3779B9) % 2 ^ 32, (k1 + 0xBB67AE85) % 2 ^ 32)

/-- RNG in its active places (R190). -/
def aluRng : Alu := perLane (fun s c o _ l =>
  let x := fun k => (lo32 (s.regOf c (fileA c o) (o.a.toNat + k) l false)).toNat
  let key := fun k => (lo32 (s.regOf c (fileBC c o o.bs) (o.b.toNat + k) l false)).toNat
  let (r0, r1, r2, r3) := philox 10 (x 0, x 1, x 2, x 3) (key 0, key 1)
  let put := fun k (v : Nat) => resWrites (fileD c o) (o.d.toNat + k) l 0 false (BitVec.ofNat 64 v)
  (put 0 r0 ++ put 1 r1 ++ put 2 r2 ++ put 3 r3, 0))
/-- RNG (R190). -/
def execRng (o : Ops) (s : State) : Out := .next (s.alu (.rng o) aluRng)

end Sys2Proof.Machine
end

