-- ==== Sys2Proof/Machine/Spawn.lean ====
section
/-! DEFINITION. SPAWN (R46). -/

namespace Sys2Proof.Machine

/-- The queue that SPAWN names. -/
def State.spawnQueue (s : State) (c : Issuer) (o : Ops) : Nat :=
  let x := o.ext.toNat
  if bitsN x 16 1 = 1 then (s.w c.g c.slot o.b.toNat).toNat else bitsN x 0 16

/-- The record address, or scratchpad offset, of a lane. -/
def State.spawnAddr (s : State) (c : Issuer) (o : Ops) (l : Nat) : W64 := s.opA c o l (bitsN o.ext.toNat 17 1 = 0)

/-- The records of the offering lanes, or what stops their reads. -/
def State.spawnRecords (s : State) (c : Issuer) (o : Ops) (ls : List Nat) : Except Stop (State × List (Nat × List Byte)) :=
  let a := s.spawnAddr c o
  match ls.filter (fun l => (a l).toNat % 128 ≠ 0) with
  | l :: r => .error (.fail { code := 7, lanes := l :: r, addr := a l })
  | [] =>
    if bitsN o.ext.toNat 17 1 = 1 then
      match ls.filter (fun l => decide ((s.blockOf c).share < (a l).toNat + 128)) with
      | l :: r => .error (.fail { code := 9, lanes := l :: r, addr := a l, info := 0xFFFF })
      | [] => .ok (s, ls.map (fun l => (l, (s.blockOf c).scratchBytes (a l).toNat 128)))
    else match s.checkAccess c .read { al := 128 } (ls.map (fun l => ⟨l, a l, 128⟩)) with
      | .error e => .error e
      | .ok qs =>
        let (s, bufs, bad) := qs.foldl (fun (s, bufs, bad) q =>
          let (s, b, p) := s.readPieces [] c.g false q.2
          (s, bufs ++ [(q.1.lane, b)], match p with | some v => bad ++ [(q.1.lane, v)] | none => bad))
          (s, ([] : List (Nat × List Byte)), ([] : List (Nat × W64)))
        match bad with
        | e :: r => .error (.fail { code := 14, lanes := (e :: r).map (·.1), addr := e.2 })
        | [] => .ok (s, bufs)

/-- The pieces of slot `id` of a queue, when its pages are translated for writing. -/
def State.slotPieces (s : State) (g q id : Nat) : List (W64 × Option Piece) :=
  let x := s.queue q
  (partsOf (x.slotAddr id) 128).map (fun p =>
    (p.1, (s.tlbFind g x.aspace p.1 .write).map (fun t => ⟨p.1, t.addr p.1, t.cls, p.2.1, p.2.2⟩)))

/-- The effect of an offer that has its records and its slots' translations: all or none. -/
def State.spawnOffer (s : State) (c : Issuer) (o : Ops) (ls : List Nat) (q : Nat) (bufs : List (Nat × List Byte)) : State :=
  let x := s.queue q
  let n := ls.length
  let d := o.d.toNat % 16
  if x.tail + n ≤ x.head + 2 ^ x.log && x.tail + n ≤ 2 ^ 56 then
    let base := x.tail
    let puts := (bufs.zipIdx).map (fun e => ((s.slotPieces c.g q (base + e.2)).filterMap (·.2), e.1.2))
    let s := ((s.setEffects c ls).writePuts (ls.map (s.threadOf c)) c.g false (putsOf puts)).setTail q (base + n)
    let idv := bitsN o.ext.toNat 19 8
    let ids := if bitsN o.ext.toNat 18 1 = 1 then (bufs.zipIdx).flatMap (fun e =>
      resWrites .v idv e.1.1 2 true (BitVec.ofNat 64 (base + e.2))) else []
    (s.putPreds c d (ls.map (fun l => (l, true)))).writeAll c ids
  else s.putPreds c d (ls.map (fun l => (l, false)))

/-- SPAWN of the active lanes, once the accesses that it releases are performed. -/
def spawnBody (s : State) (c : Issuer) (o : Ops) (ls : List Nat) : Eff :=
  let q := s.spawnQueue c o
  let x := s.queue q
  if 65535 < q || x.type ≠ 2 || x.stat ≠ 1 then accessNone ls
  else match s.spawnRecords c o ls with
    | .error e => s.stopEff c ls e
    | .ok (s, bufs) =>
      match ((List.range ls.length).map (fun k => x.slotAddr (x.tail + k))).find? badAddr with
      | some a => accessAt ls a
      | none =>
      let slots := (List.range ls.length).flatMap (fun k => s.slotPieces c.g q (x.tail + k))
      match slots.filter (fun e => e.2.isNone) with
      | [] => if s.releaseHeld c 7 ls ≠ [] then .again s ls else .go (s.spawnOffer c o ls q bufs) []
      | e :: r => .go (s.missWalkIn x.aspace c ls ((e :: r).map (fun m => (m.1, .write, 0)))) c.places

/-- SPAWN (R46). -/
def execSpawn (o : Ops) (s : State) : Out := .next (s.issue (.spawn o) (fun s c o _ ls => spawnBody s c o ls))

end Sys2Proof.Machine
end

