-- ==== Sys2Proof/Machine/WalkEvents.lean ====
section
/-! DEFINITION. Walks in flight and the widening of pages (R57, R60, R61, R289, R290). -/

namespace Sys2Proof.Machine

/-- The cluster of a request in a walk. -/
def Requester.cluster (r : Requester) : Nat :=
  match r with
  | .party i _ _ => i.g
  | .copy g => g
  | .pull g _ _ => g
  | _ => 0

/-- Does a request hold a place? -/
def Requester.holds (r : Requester) (c : Issuer) (l : Nat) : Bool :=
  match r with
  | .party i _ rest => i.unit = c.unit && i.g = c.g && i.slot = c.slot && (c.unit ≠ .lane || (i.group ||| rest).getLsbD l)
  | _ => false

/-- Does some walk or fault record hold a place? -/
def State.inWalk (s : State) (c : Issuer) (l : Nat) : Bool :=
  s.xl.walks.any (fun w => w.who.any (fun r => r.1.holds c l)) || s.xl.recs.any (fun r => r.who.any (fun q => q.1.holds c l))

/-- The places of a request that still wait at its instruction. -/
def State.walkPlaces (s : State) (i : Issuer) : List Nat :=
  i.places.filter (fun l => s.holdOf i l = .walk && s.pcOf i l = i.pc && s.stands i l)

/-- A request whose walk has succeeded: its places issue again when no other walk holds them (R60). -/
def State.walkDone (s : State) (r : Requester) : State :=
  match r with
  | .party i _ rest =>
    let c := { i with group := i.group ||| rest }
    s.setHolds c ((s.walkPlaces c).filter (fun l => !s.inWalk c l)) .free
  | _ => s

/-- A request whose walk has failed parks at its instruction (R61); lanes of the group whose guard fails advance (R77). -/
def State.walkFailed (s : State) (r : Requester) : State :=
  match r with
  | .party i _ rest =>
    let c := { i with group := rest }
    let s := match i.unit with
      | .lane => (s.walkPlaces c).foldl (fun (s : State) l => (s.setPc c l (i.pc + BitVec.ofNat 64 i.len)).setHold c l .free) s
      | _ => s
    s.setHolds i (s.walkPlaces i) .fault
  | _ => s

/-- A walk leaves the walkers. -/
def State.walkGone (s : State) (i : Nat) : State :=
  { s with xl := { s.xl with walks := s.xl.walks.eraseIdx i } }

/-- The die that owns a page, by its leaf (R289). -/
def State.ownerDie (s : State) (aspace : Nat) (va : W64) : Nat :=
  match (s.leafOf aspace va).2 with
  | some (_, _, e) => if pteCls e = 0 then dieOf (pteOwner e) else pteOwner e
  | none => 0

/-- Has a walk one of its die's 64 walkers? The others wait in arrival order (R60). -/
def State.inWalker (s : State) (i : Nat) (w : Walk) : Bool :=
  decide (((s.xl.walks.take i).filter (fun x => x.die = w.die)).length < 64)

/-- WALK_COMPLETION: a walk that a walker makes ends, and every request that joined it takes its outcome; a walk that meets MIG,
or whose page is being widened, stays and walks again later (R57, R60, R61, R289). -/
def execWalkCompletion (i : Nat) (s : State) : Out :=
  match s.xl.walks[i]? with
  | none => .next s
  | some w =>
    if s.widening w.aspace w.va || !s.inWalker i w then .next s
    else
      match w.who with
      | [] => .next (s.walkGone i)
      | r :: _ =>
        match s.walk w.aspace w.va w.acc (some r.1.cluster) with
        | (s, .ok t) =>
          let s := s.walkGone i
          let s := ((w.who.map (fun q => q.1.cluster)).eraseDups).foldl (fun (s : State) g => s.tlbInstall g t) s
          .next (w.who.foldl (fun (s : State) q => s.walkDone q.1) s)
        | (s, .fail n) =>
          let s := s.walkGone i
          let s := w.who.foldl (fun (s : State) q => s.walkFailed q.1) s
          .next (s.recordFaults w.die w.aspace w.va n w.who)
        | (s, .widen) =>
          .next { s with xl := { s.xl with widens := s.xl.widens ++
            [{ die := s.ownerDie w.aspace w.va, aspace := w.aspace, va := w.va, toucher := some r.1.cluster }] } }
        | (s, .mig) => .next s

/-- WIDEN: the owner die serves the oldest request of a page, after which the walks parked on it walk again (R289, R290). -/
def execWiden (i : Nat) (s : State) : Out :=
  match s.xl.widens[i]? with
  | none => .next s
  | some w =>
    let same := fun (x : Widen) => x.aspace = w.aspace && x.va.toNat / 32768 = w.va.toNat / 32768
    if (s.xl.widens.take i).any same then .next s
    else
      let s := s.widenPage w.aspace w.va w.toucher
      .next { s with xl := { s.xl with widens := s.xl.widens.eraseIdx i } }

end Sys2Proof.Machine
end

