-- ==== Sys2Proof/Machine/Dispatch.lean ====
section
/-! DEFINITION. One arm for each operation and event. -/

namespace Sys2Proof.Machine

def exec (i : Instr) (s : State) : Host.Outcome State Fault Refusal :=
  match i with
  | .powerOn => Sys2Proof.Machine.execPowerOn s
  | .reset => Sys2Proof.Machine.execReset s
  | .freeze => Sys2Proof.Machine.execFreeze s
  | .bootVerifyStart => Sys2Proof.Machine.execBootVerifyStart s
  | .bootDiscard => Sys2Proof.Machine.execBootDiscard s
  | .getVersion a => Sys2Proof.Machine.execGetVersion a s
  | .getCapabilities a => Sys2Proof.Machine.execGetCapabilities a s
  | .negotiateAlgorithms a => Sys2Proof.Machine.execNegotiateAlgorithms a s
  | .getDigests a => Sys2Proof.Machine.execGetDigests a s
  | .getCertificate a => Sys2Proof.Machine.execGetCertificate a s
  | .challenge a => Sys2Proof.Machine.execChallenge a s
  | .getMeasurements a b => Sys2Proof.Machine.execGetMeasurements a b s
  | .taildbWrite a b => Sys2Proof.Machine.execTaildbWrite a b s
  | .queueEnable a => Sys2Proof.Machine.execQueueEnable a s
  | .queueDisable a => Sys2Proof.Machine.execQueueDisable a s
  | .queueClearStop a => Sys2Proof.Machine.execQueueClearStop a s
  | .queueDrainComplete a => Sys2Proof.Machine.execQueueDrainComplete a s
  | .completionQueueHeadWrite a b => Sys2Proof.Machine.execCompletionQueueHeadWrite a b s
  | .cEnd a b => Sys2Proof.Machine.execCEnd a b s
  | .cLaunch a b => Sys2Proof.Machine.execCLaunch a b s
  | .cLaunchInd a b => Sys2Proof.Machine.execCLaunchInd a b s
  | .cWaitseq a b => Sys2Proof.Machine.execCWaitseq a b s
  | .cAddseq a b => Sys2Proof.Machine.execCAddseq a b s
  | .cWrite a b => Sys2Proof.Machine.execCWrite a b s
  | .cLoop a b => Sys2Proof.Machine.execCLoop a b s
  | .cEndloop a b => Sys2Proof.Machine.execCEndloop a b s
  | .cIf a b => Sys2Proof.Machine.execCIf a b s
  | .cElse a b => Sys2Proof.Machine.execCElse a b s
  | .cEndif a b => Sys2Proof.Machine.execCEndif a b s
  | .cCallstream a b => Sys2Proof.Machine.execCCallstream a b s
  | .cFence a b => Sys2Proof.Machine.execCFence a b s
  | .fenceCommandComplete a => Sys2Proof.Machine.execFenceCommandComplete a s
  | .cIntr a b => Sys2Proof.Machine.execCIntr a b s
  | .launchAdmission => Sys2Proof.Machine.execLaunchAdmission s
  | .blockDispatch a => Sys2Proof.Machine.execBlockDispatch a s
  | .affinityWaitExpiry a => Sys2Proof.Machine.execAffinityWaitExpiry a s
  | .blockRetire a b => Sys2Proof.Machine.execBlockRetire a b s
  | .launchRetire a => Sys2Proof.Machine.execLaunchRetire a s
  | .taskRecordPull a => Sys2Proof.Machine.execTaskRecordPull a s
  | .waveFormation a => Sys2Proof.Machine.execWaveFormation a s
  | .watchNotification a b => Sys2Proof.Machine.execWatchNotification a b s
  | .seqPoll a b => Sys2Proof.Machine.execSeqPoll a b s
  | .issueVote a b => Sys2Proof.Machine.execIssueVote a b s
  | .warpBoost a b => Sys2Proof.Machine.execWarpBoost a b s
  | .laneBoost a b c => Sys2Proof.Machine.execLaneBoost a b c s
  | .yieldExpiry a b c => Sys2Proof.Machine.execYieldExpiry a b c s
  | .pauseExpiry a b c => Sys2Proof.Machine.execPauseExpiry a b c s
  | .waitTimeout a b c => Sys2Proof.Machine.execWaitTimeout a b c s
  | .causeDelivery a b => Sys2Proof.Machine.execCauseDelivery a b s
  | .walkCompletion a => Sys2Proof.Machine.execWalkCompletion a s
  | .widen a => Sys2Proof.Machine.execWiden a s
  | .fqReplay a b => Sys2Proof.Machine.execFqReplay a b s
  | .fqDeliverPageFault a b => Sys2Proof.Machine.execFqDeliverPageFault a b s
  | .fqDeliverAccess a b => Sys2Proof.Machine.execFqDeliverAccess a b s
  | .fqResolveIgnored a b => Sys2Proof.Machine.execFqResolveIgnored a b s
  | .invalidateRange a => Sys2Proof.Machine.execInvalidateRange a s
  | .invalidateAspace a => Sys2Proof.Machine.execInvalidateAspace a s
  | .invalidateAll a => Sys2Proof.Machine.execInvalidateAll a s
  | .movePage a => Sys2Proof.Machine.execMovePage a s
  | .invalidationComplete a => Sys2Proof.Machine.execInvalidationComplete a s
  | .migrationWindow a => Sys2Proof.Machine.execMigrationWindow a s
  | .migrationMove a b c d => Sys2Proof.Machine.execMigrationMove a b c d s
  | .save a => Sys2Proof.Machine.execSave a s
  | .saveComplete => Sys2Proof.Machine.execSaveComplete s
  | .restore a => Sys2Proof.Machine.execRestore a s
  | .tcopyCompletion a => Sys2Proof.Machine.execTcopyCompletion a s
  | .mmaCompletion a => Sys2Proof.Machine.execMmaCompletion a s
  | .sillCommandCompletion a => Sys2Proof.Machine.execSillCommandCompletion a s
  | .collStepCompletion a => Sys2Proof.Machine.execCollStepCompletion a s
  | .collTimeout a => Sys2Proof.Machine.execCollTimeout a s
  | .rds a b => Sys2Proof.Machine.execRds a b s
  | .rdx a b => Sys2Proof.Machine.execRdx a b s
  | .upg a b => Sys2Proof.Machine.execUpg a b s
  | .wbd a b => Sys2Proof.Machine.execWbd a b s
  | .cln a b => Sys2Proof.Machine.execCln a b s
  | .hr a => Sys2Proof.Machine.execHr a s
  | .hw a => Sys2Proof.Machine.execHw a s
  | .rr a => Sys2Proof.Machine.execRr a s
  | .fwds a b => Sys2Proof.Machine.execFwds a b s
  | .fwdx a b => Sys2Proof.Machine.execFwdx a b s
  | .fwdh a b => Sys2Proof.Machine.execFwdh a b s
  | .inv a b => Sys2Proof.Machine.execInv a b s
  | .rcl a b => Sys2Proof.Machine.execRcl a b s
  | .data a b => Sys2Proof.Machine.execData a b s
  | .nodata a b => Sys2Proof.Machine.execNodata a b s
  | .ack a b => Sys2Proof.Machine.execAck a b s
  | .cqAppend a b => Sys2Proof.Machine.execCqAppend a b s
  | .cqPortRead a => Sys2Proof.Machine.execCqPortRead a s
  | .cqTimerNotify a => Sys2Proof.Machine.execCqTimerNotify a s
  | .correctedError a => Sys2Proof.Machine.execCorrectedError a s
  | .uncorrectableError a b => Sys2Proof.Machine.execUncorrectableError a b s
  | .fenceRequest a => Sys2Proof.Machine.execFenceRequest a s
  | .taskgWrite a b => Sys2Proof.Machine.execTaskgWrite a b s
  | .dieFreqChange a b => Sys2Proof.Machine.execDieFreqChange a b s
  | .checkpointStart a => Sys2Proof.Machine.execCheckpointStart a s
  | .checkpointStreamReceive a b c d => Sys2Proof.Machine.execCheckpointStreamReceive a b c d s
  | .registerWrite a b c => Sys2Proof.Machine.execRegisterWrite a b c s
  | .tlainTimeout a => Sys2Proof.Machine.execTlainTimeout a s
  | .dmaRead a b c d => Sys2Proof.Machine.execDmaRead a b c d s
  | .dmaWrite a b c d => Sys2Proof.Machine.execDmaWrite a b c d s
  | .atsTranslationRequest a b c d => Sys2Proof.Machine.execAtsTranslationRequest a b c d s
  | .pageRequest a b c d => Sys2Proof.Machine.execPageRequest a b c d s
  | .msiWrite a b c => Sys2Proof.Machine.execMsiWrite a b c s
  | .nop a => Sys2Proof.Machine.execNop a s
  | .bra a => Sys2Proof.Machine.execBra a s
  | .brx a => Sys2Proof.Machine.execBrx a s
  | .call a => Sys2Proof.Machine.execCall a s
  | .callx a => Sys2Proof.Machine.execCallx a s
  | .ret a => Sys2Proof.Machine.execRet a s
  | .exit a => Sys2Proof.Machine.execExit a s
  | .jarmSet a => Sys2Proof.Machine.execJarmSet a s
  | .jarmAdd a => Sys2Proof.Machine.execJarmAdd a s
  | .jarmClr a => Sys2Proof.Machine.execJarmClr a s
  | .jarmLoad a => Sys2Proof.Machine.execJarmLoad a s
  | .rejoin a => Sys2Proof.Machine.execRejoin a s
  | .yield a => Sys2Proof.Machine.execYield a s
  | .pause a => Sys2Proof.Machine.execPause a s
  | .brk a => Sys2Proof.Machine.execBrk a s
  | .plop3 a => Sys2Proof.Machine.execPlop3 a s
  | .pmovTor a => Sys2Proof.Machine.execPmovTor a s
  | .pmovFromr a => Sys2Proof.Machine.execPmovFromr a s
  | .vote a => Sys2Proof.Machine.execVote a s
  | .match_ a => Sys2Proof.Machine.execMatch a s
  | .movsp a => Sys2Proof.Machine.execMovsp a s
  | .iadd a => Sys2Proof.Machine.execIadd a s
  | .isub a => Sys2Proof.Machine.execIsub a s
  | .iadd3 a => Sys2Proof.Machine.execIadd3 a s
  | .imul a => Sys2Proof.Machine.execImul a s
  | .imad a => Sys2Proof.Machine.execImad a s
  | .idiv a => Sys2Proof.Machine.execIdiv a s
  | .imnmx a => Sys2Proof.Machine.execImnmx a s
  | .iabs a => Sys2Proof.Machine.execIabs a s
  | .ineg a => Sys2Proof.Machine.execIneg a s
  | .idp4 a => Sys2Proof.Machine.execIdp4 a s
  | .bool3 a => Sys2Proof.Machine.execBool3 a s
  | .shl a => Sys2Proof.Machine.execShl a s
  | .shr a => Sys2Proof.Machine.execShr a s
  | .shf a => Sys2Proof.Machine.execShf a s
  | .rot a => Sys2Proof.Machine.execRot a s
  | .popc a => Sys2Proof.Machine.execPopc a s
  | .clz a => Sys2Proof.Machine.execClz a s
  | .brev a => Sys2Proof.Machine.execBrev a s
  | .bfe a => Sys2Proof.Machine.execBfe a s
  | .bfi a => Sys2Proof.Machine.execBfi a s
  | .isetp a => Sys2Proof.Machine.execIsetp a s
  | .sel a => Sys2Proof.Machine.execSel a s
  | .mov a => Sys2Proof.Machine.execMov a s
  | .movi a => Sys2Proof.Machine.execMovi a s
  | .lea a => Sys2Proof.Machine.execLea a s
  | .bysel a => Sys2Proof.Machine.execBysel a s
  | .tlut a => Sys2Proof.Machine.execTlut a s
  | .xlane a => Sys2Proof.Machine.execXlane a s
  | .rdlane a => Sys2Proof.Machine.execRdlane a s
  | .fadd a => Sys2Proof.Machine.execFadd a s
  | .fmul a => Sys2Proof.Machine.execFmul a s
  | .ffma a => Sys2Proof.Machine.execFfma a s
  | .fmnmx a => Sys2Proof.Machine.execFmnmx a s
  | .fsetp a => Sys2Proof.Machine.execFsetp a s
  | .frnd a => Sys2Proof.Machine.execFrnd a s
  | .fdiv a => Sys2Proof.Machine.execFdiv a s
  | .fsqrt a => Sys2Proof.Machine.execFsqrt a s
  | .frcp a => Sys2Proof.Machine.execFrcp a s
  | .frsq a => Sys2Proof.Machine.execFrsq a s
  | .fex2 a => Sys2Proof.Machine.execFex2 a s
  | .flg2 a => Sys2Proof.Machine.execFlg2 a s
  | .fsin a => Sys2Proof.Machine.execFsin a s
  | .fcos a => Sys2Proof.Machine.execFcos a s
  | .fclass a => Sys2Proof.Machine.execFclass a s
  | .hdot2 a => Sys2Proof.Machine.execHdot2 a s
  | .f2f a => Sys2Proof.Machine.execF2f a s
  | .f2i a => Sys2Proof.Machine.execF2i a s
  | .i2f a => Sys2Proof.Machine.execI2f a s
  | .cvq a => Sys2Proof.Machine.execCvq a s
  | .cvd a => Sys2Proof.Machine.execCvd a s
  | .amax a => Sys2Proof.Machine.execAmax a s
  | .sample a => Sys2Proof.Machine.execSample a s
  | .actld a => Sys2Proof.Machine.execActld a s
  | .actswap a => Sys2Proof.Machine.execActswap a s
  | .act a => Sys2Proof.Machine.execAct a s
  | .rng a => Sys2Proof.Machine.execRng a s
  | .ld a => Sys2Proof.Machine.execLd a s
  | .st a => Sys2Proof.Machine.execSt a s
  | .lds a => Sys2Proof.Machine.execLds a s
  | .sts a => Sys2Proof.Machine.execSts a s
  | .ldw a => Sys2Proof.Machine.execLdw a s
  | .ldmx a => Sys2Proof.Machine.execLdmx a s
  | .stmx a => Sys2Proof.Machine.execStmx a s
  | .pref a => Sys2Proof.Machine.execPref a s
  | .cmaintClean a => Sys2Proof.Machine.execCmaintClean a s
  | .cmaintClinv a => Sys2Proof.Machine.execCmaintClinv a s
  | .msrowCopy a => Sys2Proof.Machine.execMsrowCopy a s
  | .msrowZero a => Sys2Proof.Machine.execMsrowZero a s
  | .msbank a => Sys2Proof.Machine.execMsbank a s
  | .fork a => Sys2Proof.Machine.execFork a s
  | .rdv a => Sys2Proof.Machine.execRdv a s
  | .tcopy a => Sys2Proof.Machine.execTcopy a s
  | .mma a => Sys2Proof.Machine.execMma a s
  | .accopAlloc a => Sys2Proof.Machine.execAccopAlloc a s
  | .accopZero a => Sys2Proof.Machine.execAccopZero a s
  | .accopFree a => Sys2Proof.Machine.execAccopFree a s
  | .accrd a => Sys2Proof.Machine.execAccrd a s
  | .accwr a => Sys2Proof.Machine.execAccwr a s
  | .coll a => Sys2Proof.Machine.execColl a s
  | .atom a => Sys2Proof.Machine.execAtom a s
  | .atoms a => Sys2Proof.Machine.execAtoms a s
  | .red a => Sys2Proof.Machine.execRed a s
  | .lr a => Sys2Proof.Machine.execLr a s
  | .sc a => Sys2Proof.Machine.execSc a s
  | .fence a => Sys2Proof.Machine.execFence a s
  | .fencer a => Sys2Proof.Machine.execFencer a s
  | .barArrive a => Sys2Proof.Machine.execBarArrive a s
  | .barWait a => Sys2Proof.Machine.execBarWait a s
  | .barSync a => Sys2Proof.Machine.execBarSync a s
  | .barDrop a => Sys2Proof.Machine.execBarDrop a s
  | .barRemote a => Sys2Proof.Machine.execBarRemote a s
  | .seqwait a => Sys2Proof.Machine.execSeqwait a s
  | .seqwaitTry a => Sys2Proof.Machine.execSeqwaitTry a s
  | .seqadd a => Sys2Proof.Machine.execSeqadd a s
  | .pegw a => Sys2Proof.Machine.execPegw a s
  | .pegwG a => Sys2Proof.Machine.execPegwG a s
  | .pegr a => Sys2Proof.Machine.execPegr a s
  | .pegctlArm a => Sys2Proof.Machine.execPegctlArm a s
  | .pegctlClear a => Sys2Proof.Machine.execPegctlClear a s
  | .pegctlDisarm a => Sys2Proof.Machine.execPegctlDisarm a s
  | .redw a => Sys2Proof.Machine.execRedw a s
  | .qpushRsv a => Sys2Proof.Machine.execQpushRsv a s
  | .qpushCmt a => Sys2Proof.Machine.execQpushCmt a s
  | .qpushRsvTry a => Sys2Proof.Machine.execQpushRsvTry a s
  | .qpop a => Sys2Proof.Machine.execQpop a s
  | .qpopRet a => Sys2Proof.Machine.execQpopRet a s
  | .qpopTry a => Sys2Proof.Machine.execQpopTry a s
  | .spawn a => Sys2Proof.Machine.execSpawn a s
  | .trap a => Sys2Proof.Machine.execTrap a s
  | .eret a => Sys2Proof.Machine.execEret a s
  | .ctlr a => Sys2Proof.Machine.execCtlr a s
  | .ctlw a => Sys2Proof.Machine.execCtlw a s
  | .pendingResultReady a b c => Sys2Proof.Machine.execPendingResultReady a b c s
  | .undefinedOp a b => Sys2Proof.Machine.execUndefinedOp a b s
  | .reservedMajor a => Sys2Proof.Machine.execReservedMajor a s
  | .refusedTranslationCommand a => Sys2Proof.Machine.execRefusedTranslationCommand a s
  | .refusedPreemptionCommand a => Sys2Proof.Machine.execRefusedPreemptionCommand a s
  | .powerOff => Sys2Proof.Machine.execPowerOff s
  | .powerLimit => Sys2Proof.Machine.execPowerLimit s
  | .linkTraining a b c => Sys2Proof.Machine.execLinkTraining a b c s
  | .flitReplay a => Sys2Proof.Machine.execFlitReplay a s

end Sys2Proof.Machine
end

