-- ==== Sys2Proof/Machine/Harts.lean ====
section
/-! DEFINITION. The accesses of application cores through the shared tables: loads, stores, fetches, AMO, LR, SC, FENCE,
SFENCE.VMA and CBO; their instructions are RVA23's own (R68, R255, R287, log 12). -/

namespace Sys2Proof.Machine

/-! ### Translation (R68) -/

/-- The translation state of an application core. -/
def State.hart (s : State) (h : Nat) : Hart := s.out.harts.get h {}
/-- Change it. -/
def State.updHart (s : State) (h : Nat) (f : Hart → Hart) : State :=
  { s with out := { s.out with harts := s.out.harts.upd h {} f } }

/-- MODE 14 of satp, its ASID as a space, and the root that its PPN names. -/
def Hart.on (x : Hart) : Bool := bitsN x.satp.toNat 60 4 = 14
def Hart.asp (x : Hart) : Nat := bitsN x.satp.toNat 44 16
def Hart.root (x : Hart) : Nat := bitsN x.satp.toNat 0 44 / 8 * 32768

/-- Does the U bit of a page, lazy or not, keep a user-mode access out (R53, R54)? -/
def State.userBarred (s : State) (x : Hart) (user : Bool) (va : W64) : Bool :=
  user && (match (State.findLeaf 2 s x.root va).2 with
    | some (_, _, e) => !pteU e
    | none => false)

/-- The walk of an application core: it widens a private page that it touches (R287). -/
def State.hartWalk (s : State) (x : Hart) (va : W64) (a : Access) : State × WalkRes :=
  match State.walkTable 2 s x.root x.asp va a none with
  | (s, .widen) => State.walkTable 2 (s.widenAt x.root x.asp va none) x.root x.asp va a none
  | r => r

/-- The translation of an application core's address: from its TLB, or by a walk that it keeps. -/
def hartXlate (h : Nat) (user : Bool) : Xlator := fun s va a =>
  let x := s.hart h
  if 2 ^ 51 ≤ va.toNat then (s, .fail va a 0)
  else match x.tlb.find? (fun t => t.covers x.asp va && t.serves a none) with
    | some t => if user && !t.u then (s, .fail va a 2) else (s, .ok (t.addr va, t.cls))
    | none =>
      if s.userBarred x user va then (s, .fail va a 2)
      else match s.hartWalk x va a with
        | (s, .ok t) => (s.updHart h (fun y => { y with tlb := tlbPut t y.tlb }), .ok (t.addr va, t.cls))
        | (s, .fail r) => (s, .fail va a r)
        | (s, _) => (s, .fail va a 6)

/-- A core takes part when it is present and in MODE 14; another mode is RVA23's own (log 12). -/
def State.hartOn (s : State) (h : Nat) : Bool := decide (h < 72) && s.hartPresent h && (s.hart h).on

/-- An access of a core that cannot be made ends in a page fault of its kind: 0 load, 1 store or AMO, 2 fetch; or waits while
the page migrates (R68, R361). -/
def State.pageFault (s t : State) (r kind : Nat) : State := if r = 6 then s else t.tell [1, BitVec.ofNat 8 kind]

/-! ### Accesses (R255, R287) -/

/-- A load of an application core, or a fetch: its bytes, or the page fault that it takes. -/
def State.hostLoad (s : State) (h : Nat) (user : Bool) (acc : Access) (va : W64) (n : Nat) : State :=
  if !s.hartOn h then s
  else match State.busRead (n / 128 + 3) s (.core h) (hartXlate h user) acc va n with
    | (t, .ok (b, p)) => t.tell (0 :: (if p then 1 else 0) :: b)
    | (t, .fail _ _ r) => s.pageFault t r (if acc = .fetch then 2 else 0)

/-- A store of an application core. -/
def State.hostStore (s : State) (h : Nat) (user : Bool) (va : W64) (b : List Byte) : State :=
  if !s.hartOn h then s
  else match s.busWrite (.core h) (hartXlate h user) va b with
    | (t, .ok _) => t
    | (t, .fail _ _ r) => s.pageFault t r 1

/-- The line operations of CBO.CLEAN (not `inv`), CBO.FLUSH and CBO.INVAL; a lazy page is skipped (R206, R287). -/
def State.hostMaint (s : State) (h : Nat) (user : Bool) (va : W64) (inv : Bool) : State :=
  if !s.hartOn h then s
  else if 2 ^ 51 ≤ va.toNat then s.tell [1, 1]
  else match State.findLeaf 2 s (s.hart h).root va with
    | (_, some (_, _, e)) =>
      if !pteV e then s
      else match hartXlate h user s va .read with
        | (s, .ok (pa, cls)) => if cls = 3 then s else s.maintLines inv (pa / 128 * 128) cls 128
        | (t, .fail _ _ r) => s.pageFault t r 1
    | (_, none) => s.tell [1, 1]

/-- The place of an AMO, LR or SC of 4 or 8 bytes: an address not aligned to them, and one of stack 15, is an access fault. -/
def State.hostPlace (s : State) (h : Nat) (user : Bool) (va : W64) (n : Nat) (acc : Access)
    (k : State → Nat → Nat → State) : State :=
  if !s.hartOn h then s
  else if va.toNat % n ≠ 0 || (n ≠ 4 && n ≠ 8) then s.tell [1, 3]
  else match hartXlate h user s va acc with
    | (t, .ok (pa, cls)) => if isIo pa then t.tell [1, 3] else k t pa cls
    | (t, .fail _ _ r) => s.pageFault t r (if acc = .read then 0 else 1)

/-- The new value of a RISC-V AMO: swap, add, xor, and, or, min, max, minu, maxu. -/
def amoNew (op w old x : Nat) : Nat :=
  match op with
  | 0 => x
  | 1 => (old + x) % 2 ^ w
  | 2 => old ^^^ x
  | 3 => old &&& x
  | 4 => old ||| x
  | 5 => pickInt w true false old x
  | 6 => pickInt w true true old x
  | 7 => pickInt w false false old x
  | _ => pickInt w false true old x

/-- An AMO of an application core, whatever its aq and rl: a core performs its accesses in order (R255). -/
def State.hostAmo (s : State) (h : Nat) (user : Bool) (op : Nat) (va : W64) (n : Nat) (x : W64) : State :=
  s.hostPlace h user va n .atomic (fun s pa cls =>
    let (s, y, bad) := s.busLine (.core h) cls (pa / 128)
    let old := leNat (lineBytes y (pa % 128) n)
    let s := if bad then s else s.busPut (.core h) cls pa (leBytes n (amoNew op (8 * n) old (x.toNat % 256 ^ n)))
    s.tell (0 :: (if bad then 1 else 0) :: leBytes n old))

/-- The reservation of an application core stands beside those of warps and contexts (R261). -/
def hartResv (h line agent : Nat) : Resv := { g := 160 + h, line := line, agent := agent }

/-- A core's reservation goes. -/
def State.dropHartResv (s : State) (h : Nat) : State :=
  s.updMem (fun m => { m with resv := m.resv.filter (fun r => r.g ≠ 160 + h) })

/-- LR of an application core. -/
def State.hostLr (s : State) (h : Nat) (user : Bool) (va : W64) (n : Nat) : State :=
  s.hostPlace h user va n .read (fun s pa cls =>
    let (s, y, bad) := s.busLine (.core h) cls (pa / 128)
    let s := (s.dropHartResv h).updMem (fun m => { m with resv := m.resv ++ [hartResv h (pa / 128) (s.agentId 8)] })
    s.tell (0 :: (if bad then 1 else 0) :: lineBytes y (pa % 128) n))

/-- SC of an application core: 0 when its reservation stands. -/
def State.hostSc (s : State) (h : Nat) (user : Bool) (va : W64) (n : Nat) (x : W64) : State :=
  s.hostPlace h user va n .write (fun s pa cls =>
    let won := s.mem.resv.any (fun r => r.g = 160 + h && r.line = pa / 128)
    let s := if won then s.busPut (.core h) cls pa (leBytes n x.toNat) else s
    (s.dropHartResv h).tell [0, 0, if won then 0 else 1])

/-- FENCE of an application core, of system scope: it ends once the core's accesses are performed, its requests to other packages
and its appends among them (R255, R286, R317). -/
def State.hostFence (s : State) (h : Nat) : State :=
  if s.hartPresent h && !s.fenceLate 7 { kind := 7, a := h } then s.tell [9, BitVec.ofNat 8 h] else s

/-- SFENCE.VMA acts on the core that issues it alone, for an address, a space, or all (R68). -/
def State.hostSfence (s : State) (h : Nat) (va : Option W64) (asid : Option Nat) : State :=
  if !s.hartPresent h then s
  else
    let hit := fun (t : Tlb) =>
      (match asid with | some a => t.aspace = a | none => true)
        && (match va with | some v => t.inRange false t.aspace (some (v.toNat / 32768, 1)) | none => true)
    s.updHart h (fun x => { x with tlb := x.tlb.filter (fun t => !hit t) })

/-- A write of satp (R68). -/
def State.hostSatp (s : State) (h : Nat) (v : W64) : State :=
  if s.hartPresent h then s.updHart h (fun x => { x with satp := v }) else s

end Sys2Proof.Machine
end

