-- ==== Sys2Proof/Machine/Pairs.lean ====
section
/-! DEFINITION. The halves of pairs (R84 to R86). -/

namespace Sys2Proof.Machine

/-- What an instruction that may be half of a pair computes. -/
def aluOf (i : Instr) : Option Alu :=
  match i with
  | .iadd _ => some aluIadd
  | .isub _ => some aluIsub
  | .iadd3 _ => some aluIadd3
  | .imul _ => some aluImul
  | .imad _ => some aluImad
  | .imnmx _ => some aluImnmx
  | .iabs _ => some aluIabs
  | .ineg _ => some aluIneg
  | .bool3 _ => some aluBool3
  | .shl _ => some aluShl
  | .shr _ => some aluShr
  | .shf _ => some aluShf
  | .rot _ => some aluRot
  | .popc _ => some aluPopc
  | .clz _ => some aluClz
  | .brev _ => some aluBrev
  | .bfe _ => some aluBfe
  | .bfi _ => some aluBfi
  | .isetp _ => some aluIsetp
  | .sel _ => some aluSel
  | .mov _ => some aluMov
  | .lea _ => some aluLea
  | .idp4 _ => some aluIdp4
  | .bysel _ => some aluBysel
  | .fadd _ => some aluFadd
  | .fmul _ => some aluFmul
  | .ffma _ => some aluFfma
  | .fmnmx _ => some aluFmnmx
  | .fsetp _ => some aluFsetp
  | .frnd _ => some aluFrnd
  | .f2f _ => some aluF2f
  | .f2i _ => some aluF2i
  | .i2f _ => some aluI2f
  | .fclass _ => some aluFclass
  | .hdot2 _ => some aluHdot2
  | _ => none

/-- A pair issues as one instruction (R85). -/
def State.runPair (s : State) (i j : Instr) : State :=
  match aluOf i, aluOf j with
  | some f, some h => s.issuePair i j f h
  | _, _ => s

end Sys2Proof.Machine
end

