-- ==== Sys2Proof/Machine/Turns.lean ====
section
/-! DEFINITION. The units that act: groups at their issue ports, contexts, sequencers, processors, agents, and what comes
from outside (R33, R64, R72 to R74, R87, R94, R101, R214, R303). -/

namespace Sys2Proof

/-- Events that happen whether or not the package has booted (R353 to R355, R358, R360). -/
def Instr.atBoot (i : Instr) : Bool :=
  match i with
  | .bootVerifyStart | .bootDiscard | .freeze | .getVersion _ | .getCapabilities _ | .negotiateAlgorithms _ | .getDigests _
  | .getCertificate _ | .challenge _ | .getMeasurements _ _ => true
  | _ => false

/-- Power-on, power-off and reset (R353, R358, R360). -/
def Instr.isPower (i : Instr) : Bool :=
  match i with
  | .powerOn | .powerOff | .reset => true
  | _ => false

/-- Is an operation one that a party fetches, and no event of its own? -/
def Instr.isFetched (i : Instr) : Bool :=
  match i with
  | .cEnd _ _ | .cLaunch _ _ | .cLaunchInd _ _ | .cWaitseq _ _ | .cAddseq _ _ | .cWrite _ _ | .cLoop _ _ | .cEndloop _ _
  | .cIf _ _ | .cElse _ _ | .cEndif _ _ | .cCallstream _ _ | .cFence _ _ | .cIntr _ _ | .undefinedOp _ _ | .reservedMajor _
  | .invalidateRange _ | .invalidateAspace _ | .invalidateAll _ | .movePage _ | .refusedTranslationCommand _ | .save _
  | .restore _ | .refusedPreemptionCommand _ => true
  | _ => i.ops.isSome

end Sys2Proof

namespace Sys2Proof.Machine

/-- The hub performs the writes to stack 15 that engines have sent it, in their order (R49). -/
def State.hubWrites (s : State) : State :=
  s.out.posted.foldl (fun (s : State) e => s.ioWrite e.1 e.2.1 e.2.2 none) { s with out := { s.out with posted := [] } }

/-- An abort that waited for its warp's other group takes place once no group has still to issue (R96, R297). -/
def State.doomed (s : State) : State :=
  match s.doom, s.ports with
  | some d, [] => State.abortBlock { s with doom := none } d.who.g d.blk d.code (some d.who)
  | _, _ => s

/-- Is the package up: powered, not frozen, and booted (R353, R358)? -/
def State.up (s : State) : Bool := s.power = .running && s.boot.stat = 4

/-- Time passes before a step: in a package that is up a put-off abort takes place, the hub writes and full cache sets give up
lines (R49, R96, R119, R191, log 3); in a freeze no clock runs (R358). Power, boot and the issue ports are no part of it. -/
def State.tick (s : State) : State :=
  if s.power = .running then
    let t := if s.up then s.doomed.hubWrites.trim else s
    { t with power := s.power, boot := s.boot, ports := s.ports
             ticks := s.ticks + 1
             ns := s.ns + Config.elapsedNs s.ticks
             clk := (List.range 8).foldl (fun m d => m.put d (s.cycles d + Config.elapsedCycles s.ticks d)) s.clk }
  else { s with ticks := s.ticks + 1 }

/-! ### A party issues -/

/-- The places of a formed group that can still issue: those that stand, ready, at its PC. -/
def State.issuers (s : State) (c : Issuer) : List Nat :=
  c.places.filter (fun l => s.stands c l && s.readyAt c l && s.pcOf c l = c.pc)

/-- What stands at the PC of a party is executed: an instruction, a pair, or a decode failure (R84, R87). A pad word is left
only by a fetch that has skipped as many as it can. -/
def State.runDecoded (s : State) (c : Issuer) (d : Decoded) : Out :=
  match d with
  | .one i n => exec i { s with cur := { c with len := n } }
  | .two i j => .next (State.runPair { s with cur := { c with len := 16 } } i j)
  | .pad _ => .next s
  | .reserved w => exec (.reservedMajor w) { s with cur := c }
  | .illegal w => .next (s.illegal c 1 w)
  | .illegalPair w => .next (s.illegal c 2 w)

/-- The exclusions of YIELD on a core end when it issues a group: of another warp, or another of the same (R113). -/
def State.endYields (s : State) (c : Issuer) : State :=
  match c.unit with
  | .lane => s.updCl c.g (fun k => { k with warps := k.warps.mapv (fun j w =>
      if j / 16 ≠ c.slot / 16 then w
      else { w with lanes := w.lanes.mapv (fun _ x => match x.hold with | .yield _ => { x with hold := .free } | _ => x) }) })
  | _ => s

/-- Places stand past the pad words that their fetch has skipped (R73). -/
def State.pastPads (s : State) (c d : Issuer) : State :=
  if d.pc = c.pc then s else c.places.foldl (fun (s : State) l => s.setPc c l d.pc) s

/-- A party issues what stands at its PC; a page without a translation makes it wait for a walk (R48, R72 to R74, R87). -/
def State.issueFrom (s : State) (c : Issuer) : Out :=
  if 2 ^ 51 ≤ c.pc.toNat then .next (s.raise c { code := 9, lanes := c.places, addr := c.pc, info := 0xFFFF })
  else if c.pc.toNat % 4 ≠ 0 then .next (s.raise c { code := 7, lanes := c.places, addr := c.pc })
  else match s.fetch c with
    | none => .next (s.missWalk c c.places [(c.pc, .fetch, 0)])
    | some d => (s.endYields c).runDecoded c d

/-- A party issues what stands at its PC, pad words skipped (R73, R94). -/
def State.issueAt (s : State) (c : Issuer) : Out :=
  let d := s.skipPads padGranules c
  (s.pastPads c d).issueFrom d

/-- A group that a vote has formed issues (R94). -/
def State.issueGroup (s : State) (c : Issuer) : Out :=
  match s.issuers c with
  | [] => .next s
  | ls => s.issueAt (match c.unit with | .lane => { c with group := lanesMask ls } | _ => c)

/-! ### Units that fetch for themselves -/

/-- Contexts of a spine core in the order in which it serves them, after the one that issued last (R101). -/
def State.spineOrder (s : State) (g : Nat) : List Nat :=
  (List.range 4).map (fun k => ((s.cl g).spineLast + 1 + k) % 4)

/-- A spine core serves its next ready context: the context takes a cause that waits for it, or issues (R101, R293). -/
def State.spineTurn (s : State) (g : Nat) : Out :=
  let ready := fun k => (s.spine g k).live && s.readyAt { unit := .spine, g := g, slot := k } 0
  match (s.spineOrder g).find? ready with
  | none => .next s
  | some k =>
    let s := s.updCl g (fun c => { c with spineLast := k })
    match s.deliverCause g (s.spine g k).blk with
    | some t => .next t
    | none => s.issueAt { unit := .spine, g := g, slot := k, pc := (s.spine g k).pc }

/-- A sequencer in RUN issues when nothing holds it (R213, R214). -/
def State.seqTurn (s : State) (g which : Nat) : Out :=
  let c : Issuer := { unit := if which = 0 then .mseq else .cseq, g := g, pc := (s.seqr g (which ≠ 0)).pc }
  if s.stands c 0 && s.readyAt c 0 then s.issueAt c else .next s

/-- A command processor that is present serves its next queue (R33, R346). -/
def State.cmdTurn (s : State) (p : Nat) : Out :=
  if decide (p < 16) && (s.ctlOf 0 0x12B).getLsbD (36 + p) then
    match s.nextCmdQueue p with
    | none => .next s
    | some q =>
      match s.fetchCmd p q with
      | (s, some i) => exec i s
      | (s, none) => .next s
  else .next s

/-- The translation agent takes the next command of its ring, with at most 64 in flight (R64). -/
def State.xlTurn (s : State) : Out :=
  let h := s.xl.xlHead
  if h < s.pkgReg 0x10F && s.xl.invals.length < 64 then
    let (s, b) := s.physRead (s.pkgReg 0x10D + 32 * (h % 2 ^ s.pkgReg 0x10E)) 32
    exec (decodeXl (BitVec.ofNat 256 (leNat b))) { s with xl := { s.xl with xlHead := h + 1 } }
  else .next s

/-- The pre-emption agent carries out the next command of its ring, once the one before has ended (R303). -/
def State.pmTurn (s : State) : Out :=
  let h := s.eng.pmHead
  if h < s.pkgReg 0x112 && s.eng.save.isNone then
    let (s, b) := s.physRead (s.pkgReg 0x110 + 64 * (h % 2 ^ s.pkgReg 0x111)) 64
    exec (decodePm (BitVec.ofNat 512 (leNat b))) s
  else .next s

/-! ### Turns -/

/-- One event or unit acts. Before the package has booted only the hub and the management port do; in a freeze or without
power nothing but reset and power does (R353, R358, R360). -/
def State.turn (s : State) (t : Config.Turn) : Out :=
  match t with
  | .op i =>
    if i.isFetched then .next s
    else if i.isPower || (i.atBoot && s.power = .running) || s.up then exec i s
    else .next s
  | .stage off b => if s.power = .running then .next (s.stageWrite off b) else .next s
  | .bootLen v => if s.power = .running then .next (s.bootLenWrite v) else .next s
  | .bootLoad off n => if s.power = .off then .next s else .next (s.tell (8 :: leBytes n (s.bootRead off n)))
  | .spine g => if s.up then s.spineTurn g else .next s
  | .seq g w => if s.up then s.seqTurn g w else .next s
  | .cmd p => if s.up then s.cmdTurn p else .next s
  | .xl => if s.up then s.xlTurn else .next s
  | .pm => if s.up then s.pmTurn else .next s
  | .pmStop g b => if s.up then .next (s.stopBlock g b) else .next s
  | .evictL1 g line => if s.up then .next (s.flushL1 g line) else .next s
  | .evictAgent slot line => if s.up then .next (s.evictAgent slot line) else .next s
  | .maint i => if s.up then .next (s.maintNext i) else .next s
  | .hostSatp h v => if s.up then .next (s.hostSatp h v) else .next s
  | .hostLoad h user va n => if s.up then .next (s.hostLoad h user .read va n) else .next s
  | .hostFetch h user va n => if s.up then .next (s.hostLoad h user .fetch va n) else .next s
  | .hostStore h user va b => if s.up then .next (s.hostStore h user va b) else .next s
  | .hostMaint h user va inv => if s.up then .next (s.hostMaint h user va inv) else .next s
  | .hostAmo h user op va n x => if s.up then .next (s.hostAmo h user op va n x) else .next s
  | .hostLr h user va n => if s.up then .next (s.hostLr h user va n) else .next s
  | .hostSc h user va n x => if s.up then .next (s.hostSc h user va n x) else .next s
  | .hostFence h => if s.up then .next (s.hostFence h) else .next s
  | .hostSfence h va asid => if s.up then .next (s.hostSfence h va asid) else .next s
  | .bifurcate port n => if s.up then .next (s.bifurcate port n) else .next s
  | .linkIde port on => if s.up then .next (s.setLinkIde port on) else .next s
  | .ideStream port k on => if s.up then .next (s.setIdeStream port k on) else .next s
  | .upset line w x => if s.up then .next (s.updMem (fun m => m.upset line w x)) else .next s
  | .ioLoad off n => if s.up then .next (s.tell (6 :: leBytes n (s.ioRead off n))) else .next s
  | .ioStore off n v => if s.up then .next (s.ioWrite off n v.toNat none) else .next s
  | .doorbell q reg v => if s.up then .next (s.doorbell q.toNat reg v) else .next s
  | .doorbellLoad q => if s.up then .next (s.tell [7, BitVec.ofNat 8 (s.queue q.toNat).stat]) else .next s

end Sys2Proof.Machine
end

