-- ==== Sys2Proof/Machine/Step.lean ====
section
/-! DEFINITION. One step of the package, and the placing of an instruction where the next step fetches it. -/

namespace Sys2Proof.Machine

/-- One step: a group that a vote has formed issues; otherwise the agenda names the unit that acts, or the free order
does (log 2). -/
def step (s : State) : Host.Outcome State Fault Refusal :=
  let s := s.tick
  match s.up, s.ports with
  | true, c :: r => State.issueGroup { s with ports := r } c
  | _, _ =>
    match s.agenda with
    | t :: r => State.turn { s with agenda := r } t
    | [] => s.turn (Config.nextTurn s.ticks)

/-- The party that runs a table word: the first of lane, spine, matrix and copy sequencer code that decodes it. -/
def wordUnit (nbits w : Nat) : Unit :=
  let ws := tableWords nbits w
  let one := fun u => match decode u ws with | .one _ _ => true | _ => false
  if one .lane then .lane else if one .spine then .spine else if one .mseq then .mseq else if one .cseq then .cseq
  else .lane

/-- The state with an instruction where the next step fetches it: its words in a code page that cluster 0 holds a
translation for, a block of cluster 0 with a party that stands there, and that party at its issue port. -/
def State.withFetchWord (s : State) (nbits w : Nat) : State :=
  let u := wordUnit nbits w
  let bytes := leBytes 32 (w % 2 ^ nbits)
  let c : Issuer := { unit := u, g := 0, slot := 0, group := 0xFFFFFFFF, pc := 0x8080 }
  let img : Image := { base := 0x8000, codeSize := 0x7000, warpEnt := 0x80, spineEnt := 0x80, trapEnt := 0x80, bx := 32
                       budget := 32, pegs := 256, regg := 1, spg := 1, accg := 1 }
  let blk : Block := { img := img, pegMap := List.range 256, granules := [0, 1, 2], slots := [0], spineCtx := some 0 }
  let lane : Lane := { live := true, pc := 0x8080 }
  let code : Tlb := { aspace := 0, vpn := 1, pa := s.pkgId * 2 ^ 40 + 0x8000, r := true, x := true }
  let tlb := s.xl.ctlb.upd 0 [] (fun l => code :: l)
  let s := { s with xl := { s.xl with ctlb := tlb } }
  let s := s.updMem (fun m => { m with bytes := Bytes.putAll m.bytes (s.pkgId * 2 ^ 40 + 0x8080) bytes })
  let s := s.updCl 0 (fun k => { k with
    blocks := k.blocks.put 0 blk
    warps := k.warps.put 0 { blk := some 0, lanes := lanes32.map (fun l => (l, lane)) }
    spines := k.spines.put 0 { blk := 0, live := true, pc := 0x8080 }
    mseq := { st := .run, blk := 0, pc := 0x8080 }
    cseq := { st := .run, blk := 0, pc := 0x8080 } })
  { s with ports := [c], boot := { s.boot with stat := 4 } }

end Sys2Proof.Machine
end

