-- ==== Sys2Proof/Safety.lean ====
section
/-! DEFINITION. The terms claims are stated in: when an operation issues, what a register reads as, and what an operation
leaves alone. -/

namespace Sys2Proof

/-- A state whose next step goes on. -/
def Runs (s : Machine.State) : Prop := ∃ t, Machine.step s = .next t

namespace Machine

/-- An operation or event answers a next state of which something holds. -/
def Gives (i : Instr) (s : State) (P : State → Prop) : Prop := ∃ t, exec i s = .next t ∧ P t

/-! ### When an operation issues (R87) -/

/-- The current party issues an operation past every check: a well-formed operation, no operand beyond its allocation, at least one active place,
fewer than 8 results pending in each active lane when its latency is variable, no register that it writes pending, and
every peg it reads full. `u` is the state after the counted peg reads and `pv` the pegs' values. -/
structure Issues (s : State) (i : Instr) (o : Ops) (hz : Issuer → Nat → List RegUse) (ls : List Nat) (u : State)
    (pv : PegVals) : Prop where
  ops : i.ops = some o
  wf : WellFormed s.cur.code i = true
  unit : s.cur.unit = .lane ∨ s.cur.unit = .spine ∨ s.cur.unit = .mseq ∨ s.cur.unit = .cseq
  early : s.earlyFail s.cur (uses s.cur.code i) = none
  room : varLat i (uses s.cur.code i) = true → s.cur.unit = .lane →
    ∀ l ∈ ls, (s.warp s.cur.g s.cur.slot).pendCount l < 8
  active : s.active s.cur o = ls
  some_ : ls ≠ []
  hazard : s.hazard s.cur ls (hz s.cur) = none
  pegs : s.pegReads s.cur (uses s.cur.code i) = .ok (u, pv)

/-- The writes that a table of fields gives. -/
abbrev fieldWrites (i : Instr) : Issuer → Nat → List RegUse := fun c => plainWrites (uses c.code i)

/-- No lane of the party's warp has a result pending or is parked: a switch point changes nothing (R98). -/
def Calm (s : State) (c : Issuer) : Prop :=
  (s.warp c.g c.slot).pend = [] ∧ ∀ l, (s.lane c.g c.slot l).hold ≠ .park

/-- What an operation that only forms registers and predicates computes in its active places. -/
def resultOf (i : Instr) : Option Alu :=
  match i with
  | .plop3 _ => some (perLane plop3One)
  | .pmovTor _ => some (perValue (fun _ => 0) (fun s c _ _ l => (BitVec.ofNat 64 (s.predBits c l), 0)))
  | .vote _ => some voteAlu
  | .match_ _ => some matchAlu
  | .movsp _ => some (perLane movspOne)
  | .idiv _ => some aluIdiv
  | .movi _ => some aluMovi
  | .tlut _ => some aluTlut
  | .xlane _ => some xlaneAlu
  | .rdlane _ => some rdlaneAlu
  | .fdiv _ => some aluFdiv
  | .fsqrt _ => some aluFsqrt
  | .frcp _ => some (approxAlu 0)
  | .frsq _ => some (approxAlu 1)
  | .fex2 _ => some (approxAlu 2)
  | .flg2 _ => some (approxAlu 3)
  | .fsin _ => some (approxAlu 4)
  | .fcos _ => some (approxAlu 5)
  | .cvq _ => some aluCvq
  | .cvd _ => some aluCvd
  | .amax _ => some aluAmax
  | .sample _ => some aluSample
  | .act _ => some aluAct
  | .rng _ => some aluRng
  | .ctlr _ => some (perValue (fun _ => 2) (fun s c o _ l => (s.ctlRead c l (ctlNumber o), 0)))
  | _ => aluOf i

/-- A party of a block or of a wave, which has a word of flags (R137). -/
def Housed (s : State) (c : Issuer) : Prop := (s.waveOf c).isSome = true ∨ (s.blkOf c).isSome = true

/-! ### Registers -/

/-- A register or predicate of a party as 64 bits. -/
def State.reads (s : State) (c : Issuer) (f : RFile) (r l : Nat) : W64 :=
  match f with
  | .v => (s.v c.g c.slot l r).setWidth 64
  | .w => (s.w c.g c.slot r).setWidth 64
  | .s => s.sreg c.g c.slot r
  | .e => s.ereg c.g c.isCopy r
  | .p => if s.pred c l r then 1 else 0
  | .pg => 0

/-- Does a write concern register r of a file in a lane? -/
def PWrite.hits (x : PWrite) (c : Issuer) (f : RFile) (r l : Nat) : Bool :=
  decide (f = x.file ∧ r = x.idx ∧ (f = .v ∨ (f = .p ∧ c.unit = .lane) → l = x.lane))

/-- What a write leaves in its register; s0 stays zero (R79). -/
def PWrite.value (x : PWrite) : W64 :=
  match x.file with
  | .v | .w => (lo32 x.val).setWidth 64
  | .s => if x.idx = 0 then 0 else x.val
  | .e => x.val
  | .p => if x.val ≠ 0 then 1 else 0
  | .pg => 0

/-- A register after some writes: the last of them that concerns it, or its old value. -/
def afterWrites (xs : List PWrite) (c : Issuer) (f : RFile) (r l : Nat) (old : W64) : W64 :=
  xs.foldl (fun v x => if x.hits c f r l then x.value else v) old

/-- A register number that a party's file has: 16 predicates, 4 in a sequencer; s0 is a constant (R79). -/
def hasReg (c : Issuer) (f : RFile) (r : Nat) : Prop :=
  match f with
  | .p => (c.unit = .lane ∧ r < 16) ∨ (c.unit = .spine ∧ r < 16) ∨ (c.isSeq = true ∧ r < 4)
  | _ => True

/-! ### Frames -/

/-- A lane without what it computes with: its registers, predicates, PC and hold. -/
def Lane.rest (x : Lane) : Lane := { x with v := [], p := 0, pc := 0, hold := .free, waitOnly := false, passed := false }
/-- A warp without its lanes, uniform registers, pending results and flags. -/
def Warp.rest (w : Warp) : Warp :=
  { w with lanes := [], w := [], pend := [], wave := w.wave.map (fun v => { v with fpflags := 0 }) }
/-- A context without its registers, predicates, PC and hold. -/
def Spine.rest (x : Spine) : Spine := { x with s := [], p := 0, pc := 0, hold := .free, waitOnly := false }
/-- A sequencer without its registers, predicates, PC and hold. -/
def Seqr.rest (q : Seqr) : Seqr := { q with e := [], p := 0, pc := 0, hold := .free }
/-- A block without its flags. -/
def Block.rest (b : Block) : Block := { b with fpflags := 0 }
/-- A cluster without its parties, blocks and pegs. -/
def Cluster.rest (k : Cluster) : Cluster :=
  { k with warps := [], spines := [], mseq := {}, cseq := {}, blocks := [], pegs := [] }

/-- Nothing has changed but registers, predicates, PCs, holds, pending results and flags of one party, and pegs of its
cluster: all of memory, every control register, queue and engine, every other cluster, party, group and block, and the
frame, rejoin masks and statuses of its own warp or context stand as they did. -/
structure Untouched (s t : State) (c : Issuer) : Prop where
  package : { t with clusters := [] } = { s with clusters := [] }
  others : ∀ g, g ≠ c.g → t.cl g = s.cl g
  cluster : (t.cl c.g).rest = (s.cl c.g).rest
  blocks : ∀ b, (t.block c.g b).rest = (s.block c.g b).rest
  warps : ∀ k, k ≠ c.slot ∨ c.unit ≠ .lane → t.warp c.g k = s.warp c.g k
  warp : (t.warp c.g c.slot).rest = (s.warp c.g c.slot).rest
  lanes : ∀ l, (t.lane c.g c.slot l).rest = (s.lane c.g c.slot l).rest
  spines : ∀ k, k ≠ c.slot ∨ c.unit ≠ .spine → t.spine c.g k = s.spine c.g k
  spine : (t.spine c.g c.slot).rest = (s.spine c.g c.slot).rest
  mseq : c.unit ≠ .mseq → (t.cl c.g).mseq = (s.cl c.g).mseq
  mseqRest : (t.cl c.g).mseq.rest = (s.cl c.g).mseq.rest
  cseq : c.unit ≠ .cseq → (t.cl c.g).cseq = (s.cl c.g).cseq
  cseqRest : (t.cl c.g).cseq.rest = (s.cl c.g).cseq.rest

/-- Registers, predicates, flags, pegs and pending results are as they were, and so is everything else but PCs and
holds. -/
structure Keeps (s t : State) (c : Issuer) : Prop where
  reads : ∀ (f : RFile) (r l : Nat), t.reads c f r l = s.reads c f r l
  flags : t.fpflags c = s.fpflags c
  pend : (t.warp c.g c.slot).pend = (s.warp c.g c.slot).pend
  pegs : (t.cl c.g).pegs = (s.cl c.g).pegs
  frame : Untouched s t c

/-- Each active place goes to an address of its own, held by nothing; the standing places of the group whose guard fails
stand after the instruction; other lanes have not moved. -/
structure Moves (s t : State) (c : Issuer) (ls : List Nat) (len : Nat) (to_ : Nat → W64) : Prop where
  active : ∀ l ∈ ls, t.pcOf c l = to_ l ∧ t.holdOf c l = .free
  passed : ∀ l ∈ c.places, l ∉ ls → s.stands c l = true → t.pcOf c l = c.pc + BitVec.ofNat 64 len ∧ t.holdOf c l = .free
  others : ∀ l, c.unit = .lane → l ∉ c.places → t.pcOf c l = s.pcOf c l ∧ t.holdOf c l = s.holdOf c l

/-- Nothing has changed outside the party's cluster, nor in the party's registers. -/
structure Elsewhere (s t : State) (c : Issuer) : Prop where
  package : { t with clusters := [] } = { s with clusters := [] }
  others : ∀ g, g ≠ c.g → t.cl g = s.cl g
  regs : ∀ (f : RFile) (r l : Nat), t.reads c f r l = s.reads c f r l

/-- Nothing outside one warp has changed. -/
structure WarpOnly (s t : State) (c : Issuer) : Prop where
  package : { t with clusters := [] } = { s with clusters := [] }
  others : ∀ g, g ≠ c.g → t.cl g = s.cl g
  cluster : (t.cl c.g).rest = (s.cl c.g).rest
  blocks : ∀ b, t.block c.g b = s.block c.g b
  pegs : (t.cl c.g).pegs = (s.cl c.g).pegs
  warps : ∀ k, k ≠ c.slot → t.warp c.g k = s.warp c.g k
  spines : ∀ k, t.spine c.g k = s.spine c.g k
  mseq : (t.cl c.g).mseq = (s.cl c.g).mseq
  cseq : (t.cl c.g).cseq = (s.cl c.g).cseq

/-- An operation without peg operands issues: every check passes and these places are active. -/
abbrev Plain (s : State) (i : Instr) (o : Ops) (ls : List Nat) : Prop := Issues s i o (fieldWrites i) ls s []

/-- The operation answers the state that its effect and the advance of its group give; `keep` are the places whose PC the
effect has set. -/
def Does (s : State) (i : Instr) (o : Ops) (ls : List Nat) (t : State) (keep : List Nat) : Prop :=
  exec i s = .next (t.finish s.cur o.sw ls o.form.bytes keep)

/-- The party goes on at an address: its standing places stand there, held by nothing; its other lanes have not moved. -/
structure Advances (s t : State) (c : Issuer) (pc : W64) : Prop where
  moved : ∀ l ∈ c.places, s.stands c l = true → t.pcOf c l = pc ∧ t.holdOf c l = .free
  others : ∀ l, c.unit = .lane → l ∉ c.places → t.pcOf c l = s.pcOf c l ∧ t.holdOf c l = s.holdOf c l

/-- Some places of a party stand in its handler in trap mode, with the frame filled (R295, R296). -/
structure InHandler (s t : State) (c : Issuer) (ls : List Nat) (fr : Frame) : Prop where
  modes : ∀ l ∈ ls, t.inTrap c l = true ∧ t.holdOf c l = .free
    ∧ t.pcOf c l = (s.blockOf c).img.base + BitVec.ofNat 64 (s.blockOf c).img.trapEnt
  frame : t.frameOf c = fr
  elsewhere : Elsewhere s t c

/-- A party of a block that can take a cause: the block has a handler, the frame is free, and none of these places is in
trap mode or held (R293, R295). -/
structure CanEnter (s : State) (c : Issuer) (ls : List Nat) : Prop where
  unit : c.unit = .lane ∨ c.unit = .spine
  noWave : s.waveOf c = none
  blk : (s.blkOf c).isSome = true
  handler : (s.blockOf c).img.trapEnt ≠ 0
  free : (s.frameOf c).busy = false
  modes : ∀ l ∈ ls, s.inTrap c l = false ∧ s.holdOf c l = .free

/-- A party that can take a cause, with no result pending. -/
structure CanTrap (s : State) (c : Issuer) (ls : List Nat) : Prop extends CanEnter s c ls where
  pend : (s.warp c.g c.slot).pend = []

/-- What an issue of some active places leaves alone in the other places of its group: those that stand advance. -/
def Passes (s t : State) (c : Issuer) (ls : List Nat) (len : Nat) : Prop :=
  ∀ l ∈ c.places, l ∉ ls → s.stands c l = true → t.pcOf c l = c.pc + BitVec.ofNat 64 len ∧ t.holdOf c l = .free

/-! ### What a whole effect leaves alone -/

/-- No party's registers, predicates, flags, PC, hold or pending results have changed. -/
structure Undisturbed (s t : State) : Prop where
  reads : ∀ (c : Issuer) (x : RFile) (k l : Nat), t.reads c x k l = s.reads c x k l
  flags : ∀ c, t.fpflags c = s.fpflags c
  pend : ∀ g k, (t.warp g k).pend = (s.warp g k).pend
  pcs : ∀ c l, t.pcOf c l = s.pcOf c l
  holds : ∀ c l, t.holdOf c l = s.holdOf c l

/-- Only memory, what waits for counters, and the counts of migration have changed: every cluster, queue, translation,
engine, launch, control register and register of the package stands. -/
structure MemoryOnly (s t : State) : Prop where
  clusters : t.clusters = s.clusters
  xl : { t.xl with mig := [], migPhase := [], waiters := [] } = { s.xl with mig := [], migPhase := [], waiters := [] }
  work : { t.work with table := [] } = { s.work with table := [] }
  package : { t with mem := {}, xl := {}, work := {} } = { s with mem := {}, xl := {}, work := {} }

/-- Pieces of local memory: not of stack 15, not of another package. -/
def Local (s : State) (ps : List Piece) : Prop := ∀ p ∈ ps, s.isLocal p.pa = true ∧ isIo p.pa = false

/-- The operation answers the state that its effect and the advance of its group give; `keep` are the places whose PC the
effect has set, or that issue the operation again. -/
def DoesBut (s : State) (i : Instr) (o : Ops) (ls : List Nat) (t : State) (keep : List Nat) : Prop :=
  exec i s = .next (t.finish s.cur o.sw (ls.filter (fun l => !keep.contains l)) o.form.bytes keep)

/-! ### Accesses -/

/-- The requests of LD and ST: every active place, its address and its bytes (R198). -/
def State.reqsAB (s : State) (c : Issuer) (o : Ops) (ls : List Nat) : List Req := ls.map (fun l => ⟨l, s.addrAB c o l, opBytes o⟩)

/-- The requests of atomics: every active place, the address in A, and the bytes (R259). -/
def State.reqsA (s : State) (c : Issuer) (o : Ops) (ls : List Nat) (n : Nat) : List Req := ls.map (fun l => ⟨l, s.opA c o l true, n⟩)

/-- The loads of LD in place order: the state they leave, the register writes, and the poison that places met. -/
def State.loadAll (s : State) (c : Issuer) (o : Ops) (qs : List (Req × List Piece)) : State × List PWrite × Map W64 :=
  qs.foldl (fun (s, ws, ps) q =>
    let (s, b, bad) := s.readReq (s.waiting c [q.1.lane]) c.g (hintL2 o) q.2
    (s, ws ++ loadWrites (fileD c o) o.d.toNat q.1.lane (o.sub % 8) (leNat b),
      match bad with | some a => Map.put ps q.1.lane a | none => ps)) (s, [], [])

/-- The places of some stores, each with its pieces and the bytes that it writes (R197). -/
def State.storeArgs (s : State) (c : Issuer) (o : Ops) (qs : List (Req × List Piece)) : List (Nat × List Piece × List Byte) :=
  qs.map (fun q => (q.1.lane, q.2, leBytes (opBytes o) (s.storeVal c (fileBC c o o.cs) o.c.toNat q.1.lane (o.sub % 8))))

/-- The bytes that each place's store writes (R197). -/
def State.stores (s : State) (c : Issuer) (o : Ops) (qs : List (Req × List Piece)) : List (List Piece × List Byte) :=
  qs.map (fun q => (q.2, leBytes (opBytes o) (s.storeVal c (fileBC c o o.cs) o.c.toNat q.1.lane (o.sub % 8))))

/-- The byte that a load by a cluster reads at a physical address of a page class. -/
def State.byteFor (s : State) (g cls pa : Nat) : Byte :=
  lineByte (s.loadLine g cls (pa / 128) (byteMask (pa % 128) 1) false).2.1 (pa % 128)

/-- The byte that some stores leave at an address: the last of them that reaches it. -/
def lastByte (xs : List (List Piece × List Byte)) (pa : Nat) (old : Byte) : Byte :=
  xs.foldl (fun b x => x.1.foldl (fun b p =>
    if p.pa ≤ pa ∧ pa < p.pa + p.n then (x.2.drop p.at_).getD (pa - p.pa) 0 else b) b) old

/-- A line about which no message is in flight, no request is being carried out, and of which DRAM holds no error. -/
def Quiet (s : State) (line : Nat) : Prop :=
  (∀ m ∈ s.mem.msgs, m.line ≠ line) ∧ s.mem.txns.find? line = none ∧ s.mem.upsets.find? line = none

/-- The request that a home carries out for a line concerns that line. -/
def TxnsNamed (s : State) : Prop := ∀ e ∈ s.mem.txns, e.2.req.line = e.1

/-- Nothing of a line has changed: its bytes in DRAM, its sideband, and every copy of it. -/
structure SameLine (s t : State) (line : Nat) : Prop where
  dram : t.mem.dram line = s.mem.dram line
  side : t.mem.sideOf line = s.mem.sideOf line
  agents : ∀ slot, t.mem.cline slot line = s.mem.cline slot line
  buffers : ∀ slot, t.mem.wb.find? (agKey slot line) = s.mem.wb.find? (agKey slot line)
  l1s : ∀ g, t.mem.l1Line g line = s.mem.l1Line g line

/-! ### Waits -/

/-- The operation blocks some places on an object: they stay at it, held; the others of its group go on. -/
def Waits (s : State) (i : Instr) (o : Ops) (ls : List Nat) (kind : Nat) (obj : WaitObj) (sync : Bool) : Prop :=
  Does s i o ls (s.blockOn s.cur ls kind obj o.form.bytes o.sw sync) ls

/-! ### Commands of a queue (R33, R34) -/

/-- The processor's queue takes the command of a header: no body is being skipped, and the header has the LEN of the command
and a FLAGS and ARG that it admits. -/
structure TakesCmd (s : State) (h : W64) (len flags args : Nat) : Prop where
  open_ : ∀ n r, (s.queue s.cur.slot).nest = n :: r → n.skips = none
  len : cmdLen h = len
  flags : cmdFlags h ≤ flags
  args : cmdArg h ≤ args

/-- The command ends, in a state that its effect gives, and its queue moves on by some words. -/
def CmdEnds (s : State) (i : Instr) (t : State) (n : Nat) : Prop := exec i s = .next (t.cmdDone s.cur.slot n)

/-- The command stops its queue with a code. -/
def CmdStops (s : State) (i : Instr) (t : State) (code : Nat) : Prop := exec i s = .next (t.cmdStop s.cur.slot code)

/-- Every command, with the LEN, FLAGS and ARG it admits (R34). -/
def commandTable (h : W64) (ws : List W64) : List (Instr × Nat × Nat × Nat) :=
  [(.cEnd h ws, 1, 0, 0), (.cLaunch h ws, 9, 0, 0), (.cLaunchInd h ws, 9, 0, 0), (.cWaitseq h ws, 3, 1, 0),
   (.cAddseq h ws, 3, 1, 0), (.cWrite h ws, 3, 1, 0), (.cLoop h ws, 2, 0, 0), (.cEndloop h ws, 1, 0, 0), (.cIf h ws, 3, 0, 5),
   (.cElse h ws, 1, 0, 0), (.cEndif h ws, 1, 0, 0), (.cCallstream h ws, 2, 0, 0), (.cFence h ws, 1, 1, 0), (.cIntr h ws, 2, 0, 0)]

/-- Two states agree on every queue but one. -/
def OtherQueues (s t : State) (q : Nat) : Prop := ∀ k, k ≠ q → t.queue k = s.queue k

/-! ### Completions of events -/

/-- The words of a 64-bit value and then more (R6). -/
def wordsOfNat (xs : List Nat) : List W32 := xs.flatMap (fun x => words64 (BitVec.ofNat 64 x))

/-- A word decodes, in the code of a unit, to this operation of so many bytes. -/
def Decodes (u : CodeUnit) (ws : List W32) (i : Instr) : Prop :=
  ∃ n, decode u ws = .one i n ∧ ∀ o, i.ops = some o → n = o.form.bytes

/-! ### The values of integers and bits (R123, R143) -/

/-- Element k, of w bits, of a value. -/
def part (w k : Nat) (x : W64) : BitVec w := x.extractLsb' (w * k) w

/-- A value of n elements of w bits. -/
def ofParts (w n : Nat) (f : Nat → BitVec w) : W64 := (List.range n).foldl (fun r k => r ||| ((f k).setWidth 64 <<< (w * k))) 0

/-- A value by its bits. -/
def ofBits (f : Nat → Bool) : W64 := (BitVec.ofBoolListLE ((List.range 64).map f)).setWidth 64

/-- The width, number and signedness of the elements of an integer type (R81). -/
def intShape (ty : Nat) : Nat × Nat × Bool :=
  match ty with
  | 0 => (32, 1, false)
  | 1 => (32, 1, true)
  | 2 => (64, 1, false)
  | 3 => (64, 1, true)
  | 8 => (8, 4, false)
  | 9 => (8, 4, true)
  | 10 => (16, 2, false)
  | _ => (16, 2, true)

/-- The integer that some bits stand for: two's complement or unsigned (R123). -/
def num {w : Nat} (sg : Bool) (x : BitVec w) : Int := if sg then x.toInt else x.toNat

/-- An integer held between the least and the greatest of w bits (R145). -/
def held (w : Nat) (sg : Bool) (i : Int) : Int :=
  if sg then min (max i (-(2 ^ (w - 1)))) (2 ^ (w - 1) - 1) else min (max i 0) (2 ^ w - 1)

/-- An operation on each element of two values of an integer type. -/
def eachPart (ty : Nat) (f : (w : Nat) → Bool → BitVec w → BitVec w → BitVec w) (a b : W64) : W64 :=
  ofParts (intShape ty).1 (intShape ty).2.1 (fun k => f _ (intShape ty).2.2 (part _ k a) (part _ k b))

/-- An operation on the one element of each of two values of an integer type. -/
def onWhole (ty : Nat) (f : (w : Nat) → Bool → BitVec w → BitVec w → W64) (a b : W64) : W64 :=
  f (intShape ty).1 (intShape ty).2.2 (part _ 0 a) (part _ 0 b)

/-- IMUL and IMAD (R147). -/
def madOf (o : Ops) (a b c : W64) : W64 :=
  onWhole o.ty (fun w sg x y =>
    let p := num sg x * num sg y
    match o.sub with
    | 0 => (BitVec.ofInt w (p + (part w 0 c).toNat)).setWidth 64
    | 1 => (BitVec.ofInt w (p / 2 ^ w + (part w 0 c).toNat)).setWidth 64
    | _ => BitVec.ofInt 64 (p + c.toNat)) a b

/-- A field of a value that is extended without limit (R157). -/
def fieldOf (w : Nat) (sg : Bool) (x : BitVec w) (pos len : Nat) : BitVec w :=
  if sg then ((x.signExtend 512).extractLsb' pos len).signExtend w else ((x.setWidth 512).extractLsb' pos len).setWidth w

/-- A result formed from A, B and C alone: the types under which they are read, the type of the result, and its value. -/
structure ValueOp where
  aty : Nat
  bty : Nat
  cty : Nat
  out : Nat
  val : W64 → W64 → W64 → W64

/-- The results of the integer, shift, bit and move operations, as R145 to R163 word them. -/
def valueOp (i : Instr) : Option ValueOp :=
  match i with
  | .iadd o => some ⟨o.ty, o.ty, 0, o.ty, fun a b _ => eachPart o.ty (fun w sg x y =>
      BitVec.ofInt w (if o.sub = 1 then held w sg (num sg x + num sg y) else num sg x + num sg y)) a b⟩
  | .isub o => some ⟨o.ty, o.ty, 0, o.ty, fun a b _ => eachPart o.ty (fun w sg x y =>
      BitVec.ofInt w (if o.sub = 1 then held w sg (num sg x - num sg y) else num sg x - num sg y)) a b⟩
  | .iadd3 o => some ⟨o.ty, o.ty, o.ty, o.ty, fun a b c => a + b + c⟩
  | .imul o => some ⟨o.ty, o.ty, 0, if o.sub = 2 then 2 else o.ty, fun a b _ => madOf o a b 0⟩
  | .imad o => some ⟨o.ty, o.ty, if o.sub = 2 then 3 else o.ty, if o.sub = 2 then 2 else o.ty, madOf o⟩
  | .imnmx o => some ⟨o.ty, o.ty, 0, o.ty, fun a b _ => eachPart o.ty (fun _ sg x y =>
      if (num sg x ≤ num sg y) = (o.sub = 0) then x else y) a b⟩
  | .iabs o => some ⟨o.ty, 0, 0, o.ty, fun a _ _ => eachPart o.ty (fun w sg x _ =>
      BitVec.ofInt w (if o.sub = 1 then held w sg (num sg x).natAbs else (num sg x).natAbs)) a a⟩
  | .ineg o => some ⟨o.ty, 0, 0, o.ty, fun a _ _ => eachPart o.ty (fun w sg x _ =>
      BitVec.ofInt w (if o.sub = 3 then held w sg (-(num sg x)) else -(num sg x))) a a⟩
  | .idp4 o => some ⟨0, 8, 0, 0, fun a b c =>
      let p := fun k => num (o.sub % 2 = 1) (part 8 k a) * num (2 ≤ o.sub) (part 8 k b)
      (BitVec.ofInt 32 (c.toNat + p 0 + p 1 + p 2 + p 3)).setWidth 64⟩
  | .bool3 o =>
      let t := if o.m.getLsbD 0 then 2 else 0
      some ⟨t, t, t, t, fun a b c => ofBits (fun i =>
        o.m.getLsbD (1 + (4 * (a.getLsbD i).toNat + 2 * (b.getLsbD i).toNat + (c.getLsbD i).toNat)))⟩
  | .shl o => some ⟨o.ty, 0, 0, o.ty, fun a b _ => onWhole o.ty (fun w _ x _ =>
      (x <<< (if o.sub = 1 then b.toNat % w else b.toNat)).setWidth 64) a b⟩
  | .shr o => some ⟨o.ty, 0, 0, o.ty, fun a b _ => onWhole o.ty (fun w sg x _ =>
      let n := if o.sub = 1 then b.toNat % w else b.toNat
      (if sg then x.sshiftRight n else x >>> n).setWidth 64) a b⟩
  | .shf o => some ⟨o.ty, o.ty, 0, o.ty, fun a b c => onWhole o.ty (fun w _ x y =>
      let n := if 2 ≤ o.sub then c.toNat % w else min c.toNat w
      (if o.sub % 2 = 0 then ((y ++ x) <<< n).extractLsb' w w else ((y ++ x) >>> n).extractLsb' 0 w).setWidth 64) a b⟩
  | .rot o => some ⟨o.ty, 0, 0, o.ty, fun a b _ => onWhole o.ty (fun _ _ x _ =>
      (if o.sub = 0 then x.rotateLeft b.toNat else x.rotateRight b.toNat).setWidth 64) a b⟩
  | .popc o => some ⟨o.ty, 0, 0, 0, fun a _ _ => onWhole o.ty (fun w _ x _ =>
      BitVec.ofNat 64 ((List.range w).countP (fun k => x.getLsbD k))) a a⟩
  | .clz o => some ⟨o.ty, 0, 0, 0, fun a _ _ => onWhole o.ty (fun w _ x _ =>
      BitVec.ofNat 64 ((List.range w).takeWhile (fun k => !x.getMsbD k)).length) a a⟩
  | .brev o => some ⟨o.ty, 0, 0, o.ty, fun a _ _ => onWhole o.ty (fun _ _ x _ => x.reverse.setWidth 64) a a⟩
  | .bfe o => some ⟨o.ty, 0, 0, o.ty, fun a b _ => onWhole o.ty (fun w sg x _ =>
      (fieldOf w sg x (part 8 0 b).toNat (part 8 1 b).toNat).setWidth 64) a b⟩
  | .bfi o => some ⟨o.ty, o.ty, 0, o.ty, fun a b c => ofBits (fun k =>
      let pos := (part 8 0 c).toNat
      decide (k < (intShape o.ty).1) && if pos ≤ k ∧ k < pos + (part 8 1 c).toNat then b.getLsbD (k - pos) else a.getLsbD k)⟩
  | .mov o => some ⟨0, o.ty, 0, o.ty, fun _ b _ => b⟩
  | .movi o => some ⟨0, 0, 0, o.ty, fun _ _ _ =>
      if o.form = .f128 then o.ext
      else if o.ty = 2 ∨ o.ty = 3 then o.imm32.signExtend 64 else if o.ty = 7 then widenF32 o.imm32 else o.imm32.setWidth 64⟩
  | .lea o => some ⟨o.ty, 0, 0, o.ty, fun a b _ =>
      a + (if o.sub = 1 then (part 32 0 b).signExtend 64 else (part 32 0 b).setWidth 64) <<< o.c.toNat⟩
  | .bysel o => some ⟨0, 0, 0, o.ty, fun a b c => ofParts 8 4 (fun k =>
      let j := (c.extractLsb' (3 * k) 3).toNat
      let y := if j < 4 then part 8 j a else part 8 (j - 4) b
      if c.getLsbD (12 + k) then (if y.msb then 0xFF else 0) else y)⟩
  | _ => none

/-- A value as the destination's registers hold it: 64 bits of a wide type; else 32, above which an s or e register holds the
sign of an s32 result and zeros of any other (R143). -/
def heldAs (f : RFile) (ty : Nat) (x : W64) : W64 :=
  if wideTy ty then x else if (f = .s ∨ f = .e) ∧ ty = 1 then (part 32 0 x).signExtend 64 else (part 32 0 x).setWidth 64

/-- The destination as a whole: a v or w register, or the pair of a wide type, an s or e register. -/
def State.destOf (s : State) (c : Issuer) (o : Ops) (l ty : Nat) : W64 :=
  match fileD c o with
  | .s | .e => s.regOf c (fileD c o) o.d.toNat l true
  | f => s.regOf c f o.d.toNat l (wideTy ty)

/-! ### The values of floating-point operations (R120 to R135) -/

/-- The number that a magnitude code of a format stands for, as though the exponent had no bound (R120). -/
def Fmt.mag (f : Fmt) (c : Nat) : Rat :=
  if c < 2 ^ f.fb then c * (2 : Rat) ^ (1 - (f.bias : Int) - f.fb)
  else (2 ^ f.fb + c % 2 ^ f.fb : Nat) * (2 : Rat) ^ ((c / 2 ^ f.fb : Nat) - (f.bias : Int) - f.fb)

/-- How a positive number compares with each rational: what rounding it needs of it. -/
abbrev Cut := Rat → Ordering

/-- A rational. -/
def ratCut (v : Rat) : Cut := fun q => compareOfLessAndEq v q
/-- The square root of a rational. -/
def rootCut (v : Rat) : Cut := fun q => if q < 0 then .gt else compareOfLessAndEq v (q * q)
/-- One over the square root of a positive rational. -/
def invRootCut (v : Rat) : Cut := fun q => if q ≤ 0 then .gt else compareOfLessAndEq 1 (q * q * v)

/-- Does a mode take the greater of the magnitudes of codes c and c + 1, between which a number lies (R130, R131)? -/
def RMode.takesUp (r : RMode) (f : Fmt) (neg : Bool) (c : Nat) (v : Cut) : Prop :=
  let lo := f.mag c
  let hi := f.mag (c + 1)
  match r with
  | .rne => v ((lo + hi) / 2) = .gt ∨ (v ((lo + hi) / 2) = .eq ∧ c % 2 = 1)
  | .rtz => False
  | .rup => neg = false
  | .rdn => neg = true
  | .sr u n => if neg then v (hi - u * (hi - lo) / 2 ^ n) ≠ .lt else v (lo + u * (hi - lo) / 2 ^ n) = .gt

/-- Code d is that of a magnitude, of a sign, rounded with an exponent that has no bound (R130, R131). -/
def Fmt.RoundsTo (f : Fmt) (r : RMode) (neg : Bool) (v : Cut) (d : Nat) : Prop :=
  ∃ c, v (f.mag c) ≠ .lt ∧ v (f.mag (c + 1)) = .lt
    ∧ ((d = c + 1 ∧ v (f.mag c) = .gt ∧ r.takesUp f neg c v) ∨ (d = c ∧ ¬(v (f.mag c) = .gt ∧ r.takesUp f neg c v)))

/-- What stands for a rounded magnitude beyond the largest finite one (R132, R133). -/
def Fmt.overflow (f : Fmt) (r : RMode) (nw : Narrow) (neg : Bool) : Nat × Flags :=
  let largest := match nw, r with
    | .sat, _ => true
    | _, .rtz => true
    | _, .rup => neg
    | _, .rdn => !neg
    | _, _ => false
  (f.signed neg (if largest then f.maxCode else f.infCode), if nw = .sat then flOF ||| flNX ||| flSAT else flOF ||| flNX)

/-- A result is a nonzero number rounded once to a format: R132 or R133 beyond the largest finite value; a number that is tiny
after rounding gives, with FTZ, a zero with UF and NX, and raises UF beside NX without it when it is not exact (R135). It is tiny
when, with exponents below those of the format, it would round to less than the least normal number: code `e`, in which the
exponents reach one lower (log 37). -/
def Fmt.Rounded (f : Fmt) (r : RMode) (nw : Narrow) (ftz neg : Bool) (v : Cut) (x : Nat × Flags) : Prop :=
  ∃ d e, f.RoundsTo r neg v d ∧ Fmt.RoundsTo { f with bias := f.bias + 1 } r neg v e
    ∧ (f.maxCode < d → x = f.overflow r nw neg)
    ∧ (d ≤ f.maxCode → ftz = true → e < 2 ^ (f.fb + 1) → x = (f.signed neg 0, flUF ||| flNX))
    ∧ (d ≤ f.maxCode → ftz = false ∨ 2 ^ (f.fb + 1) ≤ e → x.1 = f.signed neg d
      ∧ (v (f.mag d) = .eq → x.2 = 0)
      ∧ (v (f.mag d) ≠ .eq → x.2 = if e < 2 ^ (f.fb + 1) then flNX ||| flUF else flNX))

/-- The sum of two values by IEEE 754 and R122, and its flags. -/
def sumOf (r : RMode) (x y : Fp) : Fp × Flags :=
  match x, y with
  | .nan _, _ | _, .nan _ => (.nan false, 0)
  | .inf a, .inf b => if a = b then (.inf a, 0) else (.nan false, flNV)
  | .inf a, _ => (.inf a, 0)
  | _, .inf b => (.inf b, 0)
  | .fin a m e, .fin b n k =>
    if m = 0 ∧ n = 0 then (.fin (if a = b then a else decide (r = .rdn)) 0 0, 0)
    else if m = 0 then (y, 0)
    else if n = 0 then (x, 0)
    else
      let j := min e k
      let z := scaled a m e j + scaled b n k j
      if z = 0 then (.fin (decide (r = .rdn)) 0 0, 0) else (.fin (decide (z < 0)) z.natAbs j, 0)

/-- A result of floating-point or conversion: as ValueOp, with the old value of D and the flags. -/
structure FloatOp where
  aty : Nat
  bty : Nat
  cty : Nat
  out : Nat
  val : (a b c old : W64) → W64 × Flags

/-- The width and number of the elements of any type (R81). -/
def tyShape (ty : Nat) : Nat × Nat :=
  match ty with
  | 4 => (32, 1)
  | 5 | 6 => (16, 2)
  | 7 => (64, 1)
  | 12 | 13 => (8, 4)
  | _ => ((intShape ty).1, (intShape ty).2.1)

/-- An operation on the codes of each element of three values of a floating-point type. -/
def eachFloat (ty : Nat) (g : Nat → Nat → Nat → Nat × Flags) (a b c : W64) : W64 × Flags :=
  let w := (tyShape ty).1
  let r := fun k => g (part w k a).toNat (part w k b).toNat (part w k c).toNat
  (ofParts w (tyShape ty).2 (fun k => BitVec.ofNat w (r k).1), (List.range (tyShape ty).2).foldl (fun f k => f ||| (r k).2) 0)

/-- A code read with FTZ or without: a subnormal is a zero of its sign under FTZ (R135). -/
def Fmt.readAs (f : Fmt) (ftz : Bool) (x : Nat) : Fp :=
  if ftz = true ∧ x / 2 ^ f.fb % 2 ^ f.eb = 0 then .fin (decide (2 ^ (f.eb + f.fb) ≤ x)) 0 (1 - f.bias - f.fb) else f.unpack x

/-- A signalling NaN among some operands raises NV (R122). -/
def nvOf (xs : List Fp) : Flags := if xs.any Fp.isSnan then flNV else 0

/-- An arithmetic result, rounded once, with its flags and those of its operands. -/
def rounded (o : Ops) (f : Fmt) (xs : List Fp) (r : Fp × Flags) : Nat × Flags :=
  ((f.round o.rm .arith o.ftz r.1).1, nvOf xs ||| r.2 ||| (f.round o.rm .arith o.ftz r.1).2)

/-- The lesser or greater of two codes, −0 below +0 (R170): codes of one sign are in the order of their magnitudes. -/
def pickOf (f : Fmt) (isMax : Bool) (x y : Nat) : Nat :=
  let s := 2 ^ (f.eb + f.fb)
  let key := fun (z : Nat) => if s ≤ z then (s : Int) - 1 - z else z
  if isMax then (if key x < key y then y else x) else (if key y < key x then y else x)

/-- A magnitude m × 2^e rounded to an integer (R130, R134). -/
def wholeOf (r : RMode) (neg : Bool) (m : Nat) (e : Int) : Nat :=
  if 0 ≤ e then m * 2 ^ e.toNat
  else
    let d := 2 ^ (-e).toNat
    let q := m / d
    let up := match r with
      | .rne => decide (d < 2 * (m % d)) || (2 * (m % d) = d && q % 2 = 1)
      | .rtz => false
      | .rup => !neg
      | _ => neg
    if m % d ≠ 0 ∧ up = true then q + 1 else q

/-- A value converted to an integer of w bits, clamped (R134). -/
def toWhole (w : Nat) (sg : Bool) (r : RMode) (x : Fp) : Int × Flags :=
  match x with
  | .nan _ => (0, flNV)
  | .inf neg => (held w sg (if neg then -(2 ^ 64) else 2 ^ 64), flNV)
  | .fin neg m e =>
    let i : Int := if neg then -(wholeOf r neg m e : Int) else wholeOf r neg m e
    if held w sg i = i then (i, if e < 0 ∧ m % 2 ^ (-e).toNat ≠ 0 then flNX else 0) else (held w sg i, flNV)

/-- The elements of a conversion from a type to another, some of them, by SEL; the others keep D's bits (R178). -/
def convOf (src dst sel : Nat) (g : Nat → Nat × Flags) (a old : W64) : W64 × Flags :=
  let ws := (tyShape src).1
  let wd := (tyShape dst).1
  let ns := (tyShape src).2
  let nd := (tyShape dst).2
  let from_ := fun k => if ns < nd then k % ns else k + (if nd < ns then nd * sel else 0)
  let r := fun k => g (part ws (from_ k) a).toNat
  let keeps := fun k => ns < nd ∧ k / ns ≠ sel
  (ofParts wd nd (fun k => if keeps k then part wd k old else BitVec.ofNat wd (r k).1),
    (List.range nd).foldl (fun f k => f ||| if keeps k then 0 else (r k).2) 0)

/-- The class of a code (R176). -/
def classOf (f : Fmt) (x : Nat) : Nat :=
  let neg : Bool := 2 ^ (f.eb + f.fb) ≤ x
  let c := x % 2 ^ (f.eb + f.fb)
  let top := (2 ^ f.eb - 1) * 2 ^ f.fb
  if top < c then (if c < top + 2 ^ (f.fb - 1) then 256 else 512)
  else if c = top then (if neg then 1 else 128)
  else if 2 ^ f.fb ≤ c then (if neg then 2 else 64)
  else if c ≠ 0 then (if neg then 4 else 32) else if neg then 8 else 16

/-- The narrowing that a conversion's NS selects (R133, R178). -/
def nsOf (o : Ops) : Narrow := if o.sub / 8 % 2 = 1 then .ns else .sat

/-- The results of floating-point arithmetic and conversion, as R169 to R181 word them. -/
def floatOp (i : Instr) : Option FloatOp :=
  match i with
  | .fadd o => some ⟨o.ty, o.ty, 0, o.ty, fun a b _ _ =>
      let f := fmtOf o.ty
      eachFloat o.ty (fun x y _ =>
        let p := f.readAs o.ftz x
        let q := f.readAs o.ftz y
        rounded o f [p, q] (sumOf o.rm p (if o.ng then q.negate else q))) a b 0⟩
  | .fmul o => some ⟨o.ty, o.ty, 0, o.ty, fun a b _ _ =>
      let f := fmtOf o.ty
      eachFloat o.ty (fun x y _ =>
        let p := f.readAs o.ftz x
        let q := f.readAs o.ftz y
        rounded o f [p, q] (if o.ng then (p.mul q).1.negate else (p.mul q).1, (p.mul q).2)) a b 0⟩
  | .ffma o => some ⟨o.ty, o.ty, o.ty, o.ty, fun a b c _ =>
      let f := fmtOf o.ty
      eachFloat o.ty (fun x y z =>
        let p := f.readAs o.ftz x
        let q := f.readAs o.ftz y
        let r := f.readAs o.ftz z
        let t := sumOf o.rm (p.mul q).1 (if o.ng then r.negate else r)
        rounded o f [p, q, r] (t.1, (p.mul q).2 ||| t.2)) a b c⟩
  | .fmnmx o => some ⟨o.ty, o.ty, 0, o.ty, fun a b _ _ =>
      let f := fmtOf o.ty
      let s := 2 ^ (f.eb + f.fb)
      eachFloat o.ty (fun x y _ =>
        let p := f.unpack x
        let q := f.unpack y
        let flat := fun z => if o.ftz = true ∧ z / 2 ^ f.fb % 2 ^ f.eb = 0 then z / s * s else z
        let number := o.sub / 2 % 2 = 1
        (if p.isNan then (if number ∧ q.isNan = false then flat y else f.nanCode)
          else if q.isNan then (if number then flat x else f.nanCode)
          else pickOf f (o.sub % 2 = 1) (flat x) (flat y), nvOf [p, q])) a b 0⟩
  | .fclass o => some ⟨o.ty, 0, 0, 0, fun a _ _ _ =>
      let r := fun k => BitVec.ofNat 64 (classOf (fmtOf o.ty) (part (tyShape o.ty).1 k a).toNat)
      (if (tyShape o.ty).2 = 2 then r 0 ||| r 1 <<< 16 else r 0, 0)⟩
  | .frnd o => some ⟨o.ty, 0, 0, o.ty, fun a _ _ _ =>
      let f := fmtOf o.ty
      eachFloat o.ty (fun x _ _ => match f.readAs o.ftz x with
        | .nan sg => (f.nanCode, if sg then flNV else 0)
        | .inf neg => (f.signed neg f.infCode, 0)
        | .fin neg m e => ((f.round .rne .arith false (.fin neg (wholeOf o.rm neg m e) 0)).1, 0)) a 0 0⟩
  | .fdiv o => some ⟨o.ty, o.ty, 0, o.ty, fun a b _ _ =>
      let f := fmtOf o.ty
      eachFloat o.ty (fun x y _ => rounded o f [f.readAs o.ftz x, f.readAs o.ftz y] ((f.readAs o.ftz x).div (f.readAs o.ftz y))) a b 0⟩
  | .fsqrt o => some ⟨o.ty, 0, 0, o.ty, fun a _ _ _ =>
      let f := fmtOf o.ty
      eachFloat o.ty (fun x _ _ => rounded o f [f.readAs o.ftz x] (f.readAs o.ftz x).sqrt) a 0 0⟩
  | .f2f o => some ⟨o.c.toNat % 16, 0, 0, o.ty, fun a _ _ old =>
      let st := o.c.toNat % 16
      let ftz : Bool := 16 ≤ o.sub
      convOf st o.ty (o.c.toNat / 16 % 4) (fun x =>
        let v := (fmtOf st).readAs (ftz && ftzTy st) x
        let y := (fmtOf o.ty).round o.rm (if widens st o.ty then .arith else nsOf o) (ftz && ftzTy o.ty) v
        (y.1, y.2 ||| nvOf [v])) a old⟩
  | .f2i o => some ⟨o.c.toNat % 16, 0, 0, o.ty, fun a _ _ old =>
      let w := (intShape o.ty).1
      convOf (o.c.toNat % 16) o.ty (o.c.toNat / 16 % 4) (fun x =>
        let y := toWhole w (intShape o.ty).2.2 o.rm ((fmtOf (o.c.toNat % 16)).readAs (16 ≤ o.sub) x)
        ((BitVec.ofInt w y.1).toNat, y.2)) a old⟩
  | .i2f o => some ⟨o.c.toNat % 16, 0, 0, o.ty, fun a _ _ old =>
      let st := o.c.toNat % 16
      convOf st o.ty (o.c.toNat / 16 % 4) (fun x =>
        let v := num (intShape st).2.2 (BitVec.ofNat (intShape st).1 x)
        (fmtOf o.ty).round o.rm (nsOf o) false (.fin (v < 0) v.natAbs 0)) a old⟩
  | _ => none

/-- The ulp of R174 about a positive number, and whether a result lies within one. -/
def WithinUlp (v : Cut) (y : Rat) : Prop :=
  ∃ e : Int, v (2 ^ e) ≠ .lt ∧ v (2 ^ (e + 1)) = .lt ∧
    let u := (2 : Rat) ^ (max e (-126) - 23)
    v (y - u) ≠ .lt ∧ v (y + u) ≠ .gt

/-- Does a result lie within n ulp (R174) of a number? -/
def NearReal (n : Nat) (x : ℝ) (y : Rat) : Prop :=
  ∃ e : Int, (2 : ℝ) ^ e ≤ |x| ∧ |x| < 2 ^ (e + 1) ∧ |(y : ℝ) - x| ≤ n * (2 : ℝ) ^ (max e (-126) - 23)

/-- FADD, FMIN and FMAX on memory, on elements of a floating-point type (R258). -/
def atomFloatOf (ty sub : Nat) (old b : W64) : W64 :=
  let f := fmtOf ty
  (eachFloat ty (fun x y _ =>
    (if sub = 9 then (f.round .rne .arith false (sumOf .rne (f.unpack x) (f.unpack y)).1).1
      else if (f.unpack x).isNan ∨ (f.unpack y).isNan then f.nanCode
      else pickOf f (sub = 11) x y, 0)) old b 0).1

/-! ### The values of exchanges, reductions and tables -/

/-- The sum of some values by R122, exact, and its flags (R138). -/
def totalOf (r : RMode) (xs : List Fp) : Fp × Flags :=
  if xs.any Fp.isNan then (.nan false, 0)
  else if xs.contains (.inf false) ∧ xs.contains (.inf true) then (.nan false, flNV)
  else match xs.find? (fun x => !x.isFin) with
    | some x => (x, 0)
    | none =>
      let exps := xs.map (fun x => match x with | .fin _ m e => if m = 0 then 10000 else e | _ => 10000)
      let j : Int := exps.foldl min 10000
      let z : Int := (xs.map (fun x => match x with | .fin a m e => if m = 0 then (0 : Int) else scaled a m e j | _ => 0)).sum
      let signs := xs.map Fp.neg
      let zero := if xs.all Fp.isZero ∧ signs.all (fun a => a == signs.headD false) then signs.headD false else decide (r = .rdn)
      (if z = 0 then .fin zero 0 0 else .fin (decide (z < 0)) z.natAbs j, 0)

/-- A value rounded to FP32 (R130, R132). -/
def toF32 (r : RMode) (ftz : Bool) (x : Fp × Flags) : Nat × Flags :=
  ((fp32.round r .arith ftz x.1).1, x.2 ||| (fp32.round r .arith ftz x.1).2)

/-! ### Tiles, conversions and collectives -/

/-- The value of a code of an operand type: BF16, FP16, E4M3, E5M2, INT8, E2M1 (R224, R229). -/
def operandVal (t code : Nat) : Fp :=
  if t = 4 then
    let i := num true (BitVec.ofNat 8 code)
    .fin (decide (i < 0)) i.natAbs 0
  else ([bf16, fp16, e4m3, e5m2, e4m3, e2m1].getD t e2m1).unpack code

/-- The code of element k of K-row r of a canonical region, of whose byte at each offset it is told (R221). -/
def codeAt (byte : Nat → Byte) (t r k : Nat) : Nat :=
  let bp := if t ≤ 1 then 2 * k else if t = 5 then k / 2 else k
  let at_ := 64 * r + 16 * ((bp / 16) ^^^ (r % 4)) + bp % 16
  if t ≤ 1 then (byte at_).toNat + 256 * (byte (at_ + 1)).toNat
  else if t = 5 then (byte at_).toNat / 16 ^ (k % 2) % 16
  else (byte at_).toNat

/-- An operand tile in a share: its base, type, rows, and the K of the MMA. -/
structure Operand where
  base : Nat
  t : Nat
  rows : Nat
  k : Nat

/-- Element k of row r of an operand. -/
def Operand.code (x : Operand) (b : Block) (r k : Nat) : Nat := codeAt (fun i => b.scratchAt (x.base + i)) x.t r k

/-- The scale of row r and K-group kg: behind the K-rows, and 1 for a 16-bit type (R222). -/
def Operand.scale (x : Operand) (b : Block) (r kg : Nat) : Fp :=
  if x.t ≤ 1 then .fin false 1 0
  else fp32.unpack (leNat ((List.range 4).map (fun i => b.scratchAt (x.base + (64 * x.rows + 4 * (r * (x.k / 32) + kg)) + i))))

/-- K of an MMA of two types, and the group size (R139, R230). -/
def kOf (ta tb : Nat) : Nat × Nat :=
  if ta ≤ 1 ∨ tb ≤ 1 then (32, 8) else if ta = 5 ∧ tb = 5 then (128, 32) else (64, 32)

/-- The operands of an MMA: M rows of A and N of B, or N / 2 in complex mode (R230). -/
def MatCmd.operands (q : MatCmd) : Operand × Operand :=
  let x := mmaForm q.ext
  let k := (kOf x.ta x.tb).1
  (⟨q.slotA, x.ta, x.m, k⟩, ⟨q.slotB, x.tb, if x.cplx then x.n / 2 else x.n, k⟩)

/-- A value rounded to FP32 to nearest. -/
def f32Of (x : Fp × Flags) : W32 × Flags := (BitVec.ofNat 32 (toF32 .rne false x).1, (toF32 .rne false x).2)

/-- A sum in FP32. -/
def addF32 (a b : W32) : W32 × Flags := f32Of (sumOf .rne (fp32.unpack a.toNat) (fp32.unpack b.toNat))

/-- Element (m, n) that an MMA leaves over an old one (R139, R140, R142): by groups of G along K, the exact sum of the products
(of a column's part, in complex mode), times the two scales, rounded once, and added, rounded once. -/
def MatCmd.cellOf (q : MatCmd) (b : Block) (old : W32) (m n : Nat) : W32 × Flags :=
  let x := mmaForm q.ext
  let row := if x.cplx then n / 2 else n
  let G := (kOf x.ta x.tb).2
  let oa := q.operands.1
  let ob := q.operands.2
  let A := fun k => operandVal x.ta (oa.code b m k)
  let B := fun k => operandVal x.tb (ob.code b row k)
  let terms := fun (g : Nat) =>
    if x.cplx = false then (List.range G).map (fun i => (g * G + i, g * G + i, false))
    else (List.range (G / 2)).flatMap (fun i =>
      let re := g * G + 2 * i
      let im := re + 1
      if n % 2 = 0 then [(re, re, false), (im, im, true)] else [(re, im, false), (im, re, false)])
  (List.range ((kOf x.ta x.tb).1 / G)).foldl (fun acc g =>
    let ps := (terms g).map (fun p => ((A p.1).mul (B p.2.1), p.2.2))
    let t := totalOf .rne (ps.map (fun p => if p.2 then p.1.1.negate else p.1.1))
    let sa := oa.scale b m (g * G / 32)
    let sb := ob.scale b row (g * G / 32)
    let u := t.1.mul sa
    let y := f32Of (u.1.mul sb)
    let z := addF32 acc.1 y.1
    (z.1, acc.2 ||| t.2 ||| u.2 ||| y.2 ||| z.2 ||| ps.foldl (fun f p => f ||| p.1.2) 0
      ||| nvOf (fp32.unpack acc.1.toNat :: sa :: sb :: (terms g).flatMap (fun p => [A p.1, B p.2.1])))) (old, 0)

/-- Element (m, n) that an MMA in integer mode leaves over an old one (R141). -/
def MatCmd.wholeCell (q : MatCmd) (b : Block) (old : W32) (m n : Nat) : W32 :=
  let e := fun (x : Operand) r k => num true (BitVec.ofNat 8 (x.code b r k))
  BitVec.ofInt 32 (old.toInt + ((List.range 64).map (fun k => e q.operands.1 m k * e q.operands.2 n k)).sum)

/-- A value times 2^k. -/
def Fp.scaled2 (x : Fp) (k : Int) : Fp :=
  match x with
  | .fin a m e => .fin a m (e + k)
  | y => y

/-- The element formats of the codes 7 to 11 of R224. -/
def mxFmt (f : Nat) : Fmt := [e4m3, e5m2, e2m3, e3m2, e2m1].getD (f - 7) e2m1

/-- What a wire carries of y to a receiver (R238). -/
def wireOf (wire : Nat) (sq sd y : W32) : W32 :=
  if wire = 0 then y
  else
    let f := if wire = 1 then bf16 else if wire = 2 then e4m3 else e5m2
    let z := (f32Of ((fp32.unpack y.toNat).mul (fp32.unpack sq.toNat))).1
    let q := (f.round .rne .sat false (fp32.unpack z.toNat)).1
    (f32Of ((f.unpack q).mul (fp32.unpack sd.toNat))).1

/-- The left fold of some values (R138, R238). -/
def foldF32 (xs : List W32) : W32 :=
  match xs with
  | [] => 0
  | x :: r => r.foldl (fun a b => (addF32 a b).1) x

/-- Results that an operation forms over its group, or in several registers: their type, how many there are, the value of
register D + k in place l, and the flags of place l. -/
structure GroupOp where
  out : Nat
  n : Nat
  val : (k l : Nat) → W64
  flags : (l : Nat) → Flags

/-- A value in every place, without flags. -/
def GroupOp.plain (ty : Nat) (f : Nat → W64) : GroupOp := ⟨ty, 1, fun _ => f, fun _ => 0⟩

/-- The element at k of CVQ and CVD: the format of a DF, an integer for DF 5 and 8 (R182, R127). -/
def narrowElem (df k : Nat) (x : W32) : Fp :=
  let pos := [8, 8, 8, 8, 4, 8, 16, 16, 4].getD df 8
  let code := (x.toNat / 2 ^ (pos * k)) % 2 ^ ([8, 8, 6, 6, 4, 8, 16, 16, 4].getD df 8)
  let whole := fun (i : Int) => Fp.fin (decide (i < 0)) i.natAbs 0
  match df with
  | 5 => whole (num true (BitVec.ofNat 8 code))
  | 8 => whole ([-127, -95, -72, -54, -39, -26, -14, -5, 0, 6, 16, 28, 41, 57, 78, 127].getD code 0)
  | _ => ([e4m3, e5m2, e2m3, e3m2, e2m1, e2m1, fp16, bf16].getD df e4m3).unpack code

/-- A finite value as a rational. -/
def Fp.rat (x : Fp) : Rat :=
  match x with
  | .fin a m e => (if a then -1 else 1) * m * (2 : Rat) ^ e
  | _ => 0

/-- ACT of a word (R189). -/
def actOf (b : ActBank) (tag x : W32) : Nat × Flags :=
  let f32 := fun (y : W32) => fp32.unpack y.toNat
  let ends := fun (y : W32) => (if (f32 y).isNan then fp32.nanCode else y.toNat, (0 : Flags))
  if b.tag ≠ tag ∨ (f32 b.lo).isFin = false ∨ (f32 b.scl).isFin = false ∨ (f32 b.scl).rat ≤ 0 then (fp32.nanCode, flNV)
  else match f32 x with
    | .nan _ => (fp32.nanCode, 0)
    | .inf neg => ends (if neg then b.y0.get 0 0 else b.y1.get 255 0)
    | v =>
      let t := (v.rat - (f32 b.lo).rat) * (f32 b.scl).rat
      if t < 0 then ends (b.y0.get 0 0)
      else if 256 ≤ t then ends (b.y1.get 255 0)
      else
        let i := t.floor
        let f := ((t - i) * 65536).floor.toNat
        let y0 := b.y0.get i.toNat 0
        let y1 := b.y1.get i.toNat 0
        if f = 0 then ends y0
        else toF32 .rne false (totalOf .rne [f32 y0, ((Fp.fin false f (-16)).mul (f32 y1)).1, ((Fp.fin true f (-16)).mul (f32 y0)).1])

/-- SAMPLE of the weights of lanes 0 to 31, and random bits: the lane, the predicate and the flags (R186). -/
def sampleOf (inS : Nat → Bool) (a : Nat → W32) (rnd : W32) : Nat × Bool × Flags :=
  let val := fun (x : Nat) => fp32.unpack x
  let good := fun l => inS l && (val (a l).toNat).isFin && !(val (a l).toNat).neg
  let w := fun l => if good l then (a l).toNat else 0
  let wn := (List.range 32).any (fun l => inS l && !good l && !(val (a l).toNat).isZero)
  let sums := fun n => (List.range n).foldl (fun (p : Nat × Flags) l =>
    let q := toF32 .rne false (sumOf .rne (val p.1) (val (w l)))
    (q.1, p.2 ||| q.2)) (0, 0)
  let fl := (if wn then flWN else 0) ||| (sums 32).2
  match val (sums 32).1 with
  | .fin _ m e =>
    if m = 0 then (32, false, fl)
    else
      let t := fp32.round .rne .arith false (.fin false (rnd.toNat / 256 * m) (e - 24))
      match (List.range 32).find? (fun l => t.1 < (sums (l + 1)).1) with
      | some l => (l, true, fl ||| t.2)
      | none => (((List.range 32).filter (fun l => w l ≠ 0)).getLastD 0, true, fl ||| t.2)
  | _ => (32, false, fl)

/-- A round of RNG (R190). -/
def rngRound (k0 k1 : Nat) (r : Nat) (c : List Nat) : List Nat :=
  let key := fun (k w : Nat) => (k + r * w) % 2 ^ 32
  let p0 := 0xD2511F53 * c.getD 0 0
  let p1 := 0xCD9E8D57 * c.getD 2 0
  [(p1 / 2 ^ 32) ^^^ c.getD 1 0 ^^^ key k0 0x9E3779B9, p1 % 2 ^ 32, (p0 / 2 ^ 32) ^^^ c.getD 3 0 ^^^ key k1 0xBB67AE85, p0 % 2 ^ 32]

/-- The special values, in the order of R119's indices: of the lane, the warp, the block, the party's place, the clocks, the
active lanes and the class; in a wave the block's give way to the lane's and to ones. -/
def State.specialOf (s : State) (c : Issuer) (o : Ops) (l : Nat) : Nat :=
  let b := s.blockOf c
  let bw := (s.warp c.g c.slot).bw
  let thread := bw * 32 + l
  let place := match s.waveOf c with
    | some _ => [l, l / 4, 0, l, 0, 0, 0, 0, 0, 1, 1, 1]
    | none => [l, l / 4, bw, thread % b.img.bx, thread / b.img.bx % b.img.byy, thread / (b.img.bx * b.img.byy),
        b.blk % b.nx, b.blk / b.nx % b.ny, b.blk / (b.nx * b.ny), b.nx, b.ny, b.nz]
  (place ++ [c.g, c.g / 20, (s.ctlOf 0 0x100).toNat, s.cycles (c.g / 20), s.ns, (lanesMask (s.active c o)).toNat,
    match s.waveOf c with | some w => w.cls | none => b.img.cls]).getD o.b.toNat 0

/-- The words of a save frame (R296): bytes 0 to 31 are PC, NPC, ADDR and INFO, 32 to 39 ISSUE and CMASK, 40 CAUSE, 41 UNIT,
42 FLAGS, 48 to 55 RPC, and the others zero. -/
def Frame.words (f : Frame) : List W64 :=
  let bit := fun (k : Nat) (b : Bool) => if b then 2 ^ k else 0
  [f.pc, f.npc, f.addr, f.info, (f.cmask ++ f.issue : W64),
    BitVec.ofNat 64 (f.cause + f.unit * 2 ^ 8 + bit 16 f.precise + bit 17 f.async + bit 18 f.waitOnly + bit 19 f.kill), f.rpc, 0]

/-- What a control register reads as (R296, R300, R305): the flags and WTE of the party's block or wave, the words of its save
frame in trap mode and zero outside, and the registers of the package, the die and the cluster. -/
def State.controlOf (s : State) (c : Issuer) (l n : Nat) : W64 :=
  if n = 0 then (s.fpflags c).setWidth 64
  else if n = 1 then (if s.wte c then 1 else 0)
  else if n < 0x100 then (if s.inTrap c l then (s.frameOf c).words.getD (n - 8) 0 else 0)
  else s.ctlOf (if n < 0x140 then 0 else if n < 0x200 then 1 + c.g / 20 else 16 + c.g) n

/-- The results of exchanges over the group, tables, quantisation, random bits and special values, as their rules word them:
R117 to R119, R148, R164 to R166, R177, R183 to R186, R189, R190, R296 and R300. -/
def State.groupOp (s : State) (c : Issuer) (pv : PegVals) (ls : List Nat) (i : Instr) : Option GroupOp :=
  let mask := fun (f : Nat → Bool) => ofBits (fun l => ls.contains l && f l)
  match i with
  | .vote o => if o.sub = 3 then some (.plain 0 (fun _ => mask (fun l => s.pred c l (o.a.toNat % 16) ^^ o.a.getLsbD 4))) else none
  | .match_ o =>
    let v := fun l => s.opA c o l (wideTy o.ty)
    some (.plain 0 (fun l => if o.sub = 0 then mask (fun k => v k = v l)
      else if ls.all (fun k => ls.all (fun j => v k = v j)) then mask (fun _ => true) else 0))
  | .idiv o =>
    let w := (intShape o.ty).1
    let a := fun l => num (intShape o.ty).2.2 (part w 0 (s.opA c o l (wideTy o.ty)))
    let b := fun l => num (intShape o.ty).2.2 (part w 0 (s.opB c o pv l o.ty (wideTy o.ty)))
    let q : Nat → Int := fun l => if b l = 0 then 2 ^ w - 1 else (a l).tdiv (b l)
    let r : Nat → Int := fun l => if b l = 0 then a l else (a l).tmod (b l)
    some ⟨o.ty, if o.sub = 2 then 2 else 1, fun k l => (BitVec.ofInt w (if k = 1 ∨ o.sub = 1 then r l else q l)).setWidth 64, fun _ => 0⟩
  | .tlut o =>
    let n := 2 ^ (o.c.toNat + 1)
    let t := fun l i => part 8 (i % 4) (s.regOf c (fileA c o) (o.a.toNat + i / 4) l false)
    some (.plain 0 (fun l => ofParts 8 4 (fun k =>
      let i := (part 8 k (s.opB c o pv l 0 false)).toNat
      if i < 4 * n then t l i else o.m.extractLsb' 0 8)))
  | .xlane o =>
    let sw : Nat := 2 ^ o.c.toNat
    some (.plain o.ty (fun l =>
      let base := l / sw * sw
      let b : Nat := if o.bs = 3 then o.b.toNat else (s.opB c o pv l 0 false).toNat
      let m : Int := match o.sub with
        | 0 => base + b % sw
        | 1 => (l : Int) - b
        | 2 => l + b
        | _ => (l ^^^ b : Nat)
      match ls.find? (fun (k : Nat) => decide ((k : Int) = m ∧ base ≤ k ∧ k < base + sw)) with
      | some k => s.opA c o k (wideTy o.ty)
      | none => s.opA c o l (wideTy o.ty)))
  | .rdlane o =>
    let low := ls.headD 0
    let b : Nat := if o.bs = 3 then o.b.toNat else (s.opB c o pv low 0 false).toNat
    some (.plain o.ty (fun _ => s.opA c o (if o.sub = 0 ∧ ls.contains (b % 32) then b % 32 else low) (wideTy o.ty)))
  | .hdot2 o =>
    let f := fmtOf o.ty
    let x := fun l k => f.readAs o.ftz (part 16 k (s.opA c o l false)).toNat
    let y := fun l k => f.readAs o.ftz (part 16 k (s.opB c o pv l o.ty false)).toNat
    let z := fun l => fp32.readAs o.ftz (part 32 0 (s.opC c o pv l 4 false)).toNat
    let p := fun l k => (x l k).mul (y l k)
    let r := fun l => toF32 o.rm o.ftz (totalOf o.rm [(p l 0).1, (p l 1).1, z l])
    some ⟨4, 1, fun _ l => BitVec.ofNat 64 (r l).1,
      fun l => (p l 0).2 ||| (p l 1).2 ||| (r l).2 ||| nvOf [x l 0, x l 1, y l 0, y l 1, z l]⟩
  | .cvq o =>
    let df := (o.m.extractLsb' 0 5).toNat
    let rm := (o.m.extractLsb' 6 3).toNat
    let n := [4, 4, 4, 4, 8, 4, 2, 2].getD df 4
    let w := 32 / n
    let sc := fun l => fp32.unpack (part 32 0 (s.opB c o pv l 4 false)).toNat
    let elem := fun l k =>
      let x := fp32.unpack (part 32 0 (s.regOf c (fileA c o) (o.a.toNat + k) l false)).toNat
      let mode := if rm = 4 then RMode.sr (part w k (s.regOf c (fileBC c o o.cs) o.c.toNat l false)).toNat w else rmode rm
      let p := x.mul (sc l)
      let fl := p.2 ||| nvOf [x, sc l]
      if df = 5 then
        let y := match mode, p.1 with
          | .sr u _, .fin neg m e => -- R131 for an integer: the greater value when u × 1 < fraction × 2^w
            let v := (Fp.fin neg m e).rat
            let i := v.floor + if (u : Rat) < (v - v.floor) * 2 ^ w then 1 else 0
            if held 8 true i = i then (i, if v = v.floor then 0 else flNX) else (held 8 true i, flNV)
          | _, _ => toWhole 8 true mode p.1
        ((BitVec.ofInt w y.1).toNat, fl ||| y.2)
      else
        let y := ([e4m3, e5m2, e2m3, e3m2, e2m1, e2m1, fp16, bf16].getD df e4m3).round mode (if o.m.getLsbD 5 then .ns else .sat) false p.1
        (y.1, fl ||| y.2)
    some ⟨0, 1, fun _ l => ofParts w n (fun k => BitVec.ofNat w (elem l k).1),
      fun l => (List.range n).foldl (fun f k => f ||| (elem l k).2) 0⟩
  | .cvd o =>
    let df := (o.m.extractLsb' 0 5).toNat
    let n := [4, 4, 4, 4, 8, 4, 2, 2, 8].getD df 4
    let elem := fun l k =>
      let v := narrowElem df k (part 32 0 (s.opA c o l false))
      let sc := fp32.unpack (part 32 0 (s.opB c o pv l 4 false)).toNat
      let y := toF32 (rmode (o.m.extractLsb' 6 3).toNat) false (v.mul sc)
      (y.1, y.2 ||| nvOf [v, sc])
    some ⟨4, n, fun k l => BitVec.ofNat 64 (elem l k).1, fun l => (List.range n).foldl (fun f k => f ||| (elem l k).2) 0⟩
  | .amax o =>
    let f := fmtOf o.ty
    let w := (tyShape o.ty).1
    let code := fun k l => (part w k (s.opA c o l false)).toNat
    let worst := fun k => ls.any (fun l => (f.unpack (code k l)).isNan)
    some ⟨o.ty, 1, fun _ _ => ofParts w (tyShape o.ty).2 (fun k => BitVec.ofNat w
        (if worst k then f.nanCode else (ls.map (fun l => code k l % 2 ^ (w - 1))).foldl max 0)),
      fun _ => nvOf ((List.range (tyShape o.ty).2).flatMap (fun k => ls.map (fun l => f.unpack (code k l))))⟩
  | .sample o =>
    let r := sampleOf ls.contains (fun l => part 32 0 (s.opA c o l false)) (part 32 0 (s.opB c o pv (ls.headD 0) 0 false))
    some ⟨0, 1, fun _ _ => BitVec.ofNat 64 r.1, fun _ => r.2.2⟩
  | .act o =>
    let r := fun l => actOf (s.coreOf c).live (if o.bs = 3 then o.b.setWidth 32 else s.w c.g c.slot o.b.toNat)
      (part 32 0 (s.opA c o l false))
    some ⟨4, 1, fun _ l => BitVec.ofNat 64 (r l).1, fun l => (r l).2⟩
  | .rng o =>
    let x := fun l k => (part 32 0 (s.regOf c (fileA c o) (o.a.toNat + k) l false)).toNat
    let key := fun l k => (part 32 0 (s.regOf c (fileBC c o o.bs) (o.b.toNat + k) l false)).toNat
    let r := fun l => (List.range 10).foldl (fun x r => rngRound (key l 0) (key l 1) r x) [x l 0, x l 1, x l 2, x l 3]
    some ⟨0, 4, fun k l => BitVec.ofNat 64 ((r l).getD k 0), fun _ => 0⟩
  | .movsp o => some (.plain (if o.b = 15 ∨ o.b = 16 then 2 else 0) (fun l => BitVec.ofNat 64 (s.specialOf c o l)))
  | .ctlr o => some (.plain 2 (fun l => s.controlOf c l (ctlNumber o)))
  | _ => none

/-- How two codes of a format compare; none when either is a NaN (R171). -/
def orderOf (f : Fmt) (x y : Nat) : Option Ordering :=
  let s := 2 ^ (f.eb + f.fb)
  let key := fun (z : Nat) => if s ≤ z then (s : Int) - z else z
  if (f.unpack x).isNan ∨ (f.unpack y).isNan then none else some (compare (key x) (key y))

/-- The predicates that comparisons, votes and SAMPLE write: the register, its value in a place, and the flags (R117, R158,
R171, R186). -/
def State.predOp (s : State) (c : Issuer) (pv : PegVals) (ls : List Nat) (i : Instr) : Option (Nat × (Nat → Bool) × (Nat → Flags)) :=
  let joined := fun (o : Ops) l (t : Bool) =>
    let p := s.pred c l (o.c.toNat % 16) ^^ o.c.getLsbD 4
    match o.sub / 8 with
    | 0 => t
    | 1 => t && p
    | 2 => t || p
    | _ => t ^^ p
  match i with
  | .isetp o =>
    let w := (intShape o.ty).1
    let n := fun (x : W64) => num (intShape o.ty).2.2 (part w 0 x)
    let a := fun l => n (s.opA c o l (wideTy o.ty))
    let b := fun l => n (s.opB c o pv l o.ty (wideTy o.ty))
    some (o.d.toNat % 16, fun l => joined o l (match o.sub % 8 with
      | 0 => a l = b l
      | 1 => a l ≠ b l
      | 2 => a l < b l
      | 3 => a l ≤ b l
      | 4 => b l < a l
      | _ => b l ≤ a l), fun _ => 0)
  | .fsetp o =>
    let f := fmtOf o.ty
    let w := (tyShape o.ty).1
    let x := fun l => (part w 0 (s.opA c o l (wideTy o.ty))).toNat
    let y := fun l => (part w 0 (s.opB c o pv l o.ty (wideTy o.ty))).toNat
    let r := fun l => orderOf f (x l) (y l)
    some (o.d.toNat % 16, fun l => joined o l (match o.sub % 8 with
      | 0 => r l = some .eq
      | 1 => r l ≠ some .eq
      | 2 => r l = some .lt
      | 3 => r l = some .lt ∨ r l = some .eq
      | 4 => r l = some .gt
      | 5 => r l = some .gt ∨ r l = some .eq
      | 6 => r l ≠ none
      | _ => r l = none),
      fun l => if nvOf [f.unpack (x l), f.unpack (y l)] ≠ 0 ∨ (2 ≤ o.sub % 8 ∧ o.sub % 8 ≤ 5 ∧ r l = none) then flNV else 0)
  | .vote o =>
    let x := fun l => s.pred c l (o.a.toNat % 16) ^^ o.a.getLsbD 4
    match o.sub with
    | 0 => some (o.d.toNat % 16, fun _ => ls.all x, fun _ => 0)
    | 1 => some (o.d.toNat % 16, fun _ => ls.any x, fun _ => 0)
    | 2 => some (o.d.toNat % 16, fun _ => ls.all (fun l => x l == x (ls.headD 0)), fun _ => 0)
    | _ => none
  | .sample o =>
    let r := sampleOf ls.contains (fun l => part 32 0 (s.opA c o l false)) (part 32 0 (s.opB c o pv (ls.headD 0) 0 false))
    some (o.c.toNat % 16, fun _ => r.2.1, fun _ => r.2.2)
  | _ => none

/-! ### Results that may be pending (R97) -/

/-- A register or predicate as it reads once what is pending in the party's warp is visible. -/
def State.due (s : State) (c : Issuer) (x : RFile) (k l : Nat) : W64 :=
  match c.unit with
  | .lane => afterWrites ((s.warp c.g c.slot).pend.flatMap (·.writes)) c x k l (s.reads c x k l)
  | _ => s.reads c x k l

/-- Register D + k as a whole, once it is visible: a pair for a wide type in lane code. -/
def State.dueD (s : State) (c : Issuer) (o : Ops) (k l ty : Nat) : W64 :=
  let r := o.d.toNat + k
  match fileD c o with
  | .s | .e => s.due c (fileD c o) r l
  | f => if wideTy ty then (s.due c f (r + 1) l <<< 32) ||| s.due c f r l else s.due c f r l

/-- The flags of a party once what is pending in its warp is visible. -/
def State.dueFlags (s : State) (c : Issuer) : Flags :=
  match c.unit with
  | .lane => (s.warp c.g c.slot).pend.foldl (fun f p => f ||| allFlags p.flags) (s.fpflags c)
  | _ => s.fpflags c

end Machine
end Sys2Proof
end

