-- ==== Sys2Proof/Certificates/Slice0/Obligations.lean ====
section
/-! DEFINITION. The statements for the provers. -/

open Sys2Proof Sys2Proof.Machine

/-! ### Operations that compute registers and predicates -/

/-- R8, R97, R119, R137, R143, R296, R300: an operation of fixed latency that only computes (every constructor of the table resultOf but
those of variable latency) answers a next state: each register of its party is the last write of the operation's result,
or what it was; the flags gain those of the result; its places stand after the instruction; and nothing else changes. What
each result holds, the special values of MOVSP (R119) and the control words of CTLR (R296, R300) among them, the tables
valueOp, floatOp, groupOp and predOp word in SumSelectTable, ActivationBanks and PredicatesFromRegister. -/
def Obligations.FixedResult : Prop :=
  ∀ (s : State) (i : Instr) (o : Ops) (f : Alu) (ls : List Nat) (u : State) (pv : PegVals),
    resultOf i = some f → Issues s i o (fieldWrites i) ls u pv → Housed s s.cur →
    varLat i (uses s.cur.code i) = false ∨ s.cur.unit ≠ .lane →
    (o.sw = true → s.cur.unit = .lane → Calm s s.cur) →
    Gives i s (fun t =>
      let r := f s s.cur o pv (resPlaces s.cur o ls)
      (∀ (x : RFile) (k l : Nat), hasReg s.cur x k →
        t.reads s.cur x k l = afterWrites r.1 s.cur x k l (s.reads s.cur x k l))
      ∧ t.fpflags s.cur = s.fpflags s.cur ||| allFlags r.2
      ∧ (t.warp s.cur.g s.cur.slot).pend = (s.warp s.cur.g s.cur.slot).pend
      ∧ Advances s t s.cur (s.cur.pc + BitVec.ofNat 64 o.form.bytes)
      ∧ Untouched s t s.cur ∧ (t.cl s.cur.g).pegs = (s.cl s.cur.g).pegs)

/-- R97, R98: an operation of variable latency that only computes, in lane code, answers a next state in which its result is
pending: no register and no flag has changed, each active lane holds one more pending result, which carries the writes, and a
lane that issued the switch marker is parked after the instruction. A switch marker issued while results are pending, of which
none has arrived, parks its lanes, and nothing commits. That results are counted by instruction, arrive one by one, and leave
lanes whose guard fails alone, is the model's reading (log 13, 14, 15). -/
def Obligations.VariableResult : Prop :=
  (∀ (s : State) (i : Instr) (o : Ops) (f : Alu) (ls : List Nat) (u : State) (pv : PegVals),
    resultOf i = some f → Issues s i o (fieldWrites i) ls u pv → s.cur.unit = .lane →
    varLat i (uses s.cur.code i) = true → (o.sw = true → Calm s s.cur) →
    Gives i s (fun t =>
      let r := f u s.cur o pv (resPlaces s.cur o ls)
      (∀ (x : RFile) (k l : Nat), hasReg s.cur x k → t.reads s.cur x k l = s.reads s.cur x k l)
      ∧ t.fpflags s.cur = s.fpflags s.cur
      ∧ (t.warp s.cur.g s.cur.slot).pend = (s.warp s.cur.g s.cur.slot).pend ++
          [({ lanes := if isUni s.cur o then s.cur.group else lanesMask ls, uni := isUni s.cur o, pc := s.cur.pc
              writes := r.1, flags := r.2 } : Pend)]
      ∧ (∀ l ∈ s.cur.places, s.stands s.cur l = true →
          t.pcOf s.cur l = s.cur.pc + BitVec.ofNat 64 o.form.bytes
          ∧ t.holdOf s.cur l = if o.sw = true ∧ l ∈ ls then .park else .free)
      ∧ Untouched s t s.cur ∧ (t.cl s.cur.g).pegs = (u.cl s.cur.g).pegs))
  ∧ ∀ (s : State) (o : Ops) (ls : List Nat), Plain s (.nop o) o ls → o.sw = true → s.cur.unit = .lane →
    (∀ p ∈ (s.warp s.cur.g s.cur.slot).pend, p.ready = false ∧ p.lanes ≠ 0) →
    (∀ l, (s.lane s.cur.g s.cur.slot l).hold ≠ .park) →
    Gives (.nop o) s (fun t => Keeps s t s.cur ∧
      ∀ l ∈ s.cur.places, s.stands s.cur l = true →
        t.pcOf s.cur l = s.cur.pc + BitVec.ofNat 64 o.form.bytes
        ∧ t.holdOf s.cur l = if l ∈ ls ∧ (s.warp s.cur.g s.cur.slot).pendCount l ≠ 0 then .park else .free)

/-! ### Control flow -/

/-- R106: NOP, and a function header, which executes as a NOP, only advance their places by 8. A header is exactly the word
0x201 with FB of 1 to 32 placed in bits [62:54], and names FB × 8 registers; an FB above 32 raises ILLEGAL_INSN. -/
def Obligations.NopAdvances : Prop :=
  (∀ (s : State) (o : Ops) (ls : List Nat), Plain s (.nop o) o ls → (o.sw = true → s.cur.unit = .lane → Calm s s.cur) →
    Gives (.nop o) s (fun t => Advances s t s.cur (s.cur.pc + 8) ∧ Keeps s t s.cur))
  ∧ ∀ (u : CodeUnit) (fb : BitVec 9),
    let w := 0x201#64 ||| (fb.setWidth 64 <<< 54)
    (fb.toNat ≤ 32 → decode u (words64 w) = .one (.nop { m := fb }) 8)
    ∧ (∀ x n, headerRegs x = some n ∧ n = 8 * fb.toNat ↔ x = w ∧ n = 8 * fb.toNat ∧ 1 ≤ fb.toNat ∧ fb.toNat ≤ 32)
    ∧ (32 < fb.toNat → decode u (words64 w) = .illegal w)
    ∧ ∀ (s : State) (c : Issuer), s.runDecoded c (.illegal w) = .next (s.raise c { code := 1, lanes := c.places, info := w })

/-- R107, R108: BRA and CALL take each active place to the offset from the instruction, BRX, RET and CALLX to the address
in its register when the targets pass the checks; CALL and CALLX write the address after the instruction into D; places
whose guard fails stand after the instruction. -/
def Obligations.Transfers : Prop :=
  ∀ (s : State) (i : Instr) (o : Ops) (ls : List Nat), Plain s i o ls →
    (o.sw = true → s.cur.unit = .lane → Calm s s.cur) →
    let c := s.cur
    let a := fun l => s.opA c o l true
    let off := c.pc + o.imm32.signExtend 64
    let link := ls.flatMap (fun l =>
      resWrites (fileD c o) o.d.toNat l 2 true (c.pc + BitVec.ofNat 64 o.form.bytes))
    let linked := fun (t : State) => Untouched s t c ∧ (t.warp c.g c.slot).pend = (s.warp c.g c.slot).pend
      ∧ t.fpflags c = s.fpflags c ∧ (t.cl c.g).pegs = (s.cl c.g).pegs
      ∧ ∀ (x : RFile) (k l : Nat), hasReg c x k → t.reads c x k l = afterWrites link c x k l (s.reads c x k l)
    (i = .bra o → Gives i s (fun t => Moves s t c ls o.form.bytes (fun _ => off) ∧ Keeps s t c))
    ∧ (i = .brx o ∨ i = .ret o → (∀ l ∈ ls, (a l).toNat < 2 ^ 51 ∧ (a l).toNat % 4 = 0) →
        Gives i s (fun t => Moves s t c ls o.form.bytes a ∧ Keeps s t c))
    ∧ (i = .call o → Gives i s (fun t => Moves s t c ls o.form.bytes (fun _ => off) ∧ linked t))
    ∧ (i = .callx o →
        (∀ l ∈ ls, 8 ≤ (a l).toNat ∧ (a l).toNat < 2 ^ 51 ∧ (a l).toNat % 8 = 0
          ∧ ∃ w n, s.headerAt c (a l) = some w ∧ headerRegs w = some n ∧ (c.unit = .lane → n ≤ s.allocation c)) →
        Gives i s (fun t => Moves s t c ls o.form.bytes a ∧ linked t))

/-- R60, R61, R107, R108, R362: the checks of a transfer by register, in their order; the whole group takes the cause, and ADDR is the
target of the lowest lane that fails. A target beyond 2^51 raises ACCESS; a BRX or RET target that is no multiple of 4 raises
MISALIGNED. A CALLX whose header would lie outside the address space raises ACCESS at that address; one whose header's page is
not translated waits for the walk (R60, R61), and that every place of the group waits for it, those whose guard fails too, is
the model's choice (log 15); and a target that is no multiple of 8, that no header precedes, or whose header names more
registers than a lane has, raises BUDGET, with INFO 0xFFFF or the highest register named. -/
def Obligations.TransferChecks : Prop :=
  ∀ (s : State) (i : Instr) (o : Ops) (ls : List Nat), Plain s i o ls → i = .brx o ∨ i = .ret o ∨ i = .callx o →
    let c := s.cur
    let a := fun l => s.opA c o l true
    let far := ls.filter (fun l => decide (2 ^ 51 ≤ (a l).toNat))
    let odd := ls.filter (fun l => decide ((a l).toNat % 4 ≠ 0))
    let even := ls.filter (fun l => decide ((a l).toNat % 8 = 0))
    let low := even.filter (fun l => decide (2 ^ 51 ≤ (a l - 8).toNat))
    let miss := even.filter (fun l => (s.headerAt c (a l)).isNone)
    let names := fun l => if (a l).toNat % 8 = 0 then (s.headerAt c (a l)).bind headerRegs else none
    let above := fun l => decide (c.unit = .lane) && (names l).any (fun n => decide (s.allocation c < n))
    let bad := ls.filter (fun l => (names l).isNone || above l)
    (∀ l r, far = l :: r → exec i s = .next (s.raise c { code := 9, lanes := far, addr := a l, info := 0xFFFF }))
    ∧ (∀ l r, i ≠ .callx o → far = [] → odd = l :: r → exec i s = .next (s.raise c { code := 7, lanes := odd, addr := a l }))
    ∧ (i = .callx o → far = [] →
      (∀ l r, low = l :: r → exec i s = .next (s.raise c { code := 9, lanes := low, addr := a l - 8, info := 0xFFFF }))
      ∧ (low = [] → miss ≠ [] → exec i s
          = .next ((s.missWalk c ls (miss.map (fun l => (a l - 8, .fetch, 1#32 <<< l)))).finish c o.sw ls o.form.bytes c.places))
      ∧ (∀ l r, low = [] → miss = [] → bad = l :: r → exec i s = .next (s.raise c
          { code := 4, lanes := bad, addr := a l
            info := match names l with | some n => BitVec.ofNat 64 (n - 1) | none => 0xFFFF })))

/-- R103, R111: a JARM writes its mask with the active lanes (SET), the union (ADD), the difference (CLR) or the w
register (LOAD), and the release check then lets the lanes go that R103 names; other masks, registers and lanes stand. -/
def Obligations.MasksWritten : Prop :=
  ∀ (s : State) (i : Instr) (o : Ops) (ls : List Nat), Plain s i o ls →
    (o.sw = true → Calm s s.cur) →
    let c := s.cur
    let n := o.d.toNat
    let w := s.warp c.g c.slot
    let old := w.jm.get n 0
    let goes := fun (m : W32) => Gives i s (fun t =>
      let h := w.jh.get n 0
      let all : Bool := m &&& w.liveMask &&& ~~~h = 0
      let freed := if all then h else h &&& ~~~m
      let v := t.warp c.g c.slot
      v.jm.get n 0 = m ∧ v.jh.get n 0 = (if all then 0 else h &&& m)
      ∧ (∀ k, k ≠ n → v.jm.get k 0 = w.jm.get k 0 ∧ v.jh.get k 0 = w.jh.get k 0)
      ∧ (∀ l ∈ c.places, s.stands c l = true → t.pcOf c l = c.pc + BitVec.ofNat 64 o.form.bytes ∧ t.holdOf c l = .free)
      ∧ (∀ l, l < 32 → l ∉ c.places → ∀ st, s.holdOf c l = .rejoin n st → freed.getLsbD l = true →
          t.holdOf c l = .free ∧ t.pcOf c l = s.pcOf c l + 8)
      ∧ (∀ l, l ∉ c.places → freed.getLsbD l = false → t.holdOf c l = s.holdOf c l ∧ t.pcOf c l = s.pcOf c l)
      ∧ (∀ (x : RFile) (k l : Nat), t.reads c x k l = s.reads c x k l) ∧ WarpOnly s t c)
    (i = .jarmSet o → goes (lanesMask ls))
    ∧ (i = .jarmAdd o → goes (old ||| lanesMask ls))
    ∧ (i = .jarmClr o → goes (old &&& ~~~lanesMask ls))
    ∧ (i = .jarmLoad o → goes (s.w c.g c.slot o.b.toNat))

/-- R103, R112: a REJOIN on mask n lets the lanes outside the mask advance, and holds those of it until every live lane of
the mask has arrived; then all that arrived, now or before, stand after their REJOIN and H is empty. Lanes held before that
the mask no longer names go with the next arrival of a lane of the mask; every other lane outside the group stands. -/
def Obligations.RejoinHolds : Prop :=
  ∀ (s : State) (o : Ops) (ls : List Nat), Plain s (.rejoin o) o ls → Calm s s.cur →
    let c := s.cur
    let n := o.a.toNat
    let w := s.warp c.g c.slot
    let m := w.jm.get n 0
    let held := ls.filter (fun l => m.getLsbD l)
    let h := w.jh.get n 0 ||| lanesMask held
    let freed := if m &&& w.liveMask &&& ~~~h = 0 then h else h &&& ~~~m
    (∀ l ∈ ls, (w.lane l).live = true ∧ (w.lane l).pc = c.pc ∧ (w.lane l).hold = .free) →
    Gives (.rejoin o) s (fun t =>
      (∀ l ∈ ls, m.getLsbD l = false → t.pcOf c l = c.pc + 8 ∧ t.holdOf c l = .free)
      ∧ (held ≠ [] → m &&& w.liveMask &&& ~~~h = 0 →
          (t.warp c.g c.slot).jh.get n 0 = 0 ∧ ∀ l ∈ held, t.pcOf c l = c.pc + 8 ∧ t.holdOf c l = .free)
      ∧ (held ≠ [] → m &&& w.liveMask &&& ~~~h ≠ 0 →
          (t.warp c.g c.slot).jh.get n 0 = h &&& m
          ∧ ∀ l ∈ held, t.pcOf c l = c.pc ∧ t.holdOf c l = .rejoin n (s.cycles (dieOf c.g)))
      ∧ (∀ l, l < 32 → l ∉ c.places → ∀ st, s.holdOf c l = .rejoin n st → held ≠ [] → freed.getLsbD l = true →
          t.holdOf c l = .free ∧ t.pcOf c l = s.pcOf c l + 8)
      ∧ (∀ l, l ∉ c.places → held = [] ∨ freed.getLsbD l = false → t.holdOf c l = s.holdOf c l ∧ t.pcOf c l = s.pcOf c l)
      ∧ (held = [] → (t.warp c.g c.slot).jh.get n 0 = w.jh.get n 0)
      ∧ (∀ k, (t.warp c.g c.slot).jm.get k 0 = w.jm.get k 0) ∧ (∀ k, k ≠ n → (t.warp c.g c.slot).jh.get k 0 = w.jh.get k 0)
      ∧ Passes s t c ls 8 ∧ (∀ (x : RFile) (k l : Nat), t.reads c x k l = s.reads c x k l) ∧ WarpOnly s t c)

/-- R113: YIELD keeps its active lanes out of the vote for at most 32 cycles, and in spine code only advances; PAUSE holds
its active places for 16 × (count + 1) cycles. Both stand after the instruction. -/
def Obligations.YieldAndPause : Prop :=
  ∀ (s : State) (i : Instr) (o : Ops) (ls : List Nat), Plain s i o ls →
    let c := s.cur
    let now := s.cycles (dieOf c.g)
    let holds := fun (h : Hold) => Gives i s (fun t => Keeps s t c
      ∧ (∀ l ∈ ls, t.pcOf c l = c.pc + 8 ∧ t.holdOf c l = h) ∧ Passes s t c ls 8)
    (i = .yield o → c.unit = .lane → Calm s c →
        (∀ l ∈ ls, (s.lane c.g c.slot l).live = true ∧ (s.lane c.g c.slot l).pc = c.pc ∧ (s.lane c.g c.slot l).hold = .free) →
        holds (.yield (now + 32)))
    ∧ (i = .yield o → c.unit = .spine → s.stands c 0 = true → holds .free)
    ∧ (i = .pause o → (o.sw = true → c.unit = .lane → Calm s c) → holds (.pause (now + 16 * (o.b.toNat + 1)) o.sw))

/-- R87, R97 to R99, R114, R268, R293 to R298, R362: BRK and TRAP take their active places into the handler with the code in
INFO; NPC is the instruction for BRK and the one after it for TRAP; a reserved major takes the whole group. Places whose guard
fails stand after the instruction. Every cause that an instruction raises (those of ILLEGAL_WAIT among them, as the statements
of the waiting instructions say them) takes the whole group into the handler, with its code, its lanes in CMASK, ADDR and
INFO. An operation that only computes raises BUDGET for its first operand beyond the allocation, with that operand's highest
register in INFO; then PEG_UNALLOCATED for a peg at or above PEGS, with its index; then HAZARD in the lanes whose writes meet
a pending result, with the lowest pending register of the first such operand and its space. The lanes that enter commit their
pending results first. FLAGS.WAITONLY is set, for the lanes concerned alone (the model's choice: log 76), when only the wait
half of a BAR.SYNC was left to them. -/
def Obligations.TrapEntry : Prop :=
  ∀ (s : State) (i : Instr) (o : Ops) (ls : List Nat),
    let c := s.cur
    let mask := fun (ks : List Nat) => if c.unit = .lane then lanesMask ks else 0
    let m := mask ls
    let u := if c.unit = .lane then 0 else 1
    let only := ls.filter (s.onlyWaits c)
    let fr : Frame := { busy := true, pc := c.pc, npc := c.pc, issue := m, left := m, cmask := m, unit := u, precise := true
                        rpc := c.pc, waitOnly := decide (only ≠ []), waits := lanesMask only }
    let w := s.warp c.g c.slot
    let us := uses c.code i
    let ws := us.filter (fun x => x.wr && decide (x.file ≠ .pg))
    let meets := fun (x : RegUse) (l k : Nat) => x.idx ≤ k && decide (k < x.idx + x.n) && w.pending l x.file k
    let bad := (s.active c o).filter (fun l => ws.any (fun x => (List.range x.n).any (fun j => meets x l (x.idx + j))))
    let computes := (∃ f, resultOf i = some f) ∧ i.ops = some o ∧ (c.unit = .lane ∨ c.unit = .spine)
    (CanTrap s c ls →
      (i = .brk o → Plain s i o ls → (o.sw = true → c.unit = .lane → Calm s c) →
          Gives i s (fun t => InHandler s t c ls { fr with cause := 17, info := o.b.setWidth 64 } ∧ Passes s t c ls 8))
      ∧ (i = .trap o → Plain s i o ls → (o.sw = true → c.unit = .lane → Calm s c) →
          Gives i s (fun t => InHandler s t c ls
            { fr with cause := 16, info := o.b.setWidth 64, npc := c.pc + 8, rpc := c.pc + 8 } ∧ Passes s t c ls 8))
      ∧ (∀ x, ls = c.places → ls ≠ [] → Gives (.reservedMajor x) s (fun t => InHandler s t c ls { fr with cause := 1, info := x }))
      ∧ (∀ f : Fail, ls = c.places → ls ≠ [] → (∀ l ∈ f.lanes, l ∈ ls) → InHandler s (s.raise c f) c ls
          { fr with cause := f.code, cmask := mask f.lanes, addr := f.addr, info := f.info }))
    ∧ (computes →
      (∀ x, c.unit = .lane → us.find? (fun x => decide (x.file = .v) && decide (s.allocation c < x.idx + x.n)) = some x →
          exec i s = .next (s.raise c { code := 4, lanes := c.places, info := BitVec.ofNat 64 (x.idx + x.n - 1) }))
      ∧ (∀ x, (c.unit = .lane → ∀ y ∈ us, y.file = .v → y.idx + y.n ≤ s.allocation c) →
          us.find? (fun x => decide (x.file = .pg) && decide (s.pegsOf c ≤ x.idx)) = some x →
          exec i s = .next (s.raise c { code := 12, lanes := c.places, info := BitVec.ofNat 64 x.idx }))
      ∧ (c.unit = .lane → s.earlyFail c us = none → (∀ l ∈ s.active c o, w.pendCount l < 8) → bad ≠ [] →
          ∃ (x : RegUse) (k : Nat), x ∈ ws ∧ (∃ l ∈ bad, meets x l k = true)
            ∧ (∀ l ∈ bad, ∀ j, j < k → meets x l j = false)
            ∧ (∃ before after, ws = before ++ x :: after ∧ ∀ y ∈ before, ∀ l ∈ bad, ∀ j, meets y l j = false)
            ∧ exec i s = .next (s.raise c { code := 3, lanes := bad, info := BitVec.ofNat 64 (k % 256 + 256 * fileSpace x.file) })))
    ∧ (CanEnter s c ls → (∀ p ∈ w.pend, p.poison = []) → ls = c.places → ls ≠ [] → ∀ f : Fail, (∀ l ∈ f.lanes, l ∈ ls) →
        let t := s.raise c f
        (∀ l ∈ ls, t.inTrap c l = true ∧ t.holdOf c l = .free ∧ t.pcOf c l = (s.blockOf c).img.base + BitVec.ofNat 64 (s.blockOf c).img.trapEnt
          ∧ (c.unit = .lane → (t.warp c.g c.slot).pendCount l = 0))
        ∧ t.frameOf c = { fr with cause := f.code, cmask := mask f.lanes, addr := f.addr, info := f.info })

/-- R299: ERET of lanes in trap mode resumes them at NPC, outside trap mode, and the frame is free once the last lane has
left; of a context, it resumes it there and frees its frame. With a frame of UNIT 2 to 4 they resume at RPC, and the first
ERET acts on the sequencer of UNIT 2 or 3 that stands in FAULT for the block: it runs on at NPC, or ends when KILL is set,
IDLE when none of its commands is under way; that only the first ERET of a frame acts on it is the model's choice (log 30).
WAITONLY returns to the lanes it concerns (log 76). Outside trap mode ERET raises
ILLEGAL_INSN in the whole group. -/
def Obligations.TrapReturn : Prop :=
  (∀ (s : State) (o : Ops) (ls : List Nat), Plain s (.eret o) o ls → s.cur.unit = .lane → Calm s s.cur →
    let c := s.cur
    let f := s.frameOf c
    (∀ l ∈ ls, s.inTrap c l = true ∧ (s.lane c.g c.slot l).live = true ∧ (s.lane c.g c.slot l).pc = c.pc
      ∧ (s.lane c.g c.slot l).hold = .free) → f.unit < 2 →
    Gives (.eret o) s (fun t =>
      (∀ l ∈ ls, t.inTrap c l = false ∧ t.pcOf c l = f.npc ∧ t.holdOf c l = .free)
      ∧ (t.frameOf c).left = f.left &&& ~~~lanesMask ls
      ∧ ((t.frameOf c).busy = true ↔ f.left &&& ~~~lanesMask ls ≠ 0)
      ∧ (∀ (x : RFile) (k l : Nat), t.reads c x k l = s.reads c x k l) ∧ WarpOnly s t c))
  ∧ (∀ (s : State) (o : Ops) (ls : List Nat), Plain s (.eret o) o ls →
    let c := s.cur
    let f := s.frameOf c
    let left := if c.unit = .lane then f.left &&& ~~~lanesMask ls else 0
    let b := (s.blkOf c).getD 0
    (∀ l ∈ ls, s.inTrap c l = true) →
    (c.unit = .lane → Calm s c ∧ ∀ l ∈ ls, (s.lane c.g c.slot l).live = true ∧ (s.lane c.g c.slot l).pc = c.pc
      ∧ (s.lane c.g c.slot l).hold = .free) →
    Gives (.eret o) s (fun t =>
      (∀ l ∈ ls, t.inTrap c l = false ∧ t.pcOf c l = (if f.unit < 2 then f.npc else f.rpc) ∧ t.holdOf c l = .free
        ∧ t.onlyWaits c l = (f.waitOnly && (decide (c.unit = .spine) || decide (f.waits = 0) || f.waits.getLsbD l)))
      ∧ (t.frameOf c).left = left ∧ ((t.frameOf c).busy = true ↔ left ≠ 0)
      ∧ (∀ copy : Bool, f.acted = false → f.unit = (if copy then 3 else 2) → (s.seqr c.g copy).st = .fault → (s.seqr c.g copy).blk = b →
          (f.kill = false → t.seqr c.g copy = { s.seqr c.g copy with st := .run, pc := f.npc })
          ∧ (f.kill = true → (t.seqr c.g copy).st = if (s.seqr c.g copy).flight = 0 then .idle else .done))
      ∧ (f.unit < 2 ∨ f.unit = 4 ∨ f.acted = true → ∀ copy, t.seqr c.g copy = s.seqr c.g copy)))
  ∧ ∀ (s : State) (o : Ops) (ls : List Nat), Plain s (.eret o) o ls →
    let out := ls.filter (fun l => !s.inTrap s.cur l)
    out ≠ [] → exec (.eret o) s = .next (s.raise s.cur { code := 1, lanes := out, info := firstBits (.eret o) })

/-- R137, R296, R300, R302: CTLW writes once, with the value of the lowest active place: CTL_FPFLAGS keeps bits [6:0],
CTL_TRAPCTL bit 0, and a frame word only its writable fields, in trap mode; any other number, or a frame word outside trap
mode, raises ILLEGAL_INSN. That one ERET resumes or kills a sequencer once, and that only a party in trap mode writes CTL_SF
words, is the model's reading (log 30). -/
def Obligations.ControlWrites : Prop :=
  ∀ (s : State) (o : Ops) (ls : List Nat), Plain s (.ctlw o) o ls → Housed s s.cur →
    (o.sw = true → s.cur.unit = .lane → Calm s s.cur) →
    let c := s.cur
    let n := ctlNumber o
    let x := s.opA c o (ls.headD 0) true
    let out := ls.filter (fun l => !s.inTrap c l)
    (n = 0 → Gives (.ctlw o) s (fun t => t.fpflags c = x.setWidth 7 ∧ t.wte c = s.wte c ∧ t.frameOf c = s.frameOf c
        ∧ Advances s t c (c.pc + BitVec.ofNat 64 o.form.bytes) ∧ Untouched s t c))
    ∧ (n = 1 → Gives (.ctlw o) s (fun t => t.wte c = x.getLsbD 0 ∧ t.fpflags c = s.fpflags c ∧ t.frameOf c = s.frameOf c
        ∧ Elsewhere s t c ∧ Advances s t c (c.pc + BitVec.ofNat 64 o.form.bytes)))
    ∧ (8 ≤ n → n < 16 → out = [] → Gives (.ctlw o) s (fun t => t.frameOf c = (s.frameOf c).setWord (n - 8) x
        ∧ t.fpflags c = s.fpflags c ∧ t.wte c = s.wte c ∧ Elsewhere s t c
        ∧ Advances s t c (c.pc + BitVec.ofNat 64 o.form.bytes)))
    ∧ (8 ≤ n → n < 16 → out ≠ [] →
        exec (.ctlw o) s = .next (s.raise c { code := 1, lanes := out, info := firstBits (.ctlw o) }))
    ∧ (16 ≤ n → exec (.ctlw o) s = .next (s.raise c { code := 1, lanes := ls, info := firstBits (.ctlw o) }))

/-! ### Predicates from a register, and activation tables -/

/-- R116: PMOV.FROMR writes, in each active place, each predicate whose bit its mask sets with that bit of A; nothing else
changes. HAZARD looks at the predicates that the mask names. PMOV.TOR writes the 16 predicates of a place into its register.
R117, R158, R171, R186: the comparisons, the votes and SAMPLE write in each active place the predicate that their rules word
(the table predOp), at once or pending, with their flags. That SAMPLE raises NX and OF for the roundings of its prefix sums and
its product is the model's choice (log 38). -/
def Obligations.PredicatesFromRegister : Prop :=
  (∀ (s : State) (o : Ops) (ls : List Nat),
    Issues s (.pmovFromr o) o (fun c l => (List.range 16).map (fun k =>
      ({ file := .p, idx := k, n := if (pmovSet s c o l).contains k then 1 else 0, wr := true, rd := false } : RegUse))) ls s [] →
    (o.sw = true → s.cur.unit = .lane → Calm s s.cur) →
    let c := s.cur
    let ws := ls.flatMap (fun l => (pmovSet s c o l).map (fun k =>
      (⟨l, .p, k, if (s.opA c o l false).getLsbD k then 1 else 0⟩ : PWrite)))
    Gives (.pmovFromr o) s (fun t =>
      (∀ (x : RFile) (k l : Nat), hasReg c x k → t.reads c x k l = afterWrites ws c x k l (s.reads c x k l))
      ∧ t.fpflags c = s.fpflags c ∧ Advances s t c (c.pc + BitVec.ofNat 64 o.form.bytes) ∧ Untouched s t c
      ∧ (t.cl c.g).pegs = (s.cl c.g).pegs))
  ∧ ∀ (s : State) (i : Instr) (o : Ops) (ls : List Nat) (u : State) (pv : PegVals), Issues s i o (fieldWrites i) ls u pv →
    Housed s s.cur → (o.sw = true → s.cur.unit = .lane → Calm s s.cur) →
    let c := s.cur
    (i = .pmovTor o → Gives i s (fun t => ∀ l ∈ resPlaces c o ls, (fileD c o = .s → o.d ≠ 0) →
      t.dueD c o 0 l 0 = ofBits (fun k => decide (k < 16) && s.pred c l k)))
    ∧ ∀ k f g, s.predOp c pv ls i = some (k, f, g) → Gives i s (fun t =>
      (∀ l ∈ ls, t.due c .p k l = if f l then 1 else 0)
      ∧ t.dueFlags c = ls.foldl (fun x l => x ||| g l) (s.dueFlags c))

/-- R187, R188: ACTLD writes an entry of the core's shadow bank per active lane, in lane order; ACTSWAP exchanges the banks,
and the new live bank takes the tag. Neither changes a register, predicate, flag, PC or hold of a lane. R117 to R119, R148, R164
to R166, R177, R182 to R186, R189, R190, R296, R300: exchanges, tables, quantisation, reductions, ACT, RNG, MOVSP and CTLR give
the values and flags that their rules word (the table groupOp); that SAMPLE and ACT raise the flags of their roundings is the
model's choice (log 38). R169 to R173, R176, R178 to R181: floating-point arithmetic and conversions give those of
the table floatOp, where a sum, product, quotient or root is rounded once: to the code that its mode takes about the exact
number, with the results beyond the format's range and below its normal range, of a zero, an infinity and a NaN, and the
flags, of R130 to R135; that an I2F.NS beyond E4M3 writes its NaN, and that a sum that holds a quiet NaN beside infinities of
both signs raises no NV, are the model's choices (log 76). R174, R175: the approximations have their exact cases and special
values, and lie within the bounds of R174: FRCP and FRSQ within an ulp, FEX2 and FLG2 within two or within 2^-22, FSIN and FCOS
within 2^-21 or in [-1, 1]. -/
def Obligations.ActivationBanks : Prop :=
  (∀ (s : State) (i : Instr) (o : Ops) (ls : List Nat) (u : State) (pv : PegVals),
    let c := s.cur
    let core := s.coreOf c
    let shadow := ls.foldl (fun b l => b.load (lo32 (u.opA c o l false)).toNat (lo32 (u.opB c o pv l 4 false))
      (lo32 (u.opC c o pv l 4 false))) core.shadow
    let put := fun (u t : State) (k : Core) => t.coreOf c = k ∧ (∀ n, n ≠ c.slot / 16 → (t.cl c.g).cores.get n {} = (s.cl c.g).cores.get n {})
      ∧ Undisturbed s t ∧ t.mem = s.mem ∧ (t.cl c.g).pegs = (u.cl c.g).pegs
    (i = .actld o → Issues s i o (fieldWrites i) ls u pv → ∃ t, Does s i o ls t [] ∧ put u t { core with shadow := shadow })
    ∧ (i = .actswap o → Plain s i o ls → ∃ t, Does s i o ls t []
        ∧ put s t { core with live := { core.shadow with tag := actTag s c o }, shadow := core.live }))
  ∧ (∀ (s : State) (i : Instr) (o : Ops) (ls : List Nat) (u : State) (pv : PegVals), Issues s i o (fieldWrites i) ls u pv →
    Housed s s.cur → (o.sw = true → s.cur.unit = .lane → Calm s s.cur) →
    let c := s.cur
    let gives := fun (ty n : Nat) (val : Nat → Nat → W64) (fl : Nat → Flags) => Gives i s (fun t =>
      (∀ l ∈ resPlaces c o ls, ∀ k, k < n → (fileD c o = .s → o.d.toNat + k ≠ 0) →
        t.dueD c o k l ty = heldAs (fileD c o) ty (val k l))
      ∧ t.dueFlags c = (resPlaces c o ls).foldl (fun x l => x ||| fl l) (s.dueFlags c))
    (∀ x, s.groupOp c pv ls i = some x → gives x.out x.n x.val x.flags)
    ∧ (∀ x, floatOp i = some x →
      let r := fun l => x.val (s.opA c o l (wideTy x.aty)) (s.opB c o pv l x.bty (wideTy x.bty))
        (s.opC c o pv l x.cty (wideTy x.cty)) (s.destOf c o l x.out)
      gives x.out 1 (fun _ l => (r l).1) (fun l => (r l).2)))
  ∧ (∀ f ∈ [fp64, fp32, fp16, bf16, e5m2, e4m3, e3m2, e2m3, e2m1], ∀ (r : RMode) (nw : Narrow) (ftz : Bool),
    (nw = .arith → f.kind = .ieee) →
    (∀ sg, f.round r nw ftz (.nan sg) = if f.kind = .finite then (0, flNV) else (f.nanCode, 0))
    ∧ (∀ neg, f.round r nw ftz (.inf neg) = if nw = .sat then (f.signed neg f.maxCode, flSAT) else (f.signed neg f.infCode, 0))
    ∧ (∀ neg (e : Int), f.round r nw ftz (.fin neg 0 e) = (f.signed neg 0, 0))
    ∧ (∀ neg (m : Nat) (e : Int), 0 < m → f.Rounded r nw ftz neg (ratCut (m * (2 : Rat) ^ e)) (f.round r nw ftz (.fin neg m e)))
    ∧ ((∀ u n, r ≠ .sr u n) → f ∈ [fp64, fp32, fp16, bf16] → ∀ a (m : Nat) (j : Int) b (n : Nat) (k : Int), 0 < m → m < 2 ^ 53 → 0 < n → n < 2 ^ 53 →
      f.Rounded r nw ftz (a ^^ b) (ratCut (m * (2 : Rat) ^ j / (n * (2 : Rat) ^ k))) (f.round r nw ftz ((Fp.fin a m j).div (.fin b n k)).1)
      ∧ f.Rounded r nw ftz false (rootCut (m * (2 : Rat) ^ j)) (f.round r nw ftz (Fp.fin false m j).sqrt.1)))
  ∧ ∀ (k : Nat) (ftz : Bool) (x : W32), k < 6 →
    let r := approxElem k ftz x
    let y := fp32.unpack r.1
    let one := 0x3F800000
    match fp32.readAs ftz x.toNat with
    | .nan sg => r = (fp32.nanCode, if sg then flNV else 0)
    | .inf neg => r = match k with
      | 0 => (fp32.signed neg 0, 0)
      | 1 => if neg then (fp32.nanCode, flNV) else (0, 0)
      | 2 => (if neg then 0 else fp32.infCode, 0)
      | 3 => if neg then (fp32.nanCode, flNV) else (fp32.infCode, 0)
      | _ => (fp32.nanCode, flNV)
    | .fin neg 0 _ => r = match k with
      | 0 | 1 => (fp32.signed neg fp32.infCode, flDZ)
      | 3 => (fp32.signed true fp32.infCode, flDZ)
      | 4 => (fp32.signed neg 0, 0)
      | _ => (one, 0)
    | .fin neg m e =>
      let v : Rat := m * (2 : Rat) ^ e
      let w : ℝ := if neg then -v else v
      let kept := ftz = false ∨ r.2 &&& flUF = 0
      (k = 0 → (∀ p : Int, v = 2 ^ p → -127 ≤ p → p ≤ 127 → p ≤ 126 ∨ ftz = false →
          y.rat = (if neg then -1 else 1) * 2 ^ (-p) ∧ r.2 = 0)
        ∧ (v = 2 ^ (127 : Nat) → ftz = true → r = (fp32.signed neg 0, flUF ||| flNX))
        ∧ (y.isFin = true → kept → WithinUlp (ratCut (1 / v)) (if neg then -y.rat else y.rat)))
      ∧ (k = 1 → (neg = true → r = (fp32.nanCode, flNV))
        ∧ (neg = false → (∀ p : Int, v = 2 ^ (2 * p) → y.rat = 2 ^ (-p) ∧ r.2 = 0)
          ∧ y.isFin = true ∧ WithinUlp (invRootCut v) y.rat))
      ∧ (k = 2 → (neg = false → 128 ≤ v → r = (fp32.infCode, flOF ||| flNX))
        ∧ (∀ p : Int, (if neg then -v else v) = p → -149 ≤ p → p ≤ 127 → ftz = false ∨ -126 ≤ p → y.rat = 2 ^ p ∧ r.2 = 0)
        ∧ (neg = true ∨ v < 128 → y.isFin = true ∧ (kept → NearReal 2 ((2 : ℝ) ^ w) y.rat)))
      ∧ (k = 3 → (neg = true → r = (fp32.nanCode, flNV))
        ∧ (neg = false → (∀ p : Int, v = 2 ^ p → y.rat = p ∧ r.2 = 0)
          ∧ y.isFin = true ∧ (1 / 2 ≤ v → v ≤ 2 → |(y.rat : ℝ) - Real.logb 2 v| ≤ 2 ^ (-22 : Int))
          ∧ (v < 1 / 2 ∨ 2 < v → NearReal 2 (Real.logb 2 v) y.rat)))
      ∧ (4 ≤ k → y.isFin = true
        ∧ (v ≤ 2 ^ 20 → kept → |(y.rat : ℝ) - (if k = 4 then Real.sin w else Real.cos w)| ≤ 2 ^ (-21 : Int))
        ∧ (2 ^ 20 < v → |y.rat| ≤ 1))

/-! ### Loads -/

/-- R97, R198, R200 to R203, R305, R316: an LD, LDS or LDW whose accesses pass their checks gives what it reads to its
registers: LD per active place; LDS the bytes of the block's share, little-endian and extended by the size code; LDW once for
the group, with the address of the lowest active lane. The writes are a pending result in lane code, with the poison that
lanes met; elsewhere they are made at once, or POISON is raised after the instruction. Reading local memory changes no party.
The hint .STRM puts the lines that come in first in line to leave (R197), and no other hint of LD marks a line.
In stack 15 a load reads the control register, or a queue's TAIL, that its offset names (what no rule names is free: log 24),
and changes nothing. The address that POISON names is the lowest lane's (log 29). -/
def Obligations.Loads : Prop :=
  ∀ (s : State) (i : Instr) (o : Ops) (ls : List Nat) (qs : List (Req × List Piece)), Plain s i o ls →
    let c := s.cur
    let next := c.pc + BitVec.ofNat 64 o.form.bytes
    let gives := fun (u : State) (uni : Bool) (ws : List PWrite) (ps : Map W64) =>
      (c.unit = .lane → Does s i o ls (u.addPend c { lanes := if uni then c.group else lanesMask ls, uni := uni, pc := c.pc
                                                     writes := ws, poison := ps }) [])
      ∧ (c.unit ≠ .lane → ps = [] → Does s i o ls (u.writeAll c ws) [])
      ∧ (c.unit ≠ .lane → ∀ e rest, ps = e :: rest → Does s i o ls
          ((u.jump c 0 next).takeCause c [0] { code := 14, lanes := [0], addr := e.2 } c.pc next false) [0])
    (i = .ld o → s.checkAccess c .read { al := opBytes o } (s.reqsAB c o ls) = .ok qs →
      let r := s.loadAll c o qs
      gives (r.1.hinted s c.g o) false r.2.1 r.2.2 ∧ ((∀ q ∈ qs, Local s q.2) → MemoryOnly s (r.1.hinted s c.g o)))
    ∧ (i = .lds o →
      (∀ l ∈ ls, s.scratchOff c o l % opBytes o = 0 ∧ s.scratchOff c o l + opBytes o ≤ (s.blockOf c).share) →
      gives s false (ls.flatMap (fun l => loadWrites (fileD c o) o.d.toNat l (o.sub % 8)
        (leNat ((List.range (opBytes o)).map (fun k => (s.blockOf c).scratchAt (s.scratchOff c o l + k)))))) [])
    ∧ (i = .ldw o → let l := ls.headD 0
      s.checkAccess c .read { al := opBytes o } (s.reqsAB c o [l]) = .ok qs →
      let r := s.readReq (s.waiting c ls) c.g false (qs.flatMap (·.2))
      gives r.1 true (loadWrites .w o.d.toNat l (o.sub % 8) (leNat r.2.1))
        (match r.2.2 with | some a => [(l, a)] | none => []))
    ∧ (∀ t : State, (o.sub / 8 ≠ 1 → t.hinted s c.g o = t) ∧ (o.sub / 8 = 1 → ∀ line x y, line < 2 ^ 45 →
        (s.mem.l1Line c.g line = none → (t.hinted s c.g o).mem.l1Line c.g line = some x → x.strm = true)
        ∧ (s.mem.cline (s.agentId (dieOf c.g)) line = none →
            (t.hinted s c.g o).mem.cline (s.agentId (dieOf c.g)) line = some y → y.strm = true)))
    ∧ (∀ who g noL1 (p : Piece), s.pieceIo p = true →
      let r := s.readReq who g noL1 [p]
      r.1 = s ∧ r.2.2 = none ∧ (p.n = 8 →
        (∀ x k, ioPlace (paOff p.pa) = .reg x k 0 → leNat r.2.1 = (s.regRead x k).toNat)
        ∧ (∀ q, ioPlace (paOff p.pa) = .port q 0 → leNat r.2.1 = (s.queue q).tail % 2 ^ 64)))

/-- R204: LDMX reads each active lane's elements and scale at their homes into consecutive v registers, a pending result;
STMX writes them at their homes, every cached copy gone first. -/
def Obligations.MxUnits : Prop :=
  ∀ (s : State) (i : Instr) (o : Ops) (ls : List Nat) (ps qs : List (Req × List Piece)), Plain s i o ls →
    s.cur.unit = .lane →
    let c := s.cur
    let n := mxBytes o
    (i = .ldmx o → s.mxCheck c o .read ls = .ok (ps, qs) →
      let r := (ps.zip qs).foldl (fun (s, ws, bad) x =>
        let (s, w, a) := s.ldmxLane (s.waiting c [x.1.1.lane]) c.g o.d.toNat n (onePiece x.1) (onePiece x.2) x.1.1.lane
        (s, ws ++ w, match a with | some v => Map.put bad x.1.1.lane v | none => bad)) (s, ([] : List PWrite), ([] : Map W64))
      Does s i o ls (r.1.addPend c { lanes := lanesMask ls, pc := c.pc, writes := r.2.1, poison := r.2.2 }) [])
    ∧ (i = .stmx o → s.mxCheck c o .write ls = .ok (ps, qs) →
      let reg := fun l k => (s.v c.g c.slot l (o.d.toNat + k)).toNat
      let t := (ps.zip qs).foldl (fun s x => s.stmxLane [s.threadOf c x.1.1.lane] c.g (onePiece x.1) (onePiece x.2)
        ((List.range (n / 4)).flatMap (fun k => leBytes 4 (reg x.1.1.lane k)))
        (BitVec.ofNat 8 (reg x.1.1.lane (n / 4)))) s
      Does s i o ls t []
      ∧ ((∀ q ∈ ps, Local s [onePiece q]) → (∀ q ∈ qs, Local s [onePiece q]) → MemoryOnly s t))

/-! ### Stores -/

/-- R49, R199, R201, R305, R316, R319, R347, R352: an ST whose accesses pass their checks sets the effects bits of its active
lanes and stores every place's bytes, coalesced by line, those of stack 15 place by place; it answers a next state, with the
lines that it brings in marked as its hint says (R197). A place whose store is an append that must follow earlier accesses of its
thread issues it again (log 76). With every page local memory, no register, predicate, flag or pending result changes, nor any
party beside. In stack 15 a store writes the control register, makes the append, or raises the identity, that its offset names;
that a store to an offset which no rule names changes nothing is the model's choice (log 24). A line of another package is
written at its home: this package's copies and its reservations go, and with no copy of the line here the request goes out. -/
def Obligations.Stores : Prop :=
  (∀ (s : State) (o : Ops) (ls : List Nat) (qs : List (Req × List Piece)), Plain s (.st o) o ls →
    let c := s.cur
    s.checkAccess c .write { al := opBytes o } (s.reqsAB c o ls) = .ok qs →
    let held := qs.filter (fun q => s.appendHeld c q.1.lane q.2)
    let now := qs.filter (fun q => !s.appendHeld c q.1.lane q.2)
    let u := s.setEffects c (now.map (fun q => q.1.lane))
    let t := (u.storeReqs c (hintL2 o) (s.storeArgs c o now)).hinted s c.g o
    DoesBut s (.st o) o ls t (held.map (fun q => q.1.lane))
    ∧ ((∀ q ∈ qs, Local s q.2) → held = [] ∧ MemoryOnly u t ∧ Undisturbed s t
      ∧ t = (u.writePuts (qs.map (fun q => s.threadOf c q.1.lane)) c.g (hintL2 o) (putsOf (s.stores c o qs))).hinted s c.g o))
  ∧ (∀ (s : State) (c : Issuer) (noL1 : Bool) (l : Nat) (p : Piece) (b : List Byte), p.n = b.length →
    let t := s.storeReqs c noL1 [(l, [p], b)]
    let v := leNat b
    (s.pieceIo p = true →
      (∀ i k, ioPlace (paOff p.pa) = .reg i k 0 → p.n = 8 → t = s.regWrite i k (BitVec.ofNat 64 v))
      ∧ (∀ q, ioPlace (paOff p.pa) = .port q 0 → p.n = 8 → t = s.append q (BitVec.ofNat 64 v) (some (s.threadOf c l)))
      ∧ (∀ q k, ioPlace (paOff p.pa) = .port q k → p.n ≠ 8 → t = s.appendStop q 1 (BitVec.ofNat 64 v))
      ∧ (∀ h f, ioPlace (paOff p.pa) = .msi h f 0 → p.n = 4 → s.hartPresent h = true → f < 64 → 1 ≤ v → v ≤ 2047 →
          t = s.raiseMsi h f v)
      ∧ (ioPlace (paOff p.pa) = .none → t = s))
    ∧ (s.isLocal p.pa = false → p.cls ≠ 2 ∨ s.isPeer (p.pa / 128) = false →
        let line := p.pa / 128
        let u := s.updMem (fun m => m.clearResv line)
        t = s.askWrite [s.threadOf c l] line ∧ t.clusters = s.clusters ∧ (∀ r ∈ t.mem.resv, r.line ≠ line)
        ∧ ((∀ m ∈ s.mem.msgs, m.line ≠ line) → (∀ a ∈ s.ownAgents, s.mem.cline a line = none) →
          t = (u.tlainSend [s.threadOf c l] line true).1 ∧ t.mem = u.mem)))

/-- R191, R192, R199: stores to private pages of the package, without the hint .L2, leave in every byte they reach the last
byte stored there, for a later load of the same cluster; every other byte reads as before. -/
def Obligations.StoredBytes : Prop :=
  ∀ (s : State) (who : List Thread) (g cls : Nat) (xs : List (List Piece × List Byte)), cls < 2 →
    (∀ x ∈ xs, ∀ p ∈ x.1, p.cls = cls ∧ s.isLocal p.pa = true ∧ 0 < p.n ∧ p.pa % 128 + p.n ≤ 128
      ∧ p.at_ + p.n ≤ x.2.length ∧ p.pa / 128 < 2 ^ 45) →
    let t := s.writePuts who g false (putsOf xs)
    ∀ pa, pa / 128 < 2 ^ 45 → t.byteFor g cls pa = lastByte xs pa (s.byteFor g cls pa)

/-- R191 to R193, R278: a load or store by a cluster, of whatever class, leaves every line but its own as it was: its bytes
in DRAM, its sideband and every copy of it; and it changes no party. -/
def Obligations.OtherLinesStand : Prop :=
  ∀ (s t : State) (g cls line : Nat) (noL1 : Bool), line < 2 ^ 45 → TxnsNamed s →
    (∃ mask x, t = s.storeLine g cls line mask x noL1) ∨ (∃ need, t = (s.loadLine g cls line need noL1).1) →
    MemoryOnly s t ∧ TxnsNamed t ∧ ∀ k, k < 2 ^ 45 → k ≠ line → SameLine s t k

/-- R41, R258, R259, R278, R282: writes to a line of a memory-side page of the package in state X, with nothing in flight
about it and no error in it, are made in DRAM at once, and no other byte changes: a store of the bytes of its mask; an atomic,
which reads the old value and on a poisoned line writes nothing; the advance of a counter, whose COUNT saturates with OVF, and
whose POISON stays once set. -/
def Obligations.MemorySideWrites : Prop :=
  ∀ (s : State) (line : Nat), Quiet s line → s.isLocal (line * 128) = true → (s.mem.sideOf line).st = .X → Memory.wf s.mem = true →
    let now := fun (t : State) (a : Nat) => Bytes.get t.mem.bytes a
    (∀ g mask x noL1, let t := s.storeLine g 3 line mask x noL1
      (∀ a, now t a = if a / 128 = line ∧ mask.getLsbD (a % 128) = true then lineByte x (a % 128) else now s a)
      ∧ (t.mem.sideOf line).st = .X
      ∧ (t.mem.sideOf line).poison = ((s.mem.sideOf line).poison && decide (mask ≠ fullMask))
      ∧ Memory.wf t.mem = true)
    ∧ (∀ who g (p : Piece) (f : Nat → Nat), p.pa / 128 = line → s.isLocal p.pa = true → p.cls = 3 → p.pa % 128 + p.n ≤ 128 →
      let r := s.rmw who g p f
      let old := leNat (Bytes.getAll s.mem.bytes p.pa p.n)
      r.2.1 = old ∧ r.2.2 = (s.mem.sideOf line).poison
      ∧ (r.2.2 = false → ∀ a, now r.1 a
          = if p.pa ≤ a ∧ a < p.pa + p.n then (leBytes p.n (f old)).getD (a - p.pa) 0 else now s a)
      ∧ (r.2.2 = true → r.1.mem.bytes = s.mem.bytes))
    ∧ (∀ pa k (poison : Bool) who, pa / 128 = line → pa % 16 = 0 → s.isLocal pa = true →
      let t := s.ctrAdvance pa k poison who
      let lo := leNat (Bytes.getAll s.mem.bytes pa 8)
      let hi := leNat (Bytes.getAll s.mem.bytes (pa + 8) 8)
      let lo' := leNat (Bytes.getAll t.mem.bytes pa 8)
      let hi' := leNat (Bytes.getAll t.mem.bytes (pa + 8) 8)
      lo' % 2 ^ 63 = min (lo % 2 ^ 63 + k) (2 ^ 63 - 1)
      ∧ (2 ^ 63 ≤ lo' ↔ 2 ^ 63 ≤ lo ∨ poison = true)
      ∧ (hi'.testBit 4 = true ↔ hi.testBit 4 = true ∨ 2 ^ 63 - 1 < lo % 2 ^ 63 + k)
      ∧ hi' / 256 = hi / 256 ∧ hi' % 4 = hi % 4
      ∧ ∀ a, a < pa ∨ pa + 16 ≤ a → now t a = now s a)

/-- R202, R259, R260: an STS or ATOMS whose offsets pass their checks changes only its block's share, place by place: STS
stores each place's bytes; ATOMS performs each place's operation and gives the old values, with the acquire that its
ordering byte asks for; one that asks for a release issues again in the places of which an append, or a request to another package
that the release's scope covers, is not performed (R286). Bytes of the share that no place reaches stand. -/
def Obligations.ScratchWrites : Prop :=
  ∀ (s : State) (i : Instr) (o : Ops) (ls : List Nat), Plain s i o ls → (s.blkOf s.cur).isSome = true →
    let c := s.cur
    let stays := fun (t : State) (off : Nat → Nat) (n : Nat) => t.mem = s.mem ∧ Undisturbed s t
      ∧ ∀ a, (∀ l ∈ ls, a < off l ∨ off l + n ≤ a) → (t.blockOf c).scratchAt a = (s.blockOf c).scratchAt a
    let fits := fun (off : Nat → Nat) (n : Nat) => ∀ l ∈ ls, off l % n = 0 ∧ off l + n ≤ (s.blockOf c).share
    let held := match atomRel o with
      | some scope => ls.filter (fun l => s.appendWaits (s.threadOf c l) || s.tlainBusy (s.threadOf c l) scope)
      | none => []
    (i = .sts o →
      let n := opBytes o
      let off := s.scratchOff c o
      let val := fun l => leBytes n (s.storeVal c (fileBC c o o.cs) o.c.toNat l (o.sub % 8))
      fits off n → ∃ t, Does s i o ls t [] ∧ stays t off n
        ∧ (t.blockOf c).scratch = (ls.foldl (fun x l => x.scratchPut (off l) (val l)) (s.blockOf c)).scratch
        ∧ (∀ l, ls = [l] → ∀ k, k < n → (t.blockOf c).scratchAt (off l + k) = (val l).getD k 0))
    ∧ (i = .atoms o →
      let n := atomBytes o
      let off := fun l => (s.opA c o l false).toNat
      let now := ls.filter (fun l => !held.contains l)
      fits off n →
      let r := now.foldl (fun ((u : State), ws) l =>
        let old := (u.blockOf c).scratchNat (off l) n
        (u.updBlockOf c (fun k => k.scratchPut (off l) (leBytes n (atomNew o old (s.atomB c o l) (s.atomC c o l)))),
          ws ++ atomWrites c o l old)) (s, ([] : List PWrite))
      let t := r.1.giveLoad c o false now r.2 (atomAcq o) []
      (now ≠ [] → DoesBut s i o ls t.1 (t.2 ++ held) ∧ stays r.1 off n) ∧ (now = [] → DoesBut s i o ls s ls))

/-! ### Prefetch, cache maintenance and rows -/

/-- R205, R206: PREF brings lines of pages of a cached class in and no more: it uses a translation that is held, or walks, and
drops a request that would need a frame, fails, or names stack 15, a memory-side page or a line of another package that is not a
shared line of the island, which it asks for as a load does (the model's reading: log 53, 76). CMAINT whose ranges pass their checks leaves every line of every active place's range to be brought into its state,
each at a time of its own; such a line's dirty data goes to DRAM with its poison, and a copy of CLINV goes. None of them
changes a party. What a hint may drop and what a range covers is the model's reading (log 53). -/
def Obligations.CacheOperations : Prop :=
  (∀ (s : State) (i : Instr) (o : Ops) (ls : List Nat), Plain s i o ls →
    let c := s.cur
    let a := fun l => s.opA c o l true
    let n := fun l => (lo32 (s.opB c o [] l 0 false)).toNat
    let maint := fun (inv : Bool) =>
      (∀ l ∈ ls, n l = 0 ∨ badRange (a l) (n l) = false) →
      (∀ l ∈ ls, ∀ va ∈ rangePages (a l) (n l), s.maintPage (s.aspaceOf c) va ≠ .fault) →
      let waits := ls.flatMap (fun l => (s.maintRange (s.aspaceOf c) (a l) (n l)).map (fun e =>
        ({ who := s.threadOf c l, line := e.1, cls := e.2, inv := inv } : Maint)))
      Does s i o ls { s with eng := { s.eng with maints := s.eng.maints ++ waits } } []
    (i = .pref o → let t := ls.foldl (fun u l => u.prefetch c (o.sub = 0) (u.addrAB c o l)) s
        Does s i o ls t [] ∧ t.clusters = s.clusters ∧ Undisturbed s t
        ∧ ((∀ l ∈ ls, (s.tlbFind c.g (s.aspaceOf c) (s.addrAB c o l) .read).isSome = true) → MemoryOnly s t))
    ∧ (i = .cmaintClean o → maint false) ∧ (i = .cmaintClinv o → maint true))
  ∧ (∀ (s : State) (c : Issuer) (noL1 : Bool) (va : W64),
    let t := s.prefetch c noL1 va
    (badAddr va = true → t = s)
    ∧ (s.tlbFind c.g (s.aspaceOf c) va .read = none → s.prefWalks c.g (s.aspaceOf c) va = false → t = s)
    ∧ (∀ x, badAddr va = false → s.tlbFind c.g (s.aspaceOf c) va .read = some x →
      let pa := x.addr va
      (x.cls = 3 ∨ isIo pa = true ∨ (s.isLocal pa = false ∧ (x.cls ≠ 2 ∨ s.isPeer (pa / 128) = false)) → t = s)
      ∧ (x.cls = 2 → isIo pa = false → s.isLocal pa = false → s.isPeer (pa / 128) = true →
        t = if noL1 then (s.peerRead [] (s.agentId (dieOf c.g)) (pa / 128)).1 else (s.peerLoad [] c.g (pa / 128) false).1)
      ∧ (x.cls < 3 → isIo pa = false → s.isLocal pa = true →
        (noL1 = false → ∃ y, t.mem.l1Line c.g (pa / 128) = some y ∧ y.valid = fullMask)
        ∧ (noL1 = true → x.cls < 2 → (t.mem.cline (s.agentId (dieOf c.g)) (pa / 128)).isSome = true
          ∧ t.mem.l1 = s.mem.l1))))
  ∧ ∀ (s : State) (inv : Bool) (line cls d : Nat) (x : CLine), cls < 2 → d < 8 → s.isLocal (line * 128) = true →
    Quiet s line → Memory.wf s.mem = true → (s.mem.sideOf line).st = .I → (∀ g, s.mem.l1Line g line = none) →
    s.mem.cline (s.agentId d) line = some x → x.st = .P → x.dirty = true →
    (∀ k, k < 8 → k ≠ d → s.mem.cline (s.agentId k) line = none) →
    let t := s.maintLine inv line cls
    t.mem.dram line = x.data ∧ (t.mem.sideOf line).poison = x.poison
    ∧ t.mem.cline (s.agentId d) line = if inv then none else some { x with dirty := false }

/-- R207, R209, R211: an MSROW or MSBANK that passes its checks enters one command in the sills' list, under the next number,
with its counter's address and frame, and sets the effects bits of its active lanes. -/
def Obligations.SillCommands : Prop :=
  ∀ (s : State) (i : Instr) (o : Ops) (ls : List Nat) (x : Tlb), Plain s i o ls →
    let c := s.cur
    let reg := fun (r : BitVec 8) => s.regOf c (fileA c o) r.toNat (ls.headD 0) true
    let e := o.ext.toNat
    let enters := fun (r : SillReq) (q : SillCmd) =>
      r.check = none → s.tlbFind c.g (s.aspaceOf c) r.ctr .write = some x → x.cls = 3 →
      let t := { s.setEffects c ls with eng := { s.eng with
        nextSill := s.eng.nextSill + 1
        sills := s.eng.sills.put s.eng.nextSill
          { q with g := c.g, aspace := s.aspaceOf c, dst := r.dst, srcA := r.srcs.getD 0 0, srcB := r.srcs.getD 1 0, n := r.n
                   ctr := x.addr r.ctr, ctrVa := r.ctr, born := s.ticks, inc := bitsN e 16 16 } } }
      Does s i o ls t [] ∧ Undisturbed s t
    (i = .msrowCopy o → enters ⟨reg o.d, [reg o.a], reg o.c, 32768, bitsN e 0 16, false⟩ { op := 0 })
    ∧ (i = .msrowZero o → enters ⟨reg o.d, [], reg o.c, 32768, bitsN e 0 16, false⟩ { op := 1 })
    ∧ (i = .msbank o → enters ⟨reg o.d, [reg o.a, reg o.b], reg o.c, 128, bitsN e 0 16, true⟩
        { op := 2, bop := bitsN e 32 4, ety := bitsN e 36 4 })

/-! ### Atomics -/

/-- R257 to R260: an ATOM whose accesses pass their checks performs each active place's operation in ascending order and
gives the old values, with the acquire that its ordering byte asks for; a RED gives none; both set the effects bits. One that
asks for a release issues again in the places of which an append, or a request to another package that the release's scope covers,
is not performed (R286). The new values: sums wrap at the width, MIN
and MAX follow the type's signedness, AND, OR and XOR are bitwise, EXCH gives B, CAS gives C when the old value equals B and
leaves it otherwise; FADD rounds each element's sum once to nearest, FMIN and FMAX give the lesser and greater element with −0 below
+0, and every NaN gives the canonical one. -/
def Obligations.Atomics : Prop :=
  (∀ (s : State) (i : Instr) (o : Ops) (ls : List Nat) (qs : List (Req × List Piece)), Plain s i o ls →
    let c := s.cur
    s.checkAccess c .atomic { al := atomBytes o, always := true, noIo := true, ioMax := 128 }
      (s.reqsA c o ls (atomBytes o)) = .ok qs →
    let held := match atomRel o with
      | some scope => ls.filter (fun l => s.appendWaits (s.threadOf c l) || s.tlainBusy (s.threadOf c l) scope)
      | none => []
    let now := ls.filter (fun l => !held.contains l)
    let r := (s.setEffects c now).atomAll c o (qs.filter (fun q => !held.contains q.1.lane))
    let t := r.1.giveLoad c o false now (r.2.1.flatMap (fun e => atomWrites c o e.1 e.2)) (atomAcq o) r.2.2
    (now ≠ [] → (i = .red o → DoesBut s i o ls r.1 held) ∧ (i = .atom o → DoesBut s i o ls t.1 (t.2 ++ held)))
    ∧ (now = [] → i = .red o ∨ i = .atom o → DoesBut s i o ls s ls)
    ∧ ((∀ q ∈ qs, Local s [onePiece q]) → MemoryOnly (s.setEffects c now) r.1))
  ∧ ∀ (o : Ops) (old b x : Nat), let w := 8 * atomBytes o
    old < 2 ^ w → b < 2 ^ w →
    let num := fun n => if o.ty % 2 = 1 then (BitVec.ofNat w n).toInt else (n : Int)
    (o.sub = 0 → atomNew o old b x = (old + b) % 2 ^ w)
    ∧ (o.sub = 1 → num (atomNew o old b x) = min (num old) (num b))
    ∧ (o.sub = 2 → num (atomNew o old b x) = max (num old) (num b))
    ∧ (o.sub = 3 → ∀ k, (atomNew o old b x).testBit k = (old.testBit k && b.testBit k))
    ∧ (o.sub = 4 → ∀ k, (atomNew o old b x).testBit k = (old.testBit k || b.testBit k))
    ∧ (o.sub = 5 → ∀ k, (atomNew o old b x).testBit k = (old.testBit k ^^ b.testBit k))
    ∧ (o.sub = 6 → atomNew o old b x = b)
    ∧ (o.sub = 7 ∨ o.sub = 8 → atomNew o old b x = if old = b then x else old)
    ∧ (9 ≤ o.sub → o.sub ≤ 11 → 4 ≤ o.ty → o.ty ≤ 7 →
      BitVec.ofNat 64 (atomNew o old b x) = atomFloatOf o.ty o.sub (BitVec.ofNat 64 old) (BitVec.ofNat 64 b))

/-- R200, R250, R257, R261: an LR that passes its checks on pages that are not memory-side gives what its places read at the
L2, and replaces the reservation of its warp or context by one on the line of the lowest place; an SC stores, in ascending
order, where its place's address lies in the reserved line, gives 0 there and 1 elsewhere, and the reservation goes; one that
asks for a release issues again while an append of its places, or a request of theirs to another package that the release's scope
covers, is not performed (of the whole group: log 76). A memory-side
page raises ACCESS in the places that name it. On a private page of the package an LR reads what a load would read, and what
an SC stores is what a later load of its cluster reads. -/
def Obligations.Reservations : Prop :=
  (∀ (s : State) (i : Instr) (o : Ops) (ls : List Nat) (qs : List (Req × List Piece)), Plain s i o ls →
    let c := s.cur
    let n := if wideTy o.ty then 8 else 4
    let rule : Rule := { al := n, always := true, noIo := true, ioMax := 128 }
    let side := qs.filter (fun q => q.2.any (fun p => p.cls = 3))
    (∀ q r, side = q :: r → (i = .lr o ∧ s.checkAccess c .read rule (s.reqsA c o ls n) = .ok qs)
        ∨ (i = .sc o ∧ s.checkAccess c .write rule (s.reqsA c o ls n) = .ok qs) →
      exec i s = .next (s.raise c { code := 9, lanes := side.map (fun x => x.1.lane), addr := q.1.va, info := 0xFFFF }))
    ∧ (side = [] → i = .lr o → s.checkAccess c .read rule (s.reqsA c o ls n) = .ok qs →
      let r := qs.foldl (fun (a : State × List PWrite × Map W64) q =>
        let x := a.1.lrRead (a.1.waiting c [q.1.lane]) c.g (onePiece q)
        (x.1, a.2.1 ++ resWrites (fileD c o) o.d.toNat q.1.lane o.ty (wideTy o.ty) (BitVec.ofNat 64 x.2.1),
          if x.2.2 then Map.put a.2.2 q.1.lane q.1.va else a.2.2)) (s, [], [])
      let u := r.1.updMem (fun m => { m with resv := m.resv.filter (fun x => !x.isOf c) ++
        [{ g := c.g, spine := c.unit = Unit.spine, slot := c.slot, line := (onePiece (qs.headD default)).pa / 128
           agent := r.1.agentId (dieOf c.g) }] })
      let t := u.giveLoad c o false ls r.2.1 (if o.b.getLsbD 3 then some (o.b.toNat % 8) else none) r.2.2
      Does s i o ls t.1 t.2 ∧ ((∀ q ∈ qs, Local s [onePiece q]) → MemoryOnly s r.1))
    ∧ (side = [] → i = .sc o → s.checkAccess c .write rule (s.reqsA c o ls n) = .ok qs →
      let late := decide (o.b.getLsbD 4 = true) && ls.any (fun l =>
        s.appendWaits (s.threadOf c l) || s.tlainBusy (s.threadOf c l) (o.b.toNat % 8))
      let wins := qs.filter (fun q => (s.mem.resv.find? (fun r => r.isOf c)).any (fun r => r.line = (onePiece q).pa / 128))
      let won := wins.map (fun q => q.1.lane)
      let r := wins.foldl (fun x q => x.scStore [s.threadOf c q.1.lane] c.g (onePiece q)
        (s.regOf c (fileBC c o o.cs) o.c.toNat q.1.lane (wideTy o.ty)).toNat) (s.setEffects c won)
      let u := r.updMem (fun m => { m with resv := m.resv.filter (fun x => !x.isOf c) })
      let t := u.giveLoad c o false ls (ls.flatMap (fun l =>
        resWrites (fileD c o) o.d.toNat l 0 false (if won.contains l then 0 else 1))) none []
      (late = true → DoesBut s i o ls s ls)
      ∧ (late = false → Does s i o ls t.1 t.2 ∧ ((∀ q ∈ qs, Local s [onePiece q]) → MemoryOnly (s.setEffects c won) r))))
  ∧ ∀ (s : State) (who : List Thread) (g : Nat) (p : Piece), p.cls < 2 → s.isLocal p.pa = true → p.pa / 128 < 2 ^ 45 →
    0 < p.n → p.pa % 128 + p.n ≤ 128 →
    (s.mem.l1Line g (p.pa / 128) = none → (s.lrRead who g p).2.1
      = leNat ((List.range p.n).map (fun k => s.byteFor g p.cls (p.pa + k))))
    ∧ ∀ v k, k < p.n → (s.scStore who g p v).byteFor g p.cls (p.pa + k) = (leBytes p.n v).getD k 0

/-! ### Fences, barriers and counters -/

/-- R193, R206, R246, R262, R286, R316, R317: a FENCE or FENCER, in the places none of whose appends, and none of whose requests
to another package that its scope covers, is still to be performed, completes their CMAINTs and performs the acquire of its
scope: for scope die or wider the cluster's shared-tagged L1 lines go; with no CMAINT of theirs pending nothing else changes.
The other places issue it again (log 4, 46). A FENCER checks that its bases lie within the address space, or raises ACCESS. -/
def Obligations.Fences : Prop :=
  ∀ (s : State) (i : Instr) (o : Ops) (ls : List Nat), Plain s i o ls →
    let c := s.cur
    let a := fun l => s.opA c o l true
    let goes := fun (scope : Nat) =>
      let late := ls.filter (fun l => s.appendWaits (s.threadOf c l) || s.tlainBusy (s.threadOf c l) scope)
      let done := ls.filter (fun l => !late.contains l)
      let u := done.foldl (fun (t : State) l => t.maintAll (s.threadOf c l)) s
      let l1 := if scope < 3 then u.mem.l1 else u.mem.l1.filter (fun e => !(decide (e.1 / 2 ^ 45 = c.g) && e.2.shared))
      (done = [] → DoesBut s i o ls s ls)
      ∧ (done ≠ [] → DoesBut s i o ls { u with mem := { u.mem with l1 := l1 } } late)
      ∧ ((∀ l ∈ done, ∀ m ∈ s.eng.maints, m.who ≠ s.threadOf c l) → u = s)
    (i = .fence o → goes o.b.toNat)
    ∧ (i = .fencer o → (∀ l ∈ ls, (a l).toNat < 2 ^ 51) → goes o.c.toNat)
    ∧ (i = .fencer o → ∀ l r, ls.filter (fun l => decide (2 ^ 51 ≤ (a l).toNat)) = l :: r →
        exec i s = .next (s.raise c { code := 9, lanes := l :: r, addr := a l, info := 0xFFFF }))

/-- R26, R263 to R266, R296, R362: BAR of a group of the party's block. ARRIVE and DROP arrive; SYNC arrives, in the places of
which not only the wait half is left, and WAIT does not, and both go on when the party's arrival is not one of the present
phase, or block on the group when R26 lets them, and raise ILLEGAL_WAIT when it does not. A lane that arrives again in a phase
in which its warp has been counted is held until the phase completes, and arrives then. A group that the party does not hold
or has left is ACCESS, and so is an arrival at a group, named by its table index, of which it is no member. That INFO of
ILLEGAL_WAIT names the group by its index in the block's table is the model's choice (log 59). REMOTE makes one
arrival at a group of another block of its launch, unless that has retired, and issues again while an append of its places is
not performed (log 76). A wave has no groups, and a party that dropped out is no member (log 58). -/
def Obligations.Barriers : Prop :=
  (∀ (s : State) (i : Instr) (o : Ops) (ls : List Nat) (k : Nat), Plain s i o ls →
    let c := s.cur
    let e := s.barEntry c k
    let code := (s.group c.g e).pcode
    let illegal := fun (ps : List Nat) => ps.filter (fun l => !s.waitLegal c l code none)
    let block := fun (t : State) (obj : WaitObj) (ps rest : List Nat) (sync : Bool) =>
      (illegal ps = [] → Does s i o ls (t.blockOn c ps 2 obj o.form.bytes o.sw sync) (ps ++ rest))
      ∧ (∀ l r, illegal ps = l :: r →
          exec i s = .next (s.raise c { code := 5, lanes := l :: r, info := BitVec.ofNat 64 (code + 4 * k) }))
    let access := exec i s = .next (s.raise c { code := 9, lanes := ls, info := 0xFFFF })
    let holds := s.barIndex c o = some k ∧ (s.arriveOf c e).dropped = false
    let member := holds ∧ s.barMember c e = true
    let only := ls.filter (fun l => s.onlyWaits c l)
    let come := ls.filter (fun l => !s.onlyWaits c l)
    (member → s.barHeld c e = false →
      (i = .barArrive o → Does s i o ls (s.arrive c e ls false) []) ∧ (i = .barDrop o → Does s i o ls (s.arrive c e ls true) []))
    ∧ (member → s.barHeld c e = true → i = .barArrive o ∨ i = .barDrop o → block s (.regroup e) ls [] false)
    ∧ (i = .barSync o → member → c.unit = .lane ∨ c.unit = .spine →
      (come = [] ∨ s.barHeld c e = false →
        let t := s.arrive c e come false
        (t.barWaits c e = false → Does s i o ls t []) ∧ (t.barWaits c e = true → block t (.group e) ls [] true))
      ∧ (come ≠ [] → s.barHeld c e = true →
        block (s.blockOn c only 2 (.group e) o.form.bytes o.sw true) (.regroup e) come only false))
    ∧ (i = .barWait o → holds →
        (s.barWaits c e = false → Does s i o ls s [])
        ∧ (s.barWaits c e = true → block s (.group e) ls [] (decide (o.sub % 8 = 2))))
    ∧ (i = .barArrive o ∨ i = .barDrop o ∨ i = .barSync o ∨ i = .barWait o →
        s.barIndex c o = none ∨ (s.barIndex c o = some k ∧ (s.arriveOf c e).dropped = true) → access)
    ∧ (i = .barArrive o ∨ i = .barDrop o ∨ i = .barSync o → s.barIndex c o = some k → s.barMember c e = false → access)
    ∧ (i = .barRemote o →
        let b := s.blockOf c
        let blk := (s.opB c o [] (ls.headD 0) 2 true).toNat
        let ok := s.waveOf c = none ∧ b.img.cls = 0 ∧ blk < b.nx * b.ny * b.nz ∧ o.a.toNat < b.img.groups.length
        (ok → (∀ l ∈ ls, s.appendWaits (s.threadOf c l) = false) →
            Does s i o ls ((s.setEffects c ls).remoteArrive b.lnum blk o.a.toNat) [])
        ∧ (ok → (∃ l ∈ ls, s.appendWaits (s.threadOf c l) = true) → DoesBut s i o ls s ls) ∧ (¬ok → access)))
  ∧ ∀ (s : State) (lnum blk k : Nat), (s.work.launches.get lnum {}).away = false →
    (∀ g b, s.findBlock lnum blk = some (g, b) →
      s.remoteArrive lnum blk k = s.countArrival g ((s.block g b).groupMap.getD k 0) false)
    ∧ (s.findBlock lnum blk = none → s.remoteArrive lnum blk k = s)

/-- R22, R264, R266: an arrival counts one, and one more drop when it is a drop. When the arrivals have reached what the group
expects, the phase turns, what is expected falls by the drops, and arrivals beyond it are carried into the next
phase, and no lane of any warp is left in the new phase's masks. A warp counts once its live lanes have all arrived: then exactly one arrival is counted, a drop when one of its lanes
dropped, its mask is empty, and a warp that dropped has left the group when the phase turns. -/
def Obligations.PhaseCompletes : Prop :=
  ∀ (s : State) (g e : Nat) (drop : Bool),
    let x := s.group g e
    let counts := fun (y : GroupEntry) (drop : Bool) =>
      let d := x.drops + (if drop then 1 else 0)
      (x.expect_ = 0 ∨ x.arrived + 1 < x.expect_ → y = { x with arrived := x.arrived + 1, drops := d })
      ∧ (x.expect_ ≠ 0 → x.expect_ ≤ x.arrived + 1 →
          y.phase = (!x.phase) ∧ y.round = x.round + 1 ∧ y.expect_ = x.expect_ - d ∧ y.drops = 0
          ∧ y.arrived = x.arrived + 1 - x.expect_ ∧ y.pcode = x.pcode ∧ y.valid = x.valid)
    counts ((s.countArrival g e drop).group g e) drop
    ∧ (x.expect_ ≠ 0 → x.expect_ ≤ x.arrived + 1 → ∀ k,
        (((s.countArrival g e drop).warp g k).arr.get e {}).mask = 0 ∧ (((s.countArrival g e drop).warp g k).arr.get e {}).drop = false)
    ∧ ∀ k ls,
        let a := (s.warp g k).arr.get e {}
        let m := a.mask ||| lanesMask ls
        let t := s.arriveLanes g k e ls drop
        let b := (t.warp g k).arr.get e {}
        ((s.warp g k).liveMask &&& ~~~m ≠ 0 → t.group g e = x ∧ b = { a with mask := m, drop := a.drop || drop })
        ∧ ((s.warp g k).liveMask &&& ~~~m = 0 → m ≠ 0 →
          counts (t.group g e) (a.drop || drop) ∧ b.mask = 0 ∧ b.counted = true ∧ b.round = x.round
          ∧ ((x.expect_ = 0 ∨ x.arrived + 1 < x.expect_) → b.drop = (a.drop || drop) ∧ b.dropped = a.dropped)
          ∧ (x.expect_ ≠ 0 → x.expect_ ≤ x.arrived + 1 → a.drop = true ∨ drop = true → a.dropped = false → k < 64 →
              b.dropped = true ∧ (t.group g e).warps.getLsbD k = false))

/-- R26, R42, R214, R267, R362: SEQWAIT gives POISON of their counters to the places whose counters reach their thresholds, with
the acquire, and the others block there when R26 lets them, and raise ILLEGAL_WAIT when it does not; SEQWAIT.TRY gives whether
each counter does, and always goes on; SEQADD advances every place's counter, but for the places of which an append, or a request
to another package that its scope covers, is not performed, which issue it again, in a sequencer only when its commands have
completed. An amount or threshold beyond 63 bits raises ACCESS, and that this check comes before those of alignment and
translation is the model's choice (log 60). -/
def Obligations.Counters : Prop :=
  ∀ (s : State) (i : Instr) (o : Ops) (ls : List Nat) (xs : List (Nat × Nat)), Plain s i o ls →
    let c := s.cur
    let r := s.seqViews xs
    let thr := fun l => (s.unsB c o l true).toNat
    let sat := fun (v : SeqView) => ctrSat v.lo (thr v.lane)
    let pd := o.d.toNat % 16
    let scope := o.c.toNat % 8
    let done := r.2.filter sat
    let left := r.2.filter (fun v => !sat v)
    let illegal := left.filter (fun v => !s.waitLegal c v.lane v.code (some v.floor))
    let above := ls.filter (fun l => decide (2 ^ 63 ≤ thr l))
    let idle := c.isSeq = true → (s.seqr c.g c.isCopy).flight = 0
    (i = .seqwait o → s.counterCheck c o .read ls = .ok xs → illegal = [] →
      let t := r.1.putPreds c pd (done.map (fun v => (v.lane, ctrPoison v.lo)))
      Does s i o ls (left.foldl (fun t v => t.seqBlock c o v) (if done = [] then t else t.acquire c.g scope))
        (left.map SeqView.lane))
    ∧ (i = .seqwait o → s.counterCheck c o .read ls = .ok xs → ∀ v q, illegal = v :: q →
        exec i s = .next (s.raise c { code := 5, lanes := illegal.map SeqView.lane, addr := s.opA c o v.lane true
                                      info := BitVec.ofNat 64 v.code }))
    ∧ (i = .seqwaitTry o → s.counterCheck c o .read ls = .ok xs →
        let t := r.1.putPreds c pd (r.2.map (fun v => (v.lane, sat v)))
        Does s i o ls (if (r.2.map (fun v => (v.lane, sat v))).any (·.2) then t.acquire c.g scope else t) [])
    ∧ (i = .seqadd o → s.counterCheck c o .write ls = .ok xs → idle →
        let held := ls.filter (fun l => s.appendWaits (s.threadOf c l) || s.tlainBusy (s.threadOf c l) scope)
        let now := xs.filter (fun x => !held.contains x.1)
        DoesBut s i o ls (now.foldl (fun t x => t.ctrAdvance x.2 (thr x.1) (o.sub % 2 = 1) [s.threadOf c x.1])
          (s.setEffects c (now.map (·.1)))) held)
    ∧ (i = .seqadd o → ¬idle → DoesBut s i o ls s ls)
    ∧ (i = .seqwait o ∨ i = .seqwaitTry o ∨ (i = .seqadd o ∧ idle) → above ≠ [] →
        exec i s = .next (s.raise c { code := 9, lanes := above, info := 0xFFFF }))

/-! ### Pegs and rings -/

/-- R268, R270 to R274: PEGW fills an empty peg of no gather with the lowest active place's value; PEGW.G and REDW enter their
value in their slot of a gather, and the last contribution of a round fills the peg with the combination, whose flags are
set with those of the value; PEGR reads a full peg with a count; a write of a full peg and a read of an empty one wait.
PEGCTL.ARM, PEGCTL.CLEAR and PEGCTL.DISARM arm, clear or disarm a peg, and every form leaves it empty. Registers other than a
destination stand, and so does memory. A warp's or context's counted read of a full peg takes one from its count, once for each
generation; the read that takes the last one empties the peg, and a peg filled with count 0 stays full. -/
def Obligations.PegOperations : Prop :=
  (∀ (s : State) (i : Instr) (o : Ops) (ls : List Nat) (pv : PegVals), Issues s i o (fieldWrites i) ls s pv →
    let c := s.cur
    let p := s.pegPhys c o.d.toNat
    let x := s.peg c.g p
    let red := s.redwVal c o ls
    let puts := fun (y : Peg) => ∃ t, Does s i o ls t [] ∧ Undisturbed s t ∧ t.mem = s.mem ∧ t.peg c.g p = y
      ∧ ∀ k, k ≠ p → t.peg c.g k = s.peg c.g k
    let enters := fun (u : State) (slot : Nat) (v : W64) (fl : Flags) =>
      x.gather = true → slot < armN x.armed → armTy x.armed = o.ty →
      (x.full = true → Does s i o ls (u.blockOn c ls 5 (.pegEmpty p) o.form.bytes o.sw false) ls)
      ∧ (x.full = false → x.contrib.has slot = false → ∃ t, Does s i o ls t []
        ∧ let cs := x.contrib.put slot v
          let last := armN x.armed ≤ cs.length
          let sum := gatherFold x.armed cs.vals
          (¬last → t.peg c.g p = { x with contrib := cs })
          ∧ (last → t.peg c.g p
              = { x with full := true, val := pegFill (armTy x.armed) sum.1, cnt := armCnt x.armed
                         gen := x.gen + 1, seen := 0, seenSpine := 0, contrib := [] })
          ∧ (Housed s c → t.fpflags c = s.fpflags c ||| fl ||| (if last then sum.2 else 0))
          ∧ (∀ (d : Issuer) (f : RFile) (k l : Nat), t.reads d f k l = s.reads d f k l)
          ∧ (∀ d l, t.pcOf d l = s.pcOf d l ∧ t.holdOf d l = s.holdOf d l)
          ∧ t.mem = s.mem ∧ ∀ k, k ≠ p → t.peg c.g k = s.peg c.g k)
    (i = .pegw o → x.gather = false →
      (x.full = false → puts { x with full := true, val := pegFill o.ty (s.opB c o [] (ls.headD 0) o.ty (wideTy o.ty))
                                      cnt := o.c.toNat, gen := x.gen + 1, seen := 0, seenSpine := 0 })
      ∧ (x.full = true → Waits s i o ls 5 (.pegEmpty p) false))
    ∧ (i = .pegwG o → enters (s.setEffects c ls) o.c.toNat (s.opB c o [] (ls.headD 0) o.ty (wideTy o.ty)) 0)
    ∧ (i = .redw o → o.ds = 3 → let slot := if o.cs = 3 then o.c.toNat else (s.regOf c .w o.c.toNat 0 false).toNat
        slot < 16 → enters s slot red.1 red.2)
    ∧ (i = .redw o → o.ds ≠ 3 → Does s i o ls ((s.writeAll c (ls.flatMap (fun l =>
        resWrites (fileD c o) o.d.toNat l o.ty false red.1))).orFlags c red.2) [])
    ∧ (i = .pegr o → let q := s.pegPhys c o.b.toNat
        let y := s.peg c.g q
        (y.full = true → Does s i o ls ((s.updPeg c.g q (fun _ => y.read c)).setS c.g c.slot o.d.toNat y.val) [])
        ∧ (y.full = false → Waits s i o ls 4 (.pegFull q) false))
    ∧ (i = .pegctlArm o → let w := lo32 (s.unsB c o (ls.headD 0) false)
        armOk w = true → x.gather = true ∨ (s.cl c.g).armedPegs < 32 →
        puts { x with full := false, cnt := 0, gather := true, armed := w, contrib := [] })
    ∧ (i = .pegctlClear o → puts { x with full := false, cnt := 0, contrib := [] })
    ∧ (i = .pegctlDisarm o → puts { x with full := false, cnt := 0, gather := false, armed := 0, contrib := [] }))
  ∧ ∀ (p : Peg) (c : Issuer), c.unit = .lane ∨ c.unit = .spine →
    let seen := if c.unit = .lane then p.seen.getLsbD c.slot else p.seenSpine.getLsbD c.slot
    let q := p.read c
    (seen = true → q = p)
    ∧ (seen = false → p.cnt = 0 → q.full = p.full ∧ q.cnt = 0)
    ∧ (seen = false → p.cnt = 1 → q.full = false ∧ q.cnt = 0)
    ∧ (seen = false → 1 < p.cnt → q.full = p.full ∧ q.cnt = p.cnt - 1)
    ∧ q.val = p.val ∧ q.gen = p.gen ∧ q.gather = p.gather ∧ q.armed = p.armed ∧ q.contrib = p.contrib
    ∧ (c.unit = .lane → c.slot < 64 → q.seen.getLsbD c.slot = true)
    ∧ (c.unit = .spine → c.slot < 4 → q.seenSpine.getLsbD c.slot = true)

/-- R219, R220: a transition of a well-formed ring that is allowed moves one slot from its count to the next, leaves the ring
well formed, and gives the slot at PUTIX or GETIX, which RESERVE and TAKE advance; RESERVE of a ring with no free slot
and TAKE of one with no full slot wait; a COMMIT or RETURN with nothing to give back, and anything on a malformed ring, is
refused. -/
def Obligations.RingTransitions : Prop :=
  ∀ (r : Ring),
    (∀ op, r.ok = false → r.step op = .refused)
    ∧ (∀ op x slot, r.step op = .done x slot → r.ok = true ∧ x.ok = true ∧ x.base = r.base ∧ x.slotsz = r.slotsz
        ∧ x.nslots = r.nslots ∧ (op = .reserve ∨ op = .take → slot < r.nslots))
    ∧ (r.ok = true →
      (r.allow = 0 → r.step .reserve = .waits r.ccode) ∧ (r.fill = 0 → r.step .take = .waits r.pcode)
      ∧ (r.resv = 0 → r.step .commit = .refused) ∧ (r.takn = 0 → r.step .ret = .refused)
      ∧ (r.allow ≠ 0 → r.step .reserve
          = .done { r with allow := r.allow - 1, resv := r.resv + 1, putix := (r.putix + 1) % r.nslots } r.putix)
      ∧ (r.fill ≠ 0 → r.step .take
          = .done { r with fill := r.fill - 1, takn := r.takn + 1, getix := (r.getix + 1) % r.nslots } r.getix)
      ∧ (r.resv ≠ 0 → r.step .commit = .done { r with resv := r.resv - 1, fill := r.fill + 1 } 0)
      ∧ (r.takn ≠ 0 → r.step .ret = .done { r with takn := r.takn - 1, allow := r.allow + 1 } 0))

/-- R26, R97, R219, R220, R275, R319, R362: QPUSH.RSV and QPOP that the ring allows perform RESERVE or TAKE and give the slot; QPUSH.CMT
and QPOP.RET perform COMMIT or RETURN; the TRY forms say besides whether they did, and give 0xFFFFFFFF when not; a
blocking form waits when R26 lets it, and raises ILLEGAL_WAIT when it does not; a refused transition raises RING_FAULT. Producers' transitions set the effects bits. -/
def Obligations.RingOperations : Prop :=
  ∀ (s : State) (i : Instr) (o : Ops) (ls : List Nat) (r : Ring) (slot : Nat), Plain s i o ls →
    let c := s.cur
    let num := s.ringNum c o ls
    let writes := fun (x : W64) (ok : Option Bool) => ls.flatMap (fun l => resWrites (fileD c o) o.d.toNat l 0 false x
      ++ (match ok with | some b => [(⟨l, .p, o.c.toNat % 16, if b then 1 else 0⟩ : PWrite)] | none => []))
    let reserves := fun (ok : Option Bool) => s.ringOf c num .reserve = .done r slot →
      Does s i o ls (((s.ringPut c num .reserve).setEffects c ls).writeAll c (writes (BitVec.ofNat 64 slot) ok)) []
    let takes := fun (ok : Option Bool) => s.ringOf c num .take = .done r slot →
      let t := (s.ringPut c num .take).giveLoad c o false ls (writes (BitVec.ofNat 64 slot) ok) none []
      Does s i o ls t.1 t.2
    let waits := fun (op : RingOp) (k : Nat) => ∀ code, s.ringOf c num op = .waits code →
      let illegal := ls.filter (fun l => !s.waitLegal c l code none)
      (illegal = [] → Waits s i o ls 6 (.ring (num + k)) false)
      ∧ (illegal ≠ [] → exec i s = .next (s.raise c { code := 5, lanes := illegal, info := BitVec.ofNat 64 (code + 4 * num) }))
    let refused := fun (op : RingOp) => s.ringOf c num op = .refused →
      exec i s = .next (s.raise c { code := 13, lanes := ls, info := BitVec.ofNat 64 num })
    (i = .qpushRsv o → reserves none ∧ waits .reserve 0 ∧ refused .reserve)
    ∧ (i = .qpushRsvTry o → reserves (some true) ∧ refused .reserve
        ∧ ∀ code, s.ringOf c num .reserve = .waits code → Does s i o ls (s.writeAll c (writes 0xFFFFFFFF (some false))) [])
    ∧ (i = .qpushCmt o → refused .commit ∧ (s.ringOf c num .commit = .done r slot →
        Does s i o ls ((s.ringPut c num .commit).setEffects c ls) []))
    ∧ (i = .qpop o → takes none ∧ waits .take 32 ∧ refused .take)
    ∧ (i = .qpopTry o → takes (some true) ∧ refused .take
        ∧ ∀ code, s.ringOf c num .take = .waits code →
          let t := s.giveLoad c o false ls (writes 0xFFFFFFFF (some false)) none []
          Does s i o ls t.1 t.2)
    ∧ (i = .qpopRet o → refused .ret ∧ (s.ringOf c num .ret = .done r slot → Does s i o ls (s.ringPut c num .ret) []))

/-! ### Sequencers and engines -/

/-- R213 to R217, R301: a FORK of a block whose entries lie in the code, with every named sequencer IDLE and no earlier FORK
waiting for one, starts them at their entries, each with the four arguments in e0 to e3 and its other registers and its
predicates zero; otherwise it waits in arrival order. RDV of lanes or a context waits until the named sequencers satisfy it;
RDV of a sequencer with no command under way puts it in RDV, in a wait of kind 7, counts its arrivals, which a time-out would
take back (log 76), and ends the rendezvous that it completes; with commands under way it issues again. -/
def Obligations.ForkAndRendezvous : Prop :=
  ∀ (s : State) (i : Instr) (o : Ops) (ls : List Nat), Plain s i o ls →
    let c := s.cur
    let b := (s.blkOf c).getD 0
    let x := o.ext.toNat
    let mask := x % 4
    let img := (s.blockOf c).img
    let entry := fun (copy : Bool) => 8 * bitsN x (if copy then 32 else 4) 28
    let named := fun (copy : Bool) => (if copy then x / 2 else x) % 2 = 1
    let inCode := fun e => 128 ≤ e ∧ e < 128 + img.codeSize
    let lanes := c.unit = .lane ∨ c.unit = .spine
    let arg := fun k => s.regOf c (if c.unit = .lane then .w else .s) (o.a.toNat + (if c.unit = .lane then 2 else 1) * k)
      (ls.headD 0) true
    (i = .fork o → lanes → s.waveOf c = none → (∀ copy, named copy → inCode (entry copy)) →
      (s.forkOk c ls mask = true → ∃ t, Does s i o ls t [] ∧ ∀ copy,
        (named copy → let q := t.seqr c.g copy
          q.st = .run ∧ q.blk = b ∧ q.pc = img.base + BitVec.ofNat 64 (entry copy) ∧ q.hold = .free ∧ q.p = 0 ∧ q.flight = 0
          ∧ ∀ k, t.ereg c.g copy k = if k < 4 then arg k else 0)
        ∧ (¬named copy → t.seqr c.g copy = s.seqr c.g copy))
      ∧ (s.forkOk c ls mask = false → ∃ u, Does s i o ls (u.blockOn c ls 8 (.fork mask) o.form.bytes o.sw false) ls
        ∧ Undisturbed s u ∧ ∃ w ∈ (u.cl c.g).forkQ, ∃ l ∈ ls, w.isFor c l = true))
    ∧ (i = .rdv o → lanes → s.waveOf c = none →
        Does s i o ls ((s.blockOn c ls 7 (.rdv o.b.toNat) o.form.bytes o.sw false).rdvCheck c.g b) ls)
    ∧ (i = .rdv o → c.isSeq = true → (s.seqr c.g c.isCopy).flight = 0 →
        let u := (s.blockOn c ls 7 (.rdv 0) o.form.bytes false false).updSeqr c.g c.isCopy
          (fun q => { q with st := .rdv, came := s.seqGroups c.g c.isCopy })
        Does s i o ls ((u.seqArrive c.g c.isCopy).rdvCheck c.g (u.seqr c.g c.isCopy).blk) [0])
    ∧ (i = .rdv o → c.isSeq = true → (s.seqr c.g c.isCopy).flight ≠ 0 → DoesBut s i o ls s [0])

/-- R26, R226, R231, R237: a TCOPY, MMA or COLL that passes its checks enters one command in its engine's queue and goes on:
TCOPY with its descriptor, base and counter, and with the slot that it reserves or takes in its block's ring when it names one;
MMA with the slots it found, which it takes from its rings when it releases them; COLL as a step under the next number. A
TCOPY that finds 16 commands in the queue keeps its command, and the slot it has, and issues again until there is room
(log 76); one whose ring has no slot waits for it when R26 lets it. A descriptor that fails a check raises its cause, an MMA
of a malformed ring RING_FAULT, of an unallocated bank ACC_UNALLOCATED, whose INFO, the first bank and 65536 times their number,
is the model's choice (log 40). -/
def Obligations.EngineCommands : Prop :=
  ∀ (s : State) (i : Instr) (o : Ops) (ls : List Nat), Plain s i o ls → s.waveOf s.cur = none →
    let c := s.cur
    let l := ls.headD 0
    let b := (s.blkOf c).getD 0
    let x := o.ext.toNat
    let held := (s.cl c.g).copyHeld.find? (fun h => h.isOf c ls)
    (i = .tcopy o → held = none → ∀ u addr bytes, s.tcopyDesc c o l ls = .ok (u, addr, bytes) →
      let d := parseDesc bytes
      let ovr := if x / 2 % 2 = 1 then some (lo32 (u.opB c o [] l 0 false)).toNat else none
      let ring := if bitsN x 7 1 = 1 then some (bitsN x 2 5) else none
      let k := (u.blkOf c).getD 0
      let check := u.tcopyCheck c d (u.tcopyBase c d ovr ring)
      let enters := fun (v : State) (q : CopyCmd) =>
        ((v.cl c.g).copyQ.length < 16 → Does s i o ls ((v.tcopySubmit c q).setEffects c ls) [])
        ∧ (16 ≤ (v.cl c.g).copyQ.length → DoesBut s i o ls (v.updCl c.g (fun y => { y with copyHeld := y.copyHeld ++
            [{ who := { c with group := lanesMask ls }, cmd := q }] })) ls)
      (∀ n, check = some n → exec i s = .next (s.raise c { code := n, lanes := ls, addr := addr, info := if n = 9 then 0xFFFF else 0 }))
      ∧ ∀ ctr, check = none → u.tcopyCtr c d ls = .ok ctr →
        let q : CopyCmd := { blk := k, desc := bytes, addr := addr, base := ovr, ctr := ctr, ctrVa := BitVec.ofNat 64 d.ctr
                             born := u.ticks, seq := if c.isSeq then some (if c.isCopy then 0 else 1) else none }
        (ring = none → enters u q)
        ∧ (ring ≠ none → d.dir = 2 → exec i s = .next (s.raise c { code := 1, lanes := ls, info := firstBits i }))
        ∧ (ring ≠ none → d.dir ≠ 2 →
          (∀ e ∈ u.tcopyRings c d, ∃ off r, u.ringAt e.1 e.2 (bitsN x 2 5) = some (off, r) ∧ r.ok = true ∧ d.span ≤ 64 * r.slotsz) →
          ∀ off r, u.ringAt c.g k (bitsN x 2 5) = some (off, r) →
          (∀ r' slot, r.step (if d.dir = 0 then .reserve else .take) = .done r' slot →
            enters (u.updBlock c.g k (fun y => y.writeRing off r')) { q with base := some (r.slotOff slot), ring := some (bitsN x 2 5) })
          ∧ (∀ code, r.step (if d.dir = 0 then .reserve else .take) = .waits code → (∀ l ∈ ls, u.waitLegal c l code none = true) →
            Does s i o ls (u.blockOn c ls 6 (.ring (bitsN x 2 5 + if d.dir = 0 then 0 else 32)) o.form.bytes o.sw false) ls)))
    ∧ (i = .tcopy o → ∀ h, held = some h →
      let mine := ls.filter (fun l => decide (c.unit ≠ .lane) || h.who.group.getLsbD l)
      ((s.cl c.g).copyQ.length < 16 → DoesBut s i o ls
        (((s.updCl c.g (fun y => { y with copyHeld := y.copyHeld.filter (· ≠ h) })).tcopySubmit c h.cmd).setEffects c mine)
        (ls.filter (fun l => !(decide (c.unit ≠ .lane) || h.who.group.getLsbD l))))
      ∧ (16 ≤ (s.cl c.g).copyQ.length → DoesBut s i o ls s ls))
    ∧ (i = .mma o →
      let f := mmaForm o.ext
      let a := s.mmaRing c f.ra (f.tileBytes f.ta f.m)
      let d := s.mmaRing c f.rb (f.tileBytes f.tb f.bRows)
      let banks := ∀ k ∈ f.banks, ((s.accView c).allocOf k).isSome = true
      (∀ ra rb, a = some ra → d = some rb → banks → ra.fill ≠ 0 → rb.fill ≠ 0 →
        let taken := match s.ringDo c.g b f.ra .take with
          | some (t, _) => ((t.ringDo c.g b f.rb .take).map (·.1)).getD t
          | none => s
        Does s i o ls ((if f.rel then taken else s).mmaSubmit c
          { blk := b, ext := o.ext, int := o.sub = 1, slotA := ra.slotOff ra.getix, slotB := rb.slotOff rb.getix, seq := some 1 }) [])
      ∧ (a = none → exec i s = .next (s.raise c { code := 13, lanes := [0], info := BitVec.ofNat 64 f.ra }))
      ∧ (∀ ra, a = some ra → d = none → exec i s = .next (s.raise c { code := 13, lanes := [0], info := BitVec.ofNat 64 f.rb }))
      ∧ (∀ ra rb, a = some ra → d = some rb → ¬banks →
        exec i s = .next (s.raise c { code := 10, lanes := [0], info := BitVec.ofNat 64 (f.base + 65536 * f.banks.length) })))
    ∧ (i = .coll o → ∀ ds u bytes p1 ps v lb p2 ctr,
      s.checkAccess c .read {} [⟨l, s.opA c o l true, 64⟩] = .ok ds →
      s.readPieces [] c.g false (ds.flatMap (·.2)) = (u, bytes, p1) →
      let q := (collDesc c.g (u.aspaceOf c) (bitsN x 0 2) (bitsN x 2 3) bytes).1
      let peers := (collDesc c.g (u.aspaceOf c) (bitsN x 0 2) (bitsN x 2 3) bytes).2
      collBad q bytes = false → peers % 2 = 0 →
      u.checkAccess c .read { al := 2 } [⟨l, BitVec.ofNat 64 peers, 2 * q.npart⟩] = .ok ps →
      u.readPieces [] c.g false (ps.flatMap (·.2)) = (v, lb, p2) →
      let list := (List.range q.npart).map (fun k => leNat ((lb.drop (2 * k)).take 2))
      (∀ k ∈ list, k < 1024) → list.getD q.rank 0 = v.pkgId → v.collPages c l q = none →
      v.collCtr c (BitVec.ofNat 64 (leNat ((bytes.drop 48).take 8))) ls = .ok ctr →
      let step := { q with peers := list, ctr := ctr, start := v.cycles (dieOf c.g), born := v.ticks
                           blk := (v.blkOf c).map (fun _ => ((v.blockOf c).lnum, (v.blockOf c).blk)) }
      let t := { v with eng := { v.eng with colls := v.eng.colls.put v.eng.nextColl step, nextColl := v.eng.nextColl + 1 } }
      Does s i o ls (t.setEffects c ls) [])

/-- R214, R233 to R236: an ACCOP, ACCRD or ACCWR of a block that passes its checks acts on the block's accumulator memory:
ALLOC enters an allocation and zeroes its range, ZERO zeroes the range, FREE removes the allocation, at once in lane and spine
code; in sequencer code each is a command of the matrix engine, after the commands that it has, and acts when the engine
reaches it (its checks see the allocations as those commands will leave them: log 25). ACCRD gives each active lane its
element, converted, and clears it when it says so; ACCWR writes each active lane's converted value. ACCRD moves the word, or the
BF16 or FP16 of it by R133, or its s32 by R134, to nearest, with that conversion's flags; ACCWR moves the word, or widens BF16 or
FP16 exactly, a NaN to the canonical one, with NV of a signalling one. -/
def Obligations.Accumulators : Prop :=
  ∀ (s : State) (i : Instr) (o : Ops) (ls : List Nat), Plain s i o ls → s.waveOf s.cur = none → (s.blkOf s.cur).isSome = true →
    let c := s.cur
    let b := s.blockOf c
    let w := s.accWord c o (ls.headD 0)
    let key := fun (l : Nat) => accKey (bitsN w 11 9) (bitsN w 6 5) (bitsN w 0 6 + l)
    let zeroed := fun (x : Map W32) => x.filter (fun e => decide (e.1 < accKey (accFirst w) 0 0)
      || decide (accKey (accFirst w + accCount w) 0 0 ≤ e.1))
    let alloc : AccAlloc := { first := accFirst w, count := accCount w, cb := bitsN o.ext.toNat 3 5, owners := allocGroups o.ext }
    let acts := fun (sub : Nat) (allocs : List AccAlloc) (acc : Map W32) => (s.accView c).accCheck sub w o.ext = none →
      let cmd : MatCmd := { blk := (s.blkOf c).getD 0, accop := some (sub, w, o.ext), seq := some (if c.isCopy then 0 else 1) }
      (c.isSeq = false → ∃ t, Does s i o ls t [] ∧ t.mem = s.mem
        ∧ t.blockOf c = { b with allocs := allocs, acc := acc } ∧ Undisturbed s t)
      ∧ (c.isSeq = true → ∃ t, Does s i o ls t [] ∧ t.mem = s.mem ∧ t.blockOf c = b
        ∧ (t.cl c.g).matQ = (s.cl c.g).matQ ++ [cmd] ∧ (t.seqr c.g c.isCopy).flight = (s.seqr c.g c.isCopy).flight + 1)
      ∧ ((s.matEnd c.g cmd).blockOf c).allocs = allocs ∧ ((s.matEnd c.g cmd).blockOf c).acc = acc
    (i = .accopAlloc o → acts 0 (b.allocs ++ [alloc]) (zeroed b.acc))
    ∧ (i = .accopZero o → acts 1 b.allocs (zeroed b.acc))
    ∧ (i = .accopFree o → acts 2 (b.allocs.filter (fun a => !(decide (a.first = alloc.first) && decide (a.count = alloc.count)))) b.acc)
    ∧ (i = .accwr o → s.accFail c w ls = none → ∃ t, Does s i o ls t [] ∧ t.mem = s.mem
      ∧ (t.blockOf c).acc = ls.foldl (fun a l => a.put (key l) (accwrVal (o.sub % 4) (s.v c.g c.slot l o.c.toNat)).1) b.acc
      ∧ t.fpflags c = ls.foldl (fun f l => f ||| (accwrVal (o.sub % 4) (s.v c.g c.slot l o.c.toNat)).2) (s.fpflags c))
    ∧ (i = .accrd o → c.unit = .lane → s.accFail c w ls = none → ∃ t, Does s i o ls t [] ∧ t.mem = s.mem
      ∧ (t.warp c.g c.slot).pend = (s.warp c.g c.slot).pend ++ [
          { lanes := lanesMask ls, pc := c.pc
            writes := ls.flatMap (fun l => resWrites .v o.d.toNat l 0 false
              ((accrdVal (o.sub % 4) (b.acc.get (key l) 0)).1.setWidth 64))
            flags := ls.map (fun l => (l, (accrdVal (o.sub % 4) (b.acc.get (key l) 0)).2)) }]
      ∧ (t.blockOf c).acc = if o.sub / 4 = 1 then ls.foldl (fun a l => a.del (key l)) b.acc else b.acc)
    ∧ ∀ x : W32,
      let v := fp32.unpack x.toNat
      let whole := toWhole 32 true .rne v
      accrdVal 0 x = (x, 0) ∧ accwrVal 0 x = (x, 0) ∧ accrdVal 3 x = (BitVec.ofInt 32 whole.1, whole.2)
      ∧ ∀ k f, (k, f) ∈ [(1, bf16), (2, fp16)] →
        let y := f.round .rne .sat false v
        let z := f.unpack (x.toNat % 65536)
        let w := fp32.unpack (accwrVal k x).1.toNat
        accrdVal k x = (BitVec.ofNat 32 y.1, y.2 ||| nvOf [v]) ∧ (accwrVal k x).2 = nvOf [z]
        ∧ (z.isFin = true → w.isFin = true ∧ w.rat = z.rat ∧ w.neg = z.neg)
        ∧ (z.isNan = true → (accwrVal k x).1 = 0x7FC00000) ∧ (∀ a, z = .inf a → w = .inf a)

/-! ### Tasks, exits and pairs -/

/-- R46, R319: a SPAWN of a running task queue whose records and slots can be reached offers all of its active lanes' records or
none: when the queue has room, below 2^56 records, it stores them from TAIL on, moves TAIL by their number, sets the effects
bits and the lanes' predicates, and gives each lane its record's identifier when asked; without room it clears the predicates
and nothing else changes. Being a release of system scope, it issues again, for its whole group, while an append or a request to
another package of one of its lanes is not performed (log 76). A queue that does not run, or is none of tasks, is ACCESS, and so is a slot beyond 2^51. -/
def Obligations.SpawnOffers : Prop :=
  ∀ (s : State) (o : Ops) (ls : List Nat), Plain s (.spawn o) o ls →
    let c := s.cur
    let q := s.spawnQueue c o
    let x := s.queue q
    let slots := (List.range ls.length).map (fun k => x.slotAddr (x.tail + k))
    (q ≤ 65535 → x.type = 2 → x.stat = 1 → ∀ u bufs, s.spawnRecords c o ls = .ok (u, bufs) →
      ((∀ a ∈ slots, a.toNat < 2 ^ 51) → (∀ k, k < ls.length → ∀ e ∈ u.slotPieces c.g q (x.tail + k), e.2.isSome = true) →
        let late := ls.any (fun l => u.appendWaits (u.threadOf c l) || u.tlainBusy (u.threadOf c l) 7)
        (late = false → Does s (.spawn o) o ls (u.spawnOffer c o ls q bufs) [])
        ∧ (late = true → DoesBut s (.spawn o) o ls u ls))
      ∧ (∀ a, slots.find? (fun a => decide (2 ^ 51 ≤ a.toNat)) = some a →
        exec (.spawn o) s = .next (s.raise c { code := 9, lanes := ls, addr := a, info := 0xFFFF })))
    ∧ (∀ (u : State) (bufs : List (Nat × List Byte)), c.unit = .lane → bufs.map (·.1) = ls →
      let y := u.queue q
      let d := o.d.toNat % 16
      let id := bitsN o.ext.toNat 19 8
      let t := u.spawnOffer c o ls q bufs
      let room := y.tail + ls.length ≤ y.head + 2 ^ y.log ∧ y.tail + ls.length ≤ 2 ^ 56
      let puts := (bufs.zipIdx).map (fun e => ((u.slotPieces c.g q (y.tail + e.2)).filterMap (·.2), e.1.2))
      (room → (t.queue q).tail = y.tail + ls.length
        ∧ (∀ k, k < ls.length → let l := ls.getD k 0
          t.pred c l d = true ∧ (t.lane c.g c.slot l).effects = true
          ∧ (bitsN o.ext.toNat 18 1 = 1 → id < 255 → t.regOf c .v id l true = BitVec.ofNat 64 (y.tail + k)))
        ∧ (∀ cls, cls < 2 → (∀ r ∈ puts, ∀ p ∈ r.1, p.cls = cls ∧ u.isLocal p.pa = true ∧ 0 < p.n ∧ p.pa % 128 + p.n ≤ 128
            ∧ p.at_ + p.n ≤ r.2.length ∧ p.pa / 128 < 2 ^ 45) →
          TxnsNamed u → u.qDesc q / 128 + 1 < 2 ^ 45 →
          ∀ pa, pa / 128 < 2 ^ 45 → (∀ k, k < 8 → (u.qDesc q + 32 + k) / 128 ≠ pa / 128) →
            t.byteFor c.g cls pa = lastByte puts pa (u.byteFor c.g cls pa)))
      ∧ (¬room → t = ls.foldl (fun v l => v.setPred c l d false) u))
    ∧ (65535 < q ∨ x.type ≠ 2 ∨ x.stat ≠ 1 →
      exec (.spawn o) s = .next (s.raise c { code := 9, lanes := ls, info := 0xFFFF }))

/-- R110 (and R45, R103, R109, R213, R311): EXIT ends its active places with the 16-bit status of B, which is C × 256 + B in spaces 11
and 11, or the low half of a register in space 00 or 01 with C and its space zero; other spaces are no EXIT, and their word raises
ILLEGAL_INSN. Lanes of a block and its context
are no longer live and their statuses are entered in the block's reduction; lanes of tasks end once their accesses are
performed. An exiting lane leaves the four rejoin masks and their arrival vectors, and the lanes held at a REJOIN that then
waits for no live lane of its mask go on. A sequencer is DONE, or IDLE when none of its commands is under way. -/
def Obligations.Exits : Prop :=
  (∀ (u : CodeUnit) (x : Ops),
    let form := (x.bs = 3 ∧ x.cs = 3) ∨ ((x.bs = 0 ∨ x.bs = 1) ∧ x.c = 0 ∧ x.cs = 0)
    (WellFormed u (.exit x) = true → form) ∧ (¬form → x.form = .f64 → ∃ w, decode u (encode (.exit x)) = .illegal w)
    ∧ Decodes u (wordsOfNat [0x000F000000000E01]) (.exit { bs := 3, cs := 3 }))
  ∧ ∀ (s : State) (o : Ops) (ls : List Nat), Plain s (.exit o) o ls →
    let c := s.cur
    let st := fun (l : Nat) => if o.bs = 3 then o.c.toNat * 256 + o.b.toNat else (s.opB c o [] l 0 false).toNat % 65536
    let entered := ls.foldl (fun (b : Block) l => { b.contribute (st l) (s.laneId c l) with parties := b.parties + 1 })
    let w := s.warp c.g c.slot
    let gone := lanesMask ls
    let leave := fun (t : State) => (∀ l ∈ ls, (t.lane c.g c.slot l).live = false)
      ∧ (∀ k, k ≠ c.slot → ∀ l, (t.lane c.g k l).live = (s.lane c.g k l).live)
      ∧ ∀ n, n < 4 →
        let m := w.jm.get n 0 &&& ~~~gone
        let h := w.jh.get n 0
        let freed := if m &&& (w.liveMask &&& ~~~gone) &&& ~~~h = 0 then h else h &&& ~~~m
        ((t.warp c.g c.slot).jm.get n 0 &&& gone = 0) ∧ ((t.warp c.g c.slot).jh.get n 0 &&& gone = 0)
        ∧ ∀ l, l < 32 → l ∉ ls → (w.lane l).live = true →
          (t.lane c.g c.slot l).live = true ∧ (t.warp c.g c.slot).jm.get n 0 = m
          ∧ ∀ at_, l ∉ c.places → (w.lane l).hold = .rejoin n at_ →
            (freed.getLsbD l = true → t.holdOf c l = .free ∧ t.pcOf c l = s.pcOf c l + 8)
            ∧ (freed.getLsbD l = false → t.holdOf c l = s.holdOf c l ∧ t.pcOf c l = s.pcOf c l)
    (c.unit = .lane → Calm s c →
      (∀ l ∈ ls, (s.lane c.g c.slot l).live = true ∧ (s.lane c.g c.slot l).pc = c.pc ∧ (s.lane c.g c.slot l).hold = .free) →
      (s.waveOf c = none → (s.blkOf c).isSome = true → Gives (.exit o) s (fun t => leave t
        ∧ t.block c.g ((s.blkOf c).getD 0) = entered (s.blockOf c)))
      ∧ ((s.waveOf c).isSome = true →
        (∀ l ∈ ls, s.tlainBusy (s.threadOf c l) 7 = false ∧ s.appendWaits (s.threadOf c l) = false) →
        Gives (.exit o) s leave))
    ∧ (c.unit = .spine → Gives (.exit o) s (fun t => (t.spine c.g c.slot).live = false
        ∧ t.blockOf c = { (s.blockOf c).contribute (st 0) (2 ^ 56) with parties := (s.blockOf c).parties + 1, spineSt := true }
        ∧ ∀ g k l, (t.lane g k l).live = (s.lane g k l).live))
    ∧ (c.isSeq = true → Gives (.exit o) s (fun t =>
        (t.seqr c.g c.isCopy).st = if (s.seqr c.g c.isCopy).flight = 0 then .idle else .done))

/-- R84 to R86: the halves of a pair read before either writes, each in the places whose guard it passes; the registers are
those that the first half's writes and then the second's leave, the flags gain both halves', and the pair advances by 16
bytes. -/
def Obligations.PairsIssue : Prop :=
  ∀ (s : State) (i j : Instr) (oi oj : Ops) (f h : Alu), aluOf i = some f → aluOf j = some h →
    i.ops = some oi → j.ops = some oj → WellFormed s.cur.code i = true → WellFormed s.cur.code j = true →
    s.cur.unit = .lane ∨ s.cur.unit = .spine ∨ s.cur.unit = .mseq ∨ s.cur.unit = .cseq → Housed s s.cur →
    let c := s.cur
    let li := s.active c oi
    let lj := s.active c oj
    s.earlyFail c (uses c.code i ++ uses c.code j) = none →
    let half := fun (k : Instr) (ps : List Nat) (l : Nat) =>
      (plainWrites (uses c.code k) l).map (fun u => if ps.contains l then u else { u with n := 0 })
    s.hazard c (c.places.filter (fun l => li.contains l || lj.contains l)) (fun l => half i li l ++ half j lj l) = none →
    (oi.sw = true ∨ oj.sw = true → c.unit = .lane → Calm s c) →
    let ri : Res := if li = [] then ([], []) else f s c oi [] (resPlaces c oi li)
    let rj : Res := if lj = [] then ([], []) else h s c oj [] (resPlaces c oj lj)
    let t := s.runPair i j
    (∀ (x : RFile) (k l : Nat), hasReg c x k → t.reads c x k l = afterWrites (ri.1 ++ rj.1) c x k l (s.reads c x k l))
    ∧ t.fpflags c = s.fpflags c ||| allFlags ri.2 ||| allFlags rj.2
    ∧ Advances s t c (c.pc + 16) ∧ Untouched s t c

/-! ### Command processors -/

/-- R31, R33, R36, R367: a command that ends moves its queue's stream on by its words, and HEAD to the position consumed in
the ring, and a draining queue is disabled then; one that stops leaves the queue at it, with ERRCODE and ERRADDR, in QSTAT 2,
or disabled when it was draining, and a clear will resume after its LEN words. No other queue and no cluster changes. HEAD stays at the outermost open LOOP's body, and
QSTAT 0 is read once nothing is under way (log 16, 45). -/
def Obligations.CommandsMove : Prop :=
  ∀ (s : State) (q n code : Nat),
    let x := s.queue q
    let t := s.cmdDone q n
    let u := s.cmdStop q code
    (s.fencing 3 x.assign = false →
      (x.stat ≠ 3 → t.queue q = { x.advance n with busy := false, head := (x.advance n).ringHead })
      ∧ (x.stat = 3 → x.type = 1 → t.queue q = { x.advance n with busy := false, head := (x.advance n).ringHead, stat := 0 })
      ∧ (code ≠ 6 → u.queue q = { x with stat := if x.stat = 3 then 0 else 2, errCode := code, errAddr := x.cmdAddr
                                         busy := false, stopLen := x.cmdLen }))
    ∧ OtherQueues s t q ∧ OtherQueues s u q ∧ t.clusters = s.clusters ∧ u.clusters = s.clusters

/-- R34, R36, R41, R42, R49: what the plain commands do when their queue takes them: END returns from a called stream, or only
ends; ADDSEQ advances its counter; WAITSEQ ends when its counter is satisfied, stops with code 4 for poison that it does not
admit, and else waits with a watch; WRITE stores 4 or 8 bytes at the home, in stack 15 and in another package too; INTR sends its
MSI; a FENCE waits until the appends and the requests to other packages that its queue has made are performed (R286, R317), and
with LAUNCHES until every earlier launch of its queue has retired. A misaligned or unsuitable address stops the queue with
code 5, a bad target with code 1, and a failed access as R36 and R61 say. The codes' order and the words of an undefined OP
are the model's reading (log 62). -/
def Obligations.PlainCommands : Prop :=
  ∀ (s : State) (h : W64) (ws : List W64),
    let q := s.cur.slot
    let x := s.queue q
    let va := operand ws 0
    let k := operand ws 1
    let n := if cmdFlags h = 1 then 8 else 4
    let late := fun (p : Nat) => s.appendWaits (queueThread p) = true ∨ s.tlainBusy (queueThread p) 7 = true
    let fails := fun (i : Instr) (a : Access) => ∀ u v b r, s.unitXlate x.aspace va a none = (u, .fail v b r) →
      exec i s = .next (u.cmdFault q v b r)
    (TakesCmd s h 1 0 0 →
      (∀ a t r, x.streams = a :: t :: r → CmdEnds s (.cEnd h ws) (s.updQueue q (fun y => { y with streams := t :: r })) 0)
      ∧ (x.streams.length ≤ 1 → CmdEnds s (.cEnd h ws) s 1))
    ∧ (TakesCmd s h 3 1 0 →
      (va.toNat % 16 = 0 → k.toNat < 2 ^ 63 → fails (.cAddseq h ws) .write
        ∧ ∀ u pa cls, s.unitXlate x.aspace va .write none = (u, .ok (pa, cls)) →
          (cls = 3 → CmdEnds s (.cAddseq h ws) (u.ctrAdvance pa k.toNat (cmdFlags h = 1) [queueThread q]) 3)
          ∧ (cls ≠ 3 → CmdStops s (.cAddseq h ws) u 5))
      ∧ (va.toNat % 16 ≠ 0 ∨ 2 ^ 63 ≤ k.toNat → CmdStops s (.cAddseq h ws) s 5)
      ∧ (x.released = none → va.toNat % 16 = 0 → k.toNat < 2 ^ 63 → fails (.cWaitseq h ws) .read
        ∧ ∀ u pa cls, s.unitXlate x.aspace va .read none = (u, .ok (pa, cls)) →
          (cls ≠ 3 → CmdStops s (.cWaitseq h ws) u 5)
          ∧ (cls = 3 → ∀ v lo hi, u.ctrWords pa = (v, lo, hi) →
            let w := v.updQueue q (fun y => { y with waitseq := none, released := none })
            (ctrSat lo k.toNat = true → ctrPoison lo = false ∨ cmdFlags h = 1 → CmdEnds s (.cWaitseq h ws) w 3)
            ∧ (ctrPoison lo = true → cmdFlags h = 0 → CmdStops s (.cWaitseq h ws) w 4)
            ∧ (ctrSat lo k.toNat = false → exec (.cWaitseq h ws) s = .next (v.waitseqBlock q pa k.toNat))))
      ∧ (x.released = none → va.toNat % 16 ≠ 0 ∨ 2 ^ 63 ≤ k.toNat → CmdStops s (.cWaitseq h ws) s 5)
      ∧ (∀ p, x.released = some p →
          let w := s.updQueue q (fun y => { y with waitseq := none, released := none })
          (p = false ∨ cmdFlags h = 1 → CmdEnds s (.cWaitseq h ws) w 3)
          ∧ (p = true → cmdFlags h = 0 → CmdStops s (.cWaitseq h ws) w 4))
      ∧ (va.toNat % n ≠ 0 → CmdStops s (.cWrite h ws) s 5)
      ∧ (va.toNat % n = 0 → fails (.cWrite h ws) .write
        ∧ ∀ u pa cls, s.unitXlate x.aspace va .write none = (u, .ok (pa, cls)) →
          let b := leBytes n k.toNat
          (u.isLocal pa = false → CmdEnds s (.cWrite h ws) (u.askWrite [queueThread q] (pa / 128)) 3)
          ∧ (u.isLocal pa = true → isIo pa = true →
            CmdEnds s (.cWrite h ws) (u.ioWrite (paOff pa) n (leNat b) (some (queueThread q))) 3)
          ∧ (u.isLocal pa = true → isIo pa = false → CmdEnds s (.cWrite h ws)
              (u.homeWrite (pa / 128) (byteMask (pa % 128) n) (setLineBytes 0 (pa % 128) b) (cls = 3)) 3)))
    ∧ (TakesCmd s h 2 0 0 →
      (intrBad va = false → CmdEnds s (.cIntr h ws) (s.sendMsi va) 2) ∧ (intrBad va = true → CmdStops s (.cIntr h ws) s 1))
    ∧ (TakesCmd s h 1 1 0 →
      let u := s.updQueue q (fun y => { y with fenceAll := decide (cmdFlags h = 1) })
      (¬late q → cmdFlags h = 0 ∨ x.launches = [] → CmdEnds s (.cFence h ws) u 1)
      ∧ (late q ∨ (cmdFlags h = 1 ∧ x.launches ≠ []) →
          exec (.cFence h ws) s = .next (u.updQueue q (fun y => { y with fence := true, busy := false }))))
    ∧ (∀ p : BitVec 16, (s.queue p.toNat).fence = true → ¬late p.toNat →
        (s.queue p.toNat).fenceAll = false ∨ (s.queue p.toNat).launches = [] →
        exec (.fenceCommandComplete p) s = .next ((s.updQueue p.toNat (fun y => { y with fence := false })).cmdDone p.toNat 1))

/-- R33, R34, R36: what opens and closes a construct. LOOP and IF read the word they name and open a body that runs or is
skipped; ENDLOOP goes back while a count is left; ELSE and ENDIF end a body; CALLSTREAM opens a stream at an address. More
than eight constructs, more than four called streams, or an end without its opening stops the queue with code 2. A command in
a skipped body is only passed over. A header that no command admits, or of no command, stops the queue with code 1. The codes'
order is the model's reading (log 62). -/
def Obligations.Constructs : Prop :=
  ∀ (s : State) (h : W64) (ws : List W64),
    let q := s.cur.slot
    let x := s.queue q
    let va := operand ws 0
    let deep := 8 ≤ nestDepth x.nest
    (TakesCmd s h 2 0 0 →
      (deep → CmdStops s (.cLoop h ws) s 2) ∧ (¬deep → va.toNat % 8 ≠ 0 → CmdStops s (.cLoop h ws) s 5)
      ∧ (¬deep → va.toNat % 8 = 0 → ∀ u b p, s.rd x.aspace va 8 none = (u, .ok (b, p)) →
          let n := BitVec.ofNat 64 (leNat b)
          exec (.cLoop h ws) s = .next (u.openNest q 2 (if n = 0 then .skipLoop 0 else .loop ((u.queue q).after 2) n.toNat)))
      ∧ (va.toNat % 8 ≠ 0 → CmdStops s (.cCallstream h ws) s 5)
      ∧ (va.toNat % 8 = 0 → 5 ≤ x.streams.length → CmdStops s (.cCallstream h ws) s 2)
      ∧ (va.toNat % 8 = 0 → x.streams.length < 5 → CmdEnds s (.cCallstream h ws)
          (s.updQueue q (fun y => { y.advance 2 with streams := { base := some va } :: (y.advance 2).streams })) 0))
    ∧ (TakesCmd s h 3 0 5 →
      (deep → CmdStops s (.cIf h ws) s 2)
      ∧ (¬deep → va.toNat % 8 = 0 → ∀ u b p, s.rd x.aspace va 8 none = (u, .ok (b, p)) →
          exec (.cIf h ws) s = .next (u.openNest q 3
            (if ifHolds (cmdArg h) (BitVec.ofNat 64 (leNat b)) (operand ws 1) then .ifBody else .skipIf 0))))
    ∧ (TakesCmd s h 1 0 0 →
      (∀ a n st ts r, x.streams = st :: ts → x.nest = .loop a n :: r → 1 < n → CmdEnds s (.cEndloop h ws)
          (s.updQueue q (fun y => { y with streams := { st with nest := .loop a (n - 1) :: r, pos := a } :: ts })) 0)
      ∧ (∀ a n r, x.nest = .loop a n :: r → n ≤ 1 → CmdEnds s (.cEndloop h ws) (s.updQueue q (fun y => y.setNest r)) 1)
      ∧ (∀ r, x.nest = .ifBody :: r → CmdEnds s (.cElse h ws) (s.updQueue q (fun y => y.setNest (.skipElse 0 :: r))) 1)
      ∧ (∀ r, x.nest = .ifBody :: r ∨ x.nest = .elseBody :: r → CmdEnds s (.cEndif h ws) (s.updQueue q (fun y => y.setNest r)) 1)
      ∧ (x.nest = [] → CmdStops s (.cEndloop h ws) s 2 ∧ CmdStops s (.cElse h ws) s 2 ∧ CmdStops s (.cEndif h ws) s 2))
    ∧ (∀ e ∈ commandTable h ws,
      (∀ n r d, x.nest = n :: r → n.skips = some d → exec e.1 s = .next (s.skipCmd q h n r d))
      ∧ ((∀ n r, x.nest = n :: r → n.skips = none) → cmdLen h ≠ e.2.1 ∨ e.2.2.1 < cmdFlags h ∨ e.2.2.2 < cmdArg h →
          CmdStops s e.1 s 1))
    ∧ CmdStops s (.undefinedOp h ws) s 1

/-- R17, R34, R38, R39: LAUNCH, and LAUNCH.IND with the grid word that it reads, submit a launch of their record when the
record and the image pass their checks: it takes the next number and joins its queue's launches. A failed check stops the
queue with the check's code. The alignment of the record's addresses comes before the image (log 63). -/
def Obligations.LaunchCommands : Prop :=
  ∀ (s : State) (h : W64) (ws : List W64), TakesCmd s h 9 0 0 →
    let q := s.cur.slot
    let does := fun (i : Instr) (v : State) (grid : W64) =>
      let asp := (v.queue q).aspace
      let nx := bitsN grid.toNat 0 32
      let ny := bitsN grid.toNat 32 16
      let nz := bitsN grid.toNat 48 16
      (∀ u img, v.checkImage asp (operand ws 0) nx ny nz = (u, .ok (.ok img)) →
        let l := launchOf q asp img nx ny nz ws
        CmdEnds s i (u.submit q l) 9 ∧ ((u.submit q l).queue q).launches = (u.queue q).launches ++ [u.work.nextLnum]
        ∧ (u.submit q l).work.launches.find? u.work.nextLnum = some l)
      ∧ (∀ u k, v.checkImage asp (operand ws 0) nx ny nz = (u, .ok (.error k)) → CmdStops s i u (0x100 + k))
      ∧ (∀ u va a r, v.checkImage asp (operand ws 0) nx ny nz = (u, .fail va a r) → exec i s = .next (u.cmdFault q va a r))
    (recordStop ws = none → does (.cLaunch h ws) s (operand ws 1)
      ∧ ((operand ws 1).toNat % 8 = 0 → ∀ v b p, s.rd (s.queue q).aspace (operand ws 1) 8 none = (v, .ok (b, p)) →
          does (.cLaunchInd h ws) v (BitVec.ofNat 64 (leNat b))))
    ∧ (∀ k, recordStop ws = some k → CmdStops s (.cLaunch h ws) s k ∧ CmdStops s (.cLaunchInd h ws) s k)

/-! ### Doorbells and completion queues -/

/-- R19, R30, R36, R315, R316, R318, R367: the writes of a queue's doorbell. TAILDB_WRITE: TAIL of a running or stopped command
or task queue moves to a value between TAIL and HEAD + 2^LOG, of a task queue to 2^56 at most; COMPLETION_QUEUE_HEAD_WRITE: HEAD
of a completion queue moves to a value between HEAD and TAIL, and the entries that wait for room follow; another value stops a
running queue with code 6 (a TAIL beyond 2^56 too: log 76), a command under way staying so, and leaves a stopped one; a disabled or
draining queue ignores both. QUEUE_ENABLE takes a well-formed descriptor, with HEAD and TAIL 0, and refuses another with code 7;
that an enable keeps ERRCODE and ERRADDR is the model's choice (log 45). QUEUE_DISABLE drains, and a queue with nothing under way
is disabled at once; QUEUE_DRAIN_COMPLETE disables a drained one. QUEUE_CLEAR_STOP lets a stopped queue go on; that one of TYPE 0
returns to QSTAT 0 is the model's choice (log 46). CQ_APPEND enters the record at its address; CQ_PORT_READ returns TAIL; and CQ_TIMER_NOTIFY notifies of entries that
have waited long enough. -/
def Obligations.Doorbells : Prop :=
  ∀ (s : State) (p : BitVec 16) (v : W64),
    let q := p.toNat
    let x := s.queue q
    let n := v.toNat
    let stops := fun (i : Instr) (addr : W64) =>
      exec i s = .next ((s.updQueue q (fun y => { y with stopLen := 0 })).stopQueue q 6 addr)
      ∧ ((s.updQueue q (fun y => { y with stopLen := 0 })).stopQueue q 6 addr).queue q
        = { x with stat := 2, errCode := 6, errAddr := addr, stopLen := 0 }
    (x.type ≠ 3 →
      let ok := x.head ≤ n ∧ n ≤ x.head + 2 ^ x.log ∧ x.tail ≤ n ∧ (x.type = 2 → n ≤ 2 ^ 56)
      (x.stat ≠ 0 → x.stat ≠ 3 → ok → ∃ t, exec (.taildbWrite p v) s = .next t
        ∧ t.queue q = { x with tail := n } ∧ OtherQueues s t q ∧ t.clusters = s.clusters)
      ∧ (x.stat = 1 → ¬ok → stops (.taildbWrite p v) (x.slotAddr x.tail))
      ∧ (x.stat = 0 ∨ x.stat = 3 ∨ (x.stat = 2 ∧ ¬ok) → exec (.taildbWrite p v) s = .next s))
    ∧ (x.type = 3 →
      let ok := x.head ≤ n ∧ n ≤ x.tail
      (x.stat ≠ 0 → x.stat ≠ 3 → ok → exec (.completionQueueHeadWrite p v) s = .next (State.cqDrain ((s.setHead q n).queue q).waiting.length (s.setHead q n) q)
        ∧ (x.waiting = [] → ∀ t, exec (.completionQueueHeadWrite p v) s = .next t →
            t.queue q = { x with head := n } ∧ OtherQueues s t q ∧ t.clusters = s.clusters))
      ∧ (x.stat = 1 → ¬ok → stops (.completionQueueHeadWrite p v) (x.slotAddr x.head))
      ∧ (x.stat = 0 ∨ x.stat = 3 ∨ (x.stat = 2 ∧ ¬ok) → exec (.completionQueueHeadWrite p v) s = .next s))
    ∧ (x.type = 3 → exec (.taildbWrite p v) s = .next s) ∧ (x.type ≠ 3 → exec (.completionQueueHeadWrite p v) s = .next s)
    ∧ (x.stat = 0 → ∀ u b, s.physRead (s.qDesc q) 64 = (u, b) →
      (descBad b = false → ∃ t, exec (.queueEnable p) s = .next t ∧ OtherQueues s t q ∧ t.clusters = s.clusters
        ∧ t.queue q = { descQueue b with launches := x.launches, errCode := x.errCode, errAddr := x.errAddr, streams := [{}] })
      ∧ (descBad b = true → ∃ t, exec (.queueEnable p) s = .next t ∧ OtherQueues s t q ∧ (t.queue q).stat = 2
        ∧ (t.queue q).errCode = 7 ∧ (t.queue q).errAddr = BitVec.ofNat 64 (s.qDesc q)))
    ∧ (x.stat ≠ 0 → exec (.queueEnable p) s = .next s)
    ∧ (x.stat ≠ 0 → x.stat ≠ 3 → ¬(x.stat = 2 ∧ x.errCode = 7) → ∃ t, exec (.queueDisable p) s = .next t ∧ OtherQueues s t q
        ∧ t.clusters = s.clusters ∧ (t.queue q).stat = if s.drained q = true then 0 else 3)
    ∧ (x.stat = 2 → x.errCode = 7 → exec (.queueDisable p) s = .next (s.updQueue q (fun y => { y with stat := 0 })))
    ∧ (x.stat = 0 ∨ x.stat = 3 → exec (.queueDisable p) s = .next s)
    ∧ (x.stat = 3 → s.drained q = true → exec (.queueDrainComplete p) s = .next (s.updQueue q (fun y => { y with stat := 0 })))
    ∧ (x.stat ≠ 3 ∨ s.drained q = false → exec (.queueDrainComplete p) s = .next s)
    ∧ (x.stat = 2 → (x.errCode = 7 ∨ x.type = 0 → exec (.queueClearStop p) s = .next (s.updQueue q (fun y => { y with stat := 0 })))
        ∧ (x.errCode ≠ 7 → x.type = 2 → exec (.queueClearStop p) s = .next (s.updQueue q (fun y => { y with stat := 1, stopLen := 0 })))
        ∧ (x.errCode ≠ 7 → x.type = 1 → ∃ t, exec (.queueClearStop p) s = .next t ∧ OtherQueues s t q
          ∧ t.queue q = { x.advance x.stopLen with stat := 1, stopLen := 0, head := (x.advance x.stopLen).ringHead }))
    ∧ (x.stat ≠ 2 → exec (.queueClearStop p) s = .next s)
    ∧ (x.cqOpen = true → v.toNat % 64 = 0 → ∀ u b e, s.rd x.aspace v 64 none = (u, .ok (b, e)) →
        exec (.cqAppend p v) s = .next (u.cqPush q { kind := 2, subkind := (b.getD 1 0).toNat, payload := (b.drop 16).take 48 }))
    ∧ (x.cqOpen = false → x.stat = 1 ∨ x.stat = 0 → ∃ t, exec (.cqAppend p v) s = .next t ∧ (t.queue q).stat = 2
        ∧ (t.queue q).errCode = 1 ∧ (t.queue q).errAddr = v)
    ∧ exec (.cqPortRead p) s = .next (s.respond (leBytes 8 x.tail))
    ∧ (x.cqOpen = true → s.pkgReg 0x129 ≠ 0 → x.unnotified ≠ 0 → x.oldest + s.pkgReg 0x129 ≤ s.ns →
        exec (.cqTimerNotify p) s = .next ((s.updQueue q (fun y => { y with unnotified := 0, oldest := 0 })).sendMsi x.errMsi))
    ∧ (x.cqOpen = false ∨ s.pkgReg 0x129 = 0 ∨ x.unnotified = 0 ∨ s.ns < x.oldest + s.pkgReg 0x129 →
        exec (.cqTimerNotify p) s = .next s)

/-! ### Launches, blocks and tasks -/

/-- R18, R23, R39, R40, R71, R312 to R314: LAUNCH_ADMISSION admits a waiting launch: one of an empty grid before any other, which
retires at once, else the oldest; one of
class C has all its blocks dispatched, or retired without running when the package could never hold them. BLOCK_DISPATCH gives
the next block of the launch that is first in order to the first preferred cluster on which it fits, or to the first cluster
on which it fits when it prefers none or has waited; a block that no present cluster could hold retires without running, and
for one that only waves keep out the lowest cluster is reserved (R71); AFFINITY_WAIT_EXPIRY ends that wait. A launch of class
C waits while an older launch has a block to place, or its blocks have not all room. A block that has ended retires with its
record, and a launch whose blocks have all retired retires. A dispatched block takes the first open slot, with its warps'
lanes at WARPENT and its context at SPINEENT. The order among launches, and the clock of the affinity wait, are the model's
reading (log 64, 75). -/
def Obligations.LaunchEvents : Prop :=
  ∀ (s : State) (n g slot : Nat),
    let l := s.launch n
    let x := s.block g slot
    let admitted := fun (v : Launch) => { v with admitted := true }
    (s.nextAdmit = some n → ∃ v, (n, v) ∈ s.work.launches ∧ v.admitted = false
      ∧ (v.blocks = 0 ∨ ∀ e ∈ s.work.launches, e.2.admitted = false → e.2.blocks ≠ 0))
    ∧ (s.nextAdmit = some n →
      (l.blocks = 0 → exec .launchAdmission s = .next ((s.updLaunch n admitted).retireLaunch n))
      ∧ (l.blocks ≠ 0 → l.img.cls ≠ 0 → exec .launchAdmission s = .next (s.updLaunch n admitted))
      ∧ (l.blocks ≠ 0 → l.img.cls = 0 → l.blocks ≤ s.packageHolds l.img → s.nextDispatch = none →
          (∀ t, s.reserveC n l.blocks = some t →
            exec .launchAdmission s = .next (t.updLaunch n (fun v => { v with admitted := true, next := l.blocks })))
          ∧ (s.reserveC n l.blocks = none → exec .launchAdmission s = .next s))
      ∧ (l.blocks ≠ 0 → l.img.cls = 0 → l.blocks ≤ s.packageHolds l.img → s.nextDispatch ≠ none → exec .launchAdmission s = .next s)
      ∧ (l.blocks ≠ 0 → l.img.cls = 0 → s.packageHolds l.img < l.blocks → exec .launchAdmission s = .next ((s.updLaunch n (fun v => { v with admitted := true, next := l.blocks })).unrunAll n l.blocks)))
    ∧ (s.nextDispatch = some n →
      let pref := s.preferred l l.next
      let gives := fun (k : Nat) => exec (.blockDispatch n) s = .next (s.dispatchNext n k)
      (∀ gs k, pref = some gs → s.firstFit n gs = some k → gives k)
      ∧ (∀ gs, pref = some gs → s.firstFit n gs = none → l.affExpired = false → exec (.blockDispatch n) s = .next (s.updLaunch n (fun v => { v with affSince := some (v.affSince.getD (s.cycles s.lowestDie)) })))
      ∧ (s.firstFit n (pref.getD []) = none → pref = none ∨ l.affExpired = true →
        (∀ k, s.firstFit n s.clustersPresent = some k → gives k)
        ∧ (s.firstFit n s.clustersPresent = none →
          let f := s.dropFenced n
          ((∃ e ∈ f.clusters, e.2.reserved = some n) → exec (.blockDispatch n) s = .next f)
          ∧ ((∀ e ∈ f.clusters, e.2.reserved ≠ some n) →
            ((∀ k ∈ f.clustersPresent, f.clusterHolds k l.img = 0) → exec (.blockDispatch n) s = .next ((f.retireUnrun n l.next).updLaunch n (fun v => { v with next := v.next + 1, affSince := none, affExpired := false })))
            ∧ ∀ k, (∃ k ∈ f.clustersPresent, f.clusterHolds k l.img ≠ 0) →
              f.clustersPresent.find? (fun k => f.fits k n false && (f.cl k).reserved.isNone) = some k →
              exec (.blockDispatch n) s = .next (f.updCl k (fun c => { c with reserved := some n }))))))
    ∧ (∀ t, l.affSince = some t → t + s.pkgReg 0x113 ≤ s.cycles s.lowestDie →
        exec (.affinityWaitExpiry n) s = .next (s.updLaunch n (fun v => { v with affExpired := true })))
    ∧ ((s.cl g).blocks.has slot = true → s.savingOf x.lnum x.blk = false → s.blockOver g slot = true →
        let flags := (if x.aborted then 1 else 0) + (if x.spineSt then 2 else 0)
        exec (.blockRetire g slot) s = .next ((s.freeBlock g slot).blockDone x.lnum x.blk x.maxSt x.nonzero x.aborted
          (recordBytes x.maxSt flags x.nonzero x.maxId x.blk x.lnum g x.parties s.ns)))
    ∧ (s.work.launches.has n = true → l.admitted = true → l.retired = l.blocks → exec (.launchRetire n) s = .next (s.retireLaunch n))
    ∧ (∀ blk,
      let t := s.dispatch n blk g
      let b := ((List.range 64).find? (fun k => !(s.cl g).blocks.has k)).getD 0
      let y := t.block g b
      y.lnum = n ∧ y.blk = blk ∧ y.aspace = l.aspace ∧ y.img = l.img
      ∧ ((s.pickSlots g l.img).Nodup → ∀ e ∈ (s.pickSlots g l.img).zipIdx, (t.warp g e.1).blk = some b ∧ (t.warp g e.1).bw = e.2
          ∧ ∀ j, j < 32 → 32 * e.2 + j < l.img.threads →
            (t.lane g e.1 j).live = true ∧ (t.lane g e.1 j).pc = l.img.base + BitVec.ofNat 64 l.img.warpEnt)
      ∧ (l.img.spineEnt ≠ 0 → ∀ k r, s.openSpines g = k :: r → (t.spine g k).live = true ∧ (t.spine g k).blk = b
          ∧ (t.spine g k).pc = l.img.base + BitVec.ofNat 64 l.img.spineEnt ∧ t.sreg g k 1 = l.args)
      ∧ ∀ h, h ≠ g → t.cl h = s.cl h)

/-- R42 to R45, R69 to R71, R365: a gatherer's turn pulls the next record of the queue it serves; a record without waits whose
fields and header pass becomes ready, and one with a bad field is retired with POISON. A cluster with a free warp slot and
room forms a wave of its gatherer's ready tasks, at most 32 of one ENTRY, class, budget and address space, when it is full,
its window has ended, or no further ready record of the kind is found; each lane stands at its entry with its record's address
and inline words. WATCH_NOTIFICATION and SEQ_POLL release the waiters of a die that a counter has satisfied, SEQ_POLL no sooner
than CTL_SEQPOLL cycles after the die last read the counter. TASKG takes a
value above 64 as 64. The order of a record's checks, which granules a wave names, and how its window counts, are the model's
reading (log 42, 43). -/
def Obligations.TaskEvents : Prop :=
  ∀ (s : State) (g q : Nat) (v : W64),
    let x := s.queue q
    let va := x.slotAddr x.pull
    let d := v.toNat
    (s.mayPull g = true → s.nextPull g = some q → ∀ u b p,
      ((s.acquire g 7).updCl g (fun c => { c with nextQueue := q + 1 })).rd x.aspace va 128 (some g) = (u, .ok (b, p)) →
      let t := { recTask q x.pull va b with g := g }
      (∀ k, recCheck t b = some k → k ≠ 4 → exec (.taskRecordPull g) s = .next (u.pullFail g t k 0 0xFFFF))
      ∧ (recCheck t b = some 4 → exec (.taskRecordPull g) s = .next (u.pullFail g t 4 t.entry (Config.openInfo u.ticks 0)))
      ∧ (recCheck t b = none → ∀ w,
        (∀ info, u.entryCheck g (u.queue q).aspace t = (w, .ok (some info)) →
          exec (.taskRecordPull g) s = .next (w.pullFail g t 4 t.entry info))
        ∧ (u.entryCheck g (u.queue q).aspace t = (w, .ok none) →
          (recWaits b = [] → exec (.taskRecordPull g) s = .next ((w.pulled q).taskReady g t))
          ∧ (∀ y, w.waitAddrs g (u.queue q).aspace (recWaits b) = (y, .ok none) →
            exec (.taskRecordPull g) s = .next (y.pullFail g t 9 0 0xFFFF))
          ∧ ∀ y ws, w.waitAddrs g (u.queue q).aspace (recWaits b) = (y, .ok (some ws)) →
            exec (.taskRecordPull g) s = .next ((y.pulled q).judgeTask g t ws))))
    ∧ (∀ t r, s.waveTasks g = t :: r → r.length < 32 ∧ s.waveDue g (t :: r) = true
        ∧ ∀ a ∈ t :: r, s.sameWave t a = true ∧ a ∈ s.work.ready.get g [])
    ∧ (s.waveTasks g = [] → exec (.waveFormation g) s = .next s)
    ∧ (∀ t r slot, s.waveTasks g = t :: r → s.freeSlot g = some slot → s.clPresent g = true → (s.cl g).reserved = none →
      s.waveKib g + t.budget ≤ 64 * s.waveGranules g →
      ∃ y, exec (.waveFormation g) s = .next y ∧ (∀ h, h ≠ g → y.cl h = s.cl h)
        ∧ ∀ e ∈ (sortBy (fun (a b : Task) => decide (a.id ≤ b.id)) (t :: r)).zipIdx, y.lane g slot e.2 = taskLane e.1)
    ∧ exec (.watchNotification q v) s = .next ((s.seqNotify d q).tableNotify q)
    ∧ ((∃ w ∈ s.xl.waiters, w.pa = d ∧ w.die = q ∧ w.watched = false)
        ∨ (∃ t ∈ s.work.table.get q [], ∃ w ∈ t.waits, w.1 = d) → s.watching d q = false →
        let last := s.xl.polls.get (pollKey d q) 0
        let clock := s.cycles (if q < 8 then q else s.lowestDie)
        (last + s.pkgReg 0x114 ≤ clock → ∀ u lo hi, (s.pollNow d q).ctrWords d = (u, lo, hi) →
          exec (.seqPoll q v) s = .next (((u.pollMark d q lo).seqNotify d q).tableNotify q))
        ∧ (clock < last + s.pkgReg 0x114 → exec (.seqPoll q v) s = .next s))
    ∧ (g < 160 → exec (.taskgWrite g v) s = .next (s.setCtl (16 + g) 0x200 (BitVec.ofNat 64 (min d 64))))

/-! ### The parties' turns and expiries -/

/-- R94, R98, R100, R101, R113, R293, R295, R301: ISSUE_VOTE puts the groups of the warp that R100 chooses at their ports when
no cause waits for it (the warp of a block's handler takes a cause that can be taken instead): the first group holds exactly
the ready lanes at the least PC of the ready lanes, or at the PC of the boosted lane that has waited longest. The boosts mark
a warp or lane that has waited CTL_STARVE; a YIELD or PAUSE ends when its time has come; a wait that has lasted CTL_WAITLIMIT,
with WTE 1, is abandoned; a pending result arrives; and a block's oldest waiting cause is taken by its handler party when its
frame is free. WAITONLY, the events without operands, the resumption of a party and the vote as one step are the model's
reading (log 27, 31, 32, 36). -/
def Obligations.PartyEvents : Prop :=
  ∀ (s : State) (g k l : Nat),
    let u := (((s.cl g).warps.filter (fun e => e.1 / 16 = k)).foldl (fun t e => t.unpark (warpIssuer g e.1)) s).restCount g k
    let c := placeOf g k
    let now := s.cycles (dieOf g)
    (k < 4 → ∀ w rd, u.chooseWarp g k = some (w, rd) → (∀ b, (u.warp g w).blk = some b → (u.block g b).causes = []) →
      Gives (.issueVote g k) s (fun t => t.ports = u.ports ++ u.voteGroups g w rd ∧ t.mem = u.mem
        ∧ ∀ m, (t.lane g w m).pc = (u.lane g w m).pc))
    ∧ (k < 4 → ∀ w rd b t, u.chooseWarp g k = some (w, rd) → (u.warp g w).blk = some b → u.handler g b = some (warpIssuer g w) →
        u.deliverCause g b = some t → exec (.issueVote g k) s = .next t)
    ∧ (k < 4 → u.chooseWarp g k = none → exec (.issueVote g k) s = .next u)
    ∧ (∀ rd, let p := match s.boostedLane g k rd with | some m => (s.lane g k m).pc | none => s.minPc g k rd
        (s.firstGroup g k rd).1 = rd.filter (fun m => (s.lane g k m).pc = p) ∧ ((s.voteGroups g k rd).head?.map (·.group))
          = some (lanesMask (s.firstGroup g k rd).1))
    ∧ (s.readyLanes g k ≠ [] → (s.warp g k).since + s.dieReg (dieOf g) 0x147 ≤ now →
        exec (.warpBoost g k) s = .next (s.updWarp g k (fun w => { w with boost := true })))
    ∧ (l ∈ s.readyLanes g k → s.dieReg (dieOf g) 0x147 ≤ (s.lane g k l).starve →
        exec (.laneBoost g k l) s = .next (s.updLane g k l (fun x => { x with boost := true })))
    ∧ (∀ t, (s.lane g k l).hold = .yield t → t ≤ now →
        exec (.yieldExpiry g k l) s = .next (s.updLane g k l (fun x => { x with hold := .free })))
    ∧ (∀ t sw, s.holdOf c l = .pause t sw → t ≤ now → exec (.pauseExpiry g k l) s = .next (if sw = true ∧ c.unit = .lane then (s.setHold c l .free).switchPoint c [l] else s.setHold c l .free))
    ∧ (∀ kind t, (s.holdOf c l).timed = some (kind, t) → (s.blockOf c).saving = false → s.wte c = true → l ∈ s.timedOut c l kind →
        exec (.waitTimeout g k l) s = .next (s.abandon c (s.timedOut c l kind) kind))
    ∧ (let arrives := fun (ps : List Pend) => (ps.zipIdx).map (fun e => if e.2 = l then { e.1 with ready := true } else e.1);
        s.pendLate g k l = false → exec (.pendingResultReady g k l) s = .next ((s.updWarp g k (fun w => { w with pend := arrives w.pend })).unpark (warpIssuer g k)))
    ∧ (∀ x r h ls, (s.block g k).saving = false → (s.block g k).causes = x :: r → x.slot = none → s.handler g k = some h →
        h.unit = .lane → (s.frameOf h).busy = false → s.handlerLanes g h.slot = ls → ls ≠ [] →
        exec (.causeDelivery g k) s = .next (s.deliverTo { h with group := lanesMask ls } k ls 0 x))
    ∧ (∀ x r h, (s.block g k).saving = false → (s.block g k).causes = x :: r → x.slot = none → s.handler g k = some h →
        h.unit = .spine → (s.frameOf h).busy = false → (s.spine g h.slot).hold = .free →
        exec (.causeDelivery g k) s = .next (s.deliverTo h k [0] 0 x))
    ∧ (∀ x r, (s.block g k).saving = false → (s.block g k).causes = x :: r → x.slot = none → s.handler g k = none →
        exec (.causeDelivery g k) s = .next (s.abortBlock g k x.code none))
    ∧ (∀ x r w, (s.block g k).saving = false → (s.block g k).causes = x :: r → x.slot = some w →
        (s.frameOf (warpIssuer g w)).busy = false → exec (.causeDelivery g k) s = .next (s.deliverPoison g k w 0 x))

/-! ### Translation -/

/-- R47, R52 to R54, R56, R57, R59 to R63, R289: a walk goes from the space's root down through well-formed pointers; it fails with reason 4
for an invalid space or a malformed entry, 1 for an invalid one, 2 for a missing permission, 3 without a frame and 5 for a frame
that does not match; a leaf that admits the access gives its translation to a requester that its class admits, parks on MIG, and
else is widened; a lazy entry takes a frame, which is zeroed, and becomes a leaf of its permissions, owned by the cluster that
touched it when it was to be classified (that a lazy entry whose leaf would be malformed is malformed is the model's reading:
log 76). A walk in flight that succeeds installs its translation and lets its requests go on; one that fails
parks them and enters them in the fault queue; one that meets a page to be widened asks its owner and walks again later, as
does one that meets MIG; a die's walkers are 64, and a walk beyond them waits. WIDEN serves the oldest request of a page. A
resolution replays the requests of the record it names, or delivers PAGE_FAULT or ACCESS to them; a write that names no
unresolved record only sets bit 1 of CTL_FQSTAT. A joined request with another access walks again, and a lazy page's walk
parks (log 34, 35). -/
def Obligations.WalkEvents : Prop :=
  ∀ (s : State) (i die : Nat) (v : W64),
    (∀ w r rs, s.xl.walks[i]? = some w → s.widening w.aspace w.va = false → s.inWalker i w = true → w.who = r :: rs →
      (∀ u t, s.walk w.aspace w.va w.acc (some r.1.cluster) = (u, .ok t) → exec (.walkCompletion i) s = .next (w.who.foldl (fun x q => x.walkDone q.1)
          (((w.who.map (fun q => q.1.cluster)).eraseDups).foldl (fun x g => x.tlbInstall g t) (u.walkGone i))))
      ∧ (∀ u n, s.walk w.aspace w.va w.acc (some r.1.cluster) = (u, .fail n) → exec (.walkCompletion i) s = .next ((w.who.foldl (fun x q => x.walkFailed q.1) (u.walkGone i)).recordFaults w.die w.aspace w.va n w.who))
      ∧ (∀ u, s.walk w.aspace w.va w.acc (some r.1.cluster) = (u, .widen) → exec (.walkCompletion i) s = .next { u with xl := { u.xl with widens := u.xl.widens ++
          [{ die := u.ownerDie w.aspace w.va, aspace := w.aspace, va := w.va, toucher := some r.1.cluster }] } })
      ∧ (∀ u, s.walk w.aspace w.va w.acc (some r.1.cluster) = (u, .mig) → exec (.walkCompletion i) s = .next u))
    ∧ (∀ w, s.xl.walks[i]? = some w → s.widening w.aspace w.va = true ∨ s.inWalker i w = false → exec (.walkCompletion i) s = .next s)
    ∧ (∀ w, s.xl.widens[i]? = some w →
      (s.xl.widens.take i).any (fun x => x.aspace = w.aspace && x.va.toNat / 32768 = w.va.toNat / 32768) = false →
      let t := s.widenPage w.aspace w.va w.toucher
      exec (.widen i) s = .next { t with xl := { t.xl with widens := t.xl.widens.eraseIdx i } })
    ∧ (∀ r, s.resolves die v = some r →
      (bitsN v.toNat 12 2 = 0 → exec (.fqReplay die v) s = .next (s.resolve r (fun t q => t.replayReq r.die r.aspace q)))
      ∧ (bitsN v.toNat 12 2 = 1 → exec (.fqDeliverPageFault die v) s = .next (s.resolve r (fun t q => t.deliverReq 8 r.idx q)))
      ∧ (bitsN v.toNat 12 2 = 2 → exec (.fqDeliverAccess die v) s = .next (s.resolve r (fun t q => t.deliverReq 9 r.idx q))))
    ∧ (s.resolves die v = none → Gives (.fqResolveIgnored die v) s (fun t =>
        t.ctlOf (1 + die) 0x144 = s.ctlOf (1 + die) 0x144 ||| 2#64 ∧ t.clusters = s.clusters ∧ t.xl = s.xl ∧ t.mem = s.mem))
    ∧ (∀ (aspace : Nat) (va : W64) (a : Access) (who : Option Nat) (u : State),
      (s.rootOf aspace = (u, none) → s.walk aspace va a who = (u, .fail 4))
      ∧ ∀ root, s.rootOf aspace = (u, some root) → s.walk aspace va a who = u.walkTable 2 root aspace va a who)
    ∧ (∀ (lvl tbl aspace : Nat) (va : W64) (a : Access) (who : Option Nat) (u : State) (e : W64),
      let size := 2 ^ (15 + 12 * lvl)
      let pa := tbl + 8 * (va.toNat / size % 4096)
      s.walkEntry who lvl aspace va pa = (u, e) → (∀ g, who = some g → g < 160) →
      let ends := fun (w : State) (r : WalkRes) => s.walkTable lvl tbl aspace va a who = (w, r)
      let bit := fun k => e.getLsbD k = true
      let frame := e.toNat / 2 ^ 15 % 2 ^ 37 * 2 ^ 15
      let cls := e.toNat / 2 ^ 9 % 4
      let owner := e.toNat / 2 ^ 52
      let leaf := bit 1 ∨ bit 2 ∨ bit 3
      let may := match a with | .read => bit 1 | .write => bit 2 | .atomic => bit 1 ∧ bit 2 | .fetch => bit 3
      let write := a = .write ∨ a = .atomic
      let badLeaf := frame % size ≠ 0 ∨ (bit 2 ∧ ¬bit 1) ∨ bit 13 ∨ bit 14 ∨ bit 7 ∨ (cls = 0 ∧ 160 ≤ owner) ∨ (cls = 1 ∧ 8 ≤ owner)
        ∨ (2 ≤ cls ∧ owner ≠ 0) ∨ badFrame frame = true ∨ (isIo frame = true ∧ cls ≠ 2) ∨ (cls ≤ 1 ∧ u.isLocal frame = false)
        ∨ (lvl = 2 ∧ frame % 2 ^ 40 ≠ 0) ∨ (cls = 3 ∧ bit 3)
      let badPointer := e.toNat / 2 % 2 ^ 14 ≠ 0 ∨ owner ≠ 0 ∨ badFrame frame = true ∨ lvl = 0
      let badLazy := lvl ≠ 0 ∨ e.toNat / 2 ^ 31 ≠ 0 ∨ e.toNat / 2 ^ 12 % 8 ≠ 0 ∨ bit 8 ∨ e.toNat / 2 ^ 5 % 4 ≠ 0 ∨ cls = 1
        ∨ (bit 2 ∧ ¬bit 1) ∨ (cls = 3 ∧ bit 3)
      let admitted := match cls, who with
        | 0, some g => owner = g
        | 1, some g => owner = g / 20
        | 0, none | 1, none => False
        | _, _ => True
      (¬bit 0 → ¬bit 7 → ends u (.fail 1))
      ∧ (bit 0 → ¬leaf → (badPointer → ends u (.fail 4))
        ∧ (¬badPointer → ∀ l, lvl = l + 1 → s.walkTable lvl tbl aspace va a who = u.walkTable l frame aspace va a who))
      ∧ (bit 0 → leaf → (badLeaf → ends u (.fail 4))
        ∧ (¬badLeaf → bit 12 → ends u .mig) ∧ (¬badLeaf → ¬bit 12 → ¬may → ends u (.fail 2))
        ∧ (¬badLeaf → ¬bit 12 → may → ¬admitted → ends u .widen)
        ∧ (¬badLeaf → ¬bit 12 → may → admitted → ∃ w t, ends w (.ok t)
          ∧ t.aspace = aspace ∧ t.cls = cls ∧ t.owner = owner ∧ (t.r = true ↔ bit 1) ∧ (t.w = true ↔ bit 2) ∧ (t.x = true ↔ bit 3)
          ∧ (t.u = true ↔ bit 4) ∧ (lvl ≠ 0 ∨ ¬bit 8 → w = u.setAD pa a (who.map dieOf) ∧ t.pages = size / 32768
            ∧ t.addr va = frame + va.toNat % size ∧ (t.d = true ↔ bit 6 ∨ write))))
      ∧ (¬bit 0 → bit 7 → (badLazy → ends u (.fail 4)) ∧ (¬badLazy → ¬may → ends u (.fail 2))
        ∧ (¬badLazy → may →
          let colo := e.toNat / 2 ^ 15 % 2 ^ 16
          let got := if colo ≠ 0 then u.takeColo colo else u.takeFrame (match who with | some g => g / 20 | none => 8)
          (∀ v n, got = (v, .error n) → ends v (.fail n) ∧ (n = 3 ∨ n = 5))
          ∧ ∀ v f, got = (v, .ok f) → ∃ t x, ends ((v.zeroFrame f).physSetWord pa x) (.ok t)
            ∧ t.pa = f ∧ t.addr va = f + va.toNat % 32768 ∧ t.cls = (if cls = 0 then (if who.isSome then 0 else 2) else cls)
            ∧ t.owner = (if cls = 0 then who.getD 0 else 0) ∧ (t.r = true ↔ bit 1) ∧ (t.w = true ↔ bit 2) ∧ (t.x = true ↔ bit 3)
            ∧ (t.u = true ↔ bit 4) ∧ (t.d = true ↔ write)
            ∧ x.toNat / 2 ^ 15 % 2 ^ 37 * 2 ^ 15 = f ∧ x.toNat / 2 ^ 52 = t.owner ∧ x.toNat / 2 ^ 9 % 4 = t.cls
            ∧ x.toNat / 2 % 16 = e.toNat / 2 % 16 ∧ x.getLsbD 0 = true ∧ x.getLsbD 5 = true ∧ (x.getLsbD 6 = true ↔ write)
            ∧ (x.getLsbD 11 = true ↔ colo ≠ 0) ∧ x.getLsbD 7 = false ∧ x.getLsbD 8 = false ∧ x.toNat / 2 ^ 12 % 8 = 0)))
    ∧ (∀ row, let t := s.passPools
      (∀ k ∈ t.stackOrder row, t.stackFrames k = 0) → s.takeFrame row = (t, .error 3))

/-- R64 to R67: the translation agent takes a well-formed invalidation into flight, a range of more than 4,096 pages as the
whole space, and refuses another with poison on its counter; it drops the translations it covers, and when no access that may have
been made through them is still to be performed it advances its counter (which accesses these are is the model's reading: log 47).
MOVE_PAGE moves a movable leaf to the frame it names, dropping the translations of attached devices when FLAGS bit 0 says so; it
refuses other fields with poison on its counter (with an unusable counter it has no effect: log 47). A sill's window clears
its counts when it has lasted CTL_MIGWIN (by the clock of the lowest present die: log 48), and the migration
engine moves a candidate frame to its toucher's die. -/
def Obligations.TranslationCommands : Prop :=
  ∀ (s : State) (c : BitVec 256) (i frame die asp : Nat) (va : W64),
    let x := xlFields c
    let takes := fun (j : Instr) (all : Bool) (range : Option (Nat × Nat)) => ∃ t, exec j s = .next t
      ∧ t = { s with xl := { s.xl with invals := t.xl.invals } } ∧ t.xl.invals = s.xl.invals ++
        [{ all := all, aspace := x.aspace, range := range, ats := x.flags = 1, ctr := x.ctr, inc := x.inc }]
    let refused := fun (j : Instr) => exec j s = .next (if s.ctrPa x.ctr then s.ctrAdvance x.ctr (x.inc % 2 ^ 63) true else s)
    let ok := x.flags ≤ 1 ∧ x.inc < 2 ^ 63 ∧ s.ctrPa x.ctr = true
    let page := x.npages ≠ 0 ∧ x.va.toNat % 32768 = 0 ∧ x.va.toNat < 2 ^ 51
    (ok → page → takes (.invalidateRange c) false (if 4096 < x.npages then none else some (x.va.toNat / 32768, x.npages)))
    ∧ (ok → takes (.invalidateAspace c) false none ∧ takes (.invalidateAll c) true none)
    ∧ (¬ok → refused (.invalidateRange c) ∧ refused (.invalidateAspace c) ∧ refused (.invalidateAll c))
    ∧ (¬page → refused (.invalidateRange c)) ∧ refused (.refusedTranslationCommand c)
    ∧ (∀ v, s.xl.invals[i]? = some v →
      let t := s.shootdown v.all v.aspace v.range v.ats
      let first := v.shot.getD s.ticks
      let mine := fun (th : Thread) => v.all = true ∨ t.threadIn th v.aspace = true
      let done := (∀ e ∈ t.work.queues, ∀ w ∈ e.2.waiting, ∀ th, w.party = some th → w.born ≤ first → ¬mine th)
        ∧ (∀ q ∈ t.out.tlain, q.born ≤ first → ∀ th ∈ q.who, ¬mine th) ∧ t.out.posted = [] ∧ t.holdsCtr v first = false
      (done → exec (.invalidationComplete i) s
        = .next (({ t with xl := { t.xl with invals := t.xl.invals.eraseIdx i } } : State).ctrAdvance v.ctr v.inc false))
      ∧ (¬done → exec (.invalidationComplete i) s
        = .next { t with xl := { t.xl with invals := t.xl.invals.set i { v with shot := some first } } }))
    ∧ (let sound := x.flags ≤ 1 ∧ x.npages = 0 ∧ x.va.toNat % 32768 = 0 ∧ x.va.toNat < 2 ^ 51 ∧ x.inc % 32768 = 0
        ∧ x.inc < 2 ^ 52 ∧ badFrame x.inc = false
      (s.ctrPa x.ctr = false → exec (.movePage c) s = .next s)
      ∧ (s.ctrPa x.ctr = true → ¬sound → exec (.movePage c) s = .next (s.ctrAdvance x.ctr 1 true))
      ∧ (s.ctrPa x.ctr = true → sound → ∀ u,
        (s.leafOf x.aspace x.va = (u, none) → exec (.movePage c) s = .next (u.xlAdvance x 1 true))
        ∧ ∀ pa lvl e, s.leafOf x.aspace x.va = (u, some (pa, lvl, e)) →
          (u.movable lvl e = true → u.leafBad 0 (movedLeaf e x.inc) = false → exec (.movePage c) s = .next (((u.moveLeaf pa e x.aspace x.va x.inc (x.flags = 1)).returnFrame (ptePa e)).xlAdvance x 1 false))
          ∧ (u.movable lvl e = false ∨ u.leafBad 0 (movedLeaf e x.inc) = true → exec (.movePage c) s = .next (u.xlAdvance x 1 true))))
    ∧ (s.xl.migSince.get i 0 + s.pkgReg 0x118 ≤ s.cycles s.lowestDie → ∃ t, exec (.migrationWindow i) s = .next t
        ∧ t = { s with xl := { s.xl with mig := t.xl.mig, migSince := s.xl.migSince.put i (s.cycles s.lowestDie) } }
        ∧ ∀ e, e ∈ t.xl.mig ↔ e ∈ s.xl.mig ∧ paStack (e.1 / 8 * 32768) ≠ i)
    ∧ (s.cycles s.lowestDie < s.xl.migSince.get i 0 + s.pkgReg 0x118 → exec (.migrationWindow i) s = .next s)
    ∧ (∀ u pa lvl e, s.leafOf asp va = (u, some (pa, lvl, e)) → u.migrates frame die lvl e = true → ∀ w dst,
      u.takeFrame die = (w, .ok dst) →
      exec (.migrationMove frame die asp va) s = .next ((w.moveLeaf pa e asp va dst true).returnFrame frame))

/-! ### Pre-emption and engine completions -/

/-- R303, R304, R306, R307, R309, R310: a SAVE that passes its checks marks its blocks' areas as being written, and the agent
waits for it; a turn of its own stops each block's parties; a SAVE, RESTORE or other command that does not pass advances its
counter with poison and sends the agent's MSI. LNUM is taken modulo 2^32. A save ends when its blocks have stopped, their
results have arrived and the matrix engine is done with them: each is written out and leaves its cluster, and the counter
advances. A RESTORE whose area holds a block of its space, not of class C, is placed by the rules of R309, and a restored
block takes what its redirected arrivals have counted and runs again; one with LAUNCH does so for all blocks of a launch of
class C. A restore that fits nowhere waits, unless it has a TARGET; a mismatch leaves its reason in the areas (1 what they
hold, 2 room, 3 the class, 4 the TARGET). The order of the checks, and what each wait of a saved party becomes, are the
model's reading (log 66, 67, 68). -/
def Obligations.PreemptionCommands : Prop :=
  ∀ (s : State) (c : BitVec 512),
    let y := pmFields c
    let x := { y with lnum := s.lnumOf y.lnum }
    let l := s.launch x.lnum
    let refuses := fun (i : Instr) (t : State) => exec i s = .next (t.pmFail y)
    let may := s.pmBad y = false ∧ y.aspace = 0 ∧ s.work.launches.has x.lnum = true ∧ l.admitted = true
      ∧ (y.whole = true ↔ l.img.cls = 0)
    (¬may → refuses (.save c) s)
    ∧ (may → s.saveBlocks x = [] → refuses (.save c) s)
    ∧ (may → ∀ e es u, s.saveBlocks x = e :: es →
      (s.areasOk x l ((e :: es).map (·.1)) = (u, false) → refuses (.save c) u)
      ∧ (s.areasOk x l ((e :: es).map (·.1)) = (u, true) →
        let v := ((e :: es).foldl (fun t b => t.saveBegin x l b) u).updLaunch x.lnum (fun y => { y with away := x.whole })
        let o : SaveOp := { lnum := x.lnum, blks := (e :: es).map (·.1), ctr := x.ctr, inc := x.inc }
        exec (.save c) s = .next { v with eng := { v.eng with save := some o, pmHead := v.eng.pmHead + 1, restSince := none } }))
    ∧ (∀ g b, s.up = true → (s.cl g).blocks.has b = true → s.savingOf (s.block g b).lnum (s.block g b).blk = true →
        s.turn (.pmStop g b) = .next (s.updBlock g b (fun b => { b with saving := true }))
        ∧ ∀ p k, p.g = g → s.blkOf p = some b → (s.updBlock g b (fun b => { b with saving := true })).readyAt p k = false)
    ∧ (∀ o, s.eng.save = some o → o.blks.all (s.saveReady o.lnum) = true →
        let t := o.blks.foldl (fun t b => t.saveBlock o.lnum b) s
        exec .saveComplete s = .next (({ t with eng := { t.eng with save := none } } : State).ctrAdvance o.ctr o.inc false))
    ∧ (s.eng.save = none ∨ (∃ o, s.eng.save = some o ∧ o.blks.all (s.saveReady o.lnum) = false) → exec .saveComplete s = .next s)
    ∧ (s.pmBad y = true ∨ (s.rootOf y.aspace).2 = none → refuses (.restore c) s)
    ∧ (s.pmBad y = false → (s.rootOf y.aspace).2 ≠ none → y.whole = false → ∀ u,
        (s.readArea y.aspace y.area = (u, .refused) → refuses (.restore c) u)
        ∧ (s.readArea y.aspace y.area = (u, .bad) → exec (.restore c) s = .next (u.mismatch y [y.area] 1))
        ∧ ∀ tok sv, s.readArea y.aspace y.area = (u, .ok tok sv) →
          (sv.blk.aspace ≠ y.aspace → refuses (.restore c) u)
          ∧ (sv.blk.aspace = y.aspace → sv.blk.img.cls = 0 → exec (.restore c) s = .next (u.mismatch y [y.area] 3))
          ∧ (sv.blk.aspace = y.aspace → sv.blk.img.cls ≠ 0 →
            (y.target ≠ 0xFFFF → ¬(y.target < 160 ∧ u.clPresent y.target = true) →
              exec (.restore c) s = .next (u.mismatch y [y.areaOf sv.blk.blk] 4))
            ∧ (y.target = 0xFFFF ∨ (y.target < 160 ∧ u.clPresent y.target = true) →
              let es := [(sv.blk.blk, tok, sv)]
              let now := u.cycles u.lowestDie
              let placed := State.placeAll y (decide (u.eng.restSince.getD now + u.pkgReg 0x113 ≤ now)) u es
              (∀ t, placed = some t → exec (.restore c) s = .next ((t.moveTargets [(sv.g, sv.slot)] (t.placesOf sv.blk.lnum [sv.blk.blk])).restoreEnd y sv.blk.lnum es))
              ∧ (placed = none → y.target ≠ 0xFFFF → exec (.restore c) s = .next (u.mismatch y [y.areaOf sv.blk.blk] 2))
              ∧ (placed = none → y.target = 0xFFFF → exec (.restore c) s = .next { u with eng := { u.eng with restSince := some (u.eng.restSince.getD now) } }))))
    ∧ (s.pmBad y = false → (s.rootOf y.aspace).2 ≠ none → y.whole = true → ∀ u tok sv,
        s.restoreLaunch y = (u, .ok tok sv) →
        let n := sv.blk.lnum
        let w := u.launch n
        (w.img.cls ≠ 0 ∨ w.aspace ≠ y.aspace → refuses (.restore c) u)
        ∧ (w.img.cls = 0 → w.aspace = y.aspace → ∀ t,
          (u.readAreas y n w.areas.keys = (t, .error 0) → refuses (.restore c) t)
          ∧ (∀ k, u.readAreas y n w.areas.keys = (t, .error k) → k ≠ 0 →
            exec (.restore c) s = .next (t.mismatch y (w.areas.keys.map y.areaOf) k))
          ∧ ∀ es, u.readAreas y n w.areas.keys = (t, .ok es) → y.target = 0xFFFF ∨ (y.target < 160 ∧ t.clPresent y.target = true) →
            (∀ v, State.placeAll y true t es = some v → exec (.restore c) s = .next ((v.moveTargets (es.map (fun e => (e.2.2.g, e.2.2.slot))) (v.placesOf n (es.map (·.1)))).restoreEnd y n es))
            ∧ (State.placeAll y true t es = none → y.target ≠ 0xFFFF →
              exec (.restore c) s = .next (t.mismatch y (es.map (fun e => y.areaOf e.1)) 2))))
    ∧ refuses (.refusedPreemptionCommand c) s

/-- R126 to R129, R137 to R142, R207, R212, R214, R221 to R228, R231, R232, R236, R238, R239: what the end of an engine's oldest
command does, and what the engine computes.

The copy engine moves its chunks until none is left or a walk parks it; a command without chunks left, whose writes have been
performed when it has REL, ends with its ring's transition, its counter and its sequencer's count. A chunk is read, converted by
R126 to R129, R133 and R224, and written at the places of R221, R222 and R225; a poisoned source gives zero, a cause and a
poisoned counter. The matrix engine performs its oldest command and ends it, an ACCOP of a sequencer among them: each element
(m, n) of an MMA's tile becomes the sum of R139 to R142 over the operands in the slots, no other element changes, and NV and OF
are set. A sill moves its command's pages or lines, and a command with none left, whose writes have been performed, ends with its
counter. A collective step whose participants here have all issued reads them all, and each writes its result and its residuals by
R238 and, once those writes are performed, advances its counter; when a page of it no longer translates, or another package does
not agree, or CTL_COLLWAIT cycles have passed, every participant of it that has issued here and not yet written ends with poison.
(When the engines' completions come is free: log 21; ACCOPs of a sequencer wait in the matrix engine's order: log 25; other
packages' values and agreement are free: log 11; how a failing step ends: log 54; poison at DSCALE is ignored: log 79.) -/
def Obligations.EngineCompletions : Prop :=
  ∀ (s : State) (g i : Nat),
    (∀ q r, (s.cl g).copyQ = q :: r → q.parked = false → (s.block g q.blk).saving = false →
      let d := parseDesc q.desc
      let n := d.chunks
      let asp := (s.block g q.blk).aspace
      let got := if d.canon then s.canonChunk g asp d (q.chunk / max d.perRow 1) (q.chunk % max d.perRow 1)
        else s.plainChunk g asp d (srcSide d asp g q.blk (q.base.getD d.padBase)) (q.chunk / max d.perRow 1) (q.chunk % max d.perRow 1)
      let put := fun (t : State) (c : Chunk) => t.putAll g (!d.canon) c.writes (q.dests d asp)
      (∀ u, s.copyBegin g q = some u →
        exec (.tcopyCompletion g) s = .next (if (u.block g q.blk).aborted then u else u.copyRun (n - q.chunk + 1) g))
      ∧ (s.copyBegin g q = none → exec (.tcopyCompletion g) s = .next s)
      ∧ (q.begun = true → n ≤ q.chunk → (s.block g q.blk).aborted = false →
        (s.copyLate g q = true → exec (.tcopyCompletion g) s = .next s)
        ∧ (s.copyLate g q = false → exec (.tcopyCompletion g) s = .next (s.copyEnd g q false)))
      ∧ (let w := (s.updCl g (fun c => { c with copyQ := r })).seqCounted g q.seq
        let done := fun (e : State × Bool) => ((match q.ctr with
          | some pa => e.1.ctrAdvance pa d.inc (!e.2 || q.poison)
          | none => e.1) : State).seqCommandDone g q.seq
        (q.ring = none → s.copyEnd g q false = done (w, true))
        ∧ (∀ k, q.ring = some k → d.dir ≠ 0 → s.copyEnd g q false = done (w.endRing g q.blk k .ret g q.blk 4))
        ∧ (∀ k, q.ring = some k → d.dir = 0 → (∀ t ∈ q.targets, t.1 = g ∧ t.2.1 = q.blk) →
          s.copyEnd g q false = done (w.endRing g q.blk k .commit g q.blk 4)))
      ∧ (q.chunk < n → ∀ f, s.copyRun (f + 1) g = if (s.copyChunk g q).2 then (s.copyChunk g q).1.copyRun f g else (s.copyChunk g q).1)
      ∧ (∀ t c w, got = (t, .ok c) → put t c = (w, .ok .unit) →
        let u := (w.orBlockFlags g q.blk (c.flags &&& (flNV ||| flOF ||| flSAT))).updCopy g
          (fun x => { x with chunk := x.chunk + 1, poison := x.poison || c.poison.isSome })
        (s.copyChunk g q).1 = match c.poison with
          | some a => if q.poison then u else u.engineCause g q.blk 14 4 a q.addr
          | none => u)
      ∧ (∀ t v a k, got = (t, .fail v a k) ∨ (∃ u c, got = (u, .ok c) ∧ put u c = (t, .fail v a k)) →
        (k = 6 → s.copyChunk g q = (t, false))
        ∧ (k = 0 → s.copyChunk g q = ((t.copyEnd g q true).engineCause g q.blk 9 4 v 0xFFFF, false))
        ∧ (k ≠ 0 → k ≠ 6 → s.copyChunk g q
          = ((t.updCopy g (fun x => { x with parked := true })).recordFault (dieOf g) asp v a k [.copy g], false))))
    ∧ (∀ (x : Side2) f pos n t b p, s.sideRead g x (pos / 8) ((pos % 8 + copyBits f * n + 7) / 8) = (t, .ok (b, p)) →
      s.readCodes g x f pos n
        = (t, .ok ((List.range n).map (fun k => leNat b / 2 ^ (pos % 8 + copyBits f * k) % 2 ^ copyBits f), p)))
    ∧ (∀ asp d j kq u v cs ws fl p z,
      let K := krowLen d.dfmt
      let r := j % d.e 1 + d.e 1 * (kq + d.e 0 / K * (j / d.e 1))
      let pos := if d.sfmt = 13 then 8 * (544 * (kq / 16) + 32 + 32 * (kq % 16)) else copyBits d.sfmt * K * kq
      s.readCodes g (.mem asp (d.src + d.rowAt j) (isMx d.sfmt)) d.sfmt pos K = (u, .ok (cs, p)) →
      u.canonScales g asp d j kq d.gs = (v, .ok (ws, fl, z)) →
      s.canonChunk g asp d j kq = (v, .ok {
        writes := (64 * r, 64, leNat (krowBytes d.dfmt r (if p || z then [] else cs.map (fun c => (canonElem d c).1))))
          :: ws.zipIdx.map (fun w => (64 * d.krows + 4 * (r * d.gs + w.2), 4, w.1.toNat))
        flags := cs.foldl (fun f c => f ||| (canonElem d c).2) fl
        poison := if p || z then some (BitVec.ofNat 64 (d.src + d.rowAt j + pos / 8)) else none }))
    ∧ (∀ asp d j kq m u ws fl p, s.canonScales g asp d j kq m = (u, .ok (ws, fl, p)) →
      let k := kq * d.gs + m
      let from_ := d.src + d.rowAt j + 544 * (k / 32)
      s.canonScales g asp d j kq 0 = (s, .ok ([], 0, false))
      ∧ (isMx d.sfmt = true → ∀ v e z, u.readMem g asp (d.sscale + (d.rowAt j + unitBytes d.sfmt * k) / unitBytes d.sfmt) 1 true = (v, .ok (e, z)) →
        s.canonScales g asp d j kq (m + 1) = (v, .ok (ws ++ [mxScale d.sfmt e], fl, p || z)))
      ∧ (d.sfmt = 13 → ∀ v w big z n y, u.readMem g asp from_ 4 = (v, .ok (big, z)) →
        v.readMem g asp (from_ + 4 + k % 32 / 2) 1 = (w, .ok (n, y)) →
        ∃ bad, s.canonScales g asp d j kq (m + 1)
            = (w, .ok (ws ++ [(q16Scale n (BitVec.ofNat 32 big)).1], fl ||| (q16Scale n (BitVec.ofNat 32 big)).2, bad))
          ∧ (bad = true ↔ p = true ∨ y = true ∨ z = true))
      ∧ (d.sfmt ≤ 5 → d.sscale = 0 → s.canonScales g asp d j kq (m + 1) = (u, .ok (ws ++ [0x3F800000], fl, p)))
      ∧ (d.sfmt ≤ 5 → d.sscale ≠ 0 → ∀ v w z, u.readMem g asp (d.sscale + 4 * (k + d.e 0 / 32 * j)) 4 = (v, .ok (w, z)) →
        s.canonScales g asp d j kq (m + 1) = (v, .ok (ws ++ [BitVec.ofNat 32 w], fl, p || z))))
    ∧ (∀ asp d (x : Side2) j k u v p,
      let rb := runBits d.sfmt (d.e 0)
      let n := min d.chunkBits (rb - d.chunkBits * k)
      let from_ := (if d.dir = 1 then j * rb else 8 * d.rowAt j) + d.chunkBits * k
      let to_ := (if d.dir = 0 then j * rb else 8 * d.rowAt j) + d.chunkBits * k
      let w := copyBits d.dfmt
      let poison := if p then some (BitVec.ofNat 64 (d.src + from_ / 8)) else none
      let gives := fun (t : State) (f : Nat → Nat × Flags) => ∃ c y, s.plainChunk g asp d x j k = (t, .ok c)
        ∧ c.writes = [(8 * d.rowAt j + w * 32 * k, w * (n / 32), y)] ∧ c.poison = poison
        ∧ (p = false → (∀ e < n / 32, y / 2 ^ (w * e) % 2 ^ w = (f (v / 2 ^ (32 * e) % 2 ^ 32)).1 % 2 ^ w)
          ∧ c.flags = (List.range (n / 32)).foldl (fun a e => a ||| (f (v / 2 ^ (32 * e) % 2 ^ 32)).2) 0)
        ∧ (p = true → y = 0)
      s.sideBits g x from_ n = (u, .ok (v, p)) →
        (d.sfmt = d.dfmt → s.plainChunk g asp d x j k = (u, .ok { writes := [(to_, n, if p then 0 else v)], poison := poison }))
        ∧ (d.sfmt = 6 → d.dfmt ≤ 1 → gives u (packElem d.dfmt))
        ∧ (d.sfmt = 6 → isMx d.dfmt = true → ∀ t e z,
          u.readMem g asp (d.dscale + (d.rowAt j + unitBytes d.dfmt * k) / unitBytes d.dfmt) 1 true = (t, .ok (e, z)) →
          gives t (mxElem d.dfmt e)))
    ∧ (∀ q r, (s.cl g).matQ = q :: r → exec (.mmaCompletion g) s = .next (s.matEnd g q)
      ∧ (let w := (s.updCl g (fun c => { c with matQ := r })).seqCounted g q.seq
        let x := mmaForm q.ext
        (∀ k w' e, q.accop = some (k, w', e) → s.matEnd g q = (w.updBlock g q.blk (fun b => b.accApply k w' e)).seqCommandDone g q.seq)
        ∧ (q.accop = none → s.matEnd g q = (if x.rel = true then
            (((w.mmaRun g q).endRing g q.blk x.ra .ret g q.blk 2).1.endRing g q.blk x.rb .ret g q.blk 2).1
          else w.mmaRun g q).seqCommandDone g q.seq)))
    ∧ (∀ q : MatCmd,
      let x := mmaForm q.ext
      let b := s.block g q.blk
      let t := s.mmaRun g q
      let at_ := fun m n => accKey (x.base + m / 32 * ((x.n + 63) / 64) + n / 64) (m % 32) (n % 64)
      let old := fun m n => if x.acc = true then b.acc.get (at_ m n) 0 else 0
      x.ta ≤ 5 → x.tb ≤ 5 → (q.int = true → x.ta = 4 ∧ x.tb = 4 ∧ x.cplx = false) →
        (∀ m n, m < x.m → n < x.n → (t.block g q.blk).acc.get (at_ m n) 0
          = if q.int = true then q.wholeCell b (old m n) m n else (q.cellOf b (old m n) m n).1)
        ∧ (∀ k, (∀ m n, m < x.m → n < x.n → k ≠ at_ m n) → (t.block g q.blk).acc.get k 0 = b.acc.get k 0)
        ∧ (t.block g q.blk).fpflags = b.fpflags ||| (if q.int = true then 0 else (flNV ||| flOF)
          &&& (List.range x.m).foldl (fun f m => (List.range x.n).foldl (fun f n => f ||| (q.cellOf b (old m n) m n).2) f) 0)
        ∧ { t.block g q.blk with acc := [], fpflags := 0 } = { b with acc := [], fpflags := 0 }
        ∧ t.mem = s.mem ∧ ∀ h, h ≠ g → t.cl h = s.cl h)
    ∧ ((s.cl g).copyQ = [] → exec (.tcopyCompletion g) s = .next s) ∧ ((s.cl g).matQ = [] → exec (.mmaCompletion g) s = .next s)
    ∧ (∀ q, s.eng.sills.find? i = some q → q.parked = false →
      exec (.sillCommandCompletion i) s = .next (s.sillRun (q.n - q.next + 1) i)
      ∧ (q.n ≤ q.next → s.sillRun (q.n - q.next + 1) i = if s.sillLate i then s else s.sillEnd i false)
      ∧ (q.next < q.n → ∀ u ps, s.sillXlate q q.touches = (u, .ok ps) →
          s.sillRun (q.n - q.next + 1) i
            = State.sillRun (q.n - q.next) ((u.sillUnit i q ps).updSill i (fun x => { x with next := x.next + 1 })) i))
    ∧ (∀ q ls, s.eng.colls.find? i = some q → q.written = false → s.collLocals q = some ls →
      let agreed := ls.length < q.npart → Config.remoteReply s.ticks i = true
      let r := ls.foldl (fun (a : State × List (Nat × Option (Nat × List W32 × List W32))) e =>
        ((a.1.collRead e.2 (a.1.eng.colls.get e.2 {})).1,
          a.2 ++ [(e.1, (a.1.collRead e.2 (a.1.eng.colls.get e.2 {})).2)])) (s, [])
      let w := ls.foldl (fun (a : State × Bool) e =>
        ((a.1.collReady (a.1.eng.colls.get e.2 {})).1, a.2 && (a.1.collReady (a.1.eng.colls.get e.2 {})).2)) (r.1, true)
      let mine := r.2.foldl (fun (m : Map (List W32)) e => match e.2 with | some y => m.put e.1 y.2.1 | none => m) []
      (¬agreed → exec (.collStepCompletion i) s = .next (s.collFail q))
      ∧ (agreed → (∀ e ∈ r.2, e.2 ≠ none) → w.2 = true → exec (.collStepCompletion i) s = .next (r.2.foldl (fun t e => match e.2 with | some y => t.collWrite y.1 (w.1.rankValues q mine) y.2.2 | none => t) w.1))
      ∧ (agreed → (∃ e ∈ r.2, e.2 = none) ∨ w.2 = false → exec (.collStepCompletion i) s = .next (w.1.collFail q)))
    ∧ (∀ q, s.eng.colls.find? i = some q → q.written = true → exec (.collStepCompletion i) s = .next (s.collLast i)
      ∧ exec (.collTimeout i) s = .next s)
    ∧ (∀ q, s.eng.colls.find? i = some q →
      (s.collQuiet q = true → s.collLast i = s.collEnd i false)
      ∧ (s.collQuiet q = false → (s.collLast i).eng.colls.find? i = some { q with written := true } ∧ (s.collLast i).mem = s.mem)
      ∧ (∀ vs r, ∃ m n, s.collWrite i vs r = (let w := State.unitWrite m s q.aspace q.dst (wordBytes (collResult q vs)) (some q.g)
          if r = [] then w else State.unitWrite n w q.aspace q.resid (wordBytes r) (some q.g)).collLast i)
      ∧ (q.written = false → s.collLocals q = none →
        exec (.collStepCompletion i) s = .next (if (s.collIssued q).all (fun e => e.2.joins q e.2.rank) then s else s.collFail q))
      ∧ (q.written = false → q.start + s.pkgReg 0x115 ≤ s.cycles (dieOf q.g) → exec (.collTimeout i) s = .next (s.collFail q))
      ∧ (s.cycles (dieOf q.g) < q.start + s.pkgReg 0x115 → exec (.collTimeout i) s = .next s))
    ∧ (∀ (q : Coll) t b p, s.rd q.aspace q.src q.inLen (some q.g) = (t, .ok (b, p)) →
      let x := wordsOf b (q.inLen / 4)
      (q.resid = 0 → s.collRead i q = (t, some (i, if q.op = 2 then x else (collValues q x x).1, [])))
      ∧ (q.resid ≠ 0 → ∀ u c z, t.rd q.aspace q.resid q.inLen (some q.g) = (u, .ok (c, z)) →
        let v := collValues q x (wordsOf c (q.inLen / 4))
        s.collRead i q = (u, some (i, if q.op = 2 then x else v.1, v.2))))
    ∧ (∀ (q : Coll) (x r : List W32) (e : Nat), q.wire ≤ 3 → e < x.length → e < r.length →
      let y := (addF32 (x.getD e 0) (if q.resid = 0 then 0 else r.getD e 0)).1
      let d := wireOf q.wire q.sq q.sd y
      (collValues q x r).1.getD e 0 = d
      ∧ (collValues q x r).2.getD e 0 = (f32Of (sumOf .rne (fp32.unpack y.toNat) (fp32.unpack d.toNat).negate)).1)
    ∧ (∀ (q : Coll) (vs : List (List W32)),
      let sum := fun e => foldF32 (vs.map (fun v => v.getD e 0))
      (q.op = 0 → (collResult q vs).length = q.len / 4 ∧ ∀ e < q.len / 4, (collResult q vs).getD e 0 = sum e)
      ∧ (q.op = 1 → let n := q.len / (4 * q.npart)
        (collResult q vs).length = n ∧ ∀ e < n, (collResult q vs).getD e 0 = sum (q.rank * n + e))
      ∧ (q.op = 2 → collResult q vs = vs.flatten))
    ∧ (∀ (e t : Nat) (es ts : List Nat) (k j : Nat), k < e →
      rowOff (e :: es) (t :: ts) (k + e * j) = k * t + rowOff es ts j ∧ rowOff [] ts j = 0)
    ∧ (∀ (t r : Nat) (codes : List Nat), t ≤ 5 → codes.length = krowLen t → (∀ c ∈ codes, c < 2 ^ copyBits t) →
      (krowBytes t r codes).length = 64 ∧ (krowBytes t r []).all (· = 0) = true
      ∧ ∀ k < krowLen t, codeAt (fun a => (krowBytes t r codes).getD (a - 64 * r) 0) t r k = codes.getD k 0)
    ∧ (∀ (d : Desc) (x : Nat),
      (d.sfmt ≤ 5 ∨ d.sfmt ∈ [7, 8, 11, 12] → canonElem d x = (x, 0)) ∧ (d.sfmt = 6 → canonElem d x = packElem d.dfmt x)
      ∧ (d.sfmt = 9 ∨ d.sfmt = 10 → x < 64 → let y := canonElem d x
        y.2 = 0 ∧ y.1 < 256 ∧ (e4m3.unpack y.1).rat = ((mxFmt d.sfmt).unpack x).rat ∧ (e4m3.unpack y.1).neg = ((mxFmt d.sfmt).unpack x).neg)
      ∧ (d.sfmt = 13 → x < 16 → canonElem d x = ((BitVec.ofInt 8
        ([-127, -95, -72, -54, -39, -26, -14, -5, 0, 6, 16, 28, 41, 57, 78, 127].getD x 0)).toNat, 0)))
    ∧ (∀ f x, f ≤ 1 → let y := (if f = 0 then bf16 else fp16).round .rne .sat false (fp32.unpack x)
      packElem f x = (y.1, y.2 ||| nvOf [fp32.unpack x]))
    ∧ (∀ f e x : Nat, 7 ≤ f → f ≤ 12 → e < 255 →
      let v := fp32.unpack x
      let whole := toWhole 8 true .rne (v.scaled2 (133 - e))
      let y := (mxFmt f).round .rne .sat false (v.scaled2 (127 - e))
      mxElem f e x = (if f = 12 then ((BitVec.ofInt 8 whole.1).toNat, whole.2) else (y.1, y.2 ||| nvOf [v]))
      ∧ mxElem f 255 x = (if f = 7 then (0x7F, 0) else if f = 8 then (0x7E, 0) else (0, flNV))
      ∧ mxScale f 255 = 0x7FC00000
      ∧ (fp32.unpack (mxScale f e).toNat).rat = (2 : Rat) ^ ((e : Int) - if f = 12 then 133 else 127))
    ∧ (∀ (n : Nat) (big : W32),
      let v := fp32.unpack big.toNat
      let y := f32Of (v.mul (.fin false n (-7)))
      q16Scale n big = (y.1, y.2 ||| nvOf [v]))

/-! ### Coherence -/

/-- R280 to R285: a request in flight whose line is free reaches its home, which answers it or probes the agents that hold
the line; one about a line of another package reaches that package, which acknowledges a write-back or a clean (log 11); a probe
in flight to an agent of this package reaches it; an answer reaches the home, and a reply its requester. What an agent with no
copy in its write-back buffer answers to a probe: M and O send their data, and E for FwdS and FwdX; FwdS leaves M as O and E as
S, FwdH M as E and O as S, and FwdX and Rcl leave nothing; a copy in S answers NoData, and is dropped by FwdX; Inv drops S. A
line that no cache of the agent holds answers NoData, or Ack to Inv and Rcl. (For Inv the table has no entry in M, O and E: log
76.) -/
def Obligations.CoherenceMessages : Prop :=
  (∀ (s : State) (slot line : Nat) (m : Msg) (r : List Msg),
    let t := ({ s with mem := { s.mem with msgs := r } } : State)
    let taken := fun (k : MsgKind) (a : Nat) =>
      takeMsg (fun m => m.kind = k && m.line = line && m.slot = a) s.mem.msgs = some (m, r)
    let free := s.mem.txns.has line = false
    let own := s.isLocal (line * 128) = true
    (∀ e ∈ [(Instr.rds slot line, MsgKind.rdS), (.rdx slot line, .rdX), (.upg slot line, .upg), (.wbd slot line, .wbD),
        (.cln slot line, .cln)], free → taken e.2 slot → (own → exec e.1 s = .next (t.homeStart m)) ∧ (¬own → exec e.1 s = .next (t.toPeer m)))
    ∧ (∀ e ∈ [(Instr.hr line, MsgKind.hR), (.hw line, .hW), (.rr line, .rR)], free → own → taken e.2 255 →
        exec e.1 s = .next (t.homeStart m))
    ∧ (s.isOwnAgent slot = true → m.toHome = false → own →
      ∀ e ∈ [(Instr.fwds slot line, MsgKind.fwdS), (.fwdx slot line, .fwdX), (.fwdh slot line, .fwdH), (.inv slot line, .inv),
        (.rcl slot line, .rcl)], taken e.2 slot → exec e.1 s = .next (t.agentProbe e.2 slot line))
    ∧ (taken .data slot → (m.toHome = true → own → exec (.data slot line) s = .next (t.homeAnswer line slot (some (m.data, m.poison))))
      ∧ (m.toHome = false → s.isOwnAgent slot = true → exec (.data slot line) s = .next (t.agentFill m)))
    ∧ (taken .noData slot → m.toHome = true → own → exec (.nodata slot line) s = .next (t.homeAnswer line slot none))
    ∧ (taken .ack slot → (m.toHome = true → own → exec (.ack slot line) s = .next (t.homeAnswer line slot none))
      ∧ (m.toHome = false → s.isOwnAgent slot = true → exec (.ack slot line) s = .next (t.agentAck slot line (m.fill = .M)))))
  ∧ (∀ (s : State) (slot line : Nat), s.mem.wb.find? (agKey slot line) = none →
    let after := fun (k : MsgKind) => (s.agentProbe k slot line).mem.cline slot line
    let sent := fun (k a : MsgKind) => ∃ m, (s.agentProbe k slot line).mem.msgs = s.mem.msgs ++ [m] ∧ m.kind = a ∧ m.line = line
      ∧ m.slot = slot ∧ m.toHome = true
      ∧ (a = .data → ∀ c, s.mem.cline slot line = some c → m.data = c.data ∧ m.poison = c.poison)
    (s.mem.cline slot line = none → (∀ k ∈ [MsgKind.fwdS, .fwdX, .fwdH], sent k .noData ∧ after k = none)
      ∧ ∀ k ∈ [MsgKind.inv, .rcl], sent k .ack ∧ after k = none)
    ∧ ∀ c, s.mem.cline slot line = some c →
      (c.st = .M → after .fwdS = some { c with st := .O, dirty := true } ∧ sent .fwdS .data
        ∧ after .fwdH = some { c with st := .E, dirty := false } ∧ sent .fwdH .data)
      ∧ (c.st = .O → after .fwdS = some c ∧ sent .fwdS .data ∧ after .fwdH = some { c with st := .S, dirty := false } ∧ sent .fwdH .data)
      ∧ (c.st = .E → after .fwdS = some { c with st := .S, dirty := false } ∧ sent .fwdS .data ∧ after .fwdH = some c ∧ sent .fwdH .ack)
      ∧ (c.st = .M ∨ c.st = .O ∨ c.st = .E → after .fwdX = none ∧ sent .fwdX .data)
      ∧ (c.st = .M ∨ c.st = .O → after .rcl = none ∧ sent .rcl .data)
      ∧ (c.st = .E ∨ c.st = .S → after .rcl = none ∧ sent .rcl .ack)
      ∧ (c.st = .S → after .inv = none ∧ sent .inv .ack)
      ∧ (c.st = .S → after .fwdS = some c ∧ sent .fwdS .noData)
      ∧ (c.st = .S → after .fwdX = none ∧ sent .fwdX .noData)
      ∧ (c.st = .S → after .fwdH = some c ∧ sent .fwdH .noData))
  ∧ ∀ (s : State) (slot line : Nat) (c : CLine), s.mem.wb.find? (agKey slot line) = some c →
    ∀ k ∈ [MsgKind.fwdS, .fwdX, .fwdH, .inv, .rcl],
      (s.agentProbe k slot line).mem.cache = s.mem.cache ∧ (s.agentProbe k slot line).mem.wb = s.mem.wb
      ∧ ∃ m, (s.agentProbe k slot line).mem.msgs = s.mem.msgs ++ [m] ∧ m.line = line ∧ m.slot = slot ∧ m.toHome = true
        ∧ (k ≠ .inv → m.kind = .data ∧ m.data = c.data ∧ m.poison = c.poison) ∧ (k = .inv → m.kind = .ack)

/-! ### The package's registers, errors and links -/

/-- R70, R278, R305, R346, R356, R357, R359, R360: a plain register takes the value that the control window writes, one that
does not exist or in which the device reports takes none; a third corrected error of a unit within CTL_ERRWIN seconds of the
first, or a fence request, classifies it, which clears a root port's or hart's bit at once, a cluster's once its last block has
left, a Tlain port's, with its bits of the route table, once no request through it stands unanswered, disables an L2 way after its
lines are written back, and logs the word (log 49); an uncorrectable error poisons its line; a die takes points 0 to 4; the power limit lowers the highest die; a checkpoint starts with its bit; a line of a stream
from the accepted sender is written with its poison. That CTL_CKPTCTR holds a physical address and that it is free whether the
mirror accepts the stream are the model's choices (log 51), and so is which registers are the device's to write (log 50). -/
def Obligations.PackageEvents : Prop :=
  ∀ (s : State) (inst n line src : Nat) (v : W64) (d : Line) (p : Bool),
    let plain := regUsed inst n = true ∧ deviceReg n = false ∧ n ∉ [0x145, 0x134, 0x135, 0x14A, 0x200]
    (plain → exec (.registerWrite inst n v) s = .next (s.setCtl inst n v) ∧ (s.setCtl inst n v).ctlOf inst n = v
      ∧ ∀ i k, (i, k) ≠ (inst, n) → k < 4096 → (s.setCtl inst n v).ctlOf i k = s.ctlOf i k)
    ∧ (regUsed inst n = false ∨ deviceReg n = true → exec (.registerWrite inst n v) s = .next s)
    ∧ (inst < 8 → bitsN v.toNat 0 3 ≤ 4 → exec (.dieFreqChange inst v) s = .next (s.setCtl (1 + inst) 0x14A (v &&& 7)))
    ∧ (inst < 8 → 4 < bitsN v.toNat 0 3 → exec (.dieFreqChange inst v) s = .next s)
    ∧ (∀ k, s.lowerDie = some k → exec .powerLimit s = .next (s.setCtl (1 + k) 0x14A (s.ctlOf (1 + k) 0x14A + 1)))
    ∧ (v.getLsbD 12 = false → exec (.checkpointStart v) s = .next (s.setCtl 0 0x135 v))
    ∧ (v.getLsbD 12 = true → v.toNat < 2 ^ 13 → ∀ u ok, ((s.setCtl 0 0x135 v).cleanAll).tlainSend [] (bitsN v.toNat 0 12 * 2 ^ 33) true = (u, ok) →
        let w := if ok then { u with out := { u.out with mirror := (bitsN v.toNat 0 12, u.presentLines) :: u.out.mirror } } else u
        exec (.checkpointStart v) s = .next (if w.ctrPa (w.pkgReg 0x136) then w.ctrAdvance (w.pkgReg 0x136) 1 (!ok) else w))
    ∧ (let l := s.pkgId * 2 ^ 33 + line % 2 ^ 33
      s.mem.wf = true → s.pkgReg 0x137 = src → src ≠ 0xFFF → paStack (l * 128) ≤ 11 → Gives (.checkpointStreamReceive src line d p) s (fun t =>
        t.mem.dram l = d ∧ t.mem.sideOf l = { poison := p } ∧ t.clusters = s.clusters ∧ t.ctl = s.ctl
        ∧ ∀ k, k ≠ l → t.mem.dram k = s.mem.dram k ∧ t.mem.sideOf k = s.mem.sideOf k))
    ∧ (rasNames v = true →
      let w := rasPlain v
      let errs := fun (l : List Nat) => ({ s with out := { s.out with errs := s.out.errs.put w.toNat l } } : State)
      (∀ a b, s.out.errs.find? w.toNat = some [a, b] →
        (s.ns ≤ a + s.pkgReg 0x11D * 10 ^ 9 → exec (.correctedError v) s = .next ((errs [b, s.ns]).classify w))
        ∧ (a + s.pkgReg 0x11D * 10 ^ 9 < s.ns → exec (.correctedError v) s = .next (errs [b, s.ns])))
      ∧ (∀ a, s.out.errs.find? w.toNat = some [a] → exec (.correctedError v) s = .next (errs [a, s.ns]))
      ∧ (s.out.errs.find? w.toNat = none → exec (.correctedError v) s = .next (errs [s.ns]))
      ∧ exec (.fenceRequest v) s = .next ((s.setCtl 0 0x134 v).classify v)
      ∧ Gives (.uncorrectableError line v) s (fun t => ∃ u, t = u.correctedError v ∧ u = s.updMem (fun m => m.setSide line { poison := true })
          ∧ u.mem.sideOf line = { poison := true }))
    ∧ (rasNames v = false → exec (.correctedError v) s = .next s ∧ exec (.fenceRequest v) s = .next (s.setCtl 0 0x134 v)
      ∧ exec (.uncorrectableError line v) s = .next (s.updMem (fun m => m.setSide line { poison := true })))
    ∧ (rasNames v = true → s.fenced v = false →
      let t := s.classify v
      (rasKind v = 2 ∨ rasKind v = 5 → t.fenced v = true ∧ t.ctlOf 0 0x133 = v ∧ t.clusters = s.clusters ∧ t.mem = s.mem)
      ∧ (rasKind v = 1 → t.ctlOf 0 0x133 = v ∧ t.clusters = s.clusters ∧ t.mem = s.mem
        ∧ ((s.cl (rasNum v)).blocks = [] → t.clPresent (rasNum v) = false)
        ∧ ((s.cl (rasNum v)).blocks ≠ [] → t.clPresent (rasNum v) = s.clPresent (rasNum v) ∧ t.fencing 1 (rasNum v) = true))
      ∧ (rasKind v = 4 →
        ((∃ q ∈ s.out.tlain, q.port = rasNum v) → t.fencing 4 (rasNum v) = true ∧ t.ctlOf 0 0x12B = s.ctlOf 0 0x12B
          ∧ t.ctlOf 0 0x133 = v ∧ t.clusters = s.clusters ∧ t.mem = s.mem)
        ∧ ((∀ q ∈ s.out.tlain, q.port ≠ rasNum v) → ∃ u : State, (u.ctlOf 0 0x12B).getLsbD (28 + rasNum v) = false
          ∧ u.fencing 4 (rasNum v) = false ∧ u.mem = s.mem ∧ u.clusters = s.clusters
          ∧ t = ((((u.clearRoutes (rasNum v)).setCtl 0 0x133 v).fenceLog v).sendMsi
            ((((u.clearRoutes (rasNum v)).setCtl 0 0x133 v).fenceLog v).ctlOf 0 0x132))))
      ∧ (rasKind v = 6 → t = (((s.disableWay (rasNum v)).setCtl 0 0x133 v).fenceLog v).sendMsi
          (((s.disableWay (rasNum v)).setCtl 0 0x133 v).ctlOf 0 0x132)
        ∧ (s.disableWay (rasNum v)).out.ways = rasNum v :: (s.emptyWay (rasNum v)).out.ways))

/-- R288, R347 to R352: a request of an attached function through a port that is present goes by its binding entry: without
one, or without the right it needs, it ends with Unsupported Request; a read is answered with the bytes of its address,
and a write enters them and ends its sequence (log 39); a translation request is answered with the frame and its rights, and held; a page request says
whether the walk succeeded. A write of an identity to an interrupt page of a present hart raises it. A request to another
package that has waited CTL_TLTIMEOUT nanoseconds is dropped, which may end a fence of its port, a link takes the width (of its port's share of sixteen lanes) and
speed that both ends support, and a replay is counted. (What a link's partner supports is free, and link k of port p is named p +
8k: log 22; the answers' form: log 70.) -/
def Obligations.OutsideRequests : Prop :=
  ∀ (s : State) (port rid n : Nat) (addr : W64) (bytes : List Byte) (write : Bool),
    let asks : List Instr := [.dmaRead port rid addr n, .dmaWrite port rid addr bytes, .atsTranslationRequest port rid addr write,
      .pageRequest port rid addr write]
    let acc := if write then Access.write else .read
    (s.portPresent port = true → rid < 65536 →
      (∀ u, s.binding port rid = (u, none) → ∀ i ∈ asks, exec i s = .next u.unsupported)
      ∧ (∀ u asp ats pri, s.binding port rid = (u, some (asp, ats, pri)) →
        (∀ t b p, State.busRead (n / 128 + 3) u .device (busXlate asp) .read addr n = (t, .ok (b, p)) →
          exec (.dmaRead port rid addr n) s = .next (t.tell (2 :: (if p then 1 else 0) :: b)))
        ∧ (∀ t v a k, State.busRead (n / 128 + 3) u .device (busXlate asp) .read addr n = (t, .fail v a k) → k ≠ 6 →
          exec (.dmaRead port rid addr n) s = .next t.unsupported)
        ∧ (∀ t w, u.busWrite .device (busXlate asp) addr bytes = (t, .ok w) → exec (.dmaWrite port rid addr bytes) s = .next t.mergeEnd)
        ∧ (∀ t v a k, u.busWrite .device (busXlate asp) addr bytes = (t, .fail v a k) → k ≠ 6 →
          exec (.dmaWrite port rid addr bytes) s = .next t.unsupported)
        ∧ (ats = false → exec (.atsTranslationRequest port rid addr write) s = .next u.unsupported)
        ∧ (ats = true → addr.toNat < 2 ^ 51 → ∀ w t, u.walkNow asp addr acc none = (w, .ok t) →
          exec (.atsTranslationRequest port rid addr write) s = .next (({ w with xl := { w.xl with ats := w.xl.ats ++ [(port * 65536 + rid, t)] } } : State).tell
              (4 :: (if t.r then 1 else 0) :: (if t.w && write then 1 else 0) :: leBytes 8 (t.addr addr))))
        ∧ (ats = true → addr.toNat < 2 ^ 51 → ∀ w k, u.walkNow asp addr acc none = (w, .fail k) →
          exec (.atsTranslationRequest port rid addr write) s = .next (w.tell (4 :: 0 :: 0 :: leBytes 8 0)))
        ∧ (pri = false → exec (.pageRequest port rid addr write) s = .next u.unsupported)
        ∧ (pri = true → addr.toNat < 2 ^ 51 → ∀ w, (∀ t, u.walkNow asp addr acc none = (w, .ok t) →
            exec (.pageRequest port rid addr write) s = .next (w.tell [5, 0]))
          ∧ (∀ k, u.walkNow asp addr acc none = (w, .fail k) → exec (.pageRequest port rid addr write) s = .next (w.tell [5, 1])))))
    ∧ (s.portPresent port = true → ∀ k, k < s.splitOf port → Gives (.linkTraining (port + 8 * k) n rid) s (fun t =>
        t.out.links.find? (4 * port + k) = some { width := min n (16 / s.splitOf port), gts := min rid 128
                                                  flit := min rid 128 = 128 || Config.flitMode s.ticks (port + 8 * k) }
        ∧ t.mem = s.mem ∧ t.clusters = s.clusters))
    ∧ (port < 8 → s.portPresent port = false → exec (.linkTraining port n rid) s = .next s)
    ∧ (port < 8 → (s.ctlOf 0 0x12B).getLsbD (28 + port) = true → Gives (.flitReplay port) s (fun t =>
        t.out.replays.get port 0 = s.out.replays.get port 0 + 1 ∧ t.mem = s.mem ∧ t.clusters = s.clusters))
    ∧ (∀ x, s.out.tlain[n]? = some x →
      (x.since + s.pkgReg 0x13A ≤ s.ns → exec (.tlainTimeout n) s
        = .next ((State.tlainDrop { s with out := { s.out with tlain := s.out.tlain.eraseIdx n } }).fencePort x.port))
      ∧ (s.ns < x.since + s.pkgReg 0x13A → exec (.tlainTimeout n) s = .next s))
    ∧ (∀ (h f : Nat) (v : W32), s.hartPresent h = true → h < 72 → f < 64 → 1 ≤ v.toNat → v.toNat ≤ 2047 →
        Gives (.msiWrite h f v) s (fun t => h * 2 ^ 18 + f * 2 ^ 12 + v.toNat ∈ t.out.msis ∧ t.mem = s.mem ∧ t.clusters = s.clusters))

/-! ### Power and boot -/

/-- R353 to R355, R358, R360: power-on, power-off and reset leave the state of reset; a freeze stops the package; BOOTCTL 1
verifies the staged image while the root of trust serves the window: an image that passes runs, with BOOTSTAT 4, and another
leaves BOOTSTAT 5 with its code; BOOTCTL 2 empties the staging buffer; each SPDM request is answered with its code. Before
boot, in a freeze and without power no memory, cluster, queue, engine or register changes but by power-on, reset and boot.
Memory is zero after RESET and POWER_ON, and boot is one step after which the units run (log 1, 72, 73). -/
def Obligations.PowerAndBoot : Prop :=
  ∀ (s : State) (k : Nat) (r : List Byte),
    let fresh := fun (p : Power) => ({ State.reset with power := p, ticks := s.ticks, agenda := s.agenda } : State)
    let measure := Config.shake512 (s.boot.image.take 1808 ++ s.boot.image.drop 3088)
    let code := bootCode s.boot.len.toNat s.ticks s.boot.image
    let answers := fun (i : Instr) (c : Nat) (data : List Byte) => Gives i s (fun t =>
      t.out.spdm = (Config.spdmAnswer c s.ticks ++ data) :: s.out.spdm ∧ t.mem = s.mem ∧ t.clusters = s.clusters)
    (s.power = .off → exec .powerOn s = .next (fresh .running)) ∧ exec .powerOff s = .next (fresh .off)
    ∧ (s.power ≠ .off → exec .reset s = .next (fresh .running))
    ∧ (s.power = .running → exec .freeze s = .next { s with power := .frozen })
    ∧ (s.boot.stat = 0 ∨ s.boot.stat = 5 →
      (code = 0 → Gives .bootVerifyStart s (fun t => t.boot.stat = 4 ∧ t.boot.code = 0 ∧ t.boot.measure = measure
        ∧ t.clusters = s.clusters
        ∧ ∀ x, (imgSections s.boot.image).find? (fun x => x.kind = 5) = some x →
          t.ctlOf 0 0x100 = BitVec.ofNat 64 (leNat (x.bytes s.boot.image))))
      ∧ (code ≠ 0 → Gives .bootVerifyStart s (fun t => t.boot.stat = 5 ∧ t.boot.code = code
        ∧ t.boot.measure = (if code = 4 then measure else s.boot.measure) ∧ t.mem = s.mem ∧ t.ctl = s.ctl ∧ t.clusters = s.clusters))
      ∧ exec .bootDiscard s = .next { s with boot := { s.boot with stage := [], len := 0, stat := 0, code := 0 } })
    ∧ answers (.getVersion r) 0x84 [] ∧ answers (.getCapabilities r) 0xE1 [] ∧ answers (.negotiateAlgorithms r) 0xE3 []
    ∧ answers (.getDigests r) 0x81 [] ∧ answers (.getCertificate r) 0x82 [] ∧ answers (.challenge r) 0x83 []
    ∧ answers (.getMeasurements k r) 0xE0 (s.measurement k)
    ∧ (s.up = false → ∀ t, step s = .next t →
      (t.mem = s.mem ∧ t.clusters = s.clusters ∧ t.work = s.work ∧ t.xl = s.xl ∧ t.eng = s.eng ∧ t.ctl = s.ctl)
      ∨ (∃ i ∈ [Instr.powerOn, .powerOff, .reset, .bootVerifyStart],
          (s.agenda.head?.getD (Config.nextTurn (s.ticks + 1))) = .op i))

/-! ### Decoding, and the step -/

/-- R72, R73, R75 to R87: in the code of every unit that executes it, the words of a well-formed operation decode to it, with
every operand at every value that its encoding admits, and so do the words of a well-formed pair. -/
def Obligations.EncodeDecodes : Prop :=
  (∀ (u : CodeUnit) (i : Instr) (o : Ops), i.ops = some o → WellFormed u i = true → decode u (encode i) = .one i o.form.bytes)
  ∧ ∀ (u : CodeUnit) (i j : Instr) (oi oj : Ops) (fi fj : Info), u.isSeq = false → i.ops = some oi → j.ops = some oj →
      oi.form = .f64 → oj.form = .f64 → WellFormed u i = true → WellFormed u j = true → info u i = some fi → info u j = some fj →
      fi.pair = true → fj.pair = true → pairOk u i j = true → decode u (encodePair i j) = .two i j

/-- R72 to R87: words that the spec writes out decode to what they stand for. -/
def Obligations.WordsDecode : Prop :=
  Decodes .lane (wordsOfNat [0x0003000A02032001]) (.iadd { bs := 3, b := 10, a := 2, d := 3 })
  ∧ Decodes .spine (wordsOfNat [0x0083004001032001]) (.iadd { m := 2, bs := 3, b := 0x40, a := 1, d := 3 })
  ∧ Decodes .lane (wordsOfNat [0x0440060504032801]) (.imad { m := 0x11, d := 3, a := 4, b := 5, c := 6 })
  ∧ Decodes .lane (wordsOfNat [0x2500040302016401]) (.ffma { m := 0x94, d := 1, a := 2, b := 3, c := 4 })
  ∧ Decodes .lane (wordsOfNat [0x002C04060401D001]) (.seqwait { ds := 2, cs := 3, d := 1, a := 4, b := 6, c := 4 })
  ∧ Decodes .lane (wordsOfNat [0x080000000100CE05]) (.barSync { sw := true, m := 0x20, a := 1 })
  ∧ Decodes .lane (wordsOfNat [0x000300050000F201]) (.trap { bs := 3, b := 5 })
  ∧ Decodes .mseq (wordsOfNat [0xE603, 0x0000001000280020]) (.mma { form := .f128, ext := 0x0000001000280020 })
  ∧ Decodes .lane (wordsOfNat [0x000000000000042A] ++ [0x20]) (.bra { form := .f96, ge := true, gp := 2, ext := 0x20 })
  ∧ decode .lane (wordsOfNat [0x8000000605042003, 0x0000000A05092201])
      = .two (.iadd { d := 4, a := 5, b := 6, ext := 0 }) (.isub { d := 9, a := 5, b := 10 })
  ∧ decode .spine (wordsOfNat [0x000100020605203D]) = .illegal 0x000100020605203D
  ∧ decode .lane [0xFFFFFFFC] = .pad 4

/-- R48, R72, R73, R78, R87, R94: a group at its issue port, of which some places can issue, runs what stands at its PC: the
decoding of the words from the translated address to the end of their granule (the bytes as they stand now: log 76). A decoded
operation runs by exec at that state, with the group and the bytes of the operation recorded, and the exclusions of YIELD on
its core ended (R113); a pair runs whole; a pad run is passed over, and what stands at the boundary runs in the same issue; a
word of no operation raises its cause, as does an address beyond 2^51 or off a word; a page without a translation makes the
group wait for a walk. With no group at a port the agenda's turn comes, or the model's own free order (log 2): a spine core's
next context, a sequencer in RUN, a command processor with its queue's next command, the agents with the next entries of their
rings, and every event run by exec. An address off a word raises MISALIGNED (log 74). -/
def Obligations.StepRunsDecoded : Prop :=
  ∀ (s : State) (c : Issuer) (r : List Issuer) (l : Nat) (ls : List Nat) (tlb : Tlb), s.up = true →
    let u := { s.tick with ports := r }
    let d := (match c.unit with | .lane => { c with group := lanesMask (l :: ls) } | _ => c : Issuer)
    let runs := fun (v : State) (e : Issuer) (found : Decoded) =>
      (∀ i n, found = .one i n → step s = exec i { v.endYields e with cur := { e with len := n } })
      ∧ (∀ i j, found = .two i j → step s = .next (State.runPair { v.endYields e with cur := { e with len := 16 } } i j))
      ∧ (∀ w, found = .reserved w → step s = exec (.reservedMajor w) { v.endYields e with cur := e })
      ∧ (∀ w, found = .illegal w → step s = .next ((v.endYields e).raise e { code := 1, lanes := e.places, info := w }))
      ∧ (∀ w, found = .illegalPair w → step s = .next ((v.endYields e).raise e { code := 2, lanes := e.places, info := w }))
    (s.ports = c :: r → u.issuers c = [] → step s = .next u)
    ∧ (s.ports = c :: r → u.issuers c = l :: ls → c.pc.toNat < 2 ^ 51 → c.pc.toNat % 4 = 0 →
      (u.tlbFind d.g (u.aspaceOf d) d.pc .fetch = some tlb →
        let found := decode d.code (u.granule d (tlb.addr d.pc))
        runs u d found
        ∧ ∀ n, found = .pad n → 0 < n ∧
          let e : Issuer := { d with pc := d.pc + BitVec.ofNat 64 n }
          let v := d.places.foldl (fun t k => t.setPc d k e.pc) u
          ∀ next, e.pc.toNat < 2 ^ 51 → u.tlbFind e.g (u.aspaceOf e) e.pc .fetch = some next →
            runs v e (decode e.code (u.granule e (next.addr e.pc))))
      ∧ (u.tlbFind d.g (u.aspaceOf d) d.pc .fetch = none → step s = .next (u.missWalk d d.places [(d.pc, .fetch, 0)])))
    ∧ (s.ports = c :: r → u.issuers c = l :: ls → c.pc.toNat < 2 ^ 51 → c.pc.toNat % 4 ≠ 0 →
        step s = .next (u.raise d { code := 7, lanes := d.places, addr := d.pc }))
    ∧ (s.ports = c :: r → u.issuers c = l :: ls → 2 ^ 51 ≤ c.pc.toNat →
        step s = .next (u.raise d { code := 9, lanes := d.places, addr := d.pc, info := 0xFFFF }))
    ∧ (∀ w, exec (.reservedMajor w) { u with cur := d } = .next (State.raise { u with cur := d } d { code := 1, lanes := d.places, info := w }))
    ∧ (s.ports = [] →
      let turn := s.tick.agenda.head?.getD (Config.nextTurn s.tick.ticks)
      let t := { s.tick with agenda := s.tick.agenda.drop 1 }
      step s = t.turn turn
      ∧ (∀ i, turn = .op i → i.isFetched = false → step s = exec i t)
      ∧ (∀ p q v i, turn = .cmd p → p < 16 → (t.ctlOf 0 0x12B).getLsbD (36 + p) = true → t.nextCmdQueue p = some q →
          t.fetchCmd p q = (v, some i) → step s = exec i v)
      ∧ (∀ g k, turn = .seq g k → let e : Issuer := { unit := if k = 0 then .mseq else .cseq, g := g, pc := (t.seqr g (k ≠ 0)).pc }
          t.stands e 0 = true → t.readyAt e 0 = true → step s = t.issueAt e)
      ∧ (∀ g k, turn = .spine g →
          (t.spineOrder g).find? (fun k => (t.spine g k).live && t.readyAt { unit := .spine, g := g, slot := k } 0) = some k →
          let v := t.updCl g (fun c => { c with spineLast := k })
          v.deliverCause g (v.spine g k).blk = none →
          step s = v.issueAt { unit := .spine, g := g, slot := k, pc := (v.spine g k).pc })
      ∧ (turn = .xl → t.xl.xlHead < t.pkgReg 0x10F → t.xl.invals.length < 64 → ∀ v b,
          t.physRead (t.pkgReg 0x10D + 32 * (t.xl.xlHead % 2 ^ t.pkgReg 0x10E)) 32 = (v, b) →
          step s = exec (decodeXl (BitVec.ofNat 256 (leNat b))) { v with xl := { v.xl with xlHead := t.xl.xlHead + 1 } })
      ∧ (turn = .pm → t.eng.pmHead < t.pkgReg 0x112 → t.eng.save = none → ∀ v b,
          t.physRead (t.pkgReg 0x110 + 64 * (t.eng.pmHead % 2 ^ t.pkgReg 0x111)) 64 = (v, b) →
          step s = exec (decodePm (BitVec.ofNat 512 (leNat b))) v))

/-! ### Reset and memory -/

/-- R51, R305, R318, R346, R352, R353, R356, R358, R359: after reset the package is powered and waits for its image with
BOOTSTAT 0; the registers that the spec gives a value have it, in every instance, and every other register is 0; the nearness of
stacks is R51's table; no unit is present, no queue is enabled, no party, block or launch exists, and no line is cached. (The
zero of what has no reset value is the model's choice: log 6; and so is that memory reads 0 with no sideband: log 1.) -/
def Obligations.ResetState : Prop :=
  let s := State.reset
  let given : List (Nat × W64) := [(0x113, 256), (0x114, 1024), (0x115, 0x1000000), (0x117, 64), (0x118, 0x1000000),
    (0x119, 256), (0x11D, 86400), (0x11F, 1), (0x12A, 0xFFFF), (0x137, 0xFFF), (0x13A, 100000), (0x147, 4096),
    (0x148, 0x40000000), (0x149, 64)]
  let near : List (List Nat × List Nat) := [([0, 1], [2, 3, 4, 5]), ([1, 2], [0, 3, 4, 5]), ([3, 4], [0, 1, 2, 5]),
    ([4, 5], [0, 1, 2, 3]), ([6, 7], [8, 9, 10, 11]), ([7, 8], [6, 9, 10, 11]), ([9, 10], [6, 7, 8, 11]),
    ([10, 11], [6, 7, 8, 9]), ([], [0, 1, 2, 3, 4, 5, 6, 7, 8, 9, 10, 11])]
  s.power = .running ∧ s.boot.stat = 0 ∧ s.boot.code = 0 ∧ s.up = false
  ∧ s.mem.wf = true ∧ s.mem.bytes = [] ∧ s.mem.cache = [] ∧ s.mem.l1 = [] ∧ s.mem.msgs = [] ∧ s.mem.txns = [] ∧ TxnsNamed s
  ∧ (∀ inst, ∀ e ∈ given, s.ctlOf inst e.1 = e.2)
  ∧ (∀ inst n, (∀ e ∈ given, e.1 ≠ n) → n < 0x120 ∨ 0x128 < n → s.ctlOf inst n = 0)
  ∧ (∀ row k, row < 9 → k < 12 → s.dist row k
      = if k ∈ (near.getD row ([], [])).1 then 0 else if k ∈ (near.getD row ([], [])).2 then 1 else 2)
  ∧ s.clustersPresent = [] ∧ (∀ h, s.hartPresent h = false) ∧ (∀ p, s.portPresent p = false)
  ∧ (∀ q, (s.queue q).stat = 0) ∧ s.work.launches = [] ∧ (∀ g k l, (s.lane g k l).live = false) ∧ (∀ g k, (s.spine g k).live = false)
  ∧ (∀ g b, (s.seqr g b).st = .idle) ∧ (∀ g, (s.cl g).blocks = []) ∧ s.xl.walks = [] ∧ s.xl.recs = []
  ∧ s.out.msis = [] ∧ s.out.tlain = [] ∧ s.eng.sills = [] ∧ s.eng.colls = []

/-- The canonical form of memory (addresses rising, no entry that reads as an unlisted one) is kept by every operation
through which the device reaches a line: reads and writes at the home and of agents, loads and stores of clusters, the
eviction and cleaning of caches, physical accesses, messages, and the zeroing of a frame. -/
def Obligations.MemoryCanonical : Prop :=
  ∀ (s : State), s.mem.wf = true → ∀ (g cls line slot pa n : Nat) (m : BitVec 128) (x : Line) (a b : Bool) (bs : List Byte)
      (k : MsgKind),
    (s.homeRead line).1.mem.wf = true ∧ (s.homeWrite line m x a b).mem.wf = true ∧ (s.msRead line).1.mem.wf = true
    ∧ (s.agentRead slot line).1.mem.wf = true ∧ (s.agentStore slot line m x).mem.wf = true
    ∧ (s.loadLine g cls line m a).1.mem.wf = true ∧ (s.storeLine g cls line m x a).mem.wf = true
    ∧ (s.flushL1 g line).mem.wf = true ∧ (s.evictAgent slot line).mem.wf = true ∧ (s.cleanPriv g line).mem.wf = true
    ∧ (s.physRead pa n).1.mem.wf = true ∧ (s.physWrite pa bs a).mem.wf = true ∧ (s.deliverKind k slot line).mem.wf = true
    ∧ (s.zeroFrame pa).mem.wf = true ∧ (s.purgeLine line).mem.wf = true

/-- Memory keeps its canonical form in every step: whatever the machine does next, an operation, a command, an event or a
turn, bytes of memory listed in rising addresses, none of them reading as an unlisted one, stay so. -/
def Obligations.StepKeepsMemory : Prop :=
  ∀ (s t : State), s.mem.wf = true → step s = .next t → t.mem.wf = true

/-! ### Single rules -/

/-- R97, R115, R143, R145 to R163: the results of the integer, shift, bit and move operations, whether they are visible at once
or pending: the register or pair D holds the value that the table valueOp words for them (R143 extends a result of 32 bits in an
s or e register). SEL writes A or B by its predicate, whose field is that of R158; PLOP3 writes the bit of its table that its three
predicates choose, with zero bits above them, and does not exist in sequencer code; IADD3 has no other form. (A uniform SEL
reads the predicate of its lowest active lane: log 76.) -/
def Obligations.SumSelectTable : Prop :=
  (∀ (s : State) (i : Instr) (o : Ops) (ls : List Nat) (u : State) (pv : PegVals), Issues s i o (fieldWrites i) ls u pv →
    Housed s s.cur → (o.sw = true → s.cur.unit = .lane → Calm s s.cur) →
    let c := s.cur
    let a := fun l ty => s.opA c o l (wideTy ty)
    let b := fun l ty => s.opB c o pv l ty (wideTy ty)
    let gives := fun (ty : Nat) (f : Nat → W64) => Gives i s (fun t => ∀ l ∈ resPlaces c o ls, (fileD c o = .s → o.d ≠ 0) →
      t.dueD c o 0 l ty = heldAs (fileD c o) ty (f l))
    let bit := fun (l : Nat) (f : BitVec 8) => if s.pred c l (f.toNat % 16) then 1 else 0
    (∀ x, valueOp i = some x → gives x.out (fun l => x.val (a l x.aty) (b l x.bty) (s.opC c o pv l x.cty (wideTy x.cty))))
    ∧ (i = .sel o → gives o.ty (fun l => if s.pred c l (o.c.toNat % 16) ^^ o.c.getLsbD 4 then a l o.ty else b l o.ty))
    ∧ (i = .plop3 o → Gives i s (fun t => ∀ l ∈ ls,
        t.pred c l (o.d.toNat % 16) = o.m.getLsbD (1 + (4 * bit l o.a + 2 * bit l o.b + bit l o.c)))))
  ∧ ∀ (u : CodeUnit) (o : Ops),
    (o.sub ≠ 0 → WellFormed u (.iadd3 o) = false)
    ∧ (32 ≤ o.c.toNat ∨ (u.isSeq = true ∧ 4 ≤ o.c.toNat % 16) → WellFormed u (.sel o) = false)
    ∧ (16 ≤ o.d.toNat ∨ 16 ≤ o.a.toNat ∨ 16 ≤ o.b.toNat ∨ 16 ≤ o.c.toNat ∨ u.isSeq = true → WellFormed u (.plop3 o) = false)
end

