-- ==== Sys2Proof/Laws/Map.lean ====
section
/-! SUPPORT. Read after write for the association lists and the bytes of memory, and the canonical form that every write
of memory keeps. -/

-- One declaration after another: a thread for each proof would need more address space than a check gives.
set_option Elab.async false

namespace Sys2Proof

theorem Map.find?_put_self {V : Type} (m : Map V) (n : Nat) (x : V) : (m.put n x).find? n = some x := by
  induction m with
  | nil => simp [Map.put, Map.find?]
  | cons e r ih =>
    obtain ⟨k, v⟩ := e
    simp only [Map.put]
    split
    · simp [Map.find?]
    · split
      · simp [Map.find?]
      · rw [Map.find?, if_neg (by omega)]; exact ih

theorem Map.find?_put_ne {V : Type} (m : Map V) (n k : Nat) (x : V) (h : k ≠ n) : (m.put n x).find? k = m.find? k := by
  induction m with
  | nil => simp [Map.put, Map.find?, Ne.symm h]
  | cons e r ih =>
    obtain ⟨j, v⟩ := e
    simp only [Map.put]
    split
    · simp [Map.find?, Ne.symm h]
    · split
      · subst_vars; simp [Map.find?, Ne.symm h]
      · simp [Map.find?, ih]

@[simp] theorem Map.get_put_self {V : Type} (m : Map V) (n : Nat) (x d : V) : (m.put n x).get n d = x := by
  simp [Map.get, Map.find?_put_self]

theorem Map.get_put_ne {V : Type} (m : Map V) (n k : Nat) (x d : V) (h : k ≠ n) : (m.put n x).get k d = m.get k d := by
  simp [Map.get, Map.find?_put_ne m n k x h]

theorem Map.get_put {V : Type} (m : Map V) (n k : Nat) (x d : V) :
    (m.put n x).get k d = if k = n then x else m.get k d := by
  split
  · subst_vars; simp
  · exact Map.get_put_ne m n k x d ‹_›

@[simp] theorem Map.get_nil {V : Type} (n : Nat) (d : V) : Map.get ([] : Map V) n d = d := rfl

@[simp] theorem Map.get_upd_self {V : Type} (m : Map V) (n : Nat) (d : V) (f : V → V) :
    (m.upd n d f).get n d = f (m.get n d) := by simp [Map.upd]

theorem Map.get_upd_ne {V : Type} (m : Map V) (n k : Nat) (d e : V) (f : V → V) (h : k ≠ n) :
    (m.upd n d f).get k e = m.get k e := by simp [Map.upd, Map.get_put_ne _ _ _ _ _ h]

theorem Map.find?_del_ne {V : Type} (m : Map V) (n k : Nat) (h : k ≠ n) : (m.del n).find? k = m.find? k := by
  induction m with
  | nil => rfl
  | cons e r ih =>
    obtain ⟨j, v⟩ := e
    by_cases hj : j = n
    · subst hj
      rw [show Map.del ((j, v) :: r) j = Map.del r j by simp [Map.del], ih, Map.find?, if_neg (Ne.symm h)]
    · rw [show Map.del ((j, v) :: r) n = (j, v) :: Map.del r n by simp [Map.del, hj], Map.find?, Map.find?, ih]

/-- A deleted key has no entry. -/
theorem Map.find?_del_self {V : Type} (m : Map V) (n : Nat) : (m.del n).find? n = none := by
  induction m with
  | nil => rfl
  | cons e r ih =>
    obtain ⟨j, v⟩ := e
    by_cases hj : j = n
    · rw [show Map.del ((j, v) :: r) n = Map.del r n by simp [Map.del, hj]]; exact ih
    · rw [show Map.del ((j, v) :: r) n = (j, v) :: Map.del r n by simp [Map.del, hj], Map.find?, if_neg hj]; exact ih

namespace Machine

/-! ### Bytes -/

theorem Bytes.get_below {m : Bytes} {b a : Nat} (h : Bytes.wfFrom m b = true) (ha : a < b) : m.get a = emptyByte := by
  induction m generalizing b with
  | nil => rfl
  | cons e r ih =>
    obtain ⟨k, v⟩ := e
    simp only [Bytes.wfFrom, Bool.and_eq_true, decide_eq_true_eq] at h
    rw [Bytes.get, if_neg (by omega)]
    exact ih h.2 (by omega)

theorem Bytes.wfFrom_mono {m : Bytes} {b c : Nat} (h : Bytes.wfFrom m b = true) (hc : c ≤ b) : Bytes.wfFrom m c = true := by
  cases m with
  | nil => rfl
  | cons e r =>
    obtain ⟨k, v⟩ := e
    simp only [Bytes.wfFrom, Bool.and_eq_true, decide_eq_true_eq] at h ⊢
    exact ⟨⟨by omega, h.1.2⟩, h.2⟩

/-- A write keeps the canonical form from any bound at or below its address. -/
theorem Bytes.wfFrom_put {m : Bytes} {b : Nat} (h : Bytes.wfFrom m b = true) (a : Nat) (x : Byte) (ha : b ≤ a) :
    Bytes.wfFrom (m.put a x) b = true := by
  induction m generalizing b with
  | nil =>
    simp only [Bytes.put]
    split
    · rfl
    · simp [Bytes.wfFrom, *]
  | cons e r ih =>
    obtain ⟨k, v⟩ := e
    simp only [Bytes.wfFrom, Bool.and_eq_true, decide_eq_true_eq] at h
    obtain ⟨⟨h1, h2⟩, h3⟩ := h
    simp only [Bytes.put]
    split
    · split
      · simp [Bytes.wfFrom, *]
      · simp [Bytes.wfFrom, *] <;> omega
    · split
      · subst_vars
        split
        · exact Bytes.wfFrom_mono h3 (by omega)
        · simp [Bytes.wfFrom, *]
      · simp only [Bytes.wfFrom, Bool.and_eq_true, decide_eq_true_eq]
        exact ⟨⟨h1, h2⟩, ih h3 (by omega)⟩

theorem Bytes.wfFrom_putAll {m : Bytes} (h : Bytes.wfFrom m 0 = true) (a : Nat) (l : List Byte) :
    Bytes.wfFrom (m.putAll a l) 0 = true := by
  induction l generalizing m a with
  | nil => exact h
  | cons b r ih => exact ih (Bytes.wfFrom_put h a b (by omega)) (a + 1)

/-- A byte written reads back, in canonical memory. -/
theorem Bytes.get_put_self {m : Bytes} {b : Nat} (h : Bytes.wfFrom m b = true) (a : Nat) (x : Byte) :
    (m.put a x).get a = x := by
  induction m generalizing b with
  | nil => simp only [Bytes.put]; split <;> simp [Bytes.get, *]
  | cons e r ih =>
    obtain ⟨k, v⟩ := e
    simp only [Bytes.wfFrom, Bool.and_eq_true, decide_eq_true_eq] at h
    obtain ⟨⟨h1, h2⟩, h3⟩ := h
    simp only [Bytes.put]
    split
    · split
      · rw [Bytes.get, if_neg (by omega), Bytes.get_below h3 (by omega)]; simp [*]
      · simp [Bytes.get]
    · split
      · subst_vars
        split
        · rw [Bytes.get_below h3 (by omega)]; simp [*]
        · simp [Bytes.get]
      · rw [Bytes.get, if_neg (by omega)]; exact ih h3

/-- A write leaves every other byte alone. -/
theorem Bytes.get_put_ne (m : Bytes) (a k : Nat) (x : Byte) (h : k ≠ a) : (m.put a x).get k = m.get k := by
  induction m with
  | nil => simp only [Bytes.put]; split <;> simp [Bytes.get, Ne.symm h]
  | cons e r ih =>
    obtain ⟨j, v⟩ := e
    simp only [Bytes.put]
    split
    · split <;> simp [Bytes.get, Ne.symm h]
    · split
      · subst_vars
        split <;> simp [Bytes.get, Ne.symm h]
      · simp [Bytes.get, ih]

theorem Bytes.get_putAll_out (m : Bytes) (a k : Nat) (l : List Byte) (h : k < a ∨ a + l.length ≤ k) :
    (m.putAll a l).get k = m.get k := by
  induction l generalizing m a with
  | nil => rfl
  | cons b r ih =>
    simp only [List.length_cons] at h
    rw [Bytes.putAll, ih (m.put a b) (a + 1) (by omega), Bytes.get_put_ne _ _ _ _ (by omega)]

theorem Bytes.get_putAll_in {m : Bytes} (h : Bytes.wfFrom m 0 = true) (a j : Nat) (l : List Byte) (hj : j < l.length) :
    (m.putAll a l).get (a + j) = l.getD j 0 := by
  induction l generalizing m a j with
  | nil => simp at hj
  | cons b r ih =>
    rw [Bytes.putAll]
    cases j with
    | zero => rw [Bytes.get_putAll_out _ _ _ _ (by omega)]; simpa using Bytes.get_put_self h a b
    | succ j =>
      have := ih (Bytes.wfFrom_put h a b (by omega)) (a + 1) j (by simpa using hj)
      rw [show a + (j + 1) = a + 1 + j by omega, this]; simp

/-! ### The canonical form of memory -/

@[simp] theorem Memory.wf_reset : Memory.wf State.reset.mem = true := rfl

theorem Memory.wf_setDram {m : Memory} (h : m.wf = true) (line : Nat) (x : Line) : (m.setDram line x).wf = true := by
  simp only [Memory.wf, Memory.setDram] at h ⊢
  generalize lineBytes x 0 128 = l
  exact Bytes.wfFrom_putAll h (line * 128) l

@[simp] theorem Memory.wf_setSide (m : Memory) (line : Nat) (x : Side) : (m.setSide line x).wf = m.wf := rfl
@[simp] theorem Memory.wf_setCline (m : Memory) (slot line : Nat) (x : CLine) : (m.setCline slot line x).wf = m.wf := rfl
@[simp] theorem Memory.wf_dropCline (m : Memory) (slot line : Nat) : (m.dropCline slot line).wf = m.wf := rfl
@[simp] theorem Memory.wf_clearResv (m : Memory) (line : Nat) : (m.clearResv line).wf = m.wf := rfl
@[simp] theorem Memory.wf_setL1 (m : Memory) (g line : Nat) (x : L1Line) : (m.setL1 g line x).wf = m.wf := rfl
@[simp] theorem Memory.wf_dropL1 (m : Memory) (g line : Nat) : (m.dropL1 g line).wf = m.wf := rfl

end Machine
end Sys2Proof
end

