-- ==== Sys2Proof/Laws/Coherence.lean ====
section
/-! SUPPORT. What an access to one line leaves alone: every party, and every other line. -/

-- One declaration after another: a thread for each proof would need more address space than a check gives.
set_option Elab.async false

namespace Sys2Proof.Machine

theorem MemoryOnly.refl (s : State) : MemoryOnly s s := ⟨rfl, rfl, rfl, rfl⟩

theorem MemoryOnly.trans {s t u : State} (a : MemoryOnly s t) (b : MemoryOnly t u) : MemoryOnly s u :=
  ⟨b.clusters.trans a.clusters, b.xl.trans a.xl, b.work.trans a.work, b.package.trans a.package⟩

/-- A change of memory is no other change. -/
theorem memoryOnly_updMem (s : State) (f : Memory → Memory) : MemoryOnly s (s.updMem f) := ⟨rfl, rfl, rfl, rfl⟩

theorem SameLine.refl (s : State) (k : Nat) : SameLine s s k := ⟨rfl, rfl, fun _ => rfl, fun _ => rfl, fun _ => rfl⟩

theorem SameLine.trans {s t u : State} {k : Nat} (a : SameLine s t k) (b : SameLine t u k) : SameLine s u k :=
  ⟨b.dram.trans a.dram, b.side.trans a.side, fun x => (b.agents x).trans (a.agents x),
    fun x => (b.buffers x).trans (a.buffers x), fun x => (b.l1s x).trans (a.l1s x)⟩

/-- Only one line has changed, and no party; the homes' requests still name their lines. -/
structure OnLine (line : Nat) (s t : State) : Prop where
  only : MemoryOnly s t
  named : TxnsNamed s → TxnsNamed t
  others : ∀ k, k < 2 ^ 45 → k ≠ line → SameLine s t k

theorem OnLine.refl (line : Nat) (s : State) : OnLine line s s := ⟨.refl s, id, fun k _ _ => .refl s k⟩

theorem OnLine.trans {line : Nat} {s t u : State} (a : OnLine line s t) (b : OnLine line t u) : OnLine line s u :=
  ⟨a.only.trans b.only, fun h => b.named (a.named h), fun k x y => (a.others k x y).trans (b.others k x y)⟩

/-- Keys of different lines differ. -/
theorem agKey_ne {a b line k : Nat} (hl : line < 2 ^ 45) (hk : k < 2 ^ 45) (h : k ≠ line) : agKey b k ≠ agKey a line := by
  unfold agKey; omega

/-- A change of memory that keeps every request and every other line. -/
theorem onLine_updMem {line : Nat} (s : State) (f : Memory → Memory) (ht : (f s.mem).txns = s.mem.txns)
    (h : ∀ k, k < 2 ^ 45 → k ≠ line → SameLine s (s.updMem f) k) : OnLine line s (s.updMem f) :=
  ⟨memoryOnly_updMem s f, fun n e m => n e (by rw [← ht]; exact m), h⟩

/-- A change of memory that keeps data, sidebands and copies altogether. -/
theorem onLine_updMem_rest {line : Nat} (s : State) (f : Memory → Memory) (ht : (f s.mem).txns = s.mem.txns)
    (hb : (f s.mem).bytes = s.mem.bytes) (hs : (f s.mem).side = s.mem.side) (hc : (f s.mem).cache = s.mem.cache)
    (hw : (f s.mem).wb = s.mem.wb) (hl : (f s.mem).l1 = s.mem.l1) : OnLine line s (s.updMem f) :=
  onLine_updMem s f ht (fun k _ _ => by
    refine ⟨?_, ?_, fun x => ?_, fun x => ?_, fun x => ?_⟩ <;>
      simp only [State.updMem, Memory.dram, Memory.sideOf, Memory.cline, Memory.l1Line, hb, hs, hc, hw, hl])

/-- A change that is not of memory, clusters or the package. -/
theorem OnLine.of_mem {line : Nat} {s t : State} (hm : t.mem = s.mem) (h : MemoryOnly s t) : OnLine line s t :=
  ⟨h, fun n e m => n e (by rw [← hm]; exact m), fun k _ _ => by
    refine ⟨?_, ?_, fun x => ?_, fun x => ?_, fun x => ?_⟩ <;> rw [hm]⟩

theorem Bytes.getAll_congr {m n : Bytes} {a : Nat} {k : Nat} (h : ∀ j, j < k → m.get (a + j) = n.get (a + j)) :
    m.getAll a k = n.getAll a k := by
  induction k generalizing a with
  | zero => rfl
  | succ k ih =>
    have h0 := h 0 (by omega)
    have ht : Bytes.getAll m (a + 1) k = Bytes.getAll n (a + 1) k := ih (fun j hj => by
      have := h (j + 1) (by omega)
      rwa [show a + (j + 1) = a + 1 + j by omega] at this)
    simp only [Bytes.getAll]
    rw [ht]; simpa using h0

/-- Writing a line leaves the bytes of another. -/
theorem dram_setDram_ne (m : Memory) {line k : Nat} (x : Line) (h : k ≠ line) : (m.setDram line x).dram k = m.dram k := by
  unfold Memory.dram Memory.setDram
  simp only
  rw [Bytes.getAll_congr (n := m.bytes)]
  intro j hj
  apply Bytes.get_putAll_out
  have : (lineBytes x 0 128).length = 128 := by simp [lineBytes]
  rw [this]
  omega

theorem sideOf_setSide_ne (m : Memory) {line k : Nat} (x : Side) (h : k ≠ line) : (m.setSide line x).sideOf k = m.sideOf k := by
  have e : (m.setSide line x).side = if x = {} then m.side.del line else m.side.put line x := rfl
  unfold Memory.sideOf Map.get
  rw [e]
  by_cases hx : x = {}
  · rw [if_pos hx, Map.find?_del_ne _ _ _ h]
  · rw [if_neg hx, Map.find?_put_ne _ _ _ _ h]

/-- A change of memory, part by part. -/
theorem onLine_parts {line : Nat} (s : State) (f : Memory → Memory) (ht : (f s.mem).txns = s.mem.txns)
    (hb : ∀ k, k ≠ line → (f s.mem).dram k = s.mem.dram k) (hs : ∀ k, k ≠ line → (f s.mem).sideOf k = s.mem.sideOf k)
    (hc : ∀ k a, k < 2 ^ 45 → k ≠ line → (f s.mem).cache.find? (agKey a k) = s.mem.cache.find? (agKey a k))
    (hw : (f s.mem).wb = s.mem.wb)
    (hl : ∀ k a, k < 2 ^ 45 → k ≠ line → (f s.mem).l1.find? (agKey a k) = s.mem.l1.find? (agKey a k)) :
    OnLine line s (s.updMem f) :=
  onLine_updMem s f ht (fun k x h => ⟨hb k h, hs k h, fun a => hc k a x h, fun a => by rw [show (s.updMem f).mem.wb = _ from hw],
    fun a => hl k a x h⟩)

theorem dram_eq {m n : Memory} (h : m.bytes = n.bytes) (k : Nat) : m.dram k = n.dram k := by unfold Memory.dram; rw [h]
theorem sideOf_eq {m n : Memory} (h : m.side = n.side) (k : Nat) : m.sideOf k = n.sideOf k := by unfold Memory.sideOf; rw [h]

theorem onLine_setSide {line : Nat} (s : State) (f : Memory → Side) :
    OnLine line s (s.updMem (fun m => m.setSide line (f m))) :=
  onLine_parts s _ rfl (fun k _ => dram_eq rfl k) (fun _ h => sideOf_setSide_ne _ _ h) (fun _ _ _ _ => rfl) rfl (fun _ _ _ _ => rfl)

theorem setDram_rest (m : Memory) (line : Nat) (x : Line) : (m.setDram line x).txns = m.txns ∧ (m.setDram line x).side = m.side
    ∧ (m.setDram line x).cache = m.cache ∧ (m.setDram line x).wb = m.wb ∧ (m.setDram line x).l1 = m.l1 := by
  unfold Memory.setDram; exact ⟨rfl, rfl, rfl, rfl, rfl⟩

theorem onLine_setDram {line : Nat} (s : State) (f : Memory → Line) :
    OnLine line s (s.updMem (fun m => m.setDram line (f m))) := by
  obtain ⟨a, b, c, d, e⟩ := setDram_rest s.mem line (f s.mem)
  exact onLine_parts s _ a (fun _ h => dram_setDram_ne _ _ h) (fun k _ => sideOf_eq b k) (fun _ _ _ _ => by simp only [c]) d
    (fun _ _ _ _ => by simp only [e])

theorem onLine_setCline {line : Nat} (hl : line < 2 ^ 45) (s : State) (slot : Nat) (f : Memory → CLine) :
    OnLine line s (s.updMem (fun m => m.setCline slot line (f m))) :=
  onLine_parts s _ rfl (fun k _ => dram_eq rfl k) (fun k _ => sideOf_eq rfl k)
    (fun _ _ hk h => Map.find?_put_ne _ _ _ _ (agKey_ne hl hk h)) rfl (fun _ _ _ _ => rfl)

theorem onLine_dropCline {line : Nat} (hl : line < 2 ^ 45) (s : State) (slot : Nat) :
    OnLine line s (s.updMem (fun m => m.dropCline slot line)) :=
  onLine_parts s _ rfl (fun k _ => dram_eq rfl k) (fun k _ => sideOf_eq rfl k)
    (fun _ _ hk h => Map.find?_del_ne _ _ _ (agKey_ne hl hk h)) rfl (fun _ _ _ _ => rfl)

theorem onLine_loseCline {line : Nat} (hl : line < 2 ^ 45) (s : State) (slot : Nat) :
    OnLine line s (s.updMem (fun m => m.loseCline slot line)) :=
  onLine_parts s _ rfl (fun k _ => dram_eq rfl k) (fun k _ => sideOf_eq rfl k)
    (fun _ _ hk h => Map.find?_del_ne _ _ _ (agKey_ne hl hk h)) rfl (fun _ _ _ _ => rfl)

theorem onLine_setL1 {line : Nat} (hl : line < 2 ^ 45) (s : State) (g : Nat) (f : Memory → L1Line) :
    OnLine line s (s.updMem (fun m => m.setL1 g line (f m))) :=
  onLine_parts s _ rfl (fun k _ => dram_eq rfl k) (fun k _ => sideOf_eq rfl k) (fun _ _ _ _ => rfl) rfl
    (fun _ _ hk h => Map.find?_put_ne _ _ _ _ (agKey_ne hl hk h))

theorem onLine_dropL1 {line : Nat} (hl : line < 2 ^ 45) (s : State) (g : Nat) :
    OnLine line s (s.updMem (fun m => m.dropL1 g line)) :=
  onLine_parts s _ rfl (fun k _ => dram_eq rfl k) (fun k _ => sideOf_eq rfl k) (fun _ _ _ _ => rfl) rfl
    (fun _ _ hk h => Map.find?_del_ne _ _ _ (agKey_ne hl hk h))

theorem onLine_clearResv {line k : Nat} (s : State) : OnLine line s (s.updMem (fun m => m.clearResv k)) :=
  onLine_updMem_rest s _ rfl rfl rfl rfl rfl rfl

theorem onLine_loseResv {line k a : Nat} (s : State) : OnLine line s (s.updMem (fun m => m.loseResv a k)) :=
  onLine_updMem_rest s _ rfl rfl rfl rfl rfl rfl

theorem onLine_othersResv {line k a : Nat} (s : State) : OnLine line s (s.updMem (fun m => m.othersResv a k)) :=
  onLine_updMem_rest s _ rfl rfl rfl rfl rfl rfl

theorem onLine_send {line : Nat} (s : State) (m : Msg) : OnLine line s (s.send m) :=
  onLine_updMem_rest s _ rfl rfl rfl rfl rfl rfl

theorem onLine_setMsgs {line : Nat} (s : State) (r : List Msg) : OnLine line s { s with mem := { s.mem with msgs := r } } :=
  onLine_updMem_rest s (fun m => { m with msgs := r }) rfl rfl rfl rfl rfl rfl

theorem onLine_putSide {line : Nat} (s : State) (d : Side) : OnLine line s (s.putSide line d) := onLine_setSide s (fun _ => d.norm)

theorem onLine_putSideFor {line : Nat} (s : State) (b : Nat) (d : Side) : OnLine line s (s.putSideFor b line d) :=
  onLine_setSide s (fun _ => s.modeFor d b)

theorem setSide_rest (m : Memory) (line : Nat) (x : Side) : (m.setSide line x).txns = m.txns ∧ (m.setSide line x).bytes = m.bytes
    ∧ (m.setSide line x).cache = m.cache ∧ (m.setSide line x).wb = m.wb ∧ (m.setSide line x).l1 = m.l1 := by
  unfold Memory.setSide; exact ⟨rfl, rfl, rfl, rfl, rfl⟩

theorem onLine_putHome {line : Nat} (s : State) (x : Line) (p : Bool) : OnLine line s (s.putHome line x p) := by
  unfold State.putHome
  obtain ⟨a, b, c, e, f⟩ := setDram_rest s.mem line x
  obtain ⟨a', b', c', e', f'⟩ := setSide_rest (s.mem.setDram line x) line { s.mem.sideOf line with poison := p }
  refine onLine_parts s _ (a'.trans a) (fun k h => (dram_eq b' k).trans (dram_setDram_ne _ _ h))
    (fun k h => (sideOf_setSide_ne _ _ h).trans (sideOf_eq b k)) (fun _ _ _ _ => ?_) (e'.trans e) (fun _ _ _ _ => ?_)
  · simp only [c', c]
  · simp only [f', f]

theorem onLine_sillTouch {line : Nat} (s : State) (l a : Nat) : OnLine line s (s.sillTouch l a) := by
  apply OnLine.of_mem
  · unfold State.sillTouch; simp only; split <;> (try split) <;> rfl
  · unfold State.sillTouch; simp only; split <;> (try split) <;> exact ⟨rfl, rfl, rfl, rfl⟩

theorem onLine_counterWatch {line : Nat} (s : State) (l : Nat) (m : BitVec 128) : OnLine line s (s.counterWatch l m) := by
  apply OnLine.of_mem
  · unfold State.counterWatch; simp only; split <;> rfl
  · unfold State.counterWatch; simp only; split <;> exact ⟨rfl, rfl, rfl, rfl⟩

theorem Map.mem_put {V : Type} {m : Map V} {n : Nat} {x : V} {e : Nat × V} (h : e ∈ m.put n x) : e = (n, x) ∨ e ∈ m := by
  induction m with
  | nil => simp [Map.put] at h; exact .inl h
  | cons a r ih =>
    obtain ⟨k, v⟩ := a
    unfold Map.put at h
    split at h
    · simpa using h
    · split at h
      · simp only [List.mem_cons] at h ⊢; rcases h with h | h
        · exact .inl h
        · exact .inr (.inr h)
      · simp only [List.mem_cons] at h ⊢; rcases h with h | h
        · exact .inr (.inl h)
        · rcases ih h with h | h
          · exact .inl h
          · exact .inr (.inr h)

theorem Map.mem_del {V : Type} {m : Map V} {n : Nat} {e : Nat × V} (h : e ∈ m.del n) : e ∈ m :=
  (List.mem_filter.mp h).1

theorem Map.mem_of_find? {V : Type} {m : Map V} {n : Nat} {x : V} (h : m.find? n = some x) : (n, x) ∈ m := by
  induction m with
  | nil => simp [Map.find?] at h
  | cons a r ih =>
    obtain ⟨k, v⟩ := a
    unfold Map.find? at h
    split at h
    · cases h; subst_vars; simp
    · simp [ih h]

theorem onLine_delTxn {line : Nat} (s : State) : OnLine line s (s.updMem (fun m => { m with txns := m.txns.del line })) :=
  ⟨memoryOnly_updMem s _, fun h e m => h e (Map.mem_del m),
    fun k _ _ => ⟨dram_eq rfl k, sideOf_eq rfl k, fun _ => rfl, fun _ => rfl, fun _ => rfl⟩⟩

theorem onLine_putTxn {line : Nat} (s : State) {t : Txn} (e : t.req.line = line) :
    OnLine line s (s.updMem (fun m => { m with txns := m.txns.put line t })) :=
  ⟨memoryOnly_updMem s _, fun h x m => by
      rcases Map.mem_put m with rfl | m
      · exact e
      · exact h x m,
    fun k _ _ => ⟨dram_eq rfl k, sideOf_eq rfl k, fun _ => rfl, fun _ => rfl, fun _ => rfl⟩⟩

theorem onLine_reply {line : Nat} (s : State) (b : Nat) (x : Line) (p : Bool) (f : CacheSt) : OnLine line s (s.reply b line x p f) :=
  onLine_send s _

theorem onLine_ite {line : Nat} {s a b : State} {P : Prop} [Decidable P] (ha : OnLine line s a) (hb : OnLine line s b) :
    OnLine line s (if P then a else b) := by by_cases h : P <;> simp [h, ha, hb]

theorem State.updMem_updMem (s : State) (f g : Memory → Memory) : (s.updMem f).updMem g = s.updMem (fun m => g (f m)) := rfl

theorem onLine_mergeHome {line : Nat} (s : State) (y : Line) :
    OnLine line s (s.updMem (fun m => (m.setDram line y).clearResv line)) := by
  rw [← State.updMem_updMem s (fun m => m.setDram line y) (fun m => m.clearResv line)]
  exact (onLine_setDram s (fun _ => y)).trans (onLine_clearResv _)

/-- The end of a request at the home concerns its line. -/
theorem onLine_homeFinish {line : Nat} (s : State) (t : Txn) (e : t.req.line = line) : OnLine line s (s.homeFinish t) := by
  subst e
  have pr : ∀ (u : State) n d b x p f, OnLine t.req.line u ((u.putSideFor n t.req.line d).reply b t.req.line x p f) :=
    fun u n d b x p f => (onLine_putSideFor u n d).trans (onLine_reply _ b x p f)
  have pa : ∀ (u : State) d b, OnLine t.req.line u ((u.putSide t.req.line d).replyDone b t.req.line) :=
    fun u d b => (onLine_putSide u d).trans (onLine_send _ _)
  refine (onLine_delTxn s).trans ?_
  unfold State.homeFinish
  extract_lets line s1 b d0 d dram x p
  cases hk : t.req.kind
  all_goals simp only []
  case rdS =>
    cases hd : d.st
    all_goals simp only []
    all_goals (repeat' (first | exact pr _ _ _ _ _ _ _ | exact onLine_reply _ _ _ _ _ | apply onLine_ite))
  case rdX =>
    refine onLine_ite (onLine_reply _ _ _ _ _) ?_
    exact ((onLine_putSideFor _ _ _).trans (onLine_othersResv _)).trans (onLine_ite (onLine_send _ _) (onLine_reply _ _ _ _ _))
  case upg =>
    refine onLine_ite (onLine_reply _ _ _ _ _) ?_
    exact ((onLine_putSideFor _ _ _).trans (onLine_othersResv _)).trans (onLine_ite (onLine_send _ _) (onLine_reply _ _ _ _ _))
  case wbD => exact onLine_ite ((onLine_putHome _ _ _).trans (pa _ _ _)) (onLine_send _ _)
  case cln =>
    exact onLine_ite ((onLine_putHome _ _ _).trans (pa _ _ _)) (onLine_ite ((onLine_putHome _ _ _).trans (pa _ _ _)) (onLine_send _ _))
  case hR =>
    cases t.got with
    | none => exact OnLine.refl _ _
    | some e =>
      refine (onLine_putHome _ e.1 e.2).trans ?_
      exact onLine_ite (onLine_putSide _ _) (onLine_ite (onLine_putSide _ _) (OnLine.refl _ _))
  case hW => exact ((onLine_mergeHome _ _).trans (onLine_putSide _ _)).trans (onLine_counterWatch _ _ _)
  all_goals exact OnLine.refl _ _

theorem onLine_foldl {α : Type} {line : Nat} (f : State → α → State) (h : ∀ s a, OnLine line s (f s a)) (s : State) (l : List α) :
    OnLine line s (l.foldl f s) := by
  induction l generalizing s with
  | nil => exact OnLine.refl _ _
  | cons a r ih => exact (h s a).trans (ih _)

/-- What the sill does with an error that it finds: it changes no line's data and sideband but this one's. -/
theorem findError_cases (m : Memory) (line : Nat) : m.findError line = m ∨ m.findError line = { m with upsets := m.upsets.del line }
    ∨ m.findError line = m.setSide line { poison := true } ∨ ∃ x d, m.findError line = (m.setDram line x).setSide line d := by
  unfold Memory.findError
  cases m.upsets.find? line with
  | none => exact .inl rfl
  | some u =>
    simp only []
    generalize m.errors line u = n
    refine .inr ?_
    split
    · exact .inl rfl
    · split
      · exact .inr (.inl rfl)
      · split
        · rename_i x d _; exact .inr (.inr ⟨x, d, rfl⟩)
        · exact .inr (.inl rfl)

theorem State.updMem_congr {s : State} {f g : Memory → Memory} (h : f s.mem = g s.mem) : s.updMem f = s.updMem g :=
  congrArg (fun m => { s with mem := m }) h

/-- What the sill does with an error that it finds concerns the line. -/
theorem onLine_findError {line : Nat} (s : State) : OnLine line s (s.updMem (fun m => m.findError line)) := by
  rcases findError_cases s.mem line with h | h | h | ⟨x, d, h⟩
  · rw [State.updMem_congr (g := id) h]; exact OnLine.refl _ _
  · rw [State.updMem_congr (g := fun m => { m with upsets := m.upsets.del line }) h]
    exact onLine_updMem_rest s _ rfl rfl rfl rfl rfl rfl
  · rw [State.updMem_congr (g := fun m => m.setSide line { poison := true }) h]
    exact onLine_setSide s (fun _ => { poison := true })
  · rw [State.updMem_congr (g := fun m => (m.setDram line x).setSide line d) h,
      ← State.updMem_updMem s (fun m => m.setDram line x) (fun m => m.setSide line d)]
    exact (onLine_setDram s (fun _ => x)).trans (onLine_setSide _ (fun _ => d))

theorem onLine_homeStart (s : State) (m : Msg) : OnLine m.line s (s.homeStart m) := by
  unfold State.homeStart
  refine ((onLine_sillTouch s m.line m.slot).trans (onLine_findError _)).trans ?_
  extract_lets u d ps t
  cases ps with
  | nil => exact onLine_homeFinish _ _ rfl
  | cons a r =>
    refine (onLine_putTxn (t := t) u rfl).trans ?_
    exact onLine_foldl (fun (s : State) (e : MsgKind × Nat) => s.send { kind := e.1, line := m.line, slot := e.2, req := m.slot })
      (fun _ _ => onLine_send _ _) _ (a :: r)

theorem onLine_homeAnswer {line : Nat} (s : State) (slot : Nat) (d : Option (Line × Bool)) (hn : TxnsNamed s) :
    OnLine line s (s.homeAnswer line slot d) := by
  unfold State.homeAnswer
  cases hf : s.mem.txns.find? line with
  | none => exact OnLine.refl _ _
  | some t =>
    have e := hn (line, t) (Map.mem_of_find? hf)
    refine onLine_ite ?_ (OnLine.refl _ _)
    cases eraseOne slot t.await with
    | nil => exact onLine_homeFinish _ _ e
    | cons a r => exact onLine_putTxn _ e

theorem onLine_markOnce {line : Nat} (s : State) (slot l : Nat) : OnLine line s (s.markOnce slot l) := by
  unfold State.markOnce
  refine onLine_updMem_rest s _ ?_ ?_ ?_ ?_ ?_ ?_ <;> (split <;> rfl)

theorem onLine_answer {line : Nat} (s : State) (slot l : Nat) (k : MsgKind) (x : Line) (p : Bool) :
    OnLine line s (s.answer slot l k x p) := onLine_send _ _

theorem onLine_agentProbe {line : Nat} (hl : line < 2 ^ 45) (s : State) (k : MsgKind) (slot : Nat) :
    OnLine line s (s.agentProbe k slot line) := by
  unfold State.agentProbe
  cases s.mem.wb.find? (agKey slot line) with
  | some c =>
    cases k <;> first | exact onLine_answer _ _ _ _ _ _ | exact (onLine_loseResv _).trans (onLine_answer _ _ _ _ _ _)
  | none =>
    simp only []
    cases s.mem.cline slot line with
    | none => exact (onLine_markOnce s slot line).trans (by cases k <;> exact onLine_answer _ _ _ _ _ _)
    | some c =>
      have dr : ∀ u : State, OnLine line u (u.updMem (fun m => m.loseCline slot line)) := fun u => onLine_loseCline hl u slot
      have kp : ∀ (u : State) st d, OnLine line u (u.updMem (fun m => m.setCline slot line { c with st := st, dirty := d })) :=
        fun u st d => onLine_setCline hl u slot (fun _ => _)
      cases k <;> cases hc : c.st <;> simp only [hc] <;>
        first
        | exact onLine_answer _ _ _ _ _ _
        | exact (dr _).trans (onLine_answer _ _ _ _ _ _)
        | exact (kp _ _ _).trans (onLine_answer _ _ _ _ _ _)
        | exact ((dr _).trans (onLine_markOnce _ _ _)).trans (onLine_answer _ _ _ _ _ _)

theorem onLine_agentFill (s : State) (m : Msg) (hl : m.line < 2 ^ 45) : OnLine m.line s (s.agentFill m) := by
  unfold State.agentFill
  extract_lets key u
  have hu : OnLine m.line s u := onLine_updMem_rest s _ rfl rfl rfl rfl rfl rfl
  refine hu.trans (onLine_ite ?_ (onLine_ite (OnLine.refl _ _) ?_))
  · exact onLine_updMem_rest u _ rfl rfl rfl rfl rfl rfl
  · exact onLine_setCline hl u m.slot (fun _ => _)

theorem onLine_agentAck {line : Nat} (hl : line < 2 ^ 45) (s : State) (slot : Nat) (g : Bool) :
    OnLine line s (s.agentAck slot line g) := by
  unfold State.agentAck
  refine onLine_ite ?_ ?_
  · exact ⟨memoryOnly_updMem s _, fun h => h, fun k hk h => ⟨dram_eq rfl k, sideOf_eq rfl k, fun _ => rfl,
      fun _ => Map.find?_del_ne _ _ _ (agKey_ne hl hk h), fun _ => rfl⟩⟩
  · cases s.mem.cline slot line with
    | none => exact OnLine.refl _ _
    | some c =>
      have kp : ∀ x, OnLine line s (s.updMem (fun m => m.setCline slot line x)) := fun x => onLine_setCline hl s slot (fun _ => x)
      exact onLine_ite (onLine_ite (kp _) (OnLine.refl _ _)) (onLine_ite (kp _) (onLine_ite (kp _) (OnLine.refl _ _)))

theorem onLine_toPeer (s : State) (m : Msg) (hl : m.line < 2 ^ 45) : OnLine m.line s (s.toPeer m) :=
  onLine_ite (onLine_agentAck hl s _ _) (OnLine.refl _ _)

theorem onLine_remoteProbe {line : Nat} (s : State) (k : MsgKind) (slot : Nat) (h : TxnsNamed s) :
    OnLine line s (s.remoteProbe k slot line) := by
  unfold State.remoteProbe
  cases k <;> exact onLine_homeAnswer _ _ _ h

/-- The delivery of a message concerns its line. -/
theorem onLine_deliver (s : State) (m : Msg) (hl : m.line < 2 ^ 45) (h : TxnsNamed s) : OnLine m.line s (s.deliver m) := by
  unfold State.deliver
  refine onLine_ite (onLine_toPeer s m hl) (onLine_ite (onLine_homeStart s m) (onLine_ite (onLine_homeAnswer s _ _ h)
    (onLine_ite (onLine_ite (onLine_remoteProbe s _ _ h) (OnLine.refl _ _))
      (onLine_ite (onLine_agentProbe hl s _ _) (onLine_ite (onLine_agentFill s m hl) (onLine_agentAck hl s _ _))))))

theorem takeMsg_holds {p : Msg → Bool} {l r : List Msg} {m : Msg} (h : takeMsg p l = some (m, r)) : p m = true := by
  induction l generalizing r with
  | nil => simp [takeMsg] at h
  | cons a q ih =>
    unfold takeMsg at h
    by_cases ha : p a = true
    · rw [if_pos ha] at h; cases h; exact ha
    · rw [if_neg ha] at h
      cases hq : takeMsg p q with
      | none => simp [hq] at h
      | some e => simp [hq] at h; exact ih (r := e.2) (by rw [hq, ← h.1])

/-- The delivery of every message about a line concerns that line. -/
theorem onLine_settleFuel {line : Nat} (hl : line < 2 ^ 45) (f : Nat) (s : State) (h : TxnsNamed s) :
    OnLine line s (State.settleFuel f s line) := by
  induction f generalizing s with
  | zero => exact OnLine.refl _ _
  | succ f ih =>
    unfold State.settleFuel
    cases hm : takeMsg (s.deliverable line) s.mem.msgs with
    | none => exact OnLine.refl _ _
    | some e =>
      have e1 : e.1.line = line := by
        have := takeMsg_holds (m := e.1) (r := e.2) hm
        unfold State.deliverable at this
        simp at this; exact this.1
      have a : OnLine line s { s with mem := { s.mem with msgs := e.2 } } := onLine_setMsgs s e.2
      have b := onLine_deliver { s with mem := { s.mem with msgs := e.2 } } e.1 (by rw [e1]; exact hl) (a.named h)
      rw [e1] at b
      exact (a.trans b).trans (ih _ (b.named (a.named h)))

theorem onLine_settle {line : Nat} (hl : line < 2 ^ 45) (s : State) (h : TxnsNamed s) : OnLine line s (s.settle line) :=
  onLine_settleFuel hl _ s h

/-- A message about a line, and everything that it causes. -/
theorem onLine_ask {line : Nat} (hl : line < 2 ^ 45) (s : State) (m : Msg) (h : TxnsNamed s) :
    OnLine line s ((s.send m).settle line) :=
  (onLine_send s m).trans (onLine_settle hl _ ((onLine_send (line := line) s m).named h))

theorem onLine_homeRead {line : Nat} (hl : line < 2 ^ 45) (s : State) (h : TxnsNamed s) (die : Option Nat := none) :
    OnLine line s (s.homeRead line die).1 :=
  have a := onLine_settle hl s h
  a.trans (onLine_ask hl _ _ (a.named h))

theorem onLine_homeWrite {line : Nat} (hl : line < 2 ^ 45) (s : State) (mask : BitVec 128) (x : Line) (ms p : Bool) (h : TxnsNamed s)
    (die : Option Nat := none) : OnLine line s (s.homeWrite line mask x ms p die) :=
  have a := onLine_settle hl s h
  a.trans (onLine_ask hl _ _ (a.named h))

theorem onLine_msRead {line : Nat} (hl : line < 2 ^ 45) (s : State) (h : TxnsNamed s) (die : Option Nat := none) :
    OnLine line s (s.msRead line die).1 := by
  have a := onLine_settle hl s h
  exact a.trans (onLine_ite ((onLine_sillTouch _ _ _).trans (onLine_findError _)) (onLine_homeWrite hl _ _ _ _ _ (a.named h) die))

theorem onLine_agentRead {line : Nat} (hl : line < 2 ^ 45) (s : State) (slot : Nat) (h : TxnsNamed s) :
    OnLine line s (s.agentRead slot line).1 := by
  have a := onLine_settle hl s h
  unfold State.agentRead
  simp only []
  cases (s.settle line).mem.cline slot line with
  | some c => exact a
  | none =>
    have b := onLine_ask hl (s.settle line) { kind := .rdS, line := line, slot := slot } (a.named h)
    simp only []
    cases (((s.settle line).send { kind := .rdS, line := line, slot := slot }).settle line).mem.cline slot line <;> exact a.trans b

theorem onLine_agentOwn {line : Nat} (hl : line < 2 ^ 45) (s : State) (slot : Nat) (h : TxnsNamed s) :
    OnLine line s (s.agentOwn slot line).1 := by
  have a := onLine_settle hl s h
  have b : ∀ m : Msg, OnLine line (s.settle line) (((s.settle line).send m).settle line) := fun m => onLine_ask hl _ m (a.named h)
  unfold State.agentOwn
  simp only []
  cases (s.settle line).mem.cline slot line with
  | none => exact a.trans (b _)
  | some c =>
    simp only []
    by_cases h1 : c.st = .M
    · rw [if_pos h1]; exact a
    · rw [if_neg h1]
      split <;> exact a.trans (b _)

theorem onLine_agentPut {line : Nat} (hl : line < 2 ^ 45) (s : State) (slot : Nat) (mask : BitVec 128) (x : Line) (cl : Bool := true) :
    OnLine line s (s.agentPut slot line mask x cl) := by
  cases hc : s.mem.cline slot line with
  | none =>
    have e : s.agentPut slot line mask x cl = s := by unfold State.agentPut State.updMem; simp only [hc]
    rw [e]; exact OnLine.refl _ _
  | some c =>
    have e : s.agentPut slot line mask x cl = s.updMem (fun m => m.setCline slot line { c with
        data := mergeLine c.data x mask, dirty := true, poison := c.poison && !(cl && mask = fullMask) }) := by
      unfold State.agentPut State.updMem; simp only [hc]
    rw [e]
    exact onLine_setCline hl s slot (fun _ => _)

theorem onLine_agentStore {line : Nat} (hl : line < 2 ^ 45) (s : State) (slot : Nat) (mask : BitVec 128) (x : Line) (h : TxnsNamed s) :
    OnLine line s (s.agentStore slot line mask x) := by
  have a := onLine_agentOwn hl s slot h
  have b := a.trans (onLine_clearResv (k := line) _)
  exact b.trans (onLine_ite (onLine_agentPut hl _ _ _ _) (onLine_homeWrite hl _ _ _ _ _ (b.named h)))

theorem onLine_privRead {line : Nat} (hl : line < 2 ^ 45) (s : State) (die : Nat) : OnLine line s (s.privRead die line).1 := by
  unfold State.privRead
  simp only []
  cases s.mem.cline (s.agentId die) line with
  | some c => exact OnLine.refl _ _
  | none =>
    exact ((onLine_findError s).trans (onLine_sillTouch _ _ _)).trans (onLine_setCline hl _ _ (fun _ => _))

theorem onLine_privStore {line : Nat} (hl : line < 2 ^ 45) (s : State) (die : Nat) (mask : BitVec 128) (x : Line) (cl : Bool := true) :
    OnLine line s (s.privStore die line mask x cl) :=
  ((onLine_privRead hl s die).trans (onLine_clearResv (k := line) _)).trans (onLine_agentPut hl _ _ _ _ cl)

theorem onLine_flushL1 {line : Nat} (hl : line < 2 ^ 45) (s : State) (g : Nat) : OnLine line s (s.flushL1 g line) := by
  unfold State.flushL1
  cases s.mem.l1Line g line with
  | none => exact OnLine.refl _ _
  | some c => exact (onLine_ite (onLine_privStore hl s _ _ _ _) (OnLine.refl _ _)).trans (onLine_dropL1 hl _ _)

theorem onLine_cleanL1 {line : Nat} (hl : line < 2 ^ 45) (s : State) (g : Nat) : OnLine line s (s.cleanL1 g line) := by
  unfold State.cleanL1
  cases s.mem.l1Line g line with
  | none => exact OnLine.refl _ _
  | some c => exact (onLine_ite (onLine_privStore hl s _ _ _ _) (OnLine.refl _ _)).trans (onLine_setL1 hl _ _ (fun _ => _))

theorem onLine_evictAgent {line : Nat} (hl : line < 2 ^ 45) (s : State) (slot : Nat) : OnLine line s (s.evictAgent slot line) := by
  have wb : ∀ (u : State) (c : CLine), OnLine line u (u.updMem (fun m => { m.dropCline slot line with wb := m.wb.put (agKey slot line) c })) :=
    fun u c => ⟨memoryOnly_updMem u _, fun h => h, fun k hk h => ⟨dram_eq rfl k, sideOf_eq rfl k,
      fun _ => Map.find?_del_ne _ _ _ (agKey_ne hl hk h), fun _ => Map.find?_put_ne _ _ _ _ (agKey_ne hl hk h), fun _ => rfl⟩⟩
  unfold State.evictAgent
  cases s.mem.cline slot line with
  | none => exact OnLine.refl _ _
  | some c =>
    cases hc : c.st <;> simp only [hc] <;> first
      | exact (wb s c).trans (onLine_send _ _)
      | exact (onLine_ite ((onLine_sillTouch s _ _).trans (onLine_putHome _ _ _)) (OnLine.refl _ _)).trans (onLine_dropCline hl _ _)
      | exact onLine_dropCline hl _ _

theorem onLine_cleanPriv {line : Nat} (hl : line < 2 ^ 45) (s : State) (die : Nat) : OnLine line s (s.cleanPriv die line) := by
  unfold State.cleanPriv
  simp only []
  cases s.mem.cline (s.agentId die) line with
  | none => exact OnLine.refl _ _
  | some c =>
    exact onLine_ite (((onLine_sillTouch s _ _).trans (onLine_putHome _ _ _)).trans (onLine_setCline hl _ _ (fun _ => _)))
      (OnLine.refl _ _)

theorem onLine_l2Read {line : Nat} (hl : line < 2 ^ 45) (s : State) (die cls : Nat) (h : TxnsNamed s) :
    OnLine line s (s.l2Read die cls line).1 := by
  unfold State.l2Read
  split
  · exact onLine_agentRead hl s _ h
  · exact onLine_privRead hl s _

/-- A load by a cluster concerns its line. -/
theorem onLine_loadLine {line : Nat} (hl : line < 2 ^ 45) (s : State) (g cls : Nat) (need : BitVec 128) (noL1 : Bool)
    (h : TxnsNamed s) : OnLine line s (s.loadLine g cls line need noL1).1 := by
  unfold State.loadLine
  by_cases h3 : cls = 3
  · rw [if_pos h3]; exact onLine_msRead hl s h _
  · rw [if_neg h3]
    have a : OnLine line s (if (noL1 && decide (cls = 0)) = true then s.flushL1 g line else s) :=
      onLine_ite (onLine_flushL1 hl s g) (OnLine.refl _ _)
    generalize (if (noL1 && decide (cls = 0)) = true then s.flushL1 g line else s) = u at a
    have b := onLine_l2Read hl u (dieOf g) cls (a.named h)
    cases hu : u.mem.l1Line g line with
    | some c =>
      simp only [hu]
      by_cases hv : c.valid &&& need = need
      · rw [if_pos hv]; exact a
      · rw [if_neg hv]; exact (a.trans b).trans (onLine_setL1 hl _ _ (fun _ => _))
    | none =>
      simp only [hu]
      exact (a.trans b).trans (onLine_ite (OnLine.refl _ _) (onLine_setL1 hl _ _ (fun _ => _)))

theorem onLine_mergeL1 {line : Nat} (hl : line < 2 ^ 45) (s : State) (g : Nat) (mask : BitVec 128) (x : Line) :
    OnLine line s (s.updMem (fun m => match m.l1Line g line with
      | some c => m.setL1 g line { c with data := mergeLine c.data x mask, valid := c.valid ||| mask
                                          poison := c.poison && mask ≠ fullMask }
      | none => m)) := by
  cases hc : s.mem.l1Line g line with
  | none => unfold State.updMem; simp only [hc]; exact OnLine.refl _ _
  | some c =>
    have h := onLine_setL1 hl s g (fun _ => { c with data := mergeLine c.data x mask, valid := c.valid ||| mask,
                                                      poison := c.poison && mask ≠ fullMask })
    unfold State.updMem at h ⊢
    simp only [hc]
    exact h

/-- A store by a cluster concerns its line. -/
theorem onLine_storeLine {line : Nat} (hl : line < 2 ^ 45) (s : State) (g cls : Nat) (mask : BitVec 128) (x : Line) (noL1 : Bool)
    (h : TxnsNamed s) : OnLine line s (s.storeLine g cls line mask x noL1) := by
  unfold State.storeLine
  refine onLine_ite (onLine_homeWrite hl s _ _ _ _ h _) (onLine_ite ?_ ?_)
  · refine onLine_parts s _ rfl (fun k _ => dram_eq rfl k) (fun k _ => sideOf_eq rfl k) (fun _ _ _ _ => rfl) rfl
      (fun _ _ hk h => Map.find?_put_ne _ _ _ _ (agKey_ne hl hk h))
  · have a : OnLine line s (if cls = 0 then s.flushL1 g line else s.updMem (fun m => match m.l1Line g line with
        | some c => m.setL1 g line { c with data := mergeLine c.data x mask, valid := c.valid ||| mask
                                            poison := c.poison && mask ≠ fullMask }
        | none => m)) := onLine_ite (onLine_flushL1 hl s g) (onLine_mergeL1 hl s g mask x)
    exact a.trans (onLine_ite (onLine_agentStore hl _ _ _ _ (a.named h)) (onLine_privStore hl _ _ _ _))

end Sys2Proof.Machine
end

