-- ==== Sys2Proof/Laws/State.lean ====
section
/-! SUPPORT. What each update of the state leaves alone, and what a read gives after it. -/

-- One declaration after another: a thread for each proof would need more address space than a check gives.
set_option Elab.async false

namespace Sys2Proof.Machine

variable (s : State)

/-! ### setCl -/

@[simp] theorem State.setCl_ticks (g : Nat) (c : Cluster) : (s.setCl g c).ticks = s.ticks := rfl
@[simp] theorem State.setCl_agenda (g : Nat) (c : Cluster) : (s.setCl g c).agenda = s.agenda := rfl
@[simp] theorem State.setCl_ports (g : Nat) (c : Cluster) : (s.setCl g c).ports = s.ports := rfl
@[simp] theorem State.setCl_cur (g : Nat) (c : Cluster) : (s.setCl g c).cur = s.cur := rfl
@[simp] theorem State.setCl_doom (g : Nat) (c : Cluster) : (s.setCl g c).doom = s.doom := rfl
@[simp] theorem State.setCl_power (g : Nat) (c : Cluster) : (s.setCl g c).power = s.power := rfl
@[simp] theorem State.setCl_boot (g : Nat) (c : Cluster) : (s.setCl g c).boot = s.boot := rfl
@[simp] theorem State.setCl_out (g : Nat) (c : Cluster) : (s.setCl g c).out = s.out := rfl
@[simp] theorem State.setCl_clk (g : Nat) (c : Cluster) : (s.setCl g c).clk = s.clk := rfl
@[simp] theorem State.setCl_ns (g : Nat) (c : Cluster) : (s.setCl g c).ns = s.ns := rfl
@[simp] theorem State.setCl_ctl (g : Nat) (c : Cluster) : (s.setCl g c).ctl = s.ctl := rfl
@[simp] theorem State.setCl_mem (g : Nat) (c : Cluster) : (s.setCl g c).mem = s.mem := rfl
@[simp] theorem State.setCl_xl (g : Nat) (c : Cluster) : (s.setCl g c).xl = s.xl := rfl
@[simp] theorem State.setCl_work (g : Nat) (c : Cluster) : (s.setCl g c).work = s.work := rfl
@[simp] theorem State.setCl_eng (g : Nat) (c : Cluster) : (s.setCl g c).eng = s.eng := rfl

/-! ### updCl -/

@[simp] theorem State.updCl_ticks (g : Nat) (f : Cluster → Cluster) : (s.updCl g f).ticks = s.ticks := rfl
@[simp] theorem State.updCl_agenda (g : Nat) (f : Cluster → Cluster) : (s.updCl g f).agenda = s.agenda := rfl
@[simp] theorem State.updCl_ports (g : Nat) (f : Cluster → Cluster) : (s.updCl g f).ports = s.ports := rfl
@[simp] theorem State.updCl_cur (g : Nat) (f : Cluster → Cluster) : (s.updCl g f).cur = s.cur := rfl
@[simp] theorem State.updCl_doom (g : Nat) (f : Cluster → Cluster) : (s.updCl g f).doom = s.doom := rfl
@[simp] theorem State.updCl_power (g : Nat) (f : Cluster → Cluster) : (s.updCl g f).power = s.power := rfl
@[simp] theorem State.updCl_boot (g : Nat) (f : Cluster → Cluster) : (s.updCl g f).boot = s.boot := rfl
@[simp] theorem State.updCl_out (g : Nat) (f : Cluster → Cluster) : (s.updCl g f).out = s.out := rfl
@[simp] theorem State.updCl_clk (g : Nat) (f : Cluster → Cluster) : (s.updCl g f).clk = s.clk := rfl
@[simp] theorem State.updCl_ns (g : Nat) (f : Cluster → Cluster) : (s.updCl g f).ns = s.ns := rfl
@[simp] theorem State.updCl_ctl (g : Nat) (f : Cluster → Cluster) : (s.updCl g f).ctl = s.ctl := rfl
@[simp] theorem State.updCl_mem (g : Nat) (f : Cluster → Cluster) : (s.updCl g f).mem = s.mem := rfl
@[simp] theorem State.updCl_xl (g : Nat) (f : Cluster → Cluster) : (s.updCl g f).xl = s.xl := rfl
@[simp] theorem State.updCl_work (g : Nat) (f : Cluster → Cluster) : (s.updCl g f).work = s.work := rfl
@[simp] theorem State.updCl_eng (g : Nat) (f : Cluster → Cluster) : (s.updCl g f).eng = s.eng := rfl

/-! ### updWarp -/

@[simp] theorem State.updWarp_ticks (g k : Nat) (f : Warp → Warp) : (s.updWarp g k f).ticks = s.ticks := rfl
@[simp] theorem State.updWarp_agenda (g k : Nat) (f : Warp → Warp) : (s.updWarp g k f).agenda = s.agenda := rfl
@[simp] theorem State.updWarp_ports (g k : Nat) (f : Warp → Warp) : (s.updWarp g k f).ports = s.ports := rfl
@[simp] theorem State.updWarp_cur (g k : Nat) (f : Warp → Warp) : (s.updWarp g k f).cur = s.cur := rfl
@[simp] theorem State.updWarp_doom (g k : Nat) (f : Warp → Warp) : (s.updWarp g k f).doom = s.doom := rfl
@[simp] theorem State.updWarp_power (g k : Nat) (f : Warp → Warp) : (s.updWarp g k f).power = s.power := rfl
@[simp] theorem State.updWarp_boot (g k : Nat) (f : Warp → Warp) : (s.updWarp g k f).boot = s.boot := rfl
@[simp] theorem State.updWarp_out (g k : Nat) (f : Warp → Warp) : (s.updWarp g k f).out = s.out := rfl
@[simp] theorem State.updWarp_clk (g k : Nat) (f : Warp → Warp) : (s.updWarp g k f).clk = s.clk := rfl
@[simp] theorem State.updWarp_ns (g k : Nat) (f : Warp → Warp) : (s.updWarp g k f).ns = s.ns := rfl
@[simp] theorem State.updWarp_ctl (g k : Nat) (f : Warp → Warp) : (s.updWarp g k f).ctl = s.ctl := rfl
@[simp] theorem State.updWarp_mem (g k : Nat) (f : Warp → Warp) : (s.updWarp g k f).mem = s.mem := rfl
@[simp] theorem State.updWarp_xl (g k : Nat) (f : Warp → Warp) : (s.updWarp g k f).xl = s.xl := rfl
@[simp] theorem State.updWarp_work (g k : Nat) (f : Warp → Warp) : (s.updWarp g k f).work = s.work := rfl
@[simp] theorem State.updWarp_eng (g k : Nat) (f : Warp → Warp) : (s.updWarp g k f).eng = s.eng := rfl

/-! ### updLane -/

@[simp] theorem State.updLane_ticks (g k l : Nat) (f : Lane → Lane) : (s.updLane g k l f).ticks = s.ticks := rfl
@[simp] theorem State.updLane_agenda (g k l : Nat) (f : Lane → Lane) : (s.updLane g k l f).agenda = s.agenda := rfl
@[simp] theorem State.updLane_ports (g k l : Nat) (f : Lane → Lane) : (s.updLane g k l f).ports = s.ports := rfl
@[simp] theorem State.updLane_cur (g k l : Nat) (f : Lane → Lane) : (s.updLane g k l f).cur = s.cur := rfl
@[simp] theorem State.updLane_doom (g k l : Nat) (f : Lane → Lane) : (s.updLane g k l f).doom = s.doom := rfl
@[simp] theorem State.updLane_power (g k l : Nat) (f : Lane → Lane) : (s.updLane g k l f).power = s.power := rfl
@[simp] theorem State.updLane_boot (g k l : Nat) (f : Lane → Lane) : (s.updLane g k l f).boot = s.boot := rfl
@[simp] theorem State.updLane_out (g k l : Nat) (f : Lane → Lane) : (s.updLane g k l f).out = s.out := rfl
@[simp] theorem State.updLane_clk (g k l : Nat) (f : Lane → Lane) : (s.updLane g k l f).clk = s.clk := rfl
@[simp] theorem State.updLane_ns (g k l : Nat) (f : Lane → Lane) : (s.updLane g k l f).ns = s.ns := rfl
@[simp] theorem State.updLane_ctl (g k l : Nat) (f : Lane → Lane) : (s.updLane g k l f).ctl = s.ctl := rfl
@[simp] theorem State.updLane_mem (g k l : Nat) (f : Lane → Lane) : (s.updLane g k l f).mem = s.mem := rfl
@[simp] theorem State.updLane_xl (g k l : Nat) (f : Lane → Lane) : (s.updLane g k l f).xl = s.xl := rfl
@[simp] theorem State.updLane_work (g k l : Nat) (f : Lane → Lane) : (s.updLane g k l f).work = s.work := rfl
@[simp] theorem State.updLane_eng (g k l : Nat) (f : Lane → Lane) : (s.updLane g k l f).eng = s.eng := rfl

/-! ### updLanes -/

@[simp] theorem State.updLanes_ticks (g k : Nat) (ls : List Nat) (f : Nat → Lane → Lane) : (s.updLanes g k ls f).ticks = s.ticks := rfl
@[simp] theorem State.updLanes_agenda (g k : Nat) (ls : List Nat) (f : Nat → Lane → Lane) : (s.updLanes g k ls f).agenda = s.agenda := rfl
@[simp] theorem State.updLanes_ports (g k : Nat) (ls : List Nat) (f : Nat → Lane → Lane) : (s.updLanes g k ls f).ports = s.ports := rfl
@[simp] theorem State.updLanes_cur (g k : Nat) (ls : List Nat) (f : Nat → Lane → Lane) : (s.updLanes g k ls f).cur = s.cur := rfl
@[simp] theorem State.updLanes_doom (g k : Nat) (ls : List Nat) (f : Nat → Lane → Lane) : (s.updLanes g k ls f).doom = s.doom := rfl
@[simp] theorem State.updLanes_power (g k : Nat) (ls : List Nat) (f : Nat → Lane → Lane) : (s.updLanes g k ls f).power = s.power := rfl
@[simp] theorem State.updLanes_boot (g k : Nat) (ls : List Nat) (f : Nat → Lane → Lane) : (s.updLanes g k ls f).boot = s.boot := rfl
@[simp] theorem State.updLanes_out (g k : Nat) (ls : List Nat) (f : Nat → Lane → Lane) : (s.updLanes g k ls f).out = s.out := rfl
@[simp] theorem State.updLanes_clk (g k : Nat) (ls : List Nat) (f : Nat → Lane → Lane) : (s.updLanes g k ls f).clk = s.clk := rfl
@[simp] theorem State.updLanes_ns (g k : Nat) (ls : List Nat) (f : Nat → Lane → Lane) : (s.updLanes g k ls f).ns = s.ns := rfl
@[simp] theorem State.updLanes_ctl (g k : Nat) (ls : List Nat) (f : Nat → Lane → Lane) : (s.updLanes g k ls f).ctl = s.ctl := rfl
@[simp] theorem State.updLanes_mem (g k : Nat) (ls : List Nat) (f : Nat → Lane → Lane) : (s.updLanes g k ls f).mem = s.mem := rfl
@[simp] theorem State.updLanes_xl (g k : Nat) (ls : List Nat) (f : Nat → Lane → Lane) : (s.updLanes g k ls f).xl = s.xl := rfl
@[simp] theorem State.updLanes_work (g k : Nat) (ls : List Nat) (f : Nat → Lane → Lane) : (s.updLanes g k ls f).work = s.work := rfl
@[simp] theorem State.updLanes_eng (g k : Nat) (ls : List Nat) (f : Nat → Lane → Lane) : (s.updLanes g k ls f).eng = s.eng := rfl

/-! ### updSpine -/

@[simp] theorem State.updSpine_ticks (g k : Nat) (f : Spine → Spine) : (s.updSpine g k f).ticks = s.ticks := rfl
@[simp] theorem State.updSpine_agenda (g k : Nat) (f : Spine → Spine) : (s.updSpine g k f).agenda = s.agenda := rfl
@[simp] theorem State.updSpine_ports (g k : Nat) (f : Spine → Spine) : (s.updSpine g k f).ports = s.ports := rfl
@[simp] theorem State.updSpine_cur (g k : Nat) (f : Spine → Spine) : (s.updSpine g k f).cur = s.cur := rfl
@[simp] theorem State.updSpine_doom (g k : Nat) (f : Spine → Spine) : (s.updSpine g k f).doom = s.doom := rfl
@[simp] theorem State.updSpine_power (g k : Nat) (f : Spine → Spine) : (s.updSpine g k f).power = s.power := rfl
@[simp] theorem State.updSpine_boot (g k : Nat) (f : Spine → Spine) : (s.updSpine g k f).boot = s.boot := rfl
@[simp] theorem State.updSpine_out (g k : Nat) (f : Spine → Spine) : (s.updSpine g k f).out = s.out := rfl
@[simp] theorem State.updSpine_clk (g k : Nat) (f : Spine → Spine) : (s.updSpine g k f).clk = s.clk := rfl
@[simp] theorem State.updSpine_ns (g k : Nat) (f : Spine → Spine) : (s.updSpine g k f).ns = s.ns := rfl
@[simp] theorem State.updSpine_ctl (g k : Nat) (f : Spine → Spine) : (s.updSpine g k f).ctl = s.ctl := rfl
@[simp] theorem State.updSpine_mem (g k : Nat) (f : Spine → Spine) : (s.updSpine g k f).mem = s.mem := rfl
@[simp] theorem State.updSpine_xl (g k : Nat) (f : Spine → Spine) : (s.updSpine g k f).xl = s.xl := rfl
@[simp] theorem State.updSpine_work (g k : Nat) (f : Spine → Spine) : (s.updSpine g k f).work = s.work := rfl
@[simp] theorem State.updSpine_eng (g k : Nat) (f : Spine → Spine) : (s.updSpine g k f).eng = s.eng := rfl

/-! ### updSeqr -/

@[simp] theorem State.updSeqr_ticks (g : Nat) (b : Bool) (f : Seqr → Seqr) : (s.updSeqr g b f).ticks = s.ticks := rfl
@[simp] theorem State.updSeqr_agenda (g : Nat) (b : Bool) (f : Seqr → Seqr) : (s.updSeqr g b f).agenda = s.agenda := rfl
@[simp] theorem State.updSeqr_ports (g : Nat) (b : Bool) (f : Seqr → Seqr) : (s.updSeqr g b f).ports = s.ports := rfl
@[simp] theorem State.updSeqr_cur (g : Nat) (b : Bool) (f : Seqr → Seqr) : (s.updSeqr g b f).cur = s.cur := rfl
@[simp] theorem State.updSeqr_doom (g : Nat) (b : Bool) (f : Seqr → Seqr) : (s.updSeqr g b f).doom = s.doom := rfl
@[simp] theorem State.updSeqr_power (g : Nat) (b : Bool) (f : Seqr → Seqr) : (s.updSeqr g b f).power = s.power := rfl
@[simp] theorem State.updSeqr_boot (g : Nat) (b : Bool) (f : Seqr → Seqr) : (s.updSeqr g b f).boot = s.boot := rfl
@[simp] theorem State.updSeqr_out (g : Nat) (b : Bool) (f : Seqr → Seqr) : (s.updSeqr g b f).out = s.out := rfl
@[simp] theorem State.updSeqr_clk (g : Nat) (b : Bool) (f : Seqr → Seqr) : (s.updSeqr g b f).clk = s.clk := rfl
@[simp] theorem State.updSeqr_ns (g : Nat) (b : Bool) (f : Seqr → Seqr) : (s.updSeqr g b f).ns = s.ns := rfl
@[simp] theorem State.updSeqr_ctl (g : Nat) (b : Bool) (f : Seqr → Seqr) : (s.updSeqr g b f).ctl = s.ctl := rfl
@[simp] theorem State.updSeqr_mem (g : Nat) (b : Bool) (f : Seqr → Seqr) : (s.updSeqr g b f).mem = s.mem := rfl
@[simp] theorem State.updSeqr_xl (g : Nat) (b : Bool) (f : Seqr → Seqr) : (s.updSeqr g b f).xl = s.xl := rfl
@[simp] theorem State.updSeqr_work (g : Nat) (b : Bool) (f : Seqr → Seqr) : (s.updSeqr g b f).work = s.work := rfl
@[simp] theorem State.updSeqr_eng (g : Nat) (b : Bool) (f : Seqr → Seqr) : (s.updSeqr g b f).eng = s.eng := rfl

/-! ### updBlock -/

@[simp] theorem State.updBlock_ticks (g b : Nat) (f : Block → Block) : (s.updBlock g b f).ticks = s.ticks := rfl
@[simp] theorem State.updBlock_agenda (g b : Nat) (f : Block → Block) : (s.updBlock g b f).agenda = s.agenda := rfl
@[simp] theorem State.updBlock_ports (g b : Nat) (f : Block → Block) : (s.updBlock g b f).ports = s.ports := rfl
@[simp] theorem State.updBlock_cur (g b : Nat) (f : Block → Block) : (s.updBlock g b f).cur = s.cur := rfl
@[simp] theorem State.updBlock_doom (g b : Nat) (f : Block → Block) : (s.updBlock g b f).doom = s.doom := rfl
@[simp] theorem State.updBlock_power (g b : Nat) (f : Block → Block) : (s.updBlock g b f).power = s.power := rfl
@[simp] theorem State.updBlock_boot (g b : Nat) (f : Block → Block) : (s.updBlock g b f).boot = s.boot := rfl
@[simp] theorem State.updBlock_out (g b : Nat) (f : Block → Block) : (s.updBlock g b f).out = s.out := rfl
@[simp] theorem State.updBlock_clk (g b : Nat) (f : Block → Block) : (s.updBlock g b f).clk = s.clk := rfl
@[simp] theorem State.updBlock_ns (g b : Nat) (f : Block → Block) : (s.updBlock g b f).ns = s.ns := rfl
@[simp] theorem State.updBlock_ctl (g b : Nat) (f : Block → Block) : (s.updBlock g b f).ctl = s.ctl := rfl
@[simp] theorem State.updBlock_mem (g b : Nat) (f : Block → Block) : (s.updBlock g b f).mem = s.mem := rfl
@[simp] theorem State.updBlock_xl (g b : Nat) (f : Block → Block) : (s.updBlock g b f).xl = s.xl := rfl
@[simp] theorem State.updBlock_work (g b : Nat) (f : Block → Block) : (s.updBlock g b f).work = s.work := rfl
@[simp] theorem State.updBlock_eng (g b : Nat) (f : Block → Block) : (s.updBlock g b f).eng = s.eng := rfl

/-! ### updMem -/

@[simp] theorem State.updMem_ticks (f : Memory → Memory) : (s.updMem f).ticks = s.ticks := rfl
@[simp] theorem State.updMem_agenda (f : Memory → Memory) : (s.updMem f).agenda = s.agenda := rfl
@[simp] theorem State.updMem_ports (f : Memory → Memory) : (s.updMem f).ports = s.ports := rfl
@[simp] theorem State.updMem_cur (f : Memory → Memory) : (s.updMem f).cur = s.cur := rfl
@[simp] theorem State.updMem_doom (f : Memory → Memory) : (s.updMem f).doom = s.doom := rfl
@[simp] theorem State.updMem_power (f : Memory → Memory) : (s.updMem f).power = s.power := rfl
@[simp] theorem State.updMem_boot (f : Memory → Memory) : (s.updMem f).boot = s.boot := rfl
@[simp] theorem State.updMem_out (f : Memory → Memory) : (s.updMem f).out = s.out := rfl
@[simp] theorem State.updMem_clk (f : Memory → Memory) : (s.updMem f).clk = s.clk := rfl
@[simp] theorem State.updMem_ns (f : Memory → Memory) : (s.updMem f).ns = s.ns := rfl
@[simp] theorem State.updMem_ctl (f : Memory → Memory) : (s.updMem f).ctl = s.ctl := rfl
@[simp] theorem State.updMem_xl (f : Memory → Memory) : (s.updMem f).xl = s.xl := rfl
@[simp] theorem State.updMem_work (f : Memory → Memory) : (s.updMem f).work = s.work := rfl
@[simp] theorem State.updMem_eng (f : Memory → Memory) : (s.updMem f).eng = s.eng := rfl
@[simp] theorem State.updMem_clusters (f : Memory → Memory) : (s.updMem f).clusters = s.clusters := rfl

/-! ### setCtl -/

@[simp] theorem State.setCtl_ticks (i n : Nat) (x : W64) : (s.setCtl i n x).ticks = s.ticks := rfl
@[simp] theorem State.setCtl_agenda (i n : Nat) (x : W64) : (s.setCtl i n x).agenda = s.agenda := rfl
@[simp] theorem State.setCtl_ports (i n : Nat) (x : W64) : (s.setCtl i n x).ports = s.ports := rfl
@[simp] theorem State.setCtl_cur (i n : Nat) (x : W64) : (s.setCtl i n x).cur = s.cur := rfl
@[simp] theorem State.setCtl_doom (i n : Nat) (x : W64) : (s.setCtl i n x).doom = s.doom := rfl
@[simp] theorem State.setCtl_power (i n : Nat) (x : W64) : (s.setCtl i n x).power = s.power := rfl
@[simp] theorem State.setCtl_boot (i n : Nat) (x : W64) : (s.setCtl i n x).boot = s.boot := rfl
@[simp] theorem State.setCtl_out (i n : Nat) (x : W64) : (s.setCtl i n x).out = s.out := rfl
@[simp] theorem State.setCtl_clk (i n : Nat) (x : W64) : (s.setCtl i n x).clk = s.clk := rfl
@[simp] theorem State.setCtl_ns (i n : Nat) (x : W64) : (s.setCtl i n x).ns = s.ns := rfl
@[simp] theorem State.setCtl_mem (i n : Nat) (x : W64) : (s.setCtl i n x).mem = s.mem := rfl
@[simp] theorem State.setCtl_xl (i n : Nat) (x : W64) : (s.setCtl i n x).xl = s.xl := rfl
@[simp] theorem State.setCtl_work (i n : Nat) (x : W64) : (s.setCtl i n x).work = s.work := rfl
@[simp] theorem State.setCtl_eng (i n : Nat) (x : W64) : (s.setCtl i n x).eng = s.eng := rfl
@[simp] theorem State.setCtl_clusters (i n : Nat) (x : W64) : (s.setCtl i n x).clusters = s.clusters := rfl

/-! ### setV -/

@[simp] theorem State.setV_ticks (g k l r : Nat) (x : W32) : (s.setV g k l r x).ticks = s.ticks := rfl
@[simp] theorem State.setV_agenda (g k l r : Nat) (x : W32) : (s.setV g k l r x).agenda = s.agenda := rfl
@[simp] theorem State.setV_ports (g k l r : Nat) (x : W32) : (s.setV g k l r x).ports = s.ports := rfl
@[simp] theorem State.setV_cur (g k l r : Nat) (x : W32) : (s.setV g k l r x).cur = s.cur := rfl
@[simp] theorem State.setV_doom (g k l r : Nat) (x : W32) : (s.setV g k l r x).doom = s.doom := rfl
@[simp] theorem State.setV_power (g k l r : Nat) (x : W32) : (s.setV g k l r x).power = s.power := rfl
@[simp] theorem State.setV_boot (g k l r : Nat) (x : W32) : (s.setV g k l r x).boot = s.boot := rfl
@[simp] theorem State.setV_out (g k l r : Nat) (x : W32) : (s.setV g k l r x).out = s.out := rfl
@[simp] theorem State.setV_clk (g k l r : Nat) (x : W32) : (s.setV g k l r x).clk = s.clk := rfl
@[simp] theorem State.setV_ns (g k l r : Nat) (x : W32) : (s.setV g k l r x).ns = s.ns := rfl
@[simp] theorem State.setV_ctl (g k l r : Nat) (x : W32) : (s.setV g k l r x).ctl = s.ctl := rfl
@[simp] theorem State.setV_mem (g k l r : Nat) (x : W32) : (s.setV g k l r x).mem = s.mem := rfl
@[simp] theorem State.setV_xl (g k l r : Nat) (x : W32) : (s.setV g k l r x).xl = s.xl := rfl
@[simp] theorem State.setV_work (g k l r : Nat) (x : W32) : (s.setV g k l r x).work = s.work := rfl
@[simp] theorem State.setV_eng (g k l r : Nat) (x : W32) : (s.setV g k l r x).eng = s.eng := rfl

/-! ### setW -/

@[simp] theorem State.setW_ticks (g k r : Nat) (x : W32) : (s.setW g k r x).ticks = s.ticks := rfl
@[simp] theorem State.setW_agenda (g k r : Nat) (x : W32) : (s.setW g k r x).agenda = s.agenda := rfl
@[simp] theorem State.setW_ports (g k r : Nat) (x : W32) : (s.setW g k r x).ports = s.ports := rfl
@[simp] theorem State.setW_cur (g k r : Nat) (x : W32) : (s.setW g k r x).cur = s.cur := rfl
@[simp] theorem State.setW_doom (g k r : Nat) (x : W32) : (s.setW g k r x).doom = s.doom := rfl
@[simp] theorem State.setW_power (g k r : Nat) (x : W32) : (s.setW g k r x).power = s.power := rfl
@[simp] theorem State.setW_boot (g k r : Nat) (x : W32) : (s.setW g k r x).boot = s.boot := rfl
@[simp] theorem State.setW_out (g k r : Nat) (x : W32) : (s.setW g k r x).out = s.out := rfl
@[simp] theorem State.setW_clk (g k r : Nat) (x : W32) : (s.setW g k r x).clk = s.clk := rfl
@[simp] theorem State.setW_ns (g k r : Nat) (x : W32) : (s.setW g k r x).ns = s.ns := rfl
@[simp] theorem State.setW_ctl (g k r : Nat) (x : W32) : (s.setW g k r x).ctl = s.ctl := rfl
@[simp] theorem State.setW_mem (g k r : Nat) (x : W32) : (s.setW g k r x).mem = s.mem := rfl
@[simp] theorem State.setW_xl (g k r : Nat) (x : W32) : (s.setW g k r x).xl = s.xl := rfl
@[simp] theorem State.setW_work (g k r : Nat) (x : W32) : (s.setW g k r x).work = s.work := rfl
@[simp] theorem State.setW_eng (g k r : Nat) (x : W32) : (s.setW g k r x).eng = s.eng := rfl

/-! ### setE -/

@[simp] theorem State.setE_ticks (g : Nat) (b : Bool) (r : Nat) (x : W64) : (s.setE g b r x).ticks = s.ticks := rfl
@[simp] theorem State.setE_agenda (g : Nat) (b : Bool) (r : Nat) (x : W64) : (s.setE g b r x).agenda = s.agenda := rfl
@[simp] theorem State.setE_ports (g : Nat) (b : Bool) (r : Nat) (x : W64) : (s.setE g b r x).ports = s.ports := rfl
@[simp] theorem State.setE_cur (g : Nat) (b : Bool) (r : Nat) (x : W64) : (s.setE g b r x).cur = s.cur := rfl
@[simp] theorem State.setE_doom (g : Nat) (b : Bool) (r : Nat) (x : W64) : (s.setE g b r x).doom = s.doom := rfl
@[simp] theorem State.setE_power (g : Nat) (b : Bool) (r : Nat) (x : W64) : (s.setE g b r x).power = s.power := rfl
@[simp] theorem State.setE_boot (g : Nat) (b : Bool) (r : Nat) (x : W64) : (s.setE g b r x).boot = s.boot := rfl
@[simp] theorem State.setE_out (g : Nat) (b : Bool) (r : Nat) (x : W64) : (s.setE g b r x).out = s.out := rfl
@[simp] theorem State.setE_clk (g : Nat) (b : Bool) (r : Nat) (x : W64) : (s.setE g b r x).clk = s.clk := rfl
@[simp] theorem State.setE_ns (g : Nat) (b : Bool) (r : Nat) (x : W64) : (s.setE g b r x).ns = s.ns := rfl
@[simp] theorem State.setE_ctl (g : Nat) (b : Bool) (r : Nat) (x : W64) : (s.setE g b r x).ctl = s.ctl := rfl
@[simp] theorem State.setE_mem (g : Nat) (b : Bool) (r : Nat) (x : W64) : (s.setE g b r x).mem = s.mem := rfl
@[simp] theorem State.setE_xl (g : Nat) (b : Bool) (r : Nat) (x : W64) : (s.setE g b r x).xl = s.xl := rfl
@[simp] theorem State.setE_work (g : Nat) (b : Bool) (r : Nat) (x : W64) : (s.setE g b r x).work = s.work := rfl
@[simp] theorem State.setE_eng (g : Nat) (b : Bool) (r : Nat) (x : W64) : (s.setE g b r x).eng = s.eng := rfl

/-! ### setS -/

@[simp] theorem State.setS_ticks (g k r : Nat) (x : W64) : (s.setS g k r x).ticks = s.ticks := by unfold State.setS; split <;> rfl
@[simp] theorem State.setS_agenda (g k r : Nat) (x : W64) : (s.setS g k r x).agenda = s.agenda := by unfold State.setS; split <;> rfl
@[simp] theorem State.setS_ports (g k r : Nat) (x : W64) : (s.setS g k r x).ports = s.ports := by unfold State.setS; split <;> rfl
@[simp] theorem State.setS_cur (g k r : Nat) (x : W64) : (s.setS g k r x).cur = s.cur := by unfold State.setS; split <;> rfl
@[simp] theorem State.setS_doom (g k r : Nat) (x : W64) : (s.setS g k r x).doom = s.doom := by unfold State.setS; split <;> rfl
@[simp] theorem State.setS_power (g k r : Nat) (x : W64) : (s.setS g k r x).power = s.power := by unfold State.setS; split <;> rfl
@[simp] theorem State.setS_boot (g k r : Nat) (x : W64) : (s.setS g k r x).boot = s.boot := by unfold State.setS; split <;> rfl
@[simp] theorem State.setS_out (g k r : Nat) (x : W64) : (s.setS g k r x).out = s.out := by unfold State.setS; split <;> rfl
@[simp] theorem State.setS_clk (g k r : Nat) (x : W64) : (s.setS g k r x).clk = s.clk := by unfold State.setS; split <;> rfl
@[simp] theorem State.setS_ns (g k r : Nat) (x : W64) : (s.setS g k r x).ns = s.ns := by unfold State.setS; split <;> rfl
@[simp] theorem State.setS_ctl (g k r : Nat) (x : W64) : (s.setS g k r x).ctl = s.ctl := by unfold State.setS; split <;> rfl
@[simp] theorem State.setS_mem (g k r : Nat) (x : W64) : (s.setS g k r x).mem = s.mem := by unfold State.setS; split <;> rfl
@[simp] theorem State.setS_xl (g k r : Nat) (x : W64) : (s.setS g k r x).xl = s.xl := by unfold State.setS; split <;> rfl
@[simp] theorem State.setS_work (g k r : Nat) (x : W64) : (s.setS g k r x).work = s.work := by unfold State.setS; split <;> rfl
@[simp] theorem State.setS_eng (g k r : Nat) (x : W64) : (s.setS g k r x).eng = s.eng := by unfold State.setS; split <;> rfl

/-! ### setPred -/

@[simp] theorem State.setPred_ticks (i : Issuer) (l k : Nat) (b : Bool) : (s.setPred i l k b).ticks = s.ticks := by unfold State.setPred; split <;> rfl
@[simp] theorem State.setPred_agenda (i : Issuer) (l k : Nat) (b : Bool) : (s.setPred i l k b).agenda = s.agenda := by unfold State.setPred; split <;> rfl
@[simp] theorem State.setPred_ports (i : Issuer) (l k : Nat) (b : Bool) : (s.setPred i l k b).ports = s.ports := by unfold State.setPred; split <;> rfl
@[simp] theorem State.setPred_cur (i : Issuer) (l k : Nat) (b : Bool) : (s.setPred i l k b).cur = s.cur := by unfold State.setPred; split <;> rfl
@[simp] theorem State.setPred_doom (i : Issuer) (l k : Nat) (b : Bool) : (s.setPred i l k b).doom = s.doom := by unfold State.setPred; split <;> rfl
@[simp] theorem State.setPred_power (i : Issuer) (l k : Nat) (b : Bool) : (s.setPred i l k b).power = s.power := by unfold State.setPred; split <;> rfl
@[simp] theorem State.setPred_boot (i : Issuer) (l k : Nat) (b : Bool) : (s.setPred i l k b).boot = s.boot := by unfold State.setPred; split <;> rfl
@[simp] theorem State.setPred_out (i : Issuer) (l k : Nat) (b : Bool) : (s.setPred i l k b).out = s.out := by unfold State.setPred; split <;> rfl
@[simp] theorem State.setPred_clk (i : Issuer) (l k : Nat) (b : Bool) : (s.setPred i l k b).clk = s.clk := by unfold State.setPred; split <;> rfl
@[simp] theorem State.setPred_ns (i : Issuer) (l k : Nat) (b : Bool) : (s.setPred i l k b).ns = s.ns := by unfold State.setPred; split <;> rfl
@[simp] theorem State.setPred_ctl (i : Issuer) (l k : Nat) (b : Bool) : (s.setPred i l k b).ctl = s.ctl := by unfold State.setPred; split <;> rfl
@[simp] theorem State.setPred_mem (i : Issuer) (l k : Nat) (b : Bool) : (s.setPred i l k b).mem = s.mem := by unfold State.setPred; split <;> rfl
@[simp] theorem State.setPred_xl (i : Issuer) (l k : Nat) (b : Bool) : (s.setPred i l k b).xl = s.xl := by unfold State.setPred; split <;> rfl
@[simp] theorem State.setPred_work (i : Issuer) (l k : Nat) (b : Bool) : (s.setPred i l k b).work = s.work := by unfold State.setPred; split <;> rfl
@[simp] theorem State.setPred_eng (i : Issuer) (l k : Nat) (b : Bool) : (s.setPred i l k b).eng = s.eng := by unfold State.setPred; split <;> rfl

/-! ### setPc -/

@[simp] theorem State.setPc_ticks (i : Issuer) (l : Nat) (x : W64) : (s.setPc i l x).ticks = s.ticks := by unfold State.setPc; split <;> rfl
@[simp] theorem State.setPc_agenda (i : Issuer) (l : Nat) (x : W64) : (s.setPc i l x).agenda = s.agenda := by unfold State.setPc; split <;> rfl
@[simp] theorem State.setPc_ports (i : Issuer) (l : Nat) (x : W64) : (s.setPc i l x).ports = s.ports := by unfold State.setPc; split <;> rfl
@[simp] theorem State.setPc_cur (i : Issuer) (l : Nat) (x : W64) : (s.setPc i l x).cur = s.cur := by unfold State.setPc; split <;> rfl
@[simp] theorem State.setPc_doom (i : Issuer) (l : Nat) (x : W64) : (s.setPc i l x).doom = s.doom := by unfold State.setPc; split <;> rfl
@[simp] theorem State.setPc_power (i : Issuer) (l : Nat) (x : W64) : (s.setPc i l x).power = s.power := by unfold State.setPc; split <;> rfl
@[simp] theorem State.setPc_boot (i : Issuer) (l : Nat) (x : W64) : (s.setPc i l x).boot = s.boot := by unfold State.setPc; split <;> rfl
@[simp] theorem State.setPc_out (i : Issuer) (l : Nat) (x : W64) : (s.setPc i l x).out = s.out := by unfold State.setPc; split <;> rfl
@[simp] theorem State.setPc_clk (i : Issuer) (l : Nat) (x : W64) : (s.setPc i l x).clk = s.clk := by unfold State.setPc; split <;> rfl
@[simp] theorem State.setPc_ns (i : Issuer) (l : Nat) (x : W64) : (s.setPc i l x).ns = s.ns := by unfold State.setPc; split <;> rfl
@[simp] theorem State.setPc_ctl (i : Issuer) (l : Nat) (x : W64) : (s.setPc i l x).ctl = s.ctl := by unfold State.setPc; split <;> rfl
@[simp] theorem State.setPc_mem (i : Issuer) (l : Nat) (x : W64) : (s.setPc i l x).mem = s.mem := by unfold State.setPc; split <;> rfl
@[simp] theorem State.setPc_xl (i : Issuer) (l : Nat) (x : W64) : (s.setPc i l x).xl = s.xl := by unfold State.setPc; split <;> rfl
@[simp] theorem State.setPc_work (i : Issuer) (l : Nat) (x : W64) : (s.setPc i l x).work = s.work := by unfold State.setPc; split <;> rfl
@[simp] theorem State.setPc_eng (i : Issuer) (l : Nat) (x : W64) : (s.setPc i l x).eng = s.eng := by unfold State.setPc; split <;> rfl

/-! ### setHold -/

@[simp] theorem State.setHold_ticks (i : Issuer) (l : Nat) (h : Hold) : (s.setHold i l h).ticks = s.ticks := by unfold State.setHold; split <;> rfl
@[simp] theorem State.setHold_agenda (i : Issuer) (l : Nat) (h : Hold) : (s.setHold i l h).agenda = s.agenda := by unfold State.setHold; split <;> rfl
@[simp] theorem State.setHold_ports (i : Issuer) (l : Nat) (h : Hold) : (s.setHold i l h).ports = s.ports := by unfold State.setHold; split <;> rfl
@[simp] theorem State.setHold_cur (i : Issuer) (l : Nat) (h : Hold) : (s.setHold i l h).cur = s.cur := by unfold State.setHold; split <;> rfl
@[simp] theorem State.setHold_doom (i : Issuer) (l : Nat) (h : Hold) : (s.setHold i l h).doom = s.doom := by unfold State.setHold; split <;> rfl
@[simp] theorem State.setHold_power (i : Issuer) (l : Nat) (h : Hold) : (s.setHold i l h).power = s.power := by unfold State.setHold; split <;> rfl
@[simp] theorem State.setHold_boot (i : Issuer) (l : Nat) (h : Hold) : (s.setHold i l h).boot = s.boot := by unfold State.setHold; split <;> rfl
@[simp] theorem State.setHold_out (i : Issuer) (l : Nat) (h : Hold) : (s.setHold i l h).out = s.out := by unfold State.setHold; split <;> rfl
@[simp] theorem State.setHold_clk (i : Issuer) (l : Nat) (h : Hold) : (s.setHold i l h).clk = s.clk := by unfold State.setHold; split <;> rfl
@[simp] theorem State.setHold_ns (i : Issuer) (l : Nat) (h : Hold) : (s.setHold i l h).ns = s.ns := by unfold State.setHold; split <;> rfl
@[simp] theorem State.setHold_ctl (i : Issuer) (l : Nat) (h : Hold) : (s.setHold i l h).ctl = s.ctl := by unfold State.setHold; split <;> rfl
@[simp] theorem State.setHold_mem (i : Issuer) (l : Nat) (h : Hold) : (s.setHold i l h).mem = s.mem := by unfold State.setHold; split <;> rfl
@[simp] theorem State.setHold_xl (i : Issuer) (l : Nat) (h : Hold) : (s.setHold i l h).xl = s.xl := by unfold State.setHold; split <;> rfl
@[simp] theorem State.setHold_work (i : Issuer) (l : Nat) (h : Hold) : (s.setHold i l h).work = s.work := by unfold State.setHold; split <;> rfl
@[simp] theorem State.setHold_eng (i : Issuer) (l : Nat) (h : Hold) : (s.setHold i l h).eng = s.eng := by unfold State.setHold; split <;> rfl

/-! ### updFrame -/

@[simp] theorem State.updFrame_ticks (i : Issuer) (f : Frame → Frame) : (s.updFrame i f).ticks = s.ticks := by unfold State.updFrame; split <;> rfl
@[simp] theorem State.updFrame_agenda (i : Issuer) (f : Frame → Frame) : (s.updFrame i f).agenda = s.agenda := by unfold State.updFrame; split <;> rfl
@[simp] theorem State.updFrame_ports (i : Issuer) (f : Frame → Frame) : (s.updFrame i f).ports = s.ports := by unfold State.updFrame; split <;> rfl
@[simp] theorem State.updFrame_cur (i : Issuer) (f : Frame → Frame) : (s.updFrame i f).cur = s.cur := by unfold State.updFrame; split <;> rfl
@[simp] theorem State.updFrame_doom (i : Issuer) (f : Frame → Frame) : (s.updFrame i f).doom = s.doom := by unfold State.updFrame; split <;> rfl
@[simp] theorem State.updFrame_power (i : Issuer) (f : Frame → Frame) : (s.updFrame i f).power = s.power := by unfold State.updFrame; split <;> rfl
@[simp] theorem State.updFrame_boot (i : Issuer) (f : Frame → Frame) : (s.updFrame i f).boot = s.boot := by unfold State.updFrame; split <;> rfl
@[simp] theorem State.updFrame_out (i : Issuer) (f : Frame → Frame) : (s.updFrame i f).out = s.out := by unfold State.updFrame; split <;> rfl
@[simp] theorem State.updFrame_clk (i : Issuer) (f : Frame → Frame) : (s.updFrame i f).clk = s.clk := by unfold State.updFrame; split <;> rfl
@[simp] theorem State.updFrame_ns (i : Issuer) (f : Frame → Frame) : (s.updFrame i f).ns = s.ns := by unfold State.updFrame; split <;> rfl
@[simp] theorem State.updFrame_ctl (i : Issuer) (f : Frame → Frame) : (s.updFrame i f).ctl = s.ctl := by unfold State.updFrame; split <;> rfl
@[simp] theorem State.updFrame_mem (i : Issuer) (f : Frame → Frame) : (s.updFrame i f).mem = s.mem := by unfold State.updFrame; split <;> rfl
@[simp] theorem State.updFrame_xl (i : Issuer) (f : Frame → Frame) : (s.updFrame i f).xl = s.xl := by unfold State.updFrame; split <;> rfl
@[simp] theorem State.updFrame_work (i : Issuer) (f : Frame → Frame) : (s.updFrame i f).work = s.work := by unfold State.updFrame; split <;> rfl
@[simp] theorem State.updFrame_eng (i : Issuer) (f : Frame → Frame) : (s.updFrame i f).eng = s.eng := by unfold State.updFrame; split <;> rfl

/-! ### updBlockOf -/

@[simp] theorem State.updBlockOf_ticks (i : Issuer) (f : Block → Block) : (s.updBlockOf i f).ticks = s.ticks := by unfold State.updBlockOf; split <;> rfl
@[simp] theorem State.updBlockOf_agenda (i : Issuer) (f : Block → Block) : (s.updBlockOf i f).agenda = s.agenda := by unfold State.updBlockOf; split <;> rfl
@[simp] theorem State.updBlockOf_ports (i : Issuer) (f : Block → Block) : (s.updBlockOf i f).ports = s.ports := by unfold State.updBlockOf; split <;> rfl
@[simp] theorem State.updBlockOf_cur (i : Issuer) (f : Block → Block) : (s.updBlockOf i f).cur = s.cur := by unfold State.updBlockOf; split <;> rfl
@[simp] theorem State.updBlockOf_doom (i : Issuer) (f : Block → Block) : (s.updBlockOf i f).doom = s.doom := by unfold State.updBlockOf; split <;> rfl
@[simp] theorem State.updBlockOf_power (i : Issuer) (f : Block → Block) : (s.updBlockOf i f).power = s.power := by unfold State.updBlockOf; split <;> rfl
@[simp] theorem State.updBlockOf_boot (i : Issuer) (f : Block → Block) : (s.updBlockOf i f).boot = s.boot := by unfold State.updBlockOf; split <;> rfl
@[simp] theorem State.updBlockOf_out (i : Issuer) (f : Block → Block) : (s.updBlockOf i f).out = s.out := by unfold State.updBlockOf; split <;> rfl
@[simp] theorem State.updBlockOf_clk (i : Issuer) (f : Block → Block) : (s.updBlockOf i f).clk = s.clk := by unfold State.updBlockOf; split <;> rfl
@[simp] theorem State.updBlockOf_ns (i : Issuer) (f : Block → Block) : (s.updBlockOf i f).ns = s.ns := by unfold State.updBlockOf; split <;> rfl
@[simp] theorem State.updBlockOf_ctl (i : Issuer) (f : Block → Block) : (s.updBlockOf i f).ctl = s.ctl := by unfold State.updBlockOf; split <;> rfl
@[simp] theorem State.updBlockOf_mem (i : Issuer) (f : Block → Block) : (s.updBlockOf i f).mem = s.mem := by unfold State.updBlockOf; split <;> rfl
@[simp] theorem State.updBlockOf_xl (i : Issuer) (f : Block → Block) : (s.updBlockOf i f).xl = s.xl := by unfold State.updBlockOf; split <;> rfl
@[simp] theorem State.updBlockOf_work (i : Issuer) (f : Block → Block) : (s.updBlockOf i f).work = s.work := by unfold State.updBlockOf; split <;> rfl
@[simp] theorem State.updBlockOf_eng (i : Issuer) (f : Block → Block) : (s.updBlockOf i f).eng = s.eng := by unfold State.updBlockOf; split <;> rfl

/-! ### write1 -/

@[simp] theorem State.write1_ticks (c : Issuer) (x : PWrite) : (s.write1 c x).ticks = s.ticks := by unfold State.write1; split <;> simp
@[simp] theorem State.write1_agenda (c : Issuer) (x : PWrite) : (s.write1 c x).agenda = s.agenda := by unfold State.write1; split <;> simp
@[simp] theorem State.write1_ports (c : Issuer) (x : PWrite) : (s.write1 c x).ports = s.ports := by unfold State.write1; split <;> simp
@[simp] theorem State.write1_cur (c : Issuer) (x : PWrite) : (s.write1 c x).cur = s.cur := by unfold State.write1; split <;> simp
@[simp] theorem State.write1_doom (c : Issuer) (x : PWrite) : (s.write1 c x).doom = s.doom := by unfold State.write1; split <;> simp
@[simp] theorem State.write1_power (c : Issuer) (x : PWrite) : (s.write1 c x).power = s.power := by unfold State.write1; split <;> simp
@[simp] theorem State.write1_boot (c : Issuer) (x : PWrite) : (s.write1 c x).boot = s.boot := by unfold State.write1; split <;> simp
@[simp] theorem State.write1_out (c : Issuer) (x : PWrite) : (s.write1 c x).out = s.out := by unfold State.write1; split <;> simp
@[simp] theorem State.write1_clk (c : Issuer) (x : PWrite) : (s.write1 c x).clk = s.clk := by unfold State.write1; split <;> simp
@[simp] theorem State.write1_ns (c : Issuer) (x : PWrite) : (s.write1 c x).ns = s.ns := by unfold State.write1; split <;> simp
@[simp] theorem State.write1_ctl (c : Issuer) (x : PWrite) : (s.write1 c x).ctl = s.ctl := by unfold State.write1; split <;> simp
@[simp] theorem State.write1_mem (c : Issuer) (x : PWrite) : (s.write1 c x).mem = s.mem := by unfold State.write1; split <;> simp
@[simp] theorem State.write1_xl (c : Issuer) (x : PWrite) : (s.write1 c x).xl = s.xl := by unfold State.write1; split <;> simp
@[simp] theorem State.write1_work (c : Issuer) (x : PWrite) : (s.write1 c x).work = s.work := by unfold State.write1; split <;> simp
@[simp] theorem State.write1_eng (c : Issuer) (x : PWrite) : (s.write1 c x).eng = s.eng := by unfold State.write1; split <;> simp

/-! ### Folds -/

@[simp] theorem State.writeAll_ticks (c : Issuer) (xs : List PWrite) : (s.writeAll c xs).ticks = s.ticks := by
  unfold State.writeAll; induction xs generalizing s with | nil => rfl | cons x r ih => simp [ih]
@[simp] theorem State.writeAll_agenda (c : Issuer) (xs : List PWrite) : (s.writeAll c xs).agenda = s.agenda := by
  unfold State.writeAll; induction xs generalizing s with | nil => rfl | cons x r ih => simp [ih]
@[simp] theorem State.writeAll_ports (c : Issuer) (xs : List PWrite) : (s.writeAll c xs).ports = s.ports := by
  unfold State.writeAll; induction xs generalizing s with | nil => rfl | cons x r ih => simp [ih]
@[simp] theorem State.writeAll_cur (c : Issuer) (xs : List PWrite) : (s.writeAll c xs).cur = s.cur := by
  unfold State.writeAll; induction xs generalizing s with | nil => rfl | cons x r ih => simp [ih]
@[simp] theorem State.writeAll_doom (c : Issuer) (xs : List PWrite) : (s.writeAll c xs).doom = s.doom := by
  unfold State.writeAll; induction xs generalizing s with | nil => rfl | cons x r ih => simp [ih]
@[simp] theorem State.writeAll_power (c : Issuer) (xs : List PWrite) : (s.writeAll c xs).power = s.power := by
  unfold State.writeAll; induction xs generalizing s with | nil => rfl | cons x r ih => simp [ih]
@[simp] theorem State.writeAll_boot (c : Issuer) (xs : List PWrite) : (s.writeAll c xs).boot = s.boot := by
  unfold State.writeAll; induction xs generalizing s with | nil => rfl | cons x r ih => simp [ih]
@[simp] theorem State.writeAll_out (c : Issuer) (xs : List PWrite) : (s.writeAll c xs).out = s.out := by
  unfold State.writeAll; induction xs generalizing s with | nil => rfl | cons x r ih => simp [ih]
@[simp] theorem State.writeAll_clk (c : Issuer) (xs : List PWrite) : (s.writeAll c xs).clk = s.clk := by
  unfold State.writeAll; induction xs generalizing s with | nil => rfl | cons x r ih => simp [ih]
@[simp] theorem State.writeAll_ns (c : Issuer) (xs : List PWrite) : (s.writeAll c xs).ns = s.ns := by
  unfold State.writeAll; induction xs generalizing s with | nil => rfl | cons x r ih => simp [ih]
@[simp] theorem State.writeAll_ctl (c : Issuer) (xs : List PWrite) : (s.writeAll c xs).ctl = s.ctl := by
  unfold State.writeAll; induction xs generalizing s with | nil => rfl | cons x r ih => simp [ih]
@[simp] theorem State.writeAll_mem (c : Issuer) (xs : List PWrite) : (s.writeAll c xs).mem = s.mem := by
  unfold State.writeAll; induction xs generalizing s with | nil => rfl | cons x r ih => simp [ih]
@[simp] theorem State.writeAll_xl (c : Issuer) (xs : List PWrite) : (s.writeAll c xs).xl = s.xl := by
  unfold State.writeAll; induction xs generalizing s with | nil => rfl | cons x r ih => simp [ih]
@[simp] theorem State.writeAll_work (c : Issuer) (xs : List PWrite) : (s.writeAll c xs).work = s.work := by
  unfold State.writeAll; induction xs generalizing s with | nil => rfl | cons x r ih => simp [ih]
@[simp] theorem State.writeAll_eng (c : Issuer) (xs : List PWrite) : (s.writeAll c xs).eng = s.eng := by
  unfold State.writeAll; induction xs generalizing s with | nil => rfl | cons x r ih => simp [ih]

@[simp] theorem State.setHolds_ticks (i : Issuer) (ls : List Nat) (h : Hold) : (s.setHolds i ls h).ticks = s.ticks := by
  unfold State.setHolds; induction ls generalizing s with | nil => rfl | cons x r ih => simp [ih]
@[simp] theorem State.setHolds_agenda (i : Issuer) (ls : List Nat) (h : Hold) : (s.setHolds i ls h).agenda = s.agenda := by
  unfold State.setHolds; induction ls generalizing s with | nil => rfl | cons x r ih => simp [ih]
@[simp] theorem State.setHolds_ports (i : Issuer) (ls : List Nat) (h : Hold) : (s.setHolds i ls h).ports = s.ports := by
  unfold State.setHolds; induction ls generalizing s with | nil => rfl | cons x r ih => simp [ih]
@[simp] theorem State.setHolds_cur (i : Issuer) (ls : List Nat) (h : Hold) : (s.setHolds i ls h).cur = s.cur := by
  unfold State.setHolds; induction ls generalizing s with | nil => rfl | cons x r ih => simp [ih]
@[simp] theorem State.setHolds_doom (i : Issuer) (ls : List Nat) (h : Hold) : (s.setHolds i ls h).doom = s.doom := by
  unfold State.setHolds; induction ls generalizing s with | nil => rfl | cons x r ih => simp [ih]
@[simp] theorem State.setHolds_power (i : Issuer) (ls : List Nat) (h : Hold) : (s.setHolds i ls h).power = s.power := by
  unfold State.setHolds; induction ls generalizing s with | nil => rfl | cons x r ih => simp [ih]
@[simp] theorem State.setHolds_boot (i : Issuer) (ls : List Nat) (h : Hold) : (s.setHolds i ls h).boot = s.boot := by
  unfold State.setHolds; induction ls generalizing s with | nil => rfl | cons x r ih => simp [ih]
@[simp] theorem State.setHolds_out (i : Issuer) (ls : List Nat) (h : Hold) : (s.setHolds i ls h).out = s.out := by
  unfold State.setHolds; induction ls generalizing s with | nil => rfl | cons x r ih => simp [ih]
@[simp] theorem State.setHolds_clk (i : Issuer) (ls : List Nat) (h : Hold) : (s.setHolds i ls h).clk = s.clk := by
  unfold State.setHolds; induction ls generalizing s with | nil => rfl | cons x r ih => simp [ih]
@[simp] theorem State.setHolds_ns (i : Issuer) (ls : List Nat) (h : Hold) : (s.setHolds i ls h).ns = s.ns := by
  unfold State.setHolds; induction ls generalizing s with | nil => rfl | cons x r ih => simp [ih]
@[simp] theorem State.setHolds_ctl (i : Issuer) (ls : List Nat) (h : Hold) : (s.setHolds i ls h).ctl = s.ctl := by
  unfold State.setHolds; induction ls generalizing s with | nil => rfl | cons x r ih => simp [ih]
@[simp] theorem State.setHolds_mem (i : Issuer) (ls : List Nat) (h : Hold) : (s.setHolds i ls h).mem = s.mem := by
  unfold State.setHolds; induction ls generalizing s with | nil => rfl | cons x r ih => simp [ih]
@[simp] theorem State.setHolds_xl (i : Issuer) (ls : List Nat) (h : Hold) : (s.setHolds i ls h).xl = s.xl := by
  unfold State.setHolds; induction ls generalizing s with | nil => rfl | cons x r ih => simp [ih]
@[simp] theorem State.setHolds_work (i : Issuer) (ls : List Nat) (h : Hold) : (s.setHolds i ls h).work = s.work := by
  unfold State.setHolds; induction ls generalizing s with | nil => rfl | cons x r ih => simp [ih]
@[simp] theorem State.setHolds_eng (i : Issuer) (ls : List Nat) (h : Hold) : (s.setHolds i ls h).eng = s.eng := by
  unfold State.setHolds; induction ls generalizing s with | nil => rfl | cons x r ih => simp [ih]

/-! ### Clusters -/

@[simp] theorem State.cl_setCl_self (g : Nat) (c : Cluster) : (s.setCl g c).cl g = c := by simp [State.cl, State.setCl]
theorem State.cl_setCl_ne (g h : Nat) (c : Cluster) (n : h ≠ g) : (s.setCl g c).cl h = s.cl h := by
  simp [State.cl, State.setCl, Map.get_put_ne _ _ _ _ _ n]
@[simp] theorem State.cl_updCl_self (g : Nat) (f : Cluster → Cluster) : (s.updCl g f).cl g = f (s.cl g) := by
  simp [State.updCl]
theorem State.cl_updCl_ne (g h : Nat) (f : Cluster → Cluster) (n : h ≠ g) : (s.updCl g f).cl h = s.cl h := by
  simp [State.updCl, State.cl_setCl_ne _ _ _ _ n]

/-! ### Warps and lanes -/

@[simp] theorem State.warp_updWarp_self (g k : Nat) (f : Warp → Warp) : (s.updWarp g k f).warp g k = f (s.warp g k) := by
  simp [State.warp, State.updWarp]
theorem State.warp_updWarp_ne (g k j : Nat) (f : Warp → Warp) (n : j ≠ k) : (s.updWarp g k f).warp g j = s.warp g j := by
  simp [State.warp, State.updWarp, Map.get_put_ne _ _ _ _ _ n]
theorem State.warp_updWarp_cl (g h k j : Nat) (f : Warp → Warp) (n : h ≠ g) : (s.updWarp g k f).warp h j = s.warp h j := by
  simp [State.warp, State.updWarp, State.cl_updCl_ne _ _ _ _ n]
theorem State.warp_updWarp (g h k j : Nat) (f : Warp → Warp) :
    (s.updWarp g k f).warp h j = if h = g ∧ j = k then f (s.warp g k) else s.warp h j := by
  by_cases n : h = g
  · subst n
    by_cases m : j = k
    · subst m; simp
    · simp [m, State.warp_updWarp_ne _ _ _ _ _ m]
  · simp [n, State.warp_updWarp_cl _ _ _ _ _ _ n]

@[simp] theorem Warp.lane_updLane_self (w : Warp) (l : Nat) (f : Lane → Lane) : (w.updLane l f).lane l = f (w.lane l) := by
  simp [Warp.lane, Warp.updLane]
theorem Warp.lane_updLane_ne (w : Warp) (l m : Nat) (f : Lane → Lane) (n : m ≠ l) : (w.updLane l f).lane m = w.lane m := by
  simp [Warp.lane, Warp.updLane, Map.get_put_ne _ _ _ _ _ n]
theorem Warp.lane_updLane (w : Warp) (l m : Nat) (f : Lane → Lane) :
    (w.updLane l f).lane m = if m = l then f (w.lane l) else w.lane m := by
  split
  · subst_vars; simp
  · exact Warp.lane_updLane_ne _ _ _ _ ‹_›

/-- A lane after an update of one lane. -/
theorem State.lane_updLane (g k l h j m : Nat) (f : Lane → Lane) :
    (s.updLane g k l f).lane h j m = if h = g ∧ j = k ∧ m = l then f (s.lane g k l) else s.lane h j m := by
  unfold State.updLane State.lane
  rw [State.warp_updWarp]
  split
  · rename_i n; obtain ⟨rfl, rfl⟩ := n; rw [Warp.lane_updLane]; simp
  · rename_i n; rw [if_neg]; intro ⟨a, b, _⟩; exact n ⟨a, b⟩

/-- A fold of updates of different lanes updates each once. -/
theorem Warp.lane_foldl (ls : List Nat) (f : Nat → Lane → Lane) (hn : ls.Nodup) (w : Warp) (m : Nat) :
    (ls.foldl (fun w l => w.updLane l (f l)) w).lane m = if m ∈ ls then f m (w.lane m) else w.lane m := by
  induction ls generalizing w with
  | nil => simp
  | cons l r ih =>
    rw [List.nodup_cons] at hn
    rw [List.foldl_cons, ih hn.2, Warp.lane_updLane]
    by_cases h : m = l
    · subst h; simp [hn.1]
    · simp [h]

@[simp] theorem State.w_updLane (g k l h j r : Nat) (f : Lane → Lane) : (s.updLane g k l f).w h j r = s.w h j r := by
  unfold State.w State.updLane
  rw [State.warp_updWarp]
  split
  · rename_i n; obtain ⟨rfl, rfl⟩ := n; rfl
  · rfl

/-! ### Spine contexts, sequencers, blocks -/

theorem State.spine_updSpine (g h k j : Nat) (f : Spine → Spine) :
    (s.updSpine g k f).spine h j = if h = g ∧ j = k then f (s.spine g k) else s.spine h j := by
  unfold State.spine State.updSpine
  by_cases n : h = g
  · subst n
    by_cases m : j = k
    · subst m; simp
    · simp [m, Map.get_put_ne _ _ _ _ _ m]
  · simp [n, State.cl_updCl_ne _ _ _ _ n]

@[simp] theorem State.seqr_updSeqr_self (g : Nat) (b : Bool) (f : Seqr → Seqr) :
    (s.updSeqr g b f).seqr g b = f (s.seqr g b) := by
  cases b <;> simp [State.seqr, State.updSeqr]
@[simp] theorem State.seqr_updSeqr_other (g : Nat) (b : Bool) (f : Seqr → Seqr) :
    (s.updSeqr g b f).seqr g (!b) = s.seqr g (!b) := by
  cases b <;> simp [State.seqr, State.updSeqr]
theorem State.seqr_updSeqr_ne (g h : Nat) (b c : Bool) (f : Seqr → Seqr) (n : h ≠ g) :
    (s.updSeqr g b f).seqr h c = s.seqr h c := by
  simp [State.seqr, State.updSeqr, State.cl_updCl_ne _ _ _ _ n]

theorem State.block_updBlock (g h b c : Nat) (f : Block → Block) :
    (s.updBlock g b f).block h c = if h = g ∧ c = b then f (s.block g b) else s.block h c := by
  unfold State.block State.updBlock
  by_cases n : h = g
  · subst n
    by_cases m : c = b
    · subst m; simp
    · simp [m, Map.get_put_ne _ _ _ _ _ m]
  · simp [n, State.cl_updCl_ne _ _ _ _ n]

/-! ### Registers -/

/-- A v register after a write of one. -/
theorem State.v_setV (g k l r h j m q : Nat) (x : W32) :
    (s.setV g k l r x).v h j m q = if h = g ∧ j = k ∧ m = l ∧ q = r then x else s.v h j m q := by
  unfold State.v State.setV
  rw [State.lane_updLane]
  by_cases n : h = g ∧ j = k ∧ m = l
  · obtain ⟨rfl, rfl, rfl⟩ := n; simp [Map.get_put]
  · rw [if_neg n, if_neg]; intro ⟨a, b, c, _⟩; exact n ⟨a, b, c⟩

@[simp] theorem State.v_setW (g k r h j m q : Nat) (x : W32) : (s.setW g k r x).v h j m q = s.v h j m q := by
  unfold State.v State.lane State.setW
  rw [State.warp_updWarp]
  split
  · rename_i n; obtain ⟨rfl, rfl⟩ := n; rfl
  · rfl

/-- A w register after a write of one. -/
theorem State.w_setW (g k r h j q : Nat) (x : W32) :
    (s.setW g k r x).w h j q = if h = g ∧ j = k ∧ q = r then x else s.w h j q := by
  unfold State.w State.setW
  rw [State.warp_updWarp]
  by_cases n : h = g ∧ j = k
  · obtain ⟨rfl, rfl⟩ := n; simp [Map.get_put]
  · rw [if_neg n, if_neg]; intro ⟨a, b, _⟩; exact n ⟨a, b⟩

@[simp] theorem State.w_setV (g k l r h j q : Nat) (x : W32) : (s.setV g k l r x).w h j q = s.w h j q := by
  simp [State.setV]

/-- An s register after a write of one; s0 stays zero (R79). -/
theorem State.sreg_setS (g k r h j q : Nat) (x : W64) :
    (s.setS g k r x).sreg h j q = if q = 0 then 0 else if h = g ∧ j = k ∧ q = r then x else s.sreg h j q := by
  unfold State.setS
  by_cases hr : r = 0
  · subst hr
    rw [if_pos rfl]
    by_cases hq : q = 0 <;> simp [hq, State.sreg]
  · rw [if_neg hr]
    unfold State.sreg
    rw [State.spine_updSpine]
    by_cases hq : q = 0
    · simp [hq]
    · simp only [hq, if_false]
      by_cases n : h = g ∧ j = k
      · obtain ⟨rfl, rfl⟩ := n; simp [Map.get_put]
      · rw [if_neg n, if_neg]; intro ⟨a, b, _⟩; exact n ⟨a, b⟩

/-- An e register after a write of one. -/
theorem State.ereg_setE (g : Nat) (b : Bool) (r q : Nat) (x : W64) :
    (s.setE g b r x).ereg g b q = if q = r then x else s.ereg g b q := by
  unfold State.ereg State.setE
  rw [State.seqr_updSeqr_self]
  simp [Map.get_put]

/-- Predicate k after a write of one bit. -/
theorem getLsbD_setBit {n : Nat} (x : BitVec n) (k j : Nat) (b : Bool) (hj : j < n) :
    (setBit x k b).getLsbD j = if j = k then b else x.getLsbD j := by
  unfold setBit
  cases b
  · simp only [Bool.false_eq_true, if_false, BitVec.getLsbD_and, BitVec.getLsbD_not, BitVec.getLsbD_shiftLeft]
    by_cases h : j = k
    · subst h; simp [hj]; intro _; omega
    · by_cases l : j < k
      · simp [h, hj, l]
      · have : j - k ≠ 0 := by omega
        simp [h, hj, l, BitVec.getLsbD_one, this]
  · simp only [if_true, BitVec.getLsbD_or, BitVec.getLsbD_shiftLeft]
    by_cases h : j = k
    · subst h; simp [hj]; omega
    · by_cases l : j < k
      · simp [h, hj, l]
      · have : j - k ≠ 0 := by omega
        simp [h, hj, l, BitVec.getLsbD_one, this]

end Sys2Proof.Machine
end

