-- ==== Sys2Proof/Laws/Issue.lean ====
section
/-! SUPPORT. What one issue of an instruction does: past the checks it is its body and the advance; and the frames of its
register writes, flags and advance. -/

-- One declaration after another: a thread for each proof would need more address space than a check gives.
set_option Elab.async false

namespace Sys2Proof.Machine

variable {s t u : State} {c : Issuer}

/-! ### The frame relation -/

theorem Untouched.refl (s : State) (c : Issuer) : Untouched s s c where
  package := rfl
  others _ _ := rfl
  cluster := rfl
  blocks _ := rfl
  warps _ _ := rfl
  warp := rfl
  lanes _ := rfl
  spines _ _ := rfl
  spine := rfl
  mseq _ := rfl
  mseqRest := rfl
  cseq _ := rfl
  cseqRest := rfl

theorem Untouched.trans (h : Untouched s t c) (k : Untouched t u c) : Untouched s u c where
  package := k.package.trans h.package
  others g n := (k.others g n).trans (h.others g n)
  cluster := k.cluster.trans h.cluster
  blocks b := (k.blocks b).trans (h.blocks b)
  warps j n := (k.warps j n).trans (h.warps j n)
  warp := k.warp.trans h.warp
  lanes l := (k.lanes l).trans (h.lanes l)
  spines j n := (k.spines j n).trans (h.spines j n)
  spine := k.spine.trans h.spine
  mseq n := (k.mseq n).trans (h.mseq n)
  mseqRest := k.mseqRest.trans h.mseqRest
  cseq n := (k.cseq n).trans (h.cseq n)
  cseqRest := k.cseqRest.trans h.cseqRest

/-- All of memory stands as it did. -/
theorem Untouched.mem (h : Untouched s t c) : t.mem = s.mem := by
  have := congrArg State.mem h.package; exact this

theorem untouched_updWarp (hu : c.unit = .lane) (f : Warp → Warp) (hf : ∀ w, (f w).rest = w.rest)
    (hl : ∀ w l, ((f w).lane l).rest = (w.lane l).rest) : Untouched s (s.updWarp c.g c.slot f) c where
  package := rfl
  others g n := by unfold State.updWarp; exact State.cl_updCl_ne _ _ _ _ n
  cluster := by unfold State.updWarp; simp [Cluster.rest]
  blocks b := by unfold State.updWarp State.block; simp
  warps k n := State.warp_updWarp_ne _ _ _ _ _ (by simpa [hu] using n)
  warp := by simp [hf]
  lanes l := by unfold State.lane; simp [hl]
  spines k n := by unfold State.updWarp State.spine; simp
  spine := by unfold State.updWarp State.spine; simp
  mseq _ := by unfold State.updWarp; simp
  mseqRest := by unfold State.updWarp; simp
  cseq _ := by unfold State.updWarp; simp
  cseqRest := by unfold State.updWarp; simp

theorem untouched_updLane (hu : c.unit = .lane) (l : Nat) (f : Lane → Lane) (hf : ∀ x, (f x).rest = x.rest) :
    Untouched s (s.updLane c.g c.slot l f) c := by
  unfold State.updLane
  apply untouched_updWarp hu
  · intro w; rfl
  · intro w m
    rw [Warp.lane_updLane]
    split
    · subst_vars; exact hf _
    · rfl

theorem untouched_updSpine (hu : c.unit = .spine) (f : Spine → Spine) (hf : ∀ x, (f x).rest = x.rest) :
    Untouched s (s.updSpine c.g c.slot f) c where
  package := rfl
  others g n := by unfold State.updSpine; exact State.cl_updCl_ne _ _ _ _ n
  cluster := by unfold State.updSpine; simp [Cluster.rest]
  blocks b := by unfold State.updSpine State.block; simp
  warps k n := by unfold State.updSpine State.warp; simp
  warp := by unfold State.updSpine State.warp; simp
  lanes l := by unfold State.updSpine State.lane State.warp; simp
  spines k n := by
    rw [State.spine_updSpine, if_neg]; simp [hu] at n; simp [n]
  spine := by rw [State.spine_updSpine]; simp [hf]
  mseq _ := by unfold State.updSpine; simp
  mseqRest := by unfold State.updSpine; simp
  cseq _ := by unfold State.updSpine; simp
  cseqRest := by unfold State.updSpine; simp

theorem untouched_updSeqr (b : Bool) (hu : c.unit = if b then .cseq else .mseq) (f : Seqr → Seqr)
    (hf : ∀ x, (f x).rest = x.rest) : Untouched s (s.updSeqr c.g b f) c where
  package := rfl
  others g n := by unfold State.updSeqr; exact State.cl_updCl_ne _ _ _ _ n
  cluster := by unfold State.updSeqr; cases b <;> simp [Cluster.rest]
  blocks k := by unfold State.updSeqr State.block; cases b <;> simp
  warps k n := by unfold State.updSeqr State.warp; cases b <;> simp
  warp := by unfold State.updSeqr State.warp; cases b <;> simp
  lanes l := by unfold State.updSeqr State.lane State.warp; cases b <;> simp
  spines k n := by unfold State.updSeqr State.spine; cases b <;> simp
  spine := by unfold State.updSeqr State.spine; cases b <;> simp
  mseq n := by unfold State.updSeqr; cases b <;> simp_all
  mseqRest := by unfold State.updSeqr; cases b <;> simp [hf]
  cseq n := by unfold State.updSeqr; cases b <;> simp_all
  cseqRest := by unfold State.updSeqr; cases b <;> simp [hf]

theorem untouched_updBlock (b : Nat) (f : Block → Block) (hf : ∀ x, (f x).rest = x.rest) :
    Untouched s (s.updBlock c.g b f) c where
  package := rfl
  others g n := by unfold State.updBlock; exact State.cl_updCl_ne _ _ _ _ n
  cluster := by unfold State.updBlock; simp [Cluster.rest]
  blocks k := by
    rw [State.block_updBlock]
    split
    · rename_i h; rw [h.2]; exact hf _
    · rfl
  warps k n := by unfold State.updBlock State.warp; simp
  warp := by unfold State.updBlock State.warp; simp
  lanes l := by unfold State.updBlock State.lane State.warp; simp
  spines k n := by unfold State.updBlock State.spine; simp
  spine := by unfold State.updBlock State.spine; simp
  mseq _ := by unfold State.updBlock; simp
  mseqRest := by unfold State.updBlock; simp
  cseq _ := by unfold State.updBlock; simp
  cseqRest := by unfold State.updBlock; simp

/-- A party that fetches instructions. -/
abbrev Issuer.runs (c : Issuer) : Prop := c.unit = .lane ∨ c.unit = .spine ∨ c.unit = .mseq ∨ c.unit = .cseq

theorem untouched_setPc (h : c.runs) (l : Nat) (pc : W64) : Untouched s (s.setPc c l pc) c := by
  unfold State.setPc
  rcases h with h | h | h | h <;> rw [h]
  · exact untouched_updLane h _ _ (fun _ => rfl)
  · exact untouched_updSpine h _ (fun _ => rfl)
  · exact untouched_updSeqr false h _ (fun _ => rfl)
  · exact untouched_updSeqr true h _ (fun _ => rfl)

theorem untouched_setHold (h : c.runs) (l : Nat) (x : Hold) : Untouched s (s.setHold c l x) c := by
  unfold State.setHold
  rcases h with h | h | h | h <;> rw [h]
  · exact untouched_updLane h _ _ (fun _ => rfl)
  · exact untouched_updSpine h _ (fun _ => rfl)
  · exact untouched_updSeqr false h _ (fun _ => rfl)
  · exact untouched_updSeqr true h _ (fun _ => rfl)

theorem untouched_setPred (h : c.runs) (l k : Nat) (b : Bool) : Untouched s (s.setPred c l k b) c := by
  unfold State.setPred
  rcases h with h | h | h | h <;> rw [h]
  · exact untouched_updLane h _ _ (fun _ => rfl)
  · exact untouched_updSpine h _ (fun _ => rfl)
  · exact untouched_updSeqr false h _ (fun _ => rfl)
  · exact untouched_updSeqr true h _ (fun _ => rfl)

/-! ### Register writes -/

/-- A write goes to a file of the party. -/
def PWrite.fits (x : PWrite) (c : Issuer) : Prop :=
  match x.file with
  | .v | .w => c.unit = .lane
  | .s => c.unit = .spine
  | .e => c.isSeq = true
  | _ => c.runs

theorem untouched_write1 (x : PWrite) (h : x.fits c) : Untouched s (s.write1 c x) c := by
  unfold PWrite.fits at h
  unfold State.write1
  split <;> simp_all only
  · exact untouched_updLane h _ _ (fun _ => rfl)
  · exact untouched_updWarp h _ (fun _ => rfl) (fun _ _ => rfl)
  · unfold State.setS
    split
    · exact Untouched.refl _ _
    · exact untouched_updSpine h _ (fun _ => rfl)
  · unfold State.setE Issuer.isCopy
    unfold Issuer.isSeq at h
    simp only [Bool.or_eq_true, decide_eq_true_eq] at h
    rcases h with h | h <;> rw [h]
    · exact untouched_updSeqr false h _ (fun _ => rfl)
    · exact untouched_updSeqr true h _ (fun _ => rfl)
  · exact untouched_setPred h _ _ _
  · exact Untouched.refl _ _

theorem untouched_writeAll (xs : List PWrite) (h : ∀ x ∈ xs, x.fits c) : Untouched s (s.writeAll c xs) c := by
  unfold State.writeAll
  induction xs generalizing s with
  | nil => exact Untouched.refl _ _
  | cons x r ih =>
    simp only [List.foldl_cons]
    exact (untouched_write1 x (h x (by simp))).trans (ih (fun y m => h y (by simp [m])))

theorem untouched_orFlags (f : Flags) : Untouched s (s.orFlags c f) c := by
  unfold State.orFlags
  split
  · exact Untouched.refl _ _
  · split
    · rename_i h
      have hu : c.unit = .lane := by
        unfold State.waveOf at h
        cases hc : c.unit <;> simp [hc] at h ⊢
      apply untouched_updWarp hu
      · intro w; unfold Warp.rest; cases w.wave <;> rfl
      · intro w l; rfl
    · unfold State.updBlockOf
      split
      · exact untouched_updBlock _ _ (fun _ => rfl)
      · exact Untouched.refl _ _

/-! ### The issue of an instruction -/

/-- No lane of an issuing operation stands at the implicit switch point (R98). -/
theorem Issues.passes {i : Instr} {o : Ops} {hz : Issuer → Nat → List RegUse} {ls : List Nat} {pv : PegVals}
    (h : Issues s i o hz ls u pv) :
    (if varLat i (uses s.cur.code i) = true then s.implicitSwitch s.cur ls else (s, s.cur)) = (s, s.cur) := by
  split
  · rename_i hv
    unfold State.implicitSwitch
    split
    · rename_i hu
      have : ls.filter (fun l => decide (8 ≤ (s.warp s.cur.g s.cur.slot).pendCount l)) = [] := by
        rw [List.filter_eq_nil_iff]
        intro l hl
        have := h.room hv hu l hl
        simp; omega
      rw [this]
    · rfl
  · rfl

/-- What an issue does once every check has passed. -/
theorem State.issueW_body {i : Instr} {o : Ops} {hz : Issuer → Nat → List RegUse} {ls : List Nat} {pv : PegVals}
    (h : Issues s i o hz ls u pv) (body : State → Issuer → Ops → PegVals → List Nat → Eff) :
    s.issueW i hz body = match body u s.cur o pv ls with
      | .go t keep => t.finish s.cur o.sw ls o.form.bytes keep
      | .again t rest => t.finish s.cur o.sw (ls.filter (fun l => !rest.contains l)) o.form.bytes rest
      | .fail f => s.raise s.cur f := by
  unfold State.issueW
  simp only [h.ops, h.early, h.active, h.passes, h.pegs]
  cases ls with
  | nil => exact absurd rfl h.some_
  | cons l r => simp only [h.hazard] <;> cases body u s.cur o pv (l :: r) <;> rfl

/-- An operation that issues is its body in its active places, and the advance of what the body has not placed. -/
theorem State.issueW_go {i : Instr} {o : Ops} {hz : Issuer → Nat → List RegUse} {ls : List Nat} {pv : PegVals}
    (h : Issues s i o hz ls u pv) (body : State → Issuer → Ops → PegVals → List Nat → Eff) {keep : List Nat}
    (hb : body u s.cur o pv ls = .go t keep) :
    s.issueW i hz body = t.finish s.cur o.sw ls o.form.bytes keep := by
  rw [State.issueW_body h, hb]

/-- A body that fails raises its cause in the whole group (R293). -/
theorem State.issueW_fail {i : Instr} {o : Ops} {hz : Issuer → Nat → List RegUse} {ls : List Nat} {pv : PegVals}
    (h : Issues s i o hz ls u pv) (body : State → Issuer → Ops → PegVals → List Nat → Eff) {f : Fail}
    (hb : body u s.cur o pv ls = .fail f) : s.issueW i hz body = s.raise s.cur f := by
  rw [State.issueW_body h, hb]

end Sys2Proof.Machine
end

