-- ==== Sys2Proof/Laws/Finish.lean ====
section
/-! SUPPORT. Reads of registers, PCs and holds after the writes of a party, and the advance that ends an issue. -/

-- One declaration after another: a thread for each proof would need more address space than a check gives.
set_option Elab.async false

namespace Sys2Proof.Machine

variable {s t u : State} {c : Issuer}

/-! ### What each update leaves of a party -/

theorem pcOf_updBlock (s : State) (b : Nat) (f : Block → Block) (c : Issuer) (l : Nat) : (s.updBlock c.g b f).pcOf c l = s.pcOf c l := by
  unfold State.pcOf State.updBlock State.lane State.warp State.spine
  cases c.unit <;> simp
theorem holdOf_updBlock (s : State) (b : Nat) (f : Block → Block) (c : Issuer) (l : Nat) : (s.updBlock c.g b f).holdOf c l = s.holdOf c l := by
  unfold State.holdOf State.updBlock State.lane State.warp State.spine
  cases c.unit <;> simp
theorem stands_updBlock (s : State) (b : Nat) (f : Block → Block) (c : Issuer) (l : Nat) : (s.updBlock c.g b f).stands c l = s.stands c l := by
  unfold State.stands State.updBlock State.lane State.warp State.spine State.seqr
  cases c.unit <;> simp
theorem reads_updBlock (s : State) (b : Nat) (g : Block → Block) (c : Issuer) (f : RFile) (r l : Nat) :
    (s.updBlock c.g b g).reads c f r l = s.reads c f r l := by
  unfold State.reads State.v State.w State.sreg State.ereg State.pred State.updBlock State.lane State.warp State.spine State.seqr
  cases f <;> cases c.unit <;> simp

/-- What a party stands at and holds in registers is the same in two states. -/
structure SameParty (s t : State) (c : Issuer) : Prop where
  pc : ∀ l, t.pcOf c l = s.pcOf c l
  hold : ∀ l, t.holdOf c l = s.holdOf c l
  stands : ∀ l, t.stands c l = s.stands c l
  reads : ∀ f r l, t.reads c f r l = s.reads c f r l

theorem SameParty.refl (s : State) (c : Issuer) : SameParty s s c := ⟨fun _ => rfl, fun _ => rfl, fun _ => rfl, fun _ _ _ => rfl⟩
theorem SameParty.trans (h : SameParty s t c) (k : SameParty t u c) : SameParty s u c :=
  ⟨fun l => (k.pc l).trans (h.pc l), fun l => (k.hold l).trans (h.hold l), fun l => (k.stands l).trans (h.stands l),
   fun f r l => (k.reads f r l).trans (h.reads f r l)⟩

theorem sameParty_updBlock (b : Nat) (f : Block → Block) : SameParty s (s.updBlock c.g b f) c :=
  ⟨pcOf_updBlock s b f c, holdOf_updBlock s b f c, stands_updBlock s b f c, reads_updBlock s b f c⟩

/-- An update of a warp that keeps its lanes and w registers keeps what its parties see. -/
theorem sameParty_updWarp (f : Warp → Warp) (hl : ∀ w, (f w).lanes = w.lanes) (hw : ∀ w, (f w).w = w.w) :
    SameParty s (s.updWarp c.g c.slot f) c := by
  have lane : ∀ l, (s.updWarp c.g c.slot f).lane c.g c.slot l = s.lane c.g c.slot l := by
    intro l; unfold State.lane Warp.lane; simp [hl]
  have sp : ∀ k, (s.updWarp c.g c.slot f).spine c.g k = s.spine c.g k := by
    intro k; unfold State.spine State.updWarp; simp
  have m : ((s.updWarp c.g c.slot f).cl c.g).mseq = (s.cl c.g).mseq := by unfold State.updWarp; simp
  have q : ((s.updWarp c.g c.slot f).cl c.g).cseq = (s.cl c.g).cseq := by unfold State.updWarp; simp
  refine ⟨?_, ?_, ?_, ?_⟩
  · intro l; unfold State.pcOf; simp [lane, sp, m, q]
  · intro l; unfold State.holdOf; simp [lane, sp, m, q]
  · intro l; unfold State.stands State.seqr; simp [lane, sp, m, q]
  · intro g r l
    unfold State.reads State.v State.w State.sreg State.ereg State.pred State.seqr
    simp [lane, sp, m, q, hw]

theorem sameParty_orFlags (f : Flags) : SameParty s (s.orFlags c f) c := by
  unfold State.orFlags
  split
  · exact SameParty.refl _ _
  · split
    · exact sameParty_updWarp _ (fun _ => rfl) (fun _ => rfl)
    · unfold State.updBlockOf
      split
      · exact sameParty_updBlock _ _
      · exact SameParty.refl _ _

/-! ### Register writes -/

/-- An update of a lane that keeps its v registers keeps every register but predicates. -/
theorem reads_updLane (k : Nat) (F : Lane → Lane) (hF : ∀ x, (F x).v = x.v) (f : RFile) (hf : f ≠ .p) (r l : Nat) :
    (s.updLane c.g c.slot k F).reads c f r l = s.reads c f r l := by
  cases f
  · simp only [State.reads, State.v, State.lane_updLane]
    by_cases m : l = k
    · subst m; simp [hF]
    · simp [m]
  · simp [State.reads]
  · simp [State.reads, State.sreg, State.spine, State.updLane, State.updWarp]
  · simp [State.reads, State.ereg, State.seqr, State.updLane, State.updWarp]
  · exact absurd rfl hf
  · rfl

/-- An update of a context that keeps its s registers keeps every register but predicates. -/
theorem reads_updSpine (F : Spine → Spine) (hF : ∀ x, (F x).s = x.s) (f : RFile) (hf : f ≠ .p) (r l : Nat) :
    (s.updSpine c.g c.slot F).reads c f r l = s.reads c f r l := by
  cases f
  · simp [State.reads, State.v, State.lane, State.warp, State.updSpine]
  · simp [State.reads, State.w, State.warp, State.updSpine]
  · simp [State.reads, State.sreg, State.spine_updSpine, hF]
  · simp [State.reads, State.ereg, State.seqr, State.updSpine]
  · exact absurd rfl hf
  · rfl

/-- An update of a sequencer that keeps its e registers keeps every register but predicates. -/
theorem reads_updSeqr (b : Bool) (F : Seqr → Seqr) (hF : ∀ x, (F x).e = x.e) (f : RFile) (hf : f ≠ .p) (r l : Nat) :
    (s.updSeqr c.g b F).reads c f r l = s.reads c f r l := by
  cases f
  · cases b <;> simp [State.reads, State.v, State.lane, State.warp, State.updSeqr]
  · cases b <;> simp [State.reads, State.w, State.warp, State.updSeqr]
  · cases b <;> simp [State.reads, State.sreg, State.spine, State.updSeqr]
  · cases b <;> simp only [State.reads, State.ereg, State.seqr, State.updSeqr, Bool.false_eq_true, if_true, if_false,
      State.cl_updCl_self] <;> split <;> simp [hF]
  · exact absurd rfl hf
  · rfl

/-- A v register after a write of one, and every other register. -/
theorem reads_setV (k n : Nat) (x : W32) (f : RFile) (r l : Nat) :
    (s.setV c.g c.slot k n x).reads c f r l = if f = .v ∧ l = k ∧ r = n then x.setWidth 64 else s.reads c f r l := by
  cases f
  · simp only [State.reads, State.v_setV]
    by_cases h : l = k ∧ r = n <;> simp [h]
  · simp [State.reads]
  · simp [State.reads, State.setV, State.sreg, State.spine, State.updLane, State.updWarp]
  · simp [State.reads, State.setV, State.ereg, State.seqr, State.updLane, State.updWarp]
  · have h : (s.setV c.g c.slot k n x).pred c l r = s.pred c l r := by
      unfold State.pred
      split
      · simp only [State.setV, State.lane_updLane]
        by_cases m : l = k
        · subst m; simp
        · simp [m]
      all_goals simp [State.setV, State.spine, State.updLane, State.updWarp]
    simp [State.reads, h]
  · rfl

/-- A w register after a write of one, and every other register. -/
theorem reads_setW (n : Nat) (x : W32) (f : RFile) (r l : Nat) :
    (s.setW c.g c.slot n x).reads c f r l = if f = .w ∧ r = n then x.setWidth 64 else s.reads c f r l := by
  cases f
  · simp [State.reads]
  · simp only [State.reads, State.w_setW]
    by_cases h : r = n <;> simp [h]
  · simp [State.reads, State.setW, State.sreg, State.spine, State.updWarp]
  · simp [State.reads, State.setW, State.ereg, State.seqr, State.updWarp]
  · have e : (s.setW c.g c.slot n x).lane c.g c.slot l = s.lane c.g c.slot l := by
      unfold State.setW State.lane
      rw [State.warp_updWarp_self]
      rfl
    have h : (s.setW c.g c.slot n x).pred c l r = s.pred c l r := by
      unfold State.pred
      rw [e]
      split <;> simp [State.setW, State.spine, State.updWarp]
    simp [State.reads, h]
  · rfl

/-- An s register after a write of one, and every other register. -/
theorem reads_setS (n : Nat) (x : W64) (f : RFile) (r l : Nat) :
    (s.setS c.g c.slot n x).reads c f r l
      = if f = .s ∧ r = n then (if n = 0 then 0 else x) else s.reads c f r l := by
  by_cases h : f = .s
  · subst h
    simp only [State.reads, State.sreg_setS]
    by_cases h : r = n
    · subst h; simp
    · by_cases z : r = 0 <;> simp [h, z, State.sreg]
      intro a b; exact absurd a.symm b
  · have e : (s.setS c.g c.slot n x).reads c f r l = s.reads c f r l := by
      unfold State.setS
      split
      · rfl
      · cases f
        · simp [State.reads, State.v, State.lane, State.warp, State.updSpine]
        · simp [State.reads, State.w, State.warp, State.updSpine]
        · exact absurd rfl h
        · simp [State.reads, State.ereg, State.seqr, State.updSpine]
        · rename_i hn
          have q : (s.updSpine c.g c.slot (fun k => { k with s := k.s.put n x })).pred c l r = s.pred c l r := by
            unfold State.pred
            split
            · simp [State.lane, State.warp, State.updSpine]
            · simp [State.spine_updSpine]
            all_goals simp [State.updSpine]
          simp [State.reads, q]
        · rfl
    rw [e]; simp [h]

/-- An e register after a write of one, and every other register. -/
theorem reads_setE (n : Nat) (x : W64) (f : RFile) (r l : Nat) :
    (s.setE c.g c.isCopy n x).reads c f r l = if f = .e ∧ r = n then x else s.reads c f r l := by
  by_cases h : f = .e
  · subst h
    simp only [State.reads, State.ereg_setE]
    by_cases h : r = n <;> simp [h]
  · have e : (s.setE c.g c.isCopy n x).reads c f r l = s.reads c f r l := by
      unfold State.setE
      generalize c.isCopy = b
      cases f
      · cases b <;> simp [State.reads, State.v, State.lane, State.warp, State.updSeqr]
      · cases b <;> simp [State.reads, State.w, State.warp, State.updSeqr]
      · cases b <;> simp [State.reads, State.sreg, State.spine, State.updSeqr]
      · exact absurd rfl h
      · have q : (s.updSeqr c.g b (fun k => { k with e := k.e.put n x })).pred c l r = s.pred c l r := by
          unfold State.pred
          split <;> cases b <;> simp [State.lane, State.warp, State.spine, State.updSeqr]
        simp [State.reads, q]
      · rfl
    rw [e]; simp [h]

/-- A predicate after a write of one, and every other register. -/
theorem reads_setPred (hc : c.runs) (k n : Nat) (b : Bool) (f : RFile) (r l : Nat) (hr : hasReg c f r) :
    (s.setPred c k n b).reads c f r l
      = if f = .p ∧ (l = k ∨ c.unit ≠ .lane) ∧ r = n then (if b then 1 else 0) else s.reads c f r l := by
  by_cases h : f = .p
  · subst h
    unfold hasReg at hr
    simp only at hr
    rcases hc with h | h | h | h
    · have hr' : r < 16 := by simpa [h, Issuer.isSeq] using hr
      simp only [State.reads, State.setPred, State.pred, h, State.lane_updLane]
      by_cases m : l = k
      · subst m
        simp only [true_and, and_self, if_true, getLsbD_setBit _ _ _ _ hr']
        by_cases z : r = n <;> simp [z]
      · simp [m]
    · have hr' : r < 16 := by simpa [h, Issuer.isSeq] using hr
      simp only [State.reads, State.setPred, State.pred, h, State.spine_updSpine, true_and, and_self, if_true,
        getLsbD_setBit _ _ _ _ hr']
      by_cases z : r = n <;> simp [z]
    · have hr' : r < 4 := by simpa [h, Issuer.isSeq] using hr
      have q : ∀ F, ((s.updSeqr c.g false F).cl c.g).mseq = F (s.cl c.g).mseq := by intro F; simp [State.updSeqr]
      simp only [State.reads, State.setPred, State.pred, h, q, getLsbD_setBit _ _ _ _ hr']
      by_cases z : r = n <;> simp [z]
    · have hr' : r < 4 := by simpa [h, Issuer.isSeq] using hr
      have q : ∀ F, ((s.updSeqr c.g true F).cl c.g).cseq = F (s.cl c.g).cseq := by intro F; simp [State.updSeqr]
      simp only [State.reads, State.setPred, State.pred, h, q, getLsbD_setBit _ _ _ _ hr']
      by_cases z : r = n <;> simp [z]
  · have e : (s.setPred c k n b).reads c f r l = s.reads c f r l := by
      unfold State.setPred
      rcases hc with u | u | u | u <;> simp only [u]
      · rw [reads_updLane k _ _ f h]; intro x; rfl
      · rw [reads_updSpine _ _ f h]; intro x; rfl
      · rw [reads_updSeqr false _ _ f h]; intro x; rfl
      · rw [reads_updSeqr true _ _ f h]; intro x; rfl
    rw [e]; simp [h]

/-- A party's register after one write. -/
theorem reads_write1 (x : PWrite) (hx : x.fits c) (f : RFile) (r l : Nat) (hr : hasReg c f r) :
    (s.write1 c x).reads c f r l = if x.hits c f r l then x.value else s.reads c f r l := by
  obtain ⟨xl, xf, xi, xv⟩ := x
  unfold PWrite.fits at hx
  cases xf <;> simp only at hx
  · simp only [State.write1, reads_setV, PWrite.hits, PWrite.value, decide_eq_true_eq]
    by_cases h : f = .v
    · subst h; simp [and_comm]
    · simp [h]
  · simp only [State.write1, reads_setW, PWrite.hits, PWrite.value, decide_eq_true_eq]
    by_cases h : f = .w
    · subst h; simp
    · simp [h]
  · simp only [State.write1, reads_setS, PWrite.hits, PWrite.value, decide_eq_true_eq]
    by_cases h : f = .s
    · subst h; simp
    · simp [h]
  · simp only [State.write1, reads_setE, PWrite.hits, PWrite.value, decide_eq_true_eq]
    by_cases h : f = .e
    · subst h; simp
    · simp [h]
  · simp only [State.write1, reads_setPred hx _ _ _ _ _ _ hr, PWrite.hits, PWrite.value, decide_eq_true_eq]
    by_cases h : f = .p
    · subst h
      by_cases u : c.unit = .lane
      · simp [u, and_comm]
      · simp [u]
    · simp [h]
  · simp only [State.write1, PWrite.hits, PWrite.value, decide_eq_true_eq]
    split
    · rename_i h; rw [h.1]; rfl
    · rfl

/-- A party's register after some writes. -/
theorem reads_writeAll (xs : List PWrite) (hx : ∀ x ∈ xs, x.fits c) (f : RFile) (r l : Nat) (hr : hasReg c f r) :
    (s.writeAll c xs).reads c f r l = afterWrites xs c f r l (s.reads c f r l) := by
  unfold State.writeAll afterWrites
  induction xs generalizing s with
  | nil => rfl
  | cons x r' ih =>
    simp only [List.foldl_cons]
    rw [ih (fun y m => hx y (by simp [m])), reads_write1 x (hx x (by simp)) f r l hr]

/-! ### PCs and holds -/

theorem pcOf_setPc (hc : c.runs) (l m : Nat) (pc : W64) :
    (s.setPc c l pc).pcOf c m = if m = l ∨ c.unit ≠ .lane then pc else s.pcOf c m := by
  unfold State.setPc State.pcOf
  rcases hc with h | h | h | h <;> simp only [h]
  · rw [State.lane_updLane]
    by_cases e : m = l
    · subst e; simp
    · simp [e]
  · rw [State.spine_updSpine]; simp
  · simp [State.updSeqr]
  · simp [State.updSeqr]

theorem holdOf_setPc (hc : c.runs) (l m : Nat) (pc : W64) : (s.setPc c l pc).holdOf c m = s.holdOf c m := by
  unfold State.setPc State.holdOf
  rcases hc with h | h | h | h <;> simp only [h]
  · rw [State.lane_updLane]
    by_cases e : m = l
    · subst e; simp
    · simp [e]
  · rw [State.spine_updSpine]; simp
  · simp [State.updSeqr]
  · simp [State.updSeqr]

theorem stands_setPc (hc : c.runs) (l m : Nat) (pc : W64) : (s.setPc c l pc).stands c m = s.stands c m := by
  unfold State.setPc State.stands
  rcases hc with h | h | h | h <;> simp only [h]
  · rw [State.lane_updLane]
    by_cases e : m = l
    · subst e; simp
    · simp [e]
  · rw [State.spine_updSpine]; simp
  · simp [State.updSeqr, Issuer.isCopy, h, State.seqr]
  · simp [State.updSeqr, Issuer.isCopy, h, State.seqr]

theorem pcOf_setHold (hc : c.runs) (l m : Nat) (x : Hold) : (s.setHold c l x).pcOf c m = s.pcOf c m := by
  unfold State.setHold State.pcOf
  rcases hc with h | h | h | h <;> simp only [h]
  · rw [State.lane_updLane]
    by_cases e : m = l
    · subst e; simp
    · simp [e]
  · rw [State.spine_updSpine]; simp
  · simp [State.updSeqr]
  · simp [State.updSeqr]

theorem holdOf_setHold (hc : c.runs) (l m : Nat) (x : Hold) :
    (s.setHold c l x).holdOf c m = if m = l ∨ c.unit ≠ .lane then x else s.holdOf c m := by
  unfold State.setHold State.holdOf
  rcases hc with h | h | h | h <;> simp only [h]
  · rw [State.lane_updLane]
    by_cases e : m = l
    · subst e; simp
    · simp [e]
  · rw [State.spine_updSpine]; simp
  · simp [State.updSeqr]
  · simp [State.updSeqr]

theorem stands_setHold (hc : c.runs) (l m : Nat) (x : Hold) : (s.setHold c l x).stands c m = s.stands c m := by
  unfold State.setHold State.stands
  rcases hc with h | h | h | h <;> simp only [h]
  · rw [State.lane_updLane]
    by_cases e : m = l
    · subst e; simp
    · simp [e]
  · rw [State.spine_updSpine]; simp
  · simp [State.updSeqr, Issuer.isCopy, h, State.seqr]
  · simp [State.updSeqr, Issuer.isCopy, h, State.seqr]

theorem reads_setPc (hc : c.runs) (l : Nat) (pc : W64) (f : RFile) (r m : Nat) : (s.setPc c l pc).reads c f r m = s.reads c f r m := by
  by_cases hf : f = .p
  · subst hf
    have h : (s.setPc c l pc).pred c m r = s.pred c m r := by
      unfold State.setPc State.pred
      rcases hc with h | h | h | h <;> simp only [h]
      · rw [State.lane_updLane]
        by_cases e : m = l
        · subst e; simp
        · simp [e]
      · rw [State.spine_updSpine]; simp
      · simp [State.updSeqr]
      · simp [State.updSeqr]
    simp [State.reads, h]
  · unfold State.setPc
    rcases hc with h | h | h | h <;> simp only [h]
    · rw [reads_updLane l _ _ f hf]; intro x; rfl
    · rw [reads_updSpine _ _ f hf]; intro x; rfl
    · rw [reads_updSeqr false _ _ f hf]; intro x; rfl
    · rw [reads_updSeqr true _ _ f hf]; intro x; rfl

theorem reads_setHold (hc : c.runs) (l : Nat) (x : Hold) (f : RFile) (r m : Nat) : (s.setHold c l x).reads c f r m = s.reads c f r m := by
  by_cases hf : f = .p
  · subst hf
    have h : (s.setHold c l x).pred c m r = s.pred c m r := by
      unfold State.setHold State.pred
      rcases hc with h | h | h | h <;> simp only [h]
      · rw [State.lane_updLane]
        by_cases e : m = l
        · subst e; simp
        · simp [e]
      · rw [State.spine_updSpine]; simp
      · simp [State.updSeqr]
      · simp [State.updSeqr]
    simp [State.reads, h]
  · unfold State.setHold
    rcases hc with h | h | h | h <;> simp only [h]
    · rw [reads_updLane l _ _ f hf]; intro x; rfl
    · rw [reads_updSpine _ _ f hf]; intro x; rfl
    · rw [reads_updSeqr false _ _ f hf]; intro x; rfl
    · rw [reads_updSeqr true _ _ f hf]; intro x; rfl

/-! ### Writes leave PCs and holds alone -/

theorem sameStand_write1 (x : PWrite) (hx : x.fits c) (m : Nat) :
    (s.write1 c x).pcOf c m = s.pcOf c m ∧ (s.write1 c x).holdOf c m = s.holdOf c m
      ∧ (s.write1 c x).stands c m = s.stands c m := by
  obtain ⟨xl, xf, xi, xv⟩ := x
  unfold PWrite.fits at hx
  have lane : ∀ (k : Nat) (F : Lane → Lane), (∀ y, (F y).pc = y.pc ∧ (F y).hold = y.hold ∧ (F y).live = y.live) → c.unit = .lane →
      (s.updLane c.g c.slot k F).pcOf c m = s.pcOf c m ∧ (s.updLane c.g c.slot k F).holdOf c m = s.holdOf c m
      ∧ (s.updLane c.g c.slot k F).stands c m = s.stands c m := by
    intro k F hF hu
    unfold State.pcOf State.holdOf State.stands
    simp only [hu, State.lane_updLane]
    by_cases e : m = k
    · subst e; simp [hF]
    · simp [e]
  have spine : ∀ (F : Spine → Spine), (∀ y, (F y).pc = y.pc ∧ (F y).hold = y.hold ∧ (F y).live = y.live) → c.unit = .spine →
      (s.updSpine c.g c.slot F).pcOf c m = s.pcOf c m ∧ (s.updSpine c.g c.slot F).holdOf c m = s.holdOf c m
      ∧ (s.updSpine c.g c.slot F).stands c m = s.stands c m := by
    intro F hF hu
    unfold State.pcOf State.holdOf State.stands
    simp only [hu, State.spine_updSpine]
    simp [hF]
  have seq : ∀ (b : Bool) (F : Seqr → Seqr), (∀ y, (F y).pc = y.pc ∧ (F y).hold = y.hold ∧ (F y).st = y.st) →
      c.unit = (if b then .cseq else .mseq) →
      (s.updSeqr c.g b F).pcOf c m = s.pcOf c m ∧ (s.updSeqr c.g b F).holdOf c m = s.holdOf c m
      ∧ (s.updSeqr c.g b F).stands c m = s.stands c m := by
    intro b F hF hu
    unfold State.pcOf State.holdOf State.stands State.seqr State.updSeqr Issuer.isCopy
    cases b <;> simp only [Bool.false_eq_true, if_true, if_false] at hu <;> simp [hu, hF]
  cases xf <;> simp only [State.write1] at hx ⊢
  · exact lane _ _ (fun _ => ⟨rfl, rfl, rfl⟩) hx
  · unfold State.pcOf State.holdOf State.stands State.lane State.setW
    simp [hx, Warp.lane]
  · unfold State.setS
    split
    · exact ⟨rfl, rfl, rfl⟩
    · exact spine _ (fun _ => ⟨rfl, rfl, rfl⟩) hx
  · unfold Issuer.isSeq at hx
    simp only [Bool.or_eq_true, decide_eq_true_eq] at hx
    unfold State.setE Issuer.isCopy
    rcases hx with h | h
    · simp only [h]; exact seq false _ (fun _ => ⟨rfl, rfl, rfl⟩) h
    · simp only [h]; exact seq true _ (fun _ => ⟨rfl, rfl, rfl⟩) h
  · unfold State.setPred
    rcases hx with h | h | h | h <;> simp only [h]
    · exact lane _ _ (fun _ => ⟨rfl, rfl, rfl⟩) h
    · exact spine _ (fun _ => ⟨rfl, rfl, rfl⟩) h
    · exact seq false _ (fun _ => ⟨rfl, rfl, rfl⟩) h
    · exact seq true _ (fun _ => ⟨rfl, rfl, rfl⟩) h
  · exact ⟨trivial, trivial, trivial⟩

theorem sameStand_writeAll (xs : List PWrite) (hx : ∀ x ∈ xs, x.fits c) (m : Nat) :
    (s.writeAll c xs).pcOf c m = s.pcOf c m ∧ (s.writeAll c xs).holdOf c m = s.holdOf c m
      ∧ (s.writeAll c xs).stands c m = s.stands c m := by
  unfold State.writeAll
  induction xs generalizing s with
  | nil => exact ⟨rfl, rfl, rfl⟩
  | cons x r ih =>
    simp only [List.foldl_cons]
    have a := ih (s := s.write1 c x) (fun y h => hx y (by simp [h]))
    have b := sameStand_write1 (s := s) x (hx x (by simp)) m
    exact ⟨a.1.trans b.1, a.2.1.trans b.2.1, a.2.2.trans b.2.2⟩

/-- Pending results after writes, flags, PCs and holds. -/
theorem pend_write1 (x : PWrite) : ((s.write1 c x).warp c.g c.slot).pend = (s.warp c.g c.slot).pend := by
  obtain ⟨xl, xf, xi, xv⟩ := x
  cases xf <;> simp only [State.write1]
  · unfold State.setV State.updLane; simp [Warp.updLane]
  · unfold State.setW; simp
  · unfold State.setS; split
    · rfl
    · simp [State.updSpine, State.warp]
  · simp [State.setE, State.updSeqr, State.warp]; split <;> rfl
  · unfold State.setPred
    split
    · unfold State.updLane; simp [Warp.updLane]
    · simp [State.updSpine, State.warp]
    · simp [State.updSeqr, State.warp]
    · simp [State.updSeqr, State.warp]
    · rfl

theorem pend_writeAll (xs : List PWrite) : ((s.writeAll c xs).warp c.g c.slot).pend = (s.warp c.g c.slot).pend := by
  unfold State.writeAll
  induction xs generalizing s with
  | nil => rfl
  | cons x r ih => simp only [List.foldl_cons]; rw [ih, pend_write1]

theorem pend_setPc (l : Nat) (pc : W64) : ((s.setPc c l pc).warp c.g c.slot).pend = (s.warp c.g c.slot).pend := by
  unfold State.setPc
  split
  · unfold State.updLane; simp [Warp.updLane]
  · simp [State.updSpine, State.warp]
  · simp [State.updSeqr, State.warp]
  · simp [State.updSeqr, State.warp]
  · rfl

theorem pend_setHold (l : Nat) (x : Hold) : ((s.setHold c l x).warp c.g c.slot).pend = (s.warp c.g c.slot).pend := by
  unfold State.setHold
  split
  · unfold State.updLane; simp [Warp.updLane]
  · simp [State.updSpine, State.warp]
  · simp [State.updSeqr, State.warp]
  · simp [State.updSeqr, State.warp]
  · rfl

theorem pend_orFlags (f : Flags) : ((s.orFlags c f).warp c.g c.slot).pend = (s.warp c.g c.slot).pend := by
  unfold State.orFlags
  split
  · rfl
  · split
    · simp
    · unfold State.updBlockOf
      split
      · simp [State.updBlock, State.warp]
      · rfl

/-! ### The advance -/

/-- Places move to an address and are held by nothing. -/
def moveAll (s : State) (c : Issuer) (ps : List Nat) (pc : W64) : State :=
  ps.foldl (fun (s : State) l => (s.setPc c l pc).setHold c l .free) s

theorem untouched_moveAll (hc : c.runs) (ps : List Nat) (pc : W64) : Untouched s (moveAll s c ps pc) c := by
  unfold moveAll
  induction ps generalizing s with
  | nil => exact Untouched.refl _ _
  | cons l r ih =>
    simp only [List.foldl_cons]
    exact ((untouched_setPc hc l pc).trans (untouched_setHold hc l .free)).trans ih

theorem reads_moveAll (hc : c.runs) (ps : List Nat) (pc : W64) (f : RFile) (r m : Nat) :
    (moveAll s c ps pc).reads c f r m = s.reads c f r m := by
  unfold moveAll
  induction ps generalizing s with
  | nil => rfl
  | cons l r ih => simp only [List.foldl_cons]; rw [ih, reads_setHold hc, reads_setPc hc]

theorem pend_moveAll (ps : List Nat) (pc : W64) :
    ((moveAll s c ps pc).warp c.g c.slot).pend = (s.warp c.g c.slot).pend := by
  unfold moveAll
  induction ps generalizing s with
  | nil => rfl
  | cons l r ih => simp only [List.foldl_cons]; rw [ih, pend_setHold, pend_setPc]

theorem stands_moveAll (hc : c.runs) (ps : List Nat) (pc : W64) (m : Nat) :
    (moveAll s c ps pc).stands c m = s.stands c m := by
  unfold moveAll
  induction ps generalizing s with
  | nil => rfl
  | cons l r ih => simp only [List.foldl_cons]; rw [ih, stands_setHold hc, stands_setPc hc]

theorem placed_moveAll (hc : c.runs) (ps : List Nat) (pc : W64) (m : Nat) :
    (moveAll s c ps pc).pcOf c m = (if m ∈ ps ∨ (c.unit ≠ .lane ∧ ps ≠ []) then pc else s.pcOf c m)
      ∧ (moveAll s c ps pc).holdOf c m = (if m ∈ ps ∨ (c.unit ≠ .lane ∧ ps ≠ []) then .free else s.holdOf c m) := by
  unfold moveAll
  induction ps generalizing s with
  | nil => simp
  | cons l r ih =>
    simp only [List.foldl_cons]
    obtain ⟨a, b⟩ := ih (s := (s.setPc c l pc).setHold c l .free)
    rw [a, b, pcOf_setHold hc, holdOf_setHold hc, pcOf_setPc hc, holdOf_setPc hc]
    by_cases hu : c.unit = .lane
    · by_cases e : m = l
      · subst e; simp
      · by_cases e' : m ∈ r <;> simp [e, e', hu]
    · simp [hu]

theorem State.finish_eq (sw : Bool) (ls : List Nat) (len : Nat) (keep : List Nat) (h : sw = false ∨ c.unit ≠ .lane) :
    s.finish c sw ls len keep
      = moveAll s c (c.places.filter (fun l => !keep.contains l && s.stands c l)) (c.pc + BitVec.ofNat 64 len) := by
  unfold State.finish moveAll
  rcases h with h | h
  · simp [h]
  · have : decide (c.unit = Unit.lane) = false := by simpa using h
    simp [h]

/-! ### A switch point with nothing pending -/

/-- A switch point that some lanes reach. -/
theorem State.switchPoint_of_ne {ls : List Nat} (h : ls ≠ []) : s.switchPoint c ls = (s.switchPark c ls).unpark c := by
  cases ls with
  | nil => exact absurd rfl h
  | cons a r => rfl

/-- Nothing pending and nobody parked: a switch point leaves the warp, and everything else, as it is. -/
theorem switchPoint_calm (hu : c.unit = .lane) (h : Calm s c) (ls : List Nat) :
    Untouched s (s.switchPoint c ls) c ∧ (s.switchPoint c ls).warp c.g c.slot = s.warp c.g c.slot
      ∧ (∀ k, (s.switchPoint c ls).block c.g k = s.block c.g k)
      ∧ ((s.switchPoint c ls).cl c.g).pegs = (s.cl c.g).pegs := by
  by_cases hn : ls = []
  · subst hn; exact ⟨Untouched.refl _ _, rfl, fun _ => rfl, rfl⟩
  obtain ⟨hp, hh⟩ := h
  have hpark : ls.filter (fun l => decide ((s.warp c.g c.slot).pendCount l ≠ 0)) = [] := by
    simp [List.filter_eq_nil_iff, Warp.pendCount, hp]
  have e1 : s.switchPark c ls = s.updWarp c.g c.slot (fun w => w) := by
    unfold State.switchPark State.updLanes
    rw [hpark]; rfl
  generalize hv : s.updWarp c.g c.slot (fun w => w) = v at e1
  have hw : v.warp c.g c.slot = s.warp c.g c.slot := by rw [← hv]; simp
  have u1 : Untouched s v c := by
    rw [← hv]; exact untouched_updWarp hu _ (fun _ => rfl) (fun _ _ => rfl)
  have e2 : v.commitUni c = v := by
    unfold State.commitUni
    simp only [hw, hp, List.filter_nil]
  generalize hx : v.commitUni c = x at e2
  have hxw : x.warp c.g c.slot = s.warp c.g c.slot := by rw [e2, hw]
  have u2 : Untouched v x c := by rw [e2]; exact Untouched.refl _ _
  have e3 : x.unparkable c = [] := by
    unfold State.unparkable
    rw [List.filter_eq_nil_iff]
    intro l _
    have : x.lane c.g c.slot l = s.lane c.g c.slot l := by unfold State.lane; rw [hxw]
    simp [this, hh l]
  have e4 : s.switchPoint c ls = x := by
    rw [State.switchPoint_of_ne hn]
    unfold State.unpark
    rw [e1]
    simp only [hx, e3, List.foldl_nil, List.map_nil, List.filter_nil]
    simp [State.pcsOf]
  rw [e4]
  refine ⟨u1.trans u2, hxw, fun k => ?_, ?_⟩
  · rw [e2, ← hv]; simp [State.updWarp, State.block]
  · rw [e2, ← hv]; simp [State.updWarp]

/-- With the same warp a lane party sees the same. -/
theorem sameParty_of_warp (hu : c.unit = .lane) (h : t.warp c.g c.slot = s.warp c.g c.slot) :
    (∀ l, t.pcOf c l = s.pcOf c l ∧ t.holdOf c l = s.holdOf c l ∧ t.stands c l = s.stands c l)
      ∧ ∀ f r l, f ≠ .s → f ≠ .e → t.reads c f r l = s.reads c f r l := by
  have lane : ∀ l, t.lane c.g c.slot l = s.lane c.g c.slot l := by intro l; unfold State.lane; rw [h]
  refine ⟨fun l => ⟨?_, ?_, ?_⟩, fun f r l h1 h2 => ?_⟩
  · unfold State.pcOf; simp [hu, lane]
  · unfold State.holdOf; simp [hu, lane]
  · unfold State.stands; simp [hu, lane]
  · unfold State.reads State.v State.w State.pred
    cases f <;> simp_all

end Sys2Proof.Machine
end

