-- ==== Sys2Proof/Laws/Results.lean ====
section
/-! SUPPORT. The register results of every operation that only computes go to files of its party. -/

-- One declaration after another: a thread for each proof would need more address space than a check gives.
set_option Elab.async false

namespace Sys2Proof.Machine

variable {c : Issuer}

theorem fits_resWrites {f : RFile} (h : ∀ v : W64, ∀ k l, (PWrite.mk l f k v).fits c) (r l ty : Nat) (wide : Bool) (x : W64) :
    ∀ y ∈ resWrites f r l ty wide x, y.fits c := by
  intro y hy
  unfold resWrites at hy
  split at hy
  · split at hy <;> simp at hy <;> (try rcases hy with rfl | rfl) <;> subst_vars <;> exact h _ _ _
  · split at hy <;> simp at hy <;> (try rcases hy with rfl | rfl) <;> subst_vars <;> exact h _ _ _
  · simp at hy; subst hy; exact h _ _ _

theorem fits_fileD (hc : c.runs) (o : Ops) (v : W64) (k l : Nat) : (PWrite.mk l (fileD c o) k v).fits c := by
  unfold fileD
  rcases hc with h | h | h | h
  · simp only [h]; split <;> exact h
  · simp only [h]; exact h
  · simp only [h]; simp [PWrite.fits, Issuer.isSeq, h]
  · simp only [h]; simp [PWrite.fits, Issuer.isSeq, h]

theorem fits_predWrite (hc : c.runs) (l p : Nat) (b : Bool) : (predWrite l p b).fits c := hc

theorem fits_perLane (g : State → Issuer → Ops → PegVals → Nat → List PWrite × Flags) (s : State) (o : Ops) (pv : PegVals)
    (ls : List Nat) (h : ∀ l, ∀ x ∈ (g s c o pv l).1, x.fits c) : ∀ x ∈ (perLane g s c o pv ls).1, x.fits c := by
  intro x hx
  unfold perLane at hx
  simp only [List.mem_flatMap, List.mem_map] at hx
  obtain ⟨r, ⟨l, _, rfl⟩, hx⟩ := hx
  exact h l x hx

theorem fits_perValue (hc : c.runs) (ty : Ops → Nat) (g : State → Issuer → Ops → PegVals → Nat → W64 × Flags) (s : State)
    (o : Ops) (pv : PegVals) (ls : List Nat) : ∀ x ∈ (perValue ty g s c o pv ls).1, x.fits c := by
  apply fits_perLane
  intro l x hx
  exact fits_resWrites (fun v k l => fits_fileD hc o v k l) _ _ _ _ _ x hx

theorem fits_flatMap {ls : List Nat} {g : Nat → List PWrite} (h : ∀ l, ∀ x ∈ g l, x.fits c) :
    ∀ x ∈ ls.flatMap g, x.fits c := by
  intro x hx
  rw [List.mem_flatMap] at hx
  obtain ⟨l, _, hx⟩ := hx
  exact h l x hx

theorem fits_v (hu : c.unit = .lane) (r l ty : Nat) (wide : Bool) (x : W64) : ∀ y ∈ resWrites .v r l ty wide x, y.fits c := by
  apply fits_resWrites
  intro v k l
  exact hu

/-- A lane operation runs in lanes. -/
theorem unit_of_wf {i : Instr} (hc : c.runs) (h : WellFormed c.code i = true) (hi : ∀ u f, info u i = some f → f.units = [.lane]) :
    c.unit = .lane := by
  unfold WellFormed at h
  split at h
  · rename_i o f ho hf
    have hl := hi _ _ hf
    simp only [hl, Bool.and_eq_true] at h
    have hd := h.1.1
    unfold Issuer.code at hd
    rcases hc with u | u | u | u <;> simp_all
  · exact absurd h (by simp)

/-- Every result of an arithmetic body goes to a file of the party. -/
def Fits (f : Alu) (c : Issuer) : Prop := ∀ s o pv ls, ∀ x ∈ (f s c o pv ls).1, PWrite.fits x c

theorem Fits.value (hc : c.runs) (ty : Ops → Nat) (g : State → Issuer → Ops → PegVals → Nat → W64 × Flags) :
    Fits (perValue ty g) c := fun s o pv ls => fits_perValue hc ty g s o pv ls

theorem Fits.d (hc : c.runs) (o : Ops) (r l ty : Nat) (wide : Bool) (v : W64) :
    ∀ y ∈ resWrites (fileD c o) r l ty wide v, y.fits c :=
  fits_resWrites (fun v k l => fits_fileD hc o v k l) r l ty wide v

theorem Fits.plop3 (hc : c.runs) : Fits (perLane plop3One) c := by
  intro s o pv ls
  apply fits_perLane
  intro l x hx
  simp [plop3One] at hx; subst hx; exact fits_predWrite hc _ _ _
theorem Fits.isetp (hc : c.runs) : Fits aluIsetp c := by
  intro s o pv ls
  unfold aluIsetp
  apply fits_perLane
  intro l x hx
  simp at hx; subst hx; exact fits_predWrite hc _ _ _
theorem Fits.fsetp (hc : c.runs) : Fits aluFsetp c := by
  intro s o pv ls
  unfold aluFsetp
  apply fits_perLane
  intro l x hx
  simp at hx; subst hx; exact fits_predWrite hc _ _ _
theorem Fits.movsp (hc : c.runs) : Fits (perLane movspOne) c := by
  intro s o pv ls
  apply fits_perLane
  intro l x hx
  unfold movspOne at hx
  exact Fits.d hc _ _ _ _ _ _ x hx
theorem Fits.idiv (hc : c.runs) : Fits aluIdiv c := by
  intro s o pv ls
  unfold aluIdiv
  apply fits_perLane
  intro l x hx
  simp only at hx
  split at hx
  · exact Fits.d hc _ _ _ _ _ _ x hx
  · exact Fits.d hc _ _ _ _ _ _ x hx
  · rw [List.mem_append] at hx
    rcases hx with hx | hx <;> exact Fits.d hc _ _ _ _ _ _ x hx
theorem Fits.cvd (hc : c.runs) : Fits aluCvd c := by
  intro s o pv ls
  unfold aluCvd
  apply fits_perLane
  intro l x hx
  simp only [List.mem_flatMap] at hx
  obtain ⟨r, _, hx⟩ := hx
  exact Fits.d hc _ _ _ _ _ _ x hx
theorem Fits.rng (hc : c.runs) : Fits aluRng c := by
  intro s o pv ls
  unfold aluRng
  apply fits_perLane
  intro l x hx
  simp only [List.mem_append] at hx
  rcases hx with ((hx | hx) | hx) | hx <;> exact Fits.d hc _ _ _ _ _ _ x hx
theorem Fits.vote (hu : c.unit = .lane) : Fits voteAlu c := by
  intro s o pv ls
  unfold voteAlu
  apply fits_flatMap
  intro l x hx
  split at hx
  · exact fits_v hu _ _ _ _ _ x hx
  · simp at hx; subst hx; exact Or.inl hu
theorem Fits.match_ (hu : c.unit = .lane) : Fits matchAlu c := by
  intro s o pv ls
  unfold matchAlu
  apply fits_flatMap
  intro l x hx
  exact fits_v hu _ _ _ _ _ x hx
theorem Fits.xlane (hu : c.unit = .lane) : Fits xlaneAlu c := by
  intro s o pv ls
  unfold xlaneAlu
  apply fits_flatMap
  intro l x hx
  exact fits_v hu _ _ _ _ _ x hx
theorem Fits.rdlane (hu : c.unit = .lane) : Fits rdlaneAlu c := by
  intro s o pv ls
  unfold rdlaneAlu
  apply fits_flatMap
  intro l x hx
  exact fits_v hu _ _ _ _ _ x hx
theorem Fits.amax (hu : c.unit = .lane) : Fits aluAmax c := by
  intro s o pv ls
  unfold aluAmax
  apply fits_flatMap
  intro l x hx
  exact fits_v hu _ _ _ _ _ x hx
theorem Fits.sample (hu : c.unit = .lane) : Fits aluSample c := by
  intro s o pv ls
  unfold aluSample
  apply fits_flatMap
  intro l x hx
  rw [List.mem_append] at hx
  rcases hx with hx | hx
  · exact fits_v hu _ _ _ _ _ x hx
  · simp at hx; subst hx; exact Or.inl hu

theorem Fits.iaddV (hc : c.runs) : Fits aluIadd c := by
  unfold aluIadd
  (try unfold binAlu); (try unfold unAlu); (try unfold countAlu); (try unfold fpAlu1); (try unfold fpAlu2); (try unfold fpAlu3); (try unfold convertAlu)
  exact Fits.value hc _ _
theorem Fits.isubV (hc : c.runs) : Fits aluIsub c := by
  unfold aluIsub
  (try unfold binAlu); (try unfold unAlu); (try unfold countAlu); (try unfold fpAlu1); (try unfold fpAlu2); (try unfold fpAlu3); (try unfold convertAlu)
  exact Fits.value hc _ _
theorem Fits.imnmxV (hc : c.runs) : Fits aluImnmx c := by
  unfold aluImnmx
  (try unfold binAlu); (try unfold unAlu); (try unfold countAlu); (try unfold fpAlu1); (try unfold fpAlu2); (try unfold fpAlu3); (try unfold convertAlu)
  exact Fits.value hc _ _
theorem Fits.iabsV (hc : c.runs) : Fits aluIabs c := by
  unfold aluIabs
  (try unfold binAlu); (try unfold unAlu); (try unfold countAlu); (try unfold fpAlu1); (try unfold fpAlu2); (try unfold fpAlu3); (try unfold convertAlu)
  exact Fits.value hc _ _
theorem Fits.inegV (hc : c.runs) : Fits aluIneg c := by
  unfold aluIneg
  (try unfold binAlu); (try unfold unAlu); (try unfold countAlu); (try unfold fpAlu1); (try unfold fpAlu2); (try unfold fpAlu3); (try unfold convertAlu)
  exact Fits.value hc _ _
theorem Fits.iadd3V (hc : c.runs) : Fits aluIadd3 c := by
  unfold aluIadd3
  (try unfold binAlu); (try unfold unAlu); (try unfold countAlu); (try unfold fpAlu1); (try unfold fpAlu2); (try unfold fpAlu3); (try unfold convertAlu)
  exact Fits.value hc _ _
theorem Fits.imulV (hc : c.runs) : Fits aluImul c := by
  unfold aluImul
  (try unfold binAlu); (try unfold unAlu); (try unfold countAlu); (try unfold fpAlu1); (try unfold fpAlu2); (try unfold fpAlu3); (try unfold convertAlu)
  exact Fits.value hc _ _
theorem Fits.imadV (hc : c.runs) : Fits aluImad c := by
  unfold aluImad
  (try unfold binAlu); (try unfold unAlu); (try unfold countAlu); (try unfold fpAlu1); (try unfold fpAlu2); (try unfold fpAlu3); (try unfold convertAlu)
  exact Fits.value hc _ _
theorem Fits.bool3V (hc : c.runs) : Fits aluBool3 c := by
  unfold aluBool3
  (try unfold binAlu); (try unfold unAlu); (try unfold countAlu); (try unfold fpAlu1); (try unfold fpAlu2); (try unfold fpAlu3); (try unfold convertAlu)
  exact Fits.value hc _ _
theorem Fits.shlV (hc : c.runs) : Fits aluShl c := by
  unfold aluShl
  (try unfold binAlu); (try unfold unAlu); (try unfold countAlu); (try unfold fpAlu1); (try unfold fpAlu2); (try unfold fpAlu3); (try unfold convertAlu)
  exact Fits.value hc _ _
theorem Fits.shrV (hc : c.runs) : Fits aluShr c := by
  unfold aluShr
  (try unfold binAlu); (try unfold unAlu); (try unfold countAlu); (try unfold fpAlu1); (try unfold fpAlu2); (try unfold fpAlu3); (try unfold convertAlu)
  exact Fits.value hc _ _
theorem Fits.shfV (hc : c.runs) : Fits aluShf c := by
  unfold aluShf
  (try unfold binAlu); (try unfold unAlu); (try unfold countAlu); (try unfold fpAlu1); (try unfold fpAlu2); (try unfold fpAlu3); (try unfold convertAlu)
  exact Fits.value hc _ _
theorem Fits.rotV (hc : c.runs) : Fits aluRot c := by
  unfold aluRot
  (try unfold binAlu); (try unfold unAlu); (try unfold countAlu); (try unfold fpAlu1); (try unfold fpAlu2); (try unfold fpAlu3); (try unfold convertAlu)
  exact Fits.value hc _ _
theorem Fits.popcV (hc : c.runs) : Fits aluPopc c := by
  unfold aluPopc
  (try unfold binAlu); (try unfold unAlu); (try unfold countAlu); (try unfold fpAlu1); (try unfold fpAlu2); (try unfold fpAlu3); (try unfold convertAlu)
  exact Fits.value hc _ _
theorem Fits.clzV (hc : c.runs) : Fits aluClz c := by
  unfold aluClz
  (try unfold binAlu); (try unfold unAlu); (try unfold countAlu); (try unfold fpAlu1); (try unfold fpAlu2); (try unfold fpAlu3); (try unfold convertAlu)
  exact Fits.value hc _ _
theorem Fits.brevV (hc : c.runs) : Fits aluBrev c := by
  unfold aluBrev
  (try unfold binAlu); (try unfold unAlu); (try unfold countAlu); (try unfold fpAlu1); (try unfold fpAlu2); (try unfold fpAlu3); (try unfold convertAlu)
  exact Fits.value hc _ _
theorem Fits.bfeV (hc : c.runs) : Fits aluBfe c := by
  unfold aluBfe
  (try unfold binAlu); (try unfold unAlu); (try unfold countAlu); (try unfold fpAlu1); (try unfold fpAlu2); (try unfold fpAlu3); (try unfold convertAlu)
  exact Fits.value hc _ _
theorem Fits.bfiV (hc : c.runs) : Fits aluBfi c := by
  unfold aluBfi
  (try unfold binAlu); (try unfold unAlu); (try unfold countAlu); (try unfold fpAlu1); (try unfold fpAlu2); (try unfold fpAlu3); (try unfold convertAlu)
  exact Fits.value hc _ _
theorem Fits.selV (hc : c.runs) : Fits aluSel c := by
  unfold aluSel
  (try unfold binAlu); (try unfold unAlu); (try unfold countAlu); (try unfold fpAlu1); (try unfold fpAlu2); (try unfold fpAlu3); (try unfold convertAlu)
  exact Fits.value hc _ _
theorem Fits.movV (hc : c.runs) : Fits aluMov c := by
  unfold aluMov
  (try unfold binAlu); (try unfold unAlu); (try unfold countAlu); (try unfold fpAlu1); (try unfold fpAlu2); (try unfold fpAlu3); (try unfold convertAlu)
  exact Fits.value hc _ _
theorem Fits.leaV (hc : c.runs) : Fits aluLea c := by
  unfold aluLea
  (try unfold binAlu); (try unfold unAlu); (try unfold countAlu); (try unfold fpAlu1); (try unfold fpAlu2); (try unfold fpAlu3); (try unfold convertAlu)
  exact Fits.value hc _ _
theorem Fits.idp4V (hc : c.runs) : Fits aluIdp4 c := by
  unfold aluIdp4
  (try unfold binAlu); (try unfold unAlu); (try unfold countAlu); (try unfold fpAlu1); (try unfold fpAlu2); (try unfold fpAlu3); (try unfold convertAlu)
  exact Fits.value hc _ _
theorem Fits.byselV (hc : c.runs) : Fits aluBysel c := by
  unfold aluBysel
  (try unfold binAlu); (try unfold unAlu); (try unfold countAlu); (try unfold fpAlu1); (try unfold fpAlu2); (try unfold fpAlu3); (try unfold convertAlu)
  exact Fits.value hc _ _
theorem Fits.faddV (hc : c.runs) : Fits aluFadd c := by
  unfold aluFadd
  (try unfold binAlu); (try unfold unAlu); (try unfold countAlu); (try unfold fpAlu1); (try unfold fpAlu2); (try unfold fpAlu3); (try unfold convertAlu)
  exact Fits.value hc _ _
theorem Fits.fmulV (hc : c.runs) : Fits aluFmul c := by
  unfold aluFmul
  (try unfold binAlu); (try unfold unAlu); (try unfold countAlu); (try unfold fpAlu1); (try unfold fpAlu2); (try unfold fpAlu3); (try unfold convertAlu)
  exact Fits.value hc _ _
theorem Fits.ffmaV (hc : c.runs) : Fits aluFfma c := by
  unfold aluFfma
  (try unfold binAlu); (try unfold unAlu); (try unfold countAlu); (try unfold fpAlu1); (try unfold fpAlu2); (try unfold fpAlu3); (try unfold convertAlu)
  exact Fits.value hc _ _
theorem Fits.fmnmxV (hc : c.runs) : Fits aluFmnmx c := by
  unfold aluFmnmx
  (try unfold binAlu); (try unfold unAlu); (try unfold countAlu); (try unfold fpAlu1); (try unfold fpAlu2); (try unfold fpAlu3); (try unfold convertAlu)
  exact Fits.value hc _ _
theorem Fits.frndV (hc : c.runs) : Fits aluFrnd c := by
  unfold aluFrnd
  (try unfold binAlu); (try unfold unAlu); (try unfold countAlu); (try unfold fpAlu1); (try unfold fpAlu2); (try unfold fpAlu3); (try unfold convertAlu)
  exact Fits.value hc _ _
theorem Fits.f2fV (hc : c.runs) : Fits aluF2f c := by
  unfold aluF2f
  (try unfold binAlu); (try unfold unAlu); (try unfold countAlu); (try unfold fpAlu1); (try unfold fpAlu2); (try unfold fpAlu3); (try unfold convertAlu)
  exact Fits.value hc _ _
theorem Fits.f2iV (hc : c.runs) : Fits aluF2i c := by
  unfold aluF2i
  (try unfold binAlu); (try unfold unAlu); (try unfold countAlu); (try unfold fpAlu1); (try unfold fpAlu2); (try unfold fpAlu3); (try unfold convertAlu)
  exact Fits.value hc _ _
theorem Fits.i2fV (hc : c.runs) : Fits aluI2f c := by
  unfold aluI2f
  (try unfold binAlu); (try unfold unAlu); (try unfold countAlu); (try unfold fpAlu1); (try unfold fpAlu2); (try unfold fpAlu3); (try unfold convertAlu)
  exact Fits.value hc _ _
theorem Fits.fclassV (hc : c.runs) : Fits aluFclass c := by
  unfold aluFclass
  (try unfold binAlu); (try unfold unAlu); (try unfold countAlu); (try unfold fpAlu1); (try unfold fpAlu2); (try unfold fpAlu3); (try unfold convertAlu)
  exact Fits.value hc _ _
theorem Fits.hdot2V (hc : c.runs) : Fits aluHdot2 c := by
  unfold aluHdot2
  (try unfold binAlu); (try unfold unAlu); (try unfold countAlu); (try unfold fpAlu1); (try unfold fpAlu2); (try unfold fpAlu3); (try unfold convertAlu)
  exact Fits.value hc _ _
theorem Fits.moviV (hc : c.runs) : Fits aluMovi c := by
  unfold aluMovi
  (try unfold binAlu); (try unfold unAlu); (try unfold countAlu); (try unfold fpAlu1); (try unfold fpAlu2); (try unfold fpAlu3); (try unfold convertAlu)
  exact Fits.value hc _ _
theorem Fits.tlutV (hc : c.runs) : Fits aluTlut c := by
  unfold aluTlut
  (try unfold binAlu); (try unfold unAlu); (try unfold countAlu); (try unfold fpAlu1); (try unfold fpAlu2); (try unfold fpAlu3); (try unfold convertAlu)
  exact Fits.value hc _ _
theorem Fits.fdivV (hc : c.runs) : Fits aluFdiv c := by
  unfold aluFdiv
  (try unfold binAlu); (try unfold unAlu); (try unfold countAlu); (try unfold fpAlu1); (try unfold fpAlu2); (try unfold fpAlu3); (try unfold convertAlu)
  exact Fits.value hc _ _
theorem Fits.fsqrtV (hc : c.runs) : Fits aluFsqrt c := by
  unfold aluFsqrt
  (try unfold binAlu); (try unfold unAlu); (try unfold countAlu); (try unfold fpAlu1); (try unfold fpAlu2); (try unfold fpAlu3); (try unfold convertAlu)
  exact Fits.value hc _ _
theorem Fits.approxV (k : Nat) (hc : c.runs) : Fits (approxAlu k) c := by
  unfold approxAlu
  (try unfold binAlu); (try unfold unAlu); (try unfold countAlu); (try unfold fpAlu1); (try unfold fpAlu2); (try unfold fpAlu3); (try unfold convertAlu)
  exact Fits.value hc _ _
theorem Fits.cvqV (hc : c.runs) : Fits aluCvq c := by
  unfold aluCvq
  (try unfold binAlu); (try unfold unAlu); (try unfold countAlu); (try unfold fpAlu1); (try unfold fpAlu2); (try unfold fpAlu3); (try unfold convertAlu)
  exact Fits.value hc _ _
theorem Fits.actV (hc : c.runs) : Fits aluAct c := by
  unfold aluAct
  (try unfold binAlu); (try unfold unAlu); (try unfold countAlu); (try unfold fpAlu1); (try unfold fpAlu2); (try unfold fpAlu3); (try unfold convertAlu)
  exact Fits.value hc _ _
theorem Fits.voteW {o : Ops} (hc : c.runs) (hw : WellFormed c.code (.vote o) = true) : Fits voteAlu c :=
  Fits.vote (unit_of_wf hc hw (fun _ _ h => (Option.some.inj h) ▸ rfl))
theorem Fits.match_W {o : Ops} (hc : c.runs) (hw : WellFormed c.code (.match_ o) = true) : Fits matchAlu c :=
  Fits.match_ (unit_of_wf hc hw (fun _ _ h => (Option.some.inj h) ▸ rfl))
theorem Fits.xlaneW {o : Ops} (hc : c.runs) (hw : WellFormed c.code (.xlane o) = true) : Fits xlaneAlu c :=
  Fits.xlane (unit_of_wf hc hw (fun _ _ h => (Option.some.inj h) ▸ rfl))
theorem Fits.rdlaneW {o : Ops} (hc : c.runs) (hw : WellFormed c.code (.rdlane o) = true) : Fits rdlaneAlu c :=
  Fits.rdlane (unit_of_wf hc hw (fun _ _ h => (Option.some.inj h) ▸ rfl))
theorem Fits.amaxW {o : Ops} (hc : c.runs) (hw : WellFormed c.code (.amax o) = true) : Fits aluAmax c :=
  Fits.amax (unit_of_wf hc hw (fun _ _ h => (Option.some.inj h) ▸ rfl))
theorem Fits.sampleW {o : Ops} (hc : c.runs) (hw : WellFormed c.code (.sample o) = true) : Fits aluSample c :=
  Fits.sample (unit_of_wf hc hw (fun _ _ h => (Option.some.inj h) ▸ rfl))

/-- The bodies of the halves of pairs (R84). -/
theorem fits_aluOf {i : Instr} {f : Alu} (hc : c.runs) (hf : aluOf i = some f) : Fits f c := by
  have value := fun ty g => Fits.value hc ty g
  unfold aluOf at hf
  split at hf <;> first
    | exact (Option.some_ne_none _ hf.symm).elim
    | (rw [Option.some.injEq] at hf; subst hf
       first
        | with_reducible exact Fits.isetp hc
        | with_reducible exact Fits.fsetp hc
        | with_reducible exact Fits.iaddV hc
        | with_reducible exact Fits.isubV hc
        | with_reducible exact Fits.imnmxV hc
        | with_reducible exact Fits.iabsV hc
        | with_reducible exact Fits.inegV hc
        | with_reducible exact Fits.iadd3V hc
        | with_reducible exact Fits.imulV hc
        | with_reducible exact Fits.imadV hc
        | with_reducible exact Fits.bool3V hc
        | with_reducible exact Fits.shlV hc
        | with_reducible exact Fits.shrV hc
        | with_reducible exact Fits.shfV hc
        | with_reducible exact Fits.rotV hc
        | with_reducible exact Fits.popcV hc
        | with_reducible exact Fits.clzV hc
        | with_reducible exact Fits.brevV hc
        | with_reducible exact Fits.bfeV hc
        | with_reducible exact Fits.bfiV hc
        | with_reducible exact Fits.selV hc
        | with_reducible exact Fits.movV hc
        | with_reducible exact Fits.leaV hc
        | with_reducible exact Fits.idp4V hc
        | with_reducible exact Fits.byselV hc
        | with_reducible exact Fits.faddV hc
        | with_reducible exact Fits.fmulV hc
        | with_reducible exact Fits.ffmaV hc
        | with_reducible exact Fits.fmnmxV hc
        | with_reducible exact Fits.frndV hc
        | with_reducible exact Fits.f2fV hc
        | with_reducible exact Fits.f2iV hc
        | with_reducible exact Fits.i2fV hc
        | with_reducible exact Fits.fclassV hc
        | with_reducible exact Fits.hdot2V hc
        | with_reducible exact Fits.moviV hc
        | with_reducible exact Fits.tlutV hc
        | with_reducible exact Fits.fdivV hc
        | with_reducible exact Fits.fsqrtV hc
        | with_reducible exact Fits.approxV _ hc
        | with_reducible exact Fits.cvqV hc
        | with_reducible exact Fits.actV hc
        | with_reducible exact value _ _)

/-- Every result goes to a file of the party that computes it. -/
theorem fits_result {i : Instr} {f : Alu} (hc : c.runs) (hw : WellFormed c.code i = true) (hf : resultOf i = some f) :
    Fits f c := by
  have value := fun ty g => Fits.value hc ty g
  unfold resultOf at hf
  split at hf <;> first
    | exact fits_aluOf hc hf
    | (rw [Option.some.injEq] at hf; subst hf
       first
        | with_reducible exact Fits.plop3 hc
        | with_reducible exact Fits.movsp hc
        | with_reducible exact Fits.idiv hc
        | with_reducible exact Fits.cvd hc
        | with_reducible exact Fits.rng hc
        | with_reducible exact Fits.voteW hc hw
        | with_reducible exact Fits.match_W hc hw
        | with_reducible exact Fits.xlaneW hc hw
        | with_reducible exact Fits.rdlaneW hc hw
        | with_reducible exact Fits.amaxW hc hw
        | with_reducible exact Fits.sampleW hc hw
        | with_reducible exact Fits.iaddV hc
        | with_reducible exact Fits.isubV hc
        | with_reducible exact Fits.imnmxV hc
        | with_reducible exact Fits.iabsV hc
        | with_reducible exact Fits.inegV hc
        | with_reducible exact Fits.iadd3V hc
        | with_reducible exact Fits.imulV hc
        | with_reducible exact Fits.imadV hc
        | with_reducible exact Fits.bool3V hc
        | with_reducible exact Fits.shlV hc
        | with_reducible exact Fits.shrV hc
        | with_reducible exact Fits.shfV hc
        | with_reducible exact Fits.rotV hc
        | with_reducible exact Fits.popcV hc
        | with_reducible exact Fits.clzV hc
        | with_reducible exact Fits.brevV hc
        | with_reducible exact Fits.bfeV hc
        | with_reducible exact Fits.bfiV hc
        | with_reducible exact Fits.selV hc
        | with_reducible exact Fits.movV hc
        | with_reducible exact Fits.leaV hc
        | with_reducible exact Fits.idp4V hc
        | with_reducible exact Fits.byselV hc
        | with_reducible exact Fits.faddV hc
        | with_reducible exact Fits.fmulV hc
        | with_reducible exact Fits.ffmaV hc
        | with_reducible exact Fits.fmnmxV hc
        | with_reducible exact Fits.frndV hc
        | with_reducible exact Fits.f2fV hc
        | with_reducible exact Fits.f2iV hc
        | with_reducible exact Fits.i2fV hc
        | with_reducible exact Fits.fclassV hc
        | with_reducible exact Fits.hdot2V hc
        | with_reducible exact Fits.moviV hc
        | with_reducible exact Fits.tlutV hc
        | with_reducible exact Fits.fdivV hc
        | with_reducible exact Fits.fsqrtV hc
        | with_reducible exact Fits.approxV _ hc
        | with_reducible exact Fits.cvqV hc
        | with_reducible exact Fits.actV hc
        | with_reducible exact value _ _)

/-- An operation of the table only computes. -/
theorem exec_aluOf {i : Instr} {f : Alu} (s : State) (hf : aluOf i = some f) : exec i s = .next (s.alu i f) := by
  unfold aluOf at hf
  split at hf <;> first
    | exact (Option.some_ne_none _ hf.symm).elim
    | (rw [Option.some.injEq] at hf; subst hf; rfl)

/-- An operation of the table only computes. -/
theorem exec_resultOf {i : Instr} {f : Alu} (s : State) (hf : resultOf i = some f) : exec i s = .next (s.alu i f) := by
  unfold resultOf at hf
  split at hf <;> first
    | exact exec_aluOf s hf
    | (rw [Option.some.injEq] at hf; subst hf; rfl)

/-- Counted peg reads change nothing but pegs of the cluster, and nothing at all outside lane code or when no peg is
read. -/
theorem pegReads_ok {s u : State} {us : List RegUse} {pv : PegVals} (h : s.pegReads c us = .ok (u, pv)) :
    Untouched s u c ∧ SameParty s u c ∧ u.warp c.g c.slot = s.warp c.g c.slot ∧ u.fpflags c = s.fpflags c
      ∧ (c.unit ≠ .lane ∨ pegSources us = [] → u = s) := by
  unfold State.pegReads at h
  simp only at h
  split at h
  · split at h
    · exact absurd h (by simp)
    · rename_i hu _ _
      simp only [Except.ok.injEq] at h
      have key : ∀ (ps : List Nat) (a : State) (m : PegVals),
          let b := (ps.foldl (fun (x : State × PegVals) i =>
            (x.1.updPeg c.g (x.1.pegPhys c i) (fun y => y.read c), Map.put x.2 i (x.1.peg c.g (x.1.pegPhys c i)).val)) (a, m)).1
          Untouched a b c ∧ SameParty a b c ∧ b.warp c.g c.slot = a.warp c.g c.slot ∧ b.fpflags c = a.fpflags c := by
        intro ps
        induction ps with
        | nil => intro a m; exact ⟨Untouched.refl _ _, SameParty.refl _ _, rfl, rfl⟩
        | cons p r ih =>
          intro a m
          simp only [List.foldl_cons]
          generalize hb : a.updPeg c.g (a.pegPhys c p) (fun y => y.read c) = b
          have hw : ∀ k, b.warp c.g k = a.warp c.g k := by
            intro k; rw [← hb]; simp [State.updPeg, State.warp]
          have hs : ∀ k, b.spine c.g k = a.spine c.g k := by
            intro k; rw [← hb]; simp [State.updPeg, State.spine]
          have hk : ∀ k, b.block c.g k = a.block c.g k := by
            intro k; rw [← hb]; simp [State.updPeg, State.block]
          have hm : (b.cl c.g).mseq = (a.cl c.g).mseq := by rw [← hb]; simp [State.updPeg]
          have hq : (b.cl c.g).cseq = (a.cl c.g).cseq := by rw [← hb]; simp [State.updPeg]
          have hl : ∀ l, b.lane c.g c.slot l = a.lane c.g c.slot l := by intro l; unfold State.lane; rw [hw]
          have hu1 : Untouched a b c := {
            package := by rw [← hb]; rfl
            others := fun g n => by rw [← hb]; unfold State.updPeg; exact State.cl_updCl_ne _ _ _ _ n
            cluster := by rw [← hb]; simp [State.updPeg, Cluster.rest]
            blocks := fun k => by rw [hk]
            warps := fun k _ => hw k
            warp := by rw [hw]
            lanes := fun l => by rw [hl]
            spines := fun k _ => hs k
            spine := by rw [hs]
            mseq := fun _ => hm
            mseqRest := by rw [hm]
            cseq := fun _ => hq
            cseqRest := by rw [hq] }
          have hp : SameParty a b c := by
            refine ⟨fun l => ?_, fun l => ?_, fun l => ?_, fun f r l => ?_⟩
            · unfold State.pcOf; simp [hl, hs, hm, hq]
            · unfold State.holdOf; simp [hl, hs, hm, hq]
            · unfold State.stands State.seqr; simp [hl, hs, hm, hq]
            · unfold State.reads State.v State.w State.sreg State.ereg State.pred State.seqr
              simp [hl, hs, hm, hq, hw]
          have hf : b.fpflags c = a.fpflags c := by
            unfold State.fpflags State.waveOf State.blockOf State.blkOf
            simp [hw, hs, hm, hq, hk]
          obtain ⟨i1, i2, i3, i4⟩ := ih b (Map.put m p (a.peg c.g (a.pegPhys c p)).val)
          exact ⟨hu1.trans i1, hp.trans i2, i3.trans (hw _), i4.trans hf⟩
      obtain ⟨h1, h2⟩ := Prod.mk.inj h
      have k := key (pegSources us) s []
      rw [← h1]
      refine ⟨k.1, k.2.1, k.2.2.1, k.2.2.2, ?_⟩
      rintro (n | n)
      · exact absurd hu n
      · rw [n]; rfl
  · simp only [Except.ok.injEq, Prod.mk.injEq] at h
    obtain ⟨rfl, _⟩ := h
    exact ⟨Untouched.refl _ _, SameParty.refl _ _, rfl, rfl, fun _ => rfl⟩

/-- An operation of fixed latency in lane code reads no peg. -/
theorem pegSources_fixed {i : Instr} {us : List RegUse} (h : varLat i us = false) : pegSources us = [] := by
  have : us.any (fun u => u.file = .pg && u.rd) = false := by
    unfold varLat at h
    split at h <;> first | exact h | exact absurd h (by decide)
  rw [List.any_eq_false] at this
  unfold pegSources
  have e : us.filter (fun u => u.file = .pg && u.rd) = [] := by
    rw [List.filter_eq_nil_iff]; exact this
  rw [e]; rfl

end Sys2Proof.Machine
end

