-- ==== Sys2Proof/Laws/House.lean ====
section
/-! SUPPORT. What the register writes, flags and advance of a party leave of its block, wave, pegs and pending results. -/

-- One declaration after another: a thread for each proof would need more address space than a check gives.
set_option Elab.async false

namespace Sys2Proof.Machine

variable {s t u : State} {c : Issuer}

/-- The party's wave, block, the blocks and pegs of its cluster, and its pending results are the same in two states. -/
structure SameHouse (s t : State) (c : Issuer) : Prop where
  wave : t.waveOf c = s.waveOf c
  blk : t.blkOf c = s.blkOf c
  blocks : ∀ k, t.block c.g k = s.block c.g k
  pegs : (t.cl c.g).pegs = (s.cl c.g).pegs
  pend : (t.warp c.g c.slot).pend = (s.warp c.g c.slot).pend

theorem SameHouse.refl (s : State) (c : Issuer) : SameHouse s s c := ⟨rfl, rfl, fun _ => rfl, rfl, rfl⟩
theorem SameHouse.trans (h : SameHouse s t c) (k : SameHouse t u c) : SameHouse s u c :=
  ⟨k.wave.trans h.wave, k.blk.trans h.blk, fun b => (k.blocks b).trans (h.blocks b), k.pegs.trans h.pegs, k.pend.trans h.pend⟩

theorem SameHouse.blockOf (h : SameHouse s t c) : t.blockOf c = s.blockOf c := by
  unfold State.blockOf; rw [h.blk]; split <;> simp [h.blocks]
theorem SameHouse.fpflags (h : SameHouse s t c) : t.fpflags c = s.fpflags c := by
  unfold State.fpflags; rw [h.wave, h.blockOf]
theorem SameHouse.housed (h : SameHouse s t c) : Housed t c ↔ Housed s c := by
  unfold Housed; rw [h.wave, h.blk]

theorem house_updWarp (F : Warp → Warp) (hb : ∀ w, (F w).blk = w.blk) (hw : ∀ w, (F w).wave = w.wave)
    (hp : ∀ w, (F w).pend = w.pend) : SameHouse s (s.updWarp c.g c.slot F) c := by
  refine ⟨?_, ?_, fun k => ?_, ?_, ?_⟩
  · unfold State.waveOf; split
    · rw [State.warp_updWarp_self, hw]
    · rfl
  · unfold State.blkOf; split
    · rw [State.warp_updWarp_self, hb]
    all_goals simp [State.updWarp, State.spine]
  · simp [State.updWarp, State.block]
  · simp [State.updWarp]
  · rw [State.warp_updWarp_self, hp]

theorem house_updLane (l : Nat) (F : Lane → Lane) : SameHouse s (s.updLane c.g c.slot l F) c :=
  house_updWarp _ (fun _ => rfl) (fun _ => rfl) (fun _ => rfl)

theorem house_updSpine (F : Spine → Spine) (hb : ∀ w, (F w).blk = w.blk) : SameHouse s (s.updSpine c.g c.slot F) c := by
  refine ⟨?_, ?_, fun k => ?_, ?_, ?_⟩
  · unfold State.waveOf; split
    · simp [State.updSpine, State.warp]
    · rfl
  · unfold State.blkOf; split
    · simp [State.updSpine, State.warp]
    · rw [State.spine_updSpine]; simp [hb]
    all_goals simp [State.updSpine]
  · simp [State.updSpine, State.block]
  · simp [State.updSpine]
  · simp [State.updSpine, State.warp]

theorem house_updSeqr (b : Bool) (F : Seqr → Seqr) (hb : ∀ w, (F w).blk = w.blk) : SameHouse s (s.updSeqr c.g b F) c := by
  refine ⟨?_, ?_, fun k => ?_, ?_, ?_⟩
  · unfold State.waveOf; split
    · cases b <;> simp [State.updSeqr, State.warp]
    · rfl
  · unfold State.blkOf; split
    · cases b <;> simp [State.updSeqr, State.warp]
    · cases b <;> simp [State.updSeqr, State.spine]
    · cases b <;> simp [State.updSeqr, hb]
    · cases b <;> simp [State.updSeqr, hb]
    · rfl
  · cases b <;> simp [State.updSeqr, State.block]
  · cases b <;> simp [State.updSeqr]
  · cases b <;> simp [State.updSeqr, State.warp]

theorem house_setPc (l : Nat) (pc : W64) : SameHouse s (s.setPc c l pc) c := by
  unfold State.setPc
  split
  · exact house_updLane l _
  · exact house_updSpine _ (fun _ => rfl)
  · exact house_updSeqr false _ (fun _ => rfl)
  · exact house_updSeqr true _ (fun _ => rfl)
  · exact SameHouse.refl _ _

theorem house_setHold (l : Nat) (x : Hold) : SameHouse s (s.setHold c l x) c := by
  unfold State.setHold
  split
  · exact house_updLane l _
  · exact house_updSpine _ (fun _ => rfl)
  · exact house_updSeqr false _ (fun _ => rfl)
  · exact house_updSeqr true _ (fun _ => rfl)
  · exact SameHouse.refl _ _

theorem house_setPred (l k : Nat) (b : Bool) : SameHouse s (s.setPred c l k b) c := by
  unfold State.setPred
  split
  · exact house_updLane l _
  · exact house_updSpine _ (fun _ => rfl)
  · exact house_updSeqr false _ (fun _ => rfl)
  · exact house_updSeqr true _ (fun _ => rfl)
  · exact SameHouse.refl _ _

theorem house_write1 (x : PWrite) : SameHouse s (s.write1 c x) c := by
  unfold State.write1
  split
  · exact house_updLane _ _
  · exact house_updWarp _ (fun _ => rfl) (fun _ => rfl) (fun _ => rfl)
  · unfold State.setS; split
    · exact SameHouse.refl _ _
    · exact house_updSpine _ (fun _ => rfl)
  · exact house_updSeqr _ _ (fun _ => rfl)
  · exact house_setPred _ _ _
  · exact SameHouse.refl _ _

theorem house_writeAll (xs : List PWrite) : SameHouse s (s.writeAll c xs) c := by
  unfold State.writeAll
  induction xs generalizing s with
  | nil => exact SameHouse.refl _ _
  | cons x r ih => simp only [List.foldl_cons]; exact (house_write1 x).trans ih

theorem house_moveAll (ps : List Nat) (pc : W64) : SameHouse s (moveAll s c ps pc) c := by
  unfold moveAll
  induction ps generalizing s with
  | nil => exact SameHouse.refl _ _
  | cons l r ih =>
    simp only [List.foldl_cons]
    exact ((house_setPc l pc).trans (house_setHold l .free)).trans ih

/-- Flags that a party raises are ORed into the word of its block or wave (R137). -/
theorem fpflags_orFlags (h : Housed s c) (f : Flags) : (s.orFlags c f).fpflags c = s.fpflags c ||| f := by
  unfold State.orFlags
  split
  · simp_all
  · unfold State.fpflags
    cases hw : s.waveOf c with
    | some w =>
      have hu : c.unit = .lane := by
        unfold State.waveOf at hw
        cases hc : c.unit <;> simp [hc] at hw ⊢
      unfold State.waveOf at hw ⊢
      simp only [hu] at hw ⊢
      rw [State.warp_updWarp_self]
      simp [hw]
    | none =>
      simp only
      unfold Housed at h
      rw [hw] at h
      simp at h
      obtain ⟨b, hb⟩ := Option.isSome_iff_exists.mp h
      have hwb : ∀ F, (s.updBlock c.g b F).waveOf c = none := by
        intro F; unfold State.waveOf State.updBlock State.warp at *; simp; exact hw
      have hbb : ∀ F, (s.updBlock c.g b F).blkOf c = some b := by
        intro F; rw [← hb]; unfold State.blkOf State.updBlock State.warp State.spine; simp
      unfold State.updBlockOf
      simp only [hb, hwb]
      unfold State.blockOf
      simp only [hbb, hb, State.block_updBlock]
      simp

theorem pegs_orFlags (f : Flags) : ((s.orFlags c f).cl c.g).pegs = (s.cl c.g).pegs := by
  unfold State.orFlags
  split
  · rfl
  · split
    · simp [State.updWarp]
    · unfold State.updBlockOf
      split
      · simp [State.updBlock]
      · rfl

/-- Frames of one lane's fold after another issue step: the same warp in the same cluster gives the same house. -/
theorem house_of_warp (hu : c.unit = .lane) (h : t.warp c.g c.slot = s.warp c.g c.slot)
    (hb : ∀ k, t.block c.g k = s.block c.g k) (hp : (t.cl c.g).pegs = (s.cl c.g).pegs) : SameHouse s t c := by
  refine ⟨?_, ?_, hb, hp, by rw [h]⟩
  · unfold State.waveOf; simp [hu, h]
  · unfold State.blkOf; simp [hu, h]

/-! ### The end of an issue -/

/-- With the same warp and nothing else of the party changed, a lane reads the same registers. -/
theorem reads_eq_of_warp {s t : State} {c : Issuer} (hu : c.unit = .lane) (h : Untouched s t c) (hw : t.warp c.g c.slot = s.warp c.g c.slot)
   (x : RFile) (k l : Nat) : t.reads c x k l = s.reads c x k l := by
  by_cases e : x = .s ∨ x = .e
  · rcases e with rfl | rfl
    · unfold State.reads State.sreg; simp only
      rw [h.spines c.slot (by simp [hu])]
    · unfold State.reads State.ereg State.seqr; simp only
      rw [h.mseq (by simp [hu]), h.cseq (by simp [hu])]
  · exact (sameParty_of_warp hu hw).2 x k l (fun a => e (.inl a)) (fun a => e (.inr a))

/-- Calm depends on pending results and holds alone. -/
theorem Calm.of_stand {s t : State} {c : Issuer} (hu : c.unit = .lane) (h : Calm s c) (hp : (t.warp c.g c.slot).pend = (s.warp c.g c.slot).pend)
   (hh : ∀ l, t.holdOf c l = s.holdOf c l) : Calm t c := by
  refine ⟨by rw [hp, h.1], fun l => ?_⟩
  have := hh l
  unfold State.holdOf at this; simp only [hu] at this
  rw [this]; exact h.2 l


/-- The places that the end of an issue moves. -/
def movers (s : State) (c : Issuer) (keep : List Nat) : List Nat :=
  c.places.filter (fun l => !keep.contains l && s.stands c l)

/-- The end of an issue with nothing pending behind a switch marker: the places that the body has not kept and that stand
advance, held by nothing, and that is all. -/
theorem finish_keep {s : State} {c : Issuer} (hc : c.runs) (sw : Bool) (ls : List Nat) (len : Nat) (keep : List Nat)
    (h : sw = true → c.unit = .lane → Calm s c) :
    let t := s.finish c sw ls len keep
    Untouched s t c ∧ SameHouse s t c ∧ (∀ x k l, t.reads c x k l = s.reads c x k l) ∧ (∀ l, t.stands c l = s.stands c l)
      ∧ ∀ m, t.pcOf c m = (if m ∈ movers s c keep ∨ (c.unit ≠ .lane ∧ movers s c keep ≠ [])
            then c.pc + BitVec.ofNat 64 len else s.pcOf c m)
          ∧ t.holdOf c m = (if m ∈ movers s c keep ∨ (c.unit ≠ .lane ∧ movers s c keep ≠ []) then .free else s.holdOf c m) := by
  generalize hp : movers s c keep = ps
  generalize hv : moveAll s c ps (c.pc + BitVec.ofNat 64 len) = v
  have hu := untouched_moveAll (s := s) hc ps (c.pc + BitVec.ofNat 64 len)
  have hh := house_moveAll (s := s) (c := c) ps (c.pc + BitVec.ofNat 64 len)
  have hr := fun x k l => reads_moveAll (s := s) hc ps (c.pc + BitVec.ofNat 64 len) x k l
  have hs := fun m => stands_moveAll (s := s) hc ps (c.pc + BitVec.ofNat 64 len) m
  have hpl := fun m => placed_moveAll (s := s) hc ps (c.pc + BitVec.ofNat 64 len) m
  rw [hv] at hu hh hr hpl hs
  by_cases hsw : sw = false ∨ c.unit ≠ .lane
  · rw [State.finish_eq _ _ _ _ hsw]
    unfold movers at hp
    simp only [hp, hv]
    exact ⟨hu, hh, hr, hs, hpl⟩
  · have hl : c.unit = .lane := by
      by_cases e : c.unit = .lane
      · exact e
      · exact absurd (.inr e) hsw
    have hs' : sw = true := by cases sw <;> simp_all
    have calm : Calm v c := by
      obtain ⟨a, b⟩ := h hs' hl
      refine ⟨by rw [hh.pend, a], ?_⟩
      intro l
      have := (hpl l).2
      unfold State.holdOf at this; simp only [hl] at this
      rw [this]; split
      · simp
      · exact b l
    have e : s.finish c sw ls len keep = v.switchPoint c (ls.filter (fun l => (v.lane c.g c.slot l).live && (v.lane c.g c.slot l).hold = .free)) := by
      unfold State.finish
      rw [← hv, ← hp]; unfold moveAll movers
      simp [hs', hl]
    rw [e]
    obtain ⟨a, b, d, f⟩ := switchPoint_calm hl calm (ls.filter (fun l => (v.lane c.g c.slot l).live && (v.lane c.g c.slot l).hold = .free))
    have sp := (sameParty_of_warp hl b).1
    refine ⟨hu.trans a, hh.trans (house_of_warp hl b d f), fun x k l => ?_, fun l => ?_, fun l => ?_⟩
    · rw [reads_eq_of_warp hl a b, hr]
    · rw [(sp l).2.2, hs]
    · rw [(sp l).1, (sp l).2.1]; exact hpl l

/-- The end of an issue that keeps no place: the places advance, and that is all. -/
theorem finish_all {s : State} {c : Issuer} (hc : c.runs) (sw : Bool) (ls : List Nat) (len : Nat)
    (h : sw = true → c.unit = .lane → Calm s c) :
    let t := s.finish c sw ls len []
    Untouched s t c ∧ SameHouse s t c ∧ Advances s t c (c.pc + BitVec.ofNat 64 len)
      ∧ ∀ x k l, t.reads c x k l = s.reads c x k l := by
  obtain ⟨a, b, d, _, e⟩ := finish_keep (s := s) hc sw ls len [] h
  refine ⟨a, b, ⟨fun l hl hs => ?_, fun l hu hl => ?_⟩, d⟩
  · have : l ∈ movers s c [] := by unfold movers; simp [hl, hs]
    rw [(e l).1, (e l).2]; simp [this]
  · have : l ∉ movers s c [] := by unfold movers; simp [hl]
    rw [(e l).1, (e l).2]; simp [this, hu]

/-! ### Masks of lanes -/

theorem getLsbD_lanesMask (ls : List Nat) (k : Nat) (hk : k < 32) : (lanesMask ls).getLsbD k = decide (k ∈ ls) := by
  unfold lanesMask
  have : ∀ (m : W32), (ls.foldl (fun m l => m ||| (1#32 <<< l)) m).getLsbD k = (m.getLsbD k || decide (k ∈ ls)) := by
    induction ls with
    | nil => simp
    | cons l r ih =>
      intro m
      simp only [List.foldl_cons]
      rw [ih, BitVec.getLsbD_or, BitVec.getLsbD_shiftLeft]
      have e : (decide (k < 32) && !decide (k < l) && (1#32).getLsbD (k - l)) = decide (k = l) := by
        by_cases h : k = l
        · subst h; simp [hk]
        · by_cases h2 : k < l
          · simp [h2, h]
          · have : k - l ≠ 0 := by omega
            simp [h, BitVec.getLsbD_one, this]
      rw [e, Bool.or_assoc]
      congr 1
      simp
  simpa using this 0

theorem mem_maskLanes (m : W32) (l : Nat) : l ∈ maskLanes m ↔ l < 32 ∧ m.getLsbD l = true := by
  unfold maskLanes lanes32; simp

theorem nodup_places (c : Issuer) : c.places.Nodup := by
  unfold Issuer.places
  split
  · unfold maskLanes; exact List.nodup_range.filter _
  · simp

theorem active_sub {s : State} {c : Issuer} {o : Ops} {l : Nat} (h : l ∈ s.active c o) : l ∈ c.places :=
  (List.mem_filter.mp h).1

/-! ### Transfers -/

/-- The active places of an issue: of the group's places, and when there is one at all outside lane code it is the one
place. -/
theorem places_one {c : Issuer} (hu : c.unit ≠ .lane) : c.places = [0] := by
  unfold Issuer.places; split
  · exact absurd ‹_› hu
  · rfl

/-- Active places of one party go each to an address. -/
theorem jumpAll_facts {s : State} {c : Issuer} (hc : c.runs) (ls : List Nat) (hn : ls.Nodup) (hs : ∀ l ∈ ls, l ∈ c.places)
    (f : Nat → W64) :
    let t := s.jumpAll c ls f
    Untouched s t c ∧ SameHouse s t c ∧ (∀ x k l, t.reads c x k l = s.reads c x k l) ∧ (∀ l, t.stands c l = s.stands c l)
      ∧ (∀ l ∈ ls, t.pcOf c l = f l ∧ t.holdOf c l = .free)
      ∧ ∀ l, c.unit = .lane → l ∉ ls → t.pcOf c l = s.pcOf c l ∧ t.holdOf c l = s.holdOf c l := by
  unfold State.jumpAll
  induction ls generalizing s with
  | nil => exact ⟨Untouched.refl _ _, SameHouse.refl _ _, fun _ _ _ => rfl, fun _ => rfl, by simp, fun _ _ _ => ⟨rfl, rfl⟩⟩
  | cons a r ih =>
    simp only [List.foldl_cons]
    rw [List.nodup_cons] at hn
    have base : ∀ m, (s.jump c a (f a)).pcOf c m = (if m = a ∨ c.unit ≠ .lane then f a else s.pcOf c m)
        ∧ (s.jump c a (f a)).holdOf c m = (if m = a ∨ c.unit ≠ .lane then .free else s.holdOf c m) := by
      intro m
      unfold State.jump
      rw [pcOf_setHold hc, pcOf_setPc hc, holdOf_setHold hc, holdOf_setPc hc]
      exact ⟨rfl, rfl⟩
    obtain ⟨i1, i2, i3, i4, i5, i6⟩ := ih (s := s.jump c a (f a)) hn.2 (fun l h => hs l (by simp [h]))
    refine ⟨((untouched_setPc hc a _).trans (untouched_setHold hc a _)).trans i1,
      ((house_setPc a _).trans (house_setHold a _)).trans i2, fun x k l => ?_, fun l => ?_, fun l hl => ?_, fun l hu hl => ?_⟩
    · rw [i3]; unfold State.jump; rw [reads_setHold hc, reads_setPc hc]
    · rw [i4]; unfold State.jump; rw [stands_setHold hc, stands_setPc hc]
    · by_cases hu : c.unit = .lane
      · rw [List.mem_cons] at hl
        rcases hl with rfl | hl
        · have := i6 l hu hn.1
          rw [this.1, this.2, (base l).1, (base l).2]; simp
        · exact i5 l hl
      · have p1 := places_one hu
        have ha : a = 0 := by have := hs a (by simp); rw [p1] at this; simpa using this
        have hr : r = [] := by
          cases r with
          | nil => rfl
          | cons b q =>
            have : b = 0 := by have := hs b (by simp); rw [p1] at this; simpa using this
            exact absurd (by simp [ha, this]) hn.1
        subst hr
        simp at hl
        subst hl
        simp only [List.foldl_nil]
        rw [(base l).1, (base l).2]; simp
    · simp only [List.mem_cons, not_or] at hl
      have := i6 l hu hl.2
      rw [this.1, this.2, (base l).1, (base l).2]; simp [hl.1, hu]

theorem nodup_active (s : State) (c : Issuer) (o : Ops) : (s.active c o).Nodup := (nodup_places c).filter _

/-- A body that moves its active places ends as R107 says. -/
theorem moves_finish {s u : State} {c : Issuer} (hc : c.runs) (ls : List Nat) (hn : ls.Nodup) (hs : ∀ l ∈ ls, l ∈ c.places)
    (f : Nat → W64) (sw : Bool) (len : Nat) (hu : ∀ l, u.pcOf c l = s.pcOf c l ∧ u.holdOf c l = s.holdOf c l)
    (hst : ∀ l, u.stands c l = s.stands c l) (h : sw = true → c.unit = .lane → Calm u c) :
    let t := (u.jumpAll c ls f).finish c sw ls len ls
    Untouched u t c ∧ SameHouse u t c ∧ (∀ x k l, t.reads c x k l = u.reads c x k l) ∧ Moves s t c ls len f := by
  obtain ⟨j1, j2, j3, j4, j5, j6⟩ := jumpAll_facts (s := u) hc ls hn hs f
  obtain ⟨a, b, d, _, e⟩ := finish_keep (s := u.jumpAll c ls f) hc sw ls len ls (fun x y => by
    obtain ⟨p, q⟩ := h x y
    refine ⟨by rw [j2.pend, p], fun l => ?_⟩
    by_cases hl : l ∈ ls
    · have := (j5 l hl).2
      unfold State.holdOf at this; simp only [y] at this
      rw [this]; simp
    · have := (j6 l y hl).2
      unfold State.holdOf at this; simp only [y] at this
      rw [this]; exact q l)
  refine ⟨j1.trans a, j2.trans b, fun x k l => by rw [d, j3], ⟨fun l hl => ?_, fun l hp hl hst' => ?_, fun l hu' hp => ?_⟩⟩
  · have nm : ¬ (l ∈ movers (u.jumpAll c ls f) c ls ∨ (c.unit ≠ .lane ∧ movers (u.jumpAll c ls f) c ls ≠ [])) := by
      rintro (m | ⟨m, n⟩)
      · unfold movers at m; simp [hl] at m
      · apply n
        unfold movers
        rw [places_one m]
        have : l = 0 := by have := hs l hl; rw [places_one m] at this; simpa using this
        subst this
        simp [hl]
    rw [(e l).1, (e l).2, if_neg nm, if_neg nm]
    exact j5 l hl
  · have m : l ∈ movers (u.jumpAll c ls f) c ls := by
      unfold movers; simp [hp, hl, j4, hst, hst']
    rw [(e l).1, (e l).2]; simp [m]
  · have hl : l ∉ ls := fun x => hp (hs l x)
    have nm : ¬ (l ∈ movers (u.jumpAll c ls f) c ls ∨ (c.unit ≠ .lane ∧ movers (u.jumpAll c ls f) c ls ≠ [])) := by
      rintro (m | ⟨m, _⟩)
      · unfold movers at m; simp [hp] at m
      · exact m hu'
    rw [(e l).1, (e l).2, if_neg nm, if_neg nm, (j6 l hu' hl).1, (j6 l hu' hl).2]
    exact hu l

/-! ### Rejoin masks -/

/-- A fold over lanes changes nothing but lanes. -/
theorem Warp.updLane_foldl_rest (ls : List Nat) (f : Nat → Lane → Lane) (w : Warp) :
    ls.foldl (fun w l => w.updLane l (f l)) w = { w with lanes := (ls.foldl (fun w l => w.updLane l (f l)) w).lanes } := by
  induction ls generalizing w with
  | nil => rfl
  | cons a r ih => simp only [List.foldl_cons]; rw [ih]; simp [Warp.updLane]

@[simp] theorem Lane.unhold_live (x : Lane) (n : Nat) : (x.unhold n).live = x.live := by
  unfold Lane.unhold; split
  · split <;> rfl
  · rfl
@[simp] theorem Lane.unhold_v (x : Lane) (n : Nat) : (x.unhold n).v = x.v := by
  unfold Lane.unhold; split
  · split <;> rfl
  · rfl
@[simp] theorem Lane.unhold_p (x : Lane) (n : Nat) : (x.unhold n).p = x.p := by
  unfold Lane.unhold; split
  · split <;> rfl
  · rfl
theorem Lane.unhold_park {x : Lane} {n : Nat} (h : x.hold ≠ .park) : (x.unhold n).hold ≠ .park := by
  unfold Lane.unhold; split
  · split
    · simp
    · exact h
  · exact h
theorem Lane.unhold_held {x : Lane} {n st : Nat} (h : x.hold = .rejoin n st) :
    x.unhold n = { x with hold := .free, pc := x.pc + 8 } := by
  unfold Lane.unhold; simp [h]
theorem Lane.unhold_free {x : Lane} {n : Nat} (h : x.hold = .free) : x.unhold n = x := by
  unfold Lane.unhold; simp [h]

/-- The release check: H and the lanes held are as R103 says, and nothing else of the warp has changed. -/
theorem release_facts (w : Warp) (n : Nat) :
    let m := w.jm.get n 0
    let h := w.jh.get n 0
    let all : Bool := m &&& w.liveMask &&& ~~~h = 0
    let freed := if all then h else h &&& ~~~m
    let r := w.release n
    r.jm = w.jm ∧ r.jh.get n 0 = (if all then 0 else h &&& m) ∧ (∀ k, k ≠ n → r.jh.get k 0 = w.jh.get k 0)
      ∧ (∀ l, r.lane l = if l < 32 ∧ freed.getLsbD l = true then (w.lane l).unhold n else w.lane l)
      ∧ r = { w with jh := r.jh, lanes := r.lanes } := by
  intro m h all freed r
  have fold : ∀ (ls : List Nat) (x : Warp), ls.foldl (fun w l => w.updLane l (fun x => x.unhold n)) x
      = { x with lanes := (ls.foldl (fun w l => w.updLane l (fun x => x.unhold n)) x).lanes } := fun ls x =>
    Warp.updLane_foldl_rest ls (fun _ x => x.unhold n) x
  have hr : r = { (maskLanes freed).foldl (fun w l => w.updLane l (fun x => x.unhold n)) w with
      jh := (((maskLanes freed).foldl (fun w l => w.updLane l (fun x => x.unhold n)) w).jh).put n (if all then 0 else h &&& m) } := rfl
  have hl : ∀ l, r.lane l = ((maskLanes freed).foldl (fun w l => w.updLane l (fun x => x.unhold n)) w).lane l := by
    intro l; rw [hr]; rfl
  have nod : (maskLanes freed).Nodup := by unfold maskLanes; exact List.nodup_range.filter _
  refine ⟨?_, ?_, ?_, ?_, ?_⟩
  · rw [hr, fold]
  · rw [hr]; simp
  · intro k hk; rw [hr]; rw [fold]; exact Map.get_put_ne _ _ _ _ _ hk
  · intro l
    rw [hl, Warp.lane_foldl _ (fun _ x => x.unhold n) nod]
    simp only [mem_maskLanes]
  · rw [hr]
    rw [fold]

/-! ### Effects on one warp -/

theorem WarpOnly.refl (s : State) (c : Issuer) : WarpOnly s s c :=
  ⟨rfl, fun _ _ => rfl, rfl, fun _ => rfl, rfl, fun _ _ => rfl, fun _ => rfl, rfl, rfl⟩

theorem WarpOnly.trans (h : WarpOnly s t c) (k : WarpOnly t u c) : WarpOnly s u c :=
  ⟨k.package.trans h.package, fun g n => (k.others g n).trans (h.others g n), k.cluster.trans h.cluster,
   fun b => (k.blocks b).trans (h.blocks b), k.pegs.trans h.pegs, fun j n => (k.warps j n).trans (h.warps j n),
   fun j => (k.spines j).trans (h.spines j), k.mseq.trans h.mseq, k.cseq.trans h.cseq⟩

theorem warpOnly_updWarp (s : State) (c : Issuer) (F : Warp → Warp) : WarpOnly s (s.updWarp c.g c.slot F) c where
  package := rfl
  others g n := by unfold State.updWarp; exact State.cl_updCl_ne _ _ _ _ n
  cluster := by unfold State.updWarp; simp [Cluster.rest]
  blocks b := by unfold State.updWarp State.block; simp
  pegs := by unfold State.updWarp; simp
  warps k n := State.warp_updWarp_ne _ _ _ _ _ n
  spines k := by unfold State.updWarp State.spine; simp
  mseq := by unfold State.updWarp; simp
  cseq := by unfold State.updWarp; simp

/-- In lane code a frame of the party with blocks and pegs unchanged is a frame of its warp. -/
theorem WarpOnly.of (hu : c.unit = .lane) (h : Untouched s t c) (k : SameHouse s t c) : WarpOnly s t c where
  package := h.package
  others := h.others
  cluster := h.cluster
  blocks := k.blocks
  pegs := k.pegs
  warps j n := h.warps j (.inl n)
  spines j := h.spines j (.inr (by simp [hu]))
  mseq := h.mseq (by simp [hu])
  cseq := h.cseq (by simp [hu])

/-- What a well-formed operation's entry requires of its fields, and of the code it stands in (R86). -/
theorem wf_ok {v : CodeUnit} {i : Instr} {o : Ops} {f : Info} (h : WellFormed v i = true) (ho : i.ops = some o)
    (hf : info v i = some f) : f.ok = true ∧ v ∈ f.units := by
  unfold WellFormed at h
  rw [ho, hf] at h
  simp only [Bool.and_eq_true, fieldsOk] at h
  exact ⟨h.2.2, by simpa using h.1.1⟩

/-- The active places of an issue are different places of its group. -/
theorem Issues.sub {i : Instr} {o : Ops} {ls : List Nat} {hz : Issuer → Nat → List RegUse} {pv : PegVals}
    (h : Issues s i o hz ls u pv) : ls.Nodup ∧ ∀ l ∈ ls, l ∈ s.cur.places := by
  rw [← h.active]; exact ⟨nodup_active _ _ _, fun _ hl => active_sub hl⟩

/-! ### A switch point with results that have not arrived -/

/-- No result of the warp has arrived, and a parked lane has one pending: a switch point parks the lanes that have a
result pending, and does nothing else (R98). -/
theorem switchPoint_pending (hu : c.unit = .lane) (hr : ∀ p ∈ (s.warp c.g c.slot).pend, p.ready = false ∧ p.lanes ≠ 0)
    (hh : ∀ l, (s.lane c.g c.slot l).hold = .park → (s.warp c.g c.slot).pendCount l ≠ 0) (ls : List Nat) (hn : ls.Nodup) :
    let t := s.switchPoint c ls
    Untouched s t c ∧ SameHouse s t c ∧ (∀ x k l, t.reads c x k l = s.reads c x k l)
      ∧ ∀ l, t.pcOf c l = s.pcOf c l
        ∧ t.holdOf c l = if l ∈ ls ∧ (s.warp c.g c.slot).pendCount l ≠ 0 then .park else s.holdOf c l := by
  by_cases hne : ls = []
  · subst hne; exact ⟨Untouched.refl _ _, SameHouse.refl _ _, fun _ _ _ => rfl, fun l => ⟨rfl, by simp; rfl⟩⟩
  generalize hL : ls.filter (fun l => decide ((s.warp c.g c.slot).pendCount l ≠ 0)) = L
  have hLn : L.Nodup := by rw [← hL]; exact hn.filter _
  generalize hv : s.updLanes c.g c.slot L (fun _ x => { x with hold := .park }) = v
  have e1 : s.switchPark c ls = v := by rw [← hv, ← hL]; rfl
  have hvw : v.warp c.g c.slot = { s.warp c.g c.slot with
      lanes := (L.foldl (fun w l => w.updLane l (fun x => { x with hold := .park })) (s.warp c.g c.slot)).lanes } := by
    rw [← hv]; unfold State.updLanes; rw [State.warp_updWarp_self]
    exact Warp.updLane_foldl_rest L (fun _ x => { x with hold := .park }) (s.warp c.g c.slot)
  have hvl : ∀ l, v.lane c.g c.slot l = if l ∈ L then { s.lane c.g c.slot l with hold := .park } else s.lane c.g c.slot l := by
    intro l; rw [← hv]; unfold State.updLanes State.lane; rw [State.warp_updWarp_self]
    exact Warp.lane_foldl L (fun _ x => { x with hold := .park }) hLn (s.warp c.g c.slot) l
  have hvp : (v.warp c.g c.slot).pend = (s.warp c.g c.slot).pend := by rw [hvw]
  have u1 : Untouched s v c := by
    rw [← hv]; unfold State.updLanes
    apply untouched_updWarp hu
    · intro w; rw [Warp.updLane_foldl_rest L (fun _ x => { x with hold := .park })]; rfl
    · intro w l
      rw [Warp.lane_foldl L (fun _ x => { x with hold := .park }) hLn]
      split <;> rfl
  have h1 : SameHouse s v c := by
    rw [← hv]; unfold State.updLanes
    apply house_updWarp
    all_goals intro w; rw [Warp.updLane_foldl_rest L (fun _ x => { x with hold := .park })]
  have e2 : v.commitUni c = v := by
    unfold State.commitUni
    have : (v.warp c.g c.slot).pend.filter (v.warp c.g c.slot).uniRipe = [] := by
      rw [List.filter_eq_nil_iff, hvp]
      intro p hp
      simp [Warp.uniRipe, (hr p hp).1]
    simp only [this]
  generalize hx : v.commitUni c = x at e2
  have hxw : x.warp c.g c.slot = v.warp c.g c.slot := by rw [e2]
  have u2 : Untouched v x c := by rw [e2]; exact Untouched.refl _ _
  have e3 : x.unparkable c = [] := by
    unfold State.unparkable
    rw [List.filter_eq_nil_iff]
    intro l _
    have hl : x.lane c.g c.slot l = v.lane c.g c.slot l := by unfold State.lane; rw [hxw]
    rw [hl, hxw]
    by_cases hp : (v.lane c.g c.slot l).hold = .park
    · have hc : (s.warp c.g c.slot).pendCount l ≠ 0 := by
        rw [hvl l] at hp
        split at hp
        · rename_i m; rw [← hL] at m; simpa using (List.mem_filter.mp m).2
        · exact hh l hp
      unfold Warp.pendCount at hc
      have : ∃ p ∈ (s.warp c.g c.slot).pend, p.lanes.getLsbD l = true := by
        cases hq : (s.warp c.g c.slot).pend.filter (fun p => p.lanes.getLsbD l) with
        | nil => rw [hq] at hc; simp at hc
        | cons a r =>
          have : a ∈ (s.warp c.g c.slot).pend.filter (fun p => p.lanes.getLsbD l) := by rw [hq]; simp
          exact ⟨a, List.mem_filter.mp this⟩
      obtain ⟨p, m, b⟩ := this
      have : (v.warp c.g c.slot).laneReady l = false := by
        unfold Warp.laneReady
        rw [hvp, List.all_eq_false]
        exact ⟨p, m, by simp [b, (hr p m).1]⟩
      simp [this]
    · simp [hp]
  have e4 : s.switchPoint c ls = x := by
    rw [State.switchPoint_of_ne hne]
    unfold State.unpark
    rw [e1]
    simp only [hx, e3, List.foldl_nil, List.map_nil, List.filter_nil]
    simp [State.pcsOf]
  rw [e4]
  have h2 : SameHouse v x c := by
    refine house_of_warp hu hxw (fun k => ?_) ?_
    · rw [e2]
    · rw [e2]
  refine ⟨u1.trans u2, h1.trans h2, fun f k l => ?_, fun l => ?_⟩
  · rw [reads_eq_of_warp hu u2 hxw]
    by_cases e : f = .s ∨ f = .e
    · rcases e with rfl | rfl
      · unfold State.reads State.sreg; simp only
        rw [u1.spines c.slot (by simp [hu])]
      · unfold State.reads State.ereg State.seqr; simp only
        rw [u1.mseq (by simp [hu]), u1.cseq (by simp [hu])]
    · unfold State.reads State.v State.w State.pred
      cases f
      · simp only [hvl]; split <;> rfl
      · simp only; rw [hvw]
      · simp at e
      · simp at e
      · simp only [hu, hvl]; split <;> rfl
      · rfl
  · have a := (sameParty_of_warp hu hxw).1 l
    rw [a.1, a.2.1]
    unfold State.pcOf State.holdOf
    simp only [hu, hvl]
    have hm : l ∈ L ↔ l ∈ ls ∧ (s.warp c.g c.slot).pendCount l ≠ 0 := by rw [← hL]; simp
    by_cases m : l ∈ L
    · simp [m, hm.mp m]
    · simp only [m, if_false, true_and]
      rw [if_neg (fun h => m (hm.mpr h))]

end Sys2Proof.Machine
end

