-- ==== Sys2Proof/Laws/Kept.lean ====
section
/-! SUPPORT. What every access to a line keeps: a relation that holds across the changes of memory, the counts of migration
and the watches on counters holds across every operation of the home, the agents and the L1s. -/

-- One declaration after another: a thread for each proof would need more address space than a check gives.
set_option Elab.async false

namespace Sys2Proof.Machine

/-- A relation that the single steps of coherence keep. -/
structure Kept (R : State → State → Prop) : Prop where
  refl : ∀ s, R s s
  trans : ∀ {s t u}, R s t → R t u → R s u
  mem : ∀ (s : State) (f : Memory → Memory), (∀ m : Memory, m.wf = true → (f m).wf = true) → R s (s.updMem f)
  touch : ∀ (s : State) (l a : Nat), R s (s.sillTouch l a)
  watch : ∀ (s : State) (l : Nat) (m : BitVec 128), R s (s.counterWatch l m)

/-- Only memory, its watches and its counts change. -/
theorem kept_memoryOnly : Kept MemoryOnly where
  refl := MemoryOnly.refl
  trans := MemoryOnly.trans
  mem s f _ := memoryOnly_updMem s f
  touch s l a := (onLine_sillTouch (line := 0) s l a).only
  watch s l m := (onLine_counterWatch (line := 0) s l m).only

/-- The canonical form stays. -/
theorem kept_wf : Kept (fun s t => s.mem.wf = true → t.mem.wf = true) where
  refl _ h := h
  trans a b h := b (a h)
  mem _ f hf h := hf _ h
  touch s l a h := by unfold State.sillTouch; simp only []; split <;> (try split) <;> exact h
  watch s l m h := by unfold State.counterWatch; simp only []; split <;> exact h

namespace Kept

variable {R : State → State → Prop} (K : Kept R)
include K

theorem ite {s a b : State} {P : Prop} [Decidable P] (ha : R s a) (hb : R s b) : R s (if P then a else b) := by
  have _ := K.refl s
  split <;> assumption

theorem foldl {α : Type} (f : State → α → State) (h : ∀ s a, R s (f s a)) (s : State) (l : List α) : R s (l.foldl f s) := by
  induction l generalizing s with
  | nil => exact K.refl _
  | cons a r ih => exact K.trans (h s a) (ih _)

/-- A change of memory but its bytes. -/
theorem rest (s : State) (f : Memory → Memory) (h : ∀ m, (f m).bytes = m.bytes) : R s (s.updMem f) :=
  K.mem s f (fun m w => by unfold Memory.wf at *; rw [h]; exact w)

theorem send (s : State) (m : Msg) : R s (s.send m) := K.rest s _ (fun _ => rfl)
theorem setMsgs (s : State) (r : List Msg) : R s { s with mem := { s.mem with msgs := r } } :=
  K.rest s (fun m => { m with msgs := r }) (fun _ => rfl)
theorem putSide (s : State) (line : Nat) (d : Side) : R s (s.putSide line d) := K.rest s _ (fun _ => rfl)
theorem putSideFor (s : State) (b line : Nat) (d : Side) : R s (s.putSideFor b line d) := K.rest s _ (fun _ => rfl)
theorem putHome (s : State) (line : Nat) (x : Line) (p : Bool) : R s (s.putHome line x p) :=
  K.mem s _ (fun m w => by
    have := Memory.wf_setDram w line x
    unfold Memory.wf at *
    rwa [(setSide_rest _ _ _).2.1])
theorem setCline (s : State) (slot line : Nat) (f : Memory → CLine) : R s (s.updMem (fun m => m.setCline slot line (f m))) :=
  K.rest s (fun m => m.setCline slot line (f m)) (fun _ => rfl)
theorem dropCline (s : State) (slot line : Nat) : R s (s.updMem (fun m => m.dropCline slot line)) :=
  K.rest s (fun m => m.dropCline slot line) (fun _ => rfl)
theorem loseCline (s : State) (slot line : Nat) : R s (s.updMem (fun m => m.loseCline slot line)) :=
  K.rest s (fun m => m.loseCline slot line) (fun _ => rfl)
theorem findError (s : State) (line : Nat) : R s (s.updMem (fun m => m.findError line)) :=
  K.mem s _ (fun m w => by
    rcases findError_cases m line with h | h | h | ⟨x, d, h⟩ <;> rw [h]
    · exact w
    · exact w
    · unfold Memory.wf at *; rwa [(setSide_rest _ _ _).2.1]
    · have := Memory.wf_setDram w line x
      unfold Memory.wf at *; rwa [(setSide_rest _ _ _).2.1])
theorem setL1 (s : State) (g line : Nat) (f : Memory → L1Line) : R s (s.updMem (fun m => m.setL1 g line (f m))) :=
  K.rest s (fun m => m.setL1 g line (f m)) (fun _ => rfl)
theorem dropL1 (s : State) (g line : Nat) : R s (s.updMem (fun m => m.dropL1 g line)) :=
  K.rest s (fun m => m.dropL1 g line) (fun _ => rfl)
theorem clearResv (s : State) (line : Nat) : R s (s.updMem (fun m => m.clearResv line)) :=
  K.rest s (fun m => m.clearResv line) (fun _ => rfl)
theorem loseResv (s : State) (a line : Nat) : R s (s.updMem (fun m => m.loseResv a line)) :=
  K.rest s (fun m => m.loseResv a line) (fun _ => rfl)
theorem othersResv (s : State) (a line : Nat) : R s (s.updMem (fun m => m.othersResv a line)) :=
  K.rest s (fun m => m.othersResv a line) (fun _ => rfl)
theorem setTxns (s : State) (f : Memory → Map Txn) : R s (s.updMem (fun m => { m with txns := f m })) :=
  K.rest s (fun m => { m with txns := f m }) (fun _ => rfl)
theorem mergeHome (s : State) (line : Nat) (y : Line) : R s (s.updMem (fun m => (m.setDram line y).clearResv line)) :=
  by
  rw [← State.updMem_updMem s (fun m => m.setDram line y) (fun m => m.clearResv line)]
  exact K.trans (K.mem s (fun m => m.setDram line y) (fun m w => Memory.wf_setDram w line y)) (K.clearResv _ line)
theorem reply (s : State) (b line : Nat) (x : Line) (p : Bool) (f : CacheSt) : R s (s.reply b line x p f) := K.send _ _
theorem replyAck (s : State) (b line : Nat) : R s (s.replyAck b line) := K.send _ _
theorem replyDone (s : State) (b line : Nat) : R s (s.replyDone b line) := K.send _ _

theorem homeFinish (s : State) (t : Txn) : R s (s.homeFinish t) := by
  have pr : ∀ (u : State) (n : Nat) (d : Side) (b : Nat) (x : Line) (p : Bool) (f : CacheSt),
      R u ((u.putSideFor n t.req.line d).reply b t.req.line x p f) :=
    fun u n d b x p f => K.trans (K.putSideFor u n _ d) (K.reply _ b _ x p f)
  have pa : ∀ (u : State) (d : Side) (b : Nat), R u ((u.putSide t.req.line d).replyDone b t.req.line) :=
    fun u d b => K.trans (K.putSide u _ d) (K.replyDone _ _ _)
  refine K.trans (K.setTxns s (fun m => m.txns.del t.req.line)) ?_
  unfold State.homeFinish
  extract_lets line s1 b d0 d dram x p
  cases hk : t.req.kind
  all_goals simp only []
  case rdS =>
    cases hd : d.st
    all_goals simp only []
    all_goals (repeat' (first | exact pr _ _ _ _ _ _ _ | exact K.reply _ _ _ _ _ _ | apply K.ite))
  case rdX =>
    refine K.ite (K.reply _ _ _ _ _ _) ?_
    exact K.trans (K.trans (K.putSideFor _ _ _ _) (K.othersResv _ _ _)) (K.ite (K.replyAck _ _ _) (K.reply _ _ _ _ _ _))
  case upg =>
    refine K.ite (K.reply _ _ _ _ _ _) ?_
    exact K.trans (K.trans (K.putSideFor _ _ _ _) (K.othersResv _ _ _)) (K.ite (K.replyAck _ _ _) (K.reply _ _ _ _ _ _))
  case wbD => exact K.ite (K.trans (K.putHome _ _ _ _) (pa _ _ _)) (K.replyDone _ _ _)
  case cln =>
    exact K.ite (K.trans (K.putHome _ _ _ _) (pa _ _ _)) (K.ite (K.trans (K.putHome _ _ _ _) (pa _ _ _)) (K.replyDone _ _ _))
  case hR =>
    cases t.got with
    | none => exact K.refl _
    | some e =>
      refine K.trans (K.putHome s1 line e.1 e.2) ?_
      exact K.ite (K.putSide _ _ _) (K.ite (K.putSide _ _ _) (K.refl _))
  case hW =>
    exact K.trans (K.trans (K.mergeHome s1 line _) (K.putSide _ _ _)) (K.watch _ _ _)
  all_goals exact K.refl _

theorem homeStart (s : State) (m : Msg) : R s (s.homeStart m) := by
  unfold State.homeStart
  refine K.trans (K.trans (K.touch s m.line m.slot) (K.findError _ m.line)) ?_
  extract_lets u d ps t
  cases ps with
  | nil => exact K.homeFinish _ _
  | cons a r =>
    refine K.trans (K.setTxns u (fun x => x.txns.put m.line t)) ?_
    exact K.foldl (fun (s : State) (e : MsgKind × Nat) => s.send { kind := e.1, line := m.line, slot := e.2, req := m.slot })
      (fun _ _ => K.send _ _) _ (a :: r)

theorem homeAnswer (s : State) (line slot : Nat) (d : Option (Line × Bool)) : R s (s.homeAnswer line slot d) := by
  unfold State.homeAnswer
  cases hf : s.mem.txns.find? line with
  | none => exact K.refl _
  | some t =>
    refine K.ite ?_ (K.refl _)
    cases eraseOne slot t.await with
    | nil => exact K.homeFinish _ _
    | cons a r => exact K.setTxns s (fun m => m.txns.put line _)

theorem markOnce (s : State) (slot line : Nat) : R s (s.markOnce slot line) := by
  unfold State.markOnce
  exact K.rest s _ (fun m => by split <;> rfl)

theorem answer (s : State) (slot line : Nat) (k : MsgKind) (x : Line) (p : Bool) : R s (s.answer slot line k x p) := K.send _ _

theorem agentProbe (s : State) (k : MsgKind) (slot line : Nat) : R s (s.agentProbe k slot line) := by
  unfold State.agentProbe
  cases s.mem.wb.find? (agKey slot line) with
  | some c => cases k <;> first | exact K.answer _ _ _ _ _ _ | exact K.trans (K.loseResv _ _ _) (K.answer _ _ _ _ _ _)
  | none =>
    simp only []
    cases s.mem.cline slot line with
    | none => exact K.trans (K.markOnce s slot line) (by cases k <;> exact K.answer _ _ _ _ _ _)
    | some c =>
      have dr : ∀ u : State, R u (u.updMem (fun m => m.loseCline slot line)) := fun u => K.loseCline u slot line
      have kp : ∀ (u : State) st d, R u (u.updMem (fun m => m.setCline slot line { c with st := st, dirty := d })) :=
        fun u st d => K.setCline u slot line (fun _ => _)
      cases k <;> cases hc : c.st <;> simp only [hc] <;>
        first
        | exact K.answer _ _ _ _ _ _
        | exact K.trans (dr _) (K.answer _ _ _ _ _ _)
        | exact K.trans (kp _ _ _) (K.answer _ _ _ _ _ _)
        | exact K.trans (K.trans (dr _) (K.markOnce _ _ _)) (K.answer _ _ _ _ _ _)

theorem agentFill (s : State) (m : Msg) : R s (s.agentFill m) := by
  unfold State.agentFill
  extract_lets key u
  have hu : R s u := K.rest s (fun x => { x with fills := x.fills.put key (m.data, m.poison) }) (fun _ => rfl)
  refine K.trans hu (K.ite ?_ (K.ite (K.refl _) (K.setCline u m.slot m.line (fun _ => _))))
  exact K.rest u (fun x => { x with once := x.once.erase (m.slot, m.line) }) (fun _ => rfl)

theorem agentAck (s : State) (slot line : Nat) (g : Bool) : R s (s.agentAck slot line g) := by
  unfold State.agentAck
  refine K.ite (K.rest s (fun m => { m with wb := m.wb.del (agKey slot line) }) (fun _ => rfl)) ?_
  cases s.mem.cline slot line with
  | none => exact K.refl _
  | some c =>
    have kp : ∀ x, R s (s.updMem (fun m => m.setCline slot line x)) := fun x => K.setCline s slot line (fun _ => x)
    exact K.ite (K.ite (kp _) (K.refl _)) (K.ite (kp _) (K.ite (kp _) (K.refl _)))

theorem toPeer (s : State) (m : Msg) : R s (s.toPeer m) := K.ite (K.agentAck s _ _ _) (K.refl _)

theorem remoteProbe (s : State) (k : MsgKind) (slot line : Nat) : R s (s.remoteProbe k slot line) := by
  unfold State.remoteProbe
  cases k <;> exact K.homeAnswer _ _ _ _

theorem deliver (s : State) (m : Msg) : R s (s.deliver m) := by
  unfold State.deliver
  exact K.ite (K.toPeer s m) (K.ite (K.homeStart s m) (K.ite (K.homeAnswer s _ _ _) (K.ite (K.ite (K.remoteProbe s _ _ _) (K.refl _))
    (K.ite (K.agentProbe s _ _ _) (K.ite (K.agentFill s m) (K.agentAck s _ _ _))))))

theorem deliverKind (s : State) (k : MsgKind) (slot line : Nat) : R s (s.deliverKind k slot line) := by
  unfold State.deliverKind
  refine K.ite (K.refl _) ?_
  split
  · exact K.trans (K.setMsgs s _) (K.deliver _ _)
  · exact K.refl _

theorem settleFuel (f : Nat) (s : State) (line : Nat) : R s (State.settleFuel f s line) := by
  induction f generalizing s with
  | zero => exact K.refl _
  | succ f ih =>
    unfold State.settleFuel
    split
    · exact K.trans (K.trans (K.setMsgs s _) (K.deliver _ _)) (ih _)
    · exact K.refl _

theorem settle (s : State) (line : Nat) : R s (s.settle line) := K.settleFuel _ s line
theorem ask (s : State) (m : Msg) (line : Nat) : R s ((s.send m).settle line) := K.trans (K.send s m) (K.settle _ _)

theorem homeRead (s : State) (line : Nat) (die : Option Nat := none) : R s (s.homeRead line die).1 := K.trans (K.settle s line) (K.ask _ _ _)
theorem homeWrite (s : State) (line : Nat) (mask : BitVec 128) (x : Line) (ms p : Bool) (die : Option Nat := none) :
    R s (s.homeWrite line mask x ms p die) :=
  K.trans (K.settle s line) (K.ask _ _ _)
theorem msRead (s : State) (line : Nat) (die : Option Nat := none) : R s (s.msRead line die).1 :=
  K.trans (K.settle s line) (K.ite (K.trans (K.touch _ _ _) (K.findError _ _)) (K.homeWrite _ _ _ _ _ _ die))

theorem agentRead (s : State) (slot line : Nat) : R s (s.agentRead slot line).1 := by
  have a := K.settle s line
  unfold State.agentRead
  simp only []
  cases (s.settle line).mem.cline slot line with
  | some c => exact a
  | none =>
    have b := K.ask (s.settle line) { kind := .rdS, line := line, slot := slot } line
    simp only []
    cases (((s.settle line).send { kind := .rdS, line := line, slot := slot }).settle line).mem.cline slot line <;> exact K.trans a b

theorem agentOwn (s : State) (slot line : Nat) : R s (s.agentOwn slot line).1 := by
  have a := K.settle s line
  have b : ∀ m : Msg, R (s.settle line) (((s.settle line).send m).settle line) := fun m => K.ask _ m line
  unfold State.agentOwn
  simp only []
  cases (s.settle line).mem.cline slot line with
  | none => exact K.trans a (b _)
  | some c =>
    simp only []
    by_cases h1 : c.st = .M
    · rw [if_pos h1]; exact a
    · rw [if_neg h1]
      split <;> exact K.trans a (b _)

theorem agentPut (s : State) (slot line : Nat) (mask : BitVec 128) (x : Line) (cl : Bool := true) :
    R s (s.agentPut slot line mask x cl) := by
  cases hc : s.mem.cline slot line with
  | none =>
    have e : s.agentPut slot line mask x cl = s := by unfold State.agentPut State.updMem; simp only [hc]
    rw [e]; exact K.refl _
  | some c =>
    have e : s.agentPut slot line mask x cl = s.updMem (fun m => m.setCline slot line { c with
        data := mergeLine c.data x mask, dirty := true, poison := c.poison && !(cl && mask = fullMask) }) := by
      unfold State.agentPut State.updMem; simp only [hc]
    rw [e]
    exact K.setCline s slot line (fun _ => _)

theorem agentStore (s : State) (slot line : Nat) (mask : BitVec 128) (x : Line) : R s (s.agentStore slot line mask x) :=
  K.trans (K.trans (K.agentOwn s slot line) (K.clearResv _ line)) (K.ite (K.agentPut _ _ _ _ _) (K.homeWrite _ _ _ _ _ _))

theorem privRead (s : State) (die line : Nat) : R s (s.privRead die line).1 := by
  unfold State.privRead
  simp only []
  cases s.mem.cline (s.agentId die) line with
  | some c => exact K.refl _
  | none => exact K.trans (K.trans (K.findError s line) (K.touch _ _ _)) (K.setCline _ _ line (fun _ => _))

theorem privStore (s : State) (die line : Nat) (mask : BitVec 128) (x : Line) (cl : Bool := true) :
    R s (s.privStore die line mask x cl) :=
  K.trans (K.trans (K.privRead s die line) (K.clearResv _ line)) (K.agentPut _ _ _ _ _ cl)

theorem flushL1 (s : State) (g line : Nat) : R s (s.flushL1 g line) := by
  unfold State.flushL1
  cases s.mem.l1Line g line with
  | none => exact K.refl _
  | some c => exact K.trans (K.ite (K.privStore s _ _ _ _ _) (K.refl _)) (K.dropL1 _ g line)

theorem cleanL1 (s : State) (g line : Nat) : R s (s.cleanL1 g line) := by
  unfold State.cleanL1
  cases s.mem.l1Line g line with
  | none => exact K.refl _
  | some c => exact K.trans (K.ite (K.privStore s _ _ _ _ _) (K.refl _)) (K.setL1 _ g line (fun _ => _))

theorem evictAgent (s : State) (slot line : Nat) : R s (s.evictAgent slot line) := by
  have dr : ∀ u : State, R u (u.updMem (fun m => m.dropCline slot line)) := fun u => K.dropCline u slot line
  have wb : ∀ (u : State) (c : CLine), R u (u.updMem (fun m => { m.dropCline slot line with wb := m.wb.put (agKey slot line) c })) :=
    fun u c => K.rest u (fun m => { m.dropCline slot line with wb := m.wb.put (agKey slot line) c }) (fun _ => rfl)
  unfold State.evictAgent
  cases s.mem.cline slot line with
  | none => exact K.refl _
  | some c =>
    cases hc : c.st <;> simp only [hc] <;> first
      | exact K.trans (wb s c) (K.send _ _)
      | exact K.trans (K.ite (K.trans (K.touch s _ _) (K.putHome _ _ _ _)) (K.refl _)) (dr _)
      | exact dr _

theorem cleanPriv (s : State) (die line : Nat) : R s (s.cleanPriv die line) := by
  unfold State.cleanPriv
  simp only []
  cases s.mem.cline (s.agentId die) line with
  | none => exact K.refl _
  | some c => exact K.ite (K.trans (K.trans (K.touch s _ _) (K.putHome _ _ _ _)) (K.setCline _ _ line (fun _ => _))) (K.refl _)

theorem l2Read (s : State) (die cls line : Nat) : R s (s.l2Read die cls line).1 := by
  unfold State.l2Read
  split
  · exact K.agentRead s _ _
  · exact K.privRead s _ _

theorem loadLine (s : State) (g cls line : Nat) (need : BitVec 128) (noL1 : Bool) : R s (s.loadLine g cls line need noL1).1 := by
  unfold State.loadLine
  by_cases h3 : cls = 3
  · rw [if_pos h3]; exact K.msRead s line _
  · rw [if_neg h3]
    have a : R s (if (noL1 && decide (cls = 0)) = true then s.flushL1 g line else s) := K.ite (K.flushL1 s g line) (K.refl _)
    generalize (if (noL1 && decide (cls = 0)) = true then s.flushL1 g line else s) = u at a
    have b := K.l2Read u (dieOf g) cls line
    cases hu : u.mem.l1Line g line with
    | some c =>
      simp only [hu]
      by_cases hv : c.valid &&& need = need
      · rw [if_pos hv]; exact a
      · rw [if_neg hv]; exact K.trans (K.trans a b) (K.setL1 _ g line (fun _ => _))
    | none =>
      simp only [hu]
      exact K.trans (K.trans a b) (K.ite (K.refl _) (K.setL1 _ g line (fun _ => _)))

theorem mergeL1 (s : State) (g line : Nat) (mask : BitVec 128) (x : Line) :
    R s (s.updMem (fun m => match m.l1Line g line with
      | some c => m.setL1 g line { c with data := mergeLine c.data x mask, valid := c.valid ||| mask
                                          poison := c.poison && mask ≠ fullMask }
      | none => m)) := by
  cases hc : s.mem.l1Line g line with
  | none => unfold State.updMem; simp only [hc]; exact K.refl _
  | some c =>
    have h := K.setL1 s g line (fun _ => { c with data := mergeLine c.data x mask, valid := c.valid ||| mask,
                                                  poison := c.poison && mask ≠ fullMask })
    unfold State.updMem at h ⊢
    simp only [hc]
    exact h

theorem storeLine (s : State) (g cls line : Nat) (mask : BitVec 128) (x : Line) (noL1 : Bool) :
    R s (s.storeLine g cls line mask x noL1) := by
  unfold State.storeLine
  refine K.ite (K.homeWrite s _ _ _ _ _ _) (K.ite ?_ ?_)
  · exact K.rest s (fun m =>
      let c := (m.l1Line g line).getD { poison := s.metaPoison (dieOf g) line }
      (m.clearResv line).setL1 g line
        { c with data := mergeLine c.data x mask, valid := c.valid ||| mask, dirty := c.dirty ||| mask
                 poison := c.poison && mask ≠ fullMask }) (fun _ => rfl)
  · exact K.trans (K.ite (K.flushL1 s g line) (K.mergeL1 s g line mask x)) (K.ite (K.agentStore _ _ _ _ _) (K.privStore _ _ _ _ _))

theorem acquire (s : State) (g scope : Nat) : R s (s.acquire g scope) := by
  unfold State.acquire
  exact K.ite (K.refl _)
    (K.rest s (fun m => { m with l1 := m.l1.filter (fun e => !(e.1 / 2 ^ 45 = g && e.2.shared)) }) (fun _ => rfl))

theorem physRead (s : State) (pa n : Nat) (die : Option Nat := none) : R s (s.physRead pa n die).1 :=
  K.foldl _ (fun s _ => K.homeRead s _ _) s _
theorem physWord (s : State) (pa : Nat) (die : Option Nat := none) : R s (s.physWord pa die).1 := K.physRead s pa 8 die
theorem physWrite (s : State) (pa : Nat) (b : List Byte) (ms : Bool) : R s (s.physWrite pa b ms) :=
  K.foldl (fun (s : State) (e : Nat × Nat × List Byte) =>
    s.homeWrite e.1 (byteMask e.2.1 e.2.2.length) (setLineBytes 0 e.2.1 e.2.2) ms) (fun s _ => K.homeWrite s _ _ _ _ _) s _
theorem physSetWord (s : State) (pa : Nat) (x : W64) : R s (s.physSetWord pa x) := K.physWrite s pa _ _

theorem purgeLine (s : State) (line : Nat) : R s (s.purgeLine line) := by
  unfold State.purgeLine
  refine K.trans (K.settle s line) (K.trans (K.foldl _ (fun s _ => K.ite (K.flushL1 s _ _) (K.refl _)) _ _)
    (K.trans (K.foldl _ (fun s _ => ?_) _ _) (K.ite (K.rest _ _ (fun _ => rfl)) (K.homeWrite _ _ _ _ _ _))))
  simp only []
  split
  · exact K.ite (K.evictAgent s _ _) (K.refl _)
  · exact K.refl _

theorem ctrWords (s : State) (pa : Nat) (h : s.isLocal pa = true) : R s (s.ctrWords pa).1 := by
  unfold State.ctrWords; rw [if_pos h]; exact K.physRead s pa 16
theorem ctrAdvance (s : State) (pa k : Nat) (f : Bool) (h : s.isLocal pa = true) : R s (s.ctrAdvance pa k f) := by
  unfold State.ctrAdvance; rw [if_neg (by simp [h])]; exact K.trans (K.ctrWords s pa h) (K.physWrite _ _ _ _)

end Kept

theorem Bytes.wfFrom_filter {m : Bytes} {b : Nat} (p : Nat × Byte → Bool) (h : Bytes.wfFrom m b = true) :
    Bytes.wfFrom (m.filter p) b = true := by
  induction m generalizing b with
  | nil => exact h
  | cons e r ih =>
    obtain ⟨k, v⟩ := e
    simp only [Bytes.wfFrom, Bool.and_eq_true, decide_eq_true_eq] at h
    by_cases hp : p (k, v) = true
    · rw [List.filter_cons_of_pos hp]
      simp only [Bytes.wfFrom, Bool.and_eq_true, decide_eq_true_eq]
      exact ⟨h.1, ih h.2⟩
    · rw [List.filter_cons_of_neg hp]
      exact Bytes.wfFrom_mono (ih h.2) (by omega)

/-- Zeroing a frame keeps the canonical form. -/
theorem wf_zeroFrame (s : State) (frame : Nat) (h : s.mem.wf = true) : (s.zeroFrame frame).mem.wf = true :=
  Bytes.wfFrom_filter _ h

end Sys2Proof.Machine
end

