-- ==== Sys2Proof/Laws/Peers.lean ====
section
/-! SUPPORT. What an access to a line of another package keeps: the clusters, the launches, the queues and the engines stay, and
memory keeps its canonical form. A relation that the single steps of coherence and a request to another package keep holds across
every such access. -/

-- One declaration after another: a thread for each proof would need more address space than a check gives.
set_option Elab.async false

namespace Sys2Proof.Machine

/-- The parties, the launches, the queues and the engines are as they were. -/
def SameParties (s t : State) : Prop :=
  t.clusters = s.clusters ∧ t.work.launches = s.work.launches ∧ t.work.queues = s.work.queues ∧ t.eng = s.eng

theorem SameParties.refl (s : State) : SameParties s s := ⟨rfl, rfl, rfl, rfl⟩
theorem SameParties.trans {s t u : State} (a : SameParties s t) (b : SameParties t u) : SameParties s u :=
  ⟨b.1.trans a.1, b.2.1.trans a.2.1, b.2.2.1.trans a.2.2.1, b.2.2.2.trans a.2.2.2⟩

/-- A relation that the steps of coherence keep, and with them a request to another package. -/
structure Asks (R : State → State → Prop) : Prop extends Kept R where
  sent : ∀ (s : State) (who : List Thread) (line : Nat) (write : Bool), R s (s.tlainSend who line write).1

/-- The four ways that a request to another package can end (R352). -/
theorem tlainSend_cases (s : State) (who : List Thread) (line : Nat) (write : Bool) :
    s.tlainSend who line write = (s.tlainDrop, false) ∨ s.tlainSend who line write = (s, true)
    ∨ s.tlainSend who line write = (s.waitReply.tlainDrop, false)
    ∨ ∃ q, s.tlainSend who line write = ({ s with out := { s.out with tlain := s.out.tlain ++ [q] } }, false) := by
  unfold State.tlainSend
  split
  · exact .inl rfl
  · split
    · exact .inr (.inl rfl)
    · split
      · exact .inr (.inr (.inl rfl))
      · exact .inr (.inr (.inr ⟨_, rfl⟩))

/-- An MSI is a change of what leaves the package alone. -/
theorem sendMsi_frame (s : State) (x : W64) : SameParties s (s.sendMsi x) ∧ (s.sendMsi x).mem = s.mem := by
  unfold State.sendMsi State.raiseMsi
  simp only []
  split
  · split <;> exact ⟨⟨rfl, rfl, rfl, rfl⟩, rfl⟩
  · exact ⟨.refl s, rfl⟩

theorem sameParties_tlainDrop (s : State) : SameParties s s.tlainDrop := (sendMsi_frame (s.setCtl 0 0x13B (s.ctlOf 0 0x13B + 1)) _).1
theorem mem_tlainDrop (s : State) : s.tlainDrop.mem = s.mem := (sendMsi_frame (s.setCtl 0 0x13B (s.ctlOf 0 0x13B + 1)) _).2

/-- A request changes no memory of this package. -/
theorem mem_tlainSend (s : State) (who : List Thread) (line : Nat) (write : Bool) : (s.tlainSend who line write).1.mem = s.mem := by
  rcases tlainSend_cases s who line write with h | h | h | ⟨q, h⟩ <;> rw [h]
  · exact mem_tlainDrop s
  · exact mem_tlainDrop s.waitReply

theorem asks_wf : Asks (fun s t => s.mem.wf = true → t.mem.wf = true) where
  toKept := kept_wf
  sent s who line write h := by rw [mem_tlainSend]; exact h

theorem kept_sameParties : Kept SameParties where
  refl := .refl
  trans := .trans
  mem s _ _ := .refl s
  touch s l a := by unfold State.sillTouch; simp only []; split <;> (try split) <;> exact .refl s
  watch s l m := by unfold State.counterWatch; simp only []; split <;> exact ⟨rfl, rfl, rfl, rfl⟩

theorem asks_sameParties : Asks SameParties where
  toKept := kept_sameParties
  sent s who line write := by
    rcases tlainSend_cases s who line write with h | h | h | ⟨q, h⟩ <;> rw [h]
    · exact sameParties_tlainDrop s
    · exact .refl s
    · exact sameParties_tlainDrop s.waitReply
    · exact .refl s

namespace Asks

variable {R : State → State → Prop} (A : Asks R)
include A

theorem peerAsk (s : State) (k : MsgKind) (slot line : Nat) : R s (s.peerAsk k slot line) :=
  A.trans (A.toKept.agentProbe s k slot line) (A.toKept.settle _ _)

theorem peerTake (s : State) (slot line : Nat) : R s (s.peerTake slot line) :=
  A.toKept.foldl (fun (s : State) a => match s.mem.cline a line with
    | some c => s.peerAsk (if c.st = .S then .inv else .fwdX) a line
    | none => s) (fun s a => by
      split
      · exact A.peerAsk _ _ _ _
      · exact A.refl s) _ _

theorem peerRead (s : State) (who : List Thread) (slot line : Nat) : R s (s.peerRead who slot line).1 := by
  have h := A.toKept.settle s line
  have h2 := A.trans h (A.sent (s.settle line) who line false)
  unfold State.peerRead
  simp only []
  split
  · exact h
  · split
    · exact h2
    · split
      · exact A.trans h2 (A.trans (A.peerAsk _ _ _ _) (A.toKept.setCline _ slot line (fun _ => _)))
      · exact A.trans h2 (A.toKept.setCline _ slot line (fun _ => _))

theorem peerLoad (s : State) (who : List Thread) (g line : Nat) (noL1 : Bool) : R s (s.peerLoad who g line noL1).1 := by
  unfold State.peerLoad
  split
  · exact A.refl s
  · exact A.trans (A.peerRead s who _ line) (A.toKept.ite (A.refl _) (A.toKept.setL1 _ g line (fun _ => _)))

theorem peerOwn (s : State) (who : List Thread) (slot line : Nat) (write : Bool) : R s (s.peerOwn who slot line write).1 := by
  have h := A.toKept.settle s line
  have h2 := A.trans h (A.sent (s.settle line) who line write)
  have own : ∀ (u : State) (f : Memory → CLine), R u ((u.peerTake slot line).updMem (fun m => m.setCline slot line (f m))) :=
    fun u f => A.trans (A.peerTake u slot line) (A.toKept.setCline _ slot line f)
  unfold State.peerOwn
  simp only []
  split
  · split
    · exact h
    · exact A.trans h2 (A.toKept.ite (own _ (fun _ => _)) (A.refl _))
  · exact A.trans h2 (A.toKept.ite (own _ (fun _ => _)) (A.refl _))

theorem peerPut (s : State) (who : List Thread) (slot line : Nat) (mask : BitVec 128) (x : Line) :
    R s (s.peerPut who slot line mask x) :=
  A.trans (A.trans (A.peerOwn s who slot line true) (A.toKept.clearResv _ line)) (A.toKept.ite (A.toKept.agentPut _ _ _ _ _) (A.refl _))

theorem peerStore (s : State) (who : List Thread) (g line : Nat) (mask : BitVec 128) (x : Line) :
    R s (s.peerStore who g line mask x) :=
  A.trans (A.toKept.rest s (fun m => match m.l1Line g line with
    | some c => m.setL1 g line { c with data := mergeLine c.data x mask, poison := c.poison && mask ≠ fullMask }
    | none => m) (fun m => by split <;> rfl)) (A.peerPut _ who _ line mask x)

theorem remoteRead (s : State) (who : List Thread) (line : Nat) : R s (s.remoteRead who line).1 := A.sent s who line false

theorem askRead (s : State) (who : List Thread) (line : Nat) : R s (s.askRead who line).1 := by
  have h := A.toKept.settle s line
  have h2 := A.trans h (A.sent (s.settle line) who line false)
  unfold State.askRead
  simp only []
  split
  · exact h2
  · split
    · exact A.trans h2 (A.peerAsk _ _ _ _)
    · exact h2

theorem askWrite (s : State) (who : List Thread) (line : Nat) : R s (s.askWrite who line) :=
  A.trans (A.trans (A.trans (A.toKept.settle s line)
    (A.toKept.foldl (fun (s : State) a => if (s.mem.cline a line).isSome then s.peerAsk .rcl a line else s)
      (fun _ _ => A.toKept.ite (A.peerAsk _ _ _ _) (A.refl _)) _ _)) (A.toKept.clearResv _ line)) (A.sent _ who line true)

theorem peerProbe (s : State) (k : MsgKind) (slot line : Nat) : R s (s.peerProbe k slot line) :=
  A.toKept.ite (A.refl s) (A.toKept.ite
    (A.trans (A.toKept.foldl (fun (s : State) a => s.agentProbe .inv a line) (fun s a => A.toKept.agentProbe s .inv a line) s _)
      (A.toKept.settle _ line))
    (A.toKept.ite (A.peerAsk s k slot line) (A.refl s)))

theorem dropCopies (s : State) (line : Nat) : R s (s.dropCopies line) := by
  have cut : ∀ (u : State), R u (u.updMem (fun m => { m with l1 := m.l1.filter (fun e => e.1 % 2 ^ 45 ≠ line) })) :=
    fun u => A.toKept.rest u _ (fun _ => rfl)
  have cut2 : ∀ (u : State), R u (u.updMem (fun m => { m.clearResv line with l1 := m.l1.filter (fun e => e.1 % 2 ^ 45 ≠ line) })) :=
    fun u => A.toKept.rest u _ (fun _ => rfl)
  unfold State.dropCopies
  refine A.toKept.ite (A.trans (A.toKept.purgeLine s line) (cut _)) ?_
  refine A.trans (A.trans ?_ (A.toKept.settle _ line)) (cut2 _)
  exact A.toKept.foldl _ (fun s _ => A.toKept.evictAgent s _ line) _ _

theorem atHome (s : State) (who : List Thread) (line : Nat) (die : Option Nat := none) : R s (s.atHome who line die).1 := by
  unfold State.atHome
  split
  · exact A.trans (A.touch s line (homeSide die)) (A.toKept.findError _ line)
  · exact A.askRead s who line

end Asks

/-- A die that polls a counter changes no party, and its next poll comes CTL_SEQPOLL cycles later (R42). -/
theorem sameParties_pollNow (s : State) (pa die : Nat) : SameParties s (s.pollNow pa die) := ⟨rfl, rfl, rfl, rfl⟩
@[simp] theorem mem_pollNow (s : State) (pa die : Nat) : (s.pollNow pa die).mem = s.mem := rfl
theorem pollDue_pollNow (s : State) (pa die : Nat) :
    (s.pollNow pa die).pollDue pa die = decide (s.pollClock die + s.pkgReg 0x114 ≤ s.pollClock die) := by
  unfold State.pollDue
  rw [show (s.pollNow pa die).xl.polls = s.xl.polls.put (pollKey pa die) (s.pollClock die) from rfl, Map.get_put_self]
  rfl

/-- No reservation on a cleared line is left (R261). -/
theorem Memory.clearResv_resv (m : Memory) (line : Nat) (r : Resv) (h : r ∈ (m.clearResv line).resv) : r.line ≠ line :=
  of_decide_eq_true (List.mem_filter.mp h).2

theorem resv_updMem_clear (u : State) (line : Nat) (r : Resv) (h : r ∈ (u.updMem (fun m => m.clearResv line)).mem.resv) :
    r.line ≠ line := u.mem.clearResv_resv line r h

/-- After a write at the home of a line of another package no agent of this package has a reservation on it (R261). -/
theorem askWrite_resv (s : State) (who : List Thread) (line : Nat) (r : Resv) (h : r ∈ (s.askWrite who line).mem.resv) :
    r.line ≠ line := by
  unfold State.askWrite at h
  simp only [mem_tlainSend] at h
  exact resv_updMem_clear _ line r h

end Sys2Proof.Machine
end

