-- ==== Sys2Proof/Tests/Slice0.lean ====
section
/-! SUPPORT. Tests: words of the spec's encodings, ill-formed terms, values of the spec's own examples, and states that meet the
hypotheses of each statement. -/

open Sys2Proof Sys2Proof.Machine

namespace Sys2Proof.Tests

set_option Elab.async false

/-- R106 to R114: the listing of chapter 5, word by word. -/
theorem test_decode_control :
    decode .lane (wordsOfNat [0x0000000000001001]) = .one (.jarmSet {}) 8
    ∧ decode .lane (wordsOfNat [0x000000000000042A] ++ [0x20]) = .one (.bra { form := .f96, ge := true, gp := 2, ext := 0x20 }) 12
    ∧ decode .lane (wordsOfNat [0x0000000000000402] ++ [0x14]) = .one (.bra { form := .f96, ext := 0x14 }) 12
    ∧ decode .lane (wordsOfNat [0x0000000000001201]) = .one (.rejoin {}) 8
    ∧ decode .lane (wordsOfNat [0x000F000000000E01]) = .one (.exit { cs := 3, bs := 3 }) 8
    ∧ decode .lane (wordsOfNat [0x0100000000000201]) = .one (.nop { m := 4 }) 8
    ∧ decode .lane (wordsOfNat [0x0000000004000601]) = .one (.brx { a := 4 }) 8
    ∧ decode .lane (wordsOfNat [0x0000000000020802] ++ [0xfffffff8]) = .one (.call { form := .f96, d := 2, ext := 0xfffffff8 }) 12
    ∧ decode .lane (wordsOfNat [0x0000000004020A01]) = .one (.callx { d := 2, a := 4 }) 8
    ∧ decode .lane (wordsOfNat [0x0000000002000C01]) = .one (.ret { a := 2 }) 8
    ∧ decode .lane (wordsOfNat [0x0000000000001401]) = .one (.yield {}) 8
    ∧ decode .lane (wordsOfNat [0x000300070000FA01]) = .one (.pause { b := 7, bs := 3 }) 8
    ∧ decode .lane (wordsOfNat [0x0003000900001E01]) = .one (.brk { b := 9, bs := 3 }) 8
    ∧ decode .lane (wordsOfNat [0x0400000000011001]) = .one (.jarmAdd { d := 1, m := 0x10 }) 8
    ∧ decode .lane (wordsOfNat [0x0800000000011001]) = .one (.jarmClr { d := 1, m := 0x20 }) 8
    ∧ decode .lane (wordsOfNat [0x0C01000500021001]) = .one (.jarmLoad { d := 2, b := 5, bs := 1, m := 0x30 }) 8 := by
  decide +kernel

/-- R115 to R119. -/
theorem test_decode_predicates :
    decode .lane (wordsOfNat [0x0000000000024C01]) = .one (.movsp { d := 2 }) 8
    ∧ decode .lane (wordsOfNat [0x040F000402001801]) = .one (.pmovFromr { a := 2, b := 4, cs := 3, bs := 3, m := 0x10 }) 8
    ∧ decode .lane (wordsOfNat [0x0000000000031801]) = .one (.pmovTor { d := 3 }) 8
    ∧ decode .lane (wordsOfNat [0x000000000F101C01]) = .one (.match_ { d := 0x10, a := 0xf }) 8
    ∧ decode .lane (wordsOfNat [0x0420000002011A01]) = .one (.vote { d := 1, a := 2, ds := 2, m := 0x10 }) 8
    ∧ decode .lane (wordsOfNat [0x40A0020100031601]) = .one (.plop3 { d := 3, b := 1, c := 2, ds := 2, m := 0x102 }) 8 := by
  decide +kernel

/-- R145 to R166: words of chapters 4, 5 and 7. -/
theorem test_decode_integers :
    decode .lane (wordsOfNat [0x0003000A02032001]) = .one (.iadd { d := 3, a := 2, b := 0xa, bs := 3 }) 8
    ∧ decode .spine (wordsOfNat [0x0083004001032001]) = .one (.iadd { d := 3, a := 1, b := 0x40, bs := 3, m := 2 }) 8
    ∧ decode .mseq (wordsOfNat [0x0083004001032001]) = .one (.iadd { d := 3, a := 1, b := 0x40, bs := 3, m := 2 }) 8
    ∧ decode .lane (wordsOfNat [0x004300000B0A2002] ++ [0xfffe7960]) = .one (.iadd { form := .f96, d := 0xa, a := 0xb, bs := 3, m := 1, ext := 0xfffe7960 }) 12
    ∧ decode .lane (wordsOfNat [0x0000000B0A042201]) = .one (.isub { d := 4, a := 0xa, b := 0xb }) 8
    ∧ decode .lane (wordsOfNat [0x0440060504032801]) = .one (.imad { d := 3, a := 4, b := 5, c := 6, m := 0x11 }) 8
    ∧ decode .lane (wordsOfNat [0x7400040302013001]) = .one (.bool3 { d := 1, a := 2, b := 3, c := 4, m := 0x1d0 }) 8
    ∧ decode .lane (wordsOfNat [0x0C0F050105065601]) = .one (.xlane { d := 6, a := 5, b := 1, c := 5, cs := 3, bs := 3, m := 0x30 }) 8 := by
  decide +kernel

/-- R169 to R189: words of chapter 8. -/
theorem test_decode_floats :
    decode .lane (wordsOfNat [0x2500040302016401]) = .one (.ffma { d := 1, a := 2, b := 3, c := 4, m := 0x94 }) 8
    ∧ decode .lane (wordsOfNat [0x0102030006036405]) = .one (.ffma { sw := true, d := 3, a := 6, c := 3, bs := 2, m := 4 }) 8
    ∧ decode .lane (wordsOfNat [0x030C240004038201]) = .one (.f2f { d := 3, a := 4, c := 0x24, cs := 3, m := 0xc }) 8
    ∧ decode .lane (wordsOfNat [0x00010004080C8801]) = .one (.cvq { d := 0xc, a := 8, b := 4, bs := 1 }) 8
    ∧ decode .lane (wordsOfNat [0x40011404080D8801]) = .one (.cvq { d := 0xd, a := 8, b := 4, c := 0x14, bs := 1, m := 0x100 }) 8
    ∧ decode .lane (wordsOfNat [0x08010004080E8801]) = .one (.cvq { d := 0xe, a := 8, b := 4, bs := 1, m := 0x20 }) 8
    ∧ decode .lane (wordsOfNat [0x0001020503069001]) = .one (.sample { d := 6, a := 3, b := 5, c := 2, bs := 1 }) 8 := by
  decide +kernel

/-- R196 to R209: words of chapters 9 and 18. -/
theorem test_decode_memory :
    decode .lane (wordsOfNat [0x100300100406A001]) = .one (.ld { d := 6, a := 4, b := 0x10, bs := 3, m := 0x40 }) 8
    ∧ decode .spine (wordsOfNat [0x000300000A00B002] ++ [0x10000]) = .one (.cmaintClean { form := .f96, a := 0xa, bs := 3, ext := 0x10000 }) 12
    ∧ decode .spine (wordsOfNat [0x04001000000EB203, 0x10002]) = .one (.msrowZero { form := .f128, d := 0xe, c := 0x10, m := 0x10, ext := 0x10002 }) 16
    ∧ decode .spine (wordsOfNat [0x000010000A0CB203, 0x10002]) = .one (.msrowCopy { form := .f128, d := 0xc, a := 0xa, c := 0x10, ext := 0x10002 }) 16
    ∧ decode .spine (wordsOfNat [0x00000D0B0A0CB403, 0x1000010020]) = .one (.msbank { form := .f128, d := 0xc, a := 0xa, b := 0xb, c := 0xd, ext := 0x1000010020 }) 16 := by
  decide +kernel

/-- R256 to R274: words of chapters 12 and 16 to 18. -/
theorem test_decode_synchronisation :
    decode .lane (wordsOfNat [0x002C04060401D001]) = .one (.seqwait { d := 1, a := 4, b := 6, c := 4, ds := 2, cs := 3 }) 8
    ∧ decode .spine (wordsOfNat [0x002F07021001D001]) = .one (.seqwait { d := 1, a := 0x10, b := 2, c := 7, ds := 2, cs := 3, bs := 3 }) 8
    ∧ decode .lane (wordsOfNat [0x000F07010A00D239]) = .one (.seqadd { ge := true, gp := 3, a := 0xa, b := 1, c := 7, cs := 3, bs := 3 }) 8
    ∧ decode .lane (wordsOfNat [0x080000000100CE05]) = .one (.barSync { sw := true, a := 1, m := 0x20 }) 8
    ∧ decode .lane (wordsOfNat [0x3000000C0000CE39]) = .one (.barRemote { ge := true, gp := 3, b := 0xc, m := 0xc0 }) 8
    ∧ decode .lane (wordsOfNat [0x000300070000CA01]) = .one (.fence { b := 7, bs := 3 }) 8
    ∧ decode .lane (wordsOfNat [0x003300000002D802] ++ [0x1404]) = .one (.pegctlArm { form := .f96, d := 2, ds := 3, bs := 3, ext := 0x1404 }) 12
    ∧ decode .spine (wordsOfNat [0x000200020003D601]) = .one (.pegr { d := 3, b := 2, bs := 2 }) 8
    ∧ decode .lane (wordsOfNat [0x013C04050000D401]) = .one (.pegw { b := 5, c := 4, ds := 3, cs := 3, m := 4 }) 8
    ∧ decode .lane (wordsOfNat [0x013408000502DA01]) = .one (.redw { d := 2, a := 5, c := 8, ds := 3, cs := 1, m := 4 }) 8
    ∧ decode .lane (wordsOfNat [0x000000121314C219]) = .one (.atoms { ge := true, gp := 1, d := 0x14, a := 0x13, b := 0x12 }) 8 := by
  decide +kernel

/-- R215, R226, R229, R233, R234 and R46: words of chapters 10 and 17. -/
theorem test_decode_engines :
    decode .spine (wordsOfNat [0x000000000400E003, 0x4800000403]) = .one (.fork { form := .f128, a := 4, ext := 0x4800000403 }) 16
    ∧ decode .mseq (wordsOfNat [0x000000000000E603, 0x1000280020]) = .one (.mma { form := .f128, ext := 0x1000280020 }) 16
    ∧ decode .cseq (wordsOfNat [0x000000000000E403, 0x80]) = .one (.tcopy { form := .f128, ext := 0x80 }) 16
    ∧ decode .cseq (wordsOfNat [0x000000000100E403, 0x84]) = .one (.tcopy { form := .f128, a := 1, ext := 0x84 }) 16
    ∧ decode .spine (wordsOfNat [0x000000080000E803, 0x201000b]) = .one (.accopAlloc { form := .f128, b := 8, ext := 0x201000b }) 16
    ∧ decode .lane (wordsOfNat [0x040100020008EA01]) = .one (.accrd { d := 8, b := 2, bs := 1, m := 0x10 }) 8
    ∧ decode .lane (wordsOfNat [0x0001000C0007EA05]) = .one (.accrd { sw := true, d := 7, b := 0xc, bs := 1 }) 8
    ∧ decode .lane (wordsOfNat [0x002000000801F003, 0x9]) = .one (.spawn { form := .f128, d := 1, a := 8, ds := 2, ext := 0x9 }) 16
    ∧ decode .lane (wordsOfNat [0x002000000402F01B, 0x540007]) = .one (.spawn { form := .f128, ge := true, gp := 1, d := 2, a := 4, ds := 2, ext := 0x540007 }) 16 := by
  decide +kernel

/-- R298 to R300: words of chapter 14. -/
theorem test_decode_traps :
    decode .lane (wordsOfNat [0x000300050000F201]) = .one (.trap { b := 5, bs := 3 }) 8
    ∧ decode .lane (wordsOfNat [0x000000000000F401]) = .one (.eret {}) 8
    ∧ decode .lane (wordsOfNat [0x000F000D0002F601]) = .one (.ctlr { d := 2, b := 0xd, cs := 3, bs := 3 }) 8
    ∧ decode .lane (wordsOfNat [0x000F00080008F601]) = .one (.ctlr { d := 8, b := 8, cs := 3, bs := 3 }) 8
    ∧ decode .spine (wordsOfNat [0x000F00010500F801]) = .one (.ctlw { a := 5, b := 1, cs := 3, bs := 3 }) 8 := by
  decide +kernel

/-- R75 to R83, R86: an ill-formed term for each check that WellFormed shares among operations: unit, form, guard, spaces,
indices, alignment, types, sub-operations, unused fields, immediates and extension bits. -/
theorem test_illFormed_fields :
    WellFormed .mseq (.imul { d := 1, a := 1, b := 1 }) = false          -- unit: IMUL is not marked Q
    ∧ WellFormed .spine (.mma { form := .f128, ext := 0x1000280020 }) = false
    ∧ WellFormed .lane (.iadd { form := .f128, d := 1 }) = false          -- form
    ∧ WellFormed .lane (.bra { ext := 0 }) = false
    ∧ WellFormed .lane (.iadd { gp := 1 }) = false                        -- guard fields without GE
    ∧ WellFormed .lane (.iadd { gs := true }) = false
    ∧ WellFormed .cseq (.iadd { ge := true, gp := 4 }) = false            -- guard above p3 in a sequencer
    ∧ WellFormed .spine (.iadd { bs := 1 }) = false                       -- w space in spine code
    ∧ WellFormed .spine (.iadd { ds := 1 }) = false
    ∧ WellFormed .mseq (.iadd { bs := 2 }) = false                        -- pg in a sequencer
    ∧ WellFormed .lane (.iadd { ds := 2 }) = false                        -- a predicate destination
    ∧ WellFormed .lane (.idiv { ds := 1 }) = false                        -- not marked U
    ∧ WellFormed .lane (.iadd { ds := 1, d := 64 }) = false               -- w64
    ∧ WellFormed .lane (.iadd { ds := 1, b := 64 }) = false
    ∧ WellFormed .lane (.iadd { bs := 1, b := 64 }) = false
    ∧ WellFormed .spine (.iadd { a := 64 }) = false                       -- s64
    ∧ WellFormed .mseq (.iadd { a := 16 }) = false                        -- e16
    ∧ WellFormed .lane (.iadd { m := 2, d := 3 }) = false                 -- an odd pair
    ∧ WellFormed .lane (.isetp { ds := 2, d := 16 }) = false              -- p16
    ∧ WellFormed .mseq (.isetp { ds := 2, d := 4 }) = false               -- p4 in a sequencer
    ∧ WellFormed .lane (.iadd { m := 14 }) = false                        -- a reserved type
    ∧ WellFormed .lane (.iadd { m := 0x20 }) = false                      -- a reserved SUB
    ∧ WellFormed .lane (.iadd { c := 1 }) = false                         -- an unused field
    ∧ WellFormed .lane (.iadd { cs := 1 }) = false                        -- the space of an unused field
    ∧ WellFormed .lane (.iadd { form := .f96, bs := 3, b := 1, ext := 9 }) = false  -- B beside IMM32
    ∧ WellFormed .lane (.iadd3 { form := .f96, cs := 3, c := 1, ext := 9 }) = false -- C beside IMM32
    ∧ WellFormed .lane (.iadd { form := .f96, ext := 9 }) = false         -- IMM32 without an immediate
    ∧ WellFormed .lane (.iadd { form := .f96, bs := 3, ext := 0x100000000 }) = false
    ∧ WellFormed .lane (.iadd { ext := 1 }) = false
    ∧ WellFormed .lane (.bra { form := .f96, ext := 2 }) = false          -- offset no multiple of 4
    ∧ WellFormed .lane .powerOn = false := by decide +kernel

/-- An ill-formed term for each check that stands in the entries of some operations. -/
theorem test_illFormed_entries :
    WellFormed .lane (.nop { m := 33 }) = false                           -- R106: FB above 32
    ∧ WellFormed .lane (.jarmSet { d := 4 }) = false                      -- R111: mask above 3
    ∧ WellFormed .lane (.rejoin { a := 4 }) = false                       -- R112
    ∧ WellFormed .lane (.plop3 { ds := 2, m := 1 }) = false               -- R115: M[6]
    ∧ WellFormed .lane (.vote { ds := 2, a := 32 }) = false               -- R117
    ∧ WellFormed .lane (.movsp { b := 19 }) = false                       -- R119: no such register
    ∧ WellFormed .spine (.movsp { b := 5 }) = false
    ∧ WellFormed .lane (.tlut { c := 3 }) = false                         -- R164
    ∧ WellFormed .lane (.xlane { cs := 3, c := 6, bs := 3 }) = false      -- R165
    ∧ WellFormed .lane (.fadd { m := 0x87 }) = false                      -- R135: FTZ of f64
    ∧ WellFormed .lane (.f2f { m := 4, cs := 3, c := 4 }) = false         -- R179: same type
    ∧ WellFormed .lane (.f2f { m := 12, cs := 3, c := 0x44 }) = false     -- R178: selector out of range
    ∧ WellFormed .lane (.cvq { m := 0x08 }) = false                       -- R182: reserved format
    ∧ WellFormed .lane (.ld { m := 0x70 }) = false                        -- R197: size code 7
    ∧ WellFormed .lane (.msrowZero { form := .f128, m := 0x10, ext := 0x10000 }) = false  -- R208: no pages
    ∧ WellFormed .lane (.msbank { form := .f128, ext := 0x500010001 }) = false            -- R210: operation 5
    ∧ WellFormed .spine (.fork { form := .f128, ext := 0 }) = false       -- R215: no sequencer named
    ∧ WellFormed .spine (.rdv { bs := 3, b := 4 }) = false                -- R217
    ∧ WellFormed .cseq (.tcopy { form := .f128, ext := 0x100 }) = false   -- R226: reserved bits
    ∧ WellFormed .mseq (.mma { form := .f128, ext := 0x1000280000 }) = false              -- R229: one ring for A and B
    ∧ WellFormed .spine (.accopAlloc { form := .f128, m := 0, ext := 0x0201000F }) = false -- R233: seven operands
    ∧ WellFormed .spine (.coll { form := .f128, ext := 3 }) = false       -- R237: operation 3
    ∧ WellFormed .lane (.atom { m := 0xC0 }) = false                      -- R258: SUB 12
    ∧ WellFormed .lane (.red { m := 0x60 }) = false                       -- R258: EXCH has no RED
    ∧ WellFormed .lane (.lr { bs := 3, b := 16 }) = false                 -- R261
    ∧ WellFormed .lane (.fence { bs := 3, b := 8 }) = false               -- R262: scope 8
    ∧ WellFormed .spine (.barSync { m := 0x20, a := 1 }) = false          -- R263: no IDX in spine code
    ∧ WellFormed .lane (.pegw { ds := 3, cs := 3, c := 64 }) = false      -- R270
    ∧ WellFormed .lane (.pegwG { ds := 3, m := 0x10, cs := 3, c := 16 }) = false          -- R272
    ∧ WellFormed .lane (.redw { ds := 3, m := 2, cs := 3 }) = false       -- R273: a 64-bit type
    ∧ WellFormed .lane (.qpushRsv { bs := 3, b := 32 }) = false           -- R275
    ∧ WellFormed .lane (.spawn { form := .f128, ds := 2, ext := 0x80000 }) = false        -- R46: identifiers not asked for
    ∧ WellFormed .lane (.ctlr { bs := 3, cs := 3, b := 2 }) = false       -- R300: no such register
    ∧ WellFormed .lane (.ctlw { bs := 3, cs := 3, c := 3, b := 0 }) = false := by decide +kernel

/-- R72, R73, R84, R87: pads, pairs, and words of no operation, with the outcomes of chapter 4. -/
theorem test_decode_pads_and_pairs :
    decode .lane [0xFFFFFFFC, 0xFFFFFFFC] = .pad 8
    ∧ decode .lane [0xFFFFFFFC, 0] = .reserved 0xFFFFFFFC
    ∧ decode .lane [0, 0] = .reserved 0
    ∧ decode .lane (wordsOfNat [0x8000000605042003, 0x0000000A05092201])
      = .two (.iadd { d := 4, a := 5, b := 6 }) (.isub { d := 9, a := 5, b := 10 })
    ∧ decode .lane (wordsOfNat [0x8000000605042003, 0x0000000A07082201]) = .illegalPair 0x8000000605042003
    ∧ decode .lane (wordsOfNat [0x8000000A06042003, 0x0000000702092201]) = .illegalPair 0x8000000A06042003
    ∧ decode .spine (wordsOfNat [0x000100020605203D]) = .illegal 0x000100020605203D
    ∧ decode .mseq (wordsOfNat [0x000100020605203D]) = .illegal 0x000100020605203D
    ∧ decode .lane [0x0A042201] = .illegal 0x0A042201
    ∧ decode .lane (wordsOfNat [0x0000000000005A01]) = .reserved 0x0000000000005A01
    ∧ decode .mseq (wordsOfNat [0x0000000B0A042601]) = .illegal 0x0000000B0A042601 := by decide +kernel

/-! ### Small states

A package of one cluster with one block of two lanes, one context and both sequencers; each of two lanes has its registers
from a list. Pages: code at 0x10000, data private to the cluster at 0x20000, shared at 0x28000, memory-side at 0x30000. -/

def img : Image :=
  { base := 0x10000, codeSize := 0x1000, warpEnt := 0x80, spineEnt := 0x100, trapEnt := 0x200, bx := 32, budget := 4
    pegs := 8, spg := 1, accg := 4, groups := [{ warps := 1, extras := 1 }]
    rings := [{ number := 0, desc := 0, slot0 := 64, slotsz := 4, nslots := 4 }, { number := 1, desc := 1216, slot0 := 1280, slotsz := 4, nslots := 4 }] }

def blk : Block :=
  { img := img, granules := [0, 1], pegMap := [0, 1, 2, 3, 4, 5, 6, 7], groupMap := [0], slots := [0], spineCtx := some 0, clean := [0] }

def pages : List Tlb :=
  [{ vpn := 2, pa := 0x20000, r := true, x := true }, { vpn := 4, pa := 0x40000, r := true, w := true, d := true },
   { vpn := 5, pa := 0x48000, cls := 2, r := true, w := true, d := true },
   { vpn := 6, pa := 0x50000, cls := 3, r := true, w := true, d := true }]

def lane0 (v : Map W32) : Lane := { live := true, pc := 0x10080, v := v }

def warp0 (v : Map W32) : Warp := { blk := some 0, lanes := [(0, lane0 v), (1, lane0 v)] }

def cluster0 (w : Warp) (b : Block) (x e : Map W64) : Cluster :=
  { warps := [(0, w)], blocks := [(0, b)], spines := [(0, { live := true, pc := 0x10080, s := x })]
    mseq := { st := .run, pc := 0x10080, e := e }, cseq := { st := .run, pc := 0x10080, e := e }
    groups := [(0, { valid := true, expect_ := 2, warps := 1, spine := true })] }

def world (u : Machine.Unit) (w : Warp) (b : Block) (x e : Map W64) : State :=
  { cur := { unit := u, group := if u = .lane then 3 else 0, pc := 0x10080, len := 8 }
    clusters := [(0, cluster0 w b x e)], xl := { ctlb := [(0, pages)] } }

/-- Two lanes with these v registers. -/
def lanesAt (v : Map W32) : State := world .lane (warp0 v) blk [] []
/-- A context with these s registers. -/
def spineAt (x : Map W64) : State := world .spine (warp0 []) blk x []
/-- A sequencer with these e registers. -/
def seqAt (u : Machine.Unit) (e : Map W64) : State := world u (warp0 []) blk [] e

/-- The checks of an issue without peg operands, as one Boolean. -/
def issuesB (s : State) (i : Instr) (o : Ops) (hz : Issuer → Nat → List RegUse) (ls : List Nat) : Bool :=
  decide (i.ops = some o) && WellFormed s.cur.code i
    && decide (s.cur.unit = .lane ∨ s.cur.unit = .spine ∨ s.cur.unit = .mseq ∨ s.cur.unit = .cseq)
    && decide (s.earlyFail s.cur (uses s.cur.code i) = none)
    && decide (∀ l ∈ ls, (s.warp s.cur.g s.cur.slot).pendCount l < 8) && decide (s.active s.cur o = ls) && decide (ls ≠ [])
    && decide (s.hazard s.cur ls (hz s.cur) = none) && decide (pegSources (uses s.cur.code i) = [])

theorem issues_of {s : State} {i : Instr} {o : Ops} {hz : Issuer → Nat → List RegUse} {ls : List Nat}
    (h : issuesB s i o hz ls = true) : Issues s i o hz ls s [] := by
  simp only [issuesB, Bool.and_eq_true, decide_eq_true_eq] at h
  obtain ⟨⟨⟨⟨⟨⟨⟨⟨a, b⟩, c⟩, d⟩, e⟩, f⟩, g⟩, k⟩, p⟩ := h
  refine ⟨a, b, c, d, fun _ _ => e, f, g, k, ?_⟩
  unfold State.pegReads
  rw [p]
  cases s.cur.unit <;> rfl

theorem plain_of {s : State} {i : Instr} {o : Ops} {ls : List Nat} (h : issuesB s i o (fieldWrites i) ls = true) :
    Plain s i o ls := issues_of h

/-- A lane that a map does not list is free. -/
theorem holds_of {m : Map Lane} (h : m.all (fun e => decide (e.2.hold ≠ .park)) = true) (l : Nat) :
    (m.get l {}).hold ≠ .park := by
  induction m with
  | nil => simp [Map.get, Map.find?]
  | cons e r ih =>
    simp only [List.all_cons, Bool.and_eq_true, decide_eq_true_eq] at h
    unfold Map.get Map.find?
    by_cases k : e.1 = l
    · simp [k, h.1]
    · simpa [k, Map.get] using ih h.2

theorem calm_of {s : State} {c : Issuer} (a : (s.warp c.g c.slot).pend = [])
    (b : (s.warp c.g c.slot).lanes.all (fun e => decide (e.2.hold ≠ .park)) = true) : Calm s c :=
  ⟨a, fun l => holds_of b l⟩

/-- The result of a check that passes. -/
def okOr {E A : Type} (d : A) : Except E A → A
  | .ok x => x
  | .error _ => d

def isOk {E A : Type} : Except E A → Bool
  | .ok _ => true
  | .error _ => false

theorem ok_of {E A : Type} {x : Except E A} (d : A) (h : isOk x = true) : x = .ok (okOr d x) := by
  cases x with
  | ok a => rfl
  | error e => exact absurd h (by simp [isOk])

/-! ### Witnesses: states and operands that meet the hypotheses of the statements -/

/-- FixedResult: a lane's IADD with a switch marker, and a context's IDIV. -/
theorem witness_fixedResult :
    Plain (lanesAt []) (.iadd { sw := true, d := 3, a := 2, b := 2 }) { sw := true, d := 3, a := 2, b := 2 } [0, 1]
    ∧ Housed (lanesAt []) (lanesAt []).cur ∧ Calm (lanesAt []) (lanesAt []).cur
    ∧ varLat (.iadd { sw := true, d := 3, a := 2, b := 2 }) (uses .lane (.iadd { sw := true, d := 3, a := 2, b := 2 })) = false
    ∧ Plain (spineAt []) (.idiv { d := 3, a := 2, b := 2 }) { d := 3, a := 2, b := 2 } [0]
    ∧ Housed (spineAt []) (spineAt []).cur ∧ (spineAt []).cur.unit ≠ .lane :=
  ⟨plain_of (by decide +kernel), Or.inr (by decide +kernel), calm_of rfl (by decide +kernel), by decide +kernel,
    plain_of (by decide +kernel), Or.inr (by decide +kernel), by decide⟩

/-- VariableResult: FRCP with a switch marker; a switch marker with a result pending that has not arrived. -/
theorem witness_variableResult :
    Plain (lanesAt []) (.frcp { sw := true, m := 4, d := 3, a := 2 }) { sw := true, m := 4, d := 3, a := 2 } [0, 1]
    ∧ varLat (.frcp { m := 4, d := 3, a := 2 }) [] = true ∧ Calm (lanesAt []) (lanesAt []).cur
    ∧ (let s := world .lane { warp0 [] with pend := [{ lanes := 2, writes := [⟨1, .v, 4, 7⟩] }] } blk [] []
       Plain s (.nop { sw := true }) { sw := true } [0, 1]
       ∧ (∀ p ∈ (s.warp 0 0).pend, p.ready = false ∧ p.lanes ≠ 0) ∧ ∀ l, (s.lane 0 0 l).hold ≠ .park) :=
  ⟨plain_of (by decide +kernel), rfl, calm_of rfl (by decide +kernel), plain_of (by decide +kernel), by decide +kernel,
    fun l => holds_of (by decide +kernel) l⟩

/-- NopAdvances: a NOP, a header of 32 × 8 registers, and one of too many. -/
theorem witness_nopAdvances :
    Plain (lanesAt []) (.nop { m := 32 }) { m := 32 } [0, 1] ∧ headerRegs 0x0800000000000201 = some 256
    ∧ headerRegs 0x0840000000000201 = none ∧ headerRegs 0x201 = none :=
  ⟨plain_of (by decide +kernel), by decide +kernel, by decide +kernel, by decide +kernel⟩

def withHeader : State := { lanesAt [(4, 0x10088), (5, 0)] with mem := { bytes := [(0x20080, 1), (0x20081, 2), (0x20087, 1)] } }

/-- Transfers: every form, a target at the end of the address space, and a header of exactly the allocation. -/
theorem witness_transfers :
    Plain (lanesAt []) (.bra { form := .f96, ext := 0xFFFFFFFC }) { form := .f96, ext := 0xFFFFFFFC } [0, 1]
    ∧ (let s := lanesAt [(4, 0xFFFFFFFC), (5, 0x7FFFF)]
       Plain s (.brx { a := 4 }) { a := 4 } [0, 1] ∧ Plain s (.ret { a := 4 }) { a := 4 } [0, 1]
       ∧ ∀ l ∈ [0, 1], (s.opA s.cur { a := 4 } l true).toNat < 2 ^ 51 ∧ (s.opA s.cur { a := 4 } l true).toNat % 4 = 0)
    ∧ Plain (lanesAt []) (.call { form := .f96, d := 2, ext := 0x20 }) { form := .f96, d := 2, ext := 0x20 } [0, 1]
    ∧ Plain withHeader (.callx { d := 2, a := 4 }) { d := 2, a := 4 } [0, 1]
    ∧ (withHeader.headerAt withHeader.cur 0x10088).bind headerRegs = some (withHeader.allocation withHeader.cur)
    ∧ (∀ l ∈ [0, 1], withHeader.opA withHeader.cur { a := 4 } l true = 0x10088) :=
  ⟨plain_of (by decide +kernel), ⟨plain_of (by decide +kernel), plain_of (by decide +kernel), by decide +kernel⟩,
    plain_of (by decide +kernel), plain_of (by decide +kernel), by decide +kernel, by decide +kernel⟩

/-- TransferChecks: a target at 2^51, and one that is no multiple of 4. -/
theorem witness_transferChecks :
    (let s := lanesAt [(4, 0), (5, 0x80000)]
     Plain s (.brx { a := 4 }) { a := 4 } [0, 1] ∧ [0, 1].filter (fun l => decide (2 ^ 51 ≤ (s.opA s.cur { a := 4 } l true).toNat)) = [0, 1])
    ∧ (let s := lanesAt [(4, 0xFFFFFFFE), (5, 0x7FFFF)]
       Plain s (.ret { a := 4 }) { a := 4 } [0, 1]
       ∧ [0, 1].filter (fun l => decide (2 ^ 51 ≤ (s.opA s.cur { a := 4 } l true).toNat)) = []
       ∧ [0, 1].filter (fun l => decide ((s.opA s.cur { a := 4 } l true).toNat % 4 ≠ 0)) = [0, 1]) :=
  ⟨⟨plain_of (by decide +kernel), by decide +kernel⟩, plain_of (by decide +kernel), by decide +kernel, by decide +kernel⟩

/-- MasksWritten: the four forms, with a lane held that the new mask leaves out. -/
theorem witness_masksWritten :
    let s := world .lane { warp0 [] with lanes := [(0, lane0 []), (1, lane0 []), (2, { live := true, pc := 0x10040, hold := .rejoin 3 0 })]
                                         jm := [(3, 7)], jh := [(3, 4)] } blk [] []
    Plain s (.jarmSet { d := 3 }) { d := 3 } [0, 1] ∧ Plain s (.jarmAdd { d := 3, m := 0x10 }) { d := 3, m := 0x10 } [0, 1]
    ∧ Plain s (.jarmClr { d := 3, m := 0x20 }) { d := 3, m := 0x20 } [0, 1]
    ∧ Plain s (.jarmLoad { d := 3, m := 0x30, bs := 1, b := 5 }) { d := 3, m := 0x30, bs := 1, b := 5 } [0, 1]
    ∧ s.holdOf s.cur 2 = .rejoin 3 0 :=
  ⟨plain_of (by decide +kernel), plain_of (by decide +kernel), plain_of (by decide +kernel), plain_of (by decide +kernel),
    by decide +kernel⟩

/-- RejoinHolds: lanes outside the mask, the last lanes of it, and lanes that wait for another. -/
theorem witness_rejoinHolds :
    (∀ m ∈ [0, 2, 3, 7], let s := world .lane { warp0 [] with lanes := [(0, lane0 []), (1, lane0 []), (2, { live := true })], jm := [(1, m)] } blk [] []
      Plain s (.rejoin { a := 1 }) { a := 1 } [0, 1] ∧ Calm s s.cur
      ∧ ∀ l ∈ [0, 1], ((s.warp 0 0).lane l).live = true ∧ ((s.warp 0 0).lane l).pc = s.cur.pc ∧ ((s.warp 0 0).lane l).hold = .free) := by
  intro m h
  simp only [List.mem_cons, List.not_mem_nil, or_false] at h
  rcases h with rfl | rfl | rfl | rfl <;>
    exact ⟨plain_of (by decide +kernel), calm_of rfl (by decide +kernel), by decide +kernel⟩

/-- YieldAndPause: lanes that yield, a context that does, and the longest pause. -/
theorem witness_yieldAndPause :
    Plain (lanesAt []) (.yield {}) {} [0, 1] ∧ Calm (lanesAt []) (lanesAt []).cur
    ∧ (∀ l ∈ [0, 1], ((lanesAt []).lane 0 0 l).live = true ∧ ((lanesAt []).lane 0 0 l).pc = (lanesAt []).cur.pc
        ∧ ((lanesAt []).lane 0 0 l).hold = .free)
    ∧ Plain (spineAt []) (.yield {}) {} [0] ∧ (spineAt []).stands (spineAt []).cur 0 = true
    ∧ Plain (seqAt .cseq []) (.pause { bs := 3, b := 255 }) { bs := 3, b := 255 } [0] :=
  ⟨plain_of (by decide +kernel), calm_of rfl (by decide +kernel), by decide +kernel, plain_of (by decide +kernel), by decide +kernel,
    plain_of (by decide +kernel)⟩

/-- TrapEntry: a party with a handler and a free frame. -/
theorem witness_trapEntry :
    CanTrap (lanesAt []) (lanesAt []).cur [0, 1] ∧ CanTrap (spineAt []) (spineAt []).cur [0]
    ∧ Plain (lanesAt []) (.brk { bs := 3, b := 9 }) { bs := 3, b := 9 } [0, 1]
    ∧ Plain (spineAt []) (.trap { bs := 3, b := 5 }) { bs := 3, b := 5 } [0]
    ∧ [0, 1] = (lanesAt []).cur.places :=
  ⟨⟨⟨Or.inl rfl, by decide +kernel, by decide +kernel, by decide +kernel, by decide +kernel, by decide +kernel⟩, by decide +kernel⟩,
    ⟨⟨Or.inr rfl, by decide +kernel, by decide +kernel, by decide +kernel, by decide +kernel, by decide +kernel⟩, by decide +kernel⟩,
    plain_of (by decide +kernel), plain_of (by decide +kernel), by decide +kernel⟩

/-- A warp in trap mode. -/
def inHandler : State :=
  world .lane { warp0 [] with lanes := [(0, { lane0 [] with trap := true }), (1, { lane0 [] with trap := true })]
                              frame := { busy := true, left := 7, issue := 7, npc := 0x10088 } } blk [] []

/-- TrapReturn: two lanes of three in trap mode, and lanes outside it. -/
theorem witness_trapReturn :
    Plain inHandler (.eret {}) {} [0, 1] ∧ Calm inHandler inHandler.cur
    ∧ (∀ l ∈ [0, 1], inHandler.inTrap inHandler.cur l = true ∧ (inHandler.lane 0 0 l).live = true
        ∧ (inHandler.lane 0 0 l).pc = inHandler.cur.pc ∧ (inHandler.lane 0 0 l).hold = .free)
    ∧ (inHandler.frameOf inHandler.cur).unit < 2
    ∧ Plain (lanesAt []) (.eret {}) {} [0, 1] ∧ [0, 1].filter (fun l => !(lanesAt []).inTrap (lanesAt []).cur l) ≠ [] :=
  ⟨plain_of (by decide +kernel), calm_of rfl (by decide +kernel), by decide +kernel, by decide +kernel, plain_of (by decide +kernel),
    by decide +kernel⟩

/-- ControlWrites: each number at the ends of its range, in trap mode and outside it. -/
theorem witness_controlWrites :
    (∀ n ∈ [0, 1, 8, 15], let o : Ops := { bs := 3, cs := 3, a := 4, b := BitVec.ofNat 8 n }
      Plain inHandler (.ctlw o) o [0, 1] ∧ ctlNumber o = n ∧ Housed inHandler inHandler.cur
      ∧ [0, 1].filter (fun l => !inHandler.inTrap inHandler.cur l) = [])
    ∧ (let o : Ops := { bs := 3, cs := 3, a := 4, b := 8 }
       Plain (lanesAt []) (.ctlw o) o [0, 1] ∧ [0, 1].filter (fun l => !(lanesAt []).inTrap (lanesAt []).cur l) ≠ [])
    ∧ (let o : Ops := { bs := 3, cs := 3, a := 4, c := 1 }
       Plain (lanesAt []) (.ctlw o) o [0, 1] ∧ 16 ≤ ctlNumber o) := by
  refine ⟨?_, ⟨plain_of (by decide +kernel), by decide +kernel⟩, plain_of (by decide +kernel), by decide +kernel⟩
  intro n h
  simp only [List.mem_cons, List.not_mem_nil, or_false] at h
  rcases h with rfl | rfl | rfl | rfl <;>
    exact ⟨plain_of (by decide +kernel), by decide +kernel, Or.inr (by decide +kernel), by decide +kernel⟩

/-- PredicatesFromRegister: a mask of an immediate. -/
theorem witness_predicatesFromRegister :
    let o : Ops := { bs := 3, cs := 3, m := 0x10, a := 2, b := 4, c := 128 }
    Issues (lanesAt []) (.pmovFromr o) o (fun c l => (List.range 16).map (fun k =>
      ({ file := .p, idx := k, n := if (pmovSet (lanesAt []) c o l).contains k then 1 else 0, wr := true, rd := false } : RegUse))) [0, 1] (lanesAt []) []
    ∧ pmovSet (lanesAt []) (lanesAt []).cur o 0 = [2, 15] :=
  ⟨issues_of (by decide +kernel), by decide +kernel⟩

/-- ActivationBanks. -/
theorem witness_activationBanks :
    Plain (lanesAt []) (.actld { m := 4, a := 2, b := 3, c := 4 }) { m := 4, a := 2, b := 3, c := 4 } [0, 1]
    ∧ Plain (lanesAt []) (.actswap { bs := 3, b := 7 }) { bs := 3, b := 7 } [0, 1] :=
  ⟨plain_of (by decide +kernel), plain_of (by decide +kernel)⟩

/-! Loads and stores: v4:v5 holds an address, v6:v7 another. -/

def ldO : Ops := { m := 0x40, d := 8, a := 4, bs := 3 }
/-- Lanes with an address in v4:v5. -/
def addrLanes (a : W32) : State := lanesAt [(4, a), (5, 0)]
def addrSpine (a : W64) : State := spineAt [(4, a)]
/-- The line of 0x20000 is poisoned. -/
def poisoned : State := { addrSpine 0x20000 with mem := { side := [(0x40000 / 128, { poison := true })] } }
def qsOf (s : State) (acc : Access) (r : Rule) (qs : List Req) : List (Req × List Piece) := okOr [] (s.checkAccess s.cur acc r qs)

/-- Loads: private lanes, a context that reads clean data, and one that reads poison; the last word of a share; LDW. -/
theorem witness_loads :
    (let s := addrLanes 0x20000
     Plain s (.ld ldO) ldO [0, 1] ∧ s.checkAccess s.cur .read { al := opBytes ldO } (s.reqsAB s.cur ldO [0, 1])
        = .ok (qsOf s .read { al := opBytes ldO } (s.reqsAB s.cur ldO [0, 1]))
     ∧ (∀ q ∈ qsOf s .read { al := opBytes ldO } (s.reqsAB s.cur ldO [0, 1]), ∀ p ∈ q.2, s.isLocal p.pa = true ∧ isIo p.pa = false))
    ∧ (∀ s ∈ [addrSpine 0x20000, poisoned],
        Plain s (.ld ldO) ldO [0] ∧ s.checkAccess s.cur .read { al := opBytes ldO } (s.reqsAB s.cur ldO [0])
          = .ok (qsOf s .read { al := opBytes ldO } (s.reqsAB s.cur ldO [0])))
    ∧ ((addrSpine 0x20000).loadAll (addrSpine 0x20000).cur ldO (qsOf (addrSpine 0x20000) .read { al := 4 }
        ((addrSpine 0x20000).reqsAB (addrSpine 0x20000).cur ldO [0]))).2.2 = []
    ∧ (poisoned.loadAll poisoned.cur ldO (qsOf poisoned .read { al := 4 } (poisoned.reqsAB poisoned.cur ldO [0]))).2.2 = [(0, 0x20000)]
    ∧ (let s := addrLanes 0xFFFC
       Plain s (.lds ldO) ldO [0, 1]
       ∧ ∀ l ∈ [0, 1], s.scratchOff s.cur ldO l % opBytes ldO = 0 ∧ s.scratchOff s.cur ldO l + opBytes ldO ≤ (s.blockOf s.cur).share)
    ∧ (let o : Ops := { m := 0x40, ds := 1, d := 8, a := 4, bs := 3 }
       let s := world .lane { warp0 [] with w := [(4, 0x30000), (5, 0)] } blk [] []
       Plain s (.ldw o) o [0, 1] ∧ s.checkAccess s.cur .read { al := opBytes o } (s.reqsAB s.cur o [0])
          = .ok (qsOf s .read { al := opBytes o } (s.reqsAB s.cur o [0]))) := by
  refine ⟨⟨plain_of (by decide +kernel), ok_of _ (by decide +kernel), by decide +kernel⟩, ?_, by decide +kernel, by decide +kernel,
    ⟨plain_of (by decide +kernel), by decide +kernel⟩, plain_of (by decide +kernel), ok_of _ (by decide +kernel)⟩
  intro s h
  simp only [List.mem_cons, List.not_mem_nil, or_false] at h
  rcases h with rfl | rfl <;> exact ⟨plain_of (by decide +kernel), ok_of _ (by decide +kernel)⟩

def mxO : Ops := { d := 8, a := 4, bs := 3, c := 6 }
def mxLanes : State := lanesAt [(4, 0x20000), (5, 0), (6, 0x20400), (7, 0)]

/-- MxUnits. -/
theorem witness_mxUnits :
    Plain mxLanes (.ldmx mxO) mxO [0, 1] ∧ Plain mxLanes (.stmx mxO) mxO [0, 1]
    ∧ mxLanes.mxCheck mxLanes.cur mxO .read [0, 1] = .ok (okOr ([], []) (mxLanes.mxCheck mxLanes.cur mxO .read [0, 1]))
    ∧ mxLanes.mxCheck mxLanes.cur mxO .write [0, 1] = .ok (okOr ([], []) (mxLanes.mxCheck mxLanes.cur mxO .write [0, 1]))
    ∧ (∀ q ∈ (okOr ([], []) (mxLanes.mxCheck mxLanes.cur mxO .write [0, 1])).1, ∀ p ∈ [onePiece q],
        mxLanes.isLocal p.pa = true ∧ isIo p.pa = false)
    ∧ (∀ q ∈ (okOr ([], []) (mxLanes.mxCheck mxLanes.cur mxO .write [0, 1])).2, ∀ p ∈ [onePiece q],
        mxLanes.isLocal p.pa = true ∧ isIo p.pa = false) :=
  ⟨plain_of (by decide +kernel), plain_of (by decide +kernel), ok_of _ (by decide +kernel), ok_of _ (by decide +kernel),
    by decide +kernel, by decide +kernel⟩

def stO : Ops := { m := 0x40, c := 8, a := 4, bs := 3 }

/-- Stores: private, shared and memory-side. -/
theorem witness_stores :
    ∀ a ∈ [0x2007C, 0x28000, 0x30000], let s := addrLanes a
      Plain s (.st stO) stO [0, 1] ∧ s.checkAccess s.cur .write { al := opBytes stO } (s.reqsAB s.cur stO [0, 1])
        = .ok (qsOf s .write { al := opBytes stO } (s.reqsAB s.cur stO [0, 1]))
      ∧ (∀ q ∈ qsOf s .write { al := opBytes stO } (s.reqsAB s.cur stO [0, 1]), ∀ p ∈ q.2, s.isLocal p.pa = true ∧ isIo p.pa = false) := by
  intro a h
  simp only [List.mem_cons, List.not_mem_nil, or_false] at h
  rcases h with rfl | rfl | rfl <;>
    exact ⟨plain_of (by decide +kernel), ok_of _ (by decide +kernel), by decide +kernel⟩

/-- StoredBytes: a store that ends a line and one across two lines. -/
theorem witness_storedBytes :
    (let s := addrLanes 0
     ∀ x ∈ ([([⟨0, 0x4007C, 0, 0, 4⟩], [1, 2, 3, 4]), ([⟨0, 0x4007E, 0, 0, 2⟩, ⟨0, 0x40080, 0, 2, 2⟩], [5, 6, 7, 8])] : List (List Piece × List Byte)),
      ∀ p ∈ x.1, p.cls = 0 ∧ s.isLocal p.pa = true ∧ 0 < p.n ∧ p.pa % 128 + p.n ≤ 128 ∧ p.at_ + p.n ≤ x.2.length ∧ p.pa / 128 < 2 ^ 45) := by
  decide +kernel

/-- OtherLinesStand: no request under way; the last line. -/
theorem witness_otherLinesStand : TxnsNamed (addrLanes 0) ∧ (2 ^ 45 - 1 < 2 ^ 45 ∧ (0 : Nat) < 2 ^ 45 ∧ 0 ≠ 2 ^ 45 - 1) :=
  ⟨by intro e h; exact absurd h (by simp [addrLanes, lanesAt, world]), by decide⟩

/-- A memory-side line in X. -/
def msWorld (lo : Byte) : State := { addrLanes 0 with mem := { side := [(0x50000 / 128, { st := .X })], bytes := [(0x50000, lo)] } }

/-- MemorySideWrites. -/
theorem witness_memorySideWrites :
    Quiet (msWorld 9) (0x50000 / 128) ∧ (msWorld 9).isLocal (0x50000 / 128 * 128) = true ∧ ((msWorld 9).mem.sideOf (0x50000 / 128)).st = .X ∧ (msWorld 9).mem.wf = true
    ∧ (let p : Piece := { pa := 0x5007C, cls := 3, n := 4 }
       p.pa / 128 = 0x50000 / 128 ∧ (msWorld 9).isLocal p.pa = true ∧ p.cls = 3 ∧ p.pa % 128 + p.n ≤ 128)
    ∧ (0x50070 / 128 = 0x50000 / 128 ∧ 0x50070 % 16 = 0) :=
  ⟨⟨fun m h => absurd h (by simp [msWorld]), by decide +kernel⟩, by decide +kernel, by decide +kernel, by decide +kernel, by decide +kernel, by decide⟩

/-- ScratchWrites: the last word of the share. -/
theorem witness_scratchWrites :
    let s := addrLanes 0xFFFC
    (s.blkOf s.cur).isSome = true ∧ Plain s (.sts stO) stO [0, 1]
    ∧ (∀ l ∈ [0, 1], s.scratchOff s.cur stO l % opBytes stO = 0 ∧ s.scratchOff s.cur stO l + opBytes stO ≤ (s.blockOf s.cur).share)
    ∧ (let o : Ops := { d := 8, a := 4, b := 9 }
       Plain s (.atoms o) o [0, 1]
       ∧ ∀ l ∈ [0, 1], (s.opA s.cur o l false).toNat % atomBytes o = 0
          ∧ (s.opA s.cur o l false).toNat + atomBytes o ≤ (s.blockOf s.cur).share) :=
  ⟨by decide +kernel, plain_of (by decide +kernel), by decide +kernel, plain_of (by decide +kernel), by decide +kernel⟩

/-- A space whose root maps everything at its own address, shared. -/
def withTables (s : State) : State := { s with mem := { bytes := [(0, 1), (1, 0x80), (0x8000, 0x67), (0x8001, 4)] } }


def clO : Ops := { a := 4, bs := 3 }
def ciO : Ops := { m := 0x10, a := 4, bs := 3, b := 64 }
def mapped : State := withTables (addrLanes 0x20000)

/-- CacheOperations: a mapped range, and one of no bytes. -/
theorem witness_cacheOperations :
    Plain mapped (.pref clO) clO [0, 1] ∧ Plain (addrLanes 0x20000) (.cmaintClean clO) clO [0, 1]
    ∧ (∀ l ∈ [0, 1], (lo32 ((addrLanes 0x20000).opB (addrLanes 0x20000).cur clO [] l 0 false)).toNat = 0)
    ∧ Plain mapped (.cmaintClinv ciO) ciO [0, 1]
    ∧ (∀ l ∈ [0, 1], mapped.opA mapped.cur ciO l true = 0x20000 ∧ (lo32 (mapped.opB mapped.cur ciO [] l 0 false)).toNat = 64)
    ∧ badRange 0x20000 64 = false ∧ rangePages 0x20000 64 = [0x20000] ∧ mapped.maintPage 0 0x20000 ≠ .fault :=
  ⟨plain_of (by decide +kernel), plain_of (by decide +kernel), by decide +kernel, plain_of (by decide +kernel), by decide +kernel,
    by decide +kernel, by decide +kernel, by decide +kernel⟩

/-! Sill commands, atomics, reservations: v4:v5, v6:v7, v8:v9 and v10:v11 hold addresses. -/

def sillLanes : State :=
  lanesAt [(4, 0x40000), (5, 0), (6, 0x50000), (7, 0), (8, 0x30000), (9, 0), (10, 0x60000), (11, 0)]
def sillTlb : Tlb := { vpn := 6, pa := 0x50000, cls := 3, r := true, w := true, d := true }

/-- SillCommands: each form, with a counter on a memory-side page. -/
theorem witness_sillCommands :
    Plain sillLanes (.msrowCopy { form := .f128, d := 4, a := 6, c := 8, ext := 0x10001 }) { form := .f128, d := 4, a := 6, c := 8, ext := 0x10001 } [0, 1]
    ∧ Plain sillLanes (.msrowZero { form := .f128, m := 0x10, d := 4, c := 8, ext := 0x10001 }) { form := .f128, m := 0x10, d := 4, c := 8, ext := 0x10001 } [0, 1]
    ∧ Plain sillLanes (.msbank { form := .f128, d := 4, a := 6, b := 10, c := 8, ext := 0x3400010001 }) { form := .f128, d := 4, a := 6, b := 10, c := 8, ext := 0x3400010001 } [0, 1]
    ∧ SillReq.check ⟨0x40000, [0x50000], 0x30000, 32768, 1, false⟩ = none ∧ SillReq.check ⟨0x40000, [], 0x30000, 32768, 1, false⟩ = none
    ∧ SillReq.check ⟨0x40000, [0x50000, 0x60000], 0x30000, 128, 1, true⟩ = none
    ∧ sillLanes.tlbFind 0 0 0x30000 .write = some sillTlb ∧ sillTlb.cls = 3 :=
  ⟨plain_of (by decide +kernel), plain_of (by decide +kernel), plain_of (by decide +kernel), by decide +kernel, by decide +kernel,
    by decide +kernel, by decide +kernel, by decide +kernel⟩

def atO : Ops := { m := 0x60, d := 8, a := 4, b := 12 }
def redO : Ops := { a := 4, b := 12 }
def atRule : Rule := { al := 4, always := true, noIo := true, ioMax := 128 }
def atQs (s : State) (o : Ops) : List (Req × List Piece) := qsOf s .atomic atRule (s.reqsA s.cur o [0, 1] 4)

/-- Atomics: on every page class. -/
theorem witness_atomics :
    ∀ a ∈ [0x2007C, 0x28000, 0x30000], let s := addrLanes a
      Plain s (.atom atO) atO [0, 1] ∧ Plain s (.red redO) redO [0, 1] ∧ atomBytes atO = 4 ∧ atomBytes redO = 4
      ∧ s.checkAccess s.cur .atomic atRule (s.reqsA s.cur atO [0, 1] 4) = .ok (atQs s atO)
      ∧ ∀ q ∈ atQs s atO, ∀ p ∈ [onePiece q], s.isLocal p.pa = true ∧ isIo p.pa = false := by
  intro a h
  simp only [List.mem_cons, List.not_mem_nil, or_false] at h
  rcases h with rfl | rfl | rfl <;>
    exact ⟨plain_of (by decide +kernel), plain_of (by decide +kernel), by decide, by decide, ok_of [] (by decide +kernel), by decide +kernel⟩

def lrO : Ops := { bs := 3, d := 8, a := 4 }
def scO : Ops := { bs := 3, d := 8, a := 4, c := 12 }
/-- A reservation of the warp at the line of 0x20000. -/
def reserved : State := { addrLanes 0x20000 with mem := { resv := [{ line := 0x40000 / 128 }] } }

/-- Reservations: LR; SC where the reservation stands and where there is none. -/
theorem witness_reservations :
    Plain (addrLanes 0x20000) (.lr lrO) lrO [0, 1]
    ∧ (addrLanes 0x20000).checkAccess (addrLanes 0x20000).cur .read atRule ((addrLanes 0x20000).reqsA (addrLanes 0x20000).cur lrO [0, 1] 4)
        = .ok (qsOf (addrLanes 0x20000) .read atRule ((addrLanes 0x20000).reqsA (addrLanes 0x20000).cur lrO [0, 1] 4))
    ∧ (∀ q ∈ qsOf (addrLanes 0x20000) .read atRule ((addrLanes 0x20000).reqsA (addrLanes 0x20000).cur lrO [0, 1] 4), ∀ p ∈ q.2, p.cls ≠ 3)
    ∧ ∀ s ∈ [addrLanes 0x20000, reserved], Plain s (.sc scO) scO [0, 1]
      ∧ s.checkAccess s.cur .write atRule (s.reqsA s.cur scO [0, 1] 4) = .ok (qsOf s .write atRule (s.reqsA s.cur scO [0, 1] 4))
      ∧ ∀ q ∈ qsOf s .write atRule (s.reqsA s.cur scO [0, 1] 4), ∀ p ∈ q.2, p.cls ≠ 3 := by
  refine ⟨plain_of (by decide +kernel), ok_of _ (by decide +kernel), by decide +kernel, ?_⟩
  intro s h
  simp only [List.mem_cons, List.not_mem_nil, or_false] at h
  rcases h with rfl | rfl <;> exact ⟨plain_of (by decide +kernel), ok_of _ (by decide +kernel), by decide +kernel⟩

/-- Lane 0 of the warp waits for an append; or lanes 0 and 1 do. -/
def appending (ls : List Nat) : State :=
  { lanesAt [(4, 0xFFFFFFFF), (5, 0x7FFFF)] with work := { queues := [(3, { waiting := ls.map (fun l => { party := some { t := l } }) })] } }

/-- Fences: no append waits, both lanes' do; a base at the end of the space and one beyond it. -/
theorem witness_fences :
    Plain (appending []) (.fence { bs := 3, b := 7 }) { bs := 3, b := 7 } [0, 1]
    ∧ Plain (appending [0, 1]) (.fence { bs := 3, b := 2 }) { bs := 3, b := 2 } [0, 1]
    ∧ Plain (appending []) (.fencer { a := 4, b := 6, cs := 3, c := 7 }) { a := 4, b := 6, cs := 3, c := 7 } [0, 1]
    ∧ (∀ l ∈ [0, 1], (appending []).appendWaits ((appending []).threadOf (appending []).cur l) = false)
    ∧ (∀ l ∈ [0, 1], (appending [0, 1]).appendWaits ((appending [0, 1]).threadOf (appending [0, 1]).cur l) = true)
    ∧ (∀ l ∈ [0, 1], ((appending []).opA (appending []).cur { a := 4 } l true).toNat = 2 ^ 51 - 1)
    ∧ (let s := lanesAt [(4, 0), (5, 0x80000)]
       let o : Ops := { a := 4, b := 6, cs := 3, c := 7 }
       Plain s (.fencer o) o [0, 1] ∧ [0, 1].filter (fun l => decide (2 ^ 51 ≤ (s.opA s.cur o l true).toNat)) = [0, 1]) :=
  ⟨plain_of (by decide +kernel), plain_of (by decide +kernel), plain_of (by decide +kernel), by decide +kernel, by decide +kernel,
    by decide +kernel, plain_of (by decide +kernel), by decide +kernel⟩

def barO (sub : Nat) (a : BitVec 8) : Ops := { m := BitVec.ofNat 9 (16 * sub), a := a }
/-- Lane 0 has arrived in the present phase; or the warp has left the group. -/
def arrived : State := world .lane { warp0 [] with arr := [(0, { mask := 1 })] } blk [] []
def left : State := world .lane { warp0 [] with arr := [(0, { dropped := true })] } blk [] []

/-- Barriers: a member that arrives, one that must wait, one that has left, an index that names no group, and a remote
arrival that there is a group for, or is not. -/
theorem witness_barriers :
    (∀ sub ∈ [0, 1, 2, 3], ∀ s ∈ [lanesAt [], arrived, left], Plain s
        (match sub with | 0 => .barArrive (barO sub 0) | 1 => .barWait (barO sub 0) | 2 => .barSync (barO sub 0) | _ => .barDrop (barO sub 0)) (barO sub 0) [0, 1])
    ∧ (∀ s ∈ [lanesAt [], arrived, left], s.barIndex s.cur (barO 0 0) = some 0 ∧ s.barIndex s.cur (barO 0 1) = none
        ∧ s.barMember s.cur (s.barEntry s.cur 0) = true ∧ s.barHeld s.cur (s.barEntry s.cur 0) = false
        ∧ ∀ l ∈ [0, 1], s.waitLegal s.cur l (s.group 0 0).pcode none = true)
    ∧ ((lanesAt []).arriveOf (lanesAt []).cur 0).dropped = false ∧ (left.arriveOf left.cur 0).dropped = true
    ∧ (lanesAt []).barWaits (lanesAt []).cur 0 = false ∧ arrived.barWaits arrived.cur 0 = true
    ∧ Plain (lanesAt [(2, 0), (3, 0)]) (.barRemote (barO 12 0)) (barO 12 0) [0, 1]
    ∧ (let b := (lanesAt []).blockOf (lanesAt []).cur; b.img.cls = 0 ∧ 0 < b.nx * b.ny * b.nz ∧ 0 < b.img.groups.length ∧ ¬1 < b.nx * b.ny * b.nz) := by
  refine ⟨?_, ?_, by decide +kernel, by decide +kernel, by decide +kernel, by decide +kernel, plain_of (by decide +kernel), by decide +kernel⟩
  · intro sub h s k
    simp only [List.mem_cons, List.not_mem_nil, or_false] at h k
    rcases h with rfl | rfl | rfl | rfl <;> rcases k with rfl | rfl | rfl <;> exact plain_of (by decide +kernel)
  · intro s k
    simp only [List.mem_cons, List.not_mem_nil, or_false] at k
    rcases k with rfl | rfl | rfl <;> decide +kernel

/-- PhaseCompletes: a group that expects more, one that an arrival completes, and lanes that are not the last. -/
theorem witness_phaseCompletes :
    ((lanesAt []).group 0 0).arrived + 1 < ((lanesAt []).group 0 0).expect_
    ∧ (let s := { lanesAt [] with clusters := [(0, { (cluster0 (warp0 []) blk [] []) with groups := [(0, { expect_ := 2, arrived := 1 })] })] }
       (s.group 0 0).expect_ ≠ 0 ∧ (s.group 0 0).expect_ ≤ (s.group 0 0).arrived + 1)
    ∧ (((lanesAt []).warp 0 0).liveMask &&& ~~~((((lanesAt []).warp 0 0).arr.get 0 {}).mask ||| lanesMask [0]) ≠ 0) := by
  decide +kernel

/-! Counters in memory: 5 at 0x30000 with producer code 0. -/

/-- A state whose memory-side page holds 5 in its first counter. -/
def counted (s : State) : State := { s with mem := { side := [(0x50000 / 128, { st := .X })], bytes := [(0x50000, 5)] } }
def ctrLanes (thr : W32) : State := counted (lanesAt [(4, 0x30000), (5, 0), (6, thr), (7, 0)])
def swO : Ops := { ds := 2, d := 1, a := 4, b := 6, cs := 3, c := 7 }
def saO : Ops := { a := 4, b := 6, cs := 3, c := 7 }
def xsOf (s : State) (o : Ops) (acc : Access) (ls : List Nat) : List (Nat × Nat) := okOr [] (s.counterCheck s.cur o acc ls)

/-- Counters: a threshold that is reached exactly, and one that is not; SEQWAIT.TRY; SEQADD of lanes and of a sequencer
with nothing, and with something, under way. -/
theorem witness_counters :
    (∀ thr ∈ [5, 6], let s := ctrLanes thr
      Plain s (.seqwait swO) swO [0, 1] ∧ Plain s (.seqwaitTry { swO with m := 0x10 }) { swO with m := 0x10 } [0, 1]
      ∧ s.counterCheck s.cur swO .read [0, 1] = .ok (xsOf s swO .read [0, 1])
      ∧ (s.seqViews (xsOf s swO .read [0, 1])).2.map (fun v => ctrSat v.lo (s.unsB s.cur swO v.lane true).toNat) = [decide (thr = 5), decide (thr = 5)]
      ∧ ∀ v ∈ (s.seqViews (xsOf s swO .read [0, 1])).2, s.waitLegal s.cur v.lane v.code (some v.floor) = true)
    ∧ Plain (ctrLanes 1) (.seqadd saO) saO [0, 1]
    ∧ (ctrLanes 1).counterCheck (ctrLanes 1).cur saO .write [0, 1] = .ok (xsOf (ctrLanes 1) saO .write [0, 1])
    ∧ (let s := counted (seqAt .mseq [(4, 0x30000), (6, 1)])
       Plain s (.seqadd saO) saO [0] ∧ s.counterCheck s.cur saO .write [0] = .ok (xsOf s saO .write [0]) ∧ (s.seqr 0 false).flight = 0)
    ∧ (let s := (seqAt .cseq [(4, 0x30000), (6, 1)]).updSeqr 0 true (fun q => { q with flight := 1 })
       Plain s (.seqadd saO) saO [0] ∧ (s.seqr 0 true).flight ≠ 0) := by
  refine ⟨?_, plain_of (by decide +kernel), ok_of [] (by decide +kernel),
    ⟨plain_of (by decide +kernel), ok_of [] (by decide +kernel), by decide +kernel⟩, plain_of (by decide +kernel), by decide +kernel⟩
  intro thr h
  simp only [List.mem_cons, List.not_mem_nil, or_false] at h
  rcases h with rfl | rfl <;>
    exact ⟨plain_of (by decide +kernel), plain_of (by decide +kernel), ok_of [] (by decide +kernel), by decide +kernel, by decide +kernel⟩

/-- Lanes beside a peg. -/
def pegLanes (x : Peg) : State := (lanesAt [(6, 3)]).updPeg 0 2 (fun _ => x)
def pegSpine (x : Peg) : State := (spineAt [(6, 0x1401)]).updPeg 0 2 (fun _ => x)
def gather2 : Peg := { gather := true, armed := 0x1002, contrib := [(0, 4)] }
def pwO : Ops := { ds := 3, d := 2, b := 6, cs := 3, c := 1 }

/-- PegOperations: an empty and a full peg; a gather with one place of two filled, and a full one; REDW into a register and
into a gather; PEGR; PEGCTL. -/
theorem witness_pegOperations :
    (∀ x ∈ [({} : Peg), { full := true }, gather2, { gather2 with full := true }],
      Plain (pegLanes x) (.pegw pwO) pwO [0, 1] ∧ Plain (pegLanes x) (.pegwG { pwO with m := 0x10 }) { pwO with m := 0x10 } [0, 1]
      ∧ (pegLanes x).peg 0 ((pegLanes x).pegPhys (pegLanes x).cur 2) = x)
    ∧ (1 < armN gather2.armed ∧ armTy gather2.armed = 0 ∧ gather2.contrib.has 1 = false ∧ armN gather2.armed ≤ (gather2.contrib.put 1 3).length)
    ∧ (let o : Ops := { ds := 3, d := 2, a := 6, cs := 3, c := 1 }; Plain (pegLanes gather2) (.redw o) o [0, 1])
    ∧ (let o : Ops := { d := 2, a := 6 }; Plain (pegLanes {}) (.redw o) o [0, 1])
    ∧ (let o : Ops := { d := 3, bs := 2, b := 2 }
       ∀ x ∈ [({} : Peg), { full := true, cnt := 1 }], ∃ pv, Issues (pegSpine x) (.pegr o) o (fieldWrites (.pegr o)) [0] (pegSpine x) pv)
    ∧ (let o : Ops := { ds := 3, d := 2, b := 6 }
       Plain (pegSpine {}) (.pegctlArm o) o [0] ∧ armOk (lo32 ((pegSpine {}).unsB (pegSpine {}).cur o 0 false)) = true
       ∧ ((pegSpine {}).cl 0).armedPegs < 32)
    ∧ (let o : Ops := { ds := 3, m := 0x10, d := 2 }; Plain (pegSpine gather2) (.pegctlClear o) o [0])
    ∧ (let o : Ops := { ds := 3, m := 0x20, d := 2 }; Plain (pegSpine gather2) (.pegctlDisarm o) o [0]) := by
  refine ⟨?_, by decide +kernel, plain_of (by decide +kernel), plain_of (by decide +kernel), ?_,
    ⟨plain_of (by decide +kernel), by decide +kernel, by decide +kernel⟩, plain_of (by decide +kernel), plain_of (by decide +kernel)⟩
  · intro x h
    simp only [List.mem_cons, List.not_mem_nil, or_false] at h
    rcases h with rfl | rfl | rfl | rfl <;> exact ⟨plain_of (by decide +kernel), plain_of (by decide +kernel), by decide +kernel⟩
  · intro o x h
    simp only [List.mem_cons, List.not_mem_nil, or_false] at h
    rcases h with rfl | rfl <;>
      exact ⟨_, ⟨rfl, by decide +kernel, Or.inr (Or.inl rfl), by decide +kernel, (fun _ h => absurd h (by decide)), by decide +kernel, by decide, by decide +kernel, rfl⟩⟩

/-- The bytes of a ring descriptor and of 64 zero bytes. -/
def ringBytes (off base allow fill resv takn : Nat) : Map Byte :=
  let b : List Byte := leBytes 4 base ++ leBytes 2 4 ++ leBytes 2 4 ++ leBytes 2 allow ++ leBytes 2 fill ++ leBytes 2 resv
    ++ leBytes 2 takn ++ leBytes 2 0 ++ leBytes 2 3 ++ [0, 0, 1]
  b.zipIdx.map (fun e => (off + e.2, e.1))

/-- Two lanes of a block whose ring 0 has these counts. -/
def ringLanes (allow fill resv takn : Nat) : State :=
  world .lane (warp0 []) { blk with scratch := ringBytes 0 64 allow fill resv takn } [] []
def rO (sub : Nat) : Ops := { m := BitVec.ofNat 9 (16 * sub), d := if sub = 1 then 0 else 8, bs := 3 }

def ringWitness (x : RingRes) (f : Ring → Nat → Bool) : Bool := match x with | .done r k => f r k | _ => false

/-- RingTransitions: a well-formed ring with every count, one with none of three, and one whose counts do not add up. -/
theorem witness_ringTransitions :
    let r := fun a b c d => ((ringLanes a b c d).block 0 0).readRing 0
    (r 1 1 1 1).ok = true ∧ (r 0 0 0 4).ok = true ∧ (r 4 0 0 0).ok = true ∧ (r 1 1 1 2).ok = false := by
  decide +kernel

/-- RingOperations: each transition done, waiting and refused. -/
theorem witness_ringOperations :
    (∀ s ∈ [ringLanes 1 1 1 1, ringLanes 0 0 0 4, ringLanes 4 0 0 0, ringLanes 1 1 1 2],
      Plain s (.qpushRsv (rO 0)) (rO 0) [0, 1] ∧ Plain s (.qpushRsvTry (rO 2)) (rO 2) [0, 1] ∧ Plain s (.qpushCmt (rO 1)) (rO 1) [0, 1]
      ∧ Plain s (.qpop (rO 0)) (rO 0) [0, 1] ∧ Plain s (.qpopTry (rO 2)) (rO 2) [0, 1] ∧ Plain s (.qpopRet (rO 1)) (rO 1) [0, 1]
      ∧ s.ringNum s.cur (rO 0) [0, 1] = 0)
    ∧ (let s := ringLanes 1 1 1 1
       (∃ r k, s.ringOf s.cur 0 .reserve = .done r k) ∧ (∃ r k, s.ringOf s.cur 0 .take = .done r k)
       ∧ (∃ r k, s.ringOf s.cur 0 .commit = .done r k) ∧ (∃ r k, s.ringOf s.cur 0 .ret = .done r k))
    ∧ (let s := ringLanes 0 0 0 4
       s.ringOf s.cur 0 .reserve = .waits 0 ∧ s.ringOf s.cur 0 .take = .waits 0 ∧ s.ringOf s.cur 0 .commit = .refused
       ∧ ∀ l ∈ [0, 1], s.waitLegal s.cur l 0 none = true)
    ∧ (ringLanes 4 0 0 0).ringOf (ringLanes 4 0 0 0).cur 0 .ret = .refused
    ∧ (ringLanes 1 1 1 2).ringOf (ringLanes 1 1 1 2).cur 0 .reserve = .refused
    ∧ (ringLanes 1 1 1 2).ringOf (ringLanes 1 1 1 2).cur 0 .take = .refused := by
  have done : ∀ x : RingRes, ringWitness x (fun _ _ => true) = true → ∃ r k, x = .done r k := by
    intro x h
    cases x with
    | done r k => exact ⟨r, k, rfl⟩
    | refused => exact absurd h (by decide)
    | waits k => exact absurd h (by simp [ringWitness])
  refine ⟨?_, ⟨done _ (by decide +kernel), done _ (by decide +kernel), done _ (by decide +kernel), done _ (by decide +kernel)⟩,
    by decide +kernel, by decide +kernel, by decide +kernel, by decide +kernel⟩
  intro s h
  simp only [List.mem_cons, List.not_mem_nil, or_false] at h
  rcases h with rfl | rfl | rfl | rfl <;>
    exact ⟨plain_of (by decide +kernel), plain_of (by decide +kernel), plain_of (by decide +kernel), plain_of (by decide +kernel),
      plain_of (by decide +kernel), plain_of (by decide +kernel), by decide +kernel⟩

/-- A context with both sequencers in a state. -/
def seqsIn (st : SeqState) : State :=
  ((spineAt [(4, 7)]).updSeqr 0 false (fun q => { q with st := st })).updSeqr 0 true (fun q => { q with st := st })
def fkO : Ops := { form := .f128, a := 4, ext := 0x0000020F00000103 }

/-- ForkAndRendezvous: idle and running sequencers, entries at both ends of the code, RDV of each party. -/
theorem witness_forkAndRendezvous :
    (∀ st ∈ [SeqState.idle, .run], Plain (seqsIn st) (.fork fkO) fkO [0] ∧ (seqsIn st).waveOf (seqsIn st).cur = none
      ∧ (seqsIn st).forkOk (seqsIn st).cur [0] 3 = decide (st = .idle))
    ∧ (fkO.ext.toNat % 4 = 3 ∧ 8 * bitsN fkO.ext.toNat 4 28 = 128 ∧ 8 * bitsN fkO.ext.toNat 32 28 < 128 + img.codeSize)
    ∧ Plain (lanesAt []) (.rdv { bs := 3, b := 3 }) { bs := 3, b := 3 } [0, 1] ∧ (lanesAt []).waveOf (lanesAt []).cur = none
    ∧ Plain (seqAt .mseq []) (.rdv {}) {} [0] ∧ ((seqAt .mseq []).seqr 0 false).flight = 0 := by
  refine ⟨?_, by decide +kernel, plain_of (by decide +kernel), by decide +kernel, plain_of (by decide +kernel), by decide +kernel⟩
  intro st h
  simp only [List.mem_cons, List.not_mem_nil, or_false] at h
  rcases h with rfl | rfl <;> exact ⟨plain_of (by decide +kernel), by decide +kernel, by decide +kernel⟩

/-! Engine commands: descriptors in the share and in memory. -/

/-- A one-dimensional copy of four elements from 0x20000 into the share at 512, at offset 256 of the share. -/
def copyDesc : Map Byte := [(258, 2), (265, 2), (296, 1), (307, 1), (320, 4)]
def copyBlk : Block := { blk with scratch := copyDesc ++ ringBytes 1216 1280 4 0 0 0 }
def copyCtx (n : Nat) : State :=
  (world .spine (warp0 []) copyBlk [(4, 256)] []).updCl 0 (fun k => { k with copyQ := List.replicate n {} })
def tcO (e : W64) : Ops := { form := .f128, a := 4, ext := e }

/-- A collective step of two packages over 8 bytes: descriptor at 0x20000, peers 0 and 1 at 0x20200. -/
def collSpine : State :=
  { addrSpine 0x20000 with mem := { bytes :=
      [(0x40001, 8), (0x40002, 2), (0x40009, 12), (0x4000A, 2), (0x40019, 2), (0x4001A, 2), (0x40020, 8), (0x40024, 2), (0x4003C, 1), (0x40202, 1)] } }
def coO : Ops := { form := .f128, a := 4, ext := 0 }
def collQs : List (Req × List Piece) := qsOf collSpine .read {} [⟨0, 0x20000, 64⟩]
def collU : State × List Byte × Option W64 := collSpine.readPieces [] 0 false (collQs.flatMap (·.2))
def collQ : Coll × Nat := collDesc 0 0 0 0 collU.2.1
def peerQs : List (Req × List Piece) := qsOf collU.1 .read { al := 2 } [⟨0, 0x20200, 4⟩]
def collV : State × List Byte × Option W64 := collU.1.readPieces [] 0 false (peerQs.flatMap (·.2))

/-- The sequencer of a block whose rings 0 and 1 hold a filled slot each, with a tile allocated. -/
def mmaSeq : State :=
  world .mseq (warp0 [])
    { blk with img := { img with rings := [{ number := 0 }, { number := 1, desc := 1216 }] }
               scratch := (ringBytes 0 64 3 1 0 0).map (fun e => if e.1 = 4 then (4, 0x40) else e)
                 ++ (ringBytes 1216 1280 3 1 0 0).map (fun e => if e.1 = 1220 then (1220, 0x40) else e)
               allocs := [{ first := 0, count := 8, cb := 1, owners := [0] }] } [] []
def mmO : Ops := { form := .f128, ext := 0x0000001000000020 }

/-- What a copy finds: the state, the descriptor's address and bytes, its fields, and ring 1. -/
def copyFound (n : Nat) : State × W64 × List Byte := okOr default ((copyCtx n).tcopyDesc (copyCtx n).cur (tcO 1) 0 [0])
def copyD : Desc := parseDesc (copyFound 15).2.2
def copyRing : Ring := ((copyFound 15).1.block 0 0).readRing 1216

theorem ok_eq {E A : Type} {x : Except E A} {d a : A} (h : isOk x = true) (k : okOr d x = a) : x = .ok a := by
  rw [ok_of d h, k]

/-- EngineCommands: a copy with room in the queue, and without; one through a ring. -/
theorem witness_engineCommands_copy :
    (∀ n ∈ [15, 16], Plain (copyCtx n) (.tcopy (tcO 1)) (tcO 1) [0] ∧ (copyCtx n).waveOf (copyCtx n).cur = none)
    ∧ (copyCtx 15).tcopyDesc (copyCtx 15).cur (tcO 1) 0 [0] = .ok (copyFound 15)
    ∧ (∀ r ∈ [none, some 1], (copyFound 15).1.tcopyCheck (copyCtx 15).cur copyD
        ((copyFound 15).1.tcopyBase (copyCtx 15).cur copyD none r) = none)
    ∧ (copyFound 15).1.tcopyCtr (copyCtx 15).cur copyD [0] = .ok none
    ∧ ((copyFound 15).1.cl 0).copyQ.length = 15 ∧ ((copyFound 16).1.cl 0).copyQ.length = 16
    ∧ Plain (copyCtx 15) (.tcopy (tcO 0x85)) (tcO 0x85) [0] ∧ copyD.dir ≠ 2
    ∧ (copyFound 15).1.tcopyRings (copyCtx 15).cur copyD = [(0, 0)]
    ∧ (copyFound 15).1.ringAt 0 0 1 = some (1216, copyRing) ∧ copyRing.ok = true ∧ copyD.span ≤ 64 * copyRing.slotsz
    ∧ ringWitness (copyRing.step .reserve) (fun _ _ => true) = true := by
  refine ⟨?_, ok_of _ (by decide +kernel), by decide +kernel, ok_eq (d := some 0) (by decide +kernel) (by decide +kernel),
    by decide +kernel, by decide +kernel, plain_of (by decide +kernel), by decide +kernel, by decide +kernel, by decide +kernel,
    by decide +kernel, by decide +kernel, by decide +kernel⟩
  intro n h
  simp only [List.mem_cons, List.not_mem_nil, or_false] at h
  rcases h with rfl | rfl <;> exact ⟨plain_of (by decide +kernel), by decide +kernel⟩

def mmF : MmaForm := mmaForm mmO.ext

/-- EngineCommands: a product of filled slots into allocated banks. -/
theorem witness_engineCommands_mma :
    Plain mmaSeq (.mma mmO) mmO [0] ∧ mmF.ra = 0 ∧ mmF.rb = 1
    ∧ mmaSeq.mmaRing mmaSeq.cur 0 (mmF.tileBytes mmF.ta mmF.m) = some ((mmaSeq.block 0 0).readRing 0)
    ∧ mmaSeq.mmaRing mmaSeq.cur 1 (mmF.tileBytes mmF.tb mmF.bRows) = some ((mmaSeq.block 0 0).readRing 1216)
    ∧ ((mmaSeq.block 0 0).readRing 0).fill ≠ 0 ∧ ((mmaSeq.block 0 0).readRing 1216).fill ≠ 0
    ∧ ∀ k ∈ mmF.banks, ((mmaSeq.block 0 0).allocOf k).isSome = true :=
  ⟨plain_of (by decide +kernel), by decide +kernel, by decide +kernel, by decide +kernel, by decide +kernel, by decide +kernel,
    by decide +kernel, by decide +kernel⟩

/-- EngineCommands: a collective step whose descriptor and peers can be read. -/
theorem witness_engineCommands_coll :
    Plain collSpine (.coll coO) coO [0] ∧ collSpine.opA collSpine.cur coO 0 true = 0x20000
    ∧ collSpine.checkAccess collSpine.cur .read {} [⟨0, 0x20000, 64⟩] = .ok collQs
    ∧ collBad collQ.1 collU.2.1 = false ∧ collQ.2 = 0x20200 ∧ collQ.1.npart = 2
    ∧ collU.1.checkAccess collSpine.cur .read { al := 2 } [⟨0, 0x20200, 4⟩] = .ok peerQs
    ∧ (List.range 2).map (fun k => leNat ((collV.2.1.drop (2 * k)).take 2)) = [0, 1] ∧ collV.1.pkgId = 0
    ∧ (collV.1.collPages collSpine.cur 0 collQ.1).isNone = true ∧ BitVec.ofNat 64 (leNat ((collU.2.1.drop 48).take 8)) = 0 :=
  ⟨plain_of (by decide +kernel), by decide +kernel, ok_of [] (by decide +kernel), by decide +kernel, by decide +kernel, by decide +kernel,
    ok_of [] (by decide +kernel), by decide +kernel, by decide +kernel, by decide +kernel, by decide +kernel⟩

/-! Accumulators, tasks, exits and pairs. -/

/-- A block with banks 0 to 7 allocated to group 0, and a lane or context whose w4 or s4 holds a word. -/
def accBlk (al : List AccAlloc) : Block := { blk with allocs := al }
def bank0 : List AccAlloc := [{ first := 0, count := 8, cb := 1, owners := [0] }]
def accLanes (w : W32) (al : List AccAlloc) : State := world .lane { warp0 [] with w := [(4, w)] } (accBlk al) [] []
def accSeq (w : W64) (al : List AccAlloc) : State := world .mseq (warp0 []) (accBlk al) [] [(4, w)]
def acO (sub : Nat) : Ops := { m := BitVec.ofNat 9 (16 * sub), bs := 1, b := 4 }
def allocO : Ops := { form := .f128, bs := 1, b := 4, ext := 0xA }

/-- Accumulators: ALLOC, ZERO and FREE of all 32 banks or of eight, in lane and sequencer code; ACCRD and ACCWR. -/
theorem witness_accumulators :
    (Plain (accLanes 0x200000 []) (.accopAlloc allocO) allocO [0, 1] ∧ (accBlk []).accCheck 0 0x200000 0xA = none
      ∧ (accLanes 0x200000 []).accWord (accLanes 0x200000 []).cur allocO 0 = 0x200000)
    ∧ (Plain (accSeq 0x200000 []) (.accopAlloc { allocO with bs := 0 }) { allocO with bs := 0 } [0]
      ∧ (accSeq 0x200000 []).accWord (accSeq 0x200000 []).cur { allocO with bs := 0 } 0 = 0x200000)
    ∧ (Plain (accLanes 0x80000 bank0) (.accopZero (acO 1)) (acO 1) [0, 1] ∧ (accBlk bank0).accCheck 1 0x80000 0 = none)
    ∧ (Plain (accSeq 0x80000 bank0) (.accopZero { acO 1 with bs := 0 }) { acO 1 with bs := 0 } [0])
    ∧ (Plain (accLanes 0x80000 bank0) (.accopFree (acO 2)) (acO 2) [0, 1] ∧ (accBlk bank0).accCheck 2 0x80000 0 = none)
    ∧ (∀ w ∈ [0, 0x3FE0], Plain (accLanes w bank0) (.accrd { acO 0 with d := 8 }) { acO 0 with d := 8 } [0, 1]
        ∧ Plain (accLanes w bank0) (.accwr { acO 0 with c := 8 }) { acO 0 with c := 8 } [0, 1]
        ∧ (accLanes w bank0).accFail (accLanes w bank0).cur w.toNat [0, 1] = none)
    ∧ ((accLanes 0 bank0).waveOf (accLanes 0 bank0).cur = none ∧ ((accLanes 0 bank0).blkOf (accLanes 0 bank0).cur).isSome = true
        ∧ (accSeq 0 bank0).waveOf (accSeq 0 bank0).cur = none ∧ ((accSeq 0 bank0).blkOf (accSeq 0 bank0).cur).isSome = true) := by
  refine ⟨⟨plain_of (by decide +kernel), by decide +kernel, by decide +kernel⟩, ⟨plain_of (by decide +kernel), by decide +kernel⟩,
    ⟨plain_of (by decide +kernel), by decide +kernel⟩, plain_of (by decide +kernel), ⟨plain_of (by decide +kernel), by decide +kernel⟩, ?_,
    by decide +kernel⟩
  intro w h
  simp only [List.mem_cons, List.not_mem_nil, or_false] at h
  rcases h with rfl | rfl <;> exact ⟨plain_of (by decide +kernel), plain_of (by decide +kernel), by decide +kernel⟩

/-- Lanes that offer records at 0x20000 to queue 9, which has two slots and `t` of them taken. -/
def spawning (stat t : Nat) : State :=
  { lanesAt [(8, 0x20000), (9, 0)] with work := { queues := [(9, { type := 2, stat := stat, log := 1, base := 0x28000, tail := t })] } }
def spO : Ops := { form := .f128, ds := 2, d := 1, a := 8, ext := 9 }
def spRec (t : Nat) : State × List (Nat × List Byte) := okOr default ((spawning 1 t).spawnRecords (spawning 1 t).cur spO [0, 1])

/-- SpawnOffers: room for exactly two records, room for one, and a queue that is stopped. -/
theorem witness_spawnOffers :
    (∀ t ∈ [0, 1], Plain (spawning 1 t) (.spawn spO) spO [0, 1] ∧ (spawning 1 t).spawnQueue (spawning 1 t).cur spO = 9
      ∧ (spawning 1 t).spawnRecords (spawning 1 t).cur spO [0, 1] = .ok (spRec t)
      ∧ (∀ k ∈ [0, 1], ∀ e ∈ (spRec t).1.slotPieces 0 9 (t + k), e.2.isSome = true) ∧ (spRec t).2.length = 2)
    ∧ (0 + 2 ≤ 0 + 2 ^ 1 ∧ ¬1 + 2 ≤ 0 + 2 ^ 1)
    ∧ Plain (spawning 2 0) (.spawn spO) spO [0, 1] ∧ ((spawning 2 0).queue 9).stat ≠ 1 := by
  refine ⟨?_, by decide, plain_of (by decide +kernel), by decide +kernel⟩
  intro t h
  simp only [List.mem_cons, List.not_mem_nil, or_false] at h
  rcases h with rfl | rfl <;>
    exact ⟨plain_of (by decide +kernel), by decide +kernel, ok_of _ (by decide +kernel), by decide +kernel, by decide +kernel⟩

def exO : Ops := { bs := 3, cs := 3, b := 7 }

/-- Exits: lanes, a context, a sequencer with a command under way and without. -/
theorem witness_exits :
    Plain (lanesAt []) (.exit exO) exO [0, 1] ∧ Calm (lanesAt []) (lanesAt []).cur ∧ (lanesAt []).waveOf (lanesAt []).cur = none
    ∧ ((lanesAt []).blkOf (lanesAt []).cur).isSome = true
    ∧ (∀ l ∈ [0, 1], ((lanesAt []).lane 0 0 l).live = true ∧ ((lanesAt []).lane 0 0 l).pc = (lanesAt []).cur.pc ∧ ((lanesAt []).lane 0 0 l).hold = .free)
    ∧ Plain (spineAt []) (.exit exO) exO [0] ∧ Plain (seqAt .mseq []) (.exit exO) exO [0]
    ∧ Plain ((seqAt .cseq []).updSeqr 0 true (fun q => { q with flight := 1 })) (.exit exO) exO [0] :=
  ⟨plain_of (by decide +kernel), calm_of rfl (by decide +kernel), by decide +kernel, by decide +kernel, by decide +kernel,
    plain_of (by decide +kernel), plain_of (by decide +kernel), plain_of (by decide +kernel)⟩

def pairA : Instr := .iadd { d := 4, a := 5, b := 6, sw := true }
def pairB : Instr := .isub { d := 9, a := 4, b := 10, ge := true }

/-- PairsIssue: the second half reads what the first writes, and its guard fails in every lane. -/
theorem witness_pairsIssue :
    let s := lanesAt []
    (∃ f, aluOf pairA = some f) ∧ (∃ f, aluOf pairB = some f) ∧ WellFormed s.cur.code pairA = true ∧ WellFormed s.cur.code pairB = true
    ∧ Housed s s.cur ∧ s.earlyFail s.cur (uses s.cur.code pairA ++ uses s.cur.code pairB) = none
    ∧ s.active s.cur { d := 4, a := 5, b := 6, sw := true } = [0, 1] ∧ s.active s.cur { d := 9, a := 4, b := 10, ge := true } = []
    ∧ s.hazard s.cur [0, 1] (fun l => plainWrites (uses s.cur.code pairA) l ++ []) = none ∧ Calm s s.cur :=
  ⟨⟨_, rfl⟩, ⟨_, rfl⟩, by decide +kernel, by decide +kernel, Or.inr (by decide +kernel), by decide +kernel, by decide +kernel,
    by decide +kernel, by decide +kernel, calm_of rfl (by decide +kernel)⟩

/-! Commands: queue 7 of processor 0, in a space whose root maps everything at its own address, as pages of a class. -/

def gotIs {A : Type} : Got A → Bool
  | .ok _ => true
  | .fail _ _ _ => false

def gotOr {A : Type} (d : A) : Got A → A
  | .ok x => x
  | .fail _ _ _ => d

theorem got_of {A : Type} (d : A) {x : State × Got A} (h : gotIs x.2 = true) : x = (x.1, .ok (gotOr d x.2)) := by
  obtain ⟨s, g⟩ := x
  cases g with
  | ok a => rfl
  | fail v a r => exact absurd h (by simp [gotIs])

theorem got_eq {A : Type} {d a : A} {x : State × Got A} (h : gotIs x.2 = true) (k : gotOr d x.2 = a) : x = (x.1, .ok a) := by
  rw [← k]
  exact got_of d h

def bytesAt (a : Nat) : List Byte → Map Byte
  | [] => []
  | b :: r => (a, b) :: bytesAt (a + 1) r

/-- Queue 7 of a processor stands at a command. -/
def atQueue (x : Queue) (cls : Byte) (b : Map Byte) : State :=
  { cur := { unit := .cp, slot := 7 }
    work := { queues := [(7, x)] }
    mem := { bytes := [(0, 1), (1, 0x80), (0x8000, 0x67), (0x8001, cls)] ++ b } }

def cmdQ (n : List Nest) (ss : List Stream) : Queue := { stat := 1, type := 1, log := 4, tail := 9, streams := { nest := n } :: ss }
def cmdAt (n : List Nest) : State := atQueue (cmdQ n []) 4 []
/-- The same with a space of memory-side pages, and the two low words of the counter at 0x40000. -/
def ctrAt (v top : Byte) : State := atQueue (cmdQ [] []) 6 [(0x40000, v), (0x40007, top)]

/-- A header in an open body has its LEN and no FLAGS or ARG. -/
theorem takes_of {s : State} {h : W64} {len flags args : Nat}
    (a : (match (s.queue s.cur.slot).nest with | n :: _ => decide (n.skips = none) | [] => true) = true)
    (b : decide (cmdLen h = len ∧ cmdFlags h ≤ flags ∧ cmdArg h ≤ args) = true) : TakesCmd s h len flags args := by
  have b := of_decide_eq_true b
  refine ⟨fun n r e => ?_, b.1, b.2.1, b.2.2⟩
  rw [e] at a
  exact of_decide_eq_true a

/-- CommandsMove: a running and a draining command queue whose processor is not being fenced. -/
theorem witness_commandsMove :
    (cmdAt []).fencing 3 ((cmdAt []).queue 7).assign = false ∧ ((cmdAt []).queue 7).stat ≠ 3
    ∧ ((atQueue { cmdQ [] [] with stat := 3 } 4 []).queue 7).stat = 3 ∧ ((atQueue { cmdQ [] [] with stat := 3 } 4 []).queue 7).type = 1 := by
  decide +kernel

/-- PlainCommands: a called stream and the ring; a counter that satisfies, is poisoned, or does not satisfy; a page that is
not memory-side; a release; a write in memory; the greatest INTR target and one beyond it; a FENCE with launches. -/
theorem witness_plainCommands :
    TakesCmd (cmdAt []) 0x101 1 0 0 ∧ ((cmdAt []).queue 7).streams.length ≤ 1
    ∧ ((atQueue (cmdQ [] [{ pos := 3 }]) 4 []).queue 7).streams = [{}, { pos := 3 }]
    ∧ TakesCmd (ctrAt 5 0) 0x304 3 1 0 ∧ TakesCmd (cmdAt []) 0x10304 3 1 0
    ∧ (∀ a ∈ [Access.read, .write], (∀ c ∈ [(5, 0), (5, 0x80), (4, 0)],
        ((ctrAt c.1 c.2).unitXlate 0 0x40000 a none)
          = (((ctrAt c.1 c.2).unitXlate 0 0x40000 a none).1, .ok (0x40000, 3)))
      ∧ ((cmdAt []).unitXlate 0 0x40000 a none) = (((cmdAt []).unitXlate 0 0x40000 a none).1, .ok (0x40000, 2)))
    ∧ ((ctrAt 5 0).ctrWords 0x40000).2 = (5, 0) ∧ ctrSat 5 5 = true ∧ ctrPoison 5 = false
    ∧ ((ctrAt 5 0x80).ctrWords 0x40000).2.1 = 0x8000000000000005 ∧ ctrPoison 0x8000000000000005 = true ∧ ctrSat 4 5 = false
    ∧ (cmdAt []).isLocal 0x40000 = true ∧ isIo 0x40000 = false
    ∧ (∀ p ∈ [true, false], ((atQueue { cmdQ [] [] with released := some p } 4 []).queue 7).released = some p)
    ∧ TakesCmd (cmdAt []) 0x20E 2 0 0 ∧ intrBad 0x47000007FF = false ∧ intrBad 0x4700000800 = true ∧ intrBad 0x48000007FF = true
    ∧ TakesCmd (cmdAt []) 0x1010D 1 1 0
    ∧ ((atQueue { cmdQ [] [] with launches := [2], fence := true } 4 []).queue 7).launches ≠ []
    ∧ (let p : BitVec 16 := 7
       ((atQueue { cmdQ [] [] with fence := true } 4 []).queue p.toNat).fence = true) := by
  refine ⟨takes_of (by decide +kernel) (by decide +kernel), by decide +kernel, by decide +kernel,
    takes_of (by decide +kernel) (by decide +kernel), takes_of (by decide +kernel) (by decide +kernel), ?_, by decide +kernel,
    by decide +kernel, by decide +kernel, by decide +kernel, by decide +kernel, by decide +kernel, by decide +kernel,
    by decide +kernel, by decide +kernel, takes_of (by decide +kernel) (by decide +kernel), by decide +kernel, by decide +kernel,
    by decide +kernel, takes_of (by decide +kernel) (by decide +kernel), by decide +kernel, by decide +kernel⟩
  intro a h
  simp only [List.mem_cons, List.not_mem_nil, or_false] at h
  refine ⟨fun c k => ?_, ?_⟩
  · simp only [List.mem_cons, List.not_mem_nil, or_false] at k
    rcases h with rfl | rfl <;> rcases k with rfl | rfl | rfl <;> exact got_eq (d := (0, 0)) (by decide +kernel) (by decide +kernel)
  · rcases h with rfl | rfl <;> exact got_eq (d := (0, 0)) (by decide +kernel) (by decide +kernel)

def deepNest (n : Nat) : List Nest := List.replicate n (.loop 0 2)

/-- Constructs: seven and eight open constructs, four and five streams, each kind of body, a word that is read, and a wrong
LEN of a command that is taken and of one in a skipped body. -/
theorem witness_constructs :
    (∀ n ∈ [0, 7, 8], TakesCmd (cmdAt (deepNest n)) 0x207 2 0 0 ∧ TakesCmd (cmdAt (deepNest n)) 0x500000309 3 0 5
        ∧ TakesCmd (cmdAt (deepNest n)) 0x108 1 0 0 ∧ nestDepth ((cmdAt (deepNest n)).queue 7).nest = n)
    ∧ (cmdAt []).rd 0 0x8000 8 none = (((cmdAt []).rd 0 0x8000 8 none).1, .ok ([0x67, 4, 0, 0, 0, 0, 0, 0], false))
    ∧ TakesCmd (atQueue (cmdQ [] (List.replicate 3 {})) 4 []) 0x20C 2 0 0
    ∧ (∀ n ∈ [3, 4], ((atQueue (cmdQ [] (List.replicate n {})) 4 []).queue 7).streams.length = n + 1)
    ∧ ((cmdAt [.loop 3 2]).queue 7).streams = [{ nest := [.loop 3 2] }] ∧ ((cmdAt [.loop 3 1]).queue 7).nest = [.loop 3 1]
    ∧ ((cmdAt [.ifBody]).queue 7).nest = [.ifBody] ∧ ((cmdAt [.elseBody]).queue 7).nest = [.elseBody]
    ∧ (∀ n ∈ [Nest.skipIf 0, .skipElse 1, .skipLoop 0], ((cmdAt [n]).queue 7).nest = [n] ∧ n.skips ≠ none)
    ∧ cmdLen 0x201 ≠ 1 := by
  refine ⟨?_, got_eq (d := ([], true)) (by decide +kernel) (by decide +kernel), takes_of (by decide +kernel) (by decide +kernel),
    by decide +kernel, by decide +kernel, by decide +kernel, by decide +kernel, by decide +kernel, by decide +kernel, by decide +kernel⟩
  intro n h
  simp only [List.mem_cons, List.not_mem_nil, or_false] at h
  rcases h with rfl | rfl | rfl <;>
    exact ⟨takes_of (by decide +kernel) (by decide +kernel), takes_of (by decide +kernel) (by decide +kernel),
      takes_of (by decide +kernel) (by decide +kernel), by decide +kernel⟩

/-- The image of chapter 4's example of forms at 0x48000: its magic may be spoiled. -/
def imageBytes (magic : Byte) : Map Byte :=
  bytesAt 0x48000 [magic, 0x4C, 0x4E, 0x39, 1, 0, 128, 0] ++ [(0x48008, 64), (0x48010, 0x90), (0x48018, 0x80), (0x48028, 32), (0x4802A, 2),
    (0x4802C, 1), (0x4802E, 3), (0x4802F, 1), (0x48030, 2), (0x48034, 1), (0x48035, 2), (0x48038, 1), (0x4803A, 1), (0x48040, 0xC0),
    (0x48048, 0xD0), (0x480C0, 3), (0x480C8, 1), (0x480D1, 3), (0x480D2, 3), (0x480D8, 64), (0x480DC, 4), (0x480DE, 4)]
/-- A package of one cluster whose memory holds the image. -/
def launchAt (magic : Byte) : State := { atQueue (cmdQ [] []) 4 (imageBytes magic) with ctl := [(0x12C, 1)] }
def launchWs (image res : W64) : List W64 := [image, 0x0001000100000001, 0, 0, 0, 0, 0, res, 0]
def launchImg : Image :=
  okOr {} (gotOr (.error 0) ((launchAt 0x44).checkImage 0 0x48000 1 1 1).2)

theorem checked_of {i : Image} {x : State × Got Checked}
    (a : (match x.2 with | .ok (.ok j) => decide (j = i) | _ => false) = true) : x = (x.1, .ok (.ok i)) := by
  obtain ⟨s, g⟩ := x
  cases g with
  | ok e =>
    cases e with
    | ok j => simp only [decide_eq_true_eq] at a; rw [a]
    | error k => exact absurd a (by simp)
  | fail v b r => exact absurd a (by simp)

/-- LaunchCommands: an image that passes its checks and one whose magic number is wrong; a word that holds a grid; a reserved
field and a misaligned image. -/
theorem witness_launchCommands :
    TakesCmd (launchAt 0x44) 0x902 9 0 0 ∧ TakesCmd (launchAt 0) 0x903 9 0 0
    ∧ (launchAt 0x44).checkImage 0 0x48000 1 1 1 = (((launchAt 0x44).checkImage 0 0x48000 1 1 1).1, .ok (.ok launchImg))
    ∧ gotIs ((launchAt 0).checkImage 0 0x48000 1 1 1).2 = true
    ∧ (match gotOr (.error 0) ((launchAt 0).checkImage 0 0x48000 1 1 1).2 with | .error k => decide (k = 1) | .ok _ => false) = true
    ∧ recordStop (launchWs 0x48000 0) = none ∧ recordStop (launchWs 0x48000 (2 ^ 48)) = some 0x10D ∧ recordStop (launchWs 0x48020 0) = some 5
    ∧ (launchAt 0x44).rd 0 0x48008 8 none = (((launchAt 0x44).rd 0 0x48008 8 none).1, .ok ([64, 0, 0, 0, 0, 0, 0, 0], false)) := by
  refine ⟨takes_of (by decide +kernel) (by decide +kernel), takes_of (by decide +kernel) (by decide +kernel), ?_, by decide +kernel,
    by decide +kernel, by decide +kernel, by decide +kernel, by decide +kernel, got_eq (d := ([], true)) (by decide +kernel) (by decide +kernel)⟩
  exact checked_of (by decide +kernel)

/-- A queue as it stands, with a descriptor of a type at its descriptor's address, 448. -/
def doorAt (x : Queue) (type : Byte) : State :=
  { work := { queues := [(7, x)] }, mem := { bytes := [(0x1C1, 0x80), (0x1C8, type), (0x1C9, 4)] } }

/-- Doorbells: a command queue at the ends of its TAIL, a completion queue at the ends of its HEAD, a good and a bad
descriptor, and each state of QSTAT. -/
theorem witness_doorbells :
    (∀ st ∈ [0, 1, 2, 3], ((doorAt { cmdQ [] [] with stat := st } 1).queue 7).stat = st
      ∧ ((doorAt { cmdQ [] [] with stat := st } 1).queue 7).type ≠ 3 ∧ ((doorAt { cmdQ [] [] with stat := st } 1).queue 7).waitseq = none)
    ∧ (∀ n ∈ [9, 16], ((doorAt (cmdQ [] []) 1).queue 7).tail ≤ n
      ∧ n ≤ ((doorAt (cmdQ [] []) 1).queue 7).head + 2 ^ ((doorAt (cmdQ [] []) 1).queue 7).log)
    ∧ (∀ n ∈ [8, 17], n < ((doorAt (cmdQ [] []) 1).queue 7).tail
      ∨ ((doorAt (cmdQ [] []) 1).queue 7).head + 2 ^ ((doorAt (cmdQ [] []) 1).queue 7).log < n)
    ∧ (let x := (doorAt { stat := 1, type := 3, log := 4, head := 2, tail := 5, unnotified := 1 } 3).queue 7
       x.cqOpen = true ∧ x.waiting = [] ∧ x.unnotified ≠ 0 ∧ x.head ≤ 2 ∧ 5 ≤ x.tail)
    ∧ descBad ((doorAt {} 1).physRead ((doorAt {} 1).qDesc 7) 64).2 = false
    ∧ descBad ((doorAt {} 4).physRead ((doorAt {} 4).qDesc 7) 64).2 = true
    ∧ (doorAt { cmdQ [] [] with stat := 3 } 1).drained 7 = true := by
  decide +kernel

/-! Launches and tasks: a package of cluster 0, with launch 0. -/

/-- An image of four warps and a context, in a class. -/
def imgOf (cls : Nat) : Image := { img with cls := cls, bx := 128, regg := 2 }
def hasLaunch (l : Launch) (ctl : Map W64) (b : Map Byte) : State :=
  { ctl := (0x12C, 1) :: ctl, work := { launches := [(0, l)], queues := [(7, cmdQ [] [])] }, clusters := [(0, {})]
    mem := { bytes := [(0, 1), (1, 0x80), (0x8000, 0x67), (0x8001, 4)] ++ b } }
def grid (cls n : Nat) : Launch := { queue := 7, img := imgOf cls, nx := n, ny := 1, nz := 1 }
/-- A block of cluster 0 that holds these granules, and no party. -/
def holding (grs : List Nat) (s : State) : State := s.updCl 0 (fun c => { c with blocks := [(0, { granules := grs, img := { regg := grs.length } })] })

/-- LaunchEvents: a launch without blocks, one of class T, one of class C with room, and one of more blocks than the package
holds; a block that prefers no cluster, one that prefers cluster 0, and one whose preferred cluster is full; a wait that has
ended; a block without parties; a launch that is done; four slots and an open context for a block. -/
theorem witness_launchEvents :
    (∀ l ∈ [grid 1 0, grid 1 3, grid 0 2, grid 0 99], (hasLaunch l [] []).nextAdmit = some 0)
    ∧ ((hasLaunch (grid 0 2) [] []).launch 0).blocks = 2 ∧ (hasLaunch (grid 0 2) [] []).packageHolds (imgOf 0) = 4
    ∧ ((hasLaunch (grid 0 2) [] []).reserveC 0 2).isSome = true ∧ (grid 0 99).blocks = 99
    ∧ (let s := hasLaunch { grid 1 3 with admitted := true } [] []
       s.nextDispatch = some 0 ∧ s.preferred (s.launch 0) 0 = none ∧ s.firstFit 0 [] = none ∧ s.firstFit 0 s.clustersPresent = some 0)
    ∧ (let s := hasLaunch { grid 1 3 with admitted := true, aff0 := 0x40000 } [] []
       s.nextDispatch = some 0 ∧ s.preferred (s.launch 0) 0 = some [0] ∧ s.firstFit 0 [0] = some 0
       ∧ (holding (List.range 58) s).preferred (s.launch 0) 0 = some [0] ∧ (holding (List.range 58) s).firstFit 0 [0] = none)
    ∧ (let s := hasLaunch { grid 1 3 with affSince := some 5 } [(0x113, 7)] []
       let s := { s with clk := [(0, 12)] }
       5 + s.pkgReg 0x113 ≤ s.cycles s.lowestDie)
    ∧ (let s := holding [0] (hasLaunch (grid 1 1) [] [])
       (s.cl 0).blocks.has 0 = true ∧ (s.block 0 0).saving = false ∧ s.blockOver 0 0 = true)
    ∧ (let s := hasLaunch { grid 1 1 with admitted := true, retired := 1 } [] []
       s.work.launches.has 0 = true ∧ (s.launch 0).admitted = true ∧ (s.launch 0).retired = (s.launch 0).blocks
       ∧ s.pickSlots 0 (imgOf 1) = [0, 16, 32, 48] ∧ (s.launch 0).img.spineEnt ≠ 0 ∧ s.openSpines 0 = [0, 1, 2, 3]) := by
  decide +kernel

/-- A task queue at 0x40000 whose record's entry is at 0x48008 with these flags; the header before the entry. -/
def taskAt (flags : Byte) : State :=
  { ctl := [(0x12C, 1), (16 * 4096 + 0x200, 8)], clusters := [(0, {})]
    work := { queues := [(3, { stat := 1, type := 2, assign := 1, log := 4, base := 0x40000, tail := 1 })]
              ready := [(0, [{ queue := 3, id := 1, budget := 8, cls := 1 }, { queue := 3, id := 0, budget := 8, cls := 1 }])] }
    mem := { bytes := [(0, 1), (1, 0x80), (0x8000, 0x6F), (0x8001, 4), (0x40000, 8), (0x40001, 0x80), (0x40002, 4), (0x40018, flags), (0x40019, 2)]
      ++ bytesAt 0x48000 [1, 2, 0, 0, 0, 0, 0x80] } }

def pullOf (s : State) : State × Got (List Byte × Bool) :=
  ((s.acquire 0 7).updCl 0 (fun c => { c with nextQueue := 3 + 1 })).rd (s.queue 3).aspace ((s.queue 3).slotAddr (s.queue 3).pull) 128 (some 0)

/-- TaskEvents: a record of class T that passes, one of class 3, a wave of two tasks, a waiter that polls. -/
theorem witness_taskEvents :
    (∀ s ∈ [taskAt 1, taskAt 3], s.mayPull 0 = true ∧ s.nextPull 0 = some 3 ∧ gotIs (pullOf s).2 = true)
    ∧ recCheck (recTask 3 0 0x40000 (gotOr ([], false) (pullOf (taskAt 3)).2).1) (gotOr ([], false) (pullOf (taskAt 3)).2).1 = some 9
    ∧ (let u := (pullOf (taskAt 1)).1
       let b := (gotOr ([], false) (pullOf (taskAt 1)).2).1
       recCheck (recTask 3 0 0x40000 b) b = none ∧ recWaits b = []
       ∧ gotOr (some 1) (u.entryCheck 0 (u.queue 3).aspace (recTask 3 0 0x40000 b)).2 = none)
    ∧ ((taskAt 1).waveTasks 0).map (·.id) = [0, 1] ∧ (taskAt 1).freeSlot 0 = some 0 ∧ (taskAt 1).clPresent 0 = true
    ∧ (taskAt 1).waveKib 0 + 8 ≤ 64 * (taskAt 1).waveGranules 0
    ∧ (∃ w ∈ (show State from { xl := { waiters := [{ pa := 64, die := 2, watched := false }] } }).xl.waiters,
        w.pa = 64 ∧ w.die = 2 ∧ w.watched = false) :=
  ⟨by decide +kernel, by decide +kernel, by decide +kernel, by decide +kernel, by decide +kernel, by decide +kernel, by decide +kernel,
    ⟨_, List.mem_cons_self, rfl, rfl, rfl⟩⟩

/-- The lanes of warp 0 held in a way, at a time, with CTL_STARVE and CTL_WAITLIMIT of 4. -/
def heldAt (h : Hold) (now : Nat) : State :=
  { lanesAt [] with
    clusters := [(0, cluster0 { blk := some 0, lanes := [(0, { lane0 [] with hold := h, starve := 4 })], pend := [{}] } { blk with trapctl := true } [] [])]
    clk := [(0, now)], ctl := [(4096 + 0x147, 4), (4096 + 0x148, 4)] }

/-- A cause waits for the lanes of warp 0. -/
def causing : State :=
  { lanesAt [] with clusters := [(0, { cluster0 (warp0 []) { blk with causes := [{ code := 9 }], spineCtx := none } [] [] with spines := [] })] }

/-- PartyEvents: a core whose warp is ready; a warp and a lane that have waited; a YIELD and a PAUSE that end this cycle;
a wait and a REJOIN that have lasted; a pending result; a cause. -/
theorem witness_partyEvents :
    (let s := lanesAt []
     let u := ((s.cl 0).warps.filter (fun e => e.1 / 16 = 0)).foldl (fun t e => t.unpark (warpIssuer 0 e.1)) s
     (u.restCount 0 0).chooseWarp 0 0 = some (0, [0, 1]) ∧ ((u.restCount 0 0).warp 0 0).blk = some 0 ∧ ((u.restCount 0 0).block 0 0).causes = [])
    ∧ (let s := heldAt .free 4
       s.readyLanes 0 0 = [0] ∧ (s.warp 0 0).since + s.dieReg 0 0x147 ≤ s.cycles 0 ∧ s.dieReg 0 0x147 ≤ (s.lane 0 0 0).starve
       ∧ (s.warp 0 0).pend.length = 1)
    ∧ ((heldAt (.yield 4) 4).lane 0 0 0).hold = .yield 4 ∧ (heldAt (.yield 4) 4).cycles 0 = 4
    ∧ (heldAt (.pause 4 false) 4).holdOf (placeOf 0 0) 0 = .pause 4 false
    ∧ (∀ e ∈ [(Hold.wait { kind := 2, obj := .group 0, start := 1 }, 2), (.rejoin 2 1, 3)], let s := heldAt e.1 5
       (s.holdOf (placeOf 0 0) 0).timed = some (e.2, 1) ∧ (s.blockOf (placeOf 0 0)).saving = false ∧ s.wte (placeOf 0 0) = true
       ∧ s.timedOut (placeOf 0 0) 0 e.2 = [0])
    ∧ (let s := causing
       (s.block 0 0).saving = false ∧ (s.block 0 0).causes = [{ code := 9 }] ∧ (s.handler 0 0).isSome = true
       ∧ (∀ h ∈ (s.handler 0 0).toList, h.unit = .lane ∧ (s.frameOf h).busy = false ∧ s.handlerLanes 0 h.slot = [0, 1])) := by
  decide +kernel

/-- A walk of lane 0 at a page, in a space whose leaves hold these bytes; a widening of another page. -/
def walking (leaf : Byte) (pc : W64) : State :=
  { lanesAt [] with
    mem := { bytes := [(0, 1), (1, 0x80), (0x8000, leaf), (0x8001, 4)] }
    xl := { walks := [{ va := pc, who := [(.party { slot := 0, group := 1, pc := 0x10080 } 1 0, pc, .read)] }]
            widens := [{ va := 0x400000 }], recs := [{ page := pc, reason := 2 }] } }

def walkOk (_ : State) : WalkRes → Bool := fun r => match r with | .ok _ => true | _ => false
def walkFails : WalkRes → Bool := fun r => match r with | .fail _ => true | _ => false

/-- WalkEvents: a walk that finds its leaf, one that finds none, a widening, and a record with a word for each action. -/
theorem witness_walkEvents :
    (∀ s ∈ [walking 0x67 0x40000, walking 0 0x40000], s.widening 0 0x40000 = false ∧ s.xl.walks.length = 1)
    ∧ walkOk (walking 0x67 0x40000) ((walking 0x67 0x40000).walk 0 0x40000 .read (some 0)).2 = true
    ∧ walkFails ((walking 0 0x40000).walk 0 0x40000 .read (some 0)).2 = true
    ∧ (walking 0 0x40000).xl.widens[0]? = some { va := 0x400000 }
    ∧ (∀ v ∈ [0, 0x1000, 0x2000], (walking 0 0x40000).resolves 0 (BitVec.ofNat 64 v) = some { page := 0x40000, reason := 2 })
    ∧ (∀ v ∈ [1, 0x3000, 0x4000], (walking 0 0x40000).resolves 0 (BitVec.ofNat 64 v) = none) := by
  decide +kernel

/-- A leaf of 32 KiB at 0x40000 through three levels of tables, a pool of stack 0 with the frame 0x200000, and die 1 at
distance 1 from stack 0. -/
def leafWorld : State :=
  { mem := { bytes := [(0, 1), (1, 0x80), (0x8000, 1), (0x8002, 1), (0x10000, 1), (0x10001, 0x80), (0x10002, 1), (0x18040, 0x67),
      (0x18041, 4), (0x18042, 4), (0x20001, 0x10), (0x20002, 2), (0x20008, 4), (0x20018, 1), (0x21002, 0x20)] }
    ctl := [(0x10A, 0x20000), (0x116, 1), (0x119, 2), (0x121, 1), (0x12B, 0xFFFFF), (0x12C, 1)]
    xl := { invals := [{ inc := 1 }], mig := [(64, 1), (65, 2)] } }

/-- TranslationCommands: the greatest range that stays one and the least that does not, a refused one, an invalidation under
way, and a page that can be moved to a frame. -/
theorem witness_translationCommands :
    (∀ n ∈ [4096, 4097], let x := xlFields (BitVec.ofNat 256 (n * 2 ^ 32))
      x.flags ≤ 1 ∧ x.inc < 2 ^ 63 ∧ leafWorld.ctrPa x.ctr = true ∧ x.npages = n ∧ x.va = 0)
    ∧ (xlFields (BitVec.ofNat 256 (2 ^ 255))).inc = 2 ^ 63 ∧ (xlFields 0x200).flags = 2 ∧ (xlFields 0).npages = 0
    ∧ leafWorld.xl.invals[0]? = some { inc := 1 } ∧ frameBad 0x50000 = false
    ∧ (leafWorld.leafOf 0 0x40000).2 = some (0x18040, 0, 0x40467) ∧ (leafWorld.leafOf 0 0x40000).1.movable 0 0x40467 = true
    ∧ (leafWorld.leafOf 0 0x40000).1.movable 0 0x40567 = false
    ∧ (leafWorld.leafOf 0 0x40000).1.migrates 0x40000 1 0 0x40467 = true
    ∧ isOk ((leafWorld.leafOf 0 0x40000).1.takeFrame 1).2 = true := by
  decide +kernel

/-! Pre-emption, engines, coherence, the package. -/

def smallImg : Image := { cls := 1, warpEnt := 0x90 }
/-- Launch 0 with a block resident on cluster 0, or saved at 0x40000 with a STATUS; the space's pages are memory-side. -/
def pmWorld (resident : Bool) (status : Byte) : State :=
  { ctl := [(0x12C, 1)]
    work := { launches := [(0, { queue := 7, img := smallImg, nx := 1, ny := 1, nz := 1, admitted := true, next := 1, areas := [(0, 0x40000)] })] }
    clusters := [(0, if resident then { blocks := [(0, { img := smallImg, saving := true })], warps := [(0, { blk := some 0, lanes := [(0, { live := true })] })] } else {})]
    eng := { saved := [(1, { blk := { img := smallImg } })], save := if resident then some { blks := [0] } else none }
    mem := { bytes := [(0, 1), (1, 0x80), (0x8000, 0x67), (0x8001, 6)] ++ bytesAt 0x40000 [0x41, 0x53, 0x4E, 0x4C, 1, 0, status]
      ++ [(0x40000 + areaOff smallImg 4, 1)] } }
/-- A command without flags for block 0 of launch 0, its area at an address, to any cluster. -/
def pmCmd (area : Nat) : BitVec 512 := BitVec.ofNat 512 (area * 2 ^ 128 + 0xFFFF * 2 ^ 384)

def areaGood : AreaRead → Bool
  | .ok t sv => decide (t = 1) && decide (sv = { blk := { img := smallImg } })
  | _ => false
def areaBad : AreaRead → Bool
  | .bad => true
  | _ => false
def areaRefused : AreaRead → Bool
  | .refused => true
  | _ => false

/-- PreemptionCommands: a command with good fields and with a misaligned area; a resident block; a save without pending
results; a saved block that finds its place; an area that holds no saved block, and one beyond the address space. -/
theorem witness_preemptionCommands :
    (let s := pmWorld true 1
     let x := pmFields (pmCmd 0x40000)
     s.pmBad x = false ∧ x.aspace = 0 ∧ s.work.launches.has x.lnum = true ∧ (s.launch x.lnum).admitted = true
     ∧ x.whole = false ∧ (s.launch x.lnum).img.cls = 1 ∧ s.saveBlocks x = [(0, 0, 0)] ∧ (s.areasOk x (s.launch 0) [0]).2 = true
     ∧ s.eng.save = some { blks := [0] } ∧ s.saveReady 0 0 = true)
    ∧ (pmWorld false 1).saveBlocks (pmFields (pmCmd 0x40000)) = [] ∧ (pmWorld false 1).pmBad (pmFields (pmCmd 0x40080)) = true
    ∧ (let s := pmWorld false 1
       let x := pmFields (pmCmd 0x40000)
       let u := (s.readArea 0 x.area).1
       let sv : Saved := { blk := { img := smallImg } }
       (s.rootOf x.aspace).2 ≠ none ∧ areaGood (s.readArea 0 x.area).2 = true ∧ x.target = 0xFFFF
       ∧ (State.placeAll x (decide (u.eng.restSince.getD (u.cycles u.lowestDie) + u.pkgReg 0x113 ≤ u.cycles u.lowestDie)) u [(0, 1, sv)]).isSome = true)
    ∧ areaBad ((pmWorld false 0).readArea 0 0x40000).2 = true ∧ areaRefused ((pmWorld false 1).readArea 0 (2 ^ 51)).2 = true := by
  decide +kernel

/-- Cluster 0 with a copy of one row to finish or to begin, and a clearing of accumulator banks; two sill commands; a
collective step of this package alone. -/
def engWorld (begun : Bool) : State :=
  { clusters := [(0, { blocks := [(0, {})], copyQ := [{ desc := List.replicate 64 0, begun := begun, chunk := if begun then 1 else 0 }]
                       matQ := [{ accop := some (0, 0x100000000, 0) }] })]
    clk := [(0, 9)], ctl := [(0x115, 9)]
    mem := { bytes := [(0, 1), (1, 0x80), (0x8000, 0x67), (0x8001, 4)] }
    eng := { sills := [(0, { op := 0, dst := 0x40000, srcA := 0x48000, n := 1 }), (1, { op := 1, dst := 0x40000, n := 1, next := 1 })]
             colls := [(0, { src := 0x40000, dst := 0x50000, len := 8, npart := 1, peers := [0] })] } }

/-- EngineCompletions. -/
theorem witness_engineCompletions :
    (∀ s ∈ [engWorld false, engWorld true], (s.cl 0).copyQ.length = 1 ∧ (s.block 0 0).saving = false
      ∧ (s.cl 0).matQ = [{ accop := some (0, 0x100000000, 0) }] ∧ (s.cl 0).copyQ.all (fun q => !q.parked && (s.copyBegin 0 q).isSome) = true)
    ∧ (((engWorld true).cl 0).copyQ.all (fun q => q.begun && decide ((parseDesc q.desc).chunks ≤ q.chunk) && q.ring.isNone && q.ctr.isNone)) = true
    ∧ (∀ q ∈ ((engWorld true).eng.sills.find? 0).toList, q.parked = false ∧ q.next < q.n ∧ gotIs ((engWorld true).sillXlate q q.touches).2 = true)
    ∧ (∀ q ∈ ((engWorld true).eng.sills.find? 1).toList, q.n ≤ q.next)
    ∧ (∀ q ∈ ((engWorld true).eng.colls.find? 0).toList, (engWorld true).collLocals q = some [(0, 0)]
      ∧ ((engWorld true).collRead 0 q).2 = some (0, [0, 0], []) ∧ q.start + (engWorld true).pkgReg 0x115 ≤ (engWorld true).cycles 0) := by
  decide +kernel

/-- A message about line 5 in flight; agent 0 holds the line in a state. -/
def msgWorld (k : MsgKind) (slot : Nat) (home : Bool) (st : CacheSt) : State :=
  { mem := { msgs := [{ kind := .ack, line := 4 }, { kind := k, line := 5, slot := slot, toHome := home }]
             cache := [(agKey 0 5, { st := st })] } }

/-- CoherenceMessages: each message in flight to the home or to an agent of this package; a line held in each state. -/
theorem witness_coherenceMessages :
    (∀ k ∈ [MsgKind.rdS, .rdX, .upg, .wbD, .cln], let s := msgWorld k 0 true .S
      takeMsg (fun m => m.kind = k && m.line = 5 && m.slot = 0) s.mem.msgs = some ({ kind := k, line := 5, toHome := true }, [{ kind := .ack, line := 4 }])
      ∧ s.mem.txns.has 5 = false)
    ∧ (∀ k ∈ [MsgKind.hR, .hW, .rR], takeMsg (fun m => m.kind = k && m.line = 5 && m.slot = 255) (msgWorld k 255 true .S).mem.msgs
        = some ({ kind := k, line := 5, slot := 255, toHome := true }, [{ kind := .ack, line := 4 }]))
    ∧ (∀ k ∈ [MsgKind.fwdS, .fwdX, .fwdH, .inv, .rcl, .data, .ack], ∀ h ∈ [true, false],
        takeMsg (fun m => m.kind = k && m.line = 5 && m.slot = 0) (msgWorld k 0 h .S).mem.msgs
          = some ({ kind := k, line := 5, toHome := h }, [{ kind := .ack, line := 4 }]) ∧ (msgWorld k 0 h .S).isOwnAgent 0 = true)
    ∧ (∀ st ∈ [CacheSt.M, .O, .E, .S], (msgWorld .inv 0 false st).mem.wb.find? (agKey 0 5) = none
        ∧ (msgWorld .inv 0 false st).mem.cline 0 5 = some { st := st }) := by
  decide +kernel

/-- Present dies, ports and harts, an error that has come twice at each of two times, and a mirror sender. -/
def pkgWorld : State :=
  { ctl := [(0x11D, 1), (0x12B, 0xFFFF000FF), (0x12F, 1), (0x137, 3)], ns := 10 ^ 9, out := { errs := [(1, [0, 5])], tlain := [{ line := 2 ^ 33, write := true }] } }

/-- PackageEvents: a register that takes values, an absent one and one of the device; points 0 to 4; a checkpoint with and
without its bit; a line of the accepted sender; a unit with two errors in the window and one with none. -/
theorem witness_packageEvents :
    (regUsed 0 0x113 = true ∧ deviceReg 0x113 = false ∧ 0x113 ∉ [0x145, 0x134, 0x135, 0x14A, 0x200])
    ∧ regUsed 0 0x1FF = false ∧ deviceReg 0x11A = true
    ∧ bitsN (4 : W64).toNat 0 3 ≤ 4 ∧ 4 < bitsN (5 : W64).toNat 0 3 ∧ pkgWorld.lowerDie = some 7
    ∧ (0xFFF : W64).getLsbD 12 = false ∧ (0x1001 : W64).getLsbD 12 = true ∧ (0x1001 : W64).toNat < 2 ^ 13
    ∧ pkgWorld.mem.wf = true ∧ pkgWorld.pkgReg 0x137 = 3 ∧ paStack ((pkgWorld.pkgId * 2 ^ 33 + 5) * 128) ≤ 11
    ∧ rasNames 1 = true ∧ pkgWorld.out.errs.find? (1 : W64).toNat = some [0, 5] ∧ pkgWorld.ns ≤ 0 + pkgWorld.pkgReg 0x11D * 10 ^ 9
    ∧ rasNames 0x11 = true ∧ pkgWorld.out.errs.find? (0x11 : W64).toNat = none := by
  decide +kernel

/-- The kinds of units whose fence is at once. -/
theorem witness_packageEvents_units :
    ∀ w ∈ [2, 0x75, 0x16], rasNames (BitVec.ofNat 64 w) = true
      ∧ (rasKind (BitVec.ofNat 64 w) = 2 ∨ rasKind (BitVec.ofNat 64 w) = 5 ∨ rasKind (BitVec.ofNat 64 w) = 6)
      ∧ pkgWorld.fenced (BitVec.ofNat 64 w) = false := by
  decide +kernel

/-- Function 1 of port 0 with a binding word of these low bytes. -/
def bound (b2 : Byte) (leaf : Byte) : State :=
  { pkgWorld with ctl := pkgWorld.ctl ++ [(0x131, 0x10000)]
                  mem := { bytes := [(0, 1), (1, 0x80), (0x8000, leaf), (0x8001, 4), (0x10006, b2)] } }

/-- OutsideRequests: a function without a binding, with one but no rights, and with all; reads, writes and translations of
its space that succeed and that do not; a port, a package request and a hart. -/
theorem witness_outsideRequests :
    (bound 0 0x67).portPresent 0 = true ∧ ((bound 0 0x67).binding 0 1).2 = none
    ∧ ((bound 1 0x67).binding 0 1).2 = some (0, false, false) ∧ ((bound 7 0x67).binding 0 1).2 = some (0, true, true)
    ∧ gotIs (State.busRead 3 (((bound 1 0x67).binding 0 1).1) .device (busXlate 0) .read 0x40000 4).2 = true
    ∧ gotIs ((((bound 1 0x67).binding 0 1).1).busWrite .device (busXlate 0) 0x40000 [1, 2]).2 = true
    ∧ (∀ a ∈ [Access.read, .write], walkOk (bound 7 0x67) ((((bound 7 0x67).binding 0 1).1).walkNow 0 0x40000 a none).2 = true
      ∧ walkFails ((((bound 7 0).binding 0 1).1).walkNow 0 0x40000 a none).2 = true)
    ∧ (pkgWorld.ctlOf 0 0x12B).getLsbD 28 = true ∧ (pkgWorld.ctlOf 0 0x12B).getLsbD 35 = true
    ∧ pkgWorld.out.tlain[0]? = some { line := 2 ^ 33, write := true } ∧ pkgWorld.hartPresent 0 = true ∧ (2047 : W32).toNat ≤ 2047 := by
  decide +kernel

/-- PowerAndBoot: each state of power, a package that has not booted, and an empty image, which is malformed. Whether an
image is accepted rests on what the spec leaves to the root of trust. -/
theorem witness_powerAndBoot :
    (show State from { power := .off }).power = .off ∧ State.reset.power = .running ∧ State.reset.boot.stat = 0
    ∧ bootCode State.reset.boot.len.toNat State.reset.ticks State.reset.boot.image = 1
    ∧ State.reset.up = false ∧ (show State from { boot := { stat := 4 } }).up = true := by
  decide +kernel

/-! Decoding, the step, and memory. -/

/-- EncodeDecodes: an operation with every kind of field, the last index of each, and a pair. -/
theorem witness_encodeDecodes :
    (Instr.iadd { form := .f96, sw := true, ge := true, gs := true, gp := 15, m := 0x02, bs := 3, d := 254, a := 254, ext := 0xFFFFFFFF }).ops
      = some { form := .f96, sw := true, ge := true, gs := true, gp := 15, m := 0x02, bs := 3, d := 254, a := 254, ext := 0xFFFFFFFF }
    ∧ WellFormed .lane (.iadd { form := .f96, sw := true, ge := true, gs := true, gp := 15, m := 0x02, bs := 3, d := 254, a := 254, ext := 0xFFFFFFFF }) = true
    ∧ WellFormed .lane (.iadd { d := 4, a := 5, b := 6 }) = true ∧ WellFormed .lane (.isub { d := 9, a := 5, b := 10 }) = true
    ∧ ((info .lane (.iadd { d := 4, a := 5, b := 6 })).any (·.pair)) = true ∧ ((info .lane (.isub { d := 9, a := 5, b := 10 })).any (·.pair)) = true
    ∧ pairOk .lane (.iadd { d := 4, a := 5, b := 6 }) (.isub { d := 9, a := 5, b := 10 }) = true := by
  decide +kernel

/-- A booted package whose first group stands at words of its code page. -/
def atWords (pc : W64) (ws : List W32) : State :=
  let s := lanesAt []
  let w := { warp0 [] with lanes := [(0, { lane0 [] with pc := pc }), (1, { lane0 [] with pc := pc })] }
  { s with
    boot := { stat := 4 }
    clusters := [(0, cluster0 w blk [] [])]
    ports := [{ unit := .lane, group := 3, pc := pc }]
    mem := { bytes := (bytesAt 0x20080 (ws.flatMap (fun w => leBytes 4 w.toNat))).filter (fun e => e.2 ≠ 0) } }

def foundAt (s : State) : Decoded :=
  let c : Issuer := { unit := .lane, group := 3, pc := 0x10080 }
  let u := { s.tick with ports := [] }
  match u.tlbFind 0 (u.aspaceOf c) c.pc .fetch with
  | some tlb => decode c.code (u.granule c (tlb.addr c.pc))
  | none => .pad 0

/-- StepRunsDecoded: a group at an operation, a pair, a pad run, and a word of no operation; a group at a misaligned PC; a
processor and a sequencer at their turns. -/
theorem witness_stepRunsDecoded :
    (let s := atWords 0x10080 []
     s.up = true ∧ ({ s.tick with ports := [] } : State).issuers { unit := .lane, group := 3, pc := 0x10080 } = [0, 1]
     ∧ ({ s.tick with ports := [] } : State).tlbFind 0 0 0x10080 .fetch = some { vpn := 2, pa := 0x20000, r := true, x := true })
    ∧ foundAt (atWords 0x10080 (wordsOfNat [0x0003000A02032001])) = .one (.iadd { bs := 3, b := 10, a := 2, d := 3 }) 8
    ∧ foundAt (atWords 0x10080 (wordsOfNat [0x8000000605042003, 0x0000000A05092201]))
        = .two (.iadd { d := 4, a := 5, b := 6, ext := 0 }) (.isub { d := 9, a := 5, b := 10 })
    ∧ foundAt (atWords 0x10080 (List.replicate 8 0xFFFFFFFC)) = .pad 32
    ∧ (match foundAt (atWords 0x10080 (wordsOfNat [0x0001000206052035])) with | .illegal _ => true | _ => false) = true
    ∧ ({ (atWords 0x10082 []).tick with ports := [] } : State).issuers { unit := .lane, group := 3, pc := 0x10082 } = [0, 1] := by
  decide +kernel

/-- The turns that have no group at a port. -/
theorem witness_stepRunsDecoded_turns :
    (let s := { cmdAt [] with boot := { stat := 4 }, ctl := [(0x12B, 0x1000000000)], agenda := [.cmd 0], mem := { bytes := [(0, 1), (1, 0x80), (0x8000, 0x67), (0x8001, 4), (0x8060, 1)] } }
     let s := s.updQueue 7 (fun x => { x with base := 0x40000 })
     let t := { s.tick with agenda := s.agenda.drop 1 }
     s.ports = [] ∧ s.up = true ∧ (t.ctlOf 0 0x12B).getLsbD 36 = true ∧ t.nextCmdQueue 0 = some 7 ∧ (t.fetchCmd 0 7).2.isSome = true)
    ∧ (let s := { seqAt .mseq [] with boot := { stat := 4 }, agenda := [.seq 0 0] }
       let t := { s.tick with agenda := s.agenda.drop 1 }
       let e : Issuer := { unit := .mseq, pc := 0x10080 }
       (t.seqr 0 false).pc = 0x10080 ∧ t.stands e 0 = true ∧ t.readyAt e 0 = true) := by
  decide +kernel

/-- MemoryCanonical and StepKeepsMemory: memory after reset, and memory that lists bytes, at the last address too. -/
theorem witness_memoryCanonical :
    State.reset.mem.wf = true ∧ (show Memory from { bytes := [(0, 1), (2 ^ 52 - 1, 255)] }).wf = true
    ∧ (show Memory from { bytes := [(1, 0)] }).wf = false ∧ (show Memory from { bytes := [(2, 1), (1, 1)] }).wf = false := by
  decide +kernel

/-- StepKeepsMemory: a step of a state whose memory lists bytes answers a next state. -/
theorem witness_stepKeepsMemory :
    (let s := { atWords 0x10080 (wordsOfNat [0x0003000A02032001]) with ports := [], agenda := [.op .freeze] }
     s.mem.wf = true ∧ s.mem.bytes ≠ [] ∧ (match step s with | .next _ => true | _ => false) = true) := by
  decide +kernel

/-- SumSelectTable. -/
theorem witness_sumSelectTable :
    Plain (lanesAt []) (.iadd3 { m := 2, d := 4, a := 6, b := 8, c := 10 }) { m := 2, d := 4, a := 6, b := 8, c := 10 } [0, 1]
    ∧ Plain (seqAt .mseq []) (.sel { d := 4, a := 6, b := 8, c := 0x13 }) { d := 4, a := 6, b := 8, c := 0x13 } [0]
    ∧ Plain (spineAt []) (.plop3 { m := 0x1FE, ds := 2, d := 15, a := 15, b := 15, c := 15 })
        { m := 0x1FE, ds := 2, d := 15, a := 15, b := 15, c := 15 } [0]
    ∧ Housed (lanesAt []) (lanesAt []).cur ∧ Housed (spineAt []) (spineAt []).cur ∧ Housed (seqAt .mseq []) (seqAt .mseq []).cur :=
  ⟨plain_of (by decide +kernel), plain_of (by decide +kernel), plain_of (by decide +kernel), Or.inr (by decide +kernel),
    Or.inr (by decide +kernel), Or.inr (by decide +kernel)⟩

/-! ### Further witnesses: the clauses for stops, held parties and waits -/

def cxO : Ops := { d := 2, a := 4 }
/-- Lanes whose CALLX goes to an address; the word before 0x10088 is a header of `fb` times 8 registers. -/
def calling (lo hi : W32) (fb : Nat) : State :=
  { lanesAt [(4, lo), (5, hi)] with mem := { bytes := bytesAt 0x20080 (leBytes 8 (0x201 + fb * 2 ^ 54)) } }
def callTarget (s : State) (l : Nat) : W64 := s.opA s.cur cxO l true

/-- TransferChecks: a header before the space, one on a page without a translation, a target off the header's alignment, no
header, and headers of 32 × 8 registers and of a register too many. -/
theorem witness_transferChecks_callx :
    (let s := calling 0 0 4
     Plain s (.callx cxO) cxO [0, 1] ∧ (∀ l ∈ [0, 1], (callTarget s l).toNat = 0 ∧ 2 ^ 51 ≤ (callTarget s l - 8).toNat))
    ∧ (let s := calling 0x18000 0 4
       Plain s (.callx cxO) cxO [0, 1] ∧ ∀ l ∈ [0, 1], (callTarget s l - 8).toNat < 2 ^ 51 ∧ s.headerAt s.cur (callTarget s l) ≠ none)
    ∧ (let s := calling 0x18008 0 4
       Plain s (.callx cxO) cxO [0, 1] ∧ ∀ l ∈ [0, 1], (callTarget s l - 8).toNat < 2 ^ 51 ∧ s.headerAt s.cur (callTarget s l) = none)
    ∧ (∀ fb ∈ [0, 5, 32, 33], let s := calling 0x10088 0 fb
       Plain s (.callx cxO) cxO [0, 1] ∧ ∀ l ∈ [0, 1], (callTarget s l).toNat % 8 = 0
         ∧ (s.headerAt s.cur (callTarget s l)).bind headerRegs = if fb = 0 ∨ fb = 33 then none else some (8 * fb))
    ∧ (let s := calling 0x1008C 0 4
       Plain s (.callx cxO) cxO [0, 1] ∧ ∀ l ∈ [0, 1], (callTarget s l).toNat % 8 ≠ 0) := by
  refine ⟨⟨plain_of (by decide +kernel), by decide +kernel⟩, ⟨plain_of (by decide +kernel), by decide +kernel⟩,
    ⟨plain_of (by decide +kernel), by decide +kernel⟩, ?_, plain_of (by decide +kernel), by decide +kernel⟩
  intro fb h
  simp only [List.mem_cons, List.not_mem_nil, or_false] at h
  rcases h with rfl | rfl | rfl | rfl <;> exact ⟨plain_of (by decide +kernel), by decide +kernel⟩

/-- RejoinHolds: lane 2 held before at the mask, which names it or not, with a last lane to come or none. -/
theorem witness_rejoinHolds_held :
    (∀ m ∈ [1, 3, 7, 15], let s := world .lane { warp0 [] with lanes := [(0, lane0 []), (1, lane0 []), (2, { live := true, pc := 0x10080, hold := .rejoin 1 0 }), (3, { live := true })], jm := [(1, m)], jh := [(1, 4)] } blk [] []
      Plain s (.rejoin { a := 1 }) { a := 1 } [0, 1] ∧ Calm s s.cur ∧ s.holdOf s.cur 2 = .rejoin 1 0 ∧ 2 ∉ s.cur.places
      ∧ ∀ l ∈ [0, 1], ((s.warp 0 0).lane l).live = true ∧ ((s.warp 0 0).lane l).pc = s.cur.pc ∧ ((s.warp 0 0).lane l).hold = .free) := by
  intro m h
  simp only [List.mem_cons, List.not_mem_nil, or_false] at h
  rcases h with rfl | rfl | rfl | rfl <;>
    exact ⟨plain_of (by decide +kernel), calm_of rfl (by decide +kernel), by decide +kernel, by decide +kernel, by decide +kernel⟩

/-- Lanes with a pending result of v3 in lane 1. -/
def pendingV3 : State := world .lane { warp0 [] with pend := [{ lanes := 2, writes := [⟨1, .v, 3, 7⟩] }] } blk [] []

/-- TrapEntry: an operand at the last register and one beyond, a peg at the last and one beyond, and a result that is pending. -/
theorem witness_trapEntry_stops :
    (∀ k ∈ [31, 32], (uses .lane (.iadd { d := BitVec.ofNat 8 k, a := 2, b := 2 })).find? (fun x => decide (x.file = .v)
        && decide ((lanesAt []).allocation (lanesAt []).cur < x.idx + x.n))
      = if k = 31 then none else some { file := .v, idx := 32, n := 1, wr := true, rd := false })
    ∧ (∀ k ∈ [7, 8], ((uses .lane (.iadd { d := 3, a := 2, bs := 2, m := 2, b := BitVec.ofNat 8 k })).find? (fun x => decide (x.file = .pg)
        && decide ((lanesAt []).pegsOf (lanesAt []).cur ≤ x.idx))).isSome = decide (k = 8))
    ∧ (∃ f, resultOf (.iadd { d := 3, a := 2, b := 2 }) = some f)
    ∧ pendingV3.earlyFail pendingV3.cur (uses .lane (.iadd { d := 3, a := 2, b := 2 })) = none
    ∧ (∀ l ∈ pendingV3.active pendingV3.cur { d := 3, a := 2, b := 2 }, (pendingV3.warp 0 0).pendCount l < 8)
    ∧ (pendingV3.active pendingV3.cur { d := 3, a := 2, b := 2 }).map (fun l => (pendingV3.warp 0 0).pending l .v 3) = [false, true]
    ∧ CanEnter pendingV3 pendingV3.cur [0, 1] ∧ (∀ p ∈ (pendingV3.warp 0 0).pend, p.poison = []) ∧ [0, 1] = pendingV3.cur.places :=
  ⟨by decide +kernel, by decide +kernel, ⟨_, rfl⟩, by decide +kernel, by decide +kernel, by decide +kernel,
    ⟨Or.inl rfl, by decide +kernel, by decide +kernel, by decide +kernel, by decide +kernel, by decide +kernel⟩, by decide +kernel,
    by decide +kernel⟩

/-- A context in trap mode with a frame of a UNIT, and the matrix or the copy sequencer of its block in FAULT with commands under way. -/
def spineHandler (unit flight : Nat) (kill : Bool) : State :=
  let s := world .spine (warp0 []) blk [] []
  let s := s.updSpine 0 0 (fun x => { x with trap := true, frame := { busy := true, unit := unit, npc := 0x10088, rpc := 0x10090, kill := kill } })
  s.updSeqr 0 (unit = 3) (fun q => { q with st := .fault, flight := flight })

/-- TrapReturn: a context with a frame of every UNIT, KILL set and clear, commands under way and none. -/
theorem witness_trapReturn_units :
    ∀ u ∈ [0, 1, 2, 3, 4], ∀ n ∈ [0, 1], ∀ k ∈ [true, false], let s := spineHandler u n k
      Plain s (.eret {}) {} [0] ∧ s.inTrap s.cur 0 = true ∧ (s.frameOf s.cur).unit = u ∧ (s.frameOf s.cur).acted = false
      ∧ (u = 2 ∨ u = 3 → (s.seqr 0 (u = 3)).st = .fault ∧ (s.seqr 0 (u = 3)).blk = (s.blkOf s.cur).getD 0 ∧ (s.seqr 0 (u = 3)).flight = n) := by
  intro u hu n hn k hk
  simp only [List.mem_cons, List.not_mem_nil, or_false] at hu hn hk
  rcases hu with rfl | rfl | rfl | rfl | rfl <;> rcases hn with rfl | rfl <;> rcases hk with rfl | rfl <;>
    exact ⟨plain_of (by decide +kernel), by decide +kernel, by decide +kernel, by decide +kernel, by decide +kernel⟩

/-- PredicatesFromRegister: PMOV.TOR, both comparisons, a vote and SAMPLE. -/
theorem witness_predicatesFromRegister_values :
    Plain (lanesAt []) (.pmovTor { d := 3 }) { d := 3 } [0, 1]
    ∧ (let o : Ops := { ds := 2, d := 1, a := 2, b := 3 }; Plain (lanesAt []) (.isetp o) o [0, 1] ∧ ((lanesAt []).predOp (lanesAt []).cur [] [0, 1] (.isetp o)).isSome = true)
    ∧ (let o : Ops := { ds := 2, d := 1, a := 2, b := 3, m := 4 }; Plain (lanesAt []) (.fsetp o) o [0, 1] ∧ ((lanesAt []).predOp (lanesAt []).cur [] [0, 1] (.fsetp o)).isSome = true)
    ∧ (let o : Ops := { ds := 2, d := 1, a := 2 }; Plain (lanesAt []) (.vote o) o [0, 1] ∧ ((lanesAt []).predOp (lanesAt []).cur [] [0, 1] (.vote o)).isSome = true)
    ∧ (let o : Ops := { bs := 1, d := 6, a := 3, b := 5, c := 2 }; Plain (lanesAt []) (.sample o) o [0, 1] ∧ ((lanesAt []).predOp (lanesAt []).cur [] [0, 1] (.sample o)).isSome = true) :=
  ⟨plain_of (by decide +kernel), ⟨plain_of (by decide +kernel), rfl⟩, ⟨plain_of (by decide +kernel), rfl⟩, ⟨plain_of (by decide +kernel), rfl⟩,
    plain_of (by decide +kernel), rfl⟩

/-- ActivationBanks: a quotient and a product that issue; ends of the hypotheses about rounding. -/
theorem witness_activationBanks_values :
    (let o : Ops := { d := 3, a := 2, b := 4 }; Plain (lanesAt []) (.idiv o) o [0, 1] ∧ ((lanesAt []).groupOp (lanesAt []).cur [] [0, 1] (.idiv o)).isSome = true)
    ∧ (let o : Ops := { m := 4, d := 3, a := 2, b := 4 }; Plain (lanesAt []) (.fmul o) o [0, 1] ∧ (floatOp (.fmul o)).isSome = true)
    ∧ fp32 ∈ [fp64, fp32, fp16, bf16, e5m2, e4m3, e3m2, e2m3, e2m1] ∧ fp32.kind = .ieee ∧ (0 : Nat) < 2 ^ 53 - 1 ∧ 2 ^ 53 - 1 < 2 ^ 53
    ∧ (∀ u n, RMode.rne ≠ .sr u n)
    ∧ (match fp32.readAs false 0x7FFFFF with | .fin neg m _ => decide (neg = false) && decide (m ≠ 0) | _ => false) = true
    ∧ (match fp32.readAs true 0x7FFFFF with | .fin _ m _ => decide (m = 0) | _ => false) = true :=
  ⟨⟨plain_of (by decide +kernel), rfl⟩, ⟨plain_of (by decide +kernel), rfl⟩, by decide, by decide, by decide, by decide,
    fun _ _ => by simp, by decide +kernel, by decide +kernel⟩

/-- SumSelectTable: operations of the table of values, in each unit's code. -/
theorem witness_sumSelectTable_values :
    (let o : Ops := { d := 3, a := 2, b := 2 }
     Plain (lanesAt []) (.iadd o) o [0, 1] ∧ Plain (spineAt []) (.imul o) o [0] ∧ Plain (seqAt .cseq []) (.iadd o) o [0]
     ∧ (valueOp (.iadd o)).isSome = true ∧ (valueOp (.imul o)).isSome = true) :=
  ⟨plain_of (by decide +kernel), plain_of (by decide +kernel), plain_of (by decide +kernel), rfl, rfl⟩

/-- Pages beside the others: the ports of the queues at 0x38000, the control registers at 0x48000, and one of package 1 at 0x58000. -/
def ioPages : List Tlb := pages ++
  [{ vpn := 7, pa := 15 * 2 ^ 36 + 0x20000000, cls := 2, r := true, w := true, d := true },
   { vpn := 9, pa := 15 * 2 ^ 36 + 0x10000000, cls := 2, r := true, w := true, d := true },
   { vpn := 11, pa := 2 ^ 40, cls := 2, r := true, w := true, d := true }]
/-- Two lanes with an address, of which some wait for an append at queue 9. -/
def ioLanes (a : W32) (late : List Nat) : State :=
  { addrLanes a with xl := { ctlb := [(0, ioPages)] }
                     work := { queues := [(9, { waiting := late.map (fun l => { party := some { t := l } }) })] } }
def ioO : Ops := { m := 0x50, c := 8, a := 4, bs := 3 }
def ioL : Ops := { m := 0x50, d := 8, a := 4, bs := 3 }

/-- Loads and Stores: a control register, an append to queue 3 that no lane or one lane must hold back, and package 1. -/
theorem witness_stores_outside :
    (∀ e ∈ [((0x38018 : W32), ([] : List Nat)), (0x38018, [1]), (0x48008, []), (0x58000, [0])], let s := ioLanes e.1 e.2
      Plain s (.st ioO) ioO [0, 1] ∧ Plain s (.ld ioL) ioL [0, 1]
      ∧ s.checkAccess s.cur .write { al := opBytes ioO } (s.reqsAB s.cur ioO [0, 1]) = .ok (qsOf s .write { al := opBytes ioO } (s.reqsAB s.cur ioO [0, 1]))
      ∧ s.checkAccess s.cur .read { al := opBytes ioL } (s.reqsAB s.cur ioL [0, 1]) = .ok (qsOf s .read { al := opBytes ioL } (s.reqsAB s.cur ioL [0, 1]))
      ∧ ((qsOf s .write { al := opBytes ioO } (s.reqsAB s.cur ioO [0, 1])).filter (fun q => s.appendHeld s.cur q.1.lane q.2)).map (fun q => q.1.lane)
          = if e.1 = 0x38018 then e.2 else [])
    ∧ (let io := 15 * 2 ^ 36
       let p : Nat → Piece := fun off => { pa := io + off, cls := 2, n := 8 }
       (∀ off ∈ [0x10000008, 0x20000018, 0x20000019, 0x30001000, 0xFFF], (lanesAt []).pieceIo (p off) = true)
       ∧ ioPlace (paOff (io + 0x10000008)) = .reg 0 1 0 ∧ ioPlace (paOff (io + 0x20000018)) = .port 3 0
       ∧ ioPlace (paOff (io + 0x20000019)) = .port 3 1 ∧ ioPlace (paOff (io + 0x30000000 + 71 * 2 ^ 18 + 63 * 2 ^ 12)) = .msi 71 63 0
       ∧ ioPlace (paOff (io + 0xFFF)) = .none)
    ∧ ((lanesAt []).isLocal (2 ^ 40) = false ∧ (lanesAt []).isPeer (2 ^ 40 / 128) = false) := by
  refine ⟨?_, by decide +kernel, by decide +kernel⟩
  intro e h
  simp only [List.mem_cons, List.not_mem_nil, or_false] at h
  rcases h with rfl | rfl | rfl | rfl <;>
    exact ⟨plain_of (by decide +kernel), plain_of (by decide +kernel), ok_of _ (by decide +kernel), ok_of _ (by decide +kernel), by decide +kernel⟩

/-- ScratchWrites, Atomics, Reservations: a release of which no lane, one lane, or both lanes wait for an append. -/
theorem witness_releases :
    (∀ late ∈ [[], [1], [0, 1]], let s := ioLanes 0x20000 late
      let o : Ops := { atO with form := .f96, ext := 0x10 }
      Plain s (.atom o) o [0, 1] ∧ atomRel o = some 0 ∧ [0, 1].filter (fun l => s.appendWaits (s.threadOf s.cur l)) = late)
    ∧ (let s := ioLanes 0x20000 [1]
       let o : Ops := { scO with b := 0x10 }
       Plain s (.sc o) o [0, 1] ∧ o.b.getLsbD 4 = true ∧ s.checkAccess s.cur .write atRule (s.reqsA s.cur o [0, 1] 4) = .ok (qsOf s .write atRule (s.reqsA s.cur o [0, 1] 4)))
    ∧ (let s := addrLanes 0x30000
       Plain s (.lr lrO) lrO [0, 1] ∧ s.checkAccess s.cur .read atRule (s.reqsA s.cur lrO [0, 1] 4) = .ok (qsOf s .read atRule (s.reqsA s.cur lrO [0, 1] 4))
       ∧ (qsOf s .read atRule (s.reqsA s.cur lrO [0, 1] 4)).map (fun q => q.2.any (fun p => p.cls = 3)) = [true, true])
    ∧ (let p : Piece := { pa := 0x4007C, n := 4 }
       p.cls < 2 ∧ (lanesAt []).isLocal p.pa = true ∧ p.pa / 128 < 2 ^ 45 ∧ 0 < p.n ∧ p.pa % 128 + p.n ≤ 128
       ∧ (lanesAt []).mem.l1Line 0 (p.pa / 128) = none) := by
  refine ⟨?_, ⟨plain_of (by decide +kernel), by decide +kernel, ok_of _ (by decide +kernel)⟩, ⟨plain_of (by decide +kernel), ok_of _ (by decide +kernel),
    by decide +kernel⟩, by decide +kernel⟩
  intro late h
  simp only [List.mem_cons, List.not_mem_nil, or_false] at h
  rcases h with rfl | rfl | rfl <;> exact ⟨plain_of (by decide +kernel), by decide +kernel, by decide +kernel⟩

/-- CacheOperations: a hint whose page is held, is walked, or has no leaf, and one beyond the space; a line with a dirty copy. -/
theorem witness_cacheOperations_lines :
    (addrLanes 0x20000).tlbFind 0 0 0x20000 .read = some { vpn := 4, pa := 0x40000, r := true, w := true, d := true }
    ∧ (addrLanes 0x20000).tlbFind 0 0 0x60000 .read = none ∧ (addrLanes 0x60000).prefWalks 0 0 0x60000 = false
    ∧ mapped.prefWalks 0 0 0x60000 = true ∧ badAddr (2 ^ 51) = true ∧ badAddr (2 ^ 51 - 1) = false
    ∧ (let s := { addrLanes 0 with mem := { cache := [(agKey 0 (0x40000 / 128), { st := .P, data := 5, dirty := true, poison := true })] } }
       s.isLocal (0x40000 / 128 * 128) = true ∧ s.mem.wf = true ∧ (s.mem.sideOf (0x40000 / 128)).st = .I ∧ s.agentId 0 = 0
       ∧ s.mem.cline (s.agentId 0) (0x40000 / 128) = some { st := .P, data := 5, dirty := true, poison := true }
       ∧ ∀ k, k < 8 → k ≠ 0 → s.mem.cline (s.agentId k) (0x40000 / 128) = none) := by
  decide +kernel

/-- Fences: one lane of two waits for an append; both wait for a request to another package; a pending CMAINT of lane 0. -/
theorem witness_fences_some :
    (let s := appending [1]
     Plain s (.fence { bs := 3, b := 7 }) { bs := 3, b := 7 } [0, 1]
     ∧ [0, 1].filter (fun l => s.appendWaits (s.threadOf s.cur l) || s.tlainBusy (s.threadOf s.cur l) 7) = [1])
    ∧ (let s := { lanesAt [] with out := { tlain := [{ line := 2 ^ 33, who := [{ t := 0 }, { t := 1 }] }] }
                                  eng := { maints := [{ who := { t := 0 }, line := 5 }] } }
       Plain s (.fence { bs := 3, b := 6 }) { bs := 3, b := 6 } [0, 1]
       ∧ (∀ l ∈ [0, 1], s.tlainBusy (s.threadOf s.cur l) 6 = true ∧ s.tlainBusy (s.threadOf s.cur l) 5 = false)
       ∧ ∃ m ∈ s.eng.maints, m.who = s.threadOf s.cur 0) :=
  ⟨⟨plain_of (by decide +kernel), by decide +kernel⟩, plain_of (by decide +kernel), by decide +kernel, _, List.mem_cons_self, by decide +kernel⟩

/-- A block of two groups, of which warp 0 is a member of the first; its class; and the producer code of the first. -/
def barWorld (cls code : Nat) (a : Arrive) (late : List Nat) (sync : Bool) : State :=
  let s := world .lane { warp0 [] with arr := [(0, a)], lanes := [(0, { lane0 [] with waitOnly := sync }), (1, lane0 [])] }
    { blk with img := { img with cls := cls, groups := [{ warps := 1, extras := 1 }, { warps := 2 }] }, groupMap := [0, 1] } [] []
  { s with work := { queues := [(9, { waiting := late.map (fun l => { party := some { t := l } }) })] }
           clusters := [(0, { cluster0 { warp0 [] with arr := [(0, a)], lanes := [(0, { lane0 [] with waitOnly := sync }), (1, lane0 [])] }
             { blk with img := { img with cls := cls, groups := [{ warps := 1, extras := 1 }, { warps := 2 }] }, groupMap := [0, 1] } [] [] with
             groups := [(0, { valid := true, expect_ := 2, warps := 1, spine := true, pcode := code }), (1, { valid := true, expect_ := 1, warps := 2 })] })] }
/-- The warp has been counted in the present phase. -/
def counted1 : Arrive := { counted := true }

/-- Barriers: a warp counted in this phase, with a lane of which only the wait is left and without; a wait that R26 forbids;
a group by its index of which the warp is no member; a remote arrival with an append that waits. -/
theorem witness_barriers_again :
    (∀ y ∈ [true, false], let s := barWorld 2 0 counted1 [] y
      Plain s (.barArrive (barO 0 0)) (barO 0 0) [0, 1] ∧ Plain s (.barSync (barO 2 0)) (barO 2 0) [0, 1]
      ∧ s.barIndex s.cur (barO 2 0) = some 0 ∧ s.barMember s.cur (s.barEntry s.cur 0) = true ∧ (s.arriveOf s.cur 0).dropped = false
      ∧ s.barHeld s.cur 0 = true ∧ [0, 1].filter (fun l => s.onlyWaits s.cur l) = if y then [0] else [])
    ∧ (let s := barWorld 1 1 { mask := 1 } [] false
       Plain s (.barWait (barO 1 0)) (barO 1 0) [0, 1] ∧ s.barWaits s.cur 0 = true
       ∧ [0, 1].filter (fun l => !s.waitLegal s.cur l (s.group 0 0).pcode none) = [0, 1])
    ∧ (let s := barWorld 2 0 {} [] false
       Plain s (.barArrive (barO 8 1)) (barO 8 1) [0, 1] ∧ s.barIndex s.cur (barO 8 1) = some 1 ∧ s.barMember s.cur (s.barEntry s.cur 1) = false)
    ∧ (let s := barWorld 0 0 {} [1] false
       Plain s (.barRemote (barO 12 1)) (barO 12 1) [0, 1] ∧ s.appendWaits (s.threadOf s.cur 1) = true ∧ (s.blockOf s.cur).img.cls = 0
       ∧ s.waveOf s.cur = none ∧ 0 < (s.blockOf s.cur).nx * (s.blockOf s.cur).ny * (s.blockOf s.cur).nz ∧ 1 < (s.blockOf s.cur).img.groups.length
       ∧ s.findBlock 0 0 = some (0, 0) ∧ s.findBlock 0 1 = none ∧ (s.work.launches.get 0 {}).away = false) := by
  refine ⟨?_, ⟨plain_of (by decide +kernel), by decide +kernel, by decide +kernel⟩, ⟨plain_of (by decide +kernel), by decide +kernel, by decide +kernel⟩,
    plain_of (by decide +kernel), by decide +kernel, by decide +kernel, by decide +kernel, by decide +kernel, by decide +kernel, by decide +kernel,
    by decide +kernel, by decide +kernel⟩
  intro y h
  simp only [List.mem_cons, List.not_mem_nil, or_false] at h
  rcases h with rfl | rfl <;>
    exact ⟨plain_of (by decide +kernel), plain_of (by decide +kernel), by decide +kernel, by decide +kernel, by decide +kernel, by decide +kernel,
      by decide +kernel⟩

/-- PhaseCompletes: the last live lanes of a warp of which a lane dropped, with and without the group's last arrival. -/
theorem witness_phaseCompletes_warp :
    ∀ n ∈ [0, 1], let s := (barWorld 2 0 { mask := 1, drop := true } [] false).updGroup 0 0 (fun x => { x with arrived := n })
      let m := ((s.warp 0 0).arr.get 0 {}).mask ||| lanesMask [1]
      (s.warp 0 0).liveMask &&& ~~~m = 0 ∧ m ≠ 0 ∧ (s.group 0 0).expect_ = 2 ∧ (s.group 0 0).arrived = n
      ∧ ((s.warp 0 0).arr.get 0 {}).drop = true ∧ ((s.warp 0 0).arr.get 0 {}).dropped = false := by
  decide +kernel

/-- Counters: a place that R26 lets not wait, a threshold of 64 bits, and an advance of which lane 1 must wait. -/
theorem witness_counters_stops :
    (let s := (ctrLanes 6).updBlock 0 0 (fun b => { b with img := { b.img with cls := 1 } })
     let s := s.updMem (fun m => { m with bytes := [(0x50000, 5), (0x50008, 1)] })
     Plain s (.seqwait swO) swO [0, 1] ∧ s.counterCheck s.cur swO .read [0, 1] = .ok (xsOf s swO .read [0, 1])
     ∧ ((s.seqViews (xsOf s swO .read [0, 1])).2.filter (fun v => !ctrSat v.lo 6 && !s.waitLegal s.cur v.lane v.code (some v.floor))).map SeqView.lane = [0, 1])
    ∧ (let s := counted (lanesAt [(4, 0x30000), (5, 0), (6, 0), (7, 0x80000000)])
       Plain s (.seqwait swO) swO [0, 1] ∧ [0, 1].filter (fun l => decide (2 ^ 63 ≤ (s.unsB s.cur swO l true).toNat)) = [0, 1])
    ∧ (let s := { ctrLanes 1 with work := { queues := [(9, { waiting := [{ party := some { t := 1 } }] })] } }
       Plain s (.seqadd saO) saO [0, 1] ∧ s.counterCheck s.cur saO .write [0, 1] = .ok (xsOf s saO .write [0, 1])
       ∧ [0, 1].filter (fun l => s.appendWaits (s.threadOf s.cur l)) = [1]) :=
  ⟨⟨plain_of (by decide +kernel), ok_of [] (by decide +kernel), by decide +kernel⟩, ⟨plain_of (by decide +kernel), by decide +kernel⟩,
    plain_of (by decide +kernel), ok_of [] (by decide +kernel), by decide +kernel⟩

/-- PegOperations: reads of a peg by a party that has read it, and of one with count 0, 1 and more. -/
theorem witness_pegOperations_reads :
    (∀ n ∈ [0, 1, 2, 255], ∀ b ∈ [true, false], let p : Peg := { full := true, cnt := n, seen := if b then 1 else 0, seenSpine := if b then 8 else 0 }
      p.seen.getLsbD (lanesAt []).cur.slot = b ∧ p.seenSpine.getLsbD 3 = b ∧ (lanesAt []).cur.unit = .lane ∧ (spineAt []).cur.unit = .spine)
    ∧ (let o : Ops := { ds := 3, d := 2, a := 6, cs := 1, c := 4 }
       let s := (world .lane { warp0 [] with w := [(4, 15)] } blk [] []).updPeg 0 2 (fun _ => { gather := true, armed := 0x100F })
       Plain s (.redw o) o [0, 1] ∧ (s.regOf s.cur .w 4 0 false).toNat = 15) :=
  ⟨by decide +kernel, plain_of (by decide +kernel), by decide +kernel⟩

/-- RingOperations: waits that R26 forbids, of a block of class S on an empty and on a full ring whose producers are lanes. -/
theorem witness_ringOperations_illegal :
    let s := (ringLanes 0 0 0 4).updBlock 0 0 (fun b => { b with img := { b.img with cls := 1 }, scratch := (b.scratch.put 20 1).put 21 1 })
    Plain s (.qpushRsv (rO 0)) (rO 0) [0, 1] ∧ Plain s (.qpop (rO 0)) (rO 0) [0, 1]
    ∧ s.ringOf s.cur 0 .reserve = .waits 1 ∧ s.ringOf s.cur 0 .take = .waits 1
    ∧ [0, 1].filter (fun l => !s.waitLegal s.cur l 1 none) = [0, 1] :=
  ⟨plain_of (by decide +kernel), plain_of (by decide +kernel), by decide +kernel, by decide +kernel, by decide +kernel⟩

/-- ForkAndRendezvous: one sequencer named of two; lanes with the arguments in pairs of w; a sequencer with a command under way. -/
theorem witness_forkAndRendezvous_one :
    (∀ n ∈ [1, 2], let o : Ops := { fkO with a := 8, ext := if n = 1 then 0x101 else 0x0000020F00000002 }
      Plain (world .lane { warp0 [] with w := [(4, 7)] } { blk with img := img } [] []) (.fork o) o [0, 1] ∧ o.ext.toNat % 4 = n)
    ∧ (let s := (seqAt .mseq []).updSeqr 0 false (fun q => { q with flight := 1 })
       Plain s (.rdv {}) {} [0] ∧ (s.seqr 0 false).flight ≠ 0) := by
  refine ⟨?_, plain_of (by decide +kernel), by decide +kernel⟩
  intro n h
  simp only [List.mem_cons, List.not_mem_nil, or_false] at h
  rcases h with rfl | rfl <;> exact ⟨plain_of (by decide +kernel), by decide +kernel⟩

/-- EngineCommands: a context whose command is held, with room for it and without; a ring without a slot. -/
theorem witness_engineCommands_held :
    (∀ n ∈ [15, 16], let s := (copyCtx n).updCl 0 (fun k => { k with copyHeld := [{ who := (copyCtx 0).cur, cmd := { addr := 5 } }] })
      Plain s (.tcopy (tcO 1)) (tcO 1) [0] ∧ (s.cl 0).copyQ.length = n
      ∧ (s.cl 0).copyHeld.find? (fun h => h.isOf s.cur [0]) = some { who := (copyCtx 0).cur, cmd := { addr := 5 } })
    ∧ (let r := { copyRing with allow := 0, fill := 4 }
       r.ok = true ∧ (match r.step .reserve with | .waits _ => true | _ => false) = true)
    ∧ ((mmaSeq.mmaRing mmaSeq.cur 2 1).isNone = true ∧ (mmaSeq.mmaRing mmaSeq.cur 0 99999).isNone = true)
    ∧ ¬(∀ k ∈ mmF.banks, ((({ blk with allocs := [] } : Block)).allocOf k).isSome = true) := by
  refine ⟨?_, by decide +kernel, by decide +kernel, by decide +kernel⟩
  intro n h
  simp only [List.mem_cons, List.not_mem_nil, or_false] at h
  rcases h with rfl | rfl <;> exact ⟨plain_of (by decide +kernel), by decide +kernel, by decide +kernel⟩

/-- SpawnOffers: a slot beyond 2^51 and the last one below it; a queue of commands, and a number beyond the last. -/
theorem witness_spawnOffers_stops :
    (∀ b ∈ [(2 ^ 51 - 128 : W64), 2 ^ 51], let s := (spawning 1 0).updQueue 9 (fun x => { x with base := b, log := 0 })
      Plain s (.spawn spO) spO [0, 1] ∧ (((s.queue 9).slotAddr (s.queue 9).tail).toNat < 2 ^ 51 ↔ b = 2 ^ 51 - 128))
    ∧ (let s := (spawning 1 0).updQueue 9 (fun x => { x with type := 1 }); Plain s (.spawn spO) spO [0, 1] ∧ (s.queue 9).type ≠ 2)
    ∧ ((spRec 0).1.queue 9).tail + 2 ≤ 2 ^ 56 ∧ (spRec 0).2.map (·.1) = [0, 1] ∧ (lanesAt []).cur.unit = .lane
    ∧ (∀ k ∈ [0, 1], ∀ e ∈ (spRec 0).1.slotPieces 0 9 k, ∀ p ∈ e.2.toList, p.cls = 2 ∧ (spRec 0).1.isLocal p.pa = true ∧ p.pa % 128 + p.n ≤ 128)
    ∧ (spRec 0).1.mem.txns = [] ∧ (spRec 0).1.qDesc 9 / 128 + 1 < 2 ^ 45 := by
  refine ⟨?_, ⟨plain_of (by decide +kernel), by decide +kernel⟩, by decide +kernel, by decide +kernel, by decide +kernel, by decide +kernel,
    by decide +kernel, by decide +kernel⟩
  intro b h
  simp only [List.mem_cons, List.not_mem_nil, or_false] at h
  rcases h with rfl | rfl <;> exact ⟨plain_of (by decide +kernel), by decide +kernel⟩

/-- Lanes 0 and 1 of a wave run tasks. -/
def waveLanes (late : Bool) : State :=
  let t : Nat → Task := fun k => { queue := 3, id := k }
  { lanesAt [] with
    clusters := [(0, cluster0 { lanes := [(0, { lane0 [] with task := some (t 0) }), (1, { lane0 [] with task := some (t 1) }),
        (2, { live := true, pc := 0x10040, hold := .rejoin 1 0 })], wave := some { budget := 4 }, jm := [(1, 5)], jh := [(1, 4)] } blk [] [])]
    work := { queues := [(9, { waiting := if late then [{ party := some { kind := 1, a := 3 } }] else [] })] } }

/-- Exits: lanes of a block that are the last of a mask at which lane 2 is held; lanes of tasks, with and without an append that waits. -/
theorem witness_exits_masks :
    (let s := world .lane { warp0 [] with lanes := [(0, lane0 []), (1, lane0 []), (2, { live := true, pc := 0x10040, hold := .rejoin 3 0 })]
                                          jm := [(3, 7)], jh := [(3, 4)] } blk [] []
     Plain s (.exit exO) exO [0, 1] ∧ Calm s s.cur ∧ s.waveOf s.cur = none ∧ (s.blkOf s.cur).isSome = true
     ∧ (∀ l ∈ [0, 1], (s.lane 0 0 l).live = true ∧ (s.lane 0 0 l).pc = s.cur.pc ∧ (s.lane 0 0 l).hold = .free)
     ∧ ((s.warp 0 0).lane 2).live = true ∧ ((s.warp 0 0).lane 2).hold = .rejoin 3 0 ∧ 2 ∉ s.cur.places)
    ∧ (let s := waveLanes false
       Plain s (.exit exO) exO [0, 1] ∧ Calm s s.cur ∧ (s.waveOf s.cur).isSome = true
       ∧ (∀ l ∈ [0, 1], (s.lane 0 0 l).live = true ∧ (s.lane 0 0 l).pc = s.cur.pc ∧ (s.lane 0 0 l).hold = .free)
       ∧ ∀ l ∈ [0, 1], s.tlainBusy (s.threadOf s.cur l) 7 = false ∧ s.appendWaits (s.threadOf s.cur l) = false)
    ∧ (waveLanes true).appendWaits ((waveLanes true).threadOf (waveLanes true).cur 0) = true :=
  ⟨⟨plain_of (by decide +kernel), calm_of rfl (by decide +kernel), by decide +kernel, by decide +kernel, by decide +kernel, by decide +kernel,
      by decide +kernel, by decide +kernel⟩,
    ⟨plain_of (by decide +kernel), calm_of rfl (by decide +kernel), by decide +kernel, by decide +kernel, by decide +kernel⟩, by decide +kernel⟩

/-- Doorbells: a completion queue in every state and at both ends of HEAD, a task queue at the last TAIL and beyond it, a queue
stopped for its descriptor, one not drained, an append that can be read, and a notification that is due and not yet. -/
theorem witness_doorbells_states :
    (let x := fun (st : Nat) => (doorAt { stat := st, type := 3, log := 4, head := 2, tail := 5 } 3).queue 7
     ∀ st ∈ [0, 1, 2, 3], (x st).stat = st ∧ (x st).type = 3 ∧ ((x st).cqOpen = true ↔ st = 1)
       ∧ (∀ n ∈ [2, 5], (x st).head ≤ n ∧ n ≤ (x st).tail) ∧ ∀ n ∈ [1, 6], ¬((x st).head ≤ n ∧ n ≤ (x st).tail))
    ∧ (let x := (doorAt { stat := 1, type := 2, log := 4, head := 2 ^ 56 - 1, tail := 2 ^ 56 - 1 } 2).queue 7
       ∀ n ∈ [2 ^ 56, 2 ^ 56 + 1], x.head ≤ n ∧ n ≤ x.head + 2 ^ x.log ∧ x.tail ≤ n)
    ∧ ((doorAt { cmdQ [] [] with stat := 2, errCode := 7 } 1).queue 7).errCode = 7
    ∧ (doorAt { cmdQ [] [] with stat := 3, busy := true } 1).drained 7 = false
    ∧ (let s := atQueue { stat := 1, type := 3, log := 4, unnotified := 1, oldest := 3 } 4 []
       (s.queue 7).cqOpen = true ∧ gotIs (s.rd (s.queue 7).aspace 0x40000 64 none).2 = true
       ∧ ∀ t ∈ [9, 10], let s := { s with ctl := [(0x129, 7)], ns := t }
         s.pkgReg 0x129 ≠ 0 ∧ ((s.queue 7).oldest + s.pkgReg 0x129 ≤ s.ns ↔ t = 10)) := by
  decide +kernel

/-- LaunchEvents: a class C launch behind one that has a block to place; a block for which no cluster has room, that a cluster
holds, and that none does. -/
theorem witness_launchEvents_waits :
    (let s := { hasLaunch (grid 0 2) [] [] with work := { launches := [(0, grid 0 2), (1, { grid 1 1 with admitted := true, queue := 8 })], queues := [(7, cmdQ [] []), (8, cmdQ [] [])] } }
     s.nextAdmit = some 0 ∧ s.nextDispatch = some 1 ∧ 2 ≤ s.packageHolds (imgOf 0))
    ∧ (let s := holding (List.range 63) (hasLaunch { grid 1 3 with admitted := true } [] [])
       let f := s.dropFenced 0
       s.nextDispatch = some 0 ∧ s.preferred (s.launch 0) 0 = none ∧ s.firstFit 0 [] = none ∧ s.firstFit 0 s.clustersPresent = none
       ∧ (∀ e ∈ f.clusters, e.2.reserved ≠ some 0) ∧ f.clustersPresent = [0] ∧ f.clusterHolds 0 (imgOf 1) ≠ 0
       ∧ f.clustersPresent.find? (fun k => f.fits k 0 false && (f.cl k).reserved.isNone) = none)
    ∧ (let s := hasLaunch { grid 1 3 with admitted := true, img := { imgOf 1 with spg := 99 } } [] []
       s.nextDispatch = some 0 ∧ s.firstFit 0 s.clustersPresent = none ∧ ∀ k ∈ (s.dropFenced 0).clustersPresent, (s.dropFenced 0).clusterHolds k { imgOf 1 with spg := 99 } = 0)
    ∧ (let s := (hasLaunch { grid 1 3 with admitted := true, img := { imgOf 1 with spg := 99 } } [] []).updCl 0 (fun c => { c with reserved := some 0 })
       ∃ e ∈ (s.dropFenced 0).clusters, e.2.reserved = some 0)
    ∧ ((hasLaunch (grid 0 2) [] []).pickSlots 0 (imgOf 0)).Nodup := by
  refine ⟨by decide +kernel, by decide +kernel, by decide +kernel, ⟨_, List.mem_cons_self, by decide +kernel⟩, by decide +kernel⟩

/-- TaskEvents: a cluster whose ready tasks may form no wave yet, and one that has none; a wait table's counter to poll. -/
theorem witness_taskEvents_waits :
    (show State from {}).waveTasks 0 = []
    ∧ (let s := { taskAt 1 with work := { table := [(0, [{ waits := [(64, 1)] }])] } }
       (∃ t ∈ s.work.table.get 0 [], ∃ w ∈ t.waits, w.1 = 64) ∧ s.watching 64 0 = false)
    ∧ (65 : W64).toNat ≥ 64 := by
  refine ⟨by decide +kernel, ⟨⟨_, List.mem_cons_self, _, List.mem_cons_self, rfl⟩, by decide +kernel⟩, by decide⟩

/-- PartyEvents: a cause for a context's handler; a block without a handler; poison of warp 0; a core without a warp; a context
held in a PAUSE with the switch marker. -/
theorem witness_partyEvents_causes :
    (let s := (spineAt []).updBlock 0 0 (fun b => { b with causes := [{ code := 9 }] })
     (∃ h, s.handler 0 0 = some h ∧ h.unit = .spine ∧ (s.frameOf h).busy = false ∧ (s.spine 0 h.slot).hold = .free)
     ∧ (s.block 0 0).causes = [{ code := 9 }])
    ∧ (let s : State := { clusters := [(0, { blocks := [(0, { causes := [{ code := 9 }] })] })] }
       s.handler 0 0 = none ∧ (s.block 0 0).saving = false ∧ (s.block 0 0).causes = [{ code := 9 }])
    ∧ (let s := (lanesAt []).updBlock 0 0 (fun b => { b with causes := [{ code := 14, slot := some 0 }] })
       (s.block 0 0).causes = [{ code := 14, slot := some 0 }] ∧ (s.frameOf (warpIssuer 0 0)).busy = false)
    ∧ (show State from {}).chooseWarp 0 0 = none
    ∧ (heldAt (.pause 4 true) 4).holdOf (placeOf 0 0) 0 = .pause 4 true ∧ (placeOf 0 0).unit = .lane := by
  refine ⟨⟨⟨{ unit := .spine, slot := 0 }, by decide +kernel, rfl, by decide +kernel, by decide +kernel⟩, by decide +kernel⟩, by decide +kernel,
    by decide +kernel, by decide +kernel, by decide +kernel, by decide⟩

/-- WalkEvents: the last walk that has a walker and the first that has none. -/
theorem witness_walkEvents_walkers :
    (let w : Walk := { va := 0x40000 }
     let s : State := { xl := { walks := List.replicate 65 w } }
     s.inWalker 63 w = true ∧ s.inWalker 64 w = false ∧ s.xl.walks[64]? = some w) := by
  decide +kernel

/-- TranslationCommands: fields of MOVE_PAGE at their bounds, a page without a leaf, a leaf that cannot be moved; a window that
has lasted, and one that has not. -/
theorem witness_translationCommands_moves :
    (let x := xlFields (BitVec.ofNat 256 (0x40000 * 2 ^ 64 + 0x50000 * 2 ^ 192))
     x.flags ≤ 1 ∧ x.npages = 0 ∧ x.va.toNat = 0x40000 ∧ x.inc = 0x50000 ∧ badFrame x.inc = false ∧ leafWorld.ctrPa x.ctr = true)
    ∧ badFrame (13 * 2 ^ 36) = true ∧ badFrame (11 * 2 ^ 36) = false ∧ badFrame (15 * 2 ^ 36) = false
    ∧ (leafWorld.leafOf 0 0x400000).2 = none ∧ leafWorld.leafBad 0 (movedLeaf 0x40467 0x50000) = false
    ∧ (let s := { leafWorld with clk := [(0, 9)], ctl := (0x118, 4) :: leafWorld.ctl, xl := { leafWorld.xl with migSince := [(0, 5), (1, 6)] } }
       s.xl.migSince.get 0 0 + s.pkgReg 0x118 ≤ s.cycles s.lowestDie ∧ s.cycles s.lowestDie < s.xl.migSince.get 1 0 + s.pkgReg 0x118) := by
  decide +kernel

/-- PreemptionCommands: a block whose save is under way; a launch of class C that is away, restored whole; the last cluster as
a TARGET and the first number that is none. -/
theorem witness_preemptionCommands_whole :
    (let s := { pmWorld true 1 with boot := { stat := 4 } }
     s.up = true ∧ (s.cl 0).blocks.has 0 = true ∧ s.savingOf (s.block 0 0).lnum (s.block 0 0).blk = true
     ∧ s.blkOf { unit := .lane } = some 0)
    ∧ (let imgC : Image := { cls := 0, warpEnt := 0x90 }
       let s := { pmWorld false 1 with
         work := { launches := [(0, { queue := 7, img := imgC, nx := 1, ny := 1, nz := 1, admitted := true, next := 1, away := true, areas := [(0, 0x40000)] })] }
         eng := { saved := [(1, { blk := { img := imgC } })] } }
       let x := { pmFields (pmCmd 0x40000) with flags := 1 }
       x.whole = true ∧ s.pmBad x = false ∧ (s.rootOf x.aspace).2 ≠ none
       ∧ (match (s.restoreLaunch x).2 with | .ok _ sv => decide (sv.blk.lnum = 0) | _ => false) = true
       ∧ ((s.restoreLaunch x).1.launch 0).img.cls = 0
       ∧ (match ((s.restoreLaunch x).1.readAreas x 0 [0]).2 with | .ok es => decide (es.length = 1) | .error _ => false) = true)
    ∧ ((pmWorld false 1).clPresent 0 = true ∧ (159 : Nat) < 160)
    ∧ (show State from { eng := { save := some { blks := [0] } }, clusters := [(0, { blocks := [(0, {})] })] }).saveReady 0 0 = false := by
  decide +kernel

/-- EngineCompletions: an empty queue of each engine; a step of two participants of which one has issued; a step not yet late. -/
theorem witness_engineCompletions_waits :
    ((show State from {}).cl 0).copyQ = [] ∧ ((show State from {}).cl 0).matQ = []
    ∧ (let q : Coll := { npart := 2, peers := [0, 0] }
       let s : State := { eng := { colls := [(0, q)] }, ctl := [(0x115, 1)] }
       s.eng.colls.find? 0 = some q ∧ s.collLocals q = none ∧ s.cycles 0 < q.start + s.pkgReg 0x115) := by
  decide +kernel

/-- CoherenceMessages: a line of another package; a line that agent 0 does not hold; one that its write-back buffer holds. -/
theorem witness_coherenceMessages_elsewhere :
    (show State from {}).isLocal (2 ^ 33 * 128) = false
    ∧ (let s : State := { mem := { msgs := [{ kind := .cln, line := 2 ^ 33, slot := 0, toHome := true }] } }
       takeMsg (fun m => m.kind = .cln && m.line = 2 ^ 33 && m.slot = 0) s.mem.msgs = some ({ kind := .cln, line := 2 ^ 33, toHome := true }, []))
    ∧ (show State from {}).mem.cline 0 5 = none
    ∧ (let c : CLine := { st := .M, data := 7, dirty := true, poison := true }
       (show State from { mem := { wb := [(agKey 0 5, c)] } }).mem.wb.find? (agKey 0 5) = some c) := by
  decide +kernel

/-- PackageEvents: a second error within the window's last second and one after it, a first error; a cluster with a block and
without; a way. -/
theorem witness_packageEvents_kinds :
    (∀ t ∈ [10 ^ 9, 10 ^ 9 + 1], let s := { pkgWorld with ns := t }
      s.out.errs.find? (rasPlain 1).toNat = some [0, 5] ∧ (s.ns ≤ 0 + s.pkgReg 0x11D * 10 ^ 9 ↔ t = 10 ^ 9))
    ∧ (show State from { out := { errs := [(1, [4])] } }).out.errs.find? 1 = some [4]
    ∧ rasKind 1 = 1 ∧ rasNum 1 = 0 ∧ rasNames 1 = true
    ∧ (∀ b ∈ [true, false], let s := { pkgWorld with ctl := (0x12C, 1) :: pkgWorld.ctl, clusters := if b then [(0, { blocks := [(0, {})] })] else [] }
        s.fenced 1 = false ∧ ((s.cl 0).blocks = [] ↔ b = false))
    ∧ rasKind 0x16 = 6 ∧ rasNames 0x16 = true ∧ rasNames 0x8000000000000000 = false
    ∧ pkgWorld.pkgReg 0x137 = 3 ∧ (3 : Nat) ≠ 0xFFF := by
  decide +kernel

/-- OutsideRequests: the links of a port that is split, a port that is absent, a request that has waited and one that has not. -/
theorem witness_outsideRequests_links :
    (let s := { pkgWorld with out := { split := [(0, 4)] } }
     s.portPresent 0 = true ∧ 3 < s.splitOf 0 ∧ ¬4 < s.splitOf 0)
    ∧ (show State from {}).portPresent 7 = false
    ∧ (∀ t ∈ [6, 7], let s : State := { ns := t, ctl := [(0x13A, 4)], out := { tlain := [{ line := 2 ^ 33, since := 3 }] } }
        s.out.tlain[0]? = some { line := 2 ^ 33, since := 3 } ∧ (3 + s.pkgReg 0x13A ≤ s.ns ↔ t = 7)) := by
  decide +kernel

/-- StepRunsDecoded: a pad run up to a granule boundary, with an operation beyond it. -/
theorem witness_stepRunsDecoded_pad :
    (let s := atWords 0x10080 (List.replicate 8 0xFFFFFFFC ++ wordsOfNat [0x0003000A02032001])
     foundAt s = .pad 32
     ∧ (let u := { s.tick with ports := [] }
        u.tlbFind 0 0 0x100A0 .fetch = some { vpn := 2, pa := 0x20000, r := true, x := true }
        ∧ decode .lane (u.granule { unit := .lane, group := 3, pc := 0x100A0 } (0x20000 + 0xA0)) = .one (.iadd { bs := 3, b := 10, a := 2, d := 3 }) 8)) := by
  decide +kernel

/-! States for the requests that stand at another package, and for the values that the engines compute. -/

/-- A request of a thread to package 1 that has no answer. -/
def asked (t : Thread) (s : State) : State := { s with out := { s.out with tlain := [{ line := 2 ^ 33, write := true, who := [t] }] } }

/-- Loads, Stores: the hint .STRM and another, and a line that a load has brought in. -/
theorem witness_loads_hinted :
    (∀ b ∈ [0, 1], let o : Ops := { ioO with m := BitVec.ofNat 9 (0x50 + 0x80 * b) }; o.sub / 8 = b)
    ∧ (addrLanes 0x20000).mem.l1Line 0 (0x40000 / 128) = none
    ∧ ((addrLanes 0x20000).updMem (fun m => { m with l1 := [(0x40000 / 128, {})] })).mem.l1Line 0 (0x40000 / 128) = some {} := by
  decide +kernel

/-- Atomics, Reservations, Counters, SpawnOffers: lane 0 or no lane has a request to another package that stands. -/
theorem witness_releases_asked :
    (∀ t ∈ [0, 9], let s := asked ((addrLanes 0x20000).threadOf (addrLanes 0x20000).cur t) (addrLanes 0x20000)
      Plain s (.atom { atO with form := .f96, ext := 0x17 }) { atO with form := .f96, ext := 0x17 } [0, 1]
      ∧ atomRel { atO with form := .f96, ext := 0x17 } = some 7
      ∧ [0, 1].filter (fun l => s.appendWaits (s.threadOf s.cur l) || s.tlainBusy (s.threadOf s.cur l) 7) = (if t = 0 then [0] else []))
    ∧ (∀ t ∈ [0, 9], let s := asked ((spRec 0).1.threadOf (spawning 1 0).cur t) (spRec 0).1
      ([0, 1].any (fun l => s.appendWaits (s.threadOf (spawning 1 0).cur l) || s.tlainBusy (s.threadOf (spawning 1 0).cur l) 7)) = decide (t = 0)) := by
  refine ⟨fun t h => ?_, by decide +kernel⟩
  simp only [List.mem_cons, List.not_mem_nil, or_false] at h
  rcases h with rfl | rfl <;> exact ⟨plain_of (by decide +kernel), by decide +kernel, by decide +kernel⟩

/-- The package is member 0 of an island of two, and page 0x28000 is package 1's, shared. -/
def islandLanes : State :=
  { addrLanes 0x28000 with
    ctl := [(0x102, 0x80018000)]
    xl := { ctlb := [(0, [{ vpn := 5, pa := 2 ^ 40 + 0x48000, cls := 2, r := true, w := true, d := true }])] } }

/-- CacheOperations: a hint that names a shared line of another package of the island. -/
theorem witness_cacheOperations_peer :
    islandLanes.tlbFind 0 0 0x28000 .read = some { vpn := 5, pa := 2 ^ 40 + 0x48000, cls := 2, r := true, w := true, d := true }
    ∧ islandLanes.isLocal (2 ^ 40 + 0x48000) = false ∧ islandLanes.isPeer ((2 ^ 40 + 0x48000) / 128) = true
    ∧ isIo (2 ^ 40 + 0x48000) = false ∧ badAddr 0x28000 = false := by
  decide +kernel

/-- CommandsMove, PlainCommands: a command under way in a draining queue; a FENCE of a queue with and without a request that
stands; WRITEs to stack 15 and to another package. -/
theorem witness_plainCommands_late :
    (∀ t ∈ [7, 8], let s := asked (queueThread t) (atQueue { cmdQ [] [] with fence := true, fenceAll := true } 4 [])
      TakesCmd s 0x10D 1 1 0 ∧ (s.tlainBusy (queueThread 7) 7 = true ↔ t = 7) ∧ s.appendWaits (queueThread 7) = false
      ∧ (s.queue 7).fence = true ∧ (s.queue 7).launches = [])
    ∧ (∀ pa ∈ [2 ^ 40 + 0x40000, 15 * 2 ^ 36 + 0x10000008], let s := { cmdAt [] with xl := { dtlb := [(8, [{ vpn := 8, pa := pa, cls := 2, r := true, w := true, d := true }])] } }
      (s.isLocal pa = true ↔ pa = 15 * 2 ^ 36 + 0x10000008) ∧ (isIo pa = true ↔ pa = 15 * 2 ^ 36 + 0x10000008)) := by
  refine ⟨fun t h => ?_, by decide +kernel⟩
  simp only [List.mem_cons, List.not_mem_nil, or_false] at h
  rcases h with rfl | rfl <;>
    exact ⟨takes_of (by decide +kernel) (by decide +kernel), by decide +kernel, by decide +kernel, by decide +kernel, by decide +kernel⟩

/-- LaunchEvents: an empty grid behind a launch that waits, and before it. -/
theorem witness_launchEvents_empty :
    (let s := { hasLaunch (grid 0 99) [] [] with work := { launches := [(0, grid 0 99), (1, grid 1 0)], queues := [(7, cmdQ [] [])] } }
     s.nextAdmit = some 1 ∧ (s.launch 1).blocks = 0 ∧ (s.launch 0).admitted = false) := by
  decide +kernel

/-- TaskEvents: a counter that a die last read CTL_SEQPOLL cycles ago, and one cycle less. -/
theorem witness_taskEvents_polls :
    ∀ t ∈ [12, 13], let s : State := { ctl := [(0x114, 8)], clk := [(2, t)], xl := { waiters := [{ pa := 64, die := 2 }], polls := [(pollKey 64 2, 5)] } }
      (s.xl.polls.get (pollKey 64 2) 0 + s.pkgReg 0x114 ≤ s.cycles 2 ↔ t = 13) ∧ s.watching 64 2 = false
      ∧ s.xl.waiters = [{ pa := 64, die := 2 }] := by
  decide +kernel

/-- A space whose one entry for page 0 is a word, in a table of level 0. -/
def entryWorld (e : Nat) : State := { mem := { bytes := (bytesAt 0x10000 (leBytes 8 e)).filter (fun x => x.2 ≠ 0) } }

/-- WalkEvents: each kind of entry. An invalid one, a pointer, leaves (with no right, of MIG, of another cluster, too long), and
lazy ones. -/
theorem witness_walkEvents_entries :
    (∀ e ∈ [0, 0x20001, 0x20003, 0x2000F, 0x22467, 0x21467, 0x0067, 0x100067, 0x20407, 0x8E, 0x100008E, 0x28E, 0x80E],
      ((entryWorld e).walkEntry (some 0) 0 0 0 0x10000).2 = BitVec.ofNat 64 e)
    ∧ (entryWorld 0).rootOf 65536 = (entryWorld 0, none) ∧ ((entryWorld 0x67).walkEntry (some 0) 0 0 0 0x10000).1.mem.bytes ≠ [] := by
  decide +kernel

/-- TranslationCommands: an invalidation under way with no access to wait for; with an append, a request and a counter of its space. -/
theorem witness_translationCommands_late :
    (let v : Inval := { inc := 1 }
     let s : State := { xl := { invals := [v] } }
     s.invalLate v 0 = false
     ∧ ({ s with work := { queues := [(9, { waiting := [{ party := some { kind := 1, a := 3 } }] })] } } : State).invalLate v 0 = true
     ∧ (asked { kind := 1, a := 3 } s).invalLate v 0 = true
     ∧ ({ s with eng := { sills := [(0, { ctr := 64, ctrVa := 64 })] } } : State).holdsCtr v 0 = true) := by
  decide +kernel

/-- A copy of FORMAT to FORMAT of one row of n elements from 0x40000, with FLAGS and SSCALE. -/
def descOf (dir sf df flags n sscale : Nat) : List Byte :=
  leBytes 8 (if dir = 1 then 0 else 0x40000) ++ leBytes 8 (if dir = 0 then 0 else 0x50000) ++ leBytes 8 sscale ++ leBytes 8 0x60000 ++ leBytes 16 (2 ^ 64)
    ++ [BitVec.ofNat 8 dir, BitVec.ofNat 8 sf, BitVec.ofNat 8 df, 1, BitVec.ofNat 8 flags, 7] ++ leBytes 10 0 ++ leBytes 12 n ++ leBytes 180 0
def copyWorld (leaf : Byte) (d : List Byte) (chunk : Nat) : State :=
  { clusters := [(0, { blocks := [(0, { clean := [0] })], copyQ := [{ desc := d, begun := true, chunk := chunk, targets := [(0, 0, 0)] }] })]
    mem := { bytes := [(0, 1), (1, 0x80), (0x8000, leaf), (0x8001, 4)] } }

/-- EngineCompletions: a copy whose chunk is moved, one whose source has no page, and one with REL and a write that stands. -/
theorem witness_engineCompletions_chunks :
    (let s := copyWorld 0x67 (descOf 0 15 15 0 4 0) 0
     let d := parseDesc (descOf 0 15 15 0 4 0)
     d.chunks = 1 ∧ d.canon = false ∧ gotIs (s.sideBits 0 (.mem 0 0x40000 false) 0 32).2 = true
     ∧ gotIs (s.plainChunk 0 0 d (srcSide d 0 0 0 0) 0 0).2 = true
     ∧ gotIs ((s.plainChunk 0 0 d (srcSide d 0 0 0 0) 0 0).1.putAll 0 true [(0, 32, 0)] [.pad 0 0 0]).2 = true)
    ∧ (let d := parseDesc (descOf 0 15 15 0 4 0)
       gotIs ((copyWorld 0 (descOf 0 15 15 0 4 0) 0).plainChunk 0 0 d (srcSide d 0 0 0 0) 0 0).2 = false)
    ∧ (∀ b ∈ [true, false], let s := { copyWorld 0x67 (descOf 2 15 15 2 4 0) 1 with out := { posted := if b then [(0, 1, 0)] else [] } }
       ((s.cl 0).copyQ.all (fun q => s.copyLate 0 q = b && (parseDesc q.desc).chunks = 1)) = true)
    ∧ (∀ f ∈ [0, 1, 7, 12], let d := parseDesc (descOf 2 6 f 0 32 0)
       d.sfmt = 6 ∧ d.dfmt = f ∧ gotIs ((copyWorld 0x67 [] 0).sideBits 0 (.mem 0 0x40000 false) 0 1024).2 = true
       ∧ gotIs ((copyWorld 0x67 [] 0).readMem 0 0 0x60000 1 true).2 = true) := by
  decide +kernel

/-- EngineCompletions: a canonical K-row of each kind of source: MX, Q16N, and one with and without a scale array. -/
theorem witness_engineCompletions_canonical :
    (∀ e ∈ [(7, 2, 64, 0), (13, 4, 1024, 0), (2, 2, 64, 0), (2, 2, 64, 0x50000)],
      let d := parseDesc (descOf 0 e.1 e.2.1 4 e.2.2.1 e.2.2.2)
      let s := copyWorld 0x67 [] 0
      let r := s.readCodes 0 (.mem 0 0x40000 (isMx d.sfmt)) d.sfmt (if e.1 = 13 then 256 else 0) (krowLen d.dfmt)
      d.sfmt = e.1 ∧ d.sscale = e.2.2.2 ∧ d.canon = true ∧ gotIs r.2 = true ∧ gotIs (r.1.canonScales 0 0 d 0 0 d.gs).2 = true
        ∧ gotIs (s.canonScales 0 0 d 0 0 1).2 = true ∧ d.gs = 2)
    ∧ (List.replicate 128 0).length = krowLen 5 ∧ (List.replicate 32 0).length = krowLen 0 := by
  decide +kernel

/-- EngineCompletions: an MMA in each mode; a sill command and a collective step whose writes stand; a step with residuals. -/
theorem witness_engineCompletions_values :
    (∀ e ∈ [(0, false), (4 * 2 ^ 26 + 4 * 2 ^ 30, true), (5 * 2 ^ 26 + 5 * 2 ^ 30 + 2 ^ 35, false)], let x := mmaForm (BitVec.ofNat 64 e.1)
      x.ta ≤ 5 ∧ x.tb ≤ 5 ∧ (e.2 = true → x.ta = 4 ∧ x.tb = 4 ∧ x.cplx = false) ∧ 0 < x.m ∧ 0 < x.n)
    ∧ (∀ b ∈ [true, false], let s : State := { eng := { sills := [(0, {})], colls := [(0, { written := b })] }, out := { posted := if b then [(0, 1, 0)] else [] } }
       s.sillLate 0 = b ∧ s.collQuiet { written := b } = !b ∧ s.eng.colls.find? 0 = some { written := b })
    ∧ (let q : Coll := { src := 0x40000, resid := 0x50000, len := 8, npart := 2, peers := [0, 0], wire := 3 }
       let s := copyWorld 0x67 [] 0
       gotIs (s.rd 0 q.src q.inLen (some 0)).2 = true ∧ gotIs ((s.rd 0 q.src q.inLen (some 0)).1.rd 0 q.resid q.inLen (some 0)).2 = true)
    ∧ (∀ x ∈ [0x7F800001, 0x7F800000, 0x3F800000, 0x00000001, 0x7F80], let z := bf16.unpack (x % 65536)
       z.isFin = true ∨ z.isNan = true ∨ z = .inf false) := by
  decide +kernel

/-- PackageEvents: a Tlain port with a request that stands, and without. -/
theorem witness_packageEvents_port :
    rasKind 0x14 = 4 ∧ rasNum 0x14 = 1 ∧ rasNames 0x14 = true
    ∧ ∀ p ∈ [0, 1], let s : State := { ctl := [(0x12B, 0xFF0000000)], out := { tlain := [{ port := p }] } }
      s.fenced 0x14 = false ∧ ((∃ q ∈ s.out.tlain, q.port = rasNum 0x14) ↔ p = 1) := by
  decide +kernel

/-! ### One step of some operations: the values of the spec's own examples and tables -/

/-- The state after an operation. -/
def after (i : Instr) (s : State) : State := match exec i s with | .next t => t | _ => {}
/-- A v register of a lane of warp 0, an s register of context 0, and the pending writes of warp 0. -/
def vOf (t : State) (l r : Nat) : W32 := (t.lane 0 0 l).v.get r 0
def sOf (t : State) (r : Nat) : W64 := (t.spine 0 0).s.get r 0
def pendOf (t : State) : List (Nat × Nat × W64) := (t.warp 0 0).pend.flatMap (fun p => p.writes.map (fun w => (w.lane, w.idx, w.val)))

/-- R145, R149: a sum wraps; the high half of a signed product is added. -/
theorem test_iadd_imad :
    vOf (after (.iadd { bs := 3, b := 10, a := 2, d := 3 }) (lanesAt [(2, 0xFFFFFFFF)])) 1 3 = 9
    ∧ ((after (.iadd { bs := 3, b := 10, a := 2, d := 3 }) (lanesAt [])).lane 0 0 0).pc = 0x10088
    ∧ vOf (after (.imad { m := 0x11, d := 3, a := 4, b := 5, c := 6 }) (lanesAt [(4, 0xFFFFFFFF), (5, 2), (6, 7)])) 0 3 = 6 := by
  decide +kernel

def idivOf (m : BitVec 9) (a b : W64) : W32 × W32 :=
  let t := after (.idiv { m := m, d := 6, a := 2, b := 4 }) (spineAt [(2, a), (4, b)])
  (lo32 (sOf t 6), lo32 (sOf t 7))

/-- R148: the table of quotients and remainders of IDIV.QR. -/
theorem test_idiv :
    idivOf 0x21 7 0xFFFFFFFE = (0xFFFFFFFD, 1) ∧ idivOf 0x21 0xFFFFFFF9 2 = (0xFFFFFFFD, 0xFFFFFFFF)
    ∧ idivOf 0x21 0x80000000 0xFFFFFFFF = (0x80000000, 0) ∧ idivOf 0x21 0xFFFFFFFB 0 = (0xFFFFFFFF, 0xFFFFFFFB)
    ∧ idivOf 0x20 17 5 = (3, 2) ∧ idivOf 0x20 7 0 = (0xFFFFFFFF, 7) := by
  decide +kernel

def boolOf (m : BitVec 9) : W32 := vOf (after (.bool3 { m := m, d := 1, a := 2, b := 3, c := 4 }) (lanesAt [(2, 0xF0), (3, 0xCC), (4, 0xAA)])) 0 1
def bfeOf (m : BitVec 9) (b : W32) : W32 := vOf (after (.bfe { m := m, d := 1, a := 2, b := 3 }) (lanesAt [(2, 0x800000F0), (3, b)])) 0 1

/-- R152, R157: the tables of BOOL3 and BFE. -/
theorem test_bool3_bfe :
    (decode .lane (wordsOfNat [0x7400040302013001]) = .one (.bool3 { m := 0x1D0, d := 1, a := 2, b := 3, c := 4 }) 8)
    ∧ boolOf 0x1D0 = 0xE8
    ∧ bfeOf 0 0x404 = 0xF ∧ bfeOf 1 0x404 = 0xFFFFFFFF ∧ bfeOf 0 0x81C = 8 ∧ bfeOf 1 0x81C = 0xFFFFFFF8
    ∧ bfeOf 0 0x428 = 0 ∧ bfeOf 1 0x428 = 0xFFFFFFFF ∧ bfeOf 0 0 = 0 ∧ bfeOf 1 0x2800 = 0x800000F0 := by
  decide +kernel

def byselOf (c : W32) : W32 := vOf (after (.bysel { d := 1, a := 2, b := 3, c := 4 }) (lanesAt [(2, 0x44332211), (3, 0x88776655), (4, c)])) 0 1

/-- R163, R164: the examples of BYSEL and TLUT. -/
theorem test_bysel_tlut :
    byselOf 0x0688 = 0x44332211 ∧ byselOf 0x0FAC = 0x88776655 ∧ byselOf 0x50E7 = 0x110055FF
    ∧ vOf (after (.tlut { m := 0x77, d := 1, a := 4, b := 8, c := 1 })
        (lanesAt [(4, 0x03020100), (5, 0x07060504), (6, 0x0B0A0908), (7, 0x0F0E0D0C), (8, 0x1F030A10)])) 0 1 = 0x77030A77 := by
  decide +kernel

/-- Lanes 0 to 3 of eight issue, with v5 = 10 × lane. -/
def fourOf : State :=
  let w : Warp := { blk := some 0, lanes := (List.range 8).map (fun l => (l, lane0 [(5, BitVec.ofNat 32 (10 * l))])) }
  { world .lane w blk [] [] with cur := { unit := .lane, group := 0xF, pc := 0x10080, len := 8 } }

/-- R165, R166: the exchange in a divergent warp. -/
theorem test_exchange :
    (List.range 4).map (fun l => vOf (after (.xlane { m := 0x30, bs := 3, cs := 3, d := 6, a := 5, b := 1, c := 5 }) fourOf) l 6) = [10, 0, 30, 20]
    ∧ (List.range 4).map (fun l => vOf (after (.xlane { m := 0x30, bs := 3, cs := 3, d := 7, a := 5, b := 4, c := 5 }) fourOf) l 7) = [0, 10, 20, 30]
    ∧ (List.range 4).map (fun l => vOf (after (.xlane { m := 0x20, bs := 3, cs := 3, d := 8, a := 5, b := 2, c := 2 }) fourOf) l 8) = [20, 30, 20, 30]
    ∧ (List.range 4).map (fun l => vOf (after (.rdlane { bs := 3, d := 9, a := 5, b := 6 }) fourOf) l 9) = [0, 0, 0, 0] := by
  decide +kernel

def cvqLanes : State :=
  world .lane { warp0 [(8, 0x3F800000), (9, 0x43960000), (10, 0xBAA00000), (11, 0x447A0000), (20, 0x00205F00)] with w := [(4, 0x3F000000)] } blk [] []
def cvqOf (ws : List Nat) : W32 × BitVec 7 :=
  match decode .lane (wordsOfNat ws) with
  | .one i _ =>
    let t := after i cvqLanes
    (vOf t 0 (match i.ops with | some o => o.d.toNat | none => 0), (t.block 0 0).fpflags)
  | _ => (0, 0)

/-- R183: the example of CVQ: nearest, stochastic and without saturation, with their flags. -/
theorem test_cvq :
    cvqOf [0x00010004080C8801] = (0x7E807130, 0x27) ∧ cvqOf [0x40011404080D8801] = (0x7E807230, 0x27)
    ∧ cvqOf [0x08010004080E8801] = (0x7F807130, 7) := by
  decide +kernel

/-- R186: the example of SAMPLE: eight lanes with weights, and two values of B. -/
def sampleAt (b : W32) : State :=
  let ws : List W32 := [0x3F000000, 0, 0x3F800000, 0xBF800000, 0x3E800000, 0x3F000000, 0x7FC00000, 0x3F400000]
  let w : Warp := { blk := some 0, w := [(5, b)], lanes := ws.zipIdx.map (fun e => (e.2, lane0 [(3, e.1)])) }
  { world .lane w blk [] [] with cur := { unit := .lane, group := 0xFF, pc := 0x10080, len := 8 } }

theorem test_sample :
    (pendOf (after (.sample { bs := 1, d := 6, a := 3, b := 5, c := 2 }) (sampleAt 0x80000000))).filter (fun e => e.1 = 3) = [(3, 6, 4), (3, 2, 1)]
    ∧ (pendOf (after (.sample { bs := 1, d := 6, a := 3, b := 5, c := 2 }) (sampleAt 0xFF))).filter (fun e => e.1 = 7) = [(7, 6, 0), (7, 2, 1)] := by
  decide +kernel

/-- R190: the published vector of Philox-4x32-10 for a zero counter and key. -/
theorem test_rng :
    (let t := after (.rng { d := 8, a := 8, b := 12 }) (spineAt [])
     [sOf t 8, sOf t 9, sOf t 10, sOf t 11] = [0x6627E8D5, 0xE169C58D, 0xBC57AC4C, 0x9B00DBD8]) := by
  decide +kernel

def fOf (i : Instr) (a b : W32) : W64 × BitVec 7 :=
  let t := after i (spineAt [(2, a.setWidth 64), (3, b.setWidth 64)])
  (sOf t 4, (t.block 0 0).fpflags)

/-- R122, R132, R169, R173: a tie to even raises NX; x − x is −0 downward; division by zero raises DZ, 0 / 0 raises NV, and
the root of a value below zero is NaN. -/
theorem test_floats :
    fOf (.fadd { m := 4, d := 4, a := 2, b := 3 }) 0x3F800000 0x33800000 = (0x3F800000, 1)
    ∧ fOf (.fadd { m := 0x34, d := 4, a := 2, b := 3 }) 0x3F800000 0xBF800000 = (0x80000000, 0)
    ∧ (fOf (.fdiv { m := 4, d := 4, a := 2, b := 3 }) 0x3F800000 0x80000000).1 = 0xFF800000
    ∧ (fOf (.fdiv { m := 4, d := 4, a := 2, b := 3 }) 0 0).1 = 0x7FC00000
    ∧ (fOf (.fsqrt { m := 4, d := 4, a := 2 }) 0xC0800000 0).1 = 0x7FC00000
    ∧ fOf (.fsqrt { m := 4, d := 4, a := 2 }) 0x40800000 0 = (0x40000000, 0) := by
  decide +kernel

/-- R197, R198: LD is pending until a switch point; ST writes the low bytes, lowest first; an address beyond 2^51 traps. -/
theorem test_ld_st :
    (let s := { addrLanes 0x20000 with mem := { bytes := [(0x40010, 4), (0x40011, 3)] } }
     pendOf (after (.ld { m := 0x40, bs := 3, d := 6, a := 4, b := 16 }) s) = [(0, 6, 0x304), (1, 6, 0x304)])
    ∧ (let t := after (.st { m := 0x40, bs := 3, a := 4, c := 8 }) (lanesAt [(4, 0x20000), (5, 0), (8, 0x01020304)])
       (t.loadLine 0 0 (0x40000 / 128) 0xF false).2.1 = 0x01020304)
    ∧ (let t := after (.ld { m := 0x40, bs := 3, d := 6, a := 4, b := 16 }) (lanesAt [(4, 0x20000), (5, 0x80000)])
       (t.warp 0 0).frame.busy = true ∧ (t.warp 0 0).frame.cause = 9 ∧ (t.warp 0 0).frame.addr = 0x8000000020010) := by
  decide +kernel

/-- R41: a counter advances, keeps poison, and saturates at 2^63 − 1. -/
theorem test_counter :
    ((ctrAt 5 0x80).ctrAdvance 0x40000 3 false).mem.peekN 0x40000 8 = 0x8000000000000008
    ∧ ((ctrAt 5 0).ctrAdvance 0x40000 (2 ^ 63 - 1) false).mem.peekN 0x40000 16 = 0x107FFFFFFFFFFFFFFF := by
  decide +kernel

/-- R34: ADDSEQ, and an IF that does not hold. -/
theorem test_commands :
    (after (.cAddseq 0x304 [0x40000, 7]) (ctrAt 5 0)).mem.peekN 0x40000 8 = 12
    ∧ ((after (.cIf 0x30A [0x8000, 1]) (cmdAt [])).queue 7).nest = [.skipIf 0] := by
  decide +kernel

/-- R293, R296, R299: TRAP saves the PCs, the lanes and the cause, and enters the handler; ERET goes to the saved PC. -/
theorem test_trap_eret :
    (let t := after (.trap { bs := 3, b := 5 }) (lanesAt [])
     let f := (t.warp 0 0).frame
     f.busy = true ∧ f.issue = 3 ∧ f.cmask = 3 ∧ f.pc = 0x10080 ∧ (t.lane 0 0 1).pc = 0x10200 ∧ (t.lane 0 0 1).trap = true
     ∧ (let u := after (.eret {}) { t with cur := { t.cur with pc := 0x10200 } }
        (u.lane 0 0 1).pc = f.rpc ∧ (u.lane 0 0 1).trap = false ∧ (u.warp 0 0).frame.busy = false)) := by
  decide +kernel

/-- R85: the word of the example of FORK. -/
theorem test_decode_fork :
    decode .spine (wordsOfNat [0x000000000400E003, 0x0000004800000403]) = .one (.fork { form := .f128, a := 4, ext := 0x0000004800000403 }) 16 := by
  decide +kernel

end Sys2Proof.Tests
end

section
/-! PROOF. Results of fixed latency: what an operation that only computes does when its result is visible at once. -/

namespace Sys2Proof.Machine

variable {s u v : State} {c : Issuer} {i : Instr} {o : Ops} {f : Alu} {ls : List Nat} {pv : PegVals}

/-! ### The result at issue (R97, R137) -/

/-- The party's state once a result is visible: its writes made in order, its flags in the word of its block or wave. -/
def State.commitResult (s : State) (c : Issuer) (r : Res) : State := (s.writeAll c r.1).orFlags c (allFlags r.2)

/-- A result is visible at once outside lane code, and in lane code when its latency is fixed. -/
theorem State.giveResult_now (r : Res) (h : varLat i (uses c.code i) = false ∨ c.unit ≠ .lane) :
    s.giveResult i c o ls r = s.commitResult c r := by
  unfold State.giveResult
  rw [if_neg]
  · rfl
  · rcases h with h | h <;> simp [h]

theorem untouched_commitResult {r : Res} (hr : ∀ x ∈ r.1, x.fits c) : Untouched s (s.commitResult c r) c :=
  (untouched_writeAll r.1 hr).trans (untouched_orFlags _)

theorem reads_commitResult {r : Res} (hr : ∀ x ∈ r.1, x.fits c) {x : RFile} {k : Nat} (hk : hasReg c x k) (l : Nat) :
    (s.commitResult c r).reads c x k l = afterWrites r.1 c x k l (s.reads c x k l) := by
  unfold State.commitResult
  rw [(sameParty_orFlags _).reads, reads_writeAll r.1 hr x k l hk]

theorem stand_commitResult {r : Res} (hr : ∀ x ∈ r.1, x.fits c) (l : Nat) :
    (s.commitResult c r).pcOf c l = s.pcOf c l ∧ (s.commitResult c r).holdOf c l = s.holdOf c l
      ∧ (s.commitResult c r).stands c l = s.stands c l := by
  have same := sameParty_orFlags (s := s.writeAll c r.1) (c := c) (allFlags r.2)
  unfold State.commitResult
  rw [same.pc, same.hold, same.stands]
  exact sameStand_writeAll r.1 hr l

theorem fpflags_commitResult (h : Housed s c) (r : Res) :
    (s.commitResult c r).fpflags c = s.fpflags c ||| allFlags r.2 := by
  have house := house_writeAll (s := s) (c := c) r.1
  unfold State.commitResult
  rw [fpflags_orFlags (house.housed.mpr h), house.fpflags]

theorem pend_commitResult (r : Res) : ((s.commitResult c r).warp c.g c.slot).pend = (s.warp c.g c.slot).pend := by
  unfold State.commitResult
  rw [pend_orFlags, pend_writeAll]

theorem pegs_commitResult (r : Res) : ((s.commitResult c r).cl c.g).pegs = (s.cl c.g).pegs := by
  unfold State.commitResult
  rw [pegs_orFlags, (house_writeAll r.1).pegs]

/-! ### The issue -/

/-- An advance from a state in which the party stands as it did is an advance from the first state. -/
theorem Advances.of_stand {t : State} {pc : W64} (h : Advances v t c pc)
    (hs : ∀ l, v.pcOf c l = s.pcOf c l ∧ v.holdOf c l = s.holdOf c l ∧ v.stands c l = s.stands c l) : Advances s t c pc where
  moved l hl st := h.moved l hl (by rw [(hs l).2.2, st])
  others l hu hl := by rw [← (hs l).1, ← (hs l).2.1]; exact h.others l hu hl

/-- No counted peg read goes with a result of fixed latency, nor with one outside lane code: the pegs stand (R97, R268). -/
theorem Issues.pegs_unread {hz : Issuer → Nat → List RegUse} (h : Issues s i o hz ls u pv)
    (hl : varLat i (uses s.cur.code i) = false ∨ s.cur.unit ≠ .lane) : u = s := by
  obtain ⟨_, _, _, _, same⟩ := pegReads_ok h.pegs
  exact same (hl.symm.imp_right pegSources_fixed)

/-- Past every check, an operation that only computes gives its result and its group advances. -/
theorem State.alu_issues (h : Issues s i o (fieldWrites i) ls u pv) (f : Alu) :
    s.alu i f = (u.giveResult i s.cur o ls (f u s.cur o pv (resPlaces s.cur o ls))).finish s.cur o.sw ls o.form.bytes [] := by
  unfold State.alu State.issue
  exact State.issueW_go h _ rfl

/-- An operation of fixed latency that only computes: its result commits, and its group advances. -/
theorem exec_fixed (hf : resultOf i = some f) (h : Issues s i o (fieldWrites i) ls u pv)
    (hl : varLat i (uses s.cur.code i) = false ∨ s.cur.unit ≠ .lane) :
    exec i s = .next ((s.commitResult s.cur (f s s.cur o pv (resPlaces s.cur o ls))).finish s.cur o.sw ls o.form.bytes []) := by
  obtain rfl := h.pegs_unread hl
  rw [exec_resultOf u hf, State.alu_issues h, State.giveResult_now _ hl]

/-- Settles O1: the result commits before the group advances, and neither disturbs what the other has done. -/
theorem fixedResult : Obligations.FixedResult := by
  intro s i o f ls u pv hf h house hl calm
  have hr := fits_result h.unit h.wf hf s o pv (resPlaces s.cur o ls)
  refine ⟨_, exec_fixed hf h hl, ?_⟩
  generalize f s s.cur o pv (resPlaces s.cur o ls) = r at hr
  have stand := stand_commitResult (s := s) hr
  have pend := pend_commitResult (s := s) (c := s.cur) r
  obtain ⟨frame, kept, adv, reads⟩ := finish_all (s := s.commitResult s.cur r) h.unit o.sw ls o.form.bytes
    (fun hsw hu => (calm hsw hu).of_stand hu pend (fun l => (stand l).2.1))
  refine ⟨fun x k l hk => ?_, ?_, ?_, adv.of_stand stand, (untouched_commitResult hr).trans frame, ?_⟩
  · rw [reads, reads_commitResult hr hk]
  · rw [kept.fpflags, fpflags_commitResult house]
  · rw [kept.pend, pend]
  · rw [kept.pegs, pegs_commitResult]

end Sys2Proof.Machine
end

section
/-! PROOF. What an issue past every check answers, by what the operation's body says. -/

namespace Sys2Proof.Machine

variable {s t : State} {i : Instr} {o : Ops} {ls keep : List Nat} {f : Fail}

/-! ### An issue past every check, by its body (R87) -/

/-- A body that goes on: the operation does it. -/
theorem does_of_go {body : State → Issuer → Ops → PegVals → List Nat → Eff} (h : Plain s i o ls)
    (hx : exec i s = .next (s.issue i body)) (hb : body s s.cur o [] ls = .go t keep) : Does s i o ls t keep := by
  unfold Does
  rw [hx, State.issue, State.issueW_go h body hb]

/-- A body that some places have not performed: they issue it again. -/
theorem doesBut_of_again {body : State → Issuer → Ops → PegVals → List Nat → Eff} (h : Plain s i o ls)
    (hx : exec i s = .next (s.issue i body)) (hb : body s s.cur o [] ls = .again t keep) : DoesBut s i o ls t keep := by
  unfold DoesBut
  rw [hx, State.issue, State.issueW_body h, hb]

/-- A body that fails: the whole group raises its cause. -/
theorem raises_of_fail {body : State → Issuer → Ops → PegVals → List Nat → Eff} (h : Plain s i o ls)
    (hx : exec i s = .next (s.issue i body)) (hb : body s s.cur o [] ls = .fail f) : exec i s = .next (s.raise s.cur f) := by
  rw [hx, State.issue, State.issueW_fail h body hb]

end Sys2Proof.Machine
end

section
/-! PROOF. BAR: arrivals, waits and the causes of a group's operations. -/

namespace Sys2Proof.Machine

variable {s u t : State} {i : Instr} {c : Issuer} {o : Ops} {ls rest : List Nat} {k : Nat} {obj : WaitObj} {sync : Bool}

/-! ### Blocking on a group (R26, R265) -/

/-- What R26 says of a wait on a group: no place may not wait, and the places block; or those that may not raise ILLEGAL_WAIT. -/
theorem block_outcomes {body : State → Issuer → Ops → PegVals → List Nat → Eff} (h : Plain s i o ls)
    (hx : exec i s = .next (s.issue i body)) {k e : Nat} {ps : List Nat}
    (hb : body s s.cur o [] ls = s.barBlock t s.cur o k e obj ps sync rest) :
    (ps.filter (fun l => !s.waitLegal s.cur l (s.group s.cur.g e).pcode none) = [] →
        Does s i o ls (t.blockOn s.cur ps 2 obj o.form.bytes o.sw sync) (ps ++ rest))
      ∧ ∀ l r, ps.filter (fun l => !s.waitLegal s.cur l (s.group s.cur.g e).pcode none) = l :: r →
        exec i s = .next (s.raise s.cur { code := 5, lanes := l :: r
                                          info := BitVec.ofNat 64 ((s.group s.cur.g e).pcode + 4 * k) }) := by
  constructor
  · intro hn
    exact does_of_go h hx (by rw [hb]; simp only [State.barBlock, hn])
  · intro l r hc
    exact raises_of_fail h hx (by rw [hb]; simp only [State.barBlock, hc])

/-! ### The body of a local form (R263 to R265) -/

/-- A party that does not hold the group (R263). -/
theorem barBody_unheld (arrives drops waits : Bool) (h : s.barIndex c o = none) : barBody arrives drops waits s c o ls = accessNone ls := by
  simp only [barBody, h]

/-- A party that has dropped out of the group (R264). -/
theorem barBody_dropped (arrives drops waits : Bool) (h : s.barIndex c o = some k)
    (hd : (s.arriveOf c (s.barEntry c k)).dropped = true) : barBody arrives drops waits s c o ls = accessNone ls := by
  simp only [barBody, h, hd, Bool.true_or, if_true]

/-- A party that arrives at a group of which it is no member (R263). -/
theorem barBody_stranger (drops waits : Bool) (h : s.barIndex c o = some k)
    (hm : s.barMember c (s.barEntry c k) = false) : barBody true drops waits s c o ls = accessNone ls := by
  simp only [barBody, h, hm, Bool.not_false, Bool.and_self, Bool.or_true, if_true]

/-- A party that may perform the operation on its group. -/
structure Holds (s : State) (c : Issuer) (o : Ops) (k : Nat) : Prop where
  index : s.barIndex c o = some k
  stays : (s.arriveOf c (s.barEntry c k)).dropped = false

/-- WAIT does not arrive: it blocks on the present phase, or goes on (R265). -/
theorem barBody_wait (h : Holds s c o k) : barBody false false true s c o ls =
    if s.barWaits c (s.barEntry c k) then s.barBlock s c o k (s.barEntry c k) (.group (s.barEntry c k)) ls (decide (o.sub % 8 = 2)) []
    else .go s [] := by
  simp [barBody, h.index, h.stays, State.arrive]

/-- ARRIVE and DROP of a party that has not been counted: its places arrive (R264). -/
theorem barBody_arrive (drops : Bool) (h : Holds s c o k) (hm : s.barMember c (s.barEntry c k) = true)
    (hh : s.barHeld c (s.barEntry c k) = false) :
    barBody true drops false s c o ls = .go (s.arrive c (s.barEntry c k) ls drops) [] := by
  simp [barBody, h.index, h.stays, hm, hh]

/-- ARRIVE and DROP of a warp that has been counted: its lanes are held until the phase completes (R264). -/
theorem barBody_arrive_held (drops : Bool) (h : Holds s c o k) (hm : s.barMember c (s.barEntry c k) = true)
    (hh : s.barHeld c (s.barEntry c k) = true) (hl : ls ≠ []) :
    barBody true drops false s c o ls = s.barBlock s c o k (s.barEntry c k) (.regroup (s.barEntry c k)) ls false [] := by
  have rest : ls.filter (fun l => !decide (l ∈ ls)) = [] := by simp
  simp [barBody, h.index, h.stays, hm, hh, hl, rest]

/-- The places of a SYNC that arrive, those of which not only the wait half is left (R296). -/
def State.coming (s : State) (c : Issuer) (ls : List Nat) : List Nat := ls.filter (fun l => !s.onlyWaits c l)

/-- The others are those of which only the wait half is left. -/
theorem not_coming (s : State) (c : Issuer) (ls : List Nat) :
    ls.filter (fun l => !(s.coming c ls).contains l) = ls.filter (fun l => s.onlyWaits c l) := by
  apply List.filter_congr
  intro l hl
  simp [State.coming, hl]

/-- Blocking no place changes nothing. -/
theorem blockOn_nil (s : State) (c : Issuer) (kind : Nat) (obj : WaitObj) (len : Nat) (sw sync : Bool) :
    s.blockOn c [] kind obj len sw sync = s := rfl

/-- SYNC of a member: places that come while the warp is counted are held, the others of the group wait; else they arrive, and the
group waits when its arrival is one of the present phase (R264, R265). -/
theorem barBody_sync (h : Holds s c o k) (hm : s.barMember c (s.barEntry c k) = true) (hu : c.unit = .lane ∨ c.unit = .spine) :
    barBody true false true s c o ls =
      if s.coming c ls ≠ [] ∧ s.barHeld c (s.barEntry c k) = true then
        s.barBlock (s.blockOn c (ls.filter (fun l => s.onlyWaits c l)) 2 (.group (s.barEntry c k)) o.form.bytes o.sw true) c o k
          (s.barEntry c k) (.regroup (s.barEntry c k)) (s.coming c ls) false (ls.filter (fun l => s.onlyWaits c l))
      else if (s.arrive c (s.barEntry c k) (s.coming c ls) false).barWaits c (s.barEntry c k) then
        s.barBlock (s.arrive c (s.barEntry c k) (s.coming c ls) false) c o k (s.barEntry c k) (.group (s.barEntry c k)) ls true []
      else .go (s.arrive c (s.barEntry c k) (s.coming c ls) false) [] := by
  have come : ls.filter (fun l => !(true && s.onlyWaits c l)) = s.coming c ls := rfl
  have rest := not_coming s c ls
  unfold barBody
  simp only [h.index, h.stays, hm, Bool.true_and, if_true, Bool.not_true, Bool.or_self, Bool.false_eq_true, if_false]
  unfold State.onlyWaits at come
  rcases hu with e | e <;> simp only [e, Bool.true_and] at come ⊢ <;> rw [come, rest] <;>
    cases ls.filter (fun l => s.onlyWaits c l) <;> simp [blockOn_nil]

/-! ### Remote arrivals (R266) -/

/-- What BAR.REMOTE needs: a block of a launch of class C, and a block and a group that its launch has. -/
def State.remoteOk (s : State) (c : Issuer) (o : Ops) (ls : List Nat) : Prop :=
  s.waveOf c = none ∧ (s.blockOf c).img.cls = 0
    ∧ (s.opB c o [] (ls.headD 0) 2 true).toNat < (s.blockOf c).nx * (s.blockOf c).ny * (s.blockOf c).nz
    ∧ o.a.toNat < (s.blockOf c).img.groups.length

theorem barRemoteBody_refused (h : ¬s.remoteOk c o ls) : barRemoteBody s c o ls = accessNone ls := by
  unfold barRemoteBody
  refine if_pos ?_
  simp only [State.remoteOk, Option.eq_none_iff_forall_ne_some] at h
  simp only [Bool.or_eq_true, decide_eq_true_eq, Option.isSome_iff_exists]
  by_contra n
  push Not at n
  obtain ⟨⟨⟨wave, cls⟩, blk⟩, grp⟩ := n
  exact h ⟨wave, cls, blk, grp⟩

theorem barRemoteBody_ok (h : s.remoteOk c o ls) : barRemoteBody s c o ls =
    if s.releaseHeld c 4 ls ≠ [] then .again s ls
    else .go ((s.setEffects c ls).remoteArrive (s.blockOf c).lnum (s.opB c o [] (ls.headD 0) 2 true).toNat o.a.toNat) [] := by
  obtain ⟨wave, cls, blk, grp⟩ := h
  unfold barRemoteBody
  refine if_neg ?_
  simp only [wave, cls, decide_eq_false (Nat.not_le.mpr blk), decide_eq_false (Nat.not_le.mpr grp)]
  decide

/-- At package scope no request to another package is released: only appends hold a release (R240, R286). -/
theorem tlainBusy_package (th : Thread) : s.tlainBusy th 4 = false := by
  simp [State.tlainBusy]

/-- A release of package scope waits for places of which an append is not performed. -/
theorem releaseHeld_package : s.releaseHeld c 4 ls = ls.filter (fun l => s.appendWaits (s.threadOf c l)) := by
  simp [State.releaseHeld, State.fenceLate, tlainBusy_package]

theorem releaseHeld_package_eq_nil (h : ∀ l ∈ ls, s.appendWaits (s.threadOf c l) = false) : s.releaseHeld c 4 ls = [] := by
  rw [releaseHeld_package, List.filter_eq_nil_iff]
  intro l hl
  simp [h l hl]

theorem releaseHeld_package_ne_nil (h : ∃ l ∈ ls, s.appendWaits (s.threadOf c l) = true) : s.releaseHeld c 4 ls ≠ [] := by
  obtain ⟨l, hl, hw⟩ := h
  rw [releaseHeld_package]
  exact List.ne_nil_of_mem (List.mem_filter.mpr ⟨hl, hw⟩)

/-- A remote arrival at a block whose launch is here counts at the group's entry; one at a retired block is discarded. -/
theorem remoteArrive_here {lnum blk k : Nat} (h : (s.work.launches.get lnum {}).away = false) :
    (∀ g b, s.findBlock lnum blk = some (g, b) →
      s.remoteArrive lnum blk k = s.countArrival g ((s.block g b).groupMap.getD k 0) false)
    ∧ (s.findBlock lnum blk = none → s.remoteArrive lnum blk k = s) := by
  unfold State.remoteArrive
  constructor
  · intro g b found
    simp only [h, found, Bool.false_eq_true, if_false]
  · intro lost
    simp only [h, lost, Bool.false_eq_true, if_false]

/-! ### The obligation -/

/-- An operation whose body finds no group raises ACCESS. -/
theorem raises_of_accessNone {body : State → Issuer → Ops → PegVals → List Nat → Eff} (h : Plain s i o ls)
    (hx : exec i s = .next (s.issue i body)) (hb : body s s.cur o [] ls = accessNone ls) :
    exec i s = .next (s.raise s.cur { code := 9, lanes := ls, info := 0xFFFF }) :=
  raises_of_fail h hx hb

/-- Settles O26: each form by what its body does in the party's case. -/
theorem barriers : Obligations.Barriers := by
  refine ⟨?_, fun s lnum blk k h => remoteArrive_here h⟩
  intro s i o ls k h
  refine ⟨?_, ?_, ?_, ?_, ?_, ?_, ?_⟩
  · rintro ⟨⟨hk, hd⟩, hm⟩ hh
    constructor
    · rintro rfl
      exact does_of_go h rfl (barBody_arrive false ⟨hk, hd⟩ hm hh)
    · rintro rfl
      exact does_of_go h rfl (barBody_arrive true ⟨hk, hd⟩ hm hh)
  · rintro ⟨⟨hk, hd⟩, hm⟩ hh (rfl | rfl)
    · exact block_outcomes h rfl (barBody_arrive_held false ⟨hk, hd⟩ hm hh h.some_)
    · exact block_outcomes h rfl (barBody_arrive_held true ⟨hk, hd⟩ hm hh h.some_)
  · rintro rfl ⟨⟨hk, hd⟩, hm⟩ hu
    have body := barBody_sync (ls := ls) ⟨hk, hd⟩ hm hu
    refine ⟨fun calm => ?_, fun hc hh => ?_⟩
    · have free : ¬(s.coming s.cur ls ≠ [] ∧ s.barHeld s.cur (s.barEntry s.cur k) = true) := by
        rintro ⟨hc, hh⟩
        rcases calm with e | e
        · exact hc e
        · exact absurd hh (by simp [e])
      rw [if_neg free] at body
      constructor
      · intro goes
        exact does_of_go h rfl (body.trans (if_neg (by rw [State.coming, goes]; decide)))
      · intro waits
        exact block_outcomes h rfl (body.trans (if_pos waits))
    · exact block_outcomes h rfl (body.trans (if_pos ⟨hc, hh⟩))
  · rintro rfl ⟨hk, hd⟩
    have body := barBody_wait (ls := ls) ⟨hk, hd⟩
    constructor
    · intro goes
      exact does_of_go h rfl (body.trans (if_neg (by simp [goes])))
    · intro waits
      exact block_outcomes h rfl (body.trans (if_pos waits))
  · rintro form (hk | ⟨hk, hd⟩)
    · rcases form with rfl | rfl | rfl | rfl <;> exact raises_of_accessNone h rfl (barBody_unheld _ _ _ hk)
    · rcases form with rfl | rfl | rfl | rfl <;> exact raises_of_accessNone h rfl (barBody_dropped _ _ _ hk hd)
  · rintro form hk hm
    rcases form with rfl | rfl | rfl <;> exact raises_of_accessNone h rfl (barBody_stranger _ _ hk hm)
  · rintro rfl
    refine ⟨fun ok free => ?_, fun ok late => ?_, fun bad => ?_⟩
    · exact does_of_go h rfl ((barRemoteBody_ok ok).trans (if_neg (by simp [releaseHeld_package_eq_nil free])))
    · exact doesBut_of_again h rfl ((barRemoteBody_ok ok).trans (if_pos (releaseHeld_package_ne_nil late)))
    · exact raises_of_accessNone h rfl (barRemoteBody_refused bad)

end Sys2Proof.Machine
end

section
/-! PROOF. The phases of groups: arrivals, and what the turn of a phase leaves of a group and of its warps. -/

namespace Sys2Proof

/-- An entry of a map whose values have all been changed. -/
theorem Map.find?_mapv {V U : Type} (m : Map V) (f : Nat → V → U) (n : Nat) : (m.mapv f).find? n = (m.find? n).map (f n) := by
  induction m with
  | nil => rfl
  | cons e r ih =>
    obtain ⟨k, v⟩ := e
    rw [show Map.mapv ((k, v) :: r) f = (k, f k v) :: Map.mapv r f from rfl, Map.find?, Map.find?]
    by_cases h : k = n
    · subst h; simp
    · simpa [h] using ih

/-- A value, or the default that the change leaves as it is. -/
theorem Map.get_mapv {V : Type} (m : Map V) (f : Nat → V → V) (n : Nat) (d : V) (h : f n d = d) :
    (m.mapv f).get n d = f n (m.get n d) := by
  unfold Map.get
  rw [Map.find?_mapv]
  cases m.find? n with
  | none => exact h.symm
  | some v => rfl

/-- Changes that agree at every entry. -/
theorem Map.mapv_congr {V U : Type} (m : Map V) {f f' : Nat → V → U} (h : ∀ k v, f k v = f' k v) : m.mapv f = m.mapv f' :=
  List.map_congr_left fun e _ => by rw [h]

/-- A fold of steps that keep what a function reads of the state keeps it. -/
theorem foldl_keeps {A B X : Type} (f : A → X) (step : A → B → A) (h : ∀ a b, f (step a b) = f a) (xs : List B) (a : A) :
    f (xs.foldl step a) = f a := by
  induction xs generalizing a with
  | nil => rfl
  | cons x r ih => rw [List.foldl_cons, ih, h]

namespace Machine

variable {s : State} {g e k : Nat} {drop : Bool} {ls : List Nat}

/-! ### What a turned phase leaves of a warp (R264) -/

theorem Warp.arr_wakeGroup (w : Warp) (e : Nat) : (w.wakeGroup e).arr = w.arr := by
  unfold Warp.wakeGroup
  apply foldl_keeps
  intro w l
  split
  · split
    · rfl
    · split <;> rfl
  · rfl

/-- An entry's arrivals once the masks of its phase are cleared: no lane, no drop, and the rest as it was. -/
theorem get_clearMask (arr : Map Arrive) (e : Nat) : (clearMask arr e).get e {} = { arr.get e {} with mask := 0, drop := false } := by
  have same : (clearMask arr e).get e {} = if e = e then { arr.get e {} with mask := 0, drop := false } else arr.get e {} :=
    Map.get_mapv arr (fun k a => if k = e then { a with mask := 0, drop := false } else a) e {} (if_pos rfl)
  rw [same, if_pos rfl]

theorem get_dropDone (arr : Map Arrive) (e : Nat) : (dropDone arr e).get e {} = { arr.get e {} with drop := false, dropped := true } := by
  unfold dropDone
  rw [Map.get_put_self]

/-- What the turn of an entry's phase leaves of a warp, which leaves the group or stays. -/
def Warp.turnPhase (w : Warp) (e : Nat) (leaves : Bool) : Warp :=
  { w with arr := clearMask (if leaves then dropDone w.arr e else w.arr) e }.wakeGroup e

theorem Warp.arr_turnPhase (w : Warp) (e : Nat) (leaves : Bool) :
    (w.turnPhase e leaves).arr.get e {}
      = { w.arr.get e {} with mask := 0, drop := false, dropped := (w.arr.get e {}).dropped || leaves } := by
  unfold Warp.turnPhase
  rw [Warp.arr_wakeGroup, get_clearMask]
  cases leaves
  · rw [Bool.or_false]; rfl
  · rw [Bool.or_true, if_pos rfl, get_dropDone]

/-! ### The turn of a phase (R22, R264, R266) -/

/-- The warps that leave an entry with the turn of its phase. -/
def State.leavers (s : State) (g e : Nat) : BitVec 64 :=
  State.phaseFlip.lanesMask64 ((s.cl g).warps.filter (fun x => x.2.dropsAt e (s.group g e).round))

/-- A bit of the mask of some warps' slots. -/
theorem getLsbD_slots {ws : Map Warp} {w : Warp} (h : (k, w) ∈ ws) (hk : k < 64) :
    (State.phaseFlip.lanesMask64 ws).getLsbD k = true := by
  have keeps : ∀ (xs : Map Warp) (m : BitVec 64), m.getLsbD k = true → (xs.foldl (fun m x => m ||| (1#64 <<< x.1)) m).getLsbD k = true := by
    intro xs
    induction xs with
    | nil => exact fun _ h => h
    | cons x r ih => intro m hm; exact ih _ (by simp [hm])
  unfold State.phaseFlip.lanesMask64
  generalize (0 : BitVec 64) = m
  induction ws generalizing m with
  | nil => cases h
  | cons x r ih =>
    rw [List.foldl_cons]
    rcases List.mem_cons.mp h with rfl | h
    · exact keeps r _ (by simp [hk])
    · exact ih h _

/-- A warp whose counted arrival at the present phase was a drop is one of those. -/
theorem leaves_of_dropsAt {w : Warp} (h : (s.cl g).warps.find? k = some w) (hd : w.dropsAt e (s.group g e).round = true)
    (hk : k < 64) : (s.leavers g e).getLsbD k = true :=
  getLsbD_slots (List.mem_filter.mpr ⟨Map.mem_of_find? h, hd⟩) hk

theorem warps_phaseFlip : ((s.phaseFlip g e).cl g).warps
    = (s.cl g).warps.mapv (fun k w => w.turnPhase e ((s.leavers g e).getLsbD k)) := by
  unfold State.phaseFlip State.leavers State.group
  rw [State.cl_updCl_self]
  dsimp only
  refine Map.mapv_congr _ fun k w => ?_
  generalize State.phaseFlip.lanesMask64 _ = gone
  unfold Warp.turnPhase
  cases gone.getLsbD k <;> rfl

/-- The entry of a turned phase: what it expects falls by the drops, arrivals beyond it stay, and leavers go (R22, R266). -/
theorem group_phaseFlip (s : State) (g e : Nat) :
    let x := s.group g e
    let y := (s.phaseFlip g e).group g e
    y.phase = (!x.phase) ∧ y.round = x.round + 1 ∧ y.expect_ = x.expect_ - x.drops ∧ y.drops = 0
      ∧ y.arrived = x.arrived - x.expect_ ∧ y.pcode = x.pcode ∧ y.valid = x.valid
      ∧ y.warps = x.warps &&& ~~~s.leavers g e := by
  unfold State.group State.phaseFlip
  simp only [State.cl_updCl_self, Map.get_put_self]
  exact ⟨trivial, trivial, trivial, trivial, trivial, trivial, trivial, rfl⟩

/-- A warp that is there after the turn of a phase. -/
theorem warp_phaseFlip {w : Warp} (h : (s.cl g).warps.find? k = some w) :
    (s.phaseFlip g e).warp g k = w.turnPhase e ((s.leavers g e).getLsbD k) := by
  unfold State.warp Map.get
  rw [warps_phaseFlip, Map.find?_mapv, h]
  rfl

/-- No lane of any warp is left in the masks of the new phase. -/
theorem phaseFlip_masks (s : State) (g e k : Nat) :
    (((s.phaseFlip g e).warp g k).arr.get e {}).mask = 0 ∧ (((s.phaseFlip g e).warp g k).arr.get e {}).drop = false := by
  cases h : (s.cl g).warps.find? k with
  | none =>
    have : (s.phaseFlip g e).warp g k = {} := by
      unfold State.warp Map.get
      rw [warps_phaseFlip, Map.find?_mapv, h]
      rfl
    rw [this]
    exact ⟨rfl, rfl⟩
  | some w =>
    rw [warp_phaseFlip h, Warp.arr_turnPhase]
    exact ⟨rfl, rfl⟩

/-! ### One arrival (R22) -/

/-- An acquire leaves every cluster alone. -/
theorem cl_acquire (s : State) (g scope h : Nat) : (s.acquire g scope).cl h = s.cl h := by
  unfold State.acquire
  split <;> rfl

/-- The acquire of a completed phase leaves every cluster alone. -/
theorem cl_phaseAcquire (s : State) (g e h : Nat) : (s.phaseAcquire g e).cl h = s.cl h := by
  unfold State.phaseAcquire
  split
  · rfl
  · exact cl_acquire s g 4 h

theorem group_phaseAcquire (s : State) (g e : Nat) : (s.phaseAcquire g e).group g e = s.group g e := by
  unfold State.group; rw [cl_phaseAcquire]

theorem warp_phaseAcquire (s : State) (g e k : Nat) : (s.phaseAcquire g e).warp g k = s.warp g k := by
  unfold State.warp; rw [cl_phaseAcquire]

/-- An entry with one more arrival, before the phase is looked at. -/
def State.arrived1 (s : State) (g e : Nat) (drop : Bool) : State :=
  s.updGroup g e (fun x => { x with arrived := x.arrived + 1, drops := x.drops + (if drop then 1 else 0) })

theorem group_arrived1 : (s.arrived1 g e drop).group g e =
    { s.group g e with arrived := (s.group g e).arrived + 1, drops := (s.group g e).drops + (if drop then 1 else 0) } := by
  simp [State.arrived1, State.updGroup, State.group]

theorem warps_arrived1 : ((s.arrived1 g e drop).cl g).warps = (s.cl g).warps := by
  simp [State.arrived1, State.updGroup]

/-- An arrival that does not complete the phase only counts. -/
theorem countArrival_short (h : (s.group g e).expect_ = 0 ∨ (s.group g e).arrived + 1 < (s.group g e).expect_) :
    s.countArrival g e drop = s.arrived1 g e drop := by
  unfold State.countArrival State.phaseCheck
  refine if_neg ?_
  rw [show s.updGroup g e _ = s.arrived1 g e drop from rfl, group_arrived1]
  simp only [Bool.and_eq_true, decide_eq_true_eq]
  omega

/-- An arrival that completes the phase turns it. -/
theorem countArrival_turns (h0 : (s.group g e).expect_ ≠ 0) (h : (s.group g e).expect_ ≤ (s.group g e).arrived + 1) :
    s.countArrival g e drop = ((s.arrived1 g e drop).phaseFlip g e).phaseAcquire g e := by
  unfold State.countArrival State.phaseCheck
  refine if_pos ?_
  rw [show s.updGroup g e _ = s.arrived1 g e drop from rfl, group_arrived1]
  simp only [Bool.and_eq_true, decide_eq_true_eq]
  exact ⟨h0, h⟩

/-- What one arrival leaves of an entry (R22, R266). -/
def Counts (x y : GroupEntry) (drop : Bool) : Prop :=
  let d := x.drops + (if drop then 1 else 0)
  (x.expect_ = 0 ∨ x.arrived + 1 < x.expect_ → y = { x with arrived := x.arrived + 1, drops := d })
  ∧ (x.expect_ ≠ 0 → x.expect_ ≤ x.arrived + 1 →
      y.phase = (!x.phase) ∧ y.round = x.round + 1 ∧ y.expect_ = x.expect_ - d ∧ y.drops = 0
      ∧ y.arrived = x.arrived + 1 - x.expect_ ∧ y.pcode = x.pcode ∧ y.valid = x.valid)

theorem counts_countArrival (s : State) (g e : Nat) (drop : Bool) :
    Counts (s.group g e) ((s.countArrival g e drop).group g e) drop := by
  constructor
  · intro h
    rw [countArrival_short h, group_arrived1]
  · intro h0 h
    obtain ⟨phase, round, expect, drops, arrived, pcode, valid, _⟩ := group_phaseFlip (s.arrived1 g e drop) g e
    rw [group_arrived1] at phase round expect arrived pcode valid
    rw [countArrival_turns h0 h, group_phaseAcquire]
    exact ⟨phase, round, expect, drops, arrived, pcode, valid⟩

/-! ### A warp's arrival (R264) -/

/-- Lanes of a warp enter an entry's mask. -/
def State.enterMask (s : State) (g k e : Nat) (ls : List Nat) (drop : Bool) : State :=
  s.updWarp g k (fun w =>
    { w with arr := w.arr.put e { w.arr.get e {} with mask := (w.arr.get e {}).mask ||| lanesMask ls, drop := (w.arr.get e {}).drop || drop } })

/-- A warp's arrival is counted: its mask is empty, and the phase is noted. -/
def State.noteArrival (s : State) (g k e : Nat) : State :=
  s.updWarp g k (fun w =>
    { w with arr := w.arr.put e { w.arr.get e {} with mask := 0, counted := true, round := (s.group g e).round } })

/-- A warp whose live lanes have not all arrived is not counted yet. -/
theorem arriveCheck_partial (h : (s.warp g k).liveMask &&& ~~~((s.warp g k).arr.get e {}).mask ≠ 0) : s.arriveCheck g k e = s := by
  unfold State.arriveCheck
  refine if_neg ?_
  simp only [Bool.and_eq_true, decide_eq_true_eq, not_and]
  exact fun _ => h

/-- A warp whose live lanes have all arrived counts once. -/
theorem arriveCheck_full (h : (s.warp g k).liveMask &&& ~~~((s.warp g k).arr.get e {}).mask = 0)
    (hm : ((s.warp g k).arr.get e {}).mask ≠ 0) :
    s.arriveCheck g k e = (s.noteArrival g k e).countArrival g e ((s.warp g k).arr.get e {}).drop := by
  unfold State.arriveCheck
  refine if_pos ?_
  simp only [Bool.and_eq_true, decide_eq_true_eq]
  exact ⟨hm, h⟩

theorem find_updWarp (s : State) (g k : Nat) (f : Warp → Warp) : ((s.updWarp g k f).cl g).warps.find? k = some (f (s.warp g k)) := by
  simp [State.updWarp, State.warp, Map.find?_put_self]

theorem group_updWarp (s : State) (g k e : Nat) (f : Warp → Warp) : (s.updWarp g k f).group g e = s.group g e := by
  simp [State.group, State.updWarp]

/-- A warp after an arrival that does not complete the phase. -/
theorem warp_countArrival_short (h : (s.group g e).expect_ = 0 ∨ (s.group g e).arrived + 1 < (s.group g e).expect_) :
    (s.countArrival g e drop).warp g k = s.warp g k := by
  unfold State.warp
  rw [countArrival_short h, warps_arrived1]

/-- A warp after an arrival that completes the phase. -/
theorem warp_countArrival_turns {w : Warp} (hw : (s.cl g).warps.find? k = some w) (h0 : (s.group g e).expect_ ≠ 0)
    (h : (s.group g e).expect_ ≤ (s.group g e).arrived + 1) :
    (s.countArrival g e drop).warp g k = w.turnPhase e (((s.arrived1 g e drop).leavers g e).getLsbD k) := by
  rw [countArrival_turns h0 h, warp_phaseAcquire]
  exact warp_phaseFlip (by rw [warps_arrived1]; exact hw)

/-- A member whose counted arrival drops leaves the entry that its arrival turns. -/
theorem member_countArrival_turns (h0 : (s.group g e).expect_ ≠ 0) (h : (s.group g e).expect_ ≤ (s.group g e).arrived + 1)
    (hl : ((s.arrived1 g e drop).leavers g e).getLsbD k = true) :
    ((s.countArrival g e drop).group g e).warps.getLsbD k = false := by
  obtain ⟨_, _, _, _, _, _, _, warps⟩ := group_phaseFlip (s.arrived1 g e drop) g e
  rw [countArrival_turns h0 h, group_phaseAcquire, warps]
  simp [hl]

/-! ### The obligation -/

/-- A warp of which a live lane is still to come: its lanes enter the mask, and the group stands. -/
theorem arriveLanes_partial (h : (s.warp g k).liveMask &&& ~~~(((s.warp g k).arr.get e {}).mask ||| lanesMask ls) ≠ 0) :
    s.arriveLanes g k e ls drop = s.enterMask g k e ls drop := by
  have own : (s.enterMask g k e ls drop).warp g k = _ := State.warp_updWarp_self s g k _
  have check := arriveCheck_partial (s := s.enterMask g k e ls drop) (g := g) (k := k) (e := e)
  rw [own, Map.get_put_self] at check
  exact check h

/-- A warp whose live lanes have all come counts once, with a drop when one of its lanes has dropped. -/
theorem arriveLanes_full (h : (s.warp g k).liveMask &&& ~~~(((s.warp g k).arr.get e {}).mask ||| lanesMask ls) = 0)
    (hm : ((s.warp g k).arr.get e {}).mask ||| lanesMask ls ≠ 0) :
    s.arriveLanes g k e ls drop
      = ((s.enterMask g k e ls drop).noteArrival g k e).countArrival g e (((s.warp g k).arr.get e {}).drop || drop) := by
  have own : (s.enterMask g k e ls drop).warp g k = _ := State.warp_updWarp_self s g k _
  have check := arriveCheck_full (s := s.enterMask g k e ls drop) (g := g) (k := k) (e := e)
  rw [own, Map.get_put_self] at check
  exact check h hm

/-- A state in which a warp's arrival has been noted, before it counts. -/
theorem noted (s : State) (g k e : Nat) (ls : List Nat) (drop : Bool) :
    ∃ w, ((((s.enterMask g k e ls drop).noteArrival g k e).cl g).warps.find? k = some w)
      ∧ w.arr.get e {} = { (s.warp g k).arr.get e {} with
          mask := 0, counted := true, round := (s.group g e).round, drop := ((s.warp g k).arr.get e {}).drop || drop } := by
  refine ⟨_, find_updWarp _ g k _, ?_⟩
  have own : (s.enterMask g k e ls drop).warp g k = _ := State.warp_updWarp_self s g k _
  have grp : (s.enterMask g k e ls drop).group g e = s.group g e := group_updWarp s g k e _
  rw [Map.get_put_self, own, Map.get_put_self, grp]

theorem group_noted : ((s.enterMask g k e ls drop).noteArrival g k e).group g e = s.group g e :=
  (group_updWarp _ g k e _).trans (group_updWarp s g k e _)

/-- A warp whose arrival at the present phase is noted with a drop is one that leaves with the turn. -/
theorem leaves_of_noted {w : Warp} {a : Arrive} (found : (s.cl g).warps.find? k = some w)
    (arr : w.arr.get e {} = { a with mask := 0, counted := true, round := (s.group g e).round, drop := true })
    (stays : a.dropped = false) (hk : k < 64) : ((s.arrived1 g e drop).leavers g e).getLsbD k = true := by
  refine leaves_of_dropsAt (by rw [warps_arrived1]; exact found) ?_ hk
  rw [group_arrived1]
  simp only [Warp.dropsAt, arr, stays, decide_true, Bool.and_self, Bool.not_false]

/-- Settles O27: an arrival counts or turns the phase, and a warp's arrival is one such arrival. -/
theorem phaseCompletes : Obligations.PhaseCompletes := by
  intro s g e drop
  refine ⟨counts_countArrival s g e drop, ?_, ?_⟩
  · intro h0 h k
    rw [countArrival_turns h0 h, warp_phaseAcquire]
    exact phaseFlip_masks _ g e k
  intro k ls
  constructor
  · intro hp
    have own : (s.enterMask g k e ls drop).warp g k = _ := State.warp_updWarp_self s g k _
    rw [arriveLanes_partial hp, own, Map.get_put_self]
    exact ⟨group_updWarp s g k e _, rfl⟩
  · intro hf hm
    obtain ⟨w, found, arr⟩ := noted s g k e ls drop
    have grp := group_noted (s := s) (g := g) (k := k) (e := e) (ls := ls) (drop := drop)
    rw [arriveLanes_full hf hm]
    generalize (s.enterMask g k e ls drop).noteArrival g k e = u at found grp
    rw [← grp] at arr ⊢
    refine ⟨counts_countArrival u g e _, ?_⟩
    by_cases turns : (u.group g e).expect_ ≠ 0 ∧ (u.group g e).expect_ ≤ (u.group g e).arrived + 1
    · obtain ⟨h0, h⟩ := turns
      rw [warp_countArrival_turns found h0 h, Warp.arr_turnPhase, arr]
      refine ⟨rfl, rfl, rfl, fun short => by omega, fun _ _ hd stays hk => ?_⟩
      have dropped : (((s.warp g k).arr.get e {}).drop || drop) = true := by simpa using hd
      rw [dropped] at arr ⊢
      have leaves := leaves_of_noted (drop := true) found arr stays hk
      rw [leaves, Bool.or_true]
      exact ⟨rfl, member_countArrival_turns h0 h leaves⟩
    · have short : (u.group g e).expect_ = 0 ∨ (u.group g e).arrived + 1 < (u.group g e).expect_ := by omega
      have own : u.warp g k = w := by unfold State.warp Map.get; rw [found]
      rw [warp_countArrival_short short, own, arr]
      exact ⟨rfl, rfl, rfl, fun _ => ⟨rfl, rfl⟩, fun h0 h => absurd ⟨h0, h⟩ turns⟩

end Machine
end Sys2Proof
end

section
/-! PROOF. SEQWAIT, SEQWAIT.TRY and SEQADD. -/

namespace Sys2Proof.Machine

variable {s : State} {c : Issuer} {o : Ops} {ls : List Nat} {xs : List (Nat × Nat)}

/-! ### The check of amounts and thresholds (R267) -/

/-- Bit 63 of a word says whether it is beyond 63 bits. -/
theorem getLsbD_top (x : W64) : x.getLsbD 63 = decide (2 ^ 63 ≤ x.toNat) := by
  rw [← BitVec.msb_eq_decide x, BitVec.msb_eq_getLsbD_last]

/-- The places whose amount or threshold is beyond 63 bits. -/
def State.aboves (s : State) (c : Issuer) (o : Ops) (ls : List Nat) : List Nat :=
  ls.filter (fun l => decide (2 ^ 63 ≤ (s.unsB c o l true).toNat))

/-- They raise ACCESS before anything else is checked. -/
theorem counterCheck_above (acc : Access) (h : s.aboves c o ls ≠ []) :
    s.counterCheck c o acc ls = .error (.fail { code := 9, lanes := s.aboves c o ls, info := 0xFFFF }) := by
  have same : ls.filter (fun l => (s.unsB c o l true).getLsbD 63) = s.aboves c o ls :=
    List.filter_congr fun l _ => getLsbD_top _
  unfold State.counterCheck
  rw [same]
  split
  · rename_i e; rw [e]
  · rename_i e; exact absurd e h

/-! ### The bodies -/

/-- The places of SEQWAIT that may not wait for their counters (R26). -/
def State.illegalWaits (s : State) (c : Issuer) (o : Ops) (xs : List (Nat × Nat)) : List SeqView :=
  ((s.seqViews xs).2.filter (fun v => !ctrSat v.lo (s.unsB c o v.lane true).toNat)).filter
    (fun v => !s.waitLegal c v.lane v.code (some v.floor))

theorem seqwaitBody_illegal (h : s.counterCheck c o .read ls = .ok xs) {v : SeqView} {q : List SeqView}
    (hi : s.illegalWaits c o xs = v :: q) :
    seqwaitBody s c o ls = .fail { code := 5, lanes := (s.illegalWaits c o xs).map SeqView.lane, addr := s.opA c o v.lane true
                                   info := BitVec.ofNat 64 v.code } := by
  unfold State.illegalWaits at hi ⊢
  simp only [seqwaitBody, h, hi]

theorem seqwaitBody_legal (h : s.counterCheck c o .read ls = .ok xs) (hi : s.illegalWaits c o xs = []) :
    let done := (s.seqViews xs).2.filter (fun v => ctrSat v.lo (s.unsB c o v.lane true).toNat)
    let left := (s.seqViews xs).2.filter (fun v => !ctrSat v.lo (s.unsB c o v.lane true).toNat)
    let t := (s.seqViews xs).1.putPreds c (o.d.toNat % 16) (done.map (fun v => (v.lane, ctrPoison v.lo)))
    seqwaitBody s c o ls = .go (left.foldl (fun t v => t.seqBlock c o v) (if done = [] then t else t.acquire c.g (o.c.toNat % 8)))
      (left.map SeqView.lane) := by
  unfold State.illegalWaits at hi
  simp only [seqwaitBody, h, hi]
  generalize (s.seqViews xs).2.filter (fun v => ctrSat v.lo (s.unsB c o v.lane true).toNat) = done
  cases done <;> rfl

theorem seqwaitTryBody_ok (h : s.counterCheck c o .read ls = .ok xs) :
    let rs := (s.seqViews xs).2.map (fun v => (v.lane, ctrSat v.lo (s.unsB c o v.lane true).toNat))
    let t := (s.seqViews xs).1.putPreds c (o.d.toNat % 16) rs
    seqwaitTryBody s c o ls = .go (if rs.any (·.2) then t.acquire c.g (o.c.toNat % 8) else t) [] := by
  simp only [seqwaitTryBody, h]

/-- A sequencer's commands have completed; no other party waits for any (R214). -/
def State.seqClear (s : State) (c : Issuer) : Prop := c.isSeq = true → (s.seqr c.g c.isCopy).flight = 0

theorem seqaddBody_busy (h : ¬s.seqClear c) : seqaddBody s c o ls = .again s ls := by
  unfold seqaddBody
  refine if_pos ?_
  simpa [State.seqClear] using h

/-- SEQADD of a party that waits for no command: what its check comes to. -/
theorem seqaddBody_clear (h : s.seqClear c) : seqaddBody s c o ls =
    match s.counterCheck c o .write ls with
    | .error e => s.stopEff c ls e
    | .ok xs =>
      let held := s.releaseHeld c (o.c.toNat % 8) ls
      let now := xs.filter (fun x => !held.contains x.1)
      .again (now.foldl (fun t x => t.ctrAdvance x.2 (s.unsB c o x.1 true).toNat (o.sub % 2 = 1) [s.threadOf c x.1])
        (s.setEffects c (now.map (·.1)))) held := by
  unfold seqaddBody
  exact if_neg (by simpa [State.seqClear] using h)

/-! ### The obligation -/

/-- Settles O28: each operation by what its check and the counters' values come to. -/
theorem counters : Obligations.Counters := by
  intro s i o ls xs h
  refine ⟨?_, ?_, ?_, ?_, ?_, ?_⟩
  · rintro rfl check legal
    exact does_of_go h rfl (seqwaitBody_legal check legal)
  · rintro rfl check v q illegal
    exact raises_of_fail h rfl (seqwaitBody_illegal check illegal)
  · rintro rfl check
    exact does_of_go h rfl (seqwaitTryBody_ok check)
  · rintro rfl check idle
    exact doesBut_of_again h rfl ((seqaddBody_clear idle).trans (by rw [check]; rfl))
  · rintro rfl busy
    exact doesBut_of_again h rfl (seqaddBody_busy busy)
  · rintro form above
    have check := fun acc => counterCheck_above (acc := acc) above
    rcases form with rfl | rfl | ⟨rfl, idle⟩
    · exact raises_of_fail h rfl (by simp only [seqwaitBody, check]; rfl)
    · exact raises_of_fail h rfl (by simp only [seqwaitTryBody, check]; rfl)
    · exact raises_of_fail h rfl ((seqaddBody_clear idle).trans (by simp only [check]; rfl))

end Sys2Proof.Machine
end

section
/-! PROOF. QPUSH and QPOP. -/

namespace Sys2Proof.Machine

variable {s : State} {c : Issuer} {o : Ops} {ls : List Nat} {op : RingOp} {r : Ring} {slot code : Nat}

/-! ### What each kind of operation does, by what its transition comes to (R275) -/

theorem ringBlocking_refused (h : s.ringOf c (s.ringNum c o ls) op = .refused) :
    ringBlocking op s c o ls = .fail (ringFault ls (s.ringNum c o ls)) := by
  simp only [ringBlocking, h, ringBad]

theorem ringBlocking_waits (h : s.ringOf c (s.ringNum c o ls) op = .waits code) :
    ringBlocking op s c o ls = s.ringWait c ls (s.ringNum c o ls) code op o := by
  simp only [ringBlocking, h]

theorem ringTrying_refused (h : s.ringOf c (s.ringNum c o ls) op = .refused) :
    ringTrying op s c o ls = .fail (ringFault ls (s.ringNum c o ls)) := by
  simp only [ringTrying, h, ringBad]

theorem ringGive_refused (h : s.ringOf c (s.ringNum c o ls) op = .refused) :
    ringGive op s c o ls = .fail (ringFault ls (s.ringNum c o ls)) := by
  simp only [ringGive, h, ringBad]

theorem ringGive_done (h : s.ringOf c (s.ringNum c o ls) op = .done r slot) :
    ringGive op s c o ls = .go ((s.ringPut c (s.ringNum c o ls) op).pushEffects c op ls) [] := by
  simp only [ringGive, h]

/-- RESERVE and COMMIT set the effects bits; TAKE and RETURN do not (R319). -/
theorem pushEffects_reserve (t : State) : t.pushEffects c .reserve ls = t.setEffects c ls := rfl
theorem pushEffects_commit (t : State) : t.pushEffects c .commit ls = t.setEffects c ls := rfl
theorem pushEffects_take (t : State) : t.pushEffects c .take ls = t := rfl
theorem pushEffects_ret (t : State) : t.pushEffects c .ret ls = t := rfl

/-- RESERVE's slot is visible at once (R97). -/
theorem giveSlot_reserve (t : State) (ws : List PWrite) : t.giveSlot c o .reserve ls ws = (t.writeAll c ws, []) := rfl
/-- TAKE's slot is given as a load's value (R97). -/
theorem giveSlot_take (t : State) (ws : List PWrite) : t.giveSlot c o .take ls ws = t.giveLoad c o false ls ws none [] := rfl

theorem reserve_done (h : s.ringOf c (s.ringNum c o ls) .reserve = .done r slot) :
    ringBlocking .reserve s c o ls = .go (((s.ringPut c (s.ringNum c o ls) .reserve).setEffects c ls).writeAll c
        (ringWrites c o ls (BitVec.ofNat 64 slot) none)) []
    ∧ ringTrying .reserve s c o ls = .go (((s.ringPut c (s.ringNum c o ls) .reserve).setEffects c ls).writeAll c
        (ringWrites c o ls (BitVec.ofNat 64 slot) (some true))) [] := by
  simp only [ringBlocking, ringTrying, h, pushEffects_reserve, giveSlot_reserve, and_self]

theorem take_blocking_done (h : s.ringOf c (s.ringNum c o ls) .take = .done r slot) :
    let t := (s.ringPut c (s.ringNum c o ls) .take).giveLoad c o false ls (ringWrites c o ls (BitVec.ofNat 64 slot) none) none []
    ringBlocking .take s c o ls = .go t.1 t.2 := by
  simp only [ringBlocking, h, pushEffects_take, giveSlot_take]

theorem take_trying_done (h : s.ringOf c (s.ringNum c o ls) .take = .done r slot) :
    let t := (s.ringPut c (s.ringNum c o ls) .take).giveLoad c o false ls
      (ringWrites c o ls (BitVec.ofNat 64 slot) (some true)) none []
    ringTrying .take s c o ls = .go t.1 t.2 := by
  simp only [ringTrying, h, pushEffects_take, giveSlot_take]

theorem ringTrying_waits (h : s.ringOf c (s.ringNum c o ls) op = .waits code) :
    let t := s.giveSlot c o op ls (ringWrites c o ls 0xFFFFFFFF (some false))
    ringTrying op s c o ls = .go t.1 t.2 := by
  simp only [ringTrying, h]

/-- The places that may not wait for a ring (R26). -/
def State.ringIllegal (s : State) (c : Issuer) (ls : List Nat) (code : Nat) : List Nat :=
  ls.filter (fun l => !s.waitLegal c l code none)

theorem ringWait_illegal (num : Nat) (h : s.ringIllegal c ls code ≠ []) :
    s.ringWait c ls num code op o = .fail { code := 5, lanes := s.ringIllegal c ls code, info := BitVec.ofNat 64 (code + 4 * num) } := by
  unfold State.ringIllegal at h ⊢
  unfold State.ringWait
  split
  · rename_i e; rw [e]
  · rename_i e; exact absurd e h

theorem ringWait_legal (num : Nat) (h : s.ringIllegal c ls code = []) :
    s.ringWait c ls num code op o
      = .go (s.blockOn c ls 6 (.ring (num + if op = .take then 32 else 0)) o.form.bytes o.sw false) ls := by
  unfold State.ringIllegal at h
  simp only [State.ringWait, h]

/-! ### The obligation -/

/-- A blocking form that the ring holds up waits, or raises ILLEGAL_WAIT. -/
theorem ringBlocking_outcomes {i : Instr} {k : Nat} (h : Plain s i o ls)
    (hx : exec i s = .next (s.issue i (fun s c o _ ls => ringBlocking op s c o ls))) (hk : (if op = .take then 32 else 0) = k)
    (hw : s.ringOf s.cur (s.ringNum s.cur o ls) op = .waits code) :
    (s.ringIllegal s.cur ls code = [] → Waits s i o ls 6 (.ring (s.ringNum s.cur o ls + k)) false)
    ∧ (s.ringIllegal s.cur ls code ≠ [] → exec i s = .next (s.raise s.cur
        { code := 5, lanes := s.ringIllegal s.cur ls code, info := BitVec.ofNat 64 (code + 4 * s.ringNum s.cur o ls) })) := by
  subst hk
  constructor
  · intro legal
    exact does_of_go h hx ((ringBlocking_waits hw).trans (ringWait_legal _ legal))
  · intro illegal
    exact raises_of_fail h hx ((ringBlocking_waits hw).trans (ringWait_illegal _ illegal))

/-- Settles O31: each form by what the transition that it asks for comes to. -/
theorem ringOperations : Obligations.RingOperations := by
  intro s i o ls r slot h
  refine ⟨?_, ?_, ?_, ?_, ?_, ?_⟩
  · rintro rfl
    exact ⟨fun done => does_of_go h rfl (reserve_done done).1, fun _ wait => ringBlocking_outcomes h rfl rfl wait,
      fun bad => raises_of_fail h rfl (ringBlocking_refused bad)⟩
  · rintro rfl
    exact ⟨fun done => does_of_go h rfl (reserve_done done).2, fun bad => raises_of_fail h rfl (ringTrying_refused bad),
      fun _ wait => does_of_go h rfl (ringTrying_waits wait)⟩
  · rintro rfl
    exact ⟨fun bad => raises_of_fail h rfl (ringGive_refused bad), fun done => does_of_go h rfl (ringGive_done done)⟩
  · rintro rfl
    exact ⟨fun done => does_of_go h rfl (take_blocking_done done), fun _ wait => ringBlocking_outcomes h rfl rfl wait,
      fun bad => raises_of_fail h rfl (ringBlocking_refused bad)⟩
  · rintro rfl
    exact ⟨fun done => does_of_go h rfl (take_trying_done done), fun bad => raises_of_fail h rfl (ringTrying_refused bad),
      fun _ wait => does_of_go h rfl (ringTrying_waits wait)⟩
  · rintro rfl
    exact ⟨fun bad => raises_of_fail h rfl (ringGive_refused bad), fun done => does_of_go h rfl (ringGive_done done)⟩

end Sys2Proof.Machine
end

section
/-! PROOF. LAUNCH and LAUNCH.IND; what a queue reads as after a change of one. -/

namespace Sys2Proof.Machine

variable {s : State} {h : W64} {len flags args q : Nat} {ws : List W64}

/-! ### Queues after a change of one -/

@[simp] theorem State.queue_updQueue_self (s : State) (q : Nat) (f : Queue → Queue) : (s.updQueue q f).queue q = f (s.queue q) := by
  simp [State.queue, State.updQueue]

theorem State.queue_updQueue_ne (s : State) (q k : Nat) (f : Queue → Queue) (n : k ≠ q) : (s.updQueue q f).queue k = s.queue k := by
  simp [State.queue, State.updQueue, Map.get_put_ne _ _ _ _ _ n]

/-! ### A command that its queue takes (R33, R34) -/

/-- A command that its queue takes has its effect. -/
theorem command_taken (t : TakesCmd s h len flags args) (body : State → Nat → State) :
    s.command h len flags args body = body s s.cur.slot := by
  have good : (decide (cmdLen h ≠ len) || decide (flags < cmdFlags h) || decide (args < cmdArg h)) = false := by
    simp [t.len, Nat.not_lt.mpr t.flags, Nat.not_lt.mpr t.args]
  unfold State.command
  simp only [good, Bool.false_eq_true, if_false]
  cases nest : (s.queue s.cur.slot).nest with
  | nil => rfl
  | cons n r => simp only [t.open_ n r nest]

/-! ### Submission (R39) -/

/-- A submitted launch joins its queue's launches under the next number. -/
theorem submit_joins (u : State) (q : Nat) (l : Launch) :
    ((u.submit q l).queue q).launches = (u.queue q).launches ++ [u.work.nextLnum]
      ∧ (u.submit q l).work.launches.find? u.work.nextLnum = some l := by
  constructor
  · unfold State.submit
    rw [State.queue_updQueue_self]
    rfl
  · exact Map.find?_put_self _ _ _

/-- LAUNCH of a record that a check of its own stops. -/
theorem launch_stopped (t : TakesCmd s h 9 0 0) {k : Nat} (bad : recordStop ws = some k) :
    CmdStops s (.cLaunch h ws) s k ∧ CmdStops s (.cLaunchInd h ws) s k := by
  constructor
  · exact congrArg Host.Outcome.next ((command_taken t _).trans (by rw [bad]))
  · exact congrArg Host.Outcome.next ((command_taken t _).trans (by rw [bad]))

/-- LAUNCH of a record that passes takes its grid from the record. -/
theorem exec_cLaunch (t : TakesCmd s h 9 0 0) (good : recordStop ws = none) :
    exec (.cLaunch h ws) s = .next (s.cmdLaunch s.cur.slot ws (operand ws 1)) :=
  congrArg Host.Outcome.next ((command_taken t _).trans (by rw [good]))

/-- LAUNCH.IND of a record that passes takes its grid from the word that it reads. -/
theorem exec_cLaunchInd (t : TakesCmd s h 9 0 0) (good : recordStop ws = none) (al : (operand ws 1).toNat % 8 = 0) {v : State}
    {b : List Byte} {p : Bool} (read : s.rd (s.queue s.cur.slot).aspace (operand ws 1) 8 none = (v, .ok (b, p))) :
    exec (.cLaunchInd h ws) s = .next (v.cmdLaunch s.cur.slot ws (BitVec.ofNat 64 (leNat b))) := by
  refine congrArg Host.Outcome.next ((command_taken t _).trans ?_)
  rw [good]
  simp only [State.cmdWord, al, read, ne_eq, not_true_eq_false, if_false]

/-- What the check of an image makes of a launch. -/
theorem cmdLaunch_cases (v : State) (q : Nat) (ws : List W64) (grid : W64) :
    let asp := (v.queue q).aspace
    let check := v.checkImage asp (operand ws 0) (gridX grid) (gridY grid) (gridZ grid)
    (∀ u img, check = (u, .ok (.ok img)) →
      v.cmdLaunch q ws grid = (u.submit q (launchOf q asp img (gridX grid) (gridY grid) (gridZ grid) ws)).cmdDone q 9)
    ∧ (∀ u k, check = (u, .ok (.error k)) → v.cmdLaunch q ws grid = u.cmdStop q (0x100 + k))
    ∧ (∀ u va a r, check = (u, .fail va a r) → v.cmdLaunch q ws grid = u.cmdFault q va a r) := by
  refine ⟨?_, ?_, ?_⟩
  · intro u img e
    simp only [State.cmdLaunch, e]
  · intro u k e
    simp only [State.cmdLaunch, e]
  · intro u va a r e
    simp only [State.cmdLaunch, e]

/-- A launch command, once it is a launch with a grid: it ends, stops or faults as the check of the image says. -/
theorem launch_outcomes {i : Instr} {v : State} {grid : W64} (hx : exec i s = .next (v.cmdLaunch s.cur.slot ws grid)) :
    let q := s.cur.slot
    let asp := (v.queue q).aspace
    let check := v.checkImage asp (operand ws 0) (gridX grid) (gridY grid) (gridZ grid)
    (∀ u img, check = (u, .ok (.ok img)) →
      let l := launchOf q asp img (gridX grid) (gridY grid) (gridZ grid) ws
      CmdEnds s i (u.submit q l) 9 ∧ ((u.submit q l).queue q).launches = (u.queue q).launches ++ [u.work.nextLnum]
        ∧ (u.submit q l).work.launches.find? u.work.nextLnum = some l)
    ∧ (∀ u k, check = (u, .ok (.error k)) → CmdStops s i u (0x100 + k))
    ∧ (∀ u va a r, check = (u, .fail va a r) → exec i s = .next (u.cmdFault q va a r)) := by
  obtain ⟨good, bad, fails⟩ := cmdLaunch_cases v s.cur.slot ws grid
  refine ⟨?_, ?_, ?_⟩
  · intro u img e
    exact ⟨hx.trans (congrArg _ (good u img e)), submit_joins u _ _⟩
  · intro u k e
    exact hx.trans (congrArg _ (bad u k e))
  · intro u va a r e
    exact hx.trans (congrArg _ (fails u va a r e))

/-- Settles O41: the record's check, then the grid, then the check of the image. -/
theorem launchCommands : Obligations.LaunchCommands := by
  intro s h ws taken
  refine ⟨fun good => ⟨launch_outcomes (exec_cLaunch taken good), fun al v b p read => ?_⟩, fun k bad => launch_stopped taken bad⟩
  exact launch_outcomes (exec_cLaunchInd taken good al read)

end Sys2Proof.Machine
end

section
/-! PROOF. Doorbells: an append that has to wait keeps the step at which it came, so the entry that the statement names is not
the one that the hub holds. -/

namespace Sys2Proof.Machine

/-! ### An append to a full queue in record mode (R316, R317) -/

/-- An entry that finds no room in a record-mode queue with nothing waiting waits there. -/
theorem waiting_cqPush_full {s : State} {q : Nat} (e : CqEntry) (isOpen : (s.queue q).cqOpen = true) (mode : (s.queue q).assign = 0)
    (full : (s.queue q).head + 2 ^ (s.queue q).log ≤ (s.queue q).tail) (first : (s.queue q).waiting = []) :
    ((s.cqPush q e).queue q).waiting = [e] := by
  have stays : s.cqPush q e = s.updQueue q (fun y => { y with waiting := y.waiting ++ [e] }) := by
    unfold State.cqPush
    simp only [isOpen, if_true, State.queue_updQueue_self, first, List.nil_append, List.length_cons, List.length_nil]
    unfold State.cqDrain
    simp only [State.queue_updQueue_self, first, List.nil_append]
    refine if_neg ?_
    simp only [mode, Bool.and_eq_true, Bool.or_eq_true, decide_eq_true_eq]
    omega
  rw [stays, State.queue_updQueue_self, first]
  rfl

/-- CQ_APPEND of a record that can be read pushes an entry that bears the number of the step. -/
theorem exec_cqAppend {s u : State} {p : BitVec 16} {v : W64} {b : List Byte} {e : Bool} (isOpen : (s.queue p.toNat).cqOpen = true)
    (al : v.toNat % 64 = 0) (read : s.rd (s.queue p.toNat).aspace v 64 none = (u, .ok (b, e))) :
    exec (.cqAppend p v) s = .next (u.cqPush p.toNat
      { kind := 2, subkind := (b.getD 1 0).toNat, payload := (b.drop 16).take 48, born := u.ticks }) := by
  show Host.Outcome.next (s.append p.toNat v none) = _
  unfold State.append
  simp only [isOpen, al, read, ne_eq, not_true_eq_false, decide_false, Bool.not_true, Bool.or_self, Bool.false_eq_true, if_false]

/-- After the first step: queue 7 is a record-mode completion queue of 16 entries, all of them unread, in space 0, whose root at 0
maps everything at its own address. -/
def fullPort : State :=
  { ticks := 1
    work := { queues := [(7, { stat := 1, type := 3, log := 4, tail := 16 })] }
    mem := { bytes := [(0, 1), (1, 0x80), (0x8000, 0x67), (0x8001, 4)] } }

/-- The record at 0x40000 can be read, and the read leaves the step and the queue as they were. -/
theorem fullPort_read : ∃ u b e, fullPort.rd (fullPort.queue 7).aspace 0x40000 64 none = (u, .ok (b, e))
    ∧ u.ticks = 1 ∧ u.queue 7 = fullPort.queue 7 := by
  have good : (match (fullPort.rd (fullPort.queue 7).aspace 0x40000 64 none).2 with | .ok _ => true | .fail _ _ _ => false) = true := by
    decide +kernel
  have same : (fullPort.rd (fullPort.queue 7).aspace 0x40000 64 none).1.ticks = 1
      ∧ (fullPort.rd (fullPort.queue 7).aspace 0x40000 64 none).1.queue 7 = fullPort.queue 7 := by
    decide +kernel
  revert good same
  generalize fullPort.rd (fullPort.queue 7).aspace 0x40000 64 none = r
  obtain ⟨u, g⟩ := r
  intro good same
  cases g with
  | ok be => exact ⟨u, be.1, be.2, rfl, same⟩
  | fail va a k => exact absurd good (by simp)

/-- Refutes O42: in a state that is not the first, an append to a full record-mode queue waits with the number of its step (R65),
where the statement has it wait with 0. At `fullPort`, in step 1, queue 7 and the record at 0x40000 the two states differ. -/
theorem not_doorbells : ¬ Obligations.Doorbells := by
  intro h
  obtain ⟨u, b, e, read, ticks, queue⟩ := fullPort_read
  obtain ⟨_, _, _, _, _, _, _, _, _, _, _, _, _, append, _⟩ := h fullPort 7 0x40000
  have isOpen : (fullPort.queue 7).cqOpen = true := by decide +kernel
  have claimed := append isOpen (by decide) u b e read
  have actual := exec_cqAppend (p := 7) (v := 0x40000) isOpen (by decide) read
  have waits : ∀ x, ((u.cqPush 7 x).queue 7).waiting = [x] := fun x =>
    waiting_cqPush_full x (by rw [queue]; decide +kernel) (by rw [queue]; decide +kernel) (by rw [queue]; decide +kernel)
      (by rw [queue]; decide +kernel)
  have same := Host.Outcome.next.inj (actual.symm.trans claimed)
  have entries := congrArg (fun t => (State.queue t 7).waiting) same
  have born := (waits _).symm.trans (entries.trans (waits _))
  simp [ticks] at born

end Sys2Proof.Machine
end

section
/-! PROOF. Launches and blocks: admission, dispatch, retirement, and what a dispatched block's parties start with. -/

namespace Sys2Proof.Machine

variable {s : State} {n g k slot : Nat}

/-! ### Admission (R18, R39) -/

/-- The launch that is next to be admitted waits, and has an empty grid, or no launch that waits has. -/
theorem nextAdmit_waits (h : s.nextAdmit = some n) :
    ∃ v, (n, v) ∈ s.work.launches ∧ v.admitted = false
      ∧ (v.blocks = 0 ∨ ∀ e ∈ s.work.launches, e.2.admitted = false → e.2.blocks ≠ 0) := by
  have waits : ∀ {e : Nat × Launch}, e ∈ s.work.launches.filter (fun (e : Nat × Launch) => !e.2.admitted) →
      e ∈ s.work.launches ∧ e.2.admitted = false := by
    intro e he
    simpa using List.mem_filter.mp he
  obtain ⟨⟨m, v⟩, pick, rfl⟩ := Option.map_eq_some_iff.mp h
  rcases Option.or_eq_some_iff.mp pick with empty | ⟨full, first⟩
  · obtain ⟨mem, adm⟩ := waits (List.mem_of_find?_eq_some empty)
    exact ⟨v, mem, adm, .inl (by simpa using List.find?_some empty)⟩
  · obtain ⟨mem, adm⟩ := waits (List.mem_of_head? first)
    refine ⟨v, mem, adm, .inr fun e he hadm => ?_⟩
    have := List.find?_eq_none.mp full e (List.mem_filter.mpr ⟨he, by simp [hadm]⟩)
    simpa using this

/-- What admission makes of the launch that is next. -/
theorem exec_launchAdmission (h : s.nextAdmit = some n) :
    exec .launchAdmission s = .next (
      if (s.launch n).blocks = 0 then (s.updLaunch n (fun x => { x with admitted := true })).retireLaunch n
      else if (s.launch n).img.cls = 0 then s.admitC n else s.updLaunch n (fun x => { x with admitted := true })) := by
  show execLaunchAdmission s = _
  simp only [execLaunchAdmission, h]
  split
  · rfl
  · split <;> rfl

/-- A launch of class C that the package could never hold has its blocks retired without running. -/
theorem admitC_never (h : s.packageHolds (s.launch n).img < (s.launch n).blocks) :
    s.admitC n = (s.updLaunch n (fun x => { x with admitted := true, next := (s.launch n).blocks })).unrunAll n (s.launch n).blocks :=
  if_pos h

/-- A launch of class C waits while a launch has a block to place. -/
theorem admitC_behind (h : (s.launch n).blocks ≤ s.packageHolds (s.launch n).img) (hd : s.nextDispatch ≠ none) : s.admitC n = s := by
  have busy : s.nextDispatch.isNone = false := Option.isNone_eq_false_iff.mpr (Option.isSome_iff_ne_none.mpr hd)
  simp only [State.admitC, Nat.not_lt.mpr h, busy, if_false, Bool.false_eq_true]

/-- Else all its blocks are dispatched, when they have room at once. -/
theorem admitC_free (h : (s.launch n).blocks ≤ s.packageHolds (s.launch n).img) (hd : s.nextDispatch = none) :
    (∀ t, s.reserveC n (s.launch n).blocks = some t →
      s.admitC n = t.updLaunch n (fun v => { v with admitted := true, next := (s.launch n).blocks }))
    ∧ (s.reserveC n (s.launch n).blocks = none → s.admitC n = s) := by
  constructor
  · intro t room
    simp only [State.admitC, Nat.not_lt.mpr h, hd, room, if_false, Option.isNone_none, if_true]
  · intro room
    simp only [State.admitC, Nat.not_lt.mpr h, hd, room, if_false, Option.isNone_none, if_true]

/-! ### The next block of the launch that is first (R39, R71) -/

theorem exec_blockDispatch (h : s.nextDispatch = some n) : exec (.blockDispatch n) s = .next (s.tryDispatch n) :=
  if_pos h

theorem tryDispatch_preferred {gs : List Nat} (hp : s.preferred (s.launch n) (s.launch n).next = some gs)
    (hf : s.firstFit n gs = some k) : s.tryDispatch n = s.dispatchNext n k := by
  simp only [State.tryDispatch, hp, Option.getD_some, hf]

theorem tryDispatch_waits {gs : List Nat} (hp : s.preferred (s.launch n) (s.launch n).next = some gs)
    (hf : s.firstFit n gs = none) (he : (s.launch n).affExpired = false) :
    s.tryDispatch n = s.updLaunch n (fun v => { v with affSince := some (v.affSince.getD (s.cycles s.lowestDie)) }) := by
  simp only [State.tryDispatch, hp, Option.getD_some, hf, he, Option.isSome_some, Bool.not_false, Bool.and_self, if_true]

/-- A block that prefers no cluster, or has waited for those it prefers: the first cluster on which it fits. -/
theorem tryDispatch_any (hf : s.firstFit n ((s.preferred (s.launch n) (s.launch n).next).getD []) = none)
    (hw : s.preferred (s.launch n) (s.launch n).next = none ∨ (s.launch n).affExpired = true) :
    (∀ k, s.firstFit n s.clustersPresent = some k → s.tryDispatch n = s.dispatchNext n k)
    ∧ (s.firstFit n s.clustersPresent = none → s.tryDispatch n = s.noRoom n) := by
  have done : ((s.preferred (s.launch n) (s.launch n).next).isSome && !(s.launch n).affExpired) = false := by
    rcases hw with e | e <;> simp [e]
  constructor
  · intro k room
    simp only [State.tryDispatch, hf, done, room, Bool.false_eq_true, if_false]
  · intro room
    simp only [State.tryDispatch, hf, done, room, Bool.false_eq_true, if_false]

theorem noRoom_reserved (h : ∃ e ∈ (s.dropFenced n).clusters, e.2.reserved = some n) : s.noRoom n = s.dropFenced n := by
  unfold State.noRoom
  exact if_pos (by simpa using h)

/-- A block that no present cluster could hold retires without running (R71). -/
theorem noRoom_never (h : ∀ e ∈ (s.dropFenced n).clusters, e.2.reserved ≠ some n)
    (hz : ∀ k ∈ (s.dropFenced n).clustersPresent, (s.dropFenced n).clusterHolds k (s.launch n).img = 0) :
    s.noRoom n = ((s.dropFenced n).retireUnrun n (s.launch n).next).updLaunch n
      (fun v => { v with next := v.next + 1, affSince := none, affExpired := false }) := by
  unfold State.noRoom
  exact (if_neg (by simpa using h)).trans (if_pos (by simpa using hz))

/-- For a block that some cluster could hold, the lowest that only waves keep from it is reserved (R71). -/
theorem noRoom_reserves (h : ∀ e ∈ (s.dropFenced n).clusters, e.2.reserved ≠ some n)
    (hz : ∃ k ∈ (s.dropFenced n).clustersPresent, (s.dropFenced n).clusterHolds k (s.launch n).img ≠ 0)
    (hk : (s.dropFenced n).clustersPresent.find? (fun k => (s.dropFenced n).fits k n false && ((s.dropFenced n).cl k).reserved.isNone)
      = some k) : s.noRoom n = (s.dropFenced n).updCl k (fun c => { c with reserved := some n }) := by
  unfold State.noRoom
  refine (if_neg (by simpa using h)).trans ((if_neg (by simpa using hz)).trans ?_)
  rw [hk]

/-! ### What a dispatched block's parties start with (R40) -/

/-- The slot of a cluster that a block takes. -/
def State.openSlot (s : State) (g : Nat) : Nat := ((List.range 64).find? (fun k => !(s.cl g).blocks.has k)).getD 0

theorem scratchPut_keeps (b : Block) (off : Nat) (xs : List Byte) :
    ((b.scratchPut off xs).lnum, (b.scratchPut off xs).blk, (b.scratchPut off xs).aspace, (b.scratchPut off xs).img)
      = (b.lnum, b.blk, b.aspace, b.img) := rfl

/-- What is counted of the work changes no cluster. -/
theorem cl_withWork (u : State) (w : Work) (g : Nat) : ({ u with work := w } : State).cl g = u.cl g := rfl

/-- The block that a dispatch enters is the launch's. -/
theorem block_dispatch (s : State) (n blk g : Nat) :
    let y := (s.dispatch n blk g).block g (s.openSlot g)
    y.lnum = n ∧ y.blk = blk ∧ y.aspace = (s.launch n).aspace ∧ y.img = (s.launch n).img := by
  have keeps := foldl_keeps (fun x : Block => (x.lnum, x.blk, x.aspace, x.img))
    (fun (x : Block) (d : RingDecl) => x.scratchPut d.desc (ringBytes d)) (fun x d => scratchPut_keeps x d.desc (ringBytes d))
  unfold State.block State.dispatch
  rw [cl_withWork, State.cl_updCl_self, cl_acquire]
  unfold State.openSlot
  simp only [Map.get_put_self, ← Prod.mk.injEq]
  exact keeps _ _

/-- Entries put under different keys stand. -/
theorem find_foldl_put {E V : Type} (key : E → Nat) (val : E → V) (es : List E) (hn : (es.map key).Nodup) (m : Map V) {e : E}
    (he : e ∈ es) : (es.foldl (fun m e => m.put (key e) (val e)) m).find? (key e) = some (val e) := by
  have others : ∀ (r : List E) (m : Map V) (k : Nat), k ∉ r.map key →
      (r.foldl (fun m e => m.put (key e) (val e)) m).find? k = m.find? k := by
    intro r
    induction r with
    | nil => intro m k _; rfl
    | cons x r ih =>
      intro m k hk
      rw [List.map_cons, List.mem_cons, not_or] at hk
      rw [List.foldl_cons, ih _ k hk.2, Map.find?_put_ne _ _ _ _ hk.1]
  induction es generalizing m with
  | nil => cases he
  | cons x r ih =>
    rw [List.map_cons, List.nodup_cons] at hn
    rw [List.foldl_cons]
    rcases List.mem_cons.mp he with rfl | he
    · rw [others r _ _ hn.1, Map.find?_put_self]
    · exact ih hn.2 _ he

/-- The warps of a cluster to which a block is dispatched. -/
theorem warps_dispatch (s : State) (n blk g : Nat) : ∃ (age : Nat → Nat) (now : Nat) (crec : W64),
    ((s.dispatch n blk g).cl g).warps = (s.pickSlots g (s.launch n).img).zipIdx.foldl
      (fun m e => m.put e.1 (warpOf (s.launch n) (s.openSlot g) e.2 (age e.2) now crec)) (s.cl g).warps := by
  unfold State.dispatch
  rw [cl_withWork, State.cl_updCl_self, cl_acquire]
  exact ⟨fun w => (s.acquire g 7).work.age + w, _, _, rfl⟩

/-- A dispatched block's warps, when its slots differ. -/
theorem warp_dispatch (s : State) (n blk g : Nat) (hn : (s.pickSlots g (s.launch n).img).Nodup) {e : Nat × Nat}
    (he : e ∈ (s.pickSlots g (s.launch n).img).zipIdx) : ∃ age now crec,
    (s.dispatch n blk g).warp g e.1 = warpOf (s.launch n) (s.openSlot g) e.2 age now crec := by
  obtain ⟨age, now, crec, warps⟩ := warps_dispatch s n blk g
  refine ⟨age e.2, now, crec, ?_⟩
  unfold State.warp Map.get
  rw [warps, find_foldl_put (fun e : Nat × Nat => e.1) (fun e => warpOf (s.launch n) (s.openSlot g) e.2 (age e.2) now crec) _
    (by rw [List.zipIdx_map_fst]; exact hn) _ he]

/-- A value under its own key in a list of keys. -/
theorem find?_map_self {V : Type} (x : V) {ls : List Nat} {j : Nat} (h : j ∈ ls) : Map.find? (ls.map (fun j => (j, x))) j = some x := by
  induction ls with
  | nil => cases h
  | cons a r ih =>
    rw [List.map_cons, Map.find?]
    by_cases e : a = j
    · rw [if_pos e]
    · rw [if_neg e]
      exact ih ((List.mem_cons.mp h).resolve_left (Ne.symm e))

/-- A lane that a block's threads reach starts live at WARPENT. -/
theorem lane_warpOf (l : Launch) (b w age now : Nat) (crec : W64) {j : Nat} (hj : j < 32) (ht : 32 * w + j < l.img.threads) :
    (warpOf l b w age now crec).lane j = { live := true, pc := l.img.base + BitVec.ofNat 64 l.img.warpEnt } := by
  have mem : j ∈ (List.range 32).filter (fun j => decide (32 * w + j < l.img.threads)) := by simp [hj, ht]
  unfold Warp.lane warpOf Map.get
  dsimp only
  rw [find?_map_self _ mem]

/-- The context of a dispatched block starts at SPINEENT, with the launch's arguments. -/
theorem spine_dispatch (s : State) (n blk g : Nat) (he : (s.launch n).img.spineEnt ≠ 0) {k : Nat} {r : List Nat}
    (open_ : s.openSpines g = k :: r) : ∃ crec, (s.dispatch n blk g).spine g k =
      { blk := s.openSlot g, live := true, pc := (s.launch n).img.base + BitVec.ofNat 64 (s.launch n).img.spineEnt
        s := [(1, (s.launch n).args), (2, crec)] } := by
  unfold State.spine State.dispatch
  rw [cl_withWork, State.cl_updCl_self]
  simp only [he, if_false, open_, List.head?_cons, Map.get_put_self]
  exact ⟨_, rfl⟩

/-- A dispatch leaves every other cluster alone. -/
theorem cl_dispatch_ne (s : State) (n blk : Nat) {g h : Nat} (hn : h ≠ g) : (s.dispatch n blk g).cl h = s.cl h := by
  unfold State.dispatch
  rw [cl_withWork, State.cl_updCl_ne _ _ _ _ hn, cl_acquire]

/-! ### The obligation -/

/-- Settles O43: admission, dispatch, the wait's end, retirement, and what a dispatch gives the block's parties. -/
theorem launchEvents : Obligations.LaunchEvents := by
  intro s n g slot
  refine ⟨nextAdmit_waits, fun next => ?_, fun next => ?_, ?_, ?_, ?_, ?_⟩
  · have admits := exec_launchAdmission next
    refine ⟨fun h0 => ?_, fun h0 hc => ?_, fun h0 hc fits idle => ?_, fun h0 hc fits busy => ?_, fun h0 hc never => ?_⟩
    · exact admits.trans (by rw [if_pos h0])
    · exact admits.trans (by rw [if_neg h0, if_neg hc])
    · rw [if_neg h0, if_pos hc] at admits
      obtain ⟨room, none_⟩ := admitC_free fits idle
      exact ⟨fun t h => admits.trans (congrArg _ (room t h)), fun h => admits.trans (congrArg _ (none_ h))⟩
    · exact admits.trans (by rw [if_neg h0, if_pos hc, admitC_behind fits busy])
    · exact admits.trans (by rw [if_neg h0, if_pos hc, admitC_never never])
  · have tries := exec_blockDispatch next
    refine ⟨fun gs k pref fit => ?_, fun gs pref full wait => ?_, fun full tired => ?_⟩
    · exact tries.trans (congrArg _ (tryDispatch_preferred pref fit))
    · exact tries.trans (congrArg _ (tryDispatch_waits pref full wait))
    · obtain ⟨fit, noFit⟩ := tryDispatch_any full tired
      refine ⟨fun k h => tries.trans (congrArg _ (fit k h)), fun h => ?_⟩
      rw [noFit h] at tries
      refine ⟨fun kept => tries.trans (congrArg _ (noRoom_reserved kept)), fun free => ⟨fun never => ?_, fun k some_ found => ?_⟩⟩
      · exact tries.trans (congrArg _ (noRoom_never free never))
      · exact tries.trans (congrArg _ (noRoom_reserves free some_ found))
  · intro t since due
    show execAffinityWaitExpiry n s = _
    simp only [execAffinityWaitExpiry, since, due, if_true]
  · intro held saved left
    exact if_pos (by simp only [held, saved, left]; decide)
  · intro held adm all
    exact if_pos (by simp only [held, adm, all]; decide)
  · intro blk
    obtain ⟨lnum, number, aspace, img⟩ := block_dispatch s n blk g
    refine ⟨lnum, number, aspace, img, fun nodup e he => ?_, fun hs k r first => ?_, fun h hn => cl_dispatch_ne s n blk hn⟩
    · obtain ⟨age, now, crec, warp⟩ := warp_dispatch s n blk g nodup he
      unfold State.lane
      rw [warp]
      refine ⟨rfl, rfl, fun j hj ht => ?_⟩
      rw [lane_warpOf _ _ _ _ _ _ hj ht]
      exact ⟨rfl, rfl⟩
    · obtain ⟨crec, spine⟩ := spine_dispatch s n blk g hs first
      unfold State.sreg
      rw [spine]
      exact ⟨rfl, rfl, rfl, rfl⟩

end Sys2Proof.Machine
end

section
/-! PROOF. TCOPY, MMA and COLL enter their engines' queues. -/

namespace Sys2Proof.Machine

variable {s u v : State} {i : Instr} {c : Issuer} {o : Ops} {ls : List Nat} {addr : W64} {bytes : List Byte} {ctr : Option Nat}

/-! ### TCOPY (R226) -/

theorem tcopyBody_first (hw : s.waveOf c = none) (hh : (s.cl c.g).copyHeld.find? (fun h => h.isOf c ls) = none)
    (hd : s.tcopyDesc c o (ls.headD 0) ls = .ok (u, addr, bytes)) : tcopyBody s c o ls = tcopyGo u c o ls addr bytes := by
  simp only [tcopyBody, hw, Option.isSome_none, Bool.false_eq_true, if_false, hh, hd]

theorem tcopyBody_held {h : CopyHeld} (hw : s.waveOf c = none)
    (hh : (s.cl c.g).copyHeld.find? (fun h => h.isOf c ls) = some h) : tcopyBody s c o ls = tcopyRetry s c ls h := by
  simp only [tcopyBody, hw, Option.isSome_none, Bool.false_eq_true, if_false, hh]

/-- The places of a group that wait with a command. -/
def CopyHeld.holds (h : CopyHeld) (c : Issuer) (l : Nat) : Bool := decide (c.unit ≠ .lane) || h.who.group.getLsbD l

theorem tcopyRetry_room (h : CopyHeld) (room : (s.cl c.g).copyQ.length < 16) : tcopyRetry s c ls h =
    .again (((s.updCl c.g (fun y => { y with copyHeld := y.copyHeld.filter (· ≠ h) })).tcopySubmit c h.cmd).setEffects c
      (ls.filter (h.holds c))) (ls.filter (fun l => !h.holds c l)) := by
  simp only [tcopyRetry, if_neg (Nat.not_le.mpr room)]
  rfl

theorem tcopyRetry_full (h : CopyHeld) (full : 16 ≤ (s.cl c.g).copyQ.length) : tcopyRetry s c ls h = .again s ls :=
  if_pos full

theorem tcopyEnter_room (q : CopyCmd) (room : (s.cl c.g).copyQ.length < 16) :
    tcopyEnter s c ls q = .go ((s.tcopySubmit c q).setEffects c ls) [] :=
  if_neg (Nat.not_le.mpr room)

theorem tcopyEnter_full (q : CopyCmd) (full : 16 ≤ (s.cl c.g).copyQ.length) : tcopyEnter s c ls q =
    .again (s.updCl c.g (fun y => { y with copyHeld := y.copyHeld ++ [{ who := { c with group := lanesMask ls }, cmd := q }] })) ls :=
  if_pos full

/-- The override that a TCOPY gives for the scratchpad side's base. -/
def State.tcopyOvr (s : State) (c : Issuer) (o : Ops) (ls : List Nat) : Option Nat :=
  if o.ext.toNat / 2 % 2 = 1 then some (lo32 (s.opB c o [] (ls.headD 0) 0 false)).toNat else none

/-- The ring that a TCOPY names. -/
def namedRing (o : Ops) : Option Nat := if bitsN o.ext.toNat 7 1 = 1 then some (bitsN o.ext.toNat 2 5) else none

theorem namedRing_ne_none : namedRing o ≠ none ↔ bitsN o.ext.toNat 7 1 = 1 := by
  unfold namedRing
  split <;> simp_all

/-- Step 3's answer for a descriptor that has been read. -/
def State.tcopyCause (s : State) (c : Issuer) (o : Ops) (ls : List Nat) (bytes : List Byte) : Option Nat :=
  s.tcopyCheck c (parseDesc bytes) (s.tcopyBase c (parseDesc bytes) (s.tcopyOvr c o ls) (namedRing o))

/-- The command of a TCOPY without a ring. -/
def State.tcopyCmd (s : State) (c : Issuer) (o : Ops) (ls : List Nat) (addr : W64) (bytes : List Byte) (ctr : Option Nat) : CopyCmd :=
  { blk := (s.blkOf c).getD 0, desc := bytes, addr := addr, base := s.tcopyOvr c o ls, ctr := ctr
    ctrVa := BitVec.ofNat 64 (parseDesc bytes).ctr, born := s.ticks
    seq := if c.isSeq then some (if c.isCopy then 0 else 1) else none }

theorem tcopyGo_refused {n : Nat} (hc : u.tcopyCause c o ls bytes = some n) :
    tcopyGo u c o ls addr bytes = .fail { code := n, lanes := ls, addr := addr, info := if n = 9 then 0xFFFF else 0 } := by
  unfold State.tcopyCause State.tcopyOvr namedRing at hc
  unfold tcopyGo
  simp only []
  rw [hc]

/-- A descriptor that passes step 3's checks and whose counter is known. -/
structure TcopyPasses (u : State) (c : Issuer) (o : Ops) (ls : List Nat) (bytes : List Byte) (ctr : Option Nat) : Prop where
  fields : u.tcopyCause c o ls bytes = none
  counter : u.tcopyCtr c (parseDesc bytes) ls = .ok ctr

theorem tcopyGo_plain (h : TcopyPasses u c o ls bytes ctr) (hr : namedRing o = none) :
    tcopyGo u c o ls addr bytes = tcopyEnter u c ls (u.tcopyCmd c o ls addr bytes ctr) := by
  obtain ⟨fields, counter⟩ := h
  have hr := mt namedRing_ne_none.mpr (not_not.mpr hr)
  unfold State.tcopyCause State.tcopyOvr namedRing at fields
  unfold tcopyGo
  simp only []
  rw [fields, counter]
  simp only [hr, decide_false, Bool.not_false, if_true]
  rfl

theorem tcopyGo_dir2 (h : TcopyPasses u c o ls bytes ctr) (hr : namedRing o ≠ none) (hd : (parseDesc bytes).dir = 2) :
    tcopyGo u c o ls addr bytes = illegalAt (.tcopy o) ls := by
  obtain ⟨fields, counter⟩ := h
  have hr := namedRing_ne_none.mp hr
  unfold State.tcopyCause State.tcopyOvr namedRing at fields
  unfold tcopyGo
  simp only []
  rw [fields, counter]
  simp only [hr, decide_true, Bool.not_true, Bool.false_eq_true, if_false, if_pos hd]

/-- The transition that a TCOPY asks of its ring. -/
def Desc.ringOp (d : Desc) : RingOp := if d.dir = 0 then .reserve else .take

/-- A RESERVE waits under the ring's number, a TAKE under 32 more (R220). -/
theorem Desc.ringOp_object (d : Desc) (num : Nat) :
    num + (if d.ringOp = .take then 32 else 0) = num + if d.dir = 0 then 0 else 32 := by
  unfold Desc.ringOp
  split <;> rfl

/-- Is every ring that a TCOPY will use well formed, with slots large enough? -/
def State.tcopyRingsOk (s : State) (c : Issuer) (d : Desc) (num : Nat) : Prop :=
  ∀ e ∈ s.tcopyRings c d, ∃ off r, s.ringAt e.1 e.2 num = some (off, r) ∧ r.ok = true ∧ d.span ≤ 64 * r.slotsz

theorem tcopyGo_ring (h : TcopyPasses u c o ls bytes ctr) (hr : namedRing o ≠ none) (hd : (parseDesc bytes).dir ≠ 2)
    (ok : u.tcopyRingsOk c (parseDesc bytes) (bitsN o.ext.toNat 2 5)) {off : Nat} {r : Ring}
    (own : u.ringAt c.g ((u.blkOf c).getD 0) (bitsN o.ext.toNat 2 5) = some (off, r)) :
    (∀ r' slot, r.step (parseDesc bytes).ringOp = .done r' slot → tcopyGo u c o ls addr bytes =
      tcopyEnter (u.updBlock c.g ((u.blkOf c).getD 0) (fun y => y.writeRing off r')) c ls
        { u.tcopyCmd c o ls addr bytes ctr with base := some (r.slotOff slot), ring := some (bitsN o.ext.toNat 2 5) })
    ∧ (∀ code, r.step (parseDesc bytes).ringOp = .waits code → tcopyGo u c o ls addr bytes =
      u.ringWait c ls (bitsN o.ext.toNat 2 5) code (parseDesc bytes).ringOp o) := by
  obtain ⟨fields, counter⟩ := h
  have hr := namedRing_ne_none.mp hr
  unfold State.tcopyCause State.tcopyOvr namedRing at fields
  unfold tcopyGo Desc.ringOp
  simp only []
  rw [fields, counter]
  simp only [hr, decide_true, Bool.not_true, Bool.false_eq_true, if_false, if_neg hd]
  rw [if_neg (c := (u.tcopyRings c (parseDesc bytes)).any _ = true)]
  · simp only [own]
    constructor
    · intro r' slot step
      rw [step]
      rfl
    · intro code step
      rw [step]
  · simp only [List.any_eq_true, not_exists, not_and]
    intro e he
    obtain ⟨off, r, found, good, large⟩ := ok e he
    simp [found, good, large]

/-! ### MMA (R231) -/

/-- The first of the rings of an MMA's operands, as its issue finds it. -/
def State.mmaRingA (s : State) (c : Issuer) (o : Ops) : Option Ring :=
  s.mmaRing c (mmaForm o.ext).ra ((mmaForm o.ext).tileBytes (mmaForm o.ext).ta (mmaForm o.ext).m)
/-- The second of them. -/
def State.mmaRingB (s : State) (c : Issuer) (o : Ops) : Option Ring :=
  s.mmaRing c (mmaForm o.ext).rb ((mmaForm o.ext).tileBytes (mmaForm o.ext).tb (mmaForm o.ext).bRows)

/-- Does each bank of an MMA's tile lie in an allocation? -/
def State.mmaBanks (s : State) (c : Issuer) (o : Ops) : Prop :=
  ∀ k ∈ (mmaForm o.ext).banks, ((s.accView c).allocOf k).isSome = true

theorem mmaBody_ringA (ha : s.mmaRingA c o = none) : mmaBody s c o = .fail (ringFault [0] (mmaForm o.ext).ra) := by
  unfold State.mmaRingA at ha
  simp only [mmaBody, ha]

theorem mmaBody_ringB {ra : Ring} (ha : s.mmaRingA c o = some ra) (hb : s.mmaRingB c o = none) :
    mmaBody s c o = .fail (ringFault [0] (mmaForm o.ext).rb) := by
  unfold State.mmaRingA at ha
  unfold State.mmaRingB at hb
  simp only [mmaBody, ha, hb]

/-- The model's test of the banks. -/
theorem any_isNone_iff_not_mmaBanks :
    (mmaForm o.ext).banks.any (fun k => ((s.accView c).allocOf k).isNone) = true ↔ ¬s.mmaBanks c o := by
  simp [State.mmaBanks, Option.isSome_iff_ne_none]

theorem mmaBody_unallocated {ra rb : Ring} (ha : s.mmaRingA c o = some ra) (hb : s.mmaRingB c o = some rb)
    (hn : ¬s.mmaBanks c o) : mmaBody s c o = .fail
      { code := 10, lanes := [0], info := BitVec.ofNat 64 ((mmaForm o.ext).base + 65536 * (mmaForm o.ext).banks.length) } := by
  unfold State.mmaRingA at ha
  unfold State.mmaRingB at hb
  simp only [mmaBody, ha, hb, if_pos (any_isNone_iff_not_mmaBanks.mpr hn)]

/-- The state once an MMA has taken the slots of its rings. -/
def State.mmaTaken (s : State) (c : Issuer) (o : Ops) : State :=
  match s.ringDo c.g ((s.blkOf c).getD 0) (mmaForm o.ext).ra .take with
  | some (t, _) => ((t.ringDo c.g ((s.blkOf c).getD 0) (mmaForm o.ext).rb .take).map (·.1)).getD t
  | none => s

theorem mmaBody_enters {ra rb : Ring} (ha : s.mmaRingA c o = some ra) (hb : s.mmaRingB c o = some rb)
    (hn : s.mmaBanks c o) (fa : ra.fill ≠ 0) (fb : rb.fill ≠ 0) :
    mmaBody s c o = .go ((if (mmaForm o.ext).rel then s.mmaTaken c o else s).mmaSubmit c
      { blk := (s.blkOf c).getD 0, ext := o.ext, int := o.sub = 1, slotA := ra.slotOff ra.getix, slotB := rb.slotOff rb.getix
        seq := some 1 }) [] := by
  unfold State.mmaRingA at ha
  unfold State.mmaRingB at hb
  have good : ¬(mmaForm o.ext).banks.any (fun k => ((s.accView c).allocOf k).isNone) = true :=
    fun e => any_isNone_iff_not_mmaBanks.mp e hn
  simp only [mmaBody, ha, hb, if_neg good, if_neg fa, if_neg fb]
  rfl

/-! ### COLL (R237) -/

/-- The step and the peer list's address of a COLL whose descriptor has been read. -/
def State.collParsed (s : State) (c : Issuer) (o : Ops) (bytes : List Byte) : Coll × Nat :=
  collDesc c.g (s.aspaceOf c) (bitsN o.ext.toNat 0 2) (bitsN o.ext.toNat 2 3) bytes

/-- The peers that the bytes of a list name. -/
def Coll.peersOf (q : Coll) (lb : List Byte) : List Nat := (List.range q.npart).map (fun k => leNat ((lb.drop (2 * k)).take 2))

/-- The counter word of a COLL descriptor. -/
def collCtrVa (bytes : List Byte) : W64 := BitVec.ofNat 64 (leNat ((bytes.drop 48).take 8))

/-- A step as it enters the collective engine. -/
def State.collStep (v : State) (c : Issuer) (q : Coll) (list : List Nat) (ctr : Option Nat) : Coll :=
  { q with peers := list, ctr := ctr, start := v.cycles (dieOf c.g), born := v.ticks
           blk := (v.blkOf c).map (fun _ => ((v.blockOf c).lnum, (v.blockOf c).blk)) }

/-- A step enters the collective engine under the next number. -/
def State.collEnter (v : State) (q : Coll) : State :=
  { v with eng := { v.eng with colls := v.eng.colls.put v.eng.nextColl q, nextColl := v.eng.nextColl + 1 } }

theorem collBody_read {ds : List (Req × List Piece)} {p : Option W64}
    (hd : s.checkAccess c .read {} [⟨ls.headD 0, s.opA c o (ls.headD 0) true, 64⟩] = .ok ds)
    (hr : s.readPieces [] c.g false (ds.flatMap (·.2)) = (u, bytes, p)) :
    collBody s c o ls = collGo u c ls (s.opA c o (ls.headD 0) true) bytes (bitsN o.ext.toNat 0 2) (bitsN o.ext.toNat 2 3) := by
  simp only [collBody, hd, hr]

/-- A step of well-formed fields, whose peers are `list` with this package at its own rank, and whose pages and counter pass. -/
structure CollPasses (v : State) (c : Issuer) (ls : List Nat) (q : Coll) (bytes : List Byte) (list : List Nat)
    (ctr : Option Nat) : Prop where
  fields : collBad q bytes = false
  small : ∀ k ∈ list, k < 1024
  own : list.getD q.rank 0 = v.pkgId
  pages : v.collPages c (ls.headD 0) q = none
  counter : v.collCtr c (collCtrVa bytes) ls = .ok ctr

theorem collGo_enters {a : W64} {ps : List (Req × List Piece)} {lb : List Byte} {p : Option W64}
    (hal : (u.collParsed c o bytes).2 % 2 = 0)
    (hp : u.checkAccess c .read { al := 2 }
      [⟨ls.headD 0, BitVec.ofNat 64 (u.collParsed c o bytes).2, 2 * (u.collParsed c o bytes).1.npart⟩] = .ok ps)
    (hr : u.readPieces [] c.g false (ps.flatMap (·.2)) = (v, lb, p))
    (h : CollPasses v c ls (u.collParsed c o bytes).1 bytes ((u.collParsed c o bytes).1.peersOf lb) ctr) :
    collGo u c ls a bytes (bitsN o.ext.toNat 0 2) (bitsN o.ext.toNat 2 3) =
      .go ((v.collEnter (v.collStep c (u.collParsed c o bytes).1 ((u.collParsed c o bytes).1.peersOf lb) ctr)).setEffects c ls) [] := by
  obtain ⟨fields, small, own, pages, counter⟩ := h
  have fits : ((u.collParsed c o bytes).1.peersOf lb).any (fun k => decide (1024 ≤ k)) = false := by
    simpa using small
  unfold State.collParsed at *
  unfold Coll.peersOf at fits own
  unfold collCtrVa at counter
  unfold collGo
  simp only []
  rw [fields, if_neg Bool.false_ne_true, if_neg (not_not.mpr hal), hp]
  simp only [hr]
  rw [fits, own, pages, counter]
  simp only [ne_eq, not_true_eq_false, decide_false, Bool.or_self, Bool.false_eq_true, if_false]
  rfl

/-! ### The obligation -/

/-- R26 lets every place wait for a ring. -/
theorem ringIllegal_eq_nil {code : Nat} : s.ringIllegal c ls code = [] ↔ ∀ l ∈ ls, s.waitLegal c l code none = true := by
  simp [State.ringIllegal]

/-- A command enters its engine's queue when the queue has room, and is held by its places when not. -/
theorem tcopyEnter_outcomes {q : CopyCmd} (h : Plain s (.tcopy o) o ls)
    (hb : tcopyBody s s.cur o ls = tcopyEnter v s.cur ls q) :
    ((v.cl s.cur.g).copyQ.length < 16 → Does s (.tcopy o) o ls ((v.tcopySubmit s.cur q).setEffects s.cur ls) [])
    ∧ (16 ≤ (v.cl s.cur.g).copyQ.length → DoesBut s (.tcopy o) o ls
      (v.updCl s.cur.g (fun y => { y with copyHeld := y.copyHeld ++ [{ who := { s.cur with group := lanesMask ls }, cmd := q }] })) ls) :=
  ⟨fun room => does_of_go h rfl (hb.trans (tcopyEnter_room q room)),
    fun full => doesBut_of_again h rfl (hb.trans (tcopyEnter_full q full))⟩

/-- Settles O33: each operation by what its body comes to. -/
theorem engineCommands : Obligations.EngineCommands := by
  intro s i o ls h wave
  refine ⟨?_, ?_, ?_, ?_⟩
  · rintro rfl first u addr bytes read
    have body := tcopyBody_first (o := o) wave first read
    refine ⟨fun n bad => raises_of_fail h rfl (body.trans (tcopyGo_refused bad)), fun ctr good counter => ?_⟩
    have passes : TcopyPasses u s.cur o ls bytes ctr := ⟨good, counter⟩
    refine ⟨fun unnamed => tcopyEnter_outcomes h (body.trans (tcopyGo_plain passes unnamed)),
      fun named bulk => raises_of_fail h rfl (body.trans (tcopyGo_dir2 passes named bulk)), fun named other rings off r found => ?_⟩
    obtain ⟨done, waits⟩ := tcopyGo_ring (addr := addr) passes named other rings found
    refine ⟨fun r' slot step => tcopyEnter_outcomes h (body.trans (done r' slot step)), fun code step legal => ?_⟩
    rw [← Desc.ringOp_object]
    exact does_of_go h rfl (body.trans ((waits code step).trans (ringWait_legal _ (ringIllegal_eq_nil.mpr legal))))
  · rintro rfl held same
    have body := tcopyBody_held (o := o) wave same
    exact ⟨fun room => doesBut_of_again h rfl (body.trans (tcopyRetry_room held room)),
      fun full => doesBut_of_again h rfl (body.trans (tcopyRetry_full held full))⟩
  · rintro rfl
    exact ⟨fun ra rb ha hb banks fa fb => does_of_go h rfl (mmaBody_enters ha hb banks fa fb),
      fun ha => raises_of_fail h rfl (mmaBody_ringA ha), fun ra ha hb => raises_of_fail h rfl (mmaBody_ringB ha hb),
      fun ra rb ha hb bad => raises_of_fail h rfl (mmaBody_unallocated ha hb bad)⟩
  · rintro rfl ds u bytes p1 ps v lb p2 ctr hd hr q peers fields even hp hl list small own pages counter
    exact does_of_go h rfl ((collBody_read hd hr).trans
      (collGo_enters even hp hl ⟨fields, small, own, pages, counter⟩))

end Sys2Proof.Machine
end

section
/-! PROOF. How a command that ends or stops moves its queue. -/

namespace Sys2Proof.Machine

variable {s t u : State} {q : Nat} {y z : Queue}

/-! ### Changes of one queue -/

/-- One queue becomes another; the other queues and the clusters stand. -/
structure QueueBecomes (s t : State) (q : Nat) (y : Queue) : Prop where
  self : t.queue q = y
  others : OtherQueues s t q
  clusters : t.clusters = s.clusters

theorem QueueBecomes.trans (h : QueueBecomes s t q y) (k : QueueBecomes t u q z) : QueueBecomes s u q z :=
  ⟨k.self, fun j n => (k.others j n).trans (h.others j n), k.clusters.trans h.clusters⟩

theorem queueBecomes_updQueue (s : State) (q : Nat) (f : Queue → Queue) : QueueBecomes s (s.updQueue q f) q (f (s.queue q)) :=
  ⟨State.queue_updQueue_self s q f, fun j n => State.queue_updQueue_ne s q j f n, rfl⟩

/-- What keeps every queue and the clusters leaves a queue what it has become. -/
theorem QueueBecomes.keeps (h : QueueBecomes s t q y) (k : SameParties t u) : QueueBecomes s u q y := by
  obtain ⟨clusters, -, queues, -⟩ := k
  have same : ∀ j, u.queue j = t.queue j := fun j => by unfold State.queue; rw [queues]
  exact ⟨(same q).trans h.self, fun j n => (same j).trans (h.others j n), clusters.trans h.clusters⟩

theorem QueueBecomes.refl (s : State) (q : Nat) : QueueBecomes s s q (s.queue q) := ⟨rfl, fun _ _ => rfl, rfl⟩

/-- The end of a processor's fence changes registers of the package alone. -/
theorem sameParties_fenceCp (s : State) (p : Nat) : SameParties s (s.fenceCp p) := by
  unfold State.fenceCp
  split
  · exact ⟨rfl, rfl, rfl, rfl⟩
  · exact .refl s

/-- A new HEAD stands in the queue and in its descriptor (R31). -/
theorem queueBecomes_setHead (s : State) (q h : Nat) : QueueBecomes s (s.setHead q h) q { s.queue q with head := h } :=
  (queueBecomes_updQueue s q (fun x => { x with head := h })).keeps (kept_sameParties.physSetWord _ _ _)

/-- HEAD becomes the position consumed (R31, log 16). -/
theorem queueBecomes_headBack (s : State) (q : Nat) :
    QueueBecomes s (s.headBack q) q { s.queue q with head := (s.queue q).ringHead } := by
  unfold State.headBack
  simp only []
  split
  next same =>
    rw [same]
    exact .refl s q
  next => exact queueBecomes_setHead s q _

/-- A queue that does not drain stays as it is at a check for its drain. -/
theorem drainCheck_running (h : (s.queue q).stat ≠ 3) : s.drainCheck q = s := by
  unfold State.drainCheck
  simp [h]

/-- A draining command queue with no command under way is disabled (R367). -/
theorem queueBecomes_drainCheck (draining : (s.queue q).stat = 3) (type : (s.queue q).type = 1) (idle : (s.queue q).busy = false) :
    QueueBecomes s (s.drainCheck q) q { s.queue q with stat := 0 } := by
  have done : s.drained q = true := by simp [State.drained, type, idle]
  unfold State.drainCheck
  rw [if_pos (by simp [draining, done])]
  exact queueBecomes_updQueue s q _

/-- A check for a drain changes no other queue and no cluster. -/
theorem queueBecomes_anyDrainCheck (s : State) (q : Nat) : QueueBecomes s (s.drainCheck q) q ((s.drainCheck q).queue q) := by
  unfold State.drainCheck
  split
  · exact ⟨rfl, (queueBecomes_updQueue s q _).others, rfl⟩
  · exact .refl s q

/-! ### The end of a command (R31, R33) -/

/-- A queue past a command of n words: its stream and HEAD have moved, and nothing is under way. -/
def Queue.past (x : Queue) (n : Nat) : Queue := { x.advance n with busy := false, head := (x.advance n).ringHead }

/-- The state in which a command has moved its queue on, before what its drain and its processor's fence make of it. -/
def State.movedOn (s : State) (q n : Nat) : State := (s.updQueue q (fun x => { x.advance n with busy := false })).headBack q

theorem cmdDone_eq (s : State) (q n : Nat) : ∃ p, s.cmdDone q n = ((s.movedOn q n).drainCheck q).fenceCp p := ⟨_, rfl⟩

theorem queueBecomes_movedOn (s : State) (q n : Nat) : QueueBecomes s (s.movedOn q n) q ((s.queue q).past n) := by
  have moved := queueBecomes_updQueue s q (fun x => { x.advance n with busy := false })
  have back := queueBecomes_headBack (s.updQueue q (fun x => { x.advance n with busy := false })) q
  rw [moved.self] at back
  exact moved.trans back

/-- The end of a command changes no other queue and no cluster. -/
theorem others_cmdDone (s : State) (q n : Nat) : OtherQueues s (s.cmdDone q n) q ∧ (s.cmdDone q n).clusters = s.clusters := by
  obtain ⟨p, e⟩ := cmdDone_eq s q n
  have done := (queueBecomes_movedOn s q n).trans (queueBecomes_anyDrainCheck (s.movedOn q n) q)
  rw [e]
  have fenced := done.keeps (sameParties_fenceCp _ p)
  exact ⟨fenced.others, fenced.clusters⟩

/-- A command ends in a queue that does not drain. -/
theorem queue_cmdDone_running (n : Nat) (h : (s.queue q).stat ≠ 3) : (s.cmdDone q n).queue q = (s.queue q).past n := by
  obtain ⟨p, e⟩ := cmdDone_eq s q n
  have moved := queueBecomes_movedOn s q n
  have stays : (s.movedOn q n).drainCheck q = s.movedOn q n := drainCheck_running (by rw [moved.self]; exact h)
  rw [e, stays]
  exact (moved.keeps (sameParties_fenceCp _ p)).self

/-- The last command of a draining command queue ends. -/
theorem queue_cmdDone_draining (n : Nat) (draining : (s.queue q).stat = 3) (type : (s.queue q).type = 1) :
    (s.cmdDone q n).queue q = { (s.queue q).past n with stat := 0 } := by
  obtain ⟨p, e⟩ := cmdDone_eq s q n
  have moved := queueBecomes_movedOn s q n
  have drain := queueBecomes_drainCheck (s := s.movedOn q n) (q := q) (by rw [moved.self]; exact draining)
    (by rw [moved.self]; exact type) (by rw [moved.self]; rfl)
  rw [moved.self] at drain
  rw [e]
  exact (drain.keeps (sameParties_fenceCp _ p)).self

/-! ### The stop of a command (R36) -/

/-- A stopped queue with a code and an address; a draining one is disabled (R36, R367). -/
def Queue.stopped (x : Queue) (code : Nat) (addr : W64) : Queue :=
  { x with stat := if x.stat = 3 then 0 else 2, errCode := code, errAddr := addr, busy := code = 6 && x.busy }

theorem queueBecomes_stopQueue (s : State) (q code : Nat) (addr : W64) :
    QueueBecomes s (s.stopQueue q code addr) q ((s.queue q).stopped code addr) :=
  (queueBecomes_updQueue s q (fun x => x.stopped code addr)).keeps
    (((kept_sameParties.physSetWord _ _ _).trans (kept_sameParties.physWrite _ _ _ _)).trans (sendMsi_frame _ _).1)

/-- A command's stop keeps its words for a clear, and ends a fence of its processor that waits for it. -/
theorem queueBecomes_cmdStop (s : State) (q code : Nat) : QueueBecomes s (s.cmdStop q code) q
    ({ s.queue q with stopLen := (s.queue q).cmdLen }.stopped code (s.queue q).cmdAddr) := by
  have len := queueBecomes_updQueue s q (fun x => { x with stopLen := x.cmdLen })
  have stop := queueBecomes_stopQueue (s.updQueue q (fun x => { x with stopLen := x.cmdLen })) q code (s.queue q).cmdAddr
  rw [len.self] at stop
  exact (len.trans stop).keeps (sameParties_fenceCp _ _)

/-! ### The obligation -/

/-- Settles O38: the queue after a command's end and after its stop. -/
theorem commandsMove : Obligations.CommandsMove := by
  intro s q n code x t u
  have stop := queueBecomes_cmdStop s q code
  obtain ⟨others, clusters⟩ := others_cmdDone s q n
  refine ⟨fun _ => ⟨queue_cmdDone_running n, queue_cmdDone_draining n, fun other => ?_⟩, others, stop.others, clusters, stop.clusters⟩
  exact stop.self.trans (by simp [Queue.stopped, other, x])

end Sys2Proof.Machine
end

section
/-! PROOF. What a command does that its queue takes, passes over or refuses; the constructs of the command language. -/

namespace Sys2Proof.Machine

variable {s u : State} {h : W64} {ws : List W64} {i : Instr} {body : State → Nat → State} {len flags args q : Nat}

/-! ### Commands of the table (R33, R34) -/

/-- A command of a LEN, FLAGS and ARG, with its effect. -/
def IsCommand (i : Instr) (h : W64) (len flags args : Nat) (body : State → Nat → State) : Prop :=
  ∀ s, exec i s = .next (s.command h len flags args body)

/-- A command that its queue takes comes to its effect. -/
theorem IsCommand.taken (c : IsCommand i h len flags args body) (t : TakesCmd s h len flags args) :
    exec i s = .next (body s s.cur.slot) :=
  (c s).trans (congrArg Host.Outcome.next (command_taken t body))

theorem IsCommand.ends {n : Nat} (c : IsCommand i h len flags args body) (t : TakesCmd s h len flags args)
    (e : body s s.cur.slot = u.cmdDone s.cur.slot n) : CmdEnds s i u n :=
  (c.taken t).trans (congrArg Host.Outcome.next e)

theorem IsCommand.stops {code : Nat} (c : IsCommand i h len flags args body) (t : TakesCmd s h len flags args)
    (e : body s s.cur.slot = u.cmdStop s.cur.slot code) : CmdStops s i u code :=
  (c.taken t).trans (congrArg Host.Outcome.next e)

/-- In a skipped body a command is only passed over. -/
theorem IsCommand.skipped (c : IsCommand i h len flags args body) {n : Nest} {r : List Nest} {d : Nat}
    (nest : (s.queue s.cur.slot).nest = n :: r) (skips : n.skips = some d) :
    exec i s = .next (s.skipCmd s.cur.slot h n r d) := by
  refine (c s).trans (congrArg Host.Outcome.next ?_)
  simp only [State.command, nest, skips]

/-- A header with another LEN, or with a FLAGS or ARG beyond the command's, stops the queue with code 1. -/
theorem IsCommand.refused (c : IsCommand i h len flags args body)
    (opened : ∀ n r, (s.queue s.cur.slot).nest = n :: r → n.skips = none)
    (bad : cmdLen h ≠ len ∨ flags < cmdFlags h ∨ args < cmdArg h) : CmdStops s i s 1 := by
  have refuses : (decide (cmdLen h ≠ len) || decide (flags < cmdFlags h) || decide (args < cmdArg h)) = true := by
    simpa [or_assoc] using bad
  refine (c s).trans (congrArg Host.Outcome.next ?_)
  simp only [State.command, refuses, if_true]
  cases nest : (s.queue s.cur.slot).nest with
  | nil => rfl
  | cons n r => simp only [opened n r nest]

/-- Every row of the table is a command of its LEN, FLAGS and ARG. -/
theorem isCommand_table : ∀ e ∈ commandTable h ws, ∃ body, IsCommand e.1 h e.2.1 e.2.2.1 e.2.2.2 body := by
  simp only [commandTable, List.forall_mem_cons, List.not_mem_nil, false_imp_iff, implies_true, and_true]
  exact ⟨⟨_, fun _ => rfl⟩, ⟨_, fun _ => rfl⟩, ⟨_, fun _ => rfl⟩, ⟨_, fun _ => rfl⟩, ⟨_, fun _ => rfl⟩, ⟨_, fun _ => rfl⟩,
    ⟨_, fun _ => rfl⟩, ⟨_, fun _ => rfl⟩, ⟨_, fun _ => rfl⟩, ⟨_, fun _ => rfl⟩, ⟨_, fun _ => rfl⟩, ⟨_, fun _ => rfl⟩,
    ⟨_, fun _ => rfl⟩, ⟨_, fun _ => rfl⟩⟩

/-! ### The word that LOOP and IF read -/

theorem cmdWord_misaligned {va : W64} (k : State → W64 → State) (bad : va.toNat % 8 ≠ 0) : s.cmdWord q va k = s.cmdStop q 5 := by
  simp only [State.cmdWord, bad, ne_eq, not_false_eq_true, if_true]

theorem cmdWord_read {va : W64} {b : List Byte} {p : Bool} (k : State → W64 → State) (al : va.toNat % 8 = 0)
    (read : s.rd (s.queue q).aspace va 8 none = (u, .ok (b, p))) : s.cmdWord q va k = k u (BitVec.ofNat 64 (leNat b)) := by
  simp only [State.cmdWord, al, read, ne_eq, not_true_eq_false, if_false]

/-! ### What opens a construct (R34) -/

/-- LOOP of a word that is read. -/
theorem exec_cLoop_read {b : List Byte} {p : Bool} (t : TakesCmd s h 2 0 0) (room : ¬8 ≤ nestDepth (s.queue s.cur.slot).nest)
    (al : (operand ws 0).toNat % 8 = 0)
    (read : s.rd (s.queue s.cur.slot).aspace (operand ws 0) 8 none = (u, .ok (b, p))) :
    let n := BitVec.ofNat 64 (leNat b)
    exec (.cLoop h ws) s = .next (u.openNest s.cur.slot 2
      (if n = 0 then .skipLoop 0 else .loop ((u.queue s.cur.slot).after 2) n.toNat)) :=
  (IsCommand.taken (fun _ => rfl) t).trans (congrArg Host.Outcome.next ((if_neg room).trans (cmdWord_read _ al read)))

/-- IF of a word that is read. -/
theorem exec_cIf_read {b : List Byte} {p : Bool} (t : TakesCmd s h 3 0 5) (room : ¬8 ≤ nestDepth (s.queue s.cur.slot).nest)
    (al : (operand ws 0).toNat % 8 = 0)
    (read : s.rd (s.queue s.cur.slot).aspace (operand ws 0) 8 none = (u, .ok (b, p))) :
    exec (.cIf h ws) s = .next (u.openNest s.cur.slot 3
      (if ifHolds (cmdArg h) (BitVec.ofNat 64 (leNat b)) (operand ws 1) then .ifBody else .skipIf 0)) :=
  (IsCommand.taken (fun _ => rfl) t).trans (congrArg Host.Outcome.next ((if_neg room).trans (cmdWord_read _ al read)))

/-- CALLSTREAM: its address, then the depth, then the stream. -/
theorem callstream_outcomes (t : TakesCmd s h 2 0 0) :
    let q := s.cur.slot
    let x := s.queue q
    let va := operand ws 0
    (va.toNat % 8 ≠ 0 → CmdStops s (.cCallstream h ws) s 5)
    ∧ (va.toNat % 8 = 0 → 5 ≤ x.streams.length → CmdStops s (.cCallstream h ws) s 2)
    ∧ (va.toNat % 8 = 0 → x.streams.length < 5 → CmdEnds s (.cCallstream h ws)
        (s.updQueue q (fun y => { y.advance 2 with streams := { base := some va } :: (y.advance 2).streams })) 0) :=
  ⟨fun bad => IsCommand.stops (fun _ => rfl) t (if_pos bad),
    fun al deep => IsCommand.stops (fun _ => rfl) t ((if_neg (not_not_intro al)).trans (if_pos deep)),
    fun al room => IsCommand.ends (fun _ => rfl) t ((if_neg (not_not_intro al)).trans (if_neg (Nat.not_le.mpr room)))⟩

/-! ### What goes back in a construct or ends it (R34) -/

/-- A change of a queue is what it makes of that queue. -/
theorem updQueue_congr {f g : Queue → Queue} (e : f (s.queue q) = g (s.queue q)) : s.updQueue q f = s.updQueue q g := by
  unfold State.updQueue
  rw [e]

/-- ENDLOOP with a turn left goes back to the body. -/
theorem endloop_again {a n : Nat} {st : Stream} {ts : List Stream} {r : List Nest} (t : TakesCmd s h 1 0 0)
    (streams : (s.queue s.cur.slot).streams = st :: ts) (nest : (s.queue s.cur.slot).nest = .loop a n :: r) (left : 1 < n) :
    CmdEnds s (.cEndloop h ws)
      (s.updQueue s.cur.slot (fun y => { y with streams := { st with nest := .loop a (n - 1) :: r, pos := a } :: ts })) 0 := by
  refine IsCommand.ends (fun _ => rfl) t ?_
  simp only [nest, left, if_true]
  exact congrArg (fun v => State.cmdDone v _ 0) (updQueue_congr (by simp only [Queue.setNest, streams]))

theorem endloop_last {a n : Nat} {r : List Nest} (t : TakesCmd s h 1 0 0)
    (nest : (s.queue s.cur.slot).nest = .loop a n :: r) (last : n ≤ 1) :
    CmdEnds s (.cEndloop h ws) (s.updQueue s.cur.slot (fun y => y.setNest r)) 1 := by
  refine IsCommand.ends (fun _ => rfl) t ?_
  simp only [nest, Nat.not_lt.mpr last, if_false]

theorem else_ends {r : List Nest} (t : TakesCmd s h 1 0 0) (nest : (s.queue s.cur.slot).nest = .ifBody :: r) :
    CmdEnds s (.cElse h ws) (s.updQueue s.cur.slot (fun y => y.setNest (.skipElse 0 :: r))) 1 :=
  IsCommand.ends (fun _ => rfl) t (by simp only [nest])

theorem endif_ends {r : List Nest} (t : TakesCmd s h 1 0 0)
    (nest : (s.queue s.cur.slot).nest = .ifBody :: r ∨ (s.queue s.cur.slot).nest = .elseBody :: r) :
    CmdEnds s (.cEndif h ws) (s.updQueue s.cur.slot (fun y => y.setNest r)) 1 := by
  obtain nest | nest := nest
  · exact IsCommand.ends (fun _ => rfl) t (by simp only [nest])
  · exact IsCommand.ends (fun _ => rfl) t (by simp only [nest])

/-- An end of a construct where none is open stops with code 2. -/
theorem end_without_opening (t : TakesCmd s h 1 0 0) (nest : (s.queue s.cur.slot).nest = []) :
    CmdStops s (.cEndloop h ws) s 2 ∧ CmdStops s (.cElse h ws) s 2 ∧ CmdStops s (.cEndif h ws) s 2 :=
  ⟨IsCommand.stops (fun _ => rfl) t (by simp only [nest]), IsCommand.stops (fun _ => rfl) t (by simp only [nest]),
    IsCommand.stops (fun _ => rfl) t (by simp only [nest])⟩

/-! ### The obligation -/

/-- Settles O40: each command by the queue's open constructs and streams and by the word that it reads. -/
theorem constructs : Obligations.Constructs := by
  intro s h ws q x va deep
  refine ⟨fun t => ?_, fun t => ?_, fun t => ?_, fun e mem => ?_, rfl⟩
  · exact ⟨fun d => IsCommand.stops (fun _ => rfl) t (if_pos d),
      fun d bad => IsCommand.stops (fun _ => rfl) t ((if_neg d).trans (cmdWord_misaligned _ bad)),
      fun d al u b p read => exec_cLoop_read t d al read, callstream_outcomes t⟩
  · exact ⟨fun d => IsCommand.stops (fun _ => rfl) t (if_pos d), fun d al u b p read => exec_cIf_read t d al read⟩
  · exact ⟨fun a n st ts r streams nest left => endloop_again t streams nest left, fun a n r nest last => endloop_last t nest last,
      fun r nest => else_ends t nest, fun r nest => endif_ends t nest, end_without_opening t⟩
  · obtain ⟨body, c⟩ := isCommand_table e mem
    exact ⟨fun n r d nest skips => c.skipped nest skips, fun opened bad => c.refused opened bad⟩

end Sys2Proof.Machine
end

section
/-! PROOF. The plain commands: END, ADDSEQ, WAITSEQ, WRITE, INTR and FENCE. -/

namespace Sys2Proof.Machine

variable {s u : State} {h : W64} {ws : List W64} {q : Nat}

/-! ### The check of a counter's address and number (R34, R41) -/

theorem counterWord_good {va k : W64} (al : va.toNat % 16 = 0) (small : k.toNat < 2 ^ 63) :
    (decide (va.toNat % 16 ≠ 0) || k.getLsbD 63) = false := by
  rw [getLsbD_top]
  simp only [al, ne_eq, not_true_eq_false, decide_false, Bool.false_or, decide_eq_false_iff_not, not_le]
  exact small

theorem counterWord_bad {va k : W64} (bad : va.toNat % 16 ≠ 0 ∨ 2 ^ 63 ≤ k.toNat) :
    (decide (va.toNat % 16 ≠ 0) || k.getLsbD 63) = true := by
  rw [getLsbD_top]
  simpa using bad

/-! ### END -/

theorem end_outcomes (t : TakesCmd s h 1 0 0) :
    let q := s.cur.slot
    let x := s.queue q
    (∀ a t r, x.streams = a :: t :: r → CmdEnds s (.cEnd h ws) (s.updQueue q (fun y => { y with streams := t :: r })) 0)
    ∧ (x.streams.length ≤ 1 → CmdEnds s (.cEnd h ws) s 1) := by
  refine ⟨fun a b r streams => IsCommand.ends (fun _ => rfl) t (by simp only [streams]), fun one => IsCommand.ends (fun _ => rfl) t ?_⟩
  cases streams : (s.queue s.cur.slot).streams with
  | nil => simp only []
  | cons a r =>
    cases r with
    | nil => simp only []
    | cons b r => simp [streams] at one

/-! ### ADDSEQ -/

/-- ADDSEQ: the check of its words, the translation, and the class of the page. -/
theorem addseq_outcomes (t : TakesCmd s h 3 1 0) :
    let q := s.cur.slot
    let x := s.queue q
    let va := operand ws 0
    let k := operand ws 1
    (va.toNat % 16 = 0 → k.toNat < 2 ^ 63 →
      (∀ u v b r, s.unitXlate x.aspace va .write none = (u, .fail v b r) → exec (.cAddseq h ws) s = .next (u.cmdFault q v b r))
      ∧ ∀ u pa cls, s.unitXlate x.aspace va .write none = (u, .ok (pa, cls)) →
        (cls = 3 → CmdEnds s (.cAddseq h ws) (u.ctrAdvance pa k.toNat (cmdFlags h = 1) [queueThread q]) 3)
        ∧ (cls ≠ 3 → CmdStops s (.cAddseq h ws) u 5))
    ∧ (va.toNat % 16 ≠ 0 ∨ 2 ^ 63 ≤ k.toNat → CmdStops s (.cAddseq h ws) s 5) := by
  refine ⟨fun al small => ⟨fun u v b r e => ?_, fun u pa cls e => ⟨fun counter => ?_, fun other => ?_⟩⟩, fun bad => ?_⟩
  · refine (IsCommand.taken (fun _ => rfl) t).trans (congrArg Host.Outcome.next ?_)
    simp only [counterWord_good al small, Bool.false_eq_true, if_false, e]
  · refine IsCommand.ends (fun _ => rfl) t ?_
    simp only [counterWord_good al small, Bool.false_eq_true, if_false, e, counter, ne_eq, not_true_eq_false]
  · refine IsCommand.stops (fun _ => rfl) t ?_
    simp only [counterWord_good al small, Bool.false_eq_true, if_false, e, other, ne_eq, not_false_eq_true, if_true]
  · refine IsCommand.stops (fun _ => rfl) t ?_
    simp only [counterWord_bad bad, if_true]

/-! ### WAITSEQ -/

/-- A queue whose WAITSEQ is over. -/
def State.waitseqOver (s : State) (q : Nat) : State := s.updQueue q (fun y => { y with waitseq := none, released := none })

theorem waitseqDone_ends {p : Bool} (admitted : p = false ∨ cmdFlags h = 1) : s.waitseqDone q h p = (s.waitseqOver q).cmdDone q 3 := by
  refine if_neg ?_
  obtain rfl | one := admitted
  · simp
  · simp [one]

theorem waitseqDone_stops {p : Bool} (poison : p = true) (refuses : cmdFlags h = 0) :
    s.waitseqDone q h p = (s.waitseqOver q).cmdStop q 4 :=
  if_pos (by simp [poison, refuses])

/-- A WAITSEQ whose counter has released it. -/
theorem waitseq_released {p : Bool} (t : TakesCmd s h 3 1 0) (released : (s.queue s.cur.slot).released = some p) :
    exec (.cWaitseq h ws) s = .next (s.waitseqDone s.cur.slot h p) :=
  (IsCommand.taken (fun _ => rfl) t).trans (congrArg Host.Outcome.next (by simp only [released]))

/-- A WAITSEQ at an address or with a threshold that no counter has. -/
theorem waitseq_bad (t : TakesCmd s h 3 1 0) (first : (s.queue s.cur.slot).released = none)
    (bad : (operand ws 0).toNat % 16 ≠ 0 ∨ 2 ^ 63 ≤ (operand ws 1).toNat) : CmdStops s (.cWaitseq h ws) s 5 := by
  refine IsCommand.stops (fun _ => rfl) t ?_
  simp only [first, counterWord_bad bad, if_true]

/-- A WAITSEQ that reads its counter, by what its translation comes to. -/
theorem waitseq_first (t : TakesCmd s h 3 1 0) (first : (s.queue s.cur.slot).released = none)
    (al : (operand ws 0).toNat % 16 = 0) (small : (operand ws 1).toNat < 2 ^ 63) :
    let q := s.cur.slot
    let xlate := s.unitXlate (s.queue q).aspace (operand ws 0) .read none
    (∀ u v b r, xlate = (u, .fail v b r) → exec (.cWaitseq h ws) s = .next (u.cmdFault q v b r))
    ∧ ∀ u pa cls, xlate = (u, .ok (pa, cls)) →
      (cls ≠ 3 → CmdStops s (.cWaitseq h ws) u 5)
      ∧ (cls = 3 → ∀ v lo hi, u.ctrWords pa = (v, lo, hi) → exec (.cWaitseq h ws) s = .next
          (if ctrSat lo (operand ws 1).toNat then v.waitseqDone q h (ctrPoison lo) else v.waitseqBlock q pa (operand ws 1).toNat)) := by
  refine ⟨fun u v b r e => ?_, fun u pa cls e => ⟨fun other => ?_, fun counter v lo hi read => ?_⟩⟩
  · refine (IsCommand.taken (fun _ => rfl) t).trans (congrArg Host.Outcome.next ?_)
    simp only [first, counterWord_good al small, Bool.false_eq_true, if_false, e]
  · refine IsCommand.stops (fun _ => rfl) t ?_
    simp only [first, counterWord_good al small, Bool.false_eq_true, if_false, e, other, ne_eq, not_false_eq_true, if_true]
  · refine (IsCommand.taken (fun _ => rfl) t).trans (congrArg Host.Outcome.next ?_)
    simp only [first, counterWord_good al small, Bool.false_eq_true, if_false, e, counter, ne_eq, not_true_eq_false, read]

/-- Poison satisfies every threshold (R41). -/
theorem ctrSat_of_poison {lo thr : Nat} (p : ctrPoison lo = true) : ctrSat lo thr = true := by simp [ctrSat, p]

/-! ### WRITE -/

/-- A WRITE at an address of its alignment: what its translation comes to, and where the bytes go. -/
theorem write_outcomes (t : TakesCmd s h 3 1 0) :
    let q := s.cur.slot
    let va := operand ws 0
    let n := if cmdFlags h = 1 then 8 else 4
    let xlate := s.unitXlate (s.queue q).aspace va .write none
    (va.toNat % n ≠ 0 → CmdStops s (.cWrite h ws) s 5)
    ∧ (va.toNat % n = 0 → (∀ u v b r, xlate = (u, .fail v b r) → exec (.cWrite h ws) s = .next (u.cmdFault q v b r))
      ∧ ∀ u pa cls, xlate = (u, .ok (pa, cls)) →
        let b := leBytes n (operand ws 1).toNat
        (u.isLocal pa = false → CmdEnds s (.cWrite h ws) (u.askWrite [queueThread q] (pa / 128)) 3)
        ∧ (u.isLocal pa = true → isIo pa = true →
          CmdEnds s (.cWrite h ws) (u.ioWrite (paOff pa) n (leNat b) (some (queueThread q))) 3)
        ∧ (u.isLocal pa = true → isIo pa = false → CmdEnds s (.cWrite h ws)
            (u.homeWrite (pa / 128) (byteMask (pa % 128) n) (setLineBytes 0 (pa % 128) b) (cls = 3)) 3)) := by
  intro q va n xlate
  refine ⟨fun bad => IsCommand.stops (fun _ => rfl) t (if_pos bad), fun al => ⟨fun u v b r e => ?_, fun u pa cls e => ?_⟩⟩
  · refine (IsCommand.taken (fun _ => rfl) t).trans (congrArg Host.Outcome.next ((if_neg (not_not_intro al)).trans ?_))
    simp only [xlate, q, va] at e
    simp only [e, q]
  · simp only [xlate, q, va] at e
    refine ⟨fun remote => ?_, fun here io => ?_, fun here mem => ?_⟩
    all_goals refine IsCommand.ends (fun _ => rfl) t ((if_neg (not_not_intro al)).trans ?_)
    · simp only [e, remote, Bool.not_false, if_true, q]
    · simp only [e, here, io, Bool.not_true, Bool.false_eq_true, if_false, if_true, q, n]
    · simp only [e, here, mem, Bool.not_true, Bool.false_eq_true, if_false, n]

/-! ### INTR -/

theorem intr_outcomes (t : TakesCmd s h 2 0 0) :
    (intrBad (operand ws 0) = false → CmdEnds s (.cIntr h ws) (s.sendMsi (operand ws 0)) 2)
    ∧ (intrBad (operand ws 0) = true → CmdStops s (.cIntr h ws) s 1) :=
  ⟨fun good => IsCommand.ends (fun _ => rfl) t (by simp only [good, Bool.false_eq_true, if_false]),
    fun bad => IsCommand.stops (fun _ => rfl) t (by simp only [bad, if_true])⟩

/-! ### FENCE (R286, R317) -/

/-- A value that a map gives for a key, when it is not the default, stands in the map. -/
theorem any_of_get {V : Type} {p : Nat × V → Bool} {n : Nat} {d : V} {m : Map V} (empty : p (n, d) = false)
    (pass : p (n, m.get n d) = true) : m.any p = true := by
  unfold Map.get at pass
  split at pass
  next v found => exact List.any_eq_true.mpr ⟨(n, v), Map.mem_of_find? found, pass⟩
  next => rw [empty] at pass; cases pass

/-- A test that a key's new value passes as its old one did holds of as many entries after the change. -/
theorem any_put {V : Type} {p : Nat × V → Bool} {n : Nat} {x d : V} {m : Map V} (empty : p (n, d) = false)
    (same : p (n, x) = p (n, m.get n d)) : (m.put n x).any p = m.any p := by
  induction m with
  | nil =>
    rw [Map.get_nil, empty] at same
    simp [Map.put, same]
  | cons e r ih =>
    obtain ⟨k, v⟩ := e
    by_cases eq : k = n
    · subst eq
      have this : p (k, x) = p (k, v) := by simpa [Map.get, Map.find?] using same
      simp [Map.put, this]
    · have rest : p (n, x) = p (n, Map.get r n d) := by simpa [Map.get, Map.find?, eq] using same
      simp only [Map.put, Ne.symm eq, if_false, List.any_cons]
      split
      · cases new : p (n, x) with
        | false => simp [new]
        | true => simp [any_of_get empty (rest.symm.trans new)]
      · rw [List.any_cons, ih rest]

/-- A change of a queue that leaves its waiting appends changes no thread's waits (R317). -/
theorem appendWaits_updQueue (s : State) (q : Nat) (f : Queue → Queue) (th : Thread)
    (same : (f (s.queue q)).waiting = (s.queue q).waiting) : (s.updQueue q f).appendWaits th = s.appendWaits th :=
  any_put (d := {}) rfl (by rw [same]; rfl)

/-- A queue whose writes to completion queues and to other packages are not all performed. -/
def State.writesLate (s : State) (q : Nat) : Prop := s.appendWaits (queueThread q) = true ∨ s.tlainBusy (queueThread q) 7 = true

theorem fenceDone_eq_true : s.fenceDone q = true ↔
    ¬s.writesLate q ∧ ((s.queue q).fenceAll = false ∨ (s.queue q).launches = []) := by
  simp [State.fenceDone, State.fenceLate, State.writesLate]

/-- A queue at a FENCE. -/
def State.atFence (s : State) (q : Nat) (h : W64) : State := s.updQueue q (fun y => { y with fenceAll := decide (cmdFlags h = 1) })

theorem fenceDone_atFence : (s.atFence q h).fenceDone q = true ↔
    ¬s.writesLate q ∧ (cmdFlags h ≠ 1 ∨ (s.queue q).launches = []) := by
  have late : (s.atFence q h).writesLate q ↔ s.writesLate q := by
    unfold State.writesLate State.atFence
    rw [appendWaits_updQueue s q (fun y => { y with fenceAll := decide (cmdFlags h = 1) }) _ rfl]
    rfl
  rw [fenceDone_eq_true, late]
  simp [State.atFence]

theorem fence_outcomes (t : TakesCmd s h 1 1 0) :
    let q := s.cur.slot
    (¬s.writesLate q → cmdFlags h = 0 ∨ (s.queue q).launches = [] → CmdEnds s (.cFence h ws) (s.atFence q h) 1)
    ∧ (s.writesLate q ∨ (cmdFlags h = 1 ∧ (s.queue q).launches ≠ []) →
      exec (.cFence h ws) s = .next ((s.atFence q h).updQueue q (fun y => { y with fence := true, busy := false }))) := by
  intro q
  refine ⟨fun performed free => IsCommand.ends (fun _ => rfl) t (if_pos (fenceDone_atFence.mpr ⟨performed, ?_⟩)), fun waits => ?_⟩
  · exact free.imp_left (fun zero => by omega)
  · refine (IsCommand.taken (fun _ => rfl) t).trans (congrArg Host.Outcome.next (if_neg (fun done => ?_)))
    obtain ⟨performed, free⟩ := fenceDone_atFence.mp done
    obtain late | ⟨all, launches⟩ := waits
    · exact performed late
    · exact free.elim (fun other => other all) launches

/-- A FENCE that waited ends when all is performed. -/
theorem exec_fenceCommandComplete (p : BitVec 16) (waits : (s.queue p.toNat).fence = true) (performed : ¬s.writesLate p.toNat)
    (free : (s.queue p.toNat).fenceAll = false ∨ (s.queue p.toNat).launches = []) :
    exec (.fenceCommandComplete p) s = .next ((s.updQueue p.toNat (fun y => { y with fence := false })).cmdDone p.toNat 1) :=
  if_pos (by rw [waits, fenceDone_eq_true.mpr ⟨performed, free⟩]; rfl)

/-! ### The obligation -/

/-- Settles O39: each command by what its address, its translation and what it reads come to. -/
theorem plainCommands : Obligations.PlainCommands := by
  intro s h ws q x va k n late fails
  refine ⟨end_outcomes, fun t => ?_, intr_outcomes, fence_outcomes, exec_fenceCommandComplete⟩
  obtain ⟨add, addBad⟩ := addseq_outcomes (ws := ws) t
  obtain ⟨writeBad, write⟩ := write_outcomes (ws := ws) t
  refine ⟨add, addBad, fun first al small => ?_, waitseq_bad t, fun p released => ?_, writeBad, write⟩
  · obtain ⟨failed, read⟩ := waitseq_first t first al small
    refine ⟨failed, fun u pa cls e => ⟨(read u pa cls e).1, fun counter v lo hi words => ?_⟩⟩
    have run := (read u pa cls e).2 counter v lo hi words
    refine ⟨fun sat admitted => ?_, fun poison refuses => ?_, fun unsat => ?_⟩
    · rw [if_pos sat, waitseqDone_ends admitted] at run
      exact run
    · rw [if_pos (ctrSat_of_poison poison), waitseqDone_stops poison refuses] at run
      exact run
    · rw [if_neg (by rw [unsat]; exact Bool.false_ne_true)] at run
      exact run
  · have run := waitseq_released (ws := ws) t released
    refine ⟨fun admitted => ?_, fun poison refuses => ?_⟩
    · rw [waitseqDone_ends admitted] at run
      exact run
    · rw [waitseqDone_stops poison refuses] at run
      exact run

end Sys2Proof.Machine
end

section
/-! PROOF. Task records pulled, waves formed, and what releases the waiters of a counter. -/

namespace Sys2Proof.Machine

variable {s u w : State} {g q : Nat} {t : Task} {b : List Byte}

/-! ### Pulls (R44) -/

/-- The state in which a gatherer reads the record that it pulls. -/
def State.turned (s : State) (g q : Nat) : State := (s.acquire g 7).updCl g (fun c => { c with nextQueue := q + 1 })

/-- A turn of a gatherer that reads a record passes it to its checks. -/
theorem exec_taskRecordPull {p : Bool} (may : s.mayPull g = true) (next : s.nextPull g = some q)
    (read : (s.turned g q).rd (s.queue q).aspace ((s.queue q).slotAddr (s.queue q).pull) 128 (some g) = (u, .ok (b, p))) :
    exec (.taskRecordPull g) s = .next (u.pullRecord g
      { recTask q (s.queue q).pull ((s.queue q).slotAddr (s.queue q).pull) b with g := g } b) := by
  have from_ : s.pullFrom g q = u.pullRecord g
      { recTask q (s.queue q).pull ((s.queue q).slotAddr (s.queue q).pull) b with g := g } b := by
    unfold State.pullFrom
    unfold State.turned at read
    simp only [read]
  show execTaskRecordPull g s = _
  simp only [execTaskRecordPull, may, if_true, next, from_]

theorem pullRecord_field {k : Nat} (bad : recCheck t b = some k) (other : k ≠ 4) :
    u.pullRecord g t b = u.pullFail g t k 0 0xFFFF := by
  unfold State.pullRecord
  split
  next four => exact absurd (Option.some.inj (bad.symm.trans four)) other
  next j _ found => rw [Option.some.inj (found.symm.trans bad)]
  next passes => exact absurd (bad.symm.trans passes) (by simp)

theorem pullRecord_budget (bad : recCheck t b = some 4) :
    u.pullRecord g t b = u.pullFail g t 4 t.entry (Config.openInfo u.ticks 0) := by
  unfold State.pullRecord
  simp only [bad]

/-- A record whose fields pass, by what the header of its entry comes to. -/
theorem pullRecord_header {info : W64} (good : recCheck t b = none)
    (header : u.entryCheck g (u.queue t.queue).aspace t = (w, .ok (some info))) :
    u.pullRecord g t b = w.pullFail g t 4 t.entry info := by
  unfold State.pullRecord
  simp only [good, header]

/-- A record whose fields and header pass, by what its counters come to. -/
theorem pullRecord_waits (good : recCheck t b = none)
    (header : u.entryCheck g (u.queue t.queue).aspace t = (w, .ok none)) :
    (∀ y, w.waitAddrs g (u.queue t.queue).aspace (recWaits b) = (y, .ok none) →
      u.pullRecord g t b = y.pullFail g t 9 0 0xFFFF)
    ∧ ∀ y ws, w.waitAddrs g (u.queue t.queue).aspace (recWaits b) = (y, .ok (some ws)) →
      u.pullRecord g t b = (y.pulled t.queue).judgeTask g t ws := by
  refine ⟨fun y e => ?_, fun y ws e => ?_⟩
  · unfold State.pullRecord
    simp only [good, header, e]
  · unfold State.pullRecord
    simp only [good, header, e]

/-- A task that waits for nothing is ready. -/
theorem judgeTask_nil (s : State) (g : Nat) (t : Task) : s.judgeTask g t [] = s.taskReady g t := rfl

/-- The outcomes of a pull, by the record's checks in their order (log 42). -/
theorem pull_outcomes {p : Bool} (may : s.mayPull g = true) (next : s.nextPull g = some q)
    (read : (s.turned g q).rd (s.queue q).aspace ((s.queue q).slotAddr (s.queue q).pull) 128 (some g) = (u, .ok (b, p))) :
    let x := s.queue q
    let t := { recTask q x.pull (x.slotAddr x.pull) b with g := g }
    (∀ k, recCheck t b = some k → k ≠ 4 → exec (.taskRecordPull g) s = .next (u.pullFail g t k 0 0xFFFF))
    ∧ (recCheck t b = some 4 → exec (.taskRecordPull g) s = .next (u.pullFail g t 4 t.entry (Config.openInfo u.ticks 0)))
    ∧ (recCheck t b = none → ∀ w,
      (∀ info, u.entryCheck g (u.queue q).aspace t = (w, .ok (some info)) →
        exec (.taskRecordPull g) s = .next (w.pullFail g t 4 t.entry info))
      ∧ (u.entryCheck g (u.queue q).aspace t = (w, .ok none) →
        (recWaits b = [] → exec (.taskRecordPull g) s = .next ((w.pulled q).taskReady g t))
        ∧ (∀ y, w.waitAddrs g (u.queue q).aspace (recWaits b) = (y, .ok none) →
          exec (.taskRecordPull g) s = .next (y.pullFail g t 9 0 0xFFFF))
        ∧ ∀ y ws, w.waitAddrs g (u.queue q).aspace (recWaits b) = (y, .ok (some ws)) →
          exec (.taskRecordPull g) s = .next ((y.pulled q).judgeTask g t ws))) := by
  intro x t
  have run := exec_taskRecordPull may next read
  refine ⟨fun k bad other => ?_, fun bad => ?_, fun good w => ⟨fun info header => ?_, fun header => ⟨fun none_ => ?_, ?_, ?_⟩⟩⟩
  · exact run.trans (congrArg _ (pullRecord_field bad other))
  · exact run.trans (congrArg _ (pullRecord_budget bad))
  · exact run.trans (congrArg _ (pullRecord_header good header))
  · refine run.trans (congrArg _ (((pullRecord_waits good header).2 w [] ?_).trans (judgeTask_nil _ g t)))
    rw [none_]
    rfl
  · exact fun y e => run.trans (congrArg _ ((pullRecord_waits good header).1 y e))
  · exact fun y ws e => run.trans (congrArg _ ((pullRecord_waits good header).2 y ws e))

/-! ### The tasks of a wave (R45) -/

theorem mem_insertBy {α : Type} (le : α → α → Bool) (x y : α) (l : List α) : y ∈ insertBy le x l ↔ y = x ∨ y ∈ l := by
  induction l with
  | nil => simp [insertBy]
  | cons z r ih =>
    unfold insertBy
    split
    · simp only [List.mem_cons, ih]
      exact or_left_comm
    · simp only [List.mem_cons]

/-- Sorting keeps the members of a list. -/
theorem mem_sortBy {α : Type} (le : α → α → Bool) (y : α) (l : List α) : y ∈ sortBy le l ↔ y ∈ l := by
  have all : ∀ (l r : List α), y ∈ l.foldl (fun r x => insertBy le x r) r ↔ y ∈ l ∨ y ∈ r := by
    intro l
    induction l with
    | nil => simp
    | cons x r ih =>
      intro acc
      rw [List.foldl_cons, ih, mem_insertBy, List.mem_cons]
      exact or_left_comm.trans or_assoc.symm
  exact (all l []).trans (by simp)

theorem sameWave_iff {a c : Task} : s.sameWave a c = true ↔
    a.entry = c.entry ∧ a.cls = c.cls ∧ a.budget = c.budget ∧ (s.queue a.queue).aspace = (s.queue c.queue).aspace := by
  simp [State.sameWave, and_assoc]

/-- Two tasks that share a wave with a third share a wave. -/
theorem sameWave_of_common {a c d : Task} (ha : s.sameWave d a = true) (hc : s.sameWave d c = true) : s.sameWave a c = true := by
  obtain ⟨entry, cls, budget, space⟩ := sameWave_iff.mp ha
  obtain ⟨entry', cls', budget', space'⟩ := sameWave_iff.mp hc
  exact sameWave_iff.mpr ⟨entry.symm.trans entry', cls.symm.trans cls', budget.symm.trans budget', space.symm.trans space'⟩

/-- A nonempty wave is that of a ready task whose wave may form. -/
theorem waveTasks_of (wave : s.waveTasks g ≠ []) : ∃ d,
    s.waveTasks g = s.waveOfTask (sortBy taskBefore (s.work.ready.get g [])) d ∧ s.waveDue g (s.waveTasks g) = true := by
  unfold State.waveTasks at wave ⊢
  simp only [] at wave ⊢
  split
  next d found =>
    have due := List.find?_some found
    exact ⟨d, rfl, due⟩
  next found =>
    simp only [found] at wave
    exact absurd rfl wave

/-- A wave's tasks are ready tasks of one kind, 32 at most, whose wave may form. -/
theorem waveTasks_facts {r : List Task} (wave : s.waveTasks g = t :: r) :
    r.length < 32 ∧ s.waveDue g (t :: r) = true ∧ ∀ a ∈ t :: r, s.sameWave t a = true ∧ a ∈ s.work.ready.get g [] := by
  obtain ⟨d, all, due⟩ := waveTasks_of (s := s) (g := g) (by rw [wave]; simp)
  rw [wave] at all due
  have member : ∀ a ∈ t :: r, s.sameWave d a = true ∧ a ∈ s.work.ready.get g [] := by
    intro a ha
    rw [all] at ha
    obtain ⟨ready, same⟩ := List.mem_filter.mp (List.mem_of_mem_take ha)
    exact ⟨same, (mem_sortBy _ a _).mp ready⟩
  have short : (t :: r).length ≤ 32 := by
    rw [all]
    exact List.length_take_le _ _
  refine ⟨by simpa using short, due, fun a ha => ⟨?_, (member a ha).2⟩⟩
  exact sameWave_of_common (member t List.mem_cons_self).1 (member a ha).1

theorem exec_waveFormation_none (wave : s.waveTasks g = []) : exec (.waveFormation g) s = .next s := by
  show execWaveFormation g s = _
  unfold execWaveFormation
  rw [wave]

theorem exec_waveFormation {r : List Task} {slot : Nat} (wave : s.waveTasks g = t :: r) (free : s.freeSlot g = some slot)
    (here : s.clPresent g = true) (open_ : (s.cl g).reserved = none)
    (room : s.waveKib g + t.budget ≤ 64 * s.waveGranules g) :
    exec (.waveFormation g) s = .next (s.startWave g slot t (t :: r)) := by
  show execWaveFormation g s = _
  unfold execWaveFormation
  simp only [wave, free, here, open_, room, Option.isNone_none, Bool.and_self, decide_true, if_true]

/-- An entry of a list by its place. -/
theorem find?_zipIdx {α : Type} (f : α → Lane) {l : List α} {n : Nat} {e : α × Nat} (h : e ∈ l.zipIdx n) :
    Map.find? ((l.zipIdx n).map (fun e => (e.2, f e.1))) e.2 = some (f e.1) := by
  induction l generalizing n with
  | nil => simp at h
  | cons a r ih =>
    rw [List.zipIdx_cons, List.mem_cons] at h
    rw [List.zipIdx_cons, List.map_cons, Map.find?]
    obtain rfl | rest := h
    · simp
    · have above : n + 1 ≤ e.2 := List.le_snd_of_mem_zipIdx rest
      rw [if_neg (by omega)]
      exact ih rest

/-- A wave that starts fills its slot's lanes in ascending identifier, and changes no other cluster. -/
theorem startWave_lanes (s : State) (g slot : Nat) (t : Task) (ts : List Task) :
    (∀ h, h ≠ g → (s.startWave g slot t ts).cl h = s.cl h)
    ∧ ∀ e ∈ (sortBy (fun (a b : Task) => decide (a.id ≤ b.id)) ts).zipIdx, (s.startWave g slot t ts).lane g slot e.2 = taskLane e.1 := by
  refine ⟨fun h ne => ?_, fun e he => ?_⟩
  · unfold State.startWave
    rw [cl_withWork, State.cl_updCl_ne _ _ _ _ ne, State.cl_updCl_ne _ _ _ _ ne, cl_acquire]
  · unfold State.startWave State.lane State.warp Warp.lane
    rw [cl_withWork, State.cl_updCl_self, State.cl_updCl_self]
    simp only [Map.get_put_self]
    unfold Map.get
    rw [find?_zipIdx taskLane he]

/-! ### Polls (R42) -/

/-- Does a die wait for a counter without a watch: a party that waits, or a task of its table? -/
def State.pollsFor (s : State) (pa die : Nat) : Prop :=
  (∃ w ∈ s.xl.waiters, w.pa = pa ∧ w.die = die ∧ w.watched = false)
    ∨ ∃ t ∈ s.work.table.get die [], ∃ w ∈ t.waits, w.1 = pa

theorem exec_seqPoll {v : W64} (polls : s.pollsFor v.toNat q) (unwatched : s.watching v.toNat q = false) :
    (s.pollDue v.toNat q = true → ∀ u lo hi, (s.pollNow v.toNat q).ctrWords v.toNat = (u, lo, hi) →
      exec (.seqPoll q v) s = .next (((u.pollMark v.toNat q lo).seqNotify v.toNat q).tableNotify q))
    ∧ (s.pollDue v.toNat q = false → exec (.seqPoll q v) s = .next s) := by
  have asks : (s.xl.waiters.any (fun w => w.pa = v.toNat && w.die = q && !w.watched)
      || (s.work.table.get q []).any (fun t => t.waits.any (fun w => w.1 = v.toNat))) = true := by
    simpa [State.pollsFor, and_assoc] using polls
  refine ⟨fun due u lo hi read => ?_, fun early => ?_⟩
  · show execSeqPoll q v s = _
    unfold execSeqPoll
    simp only [asks, unwatched, due, read, Bool.not_false, Bool.and_self, if_true]
  · show execSeqPoll q v s = _
    unfold execSeqPoll
    simp only [early, Bool.and_false, Bool.false_eq_true, if_false]

theorem pollDue_iff {pa die : Nat} : s.pollDue pa die = true ↔
    s.xl.polls.get (pollKey pa die) 0 + s.pkgReg 0x114 ≤ s.cycles (if die < 8 then die else s.lowestDie) :=
  decide_eq_true_iff

theorem exec_taskgWrite {v : W64} (h : g < 160) :
    exec (.taskgWrite g v) s = .next (s.setCtl (16 + g) 0x200 (BitVec.ofNat 64 (min v.toNat 64))) := if_pos h

/-! ### The obligation -/

/-- Settles O44: pulls by their checks, waves by their tasks, and the releases of counters. -/
theorem taskEvents : Obligations.TaskEvents := by
  intro s g q v x va d
  refine ⟨fun may next u b p read => pull_outcomes may next read, fun t r => waveTasks_facts, exec_waveFormation_none,
    fun t r slot wave free here open_ room => ?_, rfl, fun polls unwatched => ?_, exec_taskgWrite⟩
  · obtain ⟨others, lanes⟩ := startWave_lanes s g slot t (t :: r)
    exact ⟨_, exec_waveFormation wave free here open_ room, others, lanes⟩
  · obtain ⟨due, early⟩ := exec_seqPoll polls unwatched
    refine ⟨fun passed => due (pollDue_iff.mpr passed), fun before => early ?_⟩
    exact Bool.eq_false_iff.mpr (fun h => absurd (pollDue_iff.mp h) (Nat.not_le.mpr before))

end Sys2Proof.Machine
end

section
/-! PROOF. Lines byte by byte: what a line holds after bytes of it are replaced or merged, and what DRAM holds after a line is
written. -/

namespace Sys2Proof.Machine

/-! ### Bytes of a line (R6) -/

theorem getLsbD_lineByte (x : Line) (k i : Nat) (hi : i < 8) : (lineByte x k).getLsbD i = x.getLsbD (8 * k + i) := by
  simp [lineByte, hi]

theorem lineByte_setLineByte (x : Line) (b : Byte) {k j : Nat} (hk : k < 128) (hj : j < 128) :
    lineByte (setLineByte x k b) j = if j = k then b else lineByte x j := by
  have ones : ∀ n, (255#1024).getLsbD n = decide (n < 8) := fun n => by
    rw [show (255#1024) = BitVec.ofNat 1024 (2 ^ 8 - 1) from rfl, BitVec.getLsbD_ofNat, Nat.testBit_two_pow_sub_one]
    simp only [Bool.and_eq_right_iff_imp, decide_eq_true_eq]
    omega
  apply BitVec.eq_of_getLsbD_eq
  intro i hi
  rw [getLsbD_lineByte _ _ _ hi]
  unfold setLineByte
  simp only [BitVec.getLsbD_or, BitVec.getLsbD_and, BitVec.getLsbD_not, BitVec.getLsbD_shiftLeft, BitVec.getLsbD_setWidth, ones]
  by_cases same : j = k
  · subst same
    simp [hi, show 8 * j + i < 1024 by omega, show 8 * j + i - 8 * j = i by omega]
    omega
  · rw [if_neg same, getLsbD_lineByte _ _ _ hi]
    by_cases below : 8 * j + i < 8 * k
    · simp [below, show 8 * j + i < 1024 by omega]
    · have far : ¬8 * j + i - 8 * k < 8 := by omega
      simp [below, far, show 8 * j + i < 1024 by omega, BitVec.getLsbD_of_ge b _ (Nat.not_lt.mp far)]

theorem lineByte_setLineBytes (x : Line) (l : List Byte) {o j : Nat} (fits : o + l.length ≤ 128) (hj : j < 128) :
    lineByte (setLineBytes x o l) j = if o ≤ j ∧ j < o + l.length then l.getD (j - o) 0 else lineByte x j := by
  induction l generalizing x o with
  | nil => simp [setLineBytes]
  | cons b r ih =>
    simp only [List.length_cons] at fits ⊢
    rw [setLineBytes, ih _ (by omega), lineByte_setLineByte x b (by omega) hj]
    by_cases first : j = o
    · subst first
      simp
    · rw [if_neg first]
      by_cases inside : o + 1 ≤ j ∧ j < o + 1 + r.length
      · rw [if_pos inside, if_pos (by omega), show j - o = j - (o + 1) + 1 by omega, List.getD_cons_succ]
      · rw [if_neg inside, if_neg (by omega)]

theorem getLsbD_byteMask (o n : Nat) {j : Nat} (hj : j < 128) : (byteMask o n).getLsbD j = decide (o ≤ j ∧ j < o + n) := by
  unfold byteMask
  induction n with
  | zero => simp
  | succ n ih =>
    rw [List.range_succ, List.foldl_append, List.foldl_cons, List.foldl_nil, BitVec.getLsbD_or, ih, BitVec.getLsbD_shiftLeft]
    rw [Bool.eq_iff_iff]
    simp [hj]
    omega

theorem lineByte_mergeLine (old new : Line) (m : BitVec 128) {j : Nat} (hj : j < 128) :
    lineByte (mergeLine old new m) j = if m.getLsbD j then lineByte new j else lineByte old j := by
  have upTo : ∀ n, n ≤ 128 →
      lineByte ((List.range n).foldl (fun x k => if m.getLsbD k then setLineByte x k (lineByte new k) else x) old) j
        = if j < n ∧ m.getLsbD j then lineByte new j else lineByte old j := by
    intro n
    induction n with
    | zero => simp
    | succ n ih =>
      intro hn
      rw [List.range_succ, List.foldl_append, List.foldl_cons, List.foldl_nil]
      have before := ih (by omega)
      by_cases set : m.getLsbD n = true
      · rw [if_pos set, lineByte_setLineByte _ _ (by omega) hj, before]
        by_cases same : j = n
        · subst same
          simp [set]
        · simp [same, show j < n + 1 ↔ j < n by omega]
      · rw [if_neg set, before]
        by_cases same : j = n
        · subst same
          simp [set]
        · simp [show j < n + 1 ↔ j < n by omega]
  have all := upTo 128 (Nat.le_refl _)
  simp only [hj, true_and] at all
  exact all

/-! ### Bytes of DRAM (R278) -/

@[simp] theorem length_getAll (m : Bytes) (a n : Nat) : (Bytes.getAll m a n).length = n := by
  induction n generalizing a with
  | zero => rfl
  | succ n ih => simp [Bytes.getAll, ih]

theorem getElem_getAll (m : Bytes) {a n k : Nat} (h : k < (Bytes.getAll m a n).length) : (Bytes.getAll m a n)[k] = m.get (a + k) := by
  induction n generalizing a k with
  | zero => simp at h
  | succ n ih =>
    cases k with
    | zero => rfl
    | succ k =>
      simp only [Bytes.getAll, List.getElem_cons_succ]
      rw [ih, show a + 1 + k = a + (k + 1) by omega]

@[simp] theorem length_lineBytes (x : Line) (k n : Nat) : (lineBytes x k n).length = n := by simp [lineBytes]

theorem getElem_lineBytes (x : Line) {k n j : Nat} (h : j < (lineBytes x k n).length) : (lineBytes x k n)[j] = lineByte x (k + j) := by
  simp [lineBytes]

theorem lineByte_dram (m : Memory) (line : Nat) {k : Nat} (hk : k < 128) : lineByte (m.dram line) k = Bytes.get m.bytes (line * 128 + k) := by
  unfold Memory.dram
  rw [lineByte_setLineBytes _ _ (by simp) hk, if_pos (by simpa using hk), Nat.sub_zero,
    List.getD_eq_getElem _ _ (by simpa using hk), getElem_getAll]

/-- The bytes of a line as DRAM holds them. -/
theorem lineBytes_dram (m : Memory) {pa n : Nat} (fits : pa % 128 + n ≤ 128) :
    lineBytes (m.dram (pa / 128)) (pa % 128) n = Bytes.getAll m.bytes pa n := by
  apply List.ext_getElem (by simp)
  intro j hj _
  rw [length_lineBytes] at hj
  rw [getElem_lineBytes, getElem_getAll, lineByte_dram m _ (by omega), show pa / 128 * 128 + (pa % 128 + j) = pa + j by omega]

/-- A line written to DRAM, byte by byte. -/
theorem get_setDram {m : Memory} (wf : m.wf = true) (line a : Nat) (x : Line) :
    Bytes.get (m.setDram line x).bytes a = if a / 128 = line then lineByte x (a % 128) else Bytes.get m.bytes a := by
  unfold Memory.setDram
  simp only []
  by_cases inside : a / 128 = line
  · have place : a = line * 128 + a % 128 := by omega
    have within : a % 128 < (lineBytes x 0 128).length := by rw [length_lineBytes]; omega
    have put := Bytes.get_putAll_in wf (line * 128) (a % 128) (lineBytes x 0 128) within
    rw [if_pos inside]
    conv_lhs => rw [place]
    rw [put, List.getD_eq_getElem _ _ within, getElem_lineBytes, Nat.zero_add]
  · rw [if_neg inside, Bytes.get_putAll_out _ _ _ _ (by rw [length_lineBytes]; omega)]

/-! ### Sidebands -/

theorem sideOf_setSide_self (m : Memory) (line : Nat) (x : Side) : (m.setSide line x).sideOf line = x := by
  show Map.get (if x = {} then m.side.del line else m.side.put line x) line {} = x
  by_cases empty : x = {}
  · rw [if_pos empty, Map.get, Map.find?_del_self, empty]
  · rw [if_neg empty, Map.get_put_self]

end Sys2Proof.Machine
end


section
/-! PROOF. Writes, atomics and counter advances on a memory-side line that nothing else concerns. -/

namespace Sys2Proof.Machine

variable {s t : State} {line : Nat} {m : Msg} {mask : BitVec 128} {x : Line}

/-! ### Messages about a line of which none is in flight (R280) -/

theorem takeMsg_eq_none {p : Msg → Bool} {l : List Msg} (h : ∀ m ∈ l, p m = false) : takeMsg p l = none := by
  induction l with
  | nil => rfl
  | cons a r ih =>
    rw [List.forall_mem_cons] at h
    simp [takeMsg, h.1, ih h.2]

theorem takeMsg_append {p : Msg → Bool} {l : List Msg} (h : ∀ a ∈ l, p a = false) (hm : p m = true) :
    takeMsg p (l ++ [m]) = some (m, l) := by
  induction l with
  | nil => simp [takeMsg, hm]
  | cons a r ih =>
    rw [List.forall_mem_cons] at h
    simp [takeMsg, h.1, ih h.2]

/-- Messages about other lines cannot be delivered at a line. -/
theorem deliverable_ne (h : m.line ≠ line) : s.deliverable line m = false := by simp [State.deliverable, h]

theorem settleFuel_of_no_message (f : Nat) (h : ∀ m ∈ s.mem.msgs, m.line ≠ line) : State.settleFuel f s line = s := by
  cases f with
  | zero => rfl
  | succ f => simp only [State.settleFuel, takeMsg_eq_none (fun a ha => deliverable_ne (h a ha))]

/-- A message about a line where nothing is in flight is delivered alone. -/
theorem settle_send (h : ∀ a ∈ s.mem.msgs, a.line ≠ line) (hl : m.line = line) (free : s.mem.txns.has line = false)
    (after : ∀ a ∈ (s.deliver m).mem.msgs, a.line ≠ line) : (s.send m).settle line = s.deliver m := by
  have one : takeMsg ((s.send m).deliverable line) (s.send m).mem.msgs = some (m, s.mem.msgs) :=
    takeMsg_append (fun a ha => deliverable_ne (h a ha)) (by simp [State.deliverable, hl, State.send, State.updMem, free])
  have fuel : (s.send m).settle line = State.settleFuel (63 + 64 * (s.send m).mem.msgs.length + 1) (s.send m) line := by
    unfold State.settle
    rw [show 64 + 64 * (s.send m).mem.msgs.length = 63 + 64 * (s.send m).mem.msgs.length + 1 by omega]
  rw [fuel, State.settleFuel, one]
  exact settleFuel_of_no_message _ after

/-! ### A home request of a quiet memory-side line (R282) -/

/-- A line in state X of this package, with nothing in flight about it and no error in it. -/
structure Still (s : State) (line : Nat) : Prop where
  quiet : Quiet s line
  here : s.isLocal (line * 128) = true
  side : (s.mem.sideOf line).st = .X

@[simp] theorem mem_sillTouch (s : State) (l a : Nat) : (s.sillTouch l a).mem = s.mem := by
  unfold State.sillTouch
  simp only []
  split
  · split <;> rfl
  · rfl

@[simp] theorem ctl_sillTouch (s : State) (l a : Nat) : (s.sillTouch l a).ctl = s.ctl := by
  unfold State.sillTouch
  simp only []
  split
  · split <;> rfl
  · rfl

@[simp] theorem mem_counterWatch (s : State) (l : Nat) (mask : BitVec 128) : (s.counterWatch l mask).mem = s.mem := by
  unfold State.counterWatch
  simp only []
  split <;> rfl

theorem Still.of_eq (h : Still s line) (mem : t.mem = s.mem) (ctl : t.ctl = s.ctl) : Still t line := by
  obtain ⟨⟨msgs, txns, upsets⟩, here, side⟩ := h
  have pkg : t.isLocal (line * 128) = s.isLocal (line * 128) := by
    unfold State.isLocal State.pkgId State.pkgReg State.ctlOf
    rw [ctl]
  exact ⟨⟨by rwa [mem], by rwa [mem], by rwa [mem]⟩, pkg.trans here, by rwa [mem]⟩

theorem Still.free (h : Still s line) : s.mem.txns.has line = false := by
  obtain ⟨-, txns, -⟩ := h.quiet
  simp [Map.has, txns]

/-- The sill finds no error in a line that has none. -/
theorem findError_none (h : s.mem.upsets.find? line = none) : s.updMem (fun m => m.findError line) = s :=
  State.updMem_congr (g := id) (by simp [Memory.findError, h])

theorem Still.settle (h : Still s line) : s.settle line = s := settleFuel_of_no_message _ h.quiet.1

/-- The home carries out at once a request that needs no probe. -/
theorem deliver_home (h : Still s m.line) (req : m.kind.isReq = true) (alone : ∀ t : State, t.probes (s.mem.sideOf m.line) m = []) :
    s.deliver m = (s.sillTouch m.line m.slot).homeFinish { req := m } := by
  have touched : (s.sillTouch m.line m.slot).updMem (fun x => x.findError m.line) = s.sillTouch m.line m.slot :=
    findError_none (by simpa using h.quiet.2.2)
  simp only [State.deliver, req, h.here, Bool.true_or, Bool.not_true, Bool.and_false, Bool.false_eq_true, if_false, if_true,
    State.homeStart, touched, mem_sillTouch, alone, List.map_nil]

/-- Memory after a home write of a memory-side line: its bytes in DRAM and its sideband. -/
def Memory.wroteX (m : Memory) (line : Nat) (mask : BitVec 128) (x : Line) : Memory :=
  ((({ m with txns := m.txns.del line }).setDram line (mergeLine (m.dram line) x mask)).clearResv line).setSide line
    { st := .X, poison := (m.sideOf line).poison && decide (mask ≠ fullMask) }

theorem msgs_wroteX (m : Memory) (line : Nat) (mask : BitVec 128) (x : Line) : (m.wroteX line mask x).msgs = m.msgs := by
  simp only [Memory.wroteX, Memory.setSide, Memory.clearResv, Memory.setDram]

@[simp] theorem mem_updMem (s : State) (f : Memory → Memory) : (s.updMem f).mem = f s.mem := rfl

theorem sideOf_withTxns (m : Memory) (t : Map Txn) (line : Nat) : Memory.sideOf { m with txns := t } line = m.sideOf line := rfl

theorem dram_withTxns (m : Memory) (t : Map Txn) (line : Nat) : Memory.dram { m with txns := t } line = m.dram line := dram_eq rfl line

/-- The end of a home write at a memory-side line. -/
theorem mem_homeFinish_write (h : Still s m.line) (kind : m.kind = .hW) (clean : m.poison = false) :
    (s.homeFinish { req := m }).mem = s.mem.wroteX m.line m.mask m.data := by
  unfold State.homeFinish Memory.wroteX
  simp only [kind, mem_counterWatch, clean, State.putSide, mem_updMem, sideOf_withTxns, dram_withTxns, h.side, decide_true,
    Bool.or_true, Bool.or_false, if_true]
  rfl

/-- A home write of a quiet memory-side line is made in DRAM at once. -/
theorem mem_homeWrite_still (h : Still s line) (ms : Bool) (die : Option Nat) :
    (s.homeWrite line mask x ms false die).mem = s.mem.wroteX line mask x := by
  let m : Msg := { kind := .hW, line := line, slot := homeSide die, data := x, mask := mask, req := if ms then 1 else 0 }
  have done : s.deliver m = (s.sillTouch line (homeSide die)).homeFinish { req := m } :=
    deliver_home (m := m) h rfl (fun t => by simp [State.probes, m, h.side])
  have mem : (s.deliver m).mem = s.mem.wroteX line mask x := by
    rw [done, mem_homeFinish_write (h.of_eq (mem_sillTouch _ _ _) (ctl_sillTouch _ _ _)) rfl rfl, mem_sillTouch]
  have msgs : ∀ a ∈ (s.deliver m).mem.msgs, a.line ≠ line := by
    rw [mem, msgs_wroteX]
    exact h.quiet.1
  have run : s.homeWrite line mask x ms false die = s.deliver m := by
    unfold State.homeWrite
    rw [h.settle]
    exact settle_send h.quiet.1 rfl h.free msgs
  rw [run, mem]

/-! ### What a home write leaves in memory -/

theorem bytes_wroteX (m : Memory) (line : Nat) (mask : BitVec 128) (x : Line) :
    (m.wroteX line mask x).bytes = (({ m with txns := m.txns.del line }).setDram line (mergeLine (m.dram line) x mask)).bytes := by
  simp only [Memory.wroteX, Memory.setSide, Memory.clearResv]

theorem get_wroteX {m : Memory} (wf : m.wf = true) (line a : Nat) (mask : BitVec 128) (x : Line) :
    Bytes.get (m.wroteX line mask x).bytes a
      = if a / 128 = line ∧ mask.getLsbD (a % 128) = true then lineByte x (a % 128) else Bytes.get m.bytes a := by
  rw [bytes_wroteX, get_setDram (m := { m with txns := m.txns.del line }) wf]
  by_cases inside : a / 128 = line
  · rw [if_pos inside, lineByte_mergeLine _ _ _ (by omega), lineByte_dram _ _ (by omega),
      show line * 128 + a % 128 = a by omega]
    simp only [inside, true_and]
  · rw [if_neg inside, if_neg (fun h => inside h.1)]

theorem sideOf_wroteX (m : Memory) (line : Nat) (mask : BitVec 128) (x : Line) : (m.wroteX line mask x).sideOf line
    = { st := .X, poison := (m.sideOf line).poison && decide (mask ≠ fullMask) } := sideOf_setSide_self _ _ _

theorem wf_wroteX {m : Memory} (wf : m.wf = true) (line : Nat) (mask : BitVec 128) (x : Line) : (m.wroteX line mask x).wf = true := by
  unfold Memory.wroteX
  rw [Memory.wf_setSide, Memory.wf_clearResv]
  exact Memory.wf_setDram (m := { m with txns := m.txns.del line }) wf line _

/-- Bytes written within a line. -/
theorem get_wroteX_bytes {m : Memory} (wf : m.wf = true) {pa : Nat} {b : List Byte} (fits : pa % 128 + b.length ≤ 128) (a : Nat) :
    Bytes.get (m.wroteX (pa / 128) (byteMask (pa % 128) b.length) (setLineBytes 0 (pa % 128) b)).bytes a
      = if pa ≤ a ∧ a < pa + b.length then b.getD (a - pa) 0 else Bytes.get m.bytes a := by
  simp only [get_wroteX wf, getLsbD_byteMask _ _ (show a % 128 < 128 by omega), decide_eq_true_iff]
  by_cases inside : pa ≤ a ∧ a < pa + b.length
  · rw [if_pos inside, if_pos (by omega), lineByte_setLineBytes _ _ fits (by omega), if_pos (by omega),
      show a % 128 - pa % 128 = a - pa by omega]
  · rw [if_neg inside, if_neg (by omega)]

/-! ### Reads of a still line (R282) -/

theorem msRead_still (h : Still s line) (die : Option Nat) :
    s.msRead line die = (s.sillTouch line (homeSide die), s.mem.dram line, (s.mem.sideOf line).poison) := by
  have touched : (s.sillTouch line (homeSide die)).updMem (fun m => m.findError line) = s.sillTouch line (homeSide die) :=
    findError_none (by simpa using h.quiet.2.2)
  simp only [State.msRead, h.settle, h.side, if_true, touched, mem_sillTouch]

/-- A home read of a still line ends in a still line, its bytes and sideband as they were. -/
theorem homeRead_still (h : Still s line) (die : Option Nat) :
    (s.homeRead line die).1.mem = { s.mem with txns := s.mem.txns.del line } ∧ Still (s.homeRead line die).1 line := by
  let m : Msg := { kind := .hR, line := line, slot := homeSide die }
  have done : s.deliver m = (s.sillTouch line (homeSide die)).homeFinish { req := m } :=
    deliver_home (m := m) h rfl (fun t => by simp [State.probes, m, h.side])
  have finish : s.deliver m = (s.sillTouch line (homeSide die)).updMem (fun m => { m with txns := m.txns.del line }) := by
    rw [done]
    rfl
  have mem : (s.deliver m).mem = { s.mem with txns := s.mem.txns.del line } := by rw [finish, mem_updMem, mem_sillTouch]
  have run : (s.homeRead line die).1 = s.deliver m := by
    unfold State.homeRead
    rw [h.settle]
    exact settle_send h.quiet.1 rfl h.free (by rw [mem]; exact h.quiet.1)
  have pkg : (s.deliver m).isLocal (line * 128) = s.isLocal (line * 128) := by
    unfold State.isLocal State.pkgId State.pkgReg State.ctlOf
    rw [finish, State.updMem_ctl, ctl_sillTouch]
  obtain ⟨msgs, -, upsets⟩ := h.quiet
  rw [run]
  exact ⟨mem, ⟨by rw [mem]; exact msgs, by rw [mem]; exact Map.find?_del_self _ _, by rw [mem]; exact upsets⟩, pkg.trans h.here,
    by rw [mem]; exact h.side⟩

/-! ### Little-endian numbers (R6) -/

@[simp] theorem length_leBytes (n v : Nat) : (leBytes n v).length = n := by
  induction n generalizing v with
  | zero => rfl
  | succ n ih => simp [leBytes, ih]

theorem leNat_leBytes (n v : Nat) : leNat (leBytes n v) = v % 256 ^ n := by
  induction n generalizing v with
  | zero => simp [leBytes, leNat, Nat.mod_one]
  | succ n ih =>
    rw [leBytes, leNat, ih, BitVec.toNat_ofNat, Nat.pow_succ' (m := 256), Nat.mod_mul (a := 256)]

theorem leNat_lt (l : List Byte) : leNat l < 256 ^ l.length := by
  induction l with
  | nil => simp [leNat]
  | cons b r ih =>
    have := b.isLt
    rw [leNat, List.length_cons, Nat.pow_succ']
    omega

theorem getAll_add (m : Bytes) (a n k : Nat) : Bytes.getAll m a (n + k) = Bytes.getAll m a n ++ Bytes.getAll m (a + n) k := by
  induction n generalizing a with
  | zero => simp [Bytes.getAll]
  | succ n ih => rw [Nat.succ_add, Bytes.getAll, Bytes.getAll, ih, Nat.add_right_comm, Nat.add_assoc, List.cons_append]

/-- Bytes written within a line read back. -/
theorem getAll_wroteX_bytes {m : Memory} (wf : m.wf = true) {pa : Nat} {b : List Byte} (fits : pa % 128 + b.length ≤ 128) :
    Bytes.getAll (m.wroteX (pa / 128) (byteMask (pa % 128) b.length) (setLineBytes 0 (pa % 128) b)).bytes pa b.length = b := by
  apply List.ext_getElem (by simp)
  intro j hj hj'
  rw [getElem_getAll, get_wroteX_bytes wf fits, if_pos (by omega), Nat.add_sub_cancel_left, List.getD_eq_getElem _ _ hj']

/-! ### Stores, atomics and counters -/

theorem mem_storeLine_still (h : Still s line) (g : Nat) (noL1 : Bool) :
    (s.storeLine g 3 line mask x noL1).mem = s.mem.wroteX line mask x :=
  mem_homeWrite_still h true (some (dieOf g))

/-- An atomic at a still line: the old value and poison, and the new value unless the line is poisoned. -/
theorem rmw_still {p : Piece} (h : Still s (p.pa / 128)) (here : s.isLocal p.pa = true) (cls : p.cls = 3)
    (fits : p.pa % 128 + p.n ≤ 128) (who : List Thread) (g : Nat) (f : Nat → Nat) :
    let old := leNat (Bytes.getAll s.mem.bytes p.pa p.n)
    (s.rmw who g p f).2 = (old, (s.mem.sideOf (p.pa / 128)).poison)
    ∧ (s.rmw who g p f).1.mem = if (s.mem.sideOf (p.pa / 128)).poison then s.mem
        else s.mem.wroteX (p.pa / 128) (byteMask (p.pa % 128) p.n) (setLineBytes 0 (p.pa % 128) (leBytes p.n (f old))) := by
  have touched := h.of_eq (mem_sillTouch s (p.pa / 128) (homeSide (some (dieOf g)))) (ctl_sillTouch _ _ _)
  simp only [State.rmw, here, cls, Bool.not_true, Bool.false_eq_true, if_false, if_true, msRead_still h, lineBytes_dram _ fits,
    true_and]
  cases (s.mem.sideOf (p.pa / 128)).poison with
  | true => simp only [if_true, mem_sillTouch]
  | false => simp only [Bool.false_eq_true, if_false, mem_homeWrite_still touched, mem_sillTouch]

/-- Both words of an advanced counter, as R41 gives them. -/
def ctrNext (lo hi k : Nat) (poison : Bool) : Nat × Nat :=
  (min (ctrCount lo + k) (2 ^ 63 - 1) + (if ctrPoison lo || poison then 2 ^ 63 else 0),
    hi / 256 * 256 + hi % 4 + (if bitsN hi 4 1 = 1 || decide (2 ^ 63 - 1 < ctrCount lo + k) then 16 else 0))

theorem ctrWords_still {pa : Nat} (h : Still s (pa / 128)) (here : s.isLocal pa = true) (al : pa % 16 = 0) :
    s.ctrWords pa = ((s.homeRead (pa / 128) none).1, leNat (Bytes.getAll s.mem.bytes pa 8), leNat (Bytes.getAll s.mem.bytes (pa + 8) 8)) := by
  have one : (pa + 16 - 1) / 128 + 1 - pa / 128 = 1 := by omega
  have bytes : (s.homeRead (pa / 128) none).1.mem.bytes = s.mem.bytes := by rw [(homeRead_still h none).1]
  have words := getAll_add s.mem.bytes pa 8 8
  simp only [State.ctrWords, here, if_true, State.physRead, one, List.range_one, List.foldl_cons, List.foldl_nil, Nat.add_zero, bytes]
  rw [words, List.take_left' (by simp), List.drop_left' (by simp)]

theorem physWrite_one {pa : Nat} {b : List Byte} (ne : b ≠ []) (fits : pa % 128 + b.length ≤ 128) (ms : Bool) :
    s.physWrite pa b ms = s.homeWrite (pa / 128) (byteMask (pa % 128) b.length) (setLineBytes 0 (pa % 128) b) ms := by
  have parts : lineParts (b.length / 128 + 2) pa b = [(pa / 128, pa % 128, b)] := by
    rw [lineParts]
    · rw [List.take_of_length_le (by omega), List.drop_of_length_le (by omega), lineParts]
    · exact ne
  simp only [State.physWrite, parts, List.foldl_cons, List.foldl_nil]

/-- A counter's advance at a still line. -/
theorem mem_ctrAdvance_still {pa : Nat} (h : Still s (pa / 128)) (here : s.isLocal pa = true) (al : pa % 16 = 0) (k : Nat)
    (poison : Bool) (who : List Thread) :
    let next := ctrNext (leNat (Bytes.getAll s.mem.bytes pa 8)) (leNat (Bytes.getAll s.mem.bytes (pa + 8) 8)) k poison
    let b := leBytes 8 next.1 ++ leBytes 8 next.2
    (s.ctrAdvance pa k poison who).mem = Memory.wroteX { s.mem with txns := s.mem.txns.del (pa / 128) } (pa / 128)
      (byteMask (pa % 128) b.length) (setLineBytes 0 (pa % 128) b) := by
  intro next b
  obtain ⟨mem, still⟩ := homeRead_still h none
  have len : b.length = 16 := by simp [b]
  have run : s.ctrAdvance pa k poison who = (s.homeRead (pa / 128) none).1.physWrite pa b true := by
    simp only [State.ctrAdvance, here, Bool.not_true, Bool.false_eq_true, if_false, ctrWords_still h here al]
    rfl
  rw [run, physWrite_one (by rw [← List.length_pos_iff]; omega) (by omega), mem_homeWrite_still still, mem]

/-! ### The words of an advanced counter (R41) -/

theorem ctrNext_low {lo hi k : Nat} {poison : Bool} :
    let lo' := (ctrNext lo hi k poison).1
    lo' < 2 ^ 64 ∧ lo' % 2 ^ 63 = min (lo % 2 ^ 63 + k) (2 ^ 63 - 1) ∧ (2 ^ 63 ≤ lo' ↔ 2 ^ 63 ≤ lo ∨ poison = true) := by
  have cond : (ctrPoison lo || poison) = true ↔ 2 ^ 63 ≤ lo ∨ poison = true := by simp [ctrPoison]
  simp only [ctrNext]
  by_cases marked : 2 ^ 63 ≤ lo ∨ poison = true
  · simp only [if_pos (cond.mpr marked), ctrCount, iff_true_right marked]
    omega
  · simp only [if_neg (fun h => marked (cond.mp h)), ctrCount, iff_false_right marked]
    omega

theorem ctrNext_high {lo hi k : Nat} {poison : Bool} (small : hi < 2 ^ 64) :
    let hi' := (ctrNext lo hi k poison).2
    hi' < 2 ^ 64 ∧ (hi'.testBit 4 = true ↔ hi.testBit 4 = true ∨ 2 ^ 63 - 1 < lo % 2 ^ 63 + k)
      ∧ hi' / 256 = hi / 256 ∧ hi' % 4 = hi % 4 := by
  have cond : (decide (bitsN hi 4 1 = 1) || decide (2 ^ 63 - 1 < ctrCount lo + k)) = true
      ↔ hi / 2 ^ 4 % 2 = 1 ∨ 2 ^ 63 - 1 < lo % 2 ^ 63 + k := by
    rw [Bool.or_eq_true, decide_eq_true_iff, decide_eq_true_iff]
    rfl
  simp only [ctrNext, Nat.testBit_eq_decide_div_mod_eq, decide_eq_true_eq]
  by_cases full : hi / 2 ^ 4 % 2 = 1 ∨ 2 ^ 63 - 1 < lo % 2 ^ 63 + k
  · simp only [if_pos (cond.mpr full), iff_true_right full]
    omega
  · simp only [if_neg (fun h => full (cond.mp h)), iff_false_right full]
    omega

/-- The bytes of a counter of which both words have been written. -/
theorem words_of_written {m : Bytes} {pa lo hi : Nat} (hl : lo < 2 ^ 64) (hh : hi < 2 ^ 64)
    (h : Bytes.getAll m pa 16 = leBytes 8 lo ++ leBytes 8 hi) :
    leNat (Bytes.getAll m pa 8) = lo ∧ leNat (Bytes.getAll m (pa + 8) 8) = hi := by
  obtain ⟨low, high⟩ := List.append_inj ((getAll_add m pa 8 8).symm.trans h) (by simp)
  rw [low, high, leNat_leBytes, leNat_leBytes]
  exact ⟨Nat.mod_eq_of_lt hl, Nat.mod_eq_of_lt hh⟩

/-- A counter's advance: both words, and every byte outside. -/
theorem ctrAdvance_still {pa : Nat} (h : Still s (pa / 128)) (wf : s.mem.wf = true) (here : s.isLocal pa = true) (al : pa % 16 = 0)
    (k : Nat) (poison : Bool) (who : List Thread) :
    let t := s.ctrAdvance pa k poison who
    let next := ctrNext (leNat (Bytes.getAll s.mem.bytes pa 8)) (leNat (Bytes.getAll s.mem.bytes (pa + 8) 8)) k poison
    leNat (Bytes.getAll t.mem.bytes pa 8) = next.1 ∧ leNat (Bytes.getAll t.mem.bytes (pa + 8) 8) = next.2
      ∧ ∀ a, a < pa ∨ pa + 16 ≤ a → Bytes.get t.mem.bytes a = Bytes.get s.mem.bytes a := by
  intro t next
  have len : (leBytes 8 next.1 ++ leBytes 8 next.2).length = 16 := by simp
  have fits : pa % 128 + (leBytes 8 next.1 ++ leBytes 8 next.2).length ≤ 128 := by omega
  have mem := mem_ctrAdvance_still h here al k poison who
  have small : ∀ a, leNat (Bytes.getAll s.mem.bytes a 8) < 2 ^ 64 := fun a => by
    have := leNat_lt (Bytes.getAll s.mem.bytes a 8)
    rwa [length_getAll] at this
  have back := getAll_wroteX_bytes (m := { s.mem with txns := s.mem.txns.del (pa / 128) }) wf fits
  rw [← show t.mem = _ from mem, len] at back
  obtain ⟨low, high⟩ := words_of_written ctrNext_low.1 (ctrNext_high (small (pa + 8))).1 back
  refine ⟨low, high, fun a outside => ?_⟩
  rw [show t.mem = _ from mem, get_wroteX_bytes (m := { s.mem with txns := s.mem.txns.del (pa / 128) }) wf fits, if_neg (by omega)]

/-! ### The obligation -/

/-- Settles O19: what each kind of write leaves of a line in X that is still. -/
theorem memorySideWrites : Obligations.MemorySideWrites := by
  intro s line quiet home side wf now
  have still : Still s line := ⟨quiet, home, side⟩
  refine ⟨fun g mask x noL1 => ?_, ?_, ?_⟩
  · have mem := mem_storeLine_still (mask := mask) (x := x) still g noL1
    refine ⟨fun a => ?_, ?_, ?_, ?_⟩
    · simp only [now, mem]
      exact get_wroteX wf line a mask x
    · rw [mem, sideOf_wroteX]
    · rw [mem, sideOf_wroteX]
    · rw [mem]
      exact wf_wroteX wf line mask x
  · rintro who g p f rfl here cls fits r old
    obtain ⟨result, mem⟩ := rmw_still still here cls fits who g f
    have value : r.2.1 = old := congrArg Prod.fst result
    have poison : r.2.2 = (s.mem.sideOf (p.pa / 128)).poison := congrArg Prod.snd result
    refine ⟨value, poison, fun clean a => ?_, fun bad => ?_⟩
    · rw [← poison, clean] at mem
      have put := get_wroteX_bytes wf (b := leBytes p.n (f old)) (by rw [length_leBytes]; exact fits) a
      rw [length_leBytes] at put
      rw [← put]
      exact congrArg (fun m : Memory => Bytes.get m.bytes a) mem
    · rw [← poison, bad, if_pos rfl] at mem
      exact congrArg Memory.bytes mem
  · rintro pa k poison who rfl al here t lo hi lo' hi'
    obtain ⟨low, high, others⟩ := ctrAdvance_still still wf here al k poison who
    have small : ∀ a, leNat (Bytes.getAll s.mem.bytes a 8) < 2 ^ 64 := fun a => by
      have := leNat_lt (Bytes.getAll s.mem.bytes a 8)
      rwa [length_getAll] at this
    obtain ⟨-, count, mark⟩ := ctrNext_low (lo := lo) (hi := hi) (k := k) (poison := poison)
    obtain ⟨-, ovf, top, code⟩ := ctrNext_high (lo := lo) (k := k) (poison := poison) (small (pa + 8))
    rw [show lo' = _ from low, show hi' = _ from high]
    exact ⟨count, mark, ovf, top, code, others⟩

end Sys2Proof.Machine
end

section
/-! PROOF. Decoding undoes encoding: the fields of a word, the major and SUB of an operation, and the words of each length. -/

namespace Sys2Proof.Machine

variable {i : Instr} {o : Ops} {u : CodeUnit} {f : Info}

section
variable (pr : BitVec 1) (m : BitVec 9) (ds cs bs : BitVec 2) (c b a d : BitVec 8) (opc : BitVec 7) (gs : BitVec 1)
  (gp : BitVec 4) (ge sw : BitVec 1) (len : BitVec 2)

/-- The fields of a word that is put together from them, the lowest last. -/
theorem slices_of_append :
    let w := pr ++ m ++ ds ++ cs ++ bs ++ c ++ b ++ a ++ d ++ opc ++ gs ++ gp ++ ge ++ sw ++ len
    w.extractLsb' 0 2 = len ∧ w.extractLsb' 4 4 = gp ∧ w.extractLsb' 9 7 = opc ∧ w.extractLsb' 16 8 = d
      ∧ w.extractLsb' 24 8 = a ∧ w.extractLsb' 32 8 = b ∧ w.extractLsb' 40 8 = c
      ∧ w.extractLsb' 48 2 = bs ∧ w.extractLsb' 50 2 = cs ∧ w.extractLsb' 52 2 = ds ∧ w.extractLsb' 54 9 = m := by
  and_intros
  all_goals
    simp (disch := decide) only [BitVec.extractLsb'_append_eq_of_le, BitVec.extractLsb'_append_eq_of_add_le]
    exact BitVec.extractLsb'_eq_self

/-- Its one-bit fields. -/
theorem bits_of_append :
    let w := pr ++ m ++ ds ++ cs ++ bs ++ c ++ b ++ a ++ d ++ opc ++ gs ++ gp ++ ge ++ sw ++ len
    w.getLsbD 2 = sw.getLsbD 0 ∧ w.getLsbD 3 = ge.getLsbD 0 ∧ w.getLsbD 8 = gs.getLsbD 0 ∧ w.getLsbD 63 = pr.getLsbD 0 := by
  and_intros
  all_goals
    simp only [BitVec.getLsbD_append]
    rfl

end

/-! ### The fields of a word (R75, R76) -/

section
variable (o) (opc : BitVec 7) (pr : Bool) (len : BitVec 2)

theorem slices_encodeFirst :
    let w := encodeFirst opc pr len o
    w.extractLsb' 0 2 = len ∧ w.extractLsb' 4 4 = o.gp ∧ w.extractLsb' 9 7 = opc ∧ w.extractLsb' 16 8 = o.d
      ∧ w.extractLsb' 24 8 = o.a ∧ w.extractLsb' 32 8 = o.b ∧ w.extractLsb' 40 8 = o.c ∧ w.extractLsb' 48 2 = o.bs
      ∧ w.extractLsb' 50 2 = o.cs ∧ w.extractLsb' 52 2 = o.ds ∧ w.extractLsb' 54 9 = o.m :=
  slices_of_append (bit1 pr) o.m o.ds o.cs o.bs o.c o.b o.a o.d opc (bit1 o.gs) o.gp (bit1 o.ge) (bit1 o.sw) len

theorem getLsbD_bit1 (b : Bool) : (bit1 b).getLsbD 0 = b := by simp [bit1]

theorem bits_encodeFirst :
    let w := encodeFirst opc pr len o
    w.getLsbD 2 = o.sw ∧ w.getLsbD 3 = o.ge ∧ w.getLsbD 8 = o.gs ∧ w.getLsbD 63 = pr := by
  have bits := bits_of_append (bit1 pr) o.m o.ds o.cs o.bs o.c o.b o.a o.d opc (bit1 o.gs) o.gp (bit1 o.ge) (bit1 o.sw) len
  simp only [getLsbD_bit1] at bits
  exact bits

theorem len_encodeFirst : (encodeFirst opc pr len o).extractLsb' 0 2 = len := (slices_encodeFirst o opc pr len).1

theorem opcOf_encodeFirst : opcOf (encodeFirst opc pr len o) = opc.toNat := by
  obtain ⟨-, -, major, -⟩ := slices_encodeFirst o opc pr len
  exact congrArg BitVec.toNat major

theorem prOf_encodeFirst : prOf (encodeFirst opc pr len o) = pr := by
  obtain ⟨-, -, -, top⟩ := bits_encodeFirst o opc pr len
  exact top

theorem splitOps_encodeFirst : splitOps o.form (encodeFirst opc pr len o) o.ext = o := by
  obtain ⟨-, hgp, -, hd, ha, hb, hc, hbs, hcs, hds, hm⟩ := slices_encodeFirst o opc pr len
  obtain ⟨hsw, hge, hgs, -⟩ := bits_encodeFirst o opc pr len
  exact (Ops.mk.injEq ..).mpr ⟨rfl, hsw, hge, hgp, hgs, hd, ha, hb, hc, hds, hcs, hbs, hm, rfl⟩

end

/-! ### The words of a value -/

theorem first64_halves (w : W64) : first64 (lo32 w) (hi32 w) = w :=
  (BitVec.extractLsb'_append_extractLsb'_eq_extractLsb' (by rfl)).trans BitVec.extractLsb'_eq_self

theorem first64_imm32 {w : W64} (h : w.toNat < 2 ^ 32) : first64 (lo32 w) 0 = w := by
  have low : (lo32 w).toNat = w.toNat := by simpa [lo32] using h
  apply BitVec.eq_of_toNat_eq
  rw [first64, BitVec.toNat_append, low]
  simp

theorem lenOf_lo32 (w : W64) : lenOf (lo32 w) = (w.extractLsb' 0 2).toNat := by
  unfold lenOf lo32
  rw [BitVec.extractLsb'_extractLsb'_of_le (by decide)]

/-! ### Majors (R86) -/

theorem immOrReg_opc (o : Ops) (f : Info) : (immOrReg o f).opc = f.opc := by
  unfold immOrReg; split <;> rfl

theorem immOrReg_ok (o : Ops) (f : Info) : (immOrReg o f).ok = f.ok := by
  unfold immOrReg; split <;> rfl

theorem opcodeOf_exit (o : Ops) : opcodeOf (.exit o) = 0x07 := congrArg (BitVec.ofNat 7) (immOrReg_opc o _)

theorem opcodeOf_pmovFromr (o : Ops) : opcodeOf (.pmovFromr o) = 0x0C := congrArg (BitVec.ofNat 7) (immOrReg_opc o _)

theorem opcodeOf_redw (o : Ops) : opcodeOf (.redw o) = 0x6D := by
  simp only [opcodeOf, info]
  by_cases peg : o.ds = 3 <;> simp only [peg, if_true, if_false] <;> rfl

/-- The major and SUB of a well-formed operation name it: where operations share a major, the entry's check on SUB tells them
apart. -/
theorem mkInstr_opcodeOf (ho : i.ops = some o) (hf : info u i = some f) (ok : f.ok = true) :
    mkInstr (opcodeOf i).toNat o = some i := by
  cases i with
  | exit => cases ho; rw [opcodeOf_exit]; rfl
  | redw => cases ho; rw [opcodeOf_redw]; rfl
  | pmovFromr =>
    cases ho; cases hf
    simp only [immOrReg_ok, Bool.and_eq_true, decide_eq_true_eq] at ok
    rw [opcodeOf_pmovFromr]
    show some _ = some _
    simp only [ok]
  | iabs =>
    cases ho; cases hf
    simp only [alu1, Bool.and_eq_true, decide_eq_true_eq] at ok
    show some _ = some _
    obtain sub | sub : o.sub = 0 ∨ o.sub = 1 := by omega
    all_goals simp only [sub]
  | ineg =>
    cases ho; cases hf
    simp only [alu1, Bool.and_eq_true, Bool.or_eq_true, decide_eq_true_eq] at ok
    show some _ = some _
    obtain sub | sub := ok.2
    all_goals simp only [sub]
  | jarmSet | jarmAdd | jarmClr | jarmLoad | pmovTor | cmaintClean | cmaintClinv | msrowCopy | msrowZero | barArrive | barWait
  | barSync | barDrop | barRemote | seqwait | seqwaitTry | pegw | pegwG | pegctlArm | pegctlClear | pegctlDisarm
  | qpushRsv | qpushCmt | qpushRsvTry | qpop | qpopRet | qpopTry | accopAlloc | accopZero | accopFree =>
    cases ho; cases hf
    simp only [barInfo, ringInfo, memI, Bool.and_eq_true, decide_eq_true_eq] at ok
    show some _ = some _
    simp only [ok]
  | _ => cases ho <;> rfl

/-! ### What a well-formed operation's entry and form say -/

theorem exists_info_of_wf (h : WellFormed u i = true) : ∃ f, info u i = some f := by
  cases hf : info u i with
  | some f => exact ⟨f, rfl⟩
  | none => simp [WellFormed, hf] at h

/-- The extension of a well-formed operation is nothing but IMM32 in a 96-bit form, and zero in a 64-bit one (R80, R82). -/
theorem ext_of_wf (h : WellFormed u i = true) (ho : i.ops = some o) :
    (o.form = .f64 → o.ext = 0) ∧ (o.form = .f96 → o.ext.toNat < 2 ^ 32) := by
  obtain ⟨f, hf⟩ := exists_info_of_wf h
  simp only [WellFormed, ho, hf, fieldsOk, Bool.and_eq_true] at h
  obtain ⟨-, ⟨-, imm⟩, -⟩ := h
  refine ⟨fun form => ?_, fun form => ?_⟩
  · simpa [immOk, form] using imm
  · simp only [immOk, form, Bool.and_eq_true, decide_eq_true_eq] at imm
    exact imm.1

/-- The first 64 bits and the extension of a well-formed operation name it, whatever stands in PR and LEN. -/
theorem mkInstr_encodeFirst (ho : i.ops = some o) (h : WellFormed u i = true) (pr : Bool) (len : BitVec 2) :
    let w := encodeFirst (opcodeOf i) pr len o
    mkInstr (opcOf w) (splitOps o.form w o.ext) = some i := by
  obtain ⟨f, hf⟩ := exists_info_of_wf h
  intro w
  rw [opcOf_encodeFirst, splitOps_encodeFirst, mkInstr_opcodeOf ho hf (wf_ok h ho hf).1]

/-! ### What decoding does with words of each length (R72, R73) -/

section
variable {w e : W64} {x : W32}

theorem decode_f64 (len : lenOf (lo32 w) = 1) (pr : prOf w = false) : decode u (words64 w) = decodeOne u .f64 w 0 := by
  simp [decode, words64, len, first64_halves, pr]

theorem decode_f96 (len : lenOf (lo32 w) = 2) (pr : prOf w = false) :
    decode u (words64 w ++ [x]) = decodeOne u .f96 w (first64 x 0) := by
  simp [decode, words64, len, first64_halves, pr]

theorem decode_f128 (len : lenOf (lo32 w) = 3) (pr : prOf w = false) :
    decode u (words64 w ++ words64 e) = decodeOne u .f128 w e := by
  simp [decode, words64, len, first64_halves, pr]

theorem decode_pair (len : lenOf (lo32 w) = 3) (pr : prOf w = true) : decode u (words64 w ++ words64 e) = decodePair u w e := by
  simp [decode, words64, len, first64_halves, pr]

end

/-! ### Decoding undoes encoding -/

/-- An operation's first 64 bits and its extension are one operation of its form. -/
theorem decodeOne_encodeFirst (ho : i.ops = some o) (h : WellFormed u i = true) (len : BitVec 2) :
    decodeOne u o.form (encodeFirst (opcodeOf i) false len o) o.ext = .one i o.form.bytes := by
  unfold decodeOne
  rw [mkInstr_encodeFirst ho h]
  simp only [h, if_true]

/-- The words of a well-formed operation decode to it. -/
theorem decode_encode (ho : i.ops = some o) (h : WellFormed u i = true) : decode u (encode i) = .one i o.form.bytes := by
  obtain ⟨noExt, imm⟩ := ext_of_wf h ho
  have one := decodeOne_encodeFirst ho h o.form.len
  have pr := prOf_encodeFirst o (opcodeOf i) false o.form.len
  have len : lenOf (lo32 (encodeFirst (opcodeOf i) false o.form.len o)) = o.form.len.toNat := by
    rw [lenOf_lo32, len_encodeFirst]
  simp only [encode, ho]
  generalize encodeFirst (opcodeOf i) false o.form.len o = w at one pr len
  cases form : o.form with
  | f64 =>
    rw [form] at one len
    rw [decode_f64 len pr, ← noExt form, one]
  | f96 =>
    rw [form] at one len
    rw [decode_f96 len pr, first64_imm32 (imm form), one]
  | f128 =>
    rw [form] at one len
    rw [decode_f128 len pr, one]

/-- A half of a pair is read back from its first 64 bits. -/
theorem mkInstr_half (ho : i.ops = some o) (short : o.form = .f64) (h : WellFormed u i = true) (pr : Bool) (len : BitVec 2) :
    let w := encodeFirst (opcodeOf i) pr len o
    mkInstr (opcOf w) (splitOps .f64 w 0) = some i := by
  have half := mkInstr_encodeFirst ho h pr len
  rwa [(ext_of_wf h ho).1 short, short] at half

/-- Settles O54: the fields of a word are read back, and with them the major and SUB name the operation. -/
theorem encodeDecodes : Obligations.EncodeDecodes := by
  refine ⟨fun _ _ _ ho h => decode_encode ho h, ?_⟩
  intro u i j oi oj fi fj noSeq ho ho' short short' h h' hf hf' pairs pairs' ok
  have first := mkInstr_half ho short h true 3
  have second := mkInstr_half ho' short' h' false 1
  have len : lenOf (lo32 (encodeFirst (opcodeOf i) true 3 oi)) = 3 := by rw [lenOf_lo32, len_encodeFirst]; rfl
  have words : encodePair i j
      = words64 (encodeFirst (opcodeOf i) true 3 oi) ++ words64 (encodeFirst (opcodeOf j) false 1 oj) := by
    simp only [encodePair, ho, ho']
  rw [words, decode_pair len (prOf_encodeFirst ..)]
  simp only [decodePair, first, second, hf, hf', noSeq, len_encodeFirst, prOf_encodeFirst, pairs, pairs', h, h', ok]
  rfl

/-! ### Words of the spec (R72 to R87) -/

/-- Words that an operation well-formed in a unit's code encodes to decode to it there. -/
theorem decodes_of_encode {ws : List W32} (ho : i.ops = some o) (h : WellFormed u i = true) (words : encode i = ws) :
    Decodes u ws i := by
  refine ⟨o.form.bytes, words ▸ decode_encode ho h, fun o' ho' => ?_⟩
  rw [Option.some.inj (ho.symm.trans ho')]

/-- Settles O55: each operation is well formed and encodes to its words; the pair, the illegal word and the pad run decode by
computation. -/
theorem wordsDecode : Obligations.WordsDecode := by
  refine ⟨?_, ?_, ?_, ?_, ?_, ?_, ?_, ?_, ?_, rfl, rfl, rfl⟩
  all_goals exact decodes_of_encode rfl rfl rfl

end Sys2Proof.Machine
end

section
/-! PROOF. Pairs: the results of both halves commit together, the second's writes last. -/

namespace Sys2Proof.Machine

variable {s : State} {c : Issuer} {i j : Instr} {oi oj : Ops} {f h : Alu}

/-- The flags of one result and of another after it. -/
theorem allFlags_append (x y : Map Flags) : allFlags (x ++ y) = allFlags x ||| allFlags y := by
  have acc : ∀ (m : Map Flags) (a : Flags), m.foldl (fun g e => g ||| e.2) a = a ||| allFlags m := by
    intro m
    induction m with
    | nil => simp [allFlags]
    | cons e r ih =>
      intro a
      rw [allFlags, List.foldl_cons, List.foldl_cons, ih, ih (_ ||| _)]
      simp [BitVec.or_assoc]
  rw [allFlags, List.foldl_append, acc y]
  rfl

theorem State.writeAll_append (s : State) (c : Issuer) (xs ys : List PWrite) :
    s.writeAll c (xs ++ ys) = (s.writeAll c xs).writeAll c ys := List.foldl_append

/-- The result of a half of a pair in its active places: nothing when there is none (R85). -/
def halfResult (f : Alu) (s : State) (o : Ops) : Res :=
  match s.active s.cur o with
  | [] => ([], [])
  | _ => f s s.cur o [] (resPlaces s.cur o (s.active s.cur o))

theorem halfResult_eq (f : Alu) (s : State) (o : Ops) :
    halfResult f s o = if s.active s.cur o = [] then ([], []) else f s s.cur o [] (resPlaces s.cur o (s.active s.cur o)) := by
  unfold halfResult
  cases s.active s.cur o <;> simp

theorem fits_halfResult (hc : s.cur.runs) (hf : aluOf i = some f) (o : Ops) : ∀ x ∈ (halfResult f s o).1, x.fits s.cur := by
  rw [halfResult_eq]
  split
  · simp
  · exact fits_aluOf hc hf s o [] _

/-- Both halves' results, the second's writes last. -/
def pairResult (f h : Alu) (s : State) (oi oj : Ops) : Res :=
  ((halfResult f s oi).1 ++ (halfResult h s oj).1, (halfResult f s oi).2 ++ (halfResult h s oj).2)

/-- The places of a pair that one half or the other runs in. -/
def pairPlaces (s : State) (oi oj : Ops) : List Nat :=
  s.cur.places.filter (fun l => (s.active s.cur oi).contains l || (s.active s.cur oj).contains l)

/-- The registers that the halves of a pair write in a place, for HAZARD (R85). -/
def pairWrites (s : State) (i j : Instr) (oi oj : Ops) (l : Nat) : List RegUse :=
  let half := fun (k : Instr) (ps : List Nat) =>
    (plainWrites (uses s.cur.code k) l).map (fun u => if ps.contains l then u else { u with n := 0 })
  half i (s.active s.cur oi) ++ half j (s.active s.cur oj)

/-- Past its checks a pair commits both results and advances by its 16 bytes. -/
theorem State.runPair_passes (hf : aluOf i = some f) (hh : aluOf j = some h) (hi : i.ops = some oi) (hj : j.ops = some oj)
    (early : s.earlyFail s.cur (uses s.cur.code i ++ uses s.cur.code j) = none)
    (clear : s.hazard s.cur (pairPlaces s oi oj) (pairWrites s i j oi oj) = none) :
    s.runPair i j = (s.commitResult s.cur (pairResult f h s oi oj)).finish s.cur (oi.sw || oj.sw) (pairPlaces s oi oj) 16 [] := by
  unfold State.runPair State.issuePair
  unfold pairPlaces pairWrites at clear
  simp only [hf, hh, hi, hj, early, clear]
  unfold State.commitResult pairResult
  rw [allFlags_append, State.writeAll_append]
  rfl

/-- Settles O37: the results that both halves form of one state commit together, the second's writes last, before the pair
advances. -/
theorem pairsIssue : Obligations.PairsIssue := by
  intro s i j oi oj f h hf hh hi hj _ _ hc house c li lj early half clear calm ri rj t
  have fits : ∀ x ∈ (pairResult f h s oi oj).1, x.fits c := fun x hx =>
    (List.mem_append.mp hx).elim (fits_halfResult hc hf oi x) (fits_halfResult hc hh oj x)
  have first : halfResult f s oi = ri := halfResult_eq f s oi
  have second : halfResult h s oj = rj := halfResult_eq h s oj
  have issue : t = _ := State.runPair_passes hf hh hi hj early clear
  have stand := stand_commitResult (s := s) fits
  have pend := pend_commitResult (s := s) (c := c) (pairResult f h s oi oj)
  obtain ⟨frame, kept, adv, reads⟩ := finish_all (s := s.commitResult c (pairResult f h s oi oj)) hc (oi.sw || oj.sw)
    (pairPlaces s oi oj) 16 (fun sw hu => (calm (by simpa using sw) hu).of_stand hu pend (fun l => (stand l).2.1))
  rw [issue]
  refine ⟨fun x k l hk => ?_, ?_, adv.of_stand stand, (untouched_commitResult fits).trans frame⟩
  · rw [reads, reads_commitResult fits hk, pairResult, first, second]
  · rw [kept.fpflags, fpflags_commitResult house, pairResult, allFlags_append, first, second, ← BitVec.or_assoc]

end Sys2Proof.Machine
end

section
/-! PROOF. Entry into the handler: the commits of its lanes, the places that stand there, and the frame that it fills. -/

namespace Sys2Proof

theorem Map.put_put {V : Type} (m : Map V) (n : Nat) (x y : V) : (m.put n x).put n y = m.put n y := by
  induction m with
  | nil => simp [Map.put]
  | cons e r ih =>
    obtain ⟨k, v⟩ := e
    simp only [Map.put]
    by_cases below : n < k
    · simp [below, Map.put]
    · by_cases same : n = k
      · simp [same, Map.put]
      · simp [below, same, Map.put, ih]

end Sys2Proof

namespace Sys2Proof.Machine

variable {s t u v : State} {c : Issuer} {i : Instr} {o : Ops} {ls : List Nat} {f : Fail}

/-! ### Two updates of one party are one -/

theorem State.updCl_updCl (s : State) (g : Nat) (F G : Cluster → Cluster) :
    (s.updCl g F).updCl g G = s.updCl g (fun k => G (F k)) := by
  simp only [State.updCl, State.setCl, State.cl, Map.get_put_self, Map.put_put]

theorem State.updWarp_updWarp (s : State) (g k : Nat) (F G : Warp → Warp) :
    (s.updWarp g k F).updWarp g k G = s.updWarp g k (fun w => G (F w)) := by
  simp only [State.updWarp, State.updCl_updCl, Map.get_put_self, Map.put_put]

theorem State.updSpine_updSpine (s : State) (g k : Nat) (F G : Spine → Spine) :
    (s.updSpine g k F).updSpine g k G = s.updSpine g k (fun x => G (F x)) := by
  simp only [State.updSpine, State.updCl_updCl, Map.get_put_self, Map.put_put]

theorem Warp.updLane_updLane (w : Warp) (l : Nat) (F G : Lane → Lane) :
    (w.updLane l F).updLane l G = w.updLane l (fun x => G (F x)) := by
  simp only [Warp.updLane, Warp.lane, Map.get_put_self, Map.put_put]

/-! ### Places enter the handler (R295, R296) -/

/-- A lane that stands in trap mode at an address. -/
def Lane.entered (x : Lane) (pc : W64) : Lane :=
  { x with hold := .free, pc := pc, waitOnly := false, passed := false, trap := true }

/-- A context that stands in trap mode at an address. -/
def Spine.entered (x : Spine) (pc : W64) : Spine := { x with hold := .free, pc := pc, waitOnly := false, trap := true }

/-- A place that nothing holds gives up no wait. -/
theorem State.giveUp_free {l : Nat} (h : s.holdOf c l = .free) : s.giveUp c l = s.setHold c l .free := by
  unfold State.giveUp
  simp only [h]

/-- A warp with some lanes in its handler. -/
def Warp.entered (w : Warp) (ls : List Nat) (pc : W64) : Warp := ls.foldl (fun w l => w.updLane l (fun x => x.entered pc)) w

/-- One place enters the handler, as State.toHandler has it. -/
def State.enterPlace (s : State) (c : Issuer) (pc : W64) (l : Nat) : State :=
  let s := (s.giveUp c l).setPc c l pc
  match c.unit with
  | .lane => s.updLane c.g c.slot l (fun x => { x with trap := true })
  | _ => s.updSpine c.g c.slot (fun x => { x with trap := true })

theorem State.enterPlace_lane (hu : c.unit = .lane) (pc : W64) {l : Nat} (F : Warp → Warp) (s : State)
    (free : ((F (s.warp c.g c.slot)).lane l).hold = .free) :
    (s.updWarp c.g c.slot F).enterPlace c pc l = s.updWarp c.g c.slot (fun w => (F w).updLane l (fun x => x.entered pc)) := by
  have held : (s.updWarp c.g c.slot F).holdOf c l = .free := by
    simpa [State.holdOf, hu, State.lane] using free
  simp only [State.enterPlace, State.giveUp_free held, State.setHold, State.setPc, hu, State.updLane, State.updWarp_updWarp,
    Warp.updLane_updLane]
  rfl

/-- A context that nothing holds enters. -/
theorem State.enterPlace_spine (hu : c.unit = .spine) (pc : W64) (l : Nat) (F : Spine → Spine) (s : State)
    (free : (F (s.spine c.g c.slot)).hold = .free) :
    (s.updSpine c.g c.slot F).enterPlace c pc l = s.updSpine c.g c.slot (fun x => (F x).entered pc) := by
  have held : (s.updSpine c.g c.slot F).holdOf c l = .free := by
    simpa [State.holdOf, hu, State.spine_updSpine] using free
  simp only [State.enterPlace, State.giveUp_free held, State.setHold, State.setPc, hu, State.updSpine_updSpine]
  rfl

/-- Lanes that nothing holds enter one by one. -/
theorem State.enterAll_lane (hu : c.unit = .lane) (pc : W64) (F : Warp → Warp) (s : State)
    (free : ∀ l ∈ ls, ((F (s.warp c.g c.slot)).lane l).hold = .free) :
    ls.foldl (fun s l => s.enterPlace c pc l) (s.updWarp c.g c.slot F) = s.updWarp c.g c.slot (fun w => (F w).entered ls pc) := by
  induction ls generalizing F with
  | nil => rfl
  | cons l r ih =>
    rw [List.foldl_cons, State.enterPlace_lane hu pc F s (free l (by simp)), ih]
    · rfl
    · intro m hm
      rw [Warp.lane_updLane]
      split
      · rfl
      · exact free m (by simp [hm])

/-- What entering the handler does of a party: its places stand there in trap mode, its frame is filled, its other lanes have
not moved, and no register changes. -/
structure Entered (s t : State) (c : Issuer) (ls : List Nat) (pc : W64) (fr : Frame) : Prop where
  modes : ∀ l ∈ ls, t.inTrap c l = true ∧ t.holdOf c l = .free ∧ t.pcOf c l = pc
  frame : t.frameOf c = fr
  others : ∀ l, c.unit = .lane → l ∉ ls → t.pcOf c l = s.pcOf c l ∧ t.holdOf c l = s.holdOf c l
  stands : ∀ l, t.stands c l = s.stands c l
  pend : (t.warp c.g c.slot).pend = (s.warp c.g c.slot).pend
  elsewhere : Elsewhere s t c

/-- The frame that an entry fills (R296). -/
def State.filled (s : State) (c : Issuer) (ls : List Nat) (f : Frame) : Frame :=
  let m := match c.unit with | .lane => lanesMask ls | _ => 0
  let only := ls.filter (s.onlyWaits c)
  { f with busy := true, issue := m, left := m, waitOnly := !only.isEmpty, waits := lanesMask only }

theorem Warp.lane_entered (w : Warp) (nodup : ls.Nodup) (pc : W64) (l : Nat) :
    (w.entered ls pc).lane l = if l ∈ ls then (w.lane l).entered pc else w.lane l :=
  Warp.lane_foldl ls (fun _ x => x.entered pc) nodup w l

theorem Warp.entered_eq (w : Warp) (ls : List Nat) (pc : W64) : w.entered ls pc = { w with lanes := (w.entered ls pc).lanes } :=
  Warp.updLane_foldl_rest ls (fun _ x => x.entered pc) w

theorem entered_lanes (hu : c.unit = .lane) (nodup : ls.Nodup) (pc : W64) (fr : Frame) :
    Entered s (s.updWarp c.g c.slot (fun w => ({ w with frame := fr } : Warp).entered ls pc)) c ls pc fr := by
  generalize ht : s.updWarp c.g c.slot (fun w => ({ w with frame := fr } : Warp).entered ls pc) = t
  have warp : t.warp c.g c.slot = ({ s.warp c.g c.slot with frame := fr } : Warp).entered ls pc := by rw [← ht]; simp
  have lane : ∀ l, t.lane c.g c.slot l = if l ∈ ls then (s.lane c.g c.slot l).entered pc else s.lane c.g c.slot l := by
    intro l
    unfold State.lane
    rw [warp, Warp.lane_entered _ nodup]
    rfl
  refine ⟨fun l hl => ?_, ?_, fun l _ hl => ?_, fun l => ?_, ?_, ?_, fun g n => ?_, fun x k l => ?_⟩
  · simp [State.inTrap, State.holdOf, State.pcOf, hu, lane, hl, Lane.entered]
  · simp only [State.frameOf, hu, warp]
    rw [Warp.entered_eq]
  · simp [State.holdOf, State.pcOf, hu, lane, hl]
  · simp only [State.stands, hu, lane]
    split <;> rfl
  · rw [warp, Warp.entered_eq]
  · rw [← ht]; rfl
  · rw [← ht]; exact State.cl_updCl_ne _ _ _ _ n
  · cases x with
    | v =>
      simp only [State.reads, State.v, lane]
      split <;> rfl
    | w =>
      simp only [State.reads, State.w, warp]
      rw [Warp.entered_eq]
    | s => rw [← ht]; simp [State.reads, State.sreg, State.spine, State.updWarp]
    | e => rw [← ht]; simp [State.reads, State.ereg, State.seqr, State.updWarp]
    | p =>
      simp only [State.reads, State.pred, hu, lane]
      split <;> rfl
    | pg => rfl

theorem entered_spine (hu : c.unit = .spine) (pc : W64) (fr : Frame) (l : Nat) :
    Entered s (s.updSpine c.g c.slot (fun x => ({ x with frame := fr } : Spine).entered pc)) c [l] pc fr := by
  generalize ht : s.updSpine c.g c.slot (fun x => ({ x with frame := fr } : Spine).entered pc) = t
  have spine : t.spine c.g c.slot = ({ s.spine c.g c.slot with frame := fr } : Spine).entered pc := by
    rw [← ht, State.spine_updSpine]; simp
  refine ⟨fun l _ => ?_, ?_, fun l lane => ?_, fun l => ?_, ?_, ?_, fun g n => ?_, fun x k l => ?_⟩
  · simp [State.inTrap, State.holdOf, State.pcOf, hu, spine, Spine.entered]
  · simp [State.frameOf, hu, spine, Spine.entered]
  · simp [hu] at lane
  · simp [State.stands, hu, spine, Spine.entered]
  · rw [← ht]; simp [State.updSpine, State.warp]
  · rw [← ht]; rfl
  · rw [← ht]; exact State.cl_updCl_ne _ _ _ _ n
  · by_cases pred : x = .p
    · subst pred
      simp [State.reads, State.pred, hu, spine, Spine.entered]
    · rw [← ht]
      rw [reads_updSpine _ _ x pred]
      exact fun _ => rfl

/-- Different places of a party's group, at least one. -/
structure PlacesOf (c : Issuer) (ls : List Nat) : Prop where
  nodup : ls.Nodup
  some_ : ls ≠ []
  inside : ∀ l ∈ ls, l ∈ c.places

/-- Outside lane code that is the one place. -/
theorem PlacesOf.eq_zero (h : PlacesOf c ls) (hu : c.unit ≠ .lane) : ls = [0] := by
  obtain ⟨nodup, ne, inside⟩ := h
  have zero : ∀ l ∈ ls, l = 0 := by simpa [places_one hu] using inside
  cases ls with
  | nil => exact absurd rfl ne
  | cons a r =>
    obtain rfl : a = 0 := zero a (by simp)
    rw [List.nodup_cons] at nodup
    have none : r = [] := List.eq_nil_iff_forall_not_mem.mpr (fun b hb => by
      obtain rfl := zero b (by simp [hb])
      exact nodup.1 hb)
    rw [none]

theorem PlacesOf.all (ne : c.places ≠ []) : PlacesOf c c.places := ⟨nodup_places c, ne, fun _ h => h⟩

theorem PlacesOf.of_issues {hz : Issuer → Nat → List RegUse} {pv : PegVals} (h : Issues s i o hz ls u pv) :
    PlacesOf s.cur ls := ⟨h.sub.1, h.some_, h.sub.2⟩

/-- The address of the handler of a party's block (R295). -/
def State.handlerPc (s : State) (c : Issuer) : W64 := (s.blockOf c).img.base + BitVec.ofNat 64 (s.blockOf c).img.trapEnt

/-- Places that nothing holds enter the handler (R295, R296). -/
theorem toHandler_entered (hu : c.unit = .lane ∨ c.unit = .spine) (places : PlacesOf c ls)
    (free : ∀ l ∈ ls, s.holdOf c l = .free) (f : Frame) :
    Entered s (s.toHandler c ls f) c ls (s.handlerPc c) (s.filled c ls f) := by
  generalize hpc : s.handlerPc c = pc
  have parts : s.toHandler c ls f = ls.foldl (fun s l => s.enterPlace c pc l) (s.updFrame c (fun _ => s.filled c ls f)) := by
    rw [← hpc]; rfl
  rw [parts]
  generalize s.filled c ls f = fr
  rcases hu with hu | hu
  · have frame : s.updFrame c (fun _ => fr) = s.updWarp c.g c.slot (fun w => { w with frame := fr }) := by
      simp [State.updFrame, hu]
    rw [frame, State.enterAll_lane hu]
    · exact entered_lanes hu places.nodup _ _
    · intro l hl
      have held := free l hl
      simp only [State.holdOf, hu] at held
      exact held
  · have frame : s.updFrame c (fun _ => fr) = s.updSpine c.g c.slot (fun w => { w with frame := fr }) := by
      simp [State.updFrame, hu]
    obtain rfl := places.eq_zero (by simp [hu])
    rw [frame, List.foldl_cons, List.foldl_nil, State.enterPlace_spine hu]
    · exact entered_spine hu _ _ 0
    · simpa [State.holdOf, hu] using free 0 (by simp)

/-! ### The commits of an entry (R98, R295) -/

/-- What commits leave of what an entry reads: holds, marks of abandoned waits, and the block's image. -/
structure KeepsEntry (s t : State) (c : Issuer) : Prop where
  lanes : ∀ l, (t.lane c.g c.slot l).hold = (s.lane c.g c.slot l).hold
    ∧ (t.lane c.g c.slot l).waitOnly = (s.lane c.g c.slot l).waitOnly
  blk : (t.warp c.g c.slot).blk = (s.warp c.g c.slot).blk
  img : ∀ b, (t.block c.g b).img = (s.block c.g b).img

theorem KeepsEntry.refl (s : State) (c : Issuer) : KeepsEntry s s c := ⟨fun _ => ⟨rfl, rfl⟩, rfl, fun _ => rfl⟩

theorem KeepsEntry.trans (h : KeepsEntry s t c) (k : KeepsEntry t u c) : KeepsEntry s u c where
  lanes l := ⟨(k.lanes l).1.trans (h.lanes l).1, (k.lanes l).2.trans (h.lanes l).2⟩
  blk := k.blk.trans h.blk
  img b := (k.img b).trans (h.img b)

theorem keepsEntry_updWarp (F : Warp → Warp) (lanes : ∀ w, (F w).lanes = w.lanes) (blk : ∀ w, (F w).blk = w.blk) :
    KeepsEntry s (s.updWarp c.g c.slot F) c where
  lanes l := by simp [State.lane, Warp.lane, lanes]
  blk := by simp [blk]
  img b := by simp [State.updWarp, State.block]

theorem keepsEntry_updLane (l : Nat) (F : Lane → Lane) (keep : ∀ x, (F x).hold = x.hold ∧ (F x).waitOnly = x.waitOnly) :
    KeepsEntry s (s.updLane c.g c.slot l F) c where
  lanes m := by
    rw [State.lane_updLane]
    split
    · rename_i here; rw [here.2.2]; exact keep _
    · exact ⟨rfl, rfl⟩
  blk := by simp [State.updLane, Warp.updLane]
  img b := by simp [State.updLane, State.updWarp, State.block]

theorem keepsEntry_updSpine (F : Spine → Spine) : KeepsEntry s (s.updSpine c.g c.slot F) c where
  lanes l := by simp [State.updSpine, State.lane, State.warp]
  blk := by simp [State.updSpine, State.warp]
  img b := by simp [State.updSpine, State.block]

theorem keepsEntry_updSeqr (k : Bool) (F : Seqr → Seqr) : KeepsEntry s (s.updSeqr c.g k F) c where
  lanes l := by cases k <;> simp [State.updSeqr, State.lane, State.warp]
  blk := by cases k <;> simp [State.updSeqr, State.warp]
  img b := by cases k <;> simp [State.updSeqr, State.block]

theorem keepsEntry_updBlock (b : Nat) (F : Block → Block) (keep : ∀ x, (F x).img = x.img) :
    KeepsEntry s (s.updBlock c.g b F) c where
  lanes l := by simp [State.updBlock, State.lane, State.warp]
  blk := by simp [State.updBlock, State.warp]
  img k := by
    rw [State.block_updBlock]
    split
    · rename_i here; rw [here.2]; exact keep _
    · rfl

theorem keepsEntry_write1 (x : PWrite) : KeepsEntry s (s.write1 c x) c := by
  unfold State.write1
  split
  · exact keepsEntry_updLane _ _ (fun _ => ⟨rfl, rfl⟩)
  · exact keepsEntry_updWarp _ (fun _ => rfl) (fun _ => rfl)
  · unfold State.setS
    split
    · exact KeepsEntry.refl _ _
    · exact keepsEntry_updSpine _
  · exact keepsEntry_updSeqr _ _
  · unfold State.setPred
    split
    · exact keepsEntry_updLane _ _ (fun _ => ⟨rfl, rfl⟩)
    · exact keepsEntry_updSpine _
    · exact keepsEntry_updSeqr _ _
    · exact keepsEntry_updSeqr _ _
    · exact KeepsEntry.refl _ _
  · exact KeepsEntry.refl _ _

theorem keepsEntry_writeAll (xs : List PWrite) : KeepsEntry s (s.writeAll c xs) c := by
  unfold State.writeAll
  induction xs generalizing s with
  | nil => exact KeepsEntry.refl _ _
  | cons x r ih => exact (keepsEntry_write1 x).trans ih

theorem keepsEntry_orFlags (f : Flags) : KeepsEntry s (s.orFlags c f) c := by
  unfold State.orFlags
  split
  · exact KeepsEntry.refl _ _
  · split
    · exact keepsEntry_updWarp _ (fun _ => rfl) (fun _ => rfl)
    · unfold State.updBlockOf
      split
      · exact keepsEntry_updBlock _ _ (fun _ => rfl)
      · exact KeepsEntry.refl _ _

/-- An acquire changes the L1 alone. -/
theorem acquire_clusters (s : State) (g scope : Nat) : (s.acquire g scope).clusters = s.clusters := by
  unfold State.acquire
  split <;> rfl

theorem keepsEntry_of_clusters (h : t.clusters = s.clusters) : KeepsEntry s t c := by
  have cl : ∀ g, t.cl g = s.cl g := fun g => by unfold State.cl; rw [h]
  exact ⟨fun l => by simp [State.lane, State.warp, cl], by simp [State.warp, cl], fun b => by simp [State.block, cl]⟩

/-- Pending results without a lane's part. -/
def withoutLane (l : Nat) (ps : List Pend) : List Pend :=
  (ps.map (fun (p : Pend) => { p with lanes := p.lanes &&& ~~~(1#32 <<< l) })).filter (fun p => p.lanes ≠ 0)

theorem mem_withoutLane {l : Nat} {ps : List Pend} {p : Pend} (h : p ∈ withoutLane l ps) :
    ∃ q ∈ ps, p = { q with lanes := q.lanes &&& ~~~(1#32 <<< l) } := by
  obtain ⟨q, hq, rfl⟩ := List.mem_map.mp (List.mem_of_mem_filter h)
  exact ⟨q, hq, rfl⟩

theorem withoutLane_poison {l : Nat} {ps : List Pend} (clean : ∀ p ∈ ps, p.poison = []) :
    ∀ p ∈ withoutLane l ps, p.poison = [] := by
  intro p hp
  obtain ⟨q, hq, rfl⟩ := mem_withoutLane hp
  exact clean q hq

theorem withoutLane_lanes {l m : Nat} {ps : List Pend} (h : m = l ∨ ∀ p ∈ ps, p.lanes.getLsbD m = false) :
    ∀ p ∈ withoutLane l ps, p.lanes.getLsbD m = false := by
  intro p hp
  obtain ⟨q, hq, rfl⟩ := mem_withoutLane hp
  rcases h with rfl | h
  · by_cases low : m < 32 <;> simp [low]
  · simp [h q hq]

/-- A part of a result that read no poison commits without a cause, and leaves the pending results as they stand. -/
theorem commit1_clean {p : Pend} (clean : p.poison = []) (l : Nat) :
    (s.commit1 c l p).2 = none ∧ KeepsEntry s (s.commit1 c l p).1 c
      ∧ ((s.commit1 c l p).1.warp c.g c.slot).pend = (s.warp c.g c.slot).pend := by
  unfold State.commit1
  simp only [clean, List.filter_nil, List.head?_nil, Option.map_none]
  split
  · exact ⟨rfl, KeepsEntry.refl _ _, rfl⟩
  · refine ⟨rfl, ?_⟩
    dsimp only
    generalize p.writes.filter _ = xs
    generalize (p.flags.filter _).foldl _ _ = fl
    have keeps : KeepsEntry s ((s.writeAll c xs).orFlags c fl) c := (keepsEntry_writeAll xs).trans (keepsEntry_orFlags fl)
    have pend : (((s.writeAll c xs).orFlags c fl).warp c.g c.slot).pend = (s.warp c.g c.slot).pend := by
      rw [pend_orFlags, pend_writeAll]
    split
    · rename_i scope _
      have same := acquire_clusters ((s.writeAll c xs).orFlags c fl) c.g scope
      refine ⟨keeps.trans (keepsEntry_of_clusters same), ?_⟩
      simpa [State.warp, State.cl, same] using pend
    · exact ⟨keeps, pend⟩

/-- The parts of a lane in some results, committed one by one; the last poison found. -/
def State.commits (s : State) (c : Issuer) (l : Nat) (ps : List Pend) : State × Option (W64 × W64) :=
  ps.foldl (fun (x : State × Option (W64 × W64)) p =>
    ((x.1.commit1 c l p).1, match x.2 with | some y => some y | none => (x.1.commit1 c l p).2)) (s, none)

theorem commits_clean (l : Nat) (ps : List Pend) (clean : ∀ p ∈ ps, p.poison = []) (s : State) :
    (s.commits c l ps).2 = none ∧ KeepsEntry s (s.commits c l ps).1 c
      ∧ ((s.commits c l ps).1.warp c.g c.slot).pend = (s.warp c.g c.slot).pend := by
  unfold State.commits
  induction ps generalizing s with
  | nil => exact ⟨rfl, KeepsEntry.refl _ _, rfl⟩
  | cons p r ih =>
    obtain ⟨unpoisoned, keeps, pend⟩ := commit1_clean (s := s) (c := c) (clean p (by simp)) l
    obtain ⟨unpoisoned', keeps', pend'⟩ := ih (fun q hq => clean q (by simp [hq])) (s.commit1 c l p).1
    simp only [List.foldl_cons, unpoisoned]
    exact ⟨unpoisoned', keeps.trans keeps', pend'.trans pend⟩

theorem State.commitLane_eq (s : State) (c : Issuer) (l : Nat) :
    let r := s.commits c l ((s.warp c.g c.slot).pend.filter (fun p => p.lanes.getLsbD l))
    s.commitLane c l = (r.1.updWarp c.g c.slot (fun w => { w with pend := withoutLane l w.pend }), r.2) := rfl

/-- The results of a lane that read no poison commit without a cause, and none of them is left pending. -/
theorem commitLane_clean (clean : ∀ p ∈ (s.warp c.g c.slot).pend, p.poison = []) (l : Nat) :
    (s.commitLane c l).2 = none ∧ KeepsEntry s (s.commitLane c l).1 c
      ∧ ((s.commitLane c l).1.warp c.g c.slot).pend = withoutLane l (s.warp c.g c.slot).pend := by
  obtain ⟨unpoisoned, keeps, pend⟩ := commits_clean (c := c) l ((s.warp c.g c.slot).pend.filter (fun p => p.lanes.getLsbD l))
    (fun p hp => clean p (List.mem_of_mem_filter hp)) s
  rw [State.commitLane_eq]
  dsimp only
  refine ⟨unpoisoned, keeps.trans (keepsEntry_updWarp _ (fun _ => rfl) (fun _ => rfl)), ?_⟩
  rw [State.warp_updWarp_self, pend]

/-- With no result pending in its warp a lane commits nothing. -/
theorem commitLane_calm (calm : (s.warp c.g c.slot).pend = []) (hu : c.unit = .lane) (l : Nat) :
    (s.commitLane c l).2 = none ∧ Untouched s (s.commitLane c l).1 c
      ∧ (s.commitLane c l).1.warp c.g c.slot = s.warp c.g c.slot := by
  rw [State.commitLane_eq, calm]
  dsimp only
  refine ⟨rfl, untouched_updWarp hu _ (fun _ => rfl) (fun _ _ => rfl), ?_⟩
  rw [State.warp_updWarp_self]
  show { s.warp c.g c.slot with pend := withoutLane l (s.warp c.g c.slot).pend } = _
  rw [calm]
  exact congrArg (fun ps => { s.warp c.g c.slot with pend := ps }) calm.symm

/-- The commits of an entry's lanes in turn, and the poison that they found. -/
def State.entryCommits (s : State) (c : Issuer) (ls : List Nat) : State × List (Nat × W64 × W64) :=
  ls.foldl (fun (x : State × List (Nat × W64 × W64)) l =>
    ((x.1.commitLane c l).1, match (x.1.commitLane c l).2 with | some y => x.2 ++ [(l, y)] | none => x.2)) (s, [])

theorem entryCommits_cons {l : Nat} {r : List Nat} (clean : (s.commitLane c l).2 = none) :
    s.entryCommits c (l :: r) = (s.commitLane c l).1.entryCommits c r := by
  unfold State.entryCommits
  rw [List.foldl_cons, clean]

/-- Lanes whose results read no poison commit them all. -/
theorem entryCommits_clean (ls : List Nat) (s : State) (clean : ∀ p ∈ (s.warp c.g c.slot).pend, p.poison = []) :
    let t := (s.entryCommits c ls).1
    (s.entryCommits c ls).2 = [] ∧ KeepsEntry s t c
      ∧ ∀ m, (m ∈ ls ∨ ∀ p ∈ (s.warp c.g c.slot).pend, p.lanes.getLsbD m = false) →
          ∀ p ∈ (t.warp c.g c.slot).pend, p.lanes.getLsbD m = false := by
  induction ls generalizing s with
  | nil => exact ⟨rfl, KeepsEntry.refl _ _, fun m h => h.resolve_left (by simp)⟩
  | cons l r ih =>
    obtain ⟨unpoisoned, keeps, pend⟩ := commitLane_clean clean l
    obtain ⟨unpoisoned', keeps', out⟩ := ih (s.commitLane c l).1 (by rw [pend]; exact withoutLane_poison clean)
    rw [entryCommits_cons unpoisoned]
    refine ⟨unpoisoned', keeps.trans keeps', fun m h => out m ?_⟩
    rw [pend]
    rcases h with h | h
    · rcases List.mem_cons.mp h with rfl | h
      · exact .inr (withoutLane_lanes (.inl rfl))
      · exact .inl h
    · exact .inr (withoutLane_lanes (.inr h))

/-- With no result pending in their warp lanes commit nothing. -/
theorem entryCommits_calm (hu : c.unit = .lane) (ls : List Nat) (s : State) (calm : (s.warp c.g c.slot).pend = []) :
    let t := (s.entryCommits c ls).1
    Untouched s t c ∧ t.warp c.g c.slot = s.warp c.g c.slot := by
  induction ls generalizing s with
  | nil => exact ⟨Untouched.refl _ _, rfl⟩
  | cons l r ih =>
    obtain ⟨unpoisoned, frame, warp⟩ := commitLane_calm calm hu l
    obtain ⟨frame', warp'⟩ := ih (s.commitLane c l).1 (by rw [warp, calm])
    rw [entryCommits_cons unpoisoned]
    exact ⟨frame.trans frame', warp'.trans warp⟩

/-- The switch point of an entry whose lanes read no poison: every place can enter. -/
theorem entrySwitch_clean (hu : c.unit = .lane) (blk : (s.blkOf c).isSome = true)
    (clean : ∀ p ∈ (s.warp c.g c.slot).pend, p.poison = []) (ls : List Nat) :
    s.entrySwitch c ls = ((s.entryCommits c ls).1, ls) := by
  obtain ⟨b, hb⟩ := Option.isSome_iff_exists.mp blk
  have unpoisoned := (entryCommits_clean (c := c) ls s clean).1
  unfold State.entrySwitch
  simp only [hu, hb]
  generalize hx : List.foldl _ _ ls = x
  obtain rfl : s.entryCommits c ls = x := hx
  rw [unpoisoned]

/-! ### A cause that a party can take (R293, R295) -/

/-- The state in which places enter: lanes have committed their pending results. -/
def State.entryState (s : State) (c : Issuer) (ls : List Nat) : State :=
  if c.unit = .lane then (s.entryCommits c ls).1 else s

/-- What a precise cause writes into a frame (R296). -/
def Fail.frame (f : Fail) (c : Issuer) (npc : W64) : Frame :=
  { pc := c.pc, npc := npc, addr := f.addr, info := f.info, cmask := if c.unit = .lane then lanesMask f.lanes else 0
    cause := f.code, unit := if c.unit = .lane then 0 else 1, precise := true, rpc := npc }

/-- What an entry reads stands across the commits. -/
theorem entryState_keeps (hu : c.unit = .lane ∨ c.unit = .spine) (clean : ∀ p ∈ (s.warp c.g c.slot).pend, p.poison = [])
    (ls : List Nat) :
    let t := s.entryState c ls
    (∀ l, t.holdOf c l = s.holdOf c l) ∧ (∀ l, t.onlyWaits c l = s.onlyWaits c l) ∧ t.handlerPc c = s.handlerPc c
      ∧ (c.unit = .lane → ∀ l ∈ ls, ∀ p ∈ (t.warp c.g c.slot).pend, p.lanes.getLsbD l = false) := by
  unfold State.entryState
  rcases hu with hu | hu
  · obtain ⟨-, ⟨lanes, blk, img⟩, out⟩ := entryCommits_clean (c := c) ls s clean
    simp only [hu, if_true, State.handlerPc]
    refine ⟨fun l => ?_, fun l => ?_, ?_, fun _ l hl => out l (.inl hl)⟩
    · simp only [State.holdOf, hu, lanes]
    · simp only [State.onlyWaits, hu, lanes]
    · simp only [State.blockOf, State.blkOf, hu, blk]
      split <;> simp only [img]
  · simp [hu]

/-- With no result pending the commits change nothing of the party, and nothing else. -/
theorem entryState_calm (calm : (s.warp c.g c.slot).pend = []) (ls : List Nat) :
    let t := s.entryState c ls
    Untouched s t c ∧ t.warp c.g c.slot = s.warp c.g c.slot ∧ (∀ l, t.pcOf c l = s.pcOf c l)
      ∧ (∀ l, t.stands c l = s.stands c l) ∧ ∀ x k l, t.reads c x k l = s.reads c x k l := by
  unfold State.entryState
  by_cases hu : c.unit = .lane
  · rw [if_pos hu]
    obtain ⟨frame, warp⟩ := entryCommits_calm hu ls s calm
    have same := (sameParty_of_warp hu warp).1
    exact ⟨frame, warp, fun l => (same l).1, fun l => (same l).2.2, reads_eq_of_warp hu frame warp⟩
  · rw [if_neg hu]
    exact ⟨Untouched.refl _ _, rfl, fun _ => rfl, fun _ => rfl, fun _ _ _ => rfl⟩

/-- A cause that a party can take brings its places to the handler, once its lanes have committed. -/
theorem takeCause_eq (h : CanEnter s c ls) (places : PlacesOf c ls)
    (clean : ∀ p ∈ (s.warp c.g c.slot).pend, p.poison = []) (raisers : ∀ l ∈ f.lanes, l ∈ ls) (npc : W64) :
    s.takeCause c ls f c.pc npc true = (s.entryState c ls).toHandler c ls (f.frame c npc) := by
  obtain ⟨unit, noWave, blk, handler, free, modes⟩ := h
  unfold State.takeCause State.entryState
  rcases unit with hu | hu
  · obtain ⟨b, hb⟩ := Option.isSome_iff_exists.mp blk
    have out : f.lanes.any (s.inTrap c) = false := by
      rw [List.any_eq_false]
      intro l hl
      simp [(modes l (raisers l hl)).1]
    unfold State.enterTrap
    simp only [hu, noWave, hb, out, free, entrySwitch_clean hu blk clean, Fail.frame]
    cases ls with
    | nil => exact absurd rfl places.some_
    | cons l r => simp [handler]
  · obtain rfl := places.eq_zero (by simp [hu])
    have out := (modes 0 (by simp)).1
    simp [hu, handler, out, Fail.frame, State.enterTrap, State.entrySwitch]

/-- The frame that an entry fills, as the obligation writes it (R296). -/
def State.causeFrame (s : State) (c : Issuer) (ls : List Nat) (f : Fail) (npc : W64) : Frame :=
  let mask := fun (ks : List Nat) => if c.unit = .lane then lanesMask ks else 0
  let only := ls.filter (s.onlyWaits c)
  { busy := true, pc := c.pc, npc := npc, addr := f.addr, info := f.info, issue := mask ls, left := mask ls, cmask := mask f.lanes
    cause := f.code, unit := if c.unit = .lane then 0 else 1, precise := true, rpc := npc, waitOnly := decide (only ≠ [])
    waits := lanesMask only }

theorem filled_frame (same : ∀ l, t.onlyWaits c l = s.onlyWaits c l) (f : Fail) (npc : W64) :
    t.filled c ls (f.frame c npc) = s.causeFrame c ls f npc := by
  have only : ls.filter (t.onlyWaits c) = ls.filter (s.onlyWaits c) := List.filter_congr (fun l _ => same l)
  have mask : (match c.unit with | .lane => lanesMask ls | _ => 0) = if c.unit = .lane then lanesMask ls else 0 := by
    cases c.unit <;> rfl
  have marked : (!(ls.filter (s.onlyWaits c)).isEmpty) = decide (ls.filter (s.onlyWaits c) ≠ []) := by
    cases ls.filter (s.onlyWaits c) <;> rfl
  unfold State.filled State.causeFrame Fail.frame
  simp only [only, mask, marked]

/-- A cause that a party can take: its places stand in the handler with the frame filled, seen from the state in which the lanes
have committed. -/
theorem takeCause_entered (h : CanEnter s c ls) (places : PlacesOf c ls)
    (clean : ∀ p ∈ (s.warp c.g c.slot).pend, p.poison = []) (raisers : ∀ l ∈ f.lanes, l ∈ ls) (npc : W64) :
    Entered (s.entryState c ls) (s.takeCause c ls f c.pc npc true) c ls (s.handlerPc c) (s.causeFrame c ls f npc) := by
  obtain ⟨holds, waits, pc, -⟩ := entryState_keeps h.unit clean ls
  rw [takeCause_eq h places clean raisers, ← pc, ← filled_frame waits]
  exact toHandler_entered h.unit places (fun l hl => (holds l).trans (h.modes l hl).2) _

/-- With no result pending the entry is all that happens. -/
theorem takeCause_entered_calm (h : CanTrap s c ls) (places : PlacesOf c ls) (raisers : ∀ l ∈ f.lanes, l ∈ ls) (npc : W64) :
    Entered s (s.takeCause c ls f c.pc npc true) c ls (s.handlerPc c) (s.causeFrame c ls f npc) := by
  obtain ⟨modes, filled, others, stands, pend, elsewhere⟩ :=
    takeCause_entered (f := f) h.toCanEnter places (by simp [h.pend]) raisers npc
  obtain ⟨frame, warp, pcs, stands', reads⟩ := entryState_calm h.pend ls
  refine ⟨modes, filled, fun l hu hl => ?_, fun l => (stands l).trans (stands' l), ?_, ?_, fun g n => ?_, fun x k l => ?_⟩
  · obtain ⟨pc, hold⟩ := others l hu hl
    exact ⟨pc.trans (pcs l), hold.trans ((sameParty_of_warp hu warp).1 l).2.1⟩
  · rw [pend, warp]
  · exact elsewhere.package.trans frame.package
  · exact (elsewhere.others g n).trans (frame.others g n)
  · exact (elsewhere.regs x k l).trans (reads x k l)

theorem Entered.inHandler {fr : Frame} (h : Entered s t c ls (s.handlerPc c) fr) : InHandler s t c ls fr :=
  ⟨h.modes, h.frame, h.elsewhere⟩

theorem Untouched.inTrap (h : Untouched s t c) (l : Nat) : t.inTrap c l = s.inTrap c l := by
  unfold State.inTrap
  split
  · have same := congrArg Lane.trap (h.lanes l); exact same
  · have same := congrArg Spine.trap h.spine; exact same
  · rfl

theorem Untouched.frameOf (h : Untouched s t c) : t.frameOf c = s.frameOf c := by
  unfold State.frameOf
  split
  · have same := congrArg Warp.frame h.warp; exact same
  · have same := congrArg Spine.frame h.spine; exact same

/-- Places that the body keeps do not move with the advance of their group. -/
theorem PlacesOf.not_moved (h : PlacesOf c ls) {l : Nat} (hl : l ∈ ls) :
    ¬ (l ∈ movers s c ls ∨ (c.unit ≠ .lane ∧ movers s c ls ≠ [])) := by
  rintro (moved | ⟨hu, moves⟩)
  · simp [movers, hl] at moved
  · obtain rfl := h.eq_zero hu
    simp [movers, places_one hu] at moves

/-- The end of an issue whose active places have entered: they stay there, and the others of the group advance. -/
theorem Entered.finish {fr : Frame} (h : Entered s u c ls (s.handlerPc c) fr) (hu : c.unit = .lane ∨ c.unit = .spine)
    (here : PlacesOf c ls) (sw : Bool) (calm : sw = true → c.unit = .lane → Calm s c) (len : Nat) :
    InHandler s (u.finish c sw ls len ls) c ls fr ∧ Passes s (u.finish c sw ls len ls) c ls len := by
  have runs : c.runs := hu.imp_right .inl
  have calm' : sw = true → c.unit = .lane → Calm u c := fun on lane => by
    obtain ⟨pend, holds⟩ := calm on lane
    refine ⟨h.pend.trans pend, fun l => ?_⟩
    have hold : (u.lane c.g c.slot l).hold = u.holdOf c l := by simp [State.holdOf, lane]
    rw [hold]
    by_cases hl : l ∈ ls
    · rw [(h.modes l hl).2.1]; simp
    · rw [(h.others l lane hl).2]; simpa [State.holdOf, lane] using holds l
  obtain ⟨frame, -, reads, -, places⟩ := finish_keep (s := u) runs sw ls len ls calm'
  refine ⟨⟨fun l hl => ?_, ?_, ?_, fun g n => ?_, fun x k l => ?_⟩, fun l hp hl st => ?_⟩
  · obtain ⟨trap, hold, pc⟩ := h.modes l hl
    have stay := here.not_moved (s := u) hl
    rw [frame.inTrap, (places l).1, (places l).2, if_neg stay, if_neg stay]
    exact ⟨trap, hold, pc⟩
  · rw [frame.frameOf, h.frame]
  · exact frame.package.trans h.elsewhere.package
  · exact (frame.others g n).trans (h.elsewhere.others g n)
  · exact (reads x k l).trans (h.elsewhere.regs x k l)
  · have moved : l ∈ movers u c ls := by simp [movers, hp, hl, h.stands, st]
    rw [(places l).1, (places l).2]
    simp [moved]

/-! ### Operations that raise a cause in their active places -/

/-- An operation whose body raises a cause in its active places, as BRK and TRAP do, in a party that can take it (R114, R298). -/
theorem gives_entry {body : State → Issuer → Ops → PegVals → List Nat → Eff} (h : Plain s i o ls)
    (hx : exec i s = .next (s.issue i body)) (npc : W64)
    (hb : body s s.cur o [] ls = .go (s.takeCause s.cur ls f s.cur.pc npc true) ls) (can : CanTrap s s.cur ls)
    (raisers : ∀ l ∈ f.lanes, l ∈ ls) (calm : o.sw = true → s.cur.unit = .lane → Calm s s.cur) (short : o.form = .f64) :
    Gives i s (fun t => InHandler s t s.cur ls (s.causeFrame s.cur ls f npc) ∧ Passes s t s.cur ls 8) := by
  have here := PlacesOf.of_issues h
  have entered := (takeCause_entered_calm can here raisers npc).finish can.unit here o.sw calm o.form.bytes
  have does := does_of_go h hx hb
  unfold Does at does
  rw [short] at does entered
  exact ⟨_, does, entered⟩

/-- A cause of the whole group in a party that can take it. -/
theorem raise_inHandler (can : CanTrap s c c.places) (ne : c.places ≠ []) (raisers : ∀ l ∈ f.lanes, l ∈ c.places) :
    InHandler s (s.raise c f) c c.places (s.causeFrame c c.places f c.pc) :=
  (takeCause_entered_calm can (.all ne) raisers c.pc).inHandler

/-- An operation whose entry admits the 64-bit form alone has that form (R86). -/
theorem form_of_wf {w : CodeUnit} {e : Info} (h : WellFormed w i = true) (ho : i.ops = some o) (he : info w i = some e)
    (short : e.forms = [.f64]) : o.form = .f64 := by
  unfold WellFormed at h
  rw [ho, he] at h
  simp only [short, Bool.and_eq_true] at h
  obtain ⟨⟨-, form⟩, -⟩ := h
  simpa using form

end Sys2Proof.Machine
end

section
/-! PROOF. The checks before an effect: BUDGET, PEG_UNALLOCATED and HAZARD, and with them the entry of every cause. -/

namespace Sys2Proof.Machine

variable {s : State} {c : Issuer} {i : Instr} {o : Ops} {ls : List Nat} {f : Fail}

/-! ### BUDGET, PEG_UNALLOCATED and HAZARD (R87, R99, R362) -/

/-- An operation that only computes raises what its first checks find. -/
theorem exec_earlyFail {g : Alu} (computes : resultOf i = some g) (ho : i.ops = some o)
    (found : s.earlyFail s.cur (uses s.cur.code i) = some f) : exec i s = .next (s.raise s.cur f) := by
  rw [exec_resultOf s computes]
  unfold State.alu State.issue State.issueW
  simp only [ho, found]

theorem budgetFail_first {us : List RegUse} {x : RegUse} (hu : c.unit = .lane)
    (first : us.find? (fun x => decide (x.file = .v) && decide (s.allocation c < x.idx + x.n)) = some x) :
    s.earlyFail c us = some { code := 4, lanes := c.places, info := BitVec.ofNat 64 (x.idx + x.n - 1) } := by
  unfold State.earlyFail State.budgetFail
  simp only [hu, first]

theorem budgetFail_none {us : List RegUse}
    (within : c.unit = .lane → ∀ y ∈ us, y.file = .v → y.idx + y.n ≤ s.allocation c) :
    s.budgetFail c us = none := by
  unfold State.budgetFail
  split
  · rename_i hu
    have none : us.find? (fun u => decide (u.file = .v) && decide (s.allocation c < u.idx + u.n)) = none := by
      rw [List.find?_eq_none]
      intro y hy
      have := within hu y hy
      simpa using this
    rw [none]
  · rfl

theorem pegFail_first {us : List RegUse} {x : RegUse} (within : s.budgetFail c us = none)
    (first : us.find? (fun x => decide (x.file = .pg) && decide (s.pegsOf c ≤ x.idx)) = some x) :
    s.earlyFail c us = some { code := 12, lanes := c.places, info := BitVec.ofNat 64 x.idx } := by
  unfold State.earlyFail State.pegFail
  simp only [within, first]

/-- The pending registers that a write of a lane meets. -/
theorem mem_meets1 (w : Warp) (l k : Nat) (x : RegUse) :
    k ∈ w.meets1 l x ↔ x.idx ≤ k ∧ k < x.idx + x.n ∧ w.pending l x.file k = true := by
  unfold Warp.meets1
  simp only [List.mem_filter, List.mem_map, List.mem_range]
  constructor
  · rintro ⟨⟨j, hj, rfl⟩, pending⟩
    exact ⟨by omega, by omega, pending⟩
  · rintro ⟨low, high, pending⟩
    exact ⟨⟨k - x.idx, by omega, by omega⟩, pending⟩

/-- Of some pairs, one whose first part is least. -/
theorem foldl_least (r : List (Nat × Nat)) (x : Nat × Nat) :
    let lo := r.foldl (fun (m : Nat × Nat) y => if y.1 < m.1 then y else m) x
    lo ∈ x :: r ∧ ∀ y ∈ x :: r, lo.1 ≤ y.1 := by
  induction r generalizing x with
  | nil => simp
  | cons y r ih =>
    obtain ⟨mem, least⟩ := ih (if y.1 < x.1 then y else x)
    rw [List.foldl_cons]
    generalize r.foldl _ _ = lo at mem least
    have head := least _ List.mem_cons_self
    have tail : ∀ z ∈ r, lo.1 ≤ z.1 := fun z hz => least z (List.mem_cons_of_mem _ hz)
    by_cases below : y.1 < x.1
    · rw [if_pos below] at mem head
      exact ⟨List.mem_cons_of_mem _ mem, List.forall_mem_cons.mpr ⟨by omega, List.forall_mem_cons.mpr ⟨head, tail⟩⟩⟩
    · rw [if_neg below] at mem head
      refine ⟨?_, List.forall_mem_cons.mpr ⟨head, List.forall_mem_cons.mpr ⟨by omega, tail⟩⟩⟩
      rcases List.mem_cons.mp mem with rfl | h
      · exact List.mem_cons_self
      · exact List.mem_cons_of_mem _ (List.mem_cons_of_mem _ h)

/-- The pending registers that a write operand meets in some lanes, with the code of its file. -/
def Warp.hits (w : Warp) (bad : List Nat) (x : RegUse) : List (Nat × Nat) :=
  bad.flatMap (fun l => (w.meets1 l x).map (fun k => (k, fileSpace x.file)))

theorem Warp.mem_hits {w : Warp} {bad : List Nat} {x : RegUse} {e : Nat × Nat} :
    e ∈ w.hits bad x ↔ e.2 = fileSpace x.file ∧ ∃ l ∈ bad, e.1 ∈ w.meets1 l x := by
  obtain ⟨k, n⟩ := e
  simp only [Warp.hits, List.mem_flatMap, List.mem_map, Prod.mk.injEq]
  constructor
  · rintro ⟨l, hl, k, hk, rfl, rfl⟩
    exact ⟨rfl, l, hl, hk⟩
  · rintro ⟨rfl, l, hl, hk⟩
    exact ⟨l, hl, k, hk, rfl, rfl⟩

theorem Warp.hits_eq_nil {w : Warp} {bad : List Nat} {x : RegUse} : w.hits bad x = [] ↔ ∀ l ∈ bad, w.meets1 l x = [] := by
  simp [Warp.hits, List.flatMap_eq_nil_iff]

theorem foldl_max_length (bad : List Nat) (n m : Nat) (ne : bad ≠ []) : bad.foldl (fun m _ => max m n) m = max m n := by
  induction bad generalizing m with
  | nil => exact absurd rfl ne
  | cons l r ih =>
    rw [List.foldl_cons]
    by_cases last : r = []
    · simp [last]
    · rw [ih _ last]; omega

/-- With the same write operands in every lane HAZARD looks at what they meet, one operand after another. -/
theorem Warp.hazardInfo_of_hits {w : Warp} {bad : List Nat} (ne : bad ≠ []) {ws : List RegUse} {e : Nat × Nat}
    {r : List (Nat × Nat)}
    (first : (ws.map (w.hits bad)).find? (fun x => x ≠ []) = some (e :: r)) :
    let lo := r.foldl (fun (m : Nat × Nat) y => if y.1 < m.1 then y else m) e
    w.hazardInfo bad (fun _ => ws) = BitVec.ofNat 64 (lo.1 % 256 + 256 * lo.2) := by
  unfold Warp.hazardInfo
  simp only [foldl_max_length bad ws.length 0 ne, Nat.zero_max]
  generalize operands : (List.range ws.length).map _ = xs
  have each : xs = ws.map (w.hits bad) := by
    rw [← operands]
    apply List.ext_getElem
    · simp
    · intro j hj _
      have inside : j < ws.length := by simpa using hj
      simp [inside, Warp.hits]
  rw [each, first]

/-- What a HAZARD reports: of the first write operand that meets a pending result in some lane, the lowest register it meets
there (R362). -/
theorem Warp.hazardInfo_first {w : Warp} {bad : List Nat} {ws : List RegUse} (some_ : ∃ l ∈ bad, w.meets l ws = true) :
    ∃ (x : RegUse) (k : Nat) (before after : List RegUse), ws = before ++ x :: after ∧ (∃ l ∈ bad, k ∈ w.meets1 l x)
      ∧ (∀ l ∈ bad, ∀ j ∈ w.meets1 l x, k ≤ j) ∧ (∀ y ∈ before, ∀ l ∈ bad, w.meets1 l y = [])
      ∧ w.hazardInfo bad (fun _ => ws) = BitVec.ofNat 64 (k % 256 + 256 * fileSpace x.file) := by
  obtain ⟨l, hl, meets⟩ := some_
  obtain ⟨y, hy, met⟩ := List.any_eq_true.mp meets
  have found : (ws.find? (fun x => w.hits bad x ≠ [])).isSome = true := by
    rw [List.find?_isSome]
    refine ⟨y, hy, ?_⟩
    simp only [ne_eq, decide_not, Bool.not_eq_true', decide_eq_false_iff_not, Warp.hits_eq_nil]
    intro none
    simp [none l hl] at met
  obtain ⟨x, hx⟩ := Option.isSome_iff_exists.mp found
  obtain ⟨hit, before, after, split, earlier⟩ := List.find?_eq_some_iff_append.mp hx
  have first : (ws.map (w.hits bad)).find? (fun x => x ≠ []) = some (w.hits bad x) := by
    rw [List.find?_map]
    exact congrArg (Option.map (w.hits bad)) hx
  cases hits : w.hits bad x with
  | nil => simp [hits] at hit
  | cons e r =>
    rw [hits] at first
    have info := Warp.hazardInfo_of_hits (List.ne_nil_of_mem hl) first
    obtain ⟨mem, least⟩ := foldl_least r e
    dsimp only at info mem least
    generalize r.foldl _ e = lo at info mem least
    rw [← hits] at mem least
    obtain ⟨space, meeting⟩ := Warp.mem_hits.mp mem
    refine ⟨x, lo.1, before, after, split, meeting, fun l hl j hj => ?_, fun y hy => ?_, by rw [info, space]⟩
    · exact least (j, fileSpace x.file) (Warp.mem_hits.mpr ⟨rfl, l, hl, hj⟩)
    · have clear := earlier y hy
      simp only [ne_eq, decide_not, Bool.not_not, decide_eq_true_eq] at clear
      exact Warp.hits_eq_nil.mp clear

/-- The test of the obligation is membership among the registers that an operand meets. -/
theorem Warp.decide_mem_meets1 (w : Warp) (x : RegUse) (l k : Nat) :
    (decide (x.idx ≤ k) && decide (k < x.idx + x.n) && w.pending l x.file k) = decide (k ∈ w.meets1 l x) := by
  rw [Bool.eq_iff_iff]
  simp [mem_meets1, and_assoc]

theorem Warp.meets_eq_any (w : Warp) (l : Nat) (ws : List RegUse) :
    w.meets l ws = ws.any (fun x => (List.range x.n).any (fun j => decide (x.idx + j ∈ w.meets1 l x))) := by
  unfold Warp.meets
  congr 1
  funext x
  rw [Bool.eq_iff_iff, decide_eq_true_iff, List.any_eq_true]
  constructor
  · intro ne
    obtain ⟨k, hk⟩ := List.exists_mem_of_ne_nil _ ne
    obtain ⟨low, high, -⟩ := (mem_meets1 w l k x).mp hk
    exact ⟨k - x.idx, List.mem_range.mpr (by omega), by simpa [show x.idx + (k - x.idx) = k by omega] using hk⟩
  · rintro ⟨j, -, hj⟩
    exact List.ne_nil_of_mem (of_decide_eq_true hj)

/-- No lane with 8 results pending: nobody stops at the implicit switch point (R98). -/
theorem implicitSwitch_room (room : c.unit = .lane → ∀ l ∈ ls, (s.warp c.g c.slot).pendCount l < 8) :
    s.implicitSwitch c ls = (s, c) := by
  unfold State.implicitSwitch
  split
  · rename_i hu
    have none : ls.filter (fun l => decide (8 ≤ (s.warp c.g c.slot).pendCount l)) = [] := by
      rw [List.filter_eq_nil_iff]
      intro l hl
      simpa using room hu l hl
    rw [none]
  · rfl

/-- An operation that only computes raises HAZARD in the lanes whose writes meet a pending result (R99). -/
theorem exec_hazard {g : Alu} (computes : resultOf i = some g) (ho : i.ops = some o) (hu : s.cur.unit = .lane)
    (early : s.earlyFail s.cur (uses s.cur.code i) = none)
    (room : ∀ l ∈ s.active s.cur o, (s.warp s.cur.g s.cur.slot).pendCount l < 8) {ws : List RegUse} {bad : List Nat}
    (writes : fieldWrites i s.cur = fun _ => ws)
    (meet : (s.active s.cur o).filter (fun l => (s.warp s.cur.g s.cur.slot).meets l ws) = bad) (ne : bad ≠ []) {info : W64}
    (reported : (s.warp s.cur.g s.cur.slot).hazardInfo bad (fun _ => ws) = info) :
    exec i s = .next (s.raise s.cur { code := 3, lanes := bad, info := info }) := by
  have found : s.hazard s.cur (s.active s.cur o) (fieldWrites i s.cur) = some { code := 3, lanes := bad, info := info } := by
    unfold State.hazard
    simp only [hu, writes, meet, reported]
  have stay : (if varLat i (uses s.cur.code i) = true then s.implicitSwitch s.cur (s.active s.cur o) else (s, s.cur))
      = (s, s.cur) := by
    rw [implicitSwitch_room (fun _ => room), ite_self]
  rw [exec_resultOf s computes]
  unfold State.alu State.issue State.issueW
  simp only [ho, early, stay]
  cases active : s.active s.cur o with
  | nil => simp [active] at meet; exact absurd meet ne
  | cons l r =>
    rw [active] at found
    simp only [found]

/-! ### The obligation -/

/-- Settles O9: a cause brings its places to the handler from the state in which their pending results have committed, and the
checks before an effect find what R87 and R362 name. -/
theorem trapEntry : Obligations.TrapEntry := by
  intro s i o ls c mask m u only fr w us ws meets bad computes
  refine ⟨fun can => ⟨?_, ?_, ?_, ?_⟩, fun ⟨⟨g, hg⟩, ho, unit⟩ => ⟨?_, ?_, ?_⟩, ?_⟩
  · rintro rfl issues calm
    exact gives_entry (f := { code := 17, lanes := ls, info := o.b.setWidth 64 }) issues rfl c.pc rfl can (fun _ h => h) calm
      (form_of_wf issues.wf rfl rfl rfl)
  · rintro rfl issues calm
    exact gives_entry (f := { code := 16, lanes := ls, info := o.b.setWidth 64 }) issues rfl (c.pc + 8) rfl can (fun _ h => h)
      calm (form_of_wf issues.wf rfl rfl rfl)
  · rintro x rfl ne
    exact ⟨_, rfl, raise_inHandler (f := { code := 1, lanes := c.places, info := x }) can ne (fun _ h => h)⟩
  · rintro f rfl ne raisers
    exact raise_inHandler can ne raisers
  · intro x hu first
    exact exec_earlyFail hg ho (budgetFail_first hu first)
  · intro x within first
    exact exec_earlyFail hg ho (pegFail_first (budgetFail_none within) first)
  · intro hu early room ne
    have test : ∀ (x : RegUse) (l k : Nat), meets x l k = decide (k ∈ w.meets1 l x) := fun x l k => w.decide_mem_meets1 x l k
    have lanes : (s.active c o).filter (fun l => w.meets l ws) = bad := by
      refine List.filter_congr (fun l _ => ?_)
      rw [Warp.meets_eq_any]
      simp only [test]
    obtain ⟨l, hl⟩ := List.exists_mem_of_ne_nil _ ne
    have met : w.meets l ws = true := by
      rw [← lanes] at hl
      exact (List.mem_filter.mp hl).2
    obtain ⟨x, k, before, after, split, ⟨m, hm, hk⟩, least, earlier, info⟩ := Warp.hazardInfo_first ⟨l, hl, met⟩
    refine ⟨x, k, by simp [split], ⟨m, hm, by simpa [test] using hk⟩, fun l hl j hj => ?_, ⟨before, after, split, ?_⟩,
      exec_hazard hg ho hu early room rfl lanes ne info⟩
    · rw [test]
      exact decide_eq_false (fun meet => absurd (least l hl j meet) (by omega))
    · intro y hy l hl j
      rw [test, earlier y hy l hl]
      simp
  · rintro can clean rfl ne f raisers t
    obtain ⟨modes, frame, -, -, pend, -⟩ := takeCause_entered can (.all ne) clean raisers c.pc
    obtain ⟨-, -, -, out⟩ := entryState_keeps can.unit clean c.places
    refine ⟨fun l hl => ?_, frame⟩
    obtain ⟨trap, hold, pc⟩ := modes l hl
    refine ⟨trap, hold, pc, fun hu => ?_⟩
    have gone := out hu l hl
    rw [← pend] at gone
    exact List.length_eq_zero_iff.mpr (List.filter_eq_nil_iff.mpr (fun p hp => by simp [gone p hp]))

end Sys2Proof.Machine
end

section
/-! PROOF. NOP and function headers: the advance, and the words that are a header. -/

namespace Sys2Proof.Machine

variable {s t : State} {c : Issuer} {u : CodeUnit} {fb : BitVec 9} {x : W64} {n : Nat}

/-- A frame of a party with its house and its registers as they were keeps everything but PCs and holds. -/
theorem Keeps.of (frame : Untouched s t c) (house : SameHouse s t c)
    (reads : ∀ (x : RFile) (k l : Nat), t.reads c x k l = s.reads c x k l) : Keeps s t c :=
  ⟨reads, house.fpflags, house.pend, house.pegs, frame⟩

/-! ### Function headers (R106) -/

/-- The word of a function header that names FB. -/
def headerWord (fb : BitVec 9) : W64 := 0x201#64 ||| (fb.setWidth 64 <<< 54)

theorem toNat_headerWord (fb : BitVec 9) : (headerWord fb).toNat = 2 ^ 54 * fb.toNat + 0x201 := by
  have := fb.isLt
  rw [headerWord, BitVec.toNat_or, BitVec.toNat_shiftLeft, BitVec.toNat_setWidth, Nat.mod_eq_of_lt (by omega : fb.toNat < 2 ^ 64),
    Nat.shiftLeft_eq, Nat.mul_comm, Nat.mod_eq_of_lt (by omega), Nat.or_comm, Nat.two_pow_add_eq_or_of_lt (by decide)]
  rfl

/-- The fields of a header, put together, as one number. -/
theorem toNat_header_fields (fb : BitVec 9) :
    let w := 0#1 ++ fb ++ 0#2 ++ 0#2 ++ 0#2 ++ 0#8 ++ 0#8 ++ 0#8 ++ 0#8 ++ 1#7 ++ 0#1 ++ 0#4 ++ 0#1 ++ 0#1 ++ 1#2
    w.toNat = 2 ^ 54 * fb.toNat + 0x201 := by
  have ends_in_one : ∀ a k : Nat, 0 < k → a <<< k ||| 1 = 2 ^ k * a + 1 := fun a k hk => by
    rw [Nat.shiftLeft_eq, Nat.mul_comm, Nat.two_pow_add_eq_or_of_lt (Nat.one_lt_two_pow (by omega))]
  simp (disch := decide) only [BitVec.toNat_append, BitVec.toNat_ofNat, Nat.zero_mod, Nat.reducePow, Nat.reduceMod,
    Nat.zero_shiftLeft, Nat.zero_or, Nat.or_zero, ends_in_one]
  simp only [Nat.shiftLeft_eq]
  omega

/-- A header is the word of a NOP whose M holds FB. -/
theorem encodeFirst_nop (fb : BitVec 9) : encodeFirst 0x01 false 1 { m := fb } = headerWord fb := by
  apply BitVec.eq_of_toNat_eq
  rw [toNat_headerWord]
  exact toNat_header_fields fb

theorem wellFormed_nop : WellFormed u (.nop { m := fb }) = decide (fb.toNat ≤ 32) := by
  cases u <;> rfl

theorem decode_headerWord : decode u (words64 (headerWord fb)) =
    if fb.toNat ≤ 32 then .one (.nop { m := fb }) 8 else .illegal (headerWord fb) := by
  have len : lenOf (lo32 (headerWord fb)) = 1 := by rw [← encodeFirst_nop, lenOf_lo32, len_encodeFirst]; rfl
  have pr : prOf (headerWord fb) = false := by rw [← encodeFirst_nop, prOf_encodeFirst]
  have fields : mkInstr (opcOf (headerWord fb)) (splitOps .f64 (headerWord fb) 0) = some (.nop { m := fb }) := by
    rw [← encodeFirst_nop, opcOf_encodeFirst, splitOps_encodeFirst { m := fb } 1 false 1]
    rfl
  rw [decode_f64 len pr, decodeOne, fields]
  simp only [wellFormed_nop, decide_eq_true_eq]
  rfl

theorem bitsN_headerWord (fb : BitVec 9) : bitsN (headerWord fb).toNat 54 9 = fb.toNat := by
  have := fb.isLt
  rw [toNat_headerWord, bitsN]
  omega

/-- The bits of FB in a word. -/
theorem getLsbD_fieldMask {k : Nat} (hk : k < 64) : (0x1FF#64 <<< 54).getLsbD k = decide (54 ≤ k ∧ k < 63) := by
  have ones : (0x1FF#64) = (BitVec.allOnes 9).setWidth 64 := by decide
  rw [ones, BitVec.getLsbD_shiftLeft, BitVec.getLsbD_setWidth, BitVec.getLsbD_allOnes]
  grind

theorem getLsbD_header_above {k : Nat} (h : 54 ≤ k) : (0x201#64).getLsbD k = false := by
  rw [← BitVec.testBit_toNat]
  exact Nat.testBit_lt_two_pow (lt_of_lt_of_le (by decide) (Nat.pow_le_pow_right (by decide) h))

theorem getLsbD_headerWord {k : Nat} (hk : k < 64) :
    (headerWord fb).getLsbD k = if 54 ≤ k ∧ k < 63 then fb.getLsbD (k - 54) else (0x201#64).getLsbD k := by
  rw [headerWord, BitVec.getLsbD_or, BitVec.getLsbD_shiftLeft, BitVec.getLsbD_setWidth]
  by_cases low : k < 54
  · simp [low, show ¬(54 ≤ k ∧ k < 63) by omega]
  · rw [getLsbD_header_above (by omega)]
    by_cases top : k < 63
    · simp [low, top, show 54 ≤ k by omega, hk, show k - 54 < 64 by omega]
    · simp [top, BitVec.getLsbD_of_ge fb (k - 54) (by omega)]

/-- A word with the bits of a header outside FB is the header of its FB. -/
theorem eq_headerWord_iff : x = headerWord fb ↔ x &&& ~~~(0x1FF#64 <<< 54) = 0x201#64 ∧ bitsN x.toNat 54 9 = fb.toNat := by
  constructor
  · rintro rfl
    refine ⟨BitVec.eq_of_getLsbD_eq (fun k hk => ?_), bitsN_headerWord fb⟩
    rw [BitVec.getLsbD_and, BitVec.getLsbD_not, getLsbD_fieldMask hk, getLsbD_headerWord hk]
    by_cases field : 54 ≤ k ∧ k < 63
    · rw [getLsbD_header_above field.1]; simp [field]
    · simp [field, hk]
  · rintro ⟨low, high⟩
    have field : x.extractLsb' 54 9 = fb := by
      apply BitVec.eq_of_toNat_eq
      rw [BitVec.extractLsb'_toNat, Nat.shiftRight_eq_div_pow, ← high, bitsN]
    refine BitVec.eq_of_getLsbD_eq (fun k hk => ?_)
    rw [getLsbD_headerWord hk, ← field, ← low, BitVec.getLsbD_and, BitVec.getLsbD_not, getLsbD_fieldMask hk,
      BitVec.getLsbD_extractLsb']
    by_cases inside : 54 ≤ k ∧ k < 63
    · simp [inside, show k - 54 < 9 by omega, show 54 + (k - 54) = k by omega]
    · simp [inside, hk]

theorem headerRegs_eq_some : headerRegs x = some n ↔
    x &&& ~~~(0x1FF#64 <<< 54) = 0x201 ∧ 1 ≤ bitsN x.toNat 54 9 ∧ bitsN x.toNat 54 9 ≤ 32 ∧ n = 8 * bitsN x.toNat 54 9 := by
  unfold headerRegs
  simp only [Bool.and_eq_true, decide_eq_true_eq, Option.ite_none_right_eq_some, Option.some.injEq]
  tauto

/-! ### The obligation -/

/-- Settles O3: a NOP's body changes nothing before its places advance, and a header's word is the NOP of its FB. -/
theorem nopAdvances : Obligations.NopAdvances := by
  refine ⟨fun s o ls h calm => ?_, fun u fb => ⟨fun small => ?_, fun x n => ?_, fun big => ?_, fun s c => rfl⟩⟩
  · have short : o.form = .f64 := form_of_wf h.wf rfl rfl rfl
    obtain ⟨frame, house, advance, reads⟩ := finish_all (s := s) h.unit o.sw ls o.form.bytes calm
    refine ⟨_, does_of_go h rfl rfl, ?_, Keeps.of frame house reads⟩
    rw [short] at advance ⊢
    exact advance
  · exact decode_headerWord.trans (if_pos small)
  · rw [headerRegs_eq_some]
    constructor
    · rintro ⟨⟨low, one, most, rfl⟩, same⟩
      have same : bitsN x.toNat 54 9 = fb.toNat := by omega
      exact ⟨eq_headerWord_iff.mpr ⟨low, same⟩, by omega, by omega, by omega⟩
    · rintro ⟨rfl, rfl, one, most⟩
      obtain ⟨low, high⟩ := eq_headerWord_iff.mp (rfl : headerWord fb = headerWord fb)
      exact ⟨⟨low, one.trans_eq high.symm, high.trans_le most, congrArg (8 * ·) high.symm⟩, rfl⟩
  · exact decode_headerWord.trans (if_neg (by omega))

end Sys2Proof.Machine
end

section
/-! PROOF. Transfers: the targets that pass their checks, and the link register of a call. -/

namespace Sys2Proof.Machine

variable {s t u : State} {c : Issuer} {i : Instr} {o : Ops} {ls : List Nat}

/-! ### Places that move (R107) -/

/-- A body that moves its active places, in a state that leaves them where they stood: what the operation answers. -/
theorem gives_moves {body : State → Issuer → Ops → PegVals → List Nat → Eff} (h : Plain s i o ls)
    (hx : exec i s = .next (s.issue i body)) {to_ : Nat → W64} (hb : body s s.cur o [] ls = .go (u.jumpAll s.cur ls to_) ls)
    (stand : ∀ l, u.pcOf s.cur l = s.pcOf s.cur l ∧ u.holdOf s.cur l = s.holdOf s.cur l ∧ u.stands s.cur l = s.stands s.cur l)
    (frame : Untouched s u s.cur) (house : SameHouse s u s.cur) (calm : o.sw = true → s.cur.unit = .lane → Calm s s.cur) :
    Gives i s (fun t => Moves s t s.cur ls o.form.bytes to_ ∧ Untouched s t s.cur ∧ SameHouse s t s.cur
      ∧ ∀ x k l, t.reads s.cur x k l = u.reads s.cur x k l) := by
  obtain ⟨distinct, inGroup⟩ := h.sub
  obtain ⟨frame', house', reads, moves⟩ := moves_finish (s := s) (u := u) h.unit ls distinct inGroup to_ o.sw o.form.bytes
    (fun l => ⟨(stand l).1, (stand l).2.1⟩) (fun l => (stand l).2.2)
    (fun on lane => (calm on lane).of_stand lane house.pend (fun l => (stand l).2.1))
  exact ⟨_, does_of_go h hx hb, moves, frame.trans frame', house.trans house', reads⟩

/-- A body that only moves its active places. -/
theorem gives_jump {body : State → Issuer → Ops → PegVals → List Nat → Eff} (h : Plain s i o ls)
    (hx : exec i s = .next (s.issue i body)) {to_ : Nat → W64} (hb : body s s.cur o [] ls = .go (s.jumpAll s.cur ls to_) ls)
    (calm : o.sw = true → s.cur.unit = .lane → Calm s s.cur) :
    Gives i s (fun t => Moves s t s.cur ls o.form.bytes to_ ∧ Keeps s t s.cur) := by
  obtain ⟨t, ht, moves, frame, house, reads⟩ :=
    gives_moves h hx hb (fun _ => ⟨rfl, rfl, rfl⟩) (.refl _ _) (.refl _ _) calm
  exact ⟨t, ht, moves, .of frame house reads⟩

/-! ### The link of a call -/

/-- The writes of a call's link: the address after it, in D of each active place. -/
def linkWrites (c : Issuer) (o : Ops) (ls : List Nat) : List PWrite :=
  ls.flatMap (fun l => resWrites (fileD c o) o.d.toNat l 2 true (c.pc + BitVec.ofNat 64 o.form.bytes))

theorem link_eq (s : State) (c : Issuer) (o : Ops) (ls : List Nat) : s.link c o ls = s.writeAll c (linkWrites c o ls) := rfl

theorem fits_linkWrites (hc : c.runs) (o : Ops) (ls : List Nat) : ∀ x ∈ linkWrites c o ls, x.fits c :=
  fits_flatMap (fun l => fits_resWrites (fun v k l => fits_fileD hc o v k l) _ l _ _ _)

/-- A party's registers and words after a call. -/
def Linked (s t : State) (c : Issuer) (o : Ops) (ls : List Nat) : Prop :=
  Untouched s t c ∧ (t.warp c.g c.slot).pend = (s.warp c.g c.slot).pend ∧ t.fpflags c = s.fpflags c
    ∧ (t.cl c.g).pegs = (s.cl c.g).pegs
    ∧ ∀ (x : RFile) (k l : Nat), hasReg c x k → t.reads c x k l = afterWrites (linkWrites c o ls) c x k l (s.reads c x k l)

/-- A body that writes the link and moves its active places. -/
theorem gives_call {body : State → Issuer → Ops → PegVals → List Nat → Eff} (h : Plain s i o ls)
    (hx : exec i s = .next (s.issue i body)) {to_ : Nat → W64}
    (hb : body s s.cur o [] ls = .go ((s.link s.cur o ls).jumpAll s.cur ls to_) ls)
    (calm : o.sw = true → s.cur.unit = .lane → Calm s s.cur) :
    Gives i s (fun t => Moves s t s.cur ls o.form.bytes to_ ∧ Linked s t s.cur o ls) := by
  have fits := fits_linkWrites h.unit o ls
  obtain ⟨t, ht, moves, frame, house, reads⟩ :=
    gives_moves h hx hb (sameStand_writeAll _ fits) (untouched_writeAll _ fits) (house_writeAll _) calm
  refine ⟨t, ht, moves, frame, house.pend, house.fpflags, house.pegs, fun x k l hk => ?_⟩
  rw [reads, link_eq, reads_writeAll _ fits x k l hk]

/-! ### Targets that pass their checks (R107, R108) -/

/-- No place's target lies beyond the address space, nor, where that is asked, off a word. -/
theorem targetCheck_passes {aligned : Bool} (near : ∀ l ∈ ls, (s.opA c o l true).toNat < 2 ^ 51)
    (even : ∀ l ∈ ls, aligned = true → (s.opA c o l true).toNat % 4 = 0) : targetCheck s c o ls aligned = none := by
  have far : ls.filter (fun l => badAddr (s.opA c o l true)) = [] :=
    List.filter_eq_nil_iff.mpr (fun l hl => by rw [badAddr, decide_eq_true_eq]; exact (near l hl).not_ge)
  have odd : ls.filter (fun l => aligned && decide ((s.opA c o l true).toNat % 4 ≠ 0)) = [] :=
    List.filter_eq_nil_iff.mpr (fun l hl => by cases aligned <;> simp [even l hl])
  simp only [targetCheck, far, odd]

theorem transferBody_passes (good : ∀ l ∈ ls, (s.opA c o l true).toNat < 2 ^ 51 ∧ (s.opA c o l true).toNat % 4 = 0) :
    transferBody s c o ls = .go (s.jumpAll c ls (fun l => s.opA c o l true)) ls := by
  rw [transferBody, targetCheck_passes (fun l hl => (good l hl).1) (fun l hl _ => (good l hl).2)]

/-- A target that a header of no more registers than the party's stands before (R108). -/
structure Callable (s : State) (c : Issuer) (a : W64) : Prop where
  above : 8 ≤ a.toNat
  near : a.toNat < 2 ^ 51
  aligned : a.toNat % 8 = 0
  header : ∃ w n, s.headerAt c a = some w ∧ headerRegs w = some n ∧ (c.unit = .lane → n ≤ s.allocation c)

theorem Callable.low {a : W64} (h : Callable s c a) : badAddr (a - 8) = false := by
  have above := h.above
  have near := h.near
  have low : (a - 8).toNat = a.toNat - 8 := BitVec.toNat_sub_of_le (BitVec.le_def.mpr (by simpa using above))
  rw [badAddr, low, decide_eq_false_iff_not]
  omega

theorem Callable.headerFail {a : W64} (h : Callable s c a) : s.headerFail c a = none := by
  obtain ⟨w, n, stands, names, room⟩ := h.header
  simp only [State.headerFail, h.aligned, stands, Option.bind_some, names]
  by_cases lane : c.unit = .lane
  · simp [lane, room lane]
  · simp [lane]

theorem callxBody_passes (good : ∀ l ∈ ls, Callable s c (s.opA c o l true)) :
    callxBody s c o ls = .go ((s.link c o ls).jumpAll c ls (fun l => s.opA c o l true)) ls := by
  have check : targetCheck s c o ls false = none := targetCheck_passes (fun l hl => (good l hl).near) (by simp)
  have heads : ls.filter (fun l => decide ((s.opA c o l true).toNat % 8 = 0)) = ls :=
    List.filter_eq_self.mpr (fun l hl => decide_eq_true (good l hl).aligned)
  have low : ls.filter (fun l => badAddr (s.opA c o l true - 8)) = [] :=
    List.filter_eq_nil_iff.mpr (fun l hl => by rw [(good l hl).low]; exact Bool.false_ne_true)
  have miss : ls.filter (fun l => (s.headerAt c (s.opA c o l true)).isNone) = [] :=
    List.filter_eq_nil_iff.mpr (fun l hl => by obtain ⟨w, _, stands, _⟩ := (good l hl).header; simp [stands])
  have bad : ls.filter (fun l => (s.headerFail c (s.opA c o l true)).isSome) = [] :=
    List.filter_eq_nil_iff.mpr (fun l hl => by simp [(good l hl).headerFail])
  simp only [callxBody, check, heads, low, miss, bad]

/-! ### The obligation -/

/-- Settles O4: each transfer by what its body does once its targets pass. -/
theorem transfers : Obligations.Transfers := by
  intro s i o ls h calm
  refine ⟨?_, ?_, ?_, ?_⟩
  · rintro rfl
    exact gives_jump h rfl rfl calm
  · rintro (rfl | rfl) good
    · exact gives_jump h rfl (transferBody_passes good) calm
    · exact gives_jump h rfl (transferBody_passes good) calm
  · rintro rfl
    exact gives_call h rfl rfl calm
  · rintro rfl good
    exact gives_call h rfl (callxBody_passes fun l hl =>
      let ⟨above, near, aligned, header⟩ := good l hl
      ⟨above, near, aligned, header⟩) calm

end Sys2Proof.Machine
end

section
/-! PROOF. Rejoin masks: JARM writes a mask and lets lanes go, REJOIN holds the lanes of one. -/

namespace Sys2Proof.Machine

variable {s t u : State} {c : Issuer} {i : Instr} {o : Ops} {ls : List Nat} {n : Nat} {m : W32}

/-! ### Operations of lane code -/

/-- An operation whose entry admits lane code alone stands in lane code (R86). -/
theorem lane_of_wf {e : Info} (h : WellFormed c.code i = true) (ho : i.ops = some o) (he : info c.code i = some e)
    (lanes : e.units = [.lane]) : c.unit = .lane := by
  obtain ⟨-, admits⟩ := wf_ok h ho he
  rw [lanes, List.mem_singleton] at admits
  cases hu : c.unit <;> simp [Issuer.code, hu] at admits ⊢

theorem pcOf_lane (hu : c.unit = .lane) (l : Nat) : s.pcOf c l = (s.lane c.g c.slot l).pc := by simp only [State.pcOf, hu]
theorem holdOf_lane (hu : c.unit = .lane) (l : Nat) : s.holdOf c l = (s.lane c.g c.slot l).hold := by simp only [State.holdOf, hu]
theorem stands_lane (hu : c.unit = .lane) (l : Nat) : s.stands c l = (s.lane c.g c.slot l).live := by simp only [State.stands, hu]

/-- What a lane reads is in its registers, its predicates and its warp's registers. -/
theorem reads_of_lanes (hu : c.unit = .lane) (only : WarpOnly s t c) (uniform : (t.warp c.g c.slot).w = (s.warp c.g c.slot).w)
    (lanes : ∀ l, (t.lane c.g c.slot l).v = (s.lane c.g c.slot l).v ∧ (t.lane c.g c.slot l).p = (s.lane c.g c.slot l).p)
    (x : RFile) (k l : Nat) : t.reads c x k l = s.reads c x k l := by
  cases x with
  | v => simp only [State.reads, State.v, lanes]
  | w => simp only [State.reads, State.w, uniform]
  | s => simp only [State.reads, State.sreg, only.spines]
  | e => simp only [State.reads, State.ereg, State.seqr, only.mseq, only.cseq]
  | p => simp only [State.reads, State.pred, hu, lanes]
  | pg => rfl

theorem liveMask_congr {w v : Warp} (live : ∀ l, (v.lane l).live = (w.lane l).live) : v.liveMask = w.liveMask := by
  simp only [Warp.liveMask, live]

/-- The masks of a warp after its party's writes, advance or commits. -/
theorem Untouched.masks (h : Untouched s t c) : (t.warp c.g c.slot).jm = (s.warp c.g c.slot).jm
    ∧ (t.warp c.g c.slot).jh = (s.warp c.g c.slot).jh := by
  have jm := congrArg Warp.jm h.warp
  have jh := congrArg Warp.jh h.warp
  exact ⟨jm, jh⟩

/-! ### The end of an operation that lets lanes go -/

/-- The end of an operation whose body has changed its own warp alone, lane by lane. -/
theorem finish_lanes (hu : c.unit = .lane) (only : WarpOnly s u c) (uniform : (u.warp c.g c.slot).w = (s.warp c.g c.slot).w)
    (lanes : ∀ l, (u.lane c.g c.slot l).v = (s.lane c.g c.slot l).v ∧ (u.lane c.g c.slot l).p = (s.lane c.g c.slot l).p)
    (sw : Bool) (ls : List Nat) (len : Nat) (keep : List Nat) (calm : sw = true → Calm u c) :
    let t := u.finish c sw ls len keep
    WarpOnly s t c ∧ (∀ x k l, t.reads c x k l = s.reads c x k l)
      ∧ ((t.warp c.g c.slot).jm = (u.warp c.g c.slot).jm ∧ (t.warp c.g c.slot).jh = (u.warp c.g c.slot).jh)
      ∧ (∀ l ∈ c.places, l ∉ keep → (u.lane c.g c.slot l).live = true →
          t.pcOf c l = c.pc + BitVec.ofNat 64 len ∧ t.holdOf c l = .free)
      ∧ ∀ l, l ∉ c.places ∨ l ∈ keep →
          t.pcOf c l = (u.lane c.g c.slot l).pc ∧ t.holdOf c l = (u.lane c.g c.slot l).hold := by
  obtain ⟨frame, house, reads, -, places⟩ := finish_keep (s := u) (.inl hu) sw ls len keep (fun on _ => calm on)
  refine ⟨only.trans (.of hu frame house), fun x k l => ?_, frame.masks, fun l hp hk live => ?_, fun l out => ?_⟩
  · rw [reads, reads_of_lanes hu only uniform lanes]
  · have moved : l ∈ movers u c keep := by simp [movers, hp, hk, State.stands, hu, live]
    rw [(places l).1, (places l).2]
    simp [moved]
  · have stays : l ∉ movers u c keep := fun moved => by
      simp only [movers, List.mem_filter, Bool.and_eq_true, Bool.not_eq_true', List.contains_eq_mem, decide_eq_false_iff_not] at moved
      exact out.elim (· moved.1) (moved.2.1 ·)
    rw [(places l).1, (places l).2]
    simp [stays, hu, State.pcOf, State.holdOf]

/-! ### The release check (R103) -/

/-- The lanes that the release check of a mask lets go. -/
def freedLanes (m live h : W32) : W32 := if m &&& live &&& ~~~h = 0 then h else h &&& ~~~m

/-- A warp after the release check of a mask: its masks, H, and its lanes. -/
theorem release_outcome (w : Warp) (n : Nat) :
    let m := w.jm.get n 0
    let h := w.jh.get n 0
    (w.release n).jm = w.jm ∧ (w.release n).jh.get n 0 = (if m &&& w.liveMask &&& ~~~h = 0 then 0 else h &&& m)
      ∧ (∀ k, k ≠ n → (w.release n).jh.get k 0 = w.jh.get k 0)
      ∧ (∀ l, (w.release n).lane l
          = if l < 32 ∧ (freedLanes m w.liveMask h).getLsbD l = true then (w.lane l).unhold n else w.lane l)
      ∧ w.release n = { w with jh := (w.release n).jh, lanes := (w.release n).lanes } := by
  obtain ⟨jm, jh, jhs, lanes, rest⟩ := release_facts w n
  refine ⟨jm, ?_, jhs, fun l => ?_, rest⟩
  · rw [jh]; simp only [decide_eq_true_eq]
  · rw [lanes, freedLanes]; simp only [decide_eq_true_eq]

/-- The release check leaves a lane's life, registers and predicates, and parks no lane. -/
theorem lane_release_kept (w : Warp) (n l : Nat) : ((w.release n).lane l).live = (w.lane l).live
    ∧ ((w.release n).lane l).v = (w.lane l).v ∧ ((w.release n).lane l).p = (w.lane l).p
    ∧ ((w.lane l).hold ≠ .park → ((w.release n).lane l).hold ≠ .park) := by
  obtain ⟨-, -, -, lanes, -⟩ := release_outcome w n
  rw [lanes]
  split
  · exact ⟨Lane.unhold_live _ _, Lane.unhold_v _ _, Lane.unhold_p _ _, Lane.unhold_park⟩
  · exact ⟨rfl, rfl, rfl, id⟩

/-- A lane held at a REJOIN of the mask that the check lets go resumes after it. -/
theorem lane_release_freed {w : Warp} {l st : Nat} (hl : l < 32) (held : (w.lane l).hold = .rejoin n st)
    (freed : (freedLanes (w.jm.get n 0) w.liveMask (w.jh.get n 0)).getLsbD l = true) :
    ((w.release n).lane l).hold = .free ∧ ((w.release n).lane l).pc = (w.lane l).pc + 8 := by
  obtain ⟨-, -, -, lanes, -⟩ := release_outcome w n
  rw [lanes, if_pos ⟨hl, freed⟩, Lane.unhold_held held]
  exact ⟨rfl, rfl⟩

/-- A lane that the check does not let go stands as it did. -/
theorem lane_release_stays {w : Warp} {l : Nat}
    (stays : (freedLanes (w.jm.get n 0) w.liveMask (w.jh.get n 0)).getLsbD l = false) : (w.release n).lane l = w.lane l := by
  obtain ⟨-, -, -, lanes, -⟩ := release_outcome w n
  rw [lanes, if_neg (fun freed => Bool.false_ne_true (stays.symm.trans freed.2))]

/-! ### JARM (R111) -/

/-- A warp whose mask n has been written. -/
def Warp.withMask (w : Warp) (n : Nat) (m : W32) : Warp := { w with jm := w.jm.put n m }

@[simp] theorem jm_withMask (w : Warp) (n : Nat) (m : W32) : (w.withMask n m).jm.get n 0 = m := Map.get_put_self _ _ _ _

theorem warp_writeMask (s : State) (c : Issuer) (n : Nat) (f : W32 → W32) :
    (s.writeMask c n f).warp c.g c.slot
      = ((s.warp c.g c.slot).withMask n (f ((s.warp c.g c.slot).jm.get n 0))).release n := by
  rw [State.writeMask, State.warp_updWarp_self]; rfl

/-- What a JARM answers that writes a mask. -/
theorem gives_mask {body : State → Issuer → Ops → PegVals → List Nat → Eff} {f : W32 → W32} (h : Plain s i o ls)
    (hx : exec i s = .next (s.issue i body)) (hb : body s s.cur o [] ls = jarmBody s s.cur o f)
    (hu : s.cur.unit = .lane) (small : o.d.toNat < 4) (calm : o.sw = true → Calm s s.cur)
    (hm : f ((s.warp s.cur.g s.cur.slot).jm.get o.d.toNat 0) = m) :
    let c := s.cur
    let n := o.d.toNat
    let w := s.warp c.g c.slot
    let h := w.jh.get n 0
    let freed := freedLanes m w.liveMask h
    Gives i s (fun t =>
      let v := t.warp c.g c.slot
      v.jm.get n 0 = m ∧ v.jh.get n 0 = (if m &&& w.liveMask &&& ~~~h = 0 then 0 else h &&& m)
      ∧ (∀ k, k ≠ n → v.jm.get k 0 = w.jm.get k 0 ∧ v.jh.get k 0 = w.jh.get k 0)
      ∧ (∀ l ∈ c.places, s.stands c l = true → t.pcOf c l = c.pc + BitVec.ofNat 64 o.form.bytes ∧ t.holdOf c l = .free)
      ∧ (∀ l, l < 32 → l ∉ c.places → ∀ st, s.holdOf c l = .rejoin n st → freed.getLsbD l = true →
          t.holdOf c l = .free ∧ t.pcOf c l = s.pcOf c l + 8)
      ∧ (∀ l, l ∉ c.places → freed.getLsbD l = false → t.holdOf c l = s.holdOf c l ∧ t.pcOf c l = s.pcOf c l)
      ∧ (∀ (x : RFile) (k l : Nat), t.reads c x k l = s.reads c x k l) ∧ WarpOnly s t c) := by
  intro c n w h' freed
  have warp := warp_writeMask s c n f
  rw [hm] at warp
  obtain ⟨jm, jh, jhs, lanes, rest⟩ := release_outcome (w.withMask n m) n
  have kept := fun l => lane_release_kept (w.withMask n m) n l
  have lane : ∀ l, (s.writeMask c n f).lane c.g c.slot l = ((w.withMask n m).release n).lane l := fun l => by
    rw [State.lane, warp]
  obtain ⟨only, reads, ⟨jmT, jhT⟩, moved, stays⟩ := finish_lanes (u := s.writeMask c n f) hu (warpOnly_updWarp s c _)
    (by rw [warp, rest]; rfl) (fun l => by rw [lane]; exact ⟨(kept l).2.1, (kept l).2.2.1⟩) o.sw ls o.form.bytes []
    (fun on => ⟨by rw [warp, rest]; exact (calm on).1, fun l => by rw [lane]; exact (kept l).2.2.2 ((calm on).2 l)⟩)
  rw [warp] at jmT jhT
  refine ⟨_, does_of_go h hx (by rw [hb, jarmBody, Nat.mod_eq_of_lt small]), ?_, ?_, fun k hk => ⟨?_, ?_⟩, fun l hp st => ?_,
    fun l hl hp st held free => ?_, fun l hp free => ?_, reads, only⟩
  · rw [jmT, jm, jm_withMask]
  · rw [jhT, jh, jm_withMask]; rfl
  · rw [jmT, jm]; exact Map.get_put_ne _ _ _ _ _ hk
  · rw [jhT, jhs k hk]; rfl
  · refine moved l hp (by simp) ?_
    rw [lane, (kept l).1]
    exact (stands_lane hu l).symm.trans st
  · rw [holdOf_lane hu] at held
    obtain ⟨pc, hold⟩ := stays l (.inl hp)
    obtain ⟨hold', pc'⟩ := lane_release_freed (w := w.withMask n m) hl held (by rw [jm_withMask]; exact free)
    rw [pc, hold, lane, hold', pc', pcOf_lane hu]
    exact ⟨rfl, rfl⟩
  · obtain ⟨pc, hold⟩ := stays l (.inl hp)
    rw [pc, hold, lane, lane_release_stays (by rw [jm_withMask]; exact free), pcOf_lane hu, holdOf_lane hu]
    exact ⟨rfl, rfl⟩

/-- Settles O6: each form writes its mask, and the release check lets lanes go. -/
theorem masksWritten : Obligations.MasksWritten := by
  intro s i o ls h calm
  simp only [decide_eq_true_eq]
  refine ⟨?_, ?_, ?_, ?_⟩
  all_goals
    rintro rfl
    have hu : s.cur.unit = .lane := lane_of_wf h.wf rfl rfl rfl
    have small : o.d.toNat < 4 := by
      have ok := (wf_ok h.wf rfl rfl).1
      simp only [Bool.and_eq_true, decide_eq_true_eq] at ok
      exact ok.2
  · exact gives_mask h rfl rfl hu small calm rfl
  · exact gives_mask h rfl rfl hu small calm rfl
  · exact gives_mask h rfl rfl hu small calm rfl
  · exact gives_mask h rfl rfl hu small calm rfl

end Sys2Proof.Machine
end

section
/-! PROOF. YIELD and PAUSE hold their places, and REJOIN those of its mask: the switch point before an effect, and places held. -/

namespace Sys2Proof.Machine

variable {s t u : State} {c : Issuer} {i : Instr} {o : Ops} {ls : List Nat}

/-! ### The switch point before an effect (R98) -/

/-- A change of some lanes that touches only what they compute with. -/
theorem updLanes_facts (hu : c.unit = .lane) (distinct : ls.Nodup) (F : Nat → Lane → Lane) (hF : ∀ l x, (F l x).rest = x.rest) :
    let t := s.updLanes c.g c.slot ls F
    Untouched s t c ∧ SameHouse s t c
      ∧ (∀ l, t.lane c.g c.slot l = if l ∈ ls then F l (s.lane c.g c.slot l) else s.lane c.g c.slot l)
      ∧ (t.warp c.g c.slot).w = (s.warp c.g c.slot).w := by
  have lane : ∀ (w : Warp) l, (ls.foldl (fun w l => w.updLane l (F l)) w).lane l = if l ∈ ls then F l (w.lane l) else w.lane l :=
    Warp.lane_foldl ls F distinct
  have rest : ∀ w : Warp, ls.foldl (fun w l => w.updLane l (F l)) w = _ := Warp.updLane_foldl_rest ls F
  refine ⟨untouched_updWarp hu _ (fun w => ?_) (fun w l => ?_), house_updWarp _ (fun w => ?_) (fun w => ?_) (fun w => ?_),
    fun l => ?_, ?_⟩
  · rw [rest]; rfl
  · rw [lane]
    split
    · exact hF _ _
    · rfl
  · rw [rest]
  · rw [rest]
  · rw [rest]
  · rw [State.lane, State.updLanes, State.warp_updWarp_self]; exact lane _ _
  · rw [State.updLanes, State.warp_updWarp_self, rest]

/-- With no result pending, lanes that stand ready at an instruction pass its switch point, and nothing changes but that none of
them waits for it any more. -/
theorem atSwitch_calm (hu : c.unit = .lane) (calm : Calm s c) (distinct : ls.Nodup)
    (ready : ∀ l ∈ ls, (s.lane c.g c.slot l).live = true ∧ (s.lane c.g c.slot l).pc = c.pc ∧ (s.lane c.g c.slot l).hold = .free) :
    ∃ t, s.atSwitch c ls = (t, ls) ∧ Untouched s t c ∧ SameHouse s t c
      ∧ (∀ l, t.lane c.g c.slot l
          = if l ∈ ls then { s.lane c.g c.slot l with passed := false } else s.lane c.g c.slot l)
      ∧ (t.warp c.g c.slot).w = (s.warp c.g c.slot).w := by
  obtain ⟨frame, warp, blocks, pegs⟩ := switchPoint_calm hu calm ls
  have house := house_of_warp hu warp blocks pegs
  have lane : ∀ l, (s.switchPoint c ls).lane c.g c.slot l = s.lane c.g c.slot l := fun l => by rw [State.lane, warp]; rfl
  have pass : ls.filter (fun l =>
      let x := (s.switchPoint c ls).lane c.g c.slot l
      x.live && decide (x.pc = c.pc) && decide (x.trap = s.inTrap c l) && decide (x.hold = .free)) = ls :=
    List.filter_eq_self.mpr (fun l hl => by
      obtain ⟨live, pc, hold⟩ := ready l hl
      simp [lane, live, pc, hold, State.inTrap, hu])
  have parked : ls.filter (fun l => decide (((s.switchPoint c ls).lane c.g c.slot l).hold = .park)
      && decide (((s.switchPoint c ls).lane c.g c.slot l).pc = c.pc)) = [] :=
    List.filter_eq_nil_iff.mpr (fun l hl => by simp [lane, (ready l hl).2.2])
  obtain ⟨frame1, house1, lane1, w1⟩ := updLanes_facts (s := s.switchPoint c ls) (c := c) (ls := []) hu List.nodup_nil
    (fun _ x => { x with passed := true }) (fun _ _ => rfl)
  obtain ⟨frame2, house2, lane2, w2⟩ := updLanes_facts (s := (s.switchPoint c ls).updLanes c.g c.slot [] (fun _ x => { x with passed := true }))
    (c := c) hu distinct (fun _ x => { x with passed := false }) (fun _ _ => rfl)
  refine ⟨_, ?_, (frame.trans frame1).trans frame2, (house.trans house1).trans house2, fun l => ?_, ?_⟩
  · unfold State.atSwitch
    simp only [hu]
    rw [pass, parked]
  · rw [lane2, lane1, lane]; simp
  · rw [w2, w1, warp]

/-! ### Places that are held -/

/-- Places go to an address and are held there. -/
def holdAll (s : State) (c : Issuer) (ls : List Nat) (pc : W64) (x : Hold) : State :=
  ls.foldl (fun (s : State) l => (s.setPc c l pc).setHold c l x) s

theorem holdAll_facts (hc : c.runs) (ls : List Nat) (pc : W64) (x : Hold) (s : State) :
    let t := holdAll s c ls pc x
    Untouched s t c ∧ SameHouse s t c ∧ (∀ f k l, t.reads c f k l = s.reads c f k l) ∧ (∀ l, t.stands c l = s.stands c l)
      ∧ ∀ l, t.pcOf c l = (if l ∈ ls ∨ (c.unit ≠ .lane ∧ ls ≠ []) then pc else s.pcOf c l)
          ∧ t.holdOf c l = (if l ∈ ls ∨ (c.unit ≠ .lane ∧ ls ≠ []) then x else s.holdOf c l) := by
  induction ls generalizing s with
  | nil => exact ⟨.refl _ _, .refl _ _, fun _ _ _ => rfl, fun _ => rfl, by simp [holdAll]⟩
  | cons l r ih =>
    obtain ⟨frame, house, reads, stands, places⟩ := ih ((s.setPc c l pc).setHold c l x)
    refine ⟨((untouched_setPc hc l pc).trans (untouched_setHold hc l x)).trans frame,
      ((house_setPc l pc).trans (house_setHold l x)).trans house, fun f k m => ?_, fun m => ?_, fun m => ?_⟩
    · exact (reads f k m).trans (by rw [reads_setHold hc, reads_setPc hc])
    · exact (stands m).trans (by rw [stands_setHold hc, stands_setPc hc])
    · obtain ⟨pcs, holds⟩ := places m
      refine ⟨pcs.trans ?_, holds.trans ?_⟩
      · rw [pcOf_setHold hc, pcOf_setPc hc]
        grind
      · rw [holdOf_setHold hc, holdOf_setPc hc]
        grind

/-- A body that takes its active places to an address and holds them there. -/
theorem gives_held {body : State → Issuer → Ops → PegVals → List Nat → Eff} (h : Plain s i o ls)
    (hx : exec i s = .next (s.issue i body)) {x : Hold} {pc : W64}
    (hb : body s s.cur o [] ls = .go (holdAll u s.cur ls pc x) ls) (same : SameParty s u s.cur)
    (frame : Untouched s u s.cur) (house : SameHouse s u s.cur) (calm : o.sw = true → s.cur.unit = .lane → Calm s s.cur)
    (short : o.form = .f64) (waits : x ≠ .park) :
    Gives i s (fun t => Keeps s t s.cur ∧ (∀ l ∈ ls, t.pcOf s.cur l = pc ∧ t.holdOf s.cur l = x)
      ∧ Passes s t s.cur ls 8) := by
  have here := PlacesOf.of_issues h
  obtain ⟨frame1, house1, reads1, stands1, places1⟩ := holdAll_facts h.unit ls pc x u
  have calm1 : o.sw = true → s.cur.unit = .lane → Calm (holdAll u s.cur ls pc x) s.cur := fun on lane => by
    obtain ⟨pend, holds⟩ := calm on lane
    refine ⟨by rw [house1.pend, house.pend, pend], fun l => ?_⟩
    rw [← holdOf_lane lane, (places1 l).2]
    split
    · exact waits
    · rw [same.hold, holdOf_lane lane]; exact holds l
  obtain ⟨frame2, house2, reads2, -, places2⟩ := finish_keep h.unit o.sw ls o.form.bytes ls calm1
  refine ⟨_, does_of_go h hx hb, ?_, fun l hl => ?_, fun l hp hl st => ?_⟩
  · exact .of ((frame.trans frame1).trans frame2) ((house.trans house1).trans house2)
      (fun f k l => by rw [reads2, reads1, same.reads])
  · have stay := here.not_moved (s := holdAll u s.cur ls pc x) hl
    rw [(places2 l).1, (places2 l).2, if_neg stay, if_neg stay, (places1 l).1, (places1 l).2]
    simp [hl]
  · have moved : l ∈ movers (holdAll u s.cur ls pc x) s.cur ls := by
      simp [movers, hp, hl, stands1, same.stands, st]
    rw [(places2 l).1, (places2 l).2, if_pos (.inl moved), if_pos (.inl moved), short]
    exact ⟨rfl, rfl⟩

/-! ### YIELD and PAUSE (R113) -/

/-- Clocks stand across the change of a party. -/
theorem Untouched.cycles (h : Untouched s t c) (die : Nat) : t.cycles die = s.cycles die := by
  have clk := congrArg State.clk h.package
  exact congrArg (fun m : Map Nat => m.get die 0) clk

/-- A lane with nothing changed but that it has passed a switch point stands and reads as it did. -/
theorem sameParty_of_passed (hu : c.unit = .lane) (frame : Untouched s t c) (house : SameHouse s t c)
    (lanes : ∀ l, t.lane c.g c.slot l = if l ∈ ls then { s.lane c.g c.slot l with passed := false } else s.lane c.g c.slot l)
    (uniform : (t.warp c.g c.slot).w = (s.warp c.g c.slot).w) : SameParty s t c := by
  refine ⟨fun l => ?_, fun l => ?_, fun l => ?_, reads_of_lanes hu (.of hu frame house) uniform (fun l => ?_)⟩
  · rw [pcOf_lane hu, pcOf_lane hu, lanes]; split <;> rfl
  · rw [holdOf_lane hu, holdOf_lane hu, lanes]; split <;> rfl
  · rw [stands_lane hu, stands_lane hu, lanes]; split <;> rfl
  · rw [lanes]; split <;> exact ⟨rfl, rfl⟩

/-- Settles O8: YIELD holds its lanes past their switch point, a context only advances, and PAUSE holds its places. -/
theorem yieldAndPause : Obligations.YieldAndPause := by
  intro s i o ls h
  refine ⟨?_, ?_, ?_⟩
  · rintro rfl hu calm ready
    obtain ⟨t, passes, frame, house, lanes, uniform⟩ := atSwitch_calm hu calm h.sub.1 ready
    refine gives_held h rfl ?_ (sameParty_of_passed hu frame house lanes uniform) frame house (fun _ _ => calm)
      (form_of_wf h.wf rfl rfl rfl) (by simp)
    simp only [yieldBody, hu, passes, frame.cycles]
    rfl
  · rintro rfl hu st
    have short : o.form = .f64 := form_of_wf h.wf rfl rfl rfl
    have here := (PlacesOf.of_issues h).eq_zero (by simp [hu])
    obtain ⟨frame, house, advance, reads⟩ := finish_all (s := s) h.unit o.sw ls o.form.bytes (by simp [hu])
    refine ⟨_, does_of_go h rfl (by simp only [yieldBody, hu]), .of frame house reads, fun l hl => ?_, fun l hp hl => ?_⟩
    · rw [here, List.mem_singleton] at hl
      rw [short] at advance ⊢
      rw [hl]
      exact advance.moved 0 (by simp [places_one, hu]) st
    · rw [places_one (by simp [hu]), ← here] at hp
      exact absurd hp hl
  · rintro rfl calm
    exact gives_held h rfl rfl (.refl _ _) (.refl _ _) (.refl _ _) calm (form_of_wf h.wf rfl rfl rfl) (by simp)

end Sys2Proof.Machine
end

section
/-! PROOF. REJOIN: the lanes of the mask are held, and the release check that follows lets those go that R103 names. -/

namespace Sys2Proof.Machine

variable {s t u : State} {c : Issuer} {i : Instr} {o : Ops} {ls : List Nat}

/-- A place of lane code is one of a warp's 32 lanes. -/
theorem lt_of_place (hu : c.unit = .lane) {l : Nat} (hl : l ∈ c.places) : l < 32 := by
  simp only [Issuer.places, hu] at hl
  exact ((mem_maskLanes _ _).mp hl).1

/-! ### Lanes that are held -/

theorem lane_setHolds (hu : c.unit = .lane) (ls : List Nat) (x : Hold) (s : State) (l : Nat) :
    (s.setHolds c ls x).lane c.g c.slot l = if l ∈ ls then { s.lane c.g c.slot l with hold := x } else s.lane c.g c.slot l := by
  unfold State.setHolds
  induction ls generalizing s with
  | nil => simp
  | cons a r ih =>
    rw [List.foldl_cons, ih, State.setHold]
    simp only [hu, State.lane_updLane]
    by_cases e : l = a
    · subst e; simp
    · simp [e]

theorem untouched_setHolds (hc : c.runs) (ls : List Nat) (x : Hold) (s : State) :
    Untouched s (s.setHolds c ls x) c ∧ SameHouse s (s.setHolds c ls x) c := by
  unfold State.setHolds
  induction ls generalizing s with
  | nil => exact ⟨.refl _ _, .refl _ _⟩
  | cons a r ih =>
    obtain ⟨frame, house⟩ := ih (s.setHold c a x)
    exact ⟨(untouched_setHold hc a x).trans frame, (house_setHold a x).trans house⟩

theorem uniform_setHolds (hu : c.unit = .lane) (ls : List Nat) (x : Hold) (s : State) :
    ((s.setHolds c ls x).warp c.g c.slot).w = (s.warp c.g c.slot).w := by
  unfold State.setHolds
  induction ls generalizing s with
  | nil => rfl
  | cons a r ih =>
    rw [List.foldl_cons, ih, State.setHold]
    simp only [hu, State.updLane, State.warp_updWarp_self]
    rfl

/-! ### The lanes at a REJOIN -/

/-- A party's lanes at a REJOIN past its switch point: some of them held there, and no other change than that they have passed. -/
structure Arrived (s t : State) (c : Issuer) (held : List Nat) (x : Hold) : Prop where
  only : WarpOnly s t c
  uniform : (t.warp c.g c.slot).w = (s.warp c.g c.slot).w
  pend : (t.warp c.g c.slot).pend = (s.warp c.g c.slot).pend
  masks : (t.warp c.g c.slot).jm = (s.warp c.g c.slot).jm ∧ (t.warp c.g c.slot).jh = (s.warp c.g c.slot).jh
  hold : ∀ l, (t.lane c.g c.slot l).hold = if l ∈ held then x else (s.lane c.g c.slot l).hold
  pc : ∀ l, (t.lane c.g c.slot l).pc = (s.lane c.g c.slot l).pc
  live : ∀ l, (t.lane c.g c.slot l).live = (s.lane c.g c.slot l).live
  regs : ∀ l, (t.lane c.g c.slot l).v = (s.lane c.g c.slot l).v ∧ (t.lane c.g c.slot l).p = (s.lane c.g c.slot l).p

/-- The lanes of the mask are held once they have passed the switch point. -/
theorem arrived_setHolds (hu : c.unit = .lane) (frame : Untouched s t c) (house : SameHouse s t c)
    (lanes : ∀ l, t.lane c.g c.slot l = if l ∈ ls then { s.lane c.g c.slot l with passed := false } else s.lane c.g c.slot l)
    (uniform : (t.warp c.g c.slot).w = (s.warp c.g c.slot).w) (held : List Nat) (x : Hold) :
    Arrived s (t.setHolds c held x) c held x := by
  obtain ⟨frame', house'⟩ := untouched_setHolds (.inl hu) held x t
  have all := frame.trans frame'
  have lane := lane_setHolds hu held x t
  refine ⟨.of hu all (house.trans house'), (uniform_setHolds hu held x t).trans uniform, (house.trans house').pend, all.masks,
    fun l => ?_, fun l => ?_, fun l => ?_, fun l => ?_⟩
  all_goals rw [lane, lanes]
  · split
    · rfl
    · split <;> rfl
  · split <;> split <;> rfl
  · split <;> split <;> rfl
  · split <;> split <;> exact ⟨rfl, rfl⟩

/-- A warp whose arrival vector of mask n gains some lanes. -/
def Warp.arriving (w : Warp) (n : Nat) (held : List Nat) : Warp := { w with jh := w.jh.put n (w.jh.get n 0 ||| lanesMask held) }

/-- What a REJOIN's body does in the lanes that pass its switch point. -/
theorem rejoinBody_passed (small : o.a.toNat < 4) (passes : s.atSwitch c ls = (t, ls)) :
    let n := o.a.toNat
    let held := ls.filter (fun l => ((t.warp c.g c.slot).jm.get n 0).getLsbD l)
    rejoinBody s c o ls = .go
      (match held with
        | [] => t
        | _ => (t.setHolds c held (.rejoin n (t.cycles (dieOf c.g)))).updWarp c.g c.slot (fun w => (w.arriving n held).release n))
      held := by
  intro n held
  have keep : ls.filter (fun l => !ls.contains l || held.contains l) = held := List.filter_congr (fun l hl => by simp [held, hl])
  unfold rejoinBody
  simp only [passes, Nat.mod_eq_of_lt small]
  rw [keep]
  rfl

/-- The arrival vector of mask n with some lanes more. -/
def Warp.arrivals (w : Warp) (n : Nat) (held : List Nat) : W32 := w.jh.get n 0 ||| lanesMask held

/-- A state in which the release check of mask n has followed the arrival of some of its lanes. -/
structure LetGo (s u : State) (c : Issuer) (n : Nat) (held : List Nat) (x : Hold) (freed : W32) : Prop where
  only : WarpOnly s u c
  uniform : (u.warp c.g c.slot).w = (s.warp c.g c.slot).w
  regs : ∀ l, (u.lane c.g c.slot l).v = (s.lane c.g c.slot l).v ∧ (u.lane c.g c.slot l).p = (s.lane c.g c.slot l).p
  live : ∀ l, (u.lane c.g c.slot l).live = (s.lane c.g c.slot l).live
  calm : Calm s c → Calm u c
  masks : ∀ k, (u.warp c.g c.slot).jm.get k 0 = (s.warp c.g c.slot).jm.get k 0
  others : ∀ k, k ≠ n → (u.warp c.g c.slot).jh.get k 0 = (s.warp c.g c.slot).jh.get k 0
  goes : ∀ l st, l < 32 → freed.getLsbD l = true → (if l ∈ held then x else (s.lane c.g c.slot l).hold) = .rejoin n st →
    (u.lane c.g c.slot l).hold = .free ∧ (u.lane c.g c.slot l).pc = (s.lane c.g c.slot l).pc + 8
  stays : ∀ l, freed.getLsbD l = false → (u.lane c.g c.slot l).hold = (if l ∈ held then x else (s.lane c.g c.slot l).hold)
    ∧ (u.lane c.g c.slot l).pc = (s.lane c.g c.slot l).pc

/-- The release check after lanes have arrived at a REJOIN (R103). -/
theorem letGo_arrived {held : List Nat} {n : Nat} {x : Hold} (arr : Arrived s t c held x) (waits : x ≠ .park) :
    let w := s.warp c.g c.slot
    let m := w.jm.get n 0
    let h := w.arrivals n held
    let u := t.updWarp c.g c.slot (fun w => (w.arriving n held).release n)
    LetGo s u c n held x (freedLanes m w.liveMask h)
      ∧ (u.warp c.g c.slot).jh.get n 0 = if m &&& w.liveMask &&& ~~~h = 0 then 0 else h &&& m := by
  intro w m h u
  obtain ⟨jm, jh⟩ := arr.masks
  have mask : ((t.warp c.g c.slot).arriving n held).jm.get n 0 = m := congrArg (fun j : Map W32 => j.get n 0) jm
  have vector : ((t.warp c.g c.slot).arriving n held).jh.get n 0 = h := by
    rw [Warp.arriving, Map.get_put_self, jh]; rfl
  have live : ((t.warp c.g c.slot).arriving n held).liveMask = w.liveMask := liveMask_congr arr.live
  have warp : u.warp c.g c.slot = ((t.warp c.g c.slot).arriving n held).release n := State.warp_updWarp_self _ _ _ _
  have lane : ∀ l, u.lane c.g c.slot l = (((t.warp c.g c.slot).arriving n held).release n).lane l := fun l => by
    rw [State.lane, warp]
  obtain ⟨jm', jh', jhs', -, rest⟩ := release_outcome ((t.warp c.g c.slot).arriving n held) n
  have kept := fun l => lane_release_kept ((t.warp c.g c.slot).arriving n held) n l
  rw [mask, vector, live] at jh'
  refine ⟨⟨arr.only.trans (warpOnly_updWarp _ _ _), ?_, fun l => ?_, fun l => ?_, fun calm => ⟨?_, fun l => ?_⟩, fun k => ?_,
    fun k hk => ?_, fun l st hl free held => ?_, fun l free => ?_⟩, ?_⟩
  · have w' := congrArg Warp.w rest; rw [warp]; exact w'.trans arr.uniform
  · rw [lane, (kept l).2.1, (kept l).2.2.1]; exact arr.regs l
  · rw [lane, (kept l).1]; exact arr.live l
  · rw [warp, rest]; exact arr.pend.trans calm.1
  · rw [lane]
    refine (kept l).2.2.2 ?_
    show (t.lane c.g c.slot l).hold ≠ .park
    rw [arr.hold]
    split
    · exact waits
    · exact calm.2 l
  · rw [warp, jm']; exact congrArg (fun j : Map W32 => j.get k 0) jm
  · rw [warp, jhs' k hk, Warp.arriving, Map.get_put_ne _ _ _ _ _ hk, jh]
  · rw [← arr.hold l] at held
    rw [lane, ← arr.pc l]
    exact lane_release_freed hl held (by rw [mask, vector, live]; exact free)
  · rw [lane, lane_release_stays (by rw [mask, vector, live]; exact free), ← arr.hold l, ← arr.pc l]
    exact ⟨rfl, rfl⟩
  · rw [warp, jh']

/-- With no lane of the mask there, no release check is made. -/
theorem letGo_none {n : Nat} {x : Hold} (arr : Arrived s t c [] x) : LetGo s t c n [] x 0 := by
  obtain ⟨jm, jh⟩ := arr.masks
  refine ⟨arr.only, arr.uniform, arr.regs, arr.live, fun calm => ⟨arr.pend.trans calm.1, fun l => ?_⟩, fun k => by rw [jm],
    fun k _ => by rw [jh], fun l st _ free => by simp at free, fun l _ => ⟨arr.hold l, arr.pc l⟩⟩
  rw [arr.hold]
  exact calm.2 l

/-- The end of a REJOIN: what its body has done of the lanes that it holds and lets go, the advance of the others, and nothing
else. -/
theorem finish_letGo {held : List Nat} {n : Nat} {x : Hold} {freed : W32} (hu : c.unit = .lane) (calm : Calm s c)
    (body : LetGo s u c n held x freed) (sw : Bool) (ls : List Nat) (len : Nat) :
    let t := u.finish c sw ls len held
    (∀ l ∈ c.places, l ∉ held → s.stands c l = true → t.pcOf c l = c.pc + BitVec.ofNat 64 len ∧ t.holdOf c l = .free)
      ∧ (∀ l st, l < 32 → l ∉ c.places ∨ l ∈ held → freed.getLsbD l = true →
          (if l ∈ held then x else s.holdOf c l) = .rejoin n st → t.holdOf c l = .free ∧ t.pcOf c l = s.pcOf c l + 8)
      ∧ (∀ l, l ∉ c.places ∨ l ∈ held → freed.getLsbD l = false →
          t.holdOf c l = (if l ∈ held then x else s.holdOf c l) ∧ t.pcOf c l = s.pcOf c l)
      ∧ (t.warp c.g c.slot).jh = (u.warp c.g c.slot).jh
      ∧ (∀ k, (t.warp c.g c.slot).jm.get k 0 = (s.warp c.g c.slot).jm.get k 0)
      ∧ (∀ k, k ≠ n → (t.warp c.g c.slot).jh.get k 0 = (s.warp c.g c.slot).jh.get k 0)
      ∧ (∀ (x : RFile) (k l : Nat), t.reads c x k l = s.reads c x k l) ∧ WarpOnly s t c := by
  obtain ⟨only, reads, ⟨jm, jh⟩, moved, stays⟩ := finish_lanes hu body.only body.uniform body.regs sw ls len held
    (fun _ => body.calm calm)
  refine ⟨fun l hp hl st => ?_, fun l st hl out free hold => ?_, fun l out free => ?_, jh, fun k => ?_, fun k hk => ?_, reads, only⟩
  · refine moved l hp hl ?_
    rw [body.live, ← stands_lane hu, st]
  · obtain ⟨pc, hold'⟩ := stays l out
    rw [holdOf_lane hu] at hold
    rw [pc, hold', pcOf_lane hu]
    exact body.goes l st hl free hold
  · obtain ⟨pc, hold'⟩ := stays l out
    rw [pc, hold', pcOf_lane hu, holdOf_lane hu]
    exact body.stays l free
  · rw [jm, body.masks]
  · rw [jh, body.others k hk]

/-- A REJOIN's body, whether lanes of the mask are among its lanes or not. -/
theorem rejoinBody_letGo {held : List Nat} (small : o.a.toNat < 4) (hu : c.unit = .lane) (calm : Calm s c) (distinct : ls.Nodup)
    (ready : ∀ l ∈ ls, (s.lane c.g c.slot l).live = true ∧ (s.lane c.g c.slot l).pc = c.pc ∧ (s.lane c.g c.slot l).hold = .free)
    (hh : ls.filter (fun l => ((s.warp c.g c.slot).jm.get o.a.toNat 0).getLsbD l) = held) :
    let n := o.a.toNat
    let w := s.warp c.g c.slot
    let m := w.jm.get n 0
    let h := w.arrivals n held
    let x := Hold.rejoin n (s.cycles (dieOf c.g))
    ∃ u, rejoinBody s c o ls = .go u held
      ∧ (held = [] → LetGo s u c n held x 0 ∧ (u.warp c.g c.slot).jh.get n 0 = w.jh.get n 0)
      ∧ (held ≠ [] → LetGo s u c n held x (freedLanes m w.liveMask h)
          ∧ (u.warp c.g c.slot).jh.get n 0 = if m &&& w.liveMask &&& ~~~h = 0 then 0 else h &&& m) := by
  obtain ⟨t, passes, frame, house, lanes, uniform⟩ := atSwitch_calm hu calm distinct ready
  have body := rejoinBody_passed (o := o) small passes
  have arr := arrived_setHolds hu frame house lanes uniform held (.rejoin o.a.toNat (s.cycles (dieOf c.g)))
  simp only [frame.masks.1, frame.cycles, hh] at body
  cases held with
  | nil => exact ⟨t, body, fun _ => ⟨letGo_none arr, by rw [frame.masks.2]⟩, fun h => absurd rfl h⟩
  | cons l r => exact ⟨_, body, fun h => by simp at h, fun _ => letGo_arrived arr (by simp)⟩

/-! ### The obligation -/

/-- Settles O7: with no lane of the mask there, the lanes advance; else the lanes of it are held and the release check follows. -/
theorem rejoinHolds : Obligations.RejoinHolds := by
  intro s o ls hp calm c n w m held h freed ready
  have hu : c.unit = .lane := lane_of_wf hp.wf rfl rfl rfl
  have small : n < 4 := by
    have ok := (wf_ok hp.wf rfl rfl).1
    simp only [Bool.and_eq_true, decide_eq_true_eq] at ok
    exact ok.2
  have short : o.form.bytes = 8 := congrArg Form.bytes (form_of_wf hp.wf rfl rfl rfl)
  obtain ⟨distinct, inGroup⟩ := hp.sub
  have here : ∀ l, l ∈ held ↔ l ∈ ls ∧ m.getLsbD l = true := fun l => List.mem_filter
  have live : ∀ l ∈ ls, s.stands c l = true := fun l hl => (stands_lane hu l).trans (ready l hl).1
  have stood : ∀ l ∈ ls, s.pcOf c l = c.pc := fun l hl => (pcOf_lane hu l).trans (ready l hl).2.1
  have inWarp : ∀ l ∈ held, l < 32 := fun l hl => lt_of_place hu (inGroup l ((here l).mp hl).1)
  obtain ⟨u, body, unheld, some_⟩ := rejoinBody_letGo small hu calm distinct ready (rfl : _ = held)
  have does := does_of_go hp rfl body
  rw [Does, short] at does
  refine ⟨_, does, ?_⟩
  by_cases none : held = []
  · obtain ⟨letGo, vector⟩ := unheld none
    obtain ⟨moved, -, stays, jh, jms, jhs, reads, only⟩ := finish_letGo hu calm letGo o.sw ls 8
    have free : ∀ l, l ∉ held := by simp [none]
    refine ⟨fun l hl _ => moved l (inGroup l hl) (free l) (live l hl), fun some_ => absurd none some_,
      fun some_ => absurd none some_, fun _ _ _ _ _ some_ => absurd none some_, fun l hp _ => ?_, fun _ => ?_, jms, jhs,
      fun l hp hl => moved l hp (free l), reads, only⟩
    · simpa only [if_neg (free l)] using stays l (.inl hp) (by simp)
    · rw [jh, vector]
  · obtain ⟨letGo, vector⟩ := some_ none
    obtain ⟨moved, goes, stays, jh, jms, jhs, reads, only⟩ := finish_letGo hu calm letGo o.sw ls 8
    have out : ∀ l, l ∉ c.places → l ∉ held := fun l hp hl => hp (inGroup l ((here l).mp hl).1)
    refine ⟨fun l hl low => moved l (inGroup l hl) (fun hl => by rw [((here l).mp hl).2] at low; simp at low) (live l hl), fun _ all => ?_,
      fun _ waits => ?_, fun l hl hp st held' _ free => ?_, fun l hp free => ?_, fun none' => absurd none' none, jms, jhs,
      fun l hp hl => moved l hp (fun h => hl ((here l).mp h).1), reads, only⟩
    · have freed' : freedLanes m w.liveMask h = h := if_pos all
      refine ⟨by rw [jh, vector]; exact if_pos all, fun l hl => ?_⟩
      have inH : h.getLsbD l = true := by
        rw [BitVec.getLsbD_or, getLsbD_lanesMask held l (inWarp l hl)]
        simp [hl]
      obtain ⟨hold, pc⟩ := goes l _ (inWarp l hl) (.inr hl) (by rw [← inH]; exact congrArg (·.getLsbD l) freed') (if_pos hl)
      rw [pc, hold, stood l ((here l).mp hl).1]
      exact ⟨rfl, rfl⟩
    · have freed' : freedLanes m w.liveMask h = h &&& ~~~m := if_neg waits
      refine ⟨by rw [jh, vector]; exact if_neg waits, fun l hl => ?_⟩
      obtain ⟨hold, pc⟩ := stays l (.inr hl) (by
        have out : (h &&& ~~~m).getLsbD l = false := by simp [BitVec.getLsbD_and, BitVec.getLsbD_not, ((here l).mp hl).2]
        rw [← out]; exact congrArg (·.getLsbD l) freed')
      rw [pc, hold, stood l ((here l).mp hl).1, if_pos hl]
      exact ⟨rfl, rfl⟩
    · exact goes l st hl (.inl hp) free (by rw [if_neg (out l hp)]; exact held')
    · simpa only [if_neg (out l hp)] using stays l (.inl hp) (free.resolve_left none)

end Sys2Proof.Machine
end

section
/-! PROOF. Results of variable latency: they are left pending, and a switch marker parks the lanes that wait for them. -/

namespace Sys2Proof.Machine

variable {s t u : State} {c : Issuer} {i : Instr} {o : Ops} {f : Alu} {ls : List Nat} {pv : PegVals} {p : Pend}

/-! ### A result left pending (R97) -/

theorem untouched_addPend (hu : c.unit = .lane) (p : Pend) : Untouched s (s.addPend c p) c :=
  untouched_updWarp hu _ (fun _ => rfl) (fun _ _ => rfl)

theorem sameParty_addPend (p : Pend) : SameParty s (s.addPend c p) c := sameParty_updWarp _ (fun _ => rfl) (fun _ => rfl)

theorem warp_addPend (p : Pend) :
    (s.addPend c p).warp c.g c.slot = { s.warp c.g c.slot with pend := (s.warp c.g c.slot).pend ++ [p] } := by
  rw [State.addPend, State.warp_updWarp_self]

theorem fpflags_addPend (hu : c.unit = .lane) (p : Pend) : (s.addPend c p).fpflags c = s.fpflags c := by
  have blocks : ∀ k, (s.addPend c p).block c.g k = s.block c.g k := fun k => by simp [State.addPend, State.updWarp, State.block]
  simp only [State.fpflags, State.waveOf, State.blockOf, State.blkOf, hu, warp_addPend, blocks]

theorem pegs_addPend (p : Pend) : ((s.addPend c p).cl c.g).pegs = (s.cl c.g).pegs := by simp [State.addPend, State.updWarp]

/-- An operation of variable latency in lane code leaves its result pending (R97). -/
theorem State.giveResult_pending (hu : c.unit = .lane) (slow : varLat i (uses c.code i) = true) (r : Res) :
    s.giveResult i c o ls r = s.addPend c { lanes := if isUni c o then c.group else lanesMask ls, uni := isUni c o, pc := c.pc
                                            writes := r.1, flags := r.2 } := by
  unfold State.giveResult
  rw [if_pos (by simp [hu, slow])]

/-! ### The end of an issue with results pending (R98) -/

/-- The end of an issue of the whole group with a switch marker, while no result of the warp has arrived: its places advance, and
those of the marker's lanes that have a result pending park. -/
theorem finish_parks (hu : c.unit = .lane) (distinct : ls.Nodup) (len : Nat)
    (unready : ∀ p ∈ (s.warp c.g c.slot).pend, p.ready = false ∧ p.lanes ≠ 0) (free : ∀ l, (s.lane c.g c.slot l).hold ≠ .park) :
    let t := s.finish c true ls len []
    Untouched s t c ∧ SameHouse s t c ∧ (∀ x k l, t.reads c x k l = s.reads c x k l)
      ∧ ∀ l ∈ c.places, s.stands c l = true → t.pcOf c l = c.pc + BitVec.ofNat 64 len
        ∧ t.holdOf c l = if l ∈ ls ∧ (s.warp c.g c.slot).pendCount l ≠ 0 then .park else .free := by
  have runs : c.runs := .inl hu
  generalize hv : moveAll s c (movers s c []) (c.pc + BitVec.ofNat 64 len) = v
  have frame := untouched_moveAll (s := s) runs (movers s c []) (c.pc + BitVec.ofNat 64 len)
  have house := house_moveAll (s := s) (c := c) (movers s c []) (c.pc + BitVec.ofNat 64 len)
  have reads := reads_moveAll (s := s) runs (movers s c []) (c.pc + BitVec.ofNat 64 len)
  have stands := stands_moveAll (s := s) runs (movers s c []) (c.pc + BitVec.ofNat 64 len)
  have placed := placed_moveAll (s := s) runs (movers s c []) (c.pc + BitVec.ofNat 64 len)
  rw [hv] at frame house reads stands placed
  have count : ∀ l, (v.warp c.g c.slot).pendCount l = (s.warp c.g c.slot).pendCount l := fun l => by
    rw [Warp.pendCount, Warp.pendCount, house.pend]
  have moved : ∀ l ∈ c.places, s.stands c l = true → l ∈ movers s c [] := fun l hp st => by simp [movers, hp, st]
  obtain ⟨frame', house', reads', places⟩ := switchPoint_pending (s := v) (c := c) hu (by rw [house.pend]; exact unready)
    (fun l park => by
      rw [← holdOf_lane hu, (placed l).2] at park
      split at park
      · simp at park
      · exact absurd ((holdOf_lane hu l).symm.trans park) (free l))
    (ls.filter (fun l => (v.lane c.g c.slot l).live && decide ((v.lane c.g c.slot l).hold = .free))) (distinct.filter _)
  have ends : s.finish c true ls len [] = v.switchPoint c
      (ls.filter (fun l => (v.lane c.g c.slot l).live && decide ((v.lane c.g c.slot l).hold = .free))) := by
    rw [← hv]; unfold State.finish moveAll movers; simp [hu]
  rw [ends]
  refine ⟨frame.trans frame', house.trans house', fun x k l => by rw [reads', reads], fun l hp st => ?_⟩
  obtain ⟨pc, hold⟩ := places l
  obtain ⟨pc', hold'⟩ := placed l
  have mv := moved l hp st
  have live : (v.lane c.g c.slot l).live = true := by rw [← stands_lane hu, stands, st]
  rw [if_pos (.inl mv)] at pc' hold'
  have isFree : (v.lane c.g c.slot l).hold = .free := by rw [← holdOf_lane hu, hold']
  rw [pc, hold, pc', hold', count]
  simp [live, isFree]

/-- The lanes that a pending result concerns: the group's for a uniform operation, else the active ones (R78, R97). -/
def pendLanes (c : Issuer) (o : Ops) (ls : List Nat) : W32 := if isUni c o then c.group else lanesMask ls

theorem getLsbD_pendLanes (hu : c.unit = .lane) (inGroup : ∀ l ∈ ls, l ∈ c.places) {l : Nat} (hl : l ∈ ls) :
    (pendLanes c o ls).getLsbD l = true := by
  have place := inGroup l hl
  simp only [Issuer.places, hu] at place
  obtain ⟨small, bit⟩ := (mem_maskLanes _ _).mp place
  unfold pendLanes
  split
  · exact bit
  · rw [getLsbD_lanesMask ls l small]; simp [hl]

/-- The end of an issue that has left a result pending in a warp with nothing pending behind a switch marker. -/
theorem finish_pending (hu : c.unit = .lane) (distinct : ls.Nodup) (sw : Bool) (len : Nat) (p : Pend) (unready : p.ready = false)
    (concerns : ∀ l ∈ ls, p.lanes.getLsbD l = true) (some_ : ls ≠ []) (calm : sw = true → Calm u c) :
    let t := (u.addPend c p).finish c sw ls len []
    Untouched u t c ∧ SameHouse (u.addPend c p) t c ∧ (∀ x k l, t.reads c x k l = u.reads c x k l)
      ∧ ∀ l ∈ c.places, u.stands c l = true → t.pcOf c l = c.pc + BitVec.ofNat 64 len
        ∧ t.holdOf c l = if sw = true ∧ l ∈ ls then .park else .free := by
  have frame := untouched_addPend (s := u) hu p
  have same := sameParty_addPend (s := u) (c := c) p
  cases sw with
  | false =>
    obtain ⟨frame', house, advance, reads⟩ := finish_all (s := u.addPend c p) (.inl hu) false ls len (by simp)
    refine ⟨frame.trans frame', house, fun x k l => by rw [reads, same.reads], fun l hp st => ?_⟩
    simpa using advance.moved l hp (by rw [same.stands, st])
  | true =>
    obtain ⟨none, free⟩ := calm rfl
    have pend : ((u.addPend c p).warp c.g c.slot).pend = [p] := by rw [warp_addPend, none]; rfl
    have count : ∀ l ∈ ls, ((u.addPend c p).warp c.g c.slot).pendCount l ≠ 0 := fun l hl => by
      simp [Warp.pendCount, pend, concerns l hl]
    obtain ⟨l, hl⟩ := List.exists_mem_of_ne_nil _ some_
    have ne : p.lanes ≠ 0 := fun zero => by have bit := concerns l hl; simp [zero] at bit
    obtain ⟨frame', house, reads, places⟩ := finish_parks (s := u.addPend c p) hu distinct len
      (fun q hq => by rw [pend, List.mem_singleton] at hq; rw [hq]; exact ⟨unready, ne⟩) (fun l => by rw [← holdOf_lane hu, same.hold, holdOf_lane hu]; exact free l)
    refine ⟨frame.trans frame', house, fun x k l => by rw [reads, same.reads], fun l hp st => ?_⟩
    obtain ⟨pc, hold⟩ := places l hp (by rw [same.stands, st])
    refine ⟨pc, hold.trans ?_⟩
    by_cases hl : l ∈ ls
    · simp [hl, count l hl]
    · simp [hl]

/-! ### The obligation -/

/-- Settles O2: the result is left pending before the group advances, and at a switch marker the lanes that wait for it park. -/
theorem variableResult : Obligations.VariableResult := by
  refine ⟨?_, ?_⟩
  · intro s i o f ls u pv hf h hu slow calm
    obtain ⟨frame, same, warp, flags, -⟩ := pegReads_ok h.pegs
    obtain ⟨distinct, inGroup⟩ := h.sub
    obtain ⟨frame', house, reads, places⟩ := finish_pending (u := u) hu distinct o.sw o.form.bytes
      { lanes := pendLanes s.cur o ls, uni := isUni s.cur o, pc := s.cur.pc, writes := (f u s.cur o pv (resPlaces s.cur o ls)).1
        flags := (f u s.cur o pv (resPlaces s.cur o ls)).2 } rfl (fun l hl => getLsbD_pendLanes hu inGroup hl) h.some_
      (fun on => (calm on).of_stand hu (by rw [warp]) same.hold)
    refine ⟨_, ?_, fun x k l _ => ?_, ?_, ?_, fun l hp st => places l hp (by rw [same.stands, st]), frame.trans frame', ?_⟩
    · rw [exec_resultOf s hf, State.alu_issues h, State.giveResult_pending hu slow]; rfl
    · rw [reads, same.reads]
    · rw [house.fpflags, fpflags_addPend hu, flags]
    · rw [house.pend, warp_addPend, warp]; rfl
    · rw [house.pegs, pegs_addPend]
  · intro s o ls h on hu unready free
    obtain ⟨frame, house, reads, places⟩ := finish_parks hu h.sub.1 o.form.bytes unready free
    have does := does_of_go h rfl rfl
    rw [Does, on] at does
    exact ⟨_, does, .of frame house reads, places⟩

end Sys2Proof.Machine
end

section
/-! PROOF. LD, LDS and LDW: what a load that passes its checks gives to its registers, and what reading changes. -/

namespace Sys2Proof.Machine

variable {s t u : State} {c : Issuer} {i : Instr} {o : Ops} {ls : List Nat}

/-! ### What a load gives (R97, R200) -/

/-- A load's registers get what it has read: pending in lane code, at once elsewhere, unless POISON is raised. -/
def GivesLoad (s : State) (i : Instr) (o : Ops) (ls : List Nat) (u : State) (uni : Bool) (ws : List PWrite) (ps : Map W64) : Prop :=
  let c := s.cur
  let next := c.pc + BitVec.ofNat 64 o.form.bytes
  (c.unit = .lane → Does s i o ls (u.addPend c { lanes := if uni then c.group else lanesMask ls, uni := uni, pc := c.pc
                                                 writes := ws, poison := ps }) [])
    ∧ (c.unit ≠ .lane → ps = [] → Does s i o ls (u.writeAll c ws) [])
    ∧ (c.unit ≠ .lane → ∀ e rest, ps = e :: rest → Does s i o ls
        ((u.jump c 0 next).takeCause c [0] { code := 14, lanes := [0], addr := e.2 } c.pc next false) [0])

/-- A load with no poison writes at once, outside lane code. -/
theorem giveLoad_now (hu : c.unit ≠ .lane) (uni : Bool) (ws : List PWrite) :
    u.giveLoad c o uni ls ws none [] = (u.writeAll c ws, []) := by
  unfold State.giveLoad
  cases hc : c.unit with
  | lane => exact absurd hc hu
  | _ => rfl

/-- A load of a poisoned unit raises POISON, outside lane code. -/
theorem giveLoad_poison (hu : c.unit ≠ .lane) (uni : Bool) (ws : List PWrite) (e : Nat × W64) (rest : Map W64) :
    u.giveLoad c o uni ls ws none (e :: rest) = ((u.jump c 0 (c.pc + BitVec.ofNat 64 o.form.bytes)).takeCause c [0]
      { code := 14, lanes := [0], addr := e.2 } c.pc (c.pc + BitVec.ofNat 64 o.form.bytes) false, [0]) := by
  unfold State.giveLoad
  cases hc : c.unit with
  | lane => exact absurd hc hu
  | _ => rfl

/-- A body that gives what it has loaded. -/
theorem givesLoad_of_body {body : State → Issuer → Ops → PegVals → List Nat → Eff} (h : Plain s i o ls)
    (hx : exec i s = .next (s.issue i body)) {uni : Bool} {ws : List PWrite} {ps : Map W64}
    (hb : body s s.cur o [] ls = .go (u.giveLoad s.cur o uni ls ws none ps).1 (u.giveLoad s.cur o uni ls ws none ps).2) :
    GivesLoad s i o ls u uni ws ps := by
  refine ⟨fun hu => ?_, fun hu clean => ?_, fun hu e rest bad => ?_⟩
  · exact does_of_go h hx (by rw [hb]; simp only [State.giveLoad, hu])
  · rw [clean, giveLoad_now hu] at hb
    exact does_of_go h hx hb
  · rw [bad, giveLoad_poison hu] at hb
    exact does_of_go h hx hb

/-! ### The scratchpad (R202) -/

theorem opBytes_pos (o : Ops) : 0 < opBytes o := by
  have small : o.sub % 8 < 8 := Nat.mod_lt _ (by decide)
  unfold opBytes sizeBytes
  interval_cases o.sub % 8 <;> decide

/-- Offsets that are aligned and within the share pass the check. -/
theorem scratchCheck_passes {n : Nat} {off : Nat → Nat} (pos : 0 < n) (some_ : ls ≠ [])
    (good : ∀ l ∈ ls, off l % n = 0 ∧ off l + n ≤ (s.blockOf c).share) : s.scratchCheck c n off ls = none := by
  obtain ⟨l, hl⟩ := List.exists_mem_of_ne_nil _ some_
  have share : (s.blockOf c).share ≠ 0 := by have := (good l hl).2; omega
  have odd : ls.filter (fun l => decide (off l % n ≠ 0)) = [] := List.filter_eq_nil_iff.mpr (fun l hl => by simp [(good l hl).1])
  have far : ls.filter (fun l => decide ((s.blockOf c).share < off l + n)) = [] :=
    List.filter_eq_nil_iff.mpr (fun l hl => by simpa using (good l hl).2)
  simp only [State.scratchCheck, if_neg share, odd, far]

/-! ### Reading changes no party -/

theorem isLocal_congr (same : t.ctl = s.ctl) (pa : Nat) : t.isLocal pa = s.isLocal pa := by
  unfold State.isLocal State.pkgId State.pkgReg State.ctlOf
  rw [same]

theorem MemoryOnly.ctl (h : MemoryOnly s t) : t.ctl = s.ctl := by
  have ctl := congrArg State.ctl h.package
  exact ctl

/-- Reading a piece of local memory changes nothing but memory and its watches. -/
theorem memoryOnly_readPiece (who : List Thread) (g : Nat) (noL1 : Bool) {p : Piece} (here : s.isLocal p.pa = true) :
    MemoryOnly s (s.readPiece who g noL1 p).1 := by
  simp only [State.readPiece, here, if_true]
  exact kept_memoryOnly.loadLine s g p.cls _ _ noL1

theorem Local.of_ctl {ps : List Piece} (here : Local s ps) (same : t.ctl = s.ctl) : Local t ps := fun p hp => by
  rw [isLocal_congr same]
  exact here p hp

theorem memoryOnly_readPieces (who : List Thread) (g : Nat) (noL1 : Bool) {ps : List Piece} (here : Local s ps) :
    MemoryOnly s (s.readPieces who g noL1 ps).1 :=
  List.foldlRecOn (motive := fun x : State × List Byte × Option W64 => MemoryOnly s x.1) ps _ (.refl s) (fun _ so_far p hp =>
    so_far.trans (memoryOnly_readPiece who g noL1 ((here.of_ctl so_far.ctl) p hp).1))

theorem readReq_local (who : List Thread) (g : Nat) (noL1 : Bool) {ps : List Piece} (here : Local s ps) :
    s.readReq who g noL1 ps = s.readPieces who g noL1 ps := by
  have plain : ∀ p ∈ ps, s.pieceIo p = false := fun p hp => by simp [State.pieceIo, (here p hp).2]
  match ps, plain with
  | [], _ => rfl
  | [p], plain => simp only [State.readReq, plain p (by simp), Bool.false_eq_true, if_false]
  | _ :: _ :: _, _ => rfl

theorem memoryOnly_readReq (who : List Thread) (g : Nat) (noL1 : Bool) {ps : List Piece} (here : Local s ps) :
    MemoryOnly s (s.readReq who g noL1 ps).1 := by
  rw [readReq_local who g noL1 here]
  exact memoryOnly_readPieces who g noL1 here

theorem memoryOnly_loadAll {qs : List (Req × List Piece)} (here : ∀ q ∈ qs, Local s q.2) : MemoryOnly s (s.loadAll c o qs).1 :=
  List.foldlRecOn (motive := fun x : State × List PWrite × Map W64 => MemoryOnly s x.1) qs _ (.refl s) (fun _ so_far q hq =>
    so_far.trans (memoryOnly_readReq _ _ _ ((here q hq).of_ctl so_far.ctl)))

/-! ### The hint .STRM (R197) -/

theorem hinted_other (h : o.sub / 8 ≠ 1) (t s : State) (g : Nat) : t.hinted s g o = t := if_neg h

theorem hinted_strm (h : o.sub / 8 = 1) (t s : State) (g : Nat) : t.hinted s g o = t.markStrm s g := if_pos h

theorem memoryOnly_hinted (t s : State) (g : Nat) (o : Ops) : MemoryOnly t (t.hinted s g o) := by
  by_cases h : o.sub / 8 = 1
  · rw [hinted_strm h, State.markStrm]; exact memoryOnly_updMem t _
  · rw [hinted_other h]; exact .refl t

theorem agKey_slot (slot : Nat) {line : Nat} (h : line < 2 ^ 45) : agKey slot line / 2 ^ 45 = slot := by
  unfold agKey; omega

/-- A line that comes into the cluster's L1 with the hint is marked. -/
theorem strm_of_l1Line {g line : Nat} {x : L1Line} (small : line < 2 ^ 45) (absent : s.mem.l1Line g line = none)
    (present : (t.markStrm s g).mem.l1Line g line = some x) : x.strm = true := by
  rw [Memory.l1Line] at absent present
  simp only [State.markStrm, State.updMem, Map.find?_mapv, agKey_slot g small, Map.has, absent] at present
  obtain ⟨y, -, rfl⟩ := Option.map_eq_some_iff.mp present
  rfl

/-- A line that comes into the die's L2 with the hint is marked. -/
theorem strm_of_cline {g line : Nat} {y : CLine} (small : line < 2 ^ 45) (absent : s.mem.cline (s.agentId (dieOf g)) line = none)
    (present : (t.markStrm s g).mem.cline (s.agentId (dieOf g)) line = some y) : y.strm = true := by
  rw [Memory.cline] at absent present
  simp only [State.markStrm, State.updMem, Map.find?_mapv, agKey_slot _ small, Map.has, absent] at present
  obtain ⟨x, -, rfl⟩ := Option.map_eq_some_iff.mp present
  rfl

/-! ### Stack 15 (R305, R316) -/

theorem readReq_io (who : List Thread) (g : Nat) (noL1 : Bool) {p : Piece} (io : s.pieceIo p = true) :
    s.readReq who g noL1 [p] = (s, leBytes p.n (s.ioRead (paOff p.pa) p.n), none) := by
  simp only [State.readReq, io, if_true]

theorem ioRead_reg {off x k : Nat} (h : ioPlace off = .reg x k 0) : s.ioRead off 8 = (s.regRead x k).toNat := by
  have small := (s.regRead x k).isLt
  simp only [State.ioRead, h]
  omega

theorem ioRead_tail {off q : Nat} (h : ioPlace off = .port q 0) : s.ioRead off 8 = (s.queue q).tail % 2 ^ 64 := by
  simp only [State.ioRead, h]
  rfl

/-! ### The obligation -/

/-- Settles O14: each load by what its body has read once its checks pass. -/
theorem loads : Obligations.Loads := by
  intro s i o ls qs h c next gives
  refine ⟨?_, ?_, ?_, fun t => ⟨fun other => hinted_other other _ _ _, fun strm line x y small => ⟨fun absent present => ?_,
    fun absent present => ?_⟩⟩, fun who g noL1 p io => ?_⟩
  · rintro rfl check
    refine ⟨?_, fun here => (memoryOnly_loadAll here).trans (memoryOnly_hinted _ _ _ _)⟩
    refine givesLoad_of_body h rfl (u := (s.loadAll c o qs).1.hinted s c.g o) ?_
    have passed : s.checkAccess s.cur .read { al := opBytes o } (ls.map (fun l => ⟨l, s.addrAB s.cur o l, opBytes o⟩)) = .ok qs :=
      check
    simp only [ldBody, passed]
    rfl
  · rintro rfl good
    refine givesLoad_of_body h rfl ?_
    have passed : s.scratchCheck s.cur (opBytes o) (s.scratchOff s.cur o) ls = none := scratchCheck_passes (opBytes_pos o) h.some_ good
    simp only [ldsBody, passed]
    rfl
  · rintro rfl l check r
    refine givesLoad_of_body h rfl ?_
    have passed : s.checkAccess s.cur .read { al := opBytes o } [⟨ls.headD 0, s.addrAB s.cur o (ls.headD 0), opBytes o⟩] = .ok qs :=
      check
    simp only [ldwBody, passed]
    rfl
  · rw [hinted_strm strm] at present
    exact strm_of_l1Line small absent present
  · rw [hinted_strm strm] at present
    exact strm_of_cline small absent present
  · rw [readReq_io who g noL1 io]
    refine ⟨rfl, rfl, fun eight => ⟨fun x k place => ?_, fun q place => ?_⟩⟩
    · rw [eight, leNat_leBytes, ioRead_reg place]
      have small := (s.regRead x k).isLt
      omega
    · rw [eight, leNat_leBytes, ioRead_tail place]
      omega

end Sys2Proof.Machine
end

section
/-! PROOF. What the hub and the engines do to translate an address and to write for a task changes no party: the clusters stand. -/

namespace Sys2Proof.Machine

variable {s t u : State}

/-- The clusters are as they were. -/
structure SameClusters (s t : State) : Prop where
  same : t.clusters = s.clusters

theorem SameClusters.refl (s : State) : SameClusters s s := ⟨rfl⟩

theorem SameClusters.trans (a : SameClusters s t) (b : SameClusters t u) : SameClusters s u := ⟨b.same.trans a.same⟩

theorem SameParties.clusters (h : SameParties s t) : SameClusters s t := ⟨h.1⟩

/-- The clusters stand through every access of memory. -/
theorem asks_sameClusters : Asks SameClusters where
  refl := .refl
  trans := .trans
  mem s f h := (kept_sameParties.mem s f h).clusters
  touch s l a := (kept_sameParties.touch s l a).clusters
  watch s l m := (kept_sameParties.watch s l m).clusters
  sent s who line write := (asks_sameParties.sent s who line write).clusters

abbrev kept_sameClusters : Kept SameClusters := asks_sameClusters.toKept

theorem sameClusters_sendMsi (s : State) (x : W64) : SameClusters s (s.sendMsi x) := (sendMsi_frame s x).1.clusters

theorem sameClusters_updMem (s : State) (f : Memory → Memory) : SameClusters s (s.updMem f) := ⟨rfl⟩

theorem sameClusters_updQueue (s : State) (q : Nat) (f : Queue → Queue) : SameClusters s (s.updQueue q f) := ⟨rfl⟩

theorem sameClusters_withWork (s : State) (x : Work) : SameClusters s { s with work := x } := ⟨rfl⟩

theorem sameClusters_withXl (s : State) (x : Xlate) : SameClusters s { s with xl := x } := ⟨rfl⟩

/-! ### Frame pools (R58, R59) -/

theorem sameClusters_readPool (s : State) (pa : Nat) : SameClusters s (s.readPool pa).1 := kept_sameClusters.physRead s pa 32

theorem sameClusters_poolFrame (s : State) (p : Pool) : SameClusters s (s.poolFrame p).1 := by
  have word := kept_sameClusters.physWord s (p.base + 8 * (p.head % 2 ^ p.log))
  unfold State.poolFrame
  generalize s.physWord (p.base + 8 * (p.head % 2 ^ p.log)) = x at word ⊢
  exact word

theorem sameClusters_advancePool (s : State) (pa : Nat) (p : Pool) : SameClusters s (s.advancePool pa p) := by
  have word := kept_sameClusters.physSetWord s (pa + 16) (BitVec.ofNat 64 (p.head + 1))
  unfold State.advancePool
  split
  · exact word.trans (sameClusters_sendMsi _ _)
  · exact word

theorem sameClusters_passBad (n : Nat) (s : State) (pa : Nat) : SameClusters s (State.passBad n s pa) := by
  induction n generalizing s with
  | zero => exact .refl s
  | succ n ih =>
    have read := sameClusters_readPool s pa
    unfold State.passBad
    simp only []
    split
    · exact read
    · split
      · exact ((read.trans (sameClusters_poolFrame _ _)).trans (sameClusters_advancePool _ _ _)).trans (ih _)
      · exact read

theorem sameClusters_passPools (s : State) : SameClusters s s.passPools :=
  kept_sameClusters.foldl (fun (s : State) f => State.passBad s.out.badFrames.length s (s.poolAddr (paStack f) (paPcg f)))
    (fun _ _ => sameClusters_passBad _ _ _) s _

theorem sameClusters_search {k : Option Nat} {e : Except Nat Nat} {f : Nat → State × Except Nat Nat} (none_ : SameClusters s t)
    (some_ : ∀ k, SameClusters s (f k).1) : SameClusters s (match k with | none => (t, e) | some k => f k).1 := by
  cases k with
  | none => exact none_
  | some k => exact some_ k

-- The searches are opened one at a time, through the lemma above: to compare two of them the kernel would count a pool's frames.
theorem sameClusters_takeFrame (s : State) (row : Nat) : SameClusters s (s.takeFrame row).1 := by
  have pass := sameClusters_passPools s
  rw [State.takeFrame]
  generalize s.passPools = v at pass ⊢
  generalize List.find? _ (v.stackOrder row) = found
  refine sameClusters_search pass (fun k => ?_)
  conv => arg 2; arg 1; with_reducible whnf
  generalize List.find? _ _ = found
  obtain _ | g := found
  · exact pass
  conv => arg 2; arg 1; with_reducible whnf
  have read := pass.trans (sameClusters_readPool v (v.poolAddr k g))
  generalize v.readPool (v.poolAddr k g) = x at read ⊢
  obtain ⟨w, p⟩ := x
  have head := read.trans (sameClusters_poolFrame w p)
  generalize w.poolFrame p = x at head ⊢
  obtain ⟨u, f⟩ := x
  split
  · exact (head.trans (sameClusters_advancePool _ _ _)).trans (sameClusters_withXl _ _)
  · exact head

/-- The frame at the head of a colocation record's pool, when it is good (R59). -/
def State.takeRecord (s : State) (pa : Nat) : State × Except Nat Nat :=
  let (s, p) := s.readPool pa
  if p.count = 0 then (s, .error 3)
  else
    let (s, f) := s.poolFrame p
    if f % 32768 = 0 && s.isLocal f && decide (f < 2 ^ 52) && !s.out.badFrames.contains f
        && paStack f = p.key % 16 && paPcg f = bitsN p.key 4 3 && paBank f = bitsN p.key 7 5
        && paSub f = bitsN p.key 12 4 then
      (s.advancePool pa p, .ok f)
    else (s, .error 5)

theorem takeColo_eq (s : State) (c : Nat) : s.takeColo c =
    (State.passBad s.out.badFrames.length s (s.pkgReg 0x10B + 32 * c)).takeRecord (s.pkgReg 0x10B + 32 * c) := rfl

theorem sameClusters_takeRecord (s : State) (pa : Nat) : SameClusters s (s.takeRecord pa).1 := by
  have read := sameClusters_readPool s pa
  unfold State.takeRecord
  generalize s.readPool pa = x at read ⊢
  obtain ⟨v, p⟩ := x
  have head := read.trans (sameClusters_poolFrame v p)
  dsimp only at read head ⊢
  split
  · exact read
  generalize v.poolFrame p = y at head ⊢
  obtain ⟨w, f⟩ := y
  dsimp only at head ⊢
  split
  · exact head.trans (sameClusters_advancePool w pa p)
  · exact head

theorem sameClusters_takeColo (s : State) (c : Nat) : SameClusters s (s.takeColo c).1 := by
  rw [takeColo_eq]
  exact (sameClusters_passBad _ s _).trans (sameClusters_takeRecord _ _)

/-! ### Walks and widening (R52 to R60, R289) -/

theorem sameClusters_zeroFrame (s : State) (f : Nat) : SameClusters s (s.zeroFrame f) := ⟨rfl⟩

theorem sameClusters_firstTouch (s : State) (pa : Nat) (e : W64) (aspace : Nat) (va : W64) (a : Access) (who : Option Nat) :
    SameClusters s (s.firstTouch pa e aspace va a who).1 := by
  unfold State.firstTouch
  split
  · exact .refl s
  split
  · exact .refl s
  simp only []
  have took : SameClusters s (if bitsN e.toNat 15 16 ≠ 0 then s.takeColo (bitsN e.toNat 15 16) else s.takeFrame (rowOf who)).1 := by
    split
    · exact sameClusters_takeColo s _
    · exact sameClusters_takeFrame s _
  generalize (if bitsN e.toNat 15 16 ≠ 0 then s.takeColo (bitsN e.toNat 15 16) else s.takeFrame (rowOf who)) = x at took ⊢
  obtain ⟨v, n | f⟩ := x
  · exact took
  · simp only [apply_ite Prod.fst, ite_self]
    exact (took.trans (sameClusters_zeroFrame v f)).trans (kept_sameClusters.physSetWord _ pa _)

theorem sameClusters_setAD (s : State) (pa : Nat) (a : Access) (die : Option Nat) : SameClusters s (s.setAD pa a die) := by
  have read := kept_sameClusters.physWord s pa die
  unfold State.setAD
  exact kept_sameClusters.ite read (read.trans (kept_sameClusters.physSetWord _ _ _))

theorem sameClusters_contigRun (s : State) (pa : Nat) (die : Option Nat) : SameClusters s (s.contigRun pa die).1 :=
  kept_sameClusters.physRead s _ 256 die

theorem sameClusters_walkLeaf (s : State) (pa lvl : Nat) (e : W64) (aspace : Nat) (va : W64) (a : Access) (who : Option Nat) :
    SameClusters s (s.walkLeaf pa lvl e aspace va a who).1 := by
  have run := sameClusters_contigRun s pa (who.map dieOf)
  unfold State.walkLeaf
  split
  · exact .refl s
  split
  · exact .refl s
  split
  · exact .refl s
  split
  · exact .refl s
  simp only []
  split
  · split
    · exact run.trans (kept_sameClusters.foldl (fun (s : State) k => s.setAD (pa / 256 * 256 + 8 * k) a (who.map dieOf))
        (fun _ _ => sameClusters_setAD _ _ _ _) _ _)
    · refine (run.trans ?_).trans (sameClusters_setAD _ _ _ _)
      exact ⟨State.setCtl_clusters _ _ _ _⟩
  · exact sameClusters_setAD s pa a _

theorem sameClusters_walkEntry (s : State) (who : Option Nat) (lvl aspace : Nat) (va : W64) (pa : Nat) :
    SameClusters s (s.walkEntry who lvl aspace va pa).1 := by
  unfold State.walkEntry
  split
  · exact .refl s
  · refine (kept_sameClusters.physWord s pa (who.map dieOf)).trans ?_
    simp only [State.wcachePut]
    split
    · split <;> exact ⟨rfl⟩
    · exact ⟨rfl⟩

theorem sameClusters_walkTable (lvl : Nat) (s : State) (tbl aspace : Nat) (va : W64) (a : Access) (who : Option Nat) :
    SameClusters s (s.walkTable lvl tbl aspace va a who).1 := by
  induction lvl generalizing s tbl with
  | zero =>
    have entry := sameClusters_walkEntry s who 0 aspace va (tbl + 8 * bitsN va.toNat (15 + 12 * 0) 12)
    unfold State.walkTable
    simp only []
    split
    · split
      · exact entry.trans (sameClusters_firstTouch _ _ _ _ _ _ _)
      · exact entry
    split
    · exact entry.trans (sameClusters_walkLeaf _ _ _ _ _ _ _ _)
    split <;> exact entry
  | succ l ih =>
    have entry := sameClusters_walkEntry s who (l + 1) aspace va (tbl + 8 * bitsN va.toNat (15 + 12 * (l + 1)) 12)
    unfold State.walkTable
    simp only []
    split
    · split
      · split
        · exact entry.trans (sameClusters_firstTouch _ _ _ _ _ _ _)
        · exact entry
      · exact entry
    split
    · exact entry.trans (sameClusters_walkLeaf _ _ _ _ _ _ _ _)
    split
    · exact entry
    · exact entry.trans (ih _ _)

theorem sameClusters_rootOf (s : State) (aspace : Nat) : SameClusters s (s.rootOf aspace).1 := by
  have read := kept_sameClusters.physRead s (s.pkgReg 0x109 + 16 * aspace) 16
  unfold State.rootOf
  split
  · exact .refl s
  · simp only []
    split <;> exact read

theorem sameClusters_walk (s : State) (aspace : Nat) (va : W64) (a : Access) (who : Option Nat) :
    SameClusters s (s.walk aspace va a who).1 := by
  have root := sameClusters_rootOf s aspace
  unfold State.walk
  split <;> rename_i h <;> rw [h] at root
  · exact root
  · exact root.trans (sameClusters_walkTable _ _ _ _ _ _ _)

theorem sameClusters_findLeaf (lvl : Nat) (s : State) (tbl : Nat) (va : W64) : SameClusters s (State.findLeaf lvl s tbl va).1 := by
  induction lvl generalizing s tbl with
  | zero =>
    have word := kept_sameClusters.physWord s (tbl + 8 * bitsN va.toNat (15 + 12 * 0) 12)
    unfold State.findLeaf
    simp only []
    split
    · exact word
    split <;> exact word
  | succ l ih =>
    have word := kept_sameClusters.physWord s (tbl + 8 * bitsN va.toNat (15 + 12 * (l + 1)) 12)
    unfold State.findLeaf
    simp only []
    split
    · exact word
    split
    · exact word
    · exact word.trans (ih _ _)

theorem sameClusters_shootdown (s : State) (all : Bool) (aspace : Nat) (range : Option (Nat × Nat)) (ats : Bool) :
    SameClusters s (s.shootdown all aspace range ats) := ⟨rfl⟩

/-- The lines of a page leave an L1, or every L1 of a die. -/
theorem sameClusters_flushLines (s : State) (ls : List Nat) (own : Prop) [Decidable own] (g die : Nat) :
    SameClusters s (ls.foldl (fun (s : State) l =>
      if own then s.flushL1 g l else (List.range 20).foldl (fun s k => s.updMem (fun m => m.dropL1 (die * 20 + k) l)) s) s) :=
  kept_sameClusters.foldl _ (fun _ l => kept_sameClusters.ite (kept_sameClusters.flushL1 _ _ _)
    (kept_sameClusters.foldl (fun (s : State) k => s.updMem (fun m => m.dropL1 (die * 20 + k) l))
      (fun _ _ => kept_sameClusters.dropL1 _ _ _) _ _)) s ls

/-- The lines of a page leave the caches of a die. -/
theorem sameClusters_evictLines (s : State) (ls : List Nat) (die : Nat) :
    SameClusters s (ls.foldl (fun s l =>
      let s := s.evictAgent (s.agentId die) l
      let s := s.updMem (fun m => m.clearResv l)
      s.putSide l { (({} : Side)) with poison := (s.mem.sideOf l).poison }) s) :=
  kept_sameClusters.foldl _ (fun s l => ((kept_sameClusters.evictAgent s _ l).trans (kept_sameClusters.clearResv _ l)).trans
    (kept_sameClusters.putSide _ l _)) s ls

theorem sameClusters_widenAt (s : State) (root aspace : Nat) (va : W64) (who : Option Nat) :
    SameClusters s (s.widenAt root aspace va who) := by
  have leaf := sameClusters_findLeaf 2 s root va
  unfold State.widenAt
  split <;> rename_i h <;> rw [h] at leaf
  · exact leaf
  next v pa lvl e =>
  simp only []
  split
  · exact leaf
  have shot := SameClusters.trans leaf (sameClusters_shootdown v false aspace
    (some (va.toNat / levelBytes lvl * (levelBytes lvl / 32768), levelBytes lvl / 32768)) false)
  generalize v.shootdown false aspace _ false = w at shot ⊢
  have flushed := shot.trans (sameClusters_flushLines w (w.pageLines (ptePa e) (levelBytes lvl)) (pteCls e = 0) (pteOwner e)
    (if pteCls e = 0 then dieOf (pteOwner e) else pteOwner e))
  refine flushed.trans (kept_sameClusters.ite (kept_sameClusters.physSetWord _ _ _) ?_)
  exact ((sameClusters_evictLines _ _ _).trans (sameClusters_updMem _ _)).trans (kept_sameClusters.physSetWord _ _ _)

theorem sameClusters_widenPage (s : State) (aspace : Nat) (va : W64) (who : Option Nat) : SameClusters s (s.widenPage aspace va who) := by
  have root := sameClusters_rootOf s aspace
  unfold State.widenPage
  split <;> rename_i h <;> rw [h] at root
  · exact root
  · exact root.trans (sameClusters_widenAt _ _ _ _ _)

theorem sameClusters_walkNow (s : State) (aspace : Nat) (va : W64) (a : Access) (who : Option Nat) :
    SameClusters s (s.walkNow aspace va a who).1 := by
  have first := sameClusters_walk s aspace va a who
  unfold State.walkNow
  split
  · next v h =>
    rw [h] at first
    have second := (first.trans (sameClusters_widenPage v aspace va who)).trans (sameClusters_walk _ aspace va a who)
    simp only []
    split
    · next w h' =>
      rw [h'] at second
      exact (second.trans (sameClusters_widenPage w aspace va who)).trans (sameClusters_walk _ aspace va a who)
    · exact second
  · exact first

/-! ### Accesses of units (R30, R315) -/

theorem sameClusters_unitXlate (s : State) (aspace : Nat) (va : W64) (a : Access) (who : Option Nat) :
    SameClusters s (s.unitXlate aspace va a who).1 := by
  have walked := sameClusters_walkNow s aspace va a who
  unfold State.unitXlate
  split
  · exact .refl s
  split
  · exact walked
  split
  · exact .refl s
  split
  · exact .refl s
  split <;> rename_i h <;> rw [h] at walked
  · exact walked.trans ⟨rfl⟩
  · exact walked

theorem sameClusters_unitPages (fuel : Nat) (s : State) (aspace : Nat) (va : W64) (n : Nat) (a : Access) (who : Option Nat) :
    SameClusters s (State.unitPages fuel s aspace va n a who).1 := by
  induction fuel generalizing s va n with
  | zero => exact .refl s
  | succ f ih =>
    have page := sameClusters_unitXlate s aspace va a who
    unfold State.unitPages
    split
    · exact .refl s
    split <;> rename_i h <;> rw [h] at page
    · exact page
    · exact page.trans (ih _ _ _)

theorem sameClusters_unitPut (s : State) (cls line off : Nat) (b : List Byte) : SameClusters s (s.unitPut none cls line off b) := by
  unfold State.unitPut
  simp only [Bool.false_and, Bool.false_eq_true, if_false]
  split
  · exact asks_sameClusters.askWrite s _ line
  split
  · exact ⟨rfl⟩
  · exact kept_sameClusters.homeWrite s line _ _ _ _

theorem sameClusters_unitWrite (fuel : Nat) (s : State) (aspace : Nat) (va : W64) (b : List Byte) :
    SameClusters s (State.unitWrite fuel s aspace va b none) := by
  induction fuel generalizing s va b with
  | zero => exact .refl s
  | succ f ih =>
    have page := sameClusters_unitXlate s aspace va .write none
    unfold State.unitWrite
    split
    · exact .refl s
    split <;> rename_i h <;> rw [h] at page
    · exact (page.trans (sameClusters_unitPut _ _ _ _ _)).trans (ih _ _ _)
    · exact page

theorem sameClusters_wrt (s : State) (aspace : Nat) (va : W64) (b : List Byte) : SameClusters s (s.wrt aspace va b none).1 := by
  have pages := sameClusters_unitPages (b.length / 32768 + 3) s aspace va b.length .write none
  unfold State.wrt
  split
  · next h =>
    rw [h] at pages
    exact pages.trans (sameClusters_unitWrite _ _ _ _ _)
  · exact pages

/-! ### What a task's end writes (R45, R317, R322) -/

theorem sameClusters_setHead (s : State) (q h : Nat) : SameClusters s (s.setHead q h) :=
  (sameClusters_updQueue s q _).trans (kept_sameClusters.physSetWord _ _ _)

theorem sameClusters_setTail (s : State) (q h : Nat) : SameClusters s (s.setTail q h) :=
  (sameClusters_updQueue s q _).trans (kept_sameClusters.physSetWord _ _ _)

theorem sameClusters_stopQueue (s : State) (q code : Nat) (addr : W64) : SameClusters s (s.stopQueue q code addr) :=
  (((sameClusters_updQueue s q _).trans (kept_sameClusters.physSetWord _ _ _)).trans (kept_sameClusters.physWrite _ _ _ _)).trans
    (sameClusters_sendMsi _ _)

theorem sameClusters_cqNotify (s : State) (q : Nat) : SameClusters s (s.cqNotify q) := by
  unfold State.cqNotify
  exact kept_sameClusters.ite ((sameClusters_updQueue s q _).trans (sameClusters_sendMsi _ _)) (sameClusters_updQueue s q _)

theorem sameClusters_of_wrt {aspace : Nat} {va : W64} {b : List Byte} {r : Got PUnit} (h : s.wrt aspace va b none = (t, r)) :
    SameClusters s t := by
  have written := sameClusters_wrt s aspace va b
  rwa [h] at written

theorem sameClusters_cqWrite (s : State) (q : Nat) (e : CqEntry) : SameClusters s (s.cqWrite q e) := by
  unfold State.cqWrite
  simp only []
  split <;> rename_i h
  · exact (((sameClusters_of_wrt h).trans (sameClusters_updQueue _ q _)).trans (sameClusters_setTail _ q _)).trans
      (sameClusters_cqNotify _ q)
  · exact (sameClusters_of_wrt h).trans (sameClusters_stopQueue _ _ _ _)

theorem sameClusters_cqDrain (fuel : Nat) (s : State) (q : Nat) : SameClusters s (State.cqDrain fuel s q) := by
  induction fuel generalizing s with
  | zero => exact .refl s
  | succ f ih =>
    unfold State.cqDrain
    simp only []
    split
    · exact .refl s
    split
    · exact ((sameClusters_updQueue s q _).trans (sameClusters_cqWrite _ q _)).trans (ih _)
    · exact .refl s

theorem sameClusters_taskErr (s : State) (e : CqEntry) : SameClusters s (s.taskErr e) := by
  unfold State.taskErr State.cqPush
  simp only []
  split
  · exact .refl s
  split
  · exact (sameClusters_updQueue s _ _).trans (sameClusters_cqDrain _ _ _)
  · exact .refl s

theorem sameClusters_slotRetire (s : State) (q id : Nat) : SameClusters s (s.slotRetire q id) := by
  unfold State.slotRetire
  simp only []
  split
  · exact ⟨rfl⟩
  · exact (sameClusters_updQueue s q _).trans (sameClusters_setHead _ q _)

theorem sameClusters_ctrAdvance (s : State) (pa k : Nat) (f : Bool) : SameClusters s (s.ctrAdvance pa k f) := by
  cases here : s.isLocal pa with
  | true => exact kept_sameClusters.ctrAdvance s pa k f here
  | false =>
    unfold State.ctrAdvance
    rw [here]
    exact asks_sameClusters.askWrite s [] _

theorem sameClusters_writeRec (s : State) (r : FqRec) : SameClusters s (s.writeRec r) := by
  unfold State.writeRec
  exact kept_sameClusters.ite (kept_sameClusters.physWrite s _ _ _) (.refl s)

theorem sameClusters_setCtl (s : State) (i n : Nat) (x : W64) : SameClusters s (s.setCtl i n x) := ⟨rfl⟩

theorem sameClusters_recordFault (s : State) (die aspace : Nat) (va : W64) (a : Access) (reason : Nat) (who : List Requester) :
    SameClusters s (s.recordFault die aspace va a reason who) := by
  unfold State.recordFault State.recordFaults
  simp only []
  split
  · exact (sameClusters_withXl s _).trans (sameClusters_writeRec _ _)
  split
  · have stored := fun x r n y => (((sameClusters_withXl s x).trans (sameClusters_writeRec _ r)).trans (sameClusters_setCtl _ (1 + die) n y))
    exact kept_sameClusters.ite ((stored _ _ _ _).trans (sameClusters_sendMsi _ _)) (stored _ _ _ _)
  · exact (sameClusters_withXl s _).trans (sameClusters_setCtl _ _ _ _)

/-- DONE advances without a change of any party (R45, R365). -/
theorem sameClusters_taskDone (s : State) (g : Nat) (x : Task) (poison : Bool) : SameClusters s (s.taskDone g x poison) := by
  unfold State.taskDone
  split
  · exact sameClusters_slotRetire s _ _
  have page := sameClusters_unitXlate s (s.queue x.queue).aspace x.done .write (some g)
  simp only []
  split <;> rename_i h <;> rw [h] at page
  · refine page.trans (SameClusters.trans ?_ (sameClusters_slotRetire _ _ _))
    split
    · exact sameClusters_ctrAdvance _ _ _ _
    · exact .refl _
  · split
    · exact (page.trans (sameClusters_taskErr _ _)).trans (sameClusters_slotRetire _ _ _)
    have noted := fun w => page.trans (sameClusters_withWork _ w)
    exact kept_sameClusters.ite (noted _) ((noted _).trans (sameClusters_recordFault _ _ _ _ _ _ _))

end Sys2Proof.Machine
end

section
/-! PROOF. EXIT: what a warp is when some of its lanes have left, and what their leaving wakes. -/

namespace Sys2Proof.Machine

variable {s t u : State} {w v x : Warp} {c : Issuer} {o : Ops} {ls : List Nat} {g : Nat}

/-! ### Waits that end -/

/-- A lane that stands free or is held at a REJOIN. -/
def Hold.settled (h : Hold) : Prop := h = .free ∨ ∃ n st, h = .rejoin n st

/-- A warp some of whose lanes have ended their waits: lanes that wait for nothing, or at a REJOIN, are as they were. -/
structure Woken (w v : Warp) : Prop where
  live : ∀ l, (v.lane l).live = (w.lane l).live
  jm : v.jm = w.jm
  jh : v.jh = w.jh
  pend : v.pend = w.pend
  stays : ∀ l, (w.lane l).hold.settled → (v.lane l).hold = (w.lane l).hold ∧ (v.lane l).pc = (w.lane l).pc
  park : w.pend = [] → (∀ l, (w.lane l).hold ≠ .park) → ∀ l, (v.lane l).hold ≠ .park

theorem Woken.refl (w : Warp) : Woken w w := ⟨fun _ => rfl, rfl, rfl, rfl, fun _ _ => ⟨rfl, rfl⟩, fun _ h => h⟩

theorem Woken.trans (a : Woken w v) (b : Woken v x) : Woken w x where
  live l := (b.live l).trans (a.live l)
  jm := b.jm.trans a.jm
  jh := b.jh.trans a.jh
  pend := b.pend.trans a.pend
  stays l h := by
    obtain ⟨hold, pc⟩ := a.stays l h
    obtain ⟨hold', pc'⟩ := b.stays l (hold ▸ h)
    exact ⟨hold'.trans hold, pc'.trans pc⟩
  park none free := b.park (a.pend.trans none) (a.park none free)

/-- A lane that waits is let go on. -/
theorem woken_updLane {l : Nat} (F : Lane → Lane) (waits : ¬(w.lane l).hold.settled) (live : ∀ x, (F x).live = x.live)
    (free : w.pend = [] → (F (w.lane l)).hold ≠ .park) : Woken w (w.updLane l F) where
  live m := by rw [Warp.lane_updLane]; split <;> simp_all
  jm := rfl
  jh := rfl
  pend := rfl
  stays m h := by
    by_cases e : m = l
    · subst e; exact absurd h waits
    · rw [Warp.lane_updLane_ne _ _ _ _ e]; exact ⟨rfl, rfl⟩
  park none held m := by
    by_cases e : m = l
    · subst e; rw [Warp.lane_updLane_self]; exact free none
    · rw [Warp.lane_updLane_ne _ _ _ _ e]; exact held m

theorem not_settled_wait {h : Hold} {y : Wait} (waits : h = .wait y) : ¬h.settled := by
  rw [waits]; simp [Hold.settled]

/-- A wait that ends parks its lane only when a result is pending (R98). -/
theorem woken_endWait {l : Nat} (waits : ¬(w.lane l).hold.settled) (len : Nat) (sw : Bool) : Woken w (w.endWait l len sw) := by
  unfold Warp.endWait
  exact woken_updLane _ waits (fun _ => rfl) (fun none => by simp [none])

theorem woken_wakeGroup (w : Warp) (e : Nat) : Woken w (w.wakeGroup e) :=
  List.foldlRecOn (motive := fun v => Woken w v) lanes32 _ (.refl w) (fun v so_far l _ => by
    split
    · next y waits =>
      split
      · exact so_far.trans (woken_endWait (not_settled_wait waits) _ _)
      · split
        · exact so_far.trans (woken_updLane _ (not_settled_wait waits) (fun _ => rfl) (fun _ => by simp))
        · exact so_far
    · exact so_far)

/-- A change of what a warp holds of its groups. -/
theorem woken_arr (w : Warp) (a : Map Arrive) : Woken w { w with arr := a } :=
  ⟨fun _ => rfl, rfl, rfl, rfl, fun _ _ => ⟨rfl, rfl⟩, fun _ h => h⟩

theorem woken_turnPhase (w : Warp) (e : Nat) (leaves : Bool) : Woken w (w.turnPhase e leaves) :=
  (woken_arr w _).trans (woken_wakeGroup _ e)

/-! ### A phase that completes changes no lane that does not wait for it -/

/-- Waits of a cluster's lanes have ended, and its blocks stand. -/
structure Wakes (s t : State) (g : Nat) : Prop where
  warps : ∀ k, Woken (s.warp g k) (t.warp g k)
  blocks : ∀ b, t.block g b = s.block g b

theorem Wakes.refl (s : State) (g : Nat) : Wakes s s g := ⟨fun _ => .refl _, fun _ => rfl⟩

theorem Wakes.trans (a : Wakes s t g) (b : Wakes t u g) : Wakes s u g :=
  ⟨fun k => (a.warps k).trans (b.warps k), fun k => (b.blocks k).trans (a.blocks k)⟩

theorem SameClusters.cl (h : SameClusters s t) (g : Nat) : t.cl g = s.cl g := by unfold State.cl; rw [h.same]

theorem wakes_of_cl (h : t.cl g = s.cl g) : Wakes s t g where
  warps k := by unfold State.warp; rw [h]; exact .refl _
  blocks b := by unfold State.block; rw [h]

theorem wakes_updWarp (k : Nat) (F : Warp → Warp) (woken : Woken (s.warp g k) (F (s.warp g k))) : Wakes s (s.updWarp g k F) g where
  warps j := by
    by_cases e : j = k
    · subst e; rw [State.warp_updWarp_self]; exact woken
    · rw [State.warp_updWarp_ne _ _ _ _ _ e]; exact .refl _
  blocks b := by simp [State.updWarp, State.block]

theorem wakes_phaseFlip (s : State) (g e : Nat) : Wakes s (s.phaseFlip g e) g where
  warps k := by
    unfold State.warp Map.get
    rw [warps_phaseFlip, Map.find?_mapv]
    cases (s.cl g).warps.find? k with
    | none => exact .refl _
    | some w => exact woken_turnPhase w e _
  blocks b := by simp [State.phaseFlip, State.block]

theorem wakes_phaseCheck (s : State) (g e : Nat) : Wakes s (s.phaseCheck g e) g := by
  unfold State.phaseCheck
  dsimp only
  split
  · exact (wakes_phaseFlip s g e).trans (wakes_of_cl (cl_phaseAcquire _ g e g))
  · exact .refl s g

theorem wakes_arrived1 (s : State) (g e : Nat) (drop : Bool) : Wakes s (s.arrived1 g e drop) g where
  warps k := by unfold State.warp; rw [warps_arrived1]; exact .refl _
  blocks b := by simp [State.arrived1, State.updGroup, State.block]

theorem wakes_countArrival (s : State) (g e : Nat) (drop : Bool) : Wakes s (s.countArrival g e drop) g :=
  (wakes_arrived1 s g e drop).trans (wakes_phaseCheck _ g e)

theorem wakes_arriveCheck (s : State) (g k e : Nat) : Wakes s (s.arriveCheck g k e) g := by
  unfold State.arriveCheck
  dsimp only
  split
  · exact (wakes_updWarp k _ (woken_arr _ _)).trans (wakes_countArrival _ g e _)
  · exact .refl s g

theorem wakes_arriveChecks (k : Nat) (es : List Nat) (s : State) :
    Wakes s (es.foldl (fun s e => s.arriveCheck g k e) s) g :=
  List.foldlRecOn (motive := fun t => Wakes s t g) es _ (.refl s g) (fun t so_far e _ => so_far.trans (wakes_arriveCheck t g k e))

/-! ### Several release checks (R103) -/

/-- A lane that is held at no REJOIN of the mask is left as it is. -/
theorem lane_release_other {n l : Nat} (other : ∀ st, (w.lane l).hold ≠ .rejoin n st) : (w.release n).lane l = w.lane l := by
  obtain ⟨-, -, -, lanes, -⟩ := release_outcome w n
  rw [lanes]
  split
  · unfold Lane.unhold
    split
    · next k st held =>
      split
      · next e => exact absurd (e ▸ held) (other st)
      · rfl
    · rfl
  · rfl

/-- A warp after the release checks of some masks. -/
structure Released (w v : Warp) (ns : List Nat) : Prop where
  live : ∀ l, (v.lane l).live = (w.lane l).live
  jm : v.jm = w.jm
  pend : v.pend = w.pend
  park : (∀ l, (w.lane l).hold ≠ .park) → ∀ l, (v.lane l).hold ≠ .park
  checked : ∀ n ∈ ns, v.jh.get n 0
    = if w.jm.get n 0 &&& w.liveMask &&& ~~~w.jh.get n 0 = 0 then 0 else w.jh.get n 0 &&& w.jm.get n 0
  others : ∀ n, n ∉ ns → v.jh.get n 0 = w.jh.get n 0
  goes : ∀ n ∈ ns, ∀ l st, l < 32 → (w.lane l).hold = .rejoin n st →
    (freedLanes (w.jm.get n 0) w.liveMask (w.jh.get n 0)).getLsbD l = true →
    (v.lane l).hold = .free ∧ (v.lane l).pc = (w.lane l).pc + 8
  stays : ∀ l, (∀ n ∈ ns, ∀ st, (w.lane l).hold = .rejoin n st →
    (freedLanes (w.jm.get n 0) w.liveMask (w.jh.get n 0)).getLsbD l = false) → v.lane l = w.lane l

theorem released_foldl {ns : List Nat} (distinct : ns.Nodup) (w : Warp) : Released w (ns.foldl (fun w n => w.release n) w) ns := by
  induction ns generalizing w with
  | nil =>
    exact ⟨fun _ => rfl, rfl, rfl, fun h => h, fun _ h => by simp at h, fun _ _ => rfl, fun _ h => by simp at h, fun _ _ => rfl⟩
  | cons a r ih =>
    obtain ⟨fresh, distinct⟩ := List.nodup_cons.mp distinct
    obtain ⟨jm, jh, jhs, -, rest⟩ := release_outcome w a
    have kept := lane_release_kept w a
    have alive : (w.release a).liveMask = w.liveMask := liveMask_congr (fun l => (kept l).1)
    have ne : ∀ n ∈ r, n ≠ a := fun n hn e => fresh (e ▸ hn)
    have tail := ih distinct (w.release a)
    refine ⟨fun l => (tail.live l).trans (kept l).1, tail.jm.trans jm, tail.pend.trans (by rw [rest]),
      fun free => tail.park (fun l => (kept l).2.2.2 (free l)), fun n hn => ?_, fun n hn => ?_, fun n hn l st hl held free => ?_,
      fun l stays => ?_⟩
    · rcases List.mem_cons.mp hn with rfl | hn
      · exact (tail.others n fresh).trans jh
      · rw [List.foldl_cons, tail.checked n hn, jm, jhs n (ne n hn), alive]
    · obtain ⟨n1, n2⟩ : n ≠ a ∧ n ∉ r := by simpa using hn
      exact (tail.others n n2).trans (jhs n n1)
    · rcases List.mem_cons.mp hn with rfl | hn
      · obtain ⟨hold, pc⟩ := lane_release_freed hl held free
        rw [List.foldl_cons, tail.stays l (fun m _ st' held' => by rw [hold] at held'; simp at held')]
        exact ⟨hold, pc⟩
      · have same := lane_release_other (w := w) (n := a) (l := l) (fun st' held' => by
          rw [held] at held'
          exact ne n hn (Hold.rejoin.inj held').1)
        rw [List.foldl_cons, ← same]
        exact tail.goes n hn l st hl (by rw [same]; exact held) (by rw [jm, jhs n (ne n hn), alive]; exact free)
    · have same : (w.release a).lane l = w.lane l := by
        by_cases held : ∃ st, (w.lane l).hold = .rejoin a st
        · obtain ⟨st, held⟩ := held
          exact lane_release_stays (stays a (by simp) st held)
        · exact lane_release_other (fun st held' => held ⟨st, held'⟩)
      rw [List.foldl_cons, ← same]
      exact tail.stays l (fun n hn st held => by
        rw [jm, jhs n (ne n hn), alive]
        exact stays n (by simp [hn]) st (by rw [← same]; exact held))

/-! ### Lanes that leave a warp (R70, R103) -/

/-- The lanes that the release check of mask n lets go once some lanes have left it. -/
def exitFreed (w : Warp) (ls : List Nat) (n : Nat) : W32 :=
  freedLanes (w.jm.get n 0 &&& ~~~lanesMask ls) (w.liveMask &&& ~~~lanesMask ls) (w.jh.get n 0)

/-- A warp that some lanes have left: its rejoin masks and those of its lanes that are held at a REJOIN. -/
structure Left (w v : Warp) (ls : List Nat) : Prop where
  live : ∀ l, (v.lane l).live = if l ∈ ls then false else (w.lane l).live
  jm : ∀ n, v.jm.get n 0 = w.jm.get n 0 &&& ~~~lanesMask ls
  jh : ∀ n, n < 4 → v.jh.get n 0 &&& lanesMask ls = 0
  goes : ∀ n, n < 4 → ∀ l st, l < 32 → l ∉ ls → (w.lane l).hold = .rejoin n st → (exitFreed w ls n).getLsbD l = true →
    (v.lane l).hold = .free ∧ (v.lane l).pc = (w.lane l).pc + 8
  stays : ∀ n, n < 4 → ∀ l st, l ∉ ls → (w.lane l).hold = .rejoin n st → (exitFreed w ls n).getLsbD l = false →
    (v.lane l).hold = (w.lane l).hold ∧ (v.lane l).pc = (w.lane l).pc
  pend : w.pend = [] → v.pend = []
  park : w.pend = [] → (∀ l, (w.lane l).hold ≠ .park) → ∀ l, (v.lane l).hold ≠ .park

theorem Left.wakes (a : Left w v ls) (b : Woken v x) : Left w x ls where
  live l := (b.live l).trans (a.live l)
  jm n := by rw [b.jm]; exact a.jm n
  jh n hn := by rw [b.jh]; exact a.jh n hn
  goes n hn l st hl out held free := by
    obtain ⟨hold, pc⟩ := a.goes n hn l st hl out held free
    obtain ⟨hold', pc'⟩ := b.stays l (.inl hold)
    exact ⟨hold'.trans hold, pc'.trans pc⟩
  stays n hn l st out held free := by
    obtain ⟨hold, pc⟩ := a.stays n hn l st out held free
    obtain ⟨hold', pc'⟩ := b.stays l (.inr ⟨n, st, hold.trans held⟩)
    exact ⟨hold'.trans hold, pc'.trans pc⟩
  pend none := b.pend.trans (a.pend none)
  park none free := b.park (a.pend none) (a.park none free)

/-- A lane that has left. -/
def Lane.goneFrom (y : Lane) : Lane := { y with live := false, hold := .free, trap := false, waitOnly := false, boost := false, task := none }

/-- A warp whose lanes have left it and its masks, before the release checks. -/
def Warp.without (w : Warp) (ls : List Nat) : Warp :=
  let v := ls.foldl (fun w l => w.updLane l Lane.goneFrom) w
  { v with jm := v.jm.mapv (fun _ y => y &&& ~~~lanesMask ls)
           pend := (v.pend.map (fun (p : Pend) => { p with lanes := p.lanes &&& ~~~lanesMask ls })).filter (fun p => p.lanes ≠ 0) }

theorem lane_without (distinct : ls.Nodup) (w : Warp) (l : Nat) :
    (w.without ls).lane l = if l ∈ ls then (w.lane l).goneFrom else w.lane l :=
  Warp.lane_foldl ls (fun _ => Lane.goneFrom) distinct w l

theorem jm_without (w : Warp) (n : Nat) : (w.without ls).jm.get n 0 = w.jm.get n 0 &&& ~~~lanesMask ls := by
  have jm := congrArg Warp.jm (Warp.updLane_foldl_rest ls (fun _ => Lane.goneFrom) w)
  have same : (ls.foldl (fun w l => w.updLane l Lane.goneFrom) w).jm = w.jm := jm
  rw [← same]
  exact Map.get_mapv _ (fun _ y => y &&& ~~~lanesMask ls) n 0 (BitVec.zero_and)

theorem pend_without (none : w.pend = []) : (w.without ls).pend = [] := by
  have pend := congrArg Warp.pend (Warp.updLane_foldl_rest ls (fun _ => Lane.goneFrom) w)
  have same : (ls.foldl (fun w l => w.updLane l Lane.goneFrom) w).pend = w.pend := pend
  simp [Warp.without, same, none]

theorem jh_without (w : Warp) : (w.without ls).jh = w.jh := by
  have rest := Warp.updLane_foldl_rest ls (fun _ => Lane.goneFrom) w
  have jh := congrArg Warp.jh rest
  exact jh

theorem liveMask_without (distinct : ls.Nodup) (w : Warp) : (w.without ls).liveMask = w.liveMask &&& ~~~lanesMask ls := by
  refine BitVec.eq_of_getLsbD_eq (fun l hl => ?_)
  rw [BitVec.getLsbD_and, BitVec.getLsbD_not, Warp.liveMask, Warp.liveMask, getLsbD_lanesMask _ l hl, getLsbD_lanesMask _ l hl,
    getLsbD_lanesMask _ l hl]
  simp only [List.mem_filter, lane_without distinct, lanes32, List.mem_range, hl, true_and, decide_true, Bool.true_and]
  by_cases gone : l ∈ ls <;> simp [gone, Lane.goneFrom]

/-- The frame goes with the last lane that stands in its handler. -/
def Warp.frameLeft (w : Warp) (ls : List Nat) : Warp :=
  let left := w.frame.left &&& ~~~lanesMask ls
  if w.frame.busy && left = 0 then
    lanes32.foldl (fun w l => w.updLane l (fun x => if x.hold = .frame then { x with hold := .free } else x))
      { w with frame := { w.frame with busy := false, left := 0 } }
  else { w with frame := { w.frame with left := left } }

theorem woken_frame (w : Warp) (f : Frame) : Woken w { w with frame := f } :=
  ⟨fun _ => rfl, rfl, rfl, rfl, fun _ _ => ⟨rfl, rfl⟩, fun _ h => h⟩

theorem woken_frameLeft (w : Warp) (ls : List Nat) : Woken w (w.frameLeft ls) := by
  unfold Warp.frameLeft
  dsimp only
  split
  · refine (woken_frame w { w.frame with busy := false, left := 0 }).trans ?_
    generalize ({ w with frame := { w.frame with busy := false, left := 0 } } : Warp) = v
    exact List.foldlRecOn (motive := fun x => Woken v x) lanes32 _ (.refl v) (fun x so_far l _ => by
      refine so_far.trans ?_
      by_cases held : (x.lane l).hold = .frame
      · exact woken_updLane _ (by rw [held]; simp [Hold.settled]) (fun y => by split <;> rfl) (fun _ => by simp [held])
      · have same : ∀ m, (x.updLane l (fun y => if y.hold = .frame then { y with hold := .free } else y)).lane m
            = x.lane m := fun m => by
          rw [Warp.lane_updLane]; split
          · next e => rw [e]
          · rfl
        exact ⟨fun m => by rw [same], rfl, rfl, rfl, fun m _ => by rw [same]; exact ⟨rfl, rfl⟩,
          fun _ free m => by rw [same]; exact free m⟩)
  · exact woken_frame w _

/-- The lanes leave, the release checks of the four masks follow, and the frame. -/
def Warp.goneOf (w : Warp) (ls : List Nat) : Warp := ((List.range 4).foldl (fun w n => w.release n) (w.without ls)).frameLeft ls

theorem left_goneOf (distinct : ls.Nodup) (w : Warp) : Left w (w.goneOf ls) ls := by
  have rel := released_foldl (List.nodup_range (n := 4)) (w.without ls)
  have lane := lane_without distinct w
  have alive := liveMask_without distinct w
  have freed : ∀ n, freedLanes ((w.without ls).jm.get n 0) (w.without ls).liveMask ((w.without ls).jh.get n 0) = exitFreed w ls n :=
    fun n => by rw [jm_without, alive, jh_without]; rfl
  refine Left.wakes (v := (List.range 4).foldl (fun w n => w.release n) (w.without ls)) ?_ (woken_frameLeft _ ls)
  refine ⟨fun l => ?_, fun n => ?_, fun n hn => ?_, fun n hn l st hl out held free => ?_, fun n hn l st out held free => ?_,
    fun none => ?_, fun none free l => ?_⟩
  · rw [rel.live, lane]; split <;> rfl
  · rw [rel.jm, jm_without]
  · rw [rel.checked n (by simpa using hn), jm_without]
    split
    · simp
    · rw [BitVec.and_assoc, BitVec.and_assoc]; simp
  · have same : (w.without ls).lane l = w.lane l := by rw [lane, if_neg out]
    rw [← same]
    exact rel.goes n (by simpa using hn) l st hl (by rw [same]; exact held) (by rw [freed]; exact free)
  · have same : (w.without ls).lane l = w.lane l := by rw [lane, if_neg out]
    have stays := rel.stays l (fun m _ st' held' => by
      rw [same, held] at held'
      rw [freed, ← (Hold.rejoin.inj held').1]
      exact free)
    rw [stays, same]
    exact ⟨rfl, rfl⟩
  · rw [rel.pend, pend_without none]
  · refine rel.park (fun m => ?_) l
    rw [lane]
    split
    · simp [Lane.goneFrom]
    · exact free m

end Sys2Proof.Machine
end

section
/-! PROOF. EXIT: the state in which lanes have left their warp, and the statuses that they enter. -/

namespace Sys2Proof.Machine

variable {s t u : State} {w v x : Warp} {c : Issuer} {o : Ops} {ls : List Nat} {g : Nat}

/-! ### Warps that agree in what an exit looks at -/

/-- Lanes that live, stand and are held alike, with the same masks and pending results. -/
structure Alike (w v : Warp) : Prop where
  live : ∀ l, (v.lane l).live = (w.lane l).live
  hold : ∀ l, (v.lane l).hold = (w.lane l).hold
  pc : ∀ l, (v.lane l).pc = (w.lane l).pc
  jm : v.jm = w.jm
  jh : v.jh = w.jh
  pend : v.pend = w.pend

theorem Alike.of_eq (h : v = w) : Alike w v := by subst h; exact ⟨fun _ => rfl, fun _ => rfl, fun _ => rfl, rfl, rfl, rfl⟩

theorem Alike.trans (a : Alike w v) (b : Alike v x) : Alike w x :=
  ⟨fun l => (b.live l).trans (a.live l), fun l => (b.hold l).trans (a.hold l), fun l => (b.pc l).trans (a.pc l),
    b.jm.trans a.jm, b.jh.trans a.jh, b.pend.trans a.pend⟩

theorem Alike.left (a : Alike w v) (b : Left v x ls) : Left w x ls := by
  have freed : ∀ n, exitFreed v ls n = exitFreed w ls n := fun n => by
    unfold exitFreed; rw [a.jm, a.jh, liveMask_congr a.live]
  refine ⟨fun l => by rw [b.live, a.live], fun n => by rw [b.jm, a.jm], b.jh, fun n hn l st hl out held free => ?_,
    fun n hn l st out held free => ?_, fun none => b.pend (a.pend.trans none), fun none free => b.park (a.pend.trans none) ?_⟩
  · rw [← a.pc]
    exact b.goes n hn l st hl out ((a.hold l).trans held) (by rw [freed]; exact free)
  · rw [← a.hold, ← a.pc]
    exact b.stays n hn l st out ((a.hold l).trans held) (by rw [freed]; exact free)
  · exact fun l => by rw [a.hold]; exact free l

/-- The party's warp is alike, and no other lane of its cluster has come or gone. -/
structure AlikeParty (s t : State) (c : Issuer) : Prop where
  warp : Alike (s.warp c.g c.slot) (t.warp c.g c.slot)
  others : ∀ k, k ≠ c.slot → ∀ l, (t.lane c.g k l).live = (s.lane c.g k l).live

theorem AlikeParty.trans (a : AlikeParty s t c) (b : AlikeParty t u c) : AlikeParty s u c :=
  ⟨a.warp.trans b.warp, fun k hk l => (b.others k hk l).trans (a.others k hk l)⟩

theorem alikeParty_of_warps (h : ∀ k, t.warp c.g k = s.warp c.g k) : AlikeParty s t c :=
  ⟨.of_eq (h c.slot), fun k _ l => by unfold State.lane; rw [h]⟩

/-- A frame whose lanes stand and are held as before. -/
theorem alikeParty_of_frame (frame : Untouched s t c) (house : SameHouse s t c)
    (hold : ∀ l, (t.lane c.g c.slot l).hold = (s.lane c.g c.slot l).hold)
    (pc : ∀ l, (t.lane c.g c.slot l).pc = (s.lane c.g c.slot l).pc) : AlikeParty s t c where
  warp := ⟨fun l => by
    have live := congrArg Lane.live (frame.lanes l)
    exact live, hold, pc, frame.masks.1, frame.masks.2, house.pend⟩
  others k hk l := by unfold State.lane; rw [frame.warps k (.inl hk)]

/-! ### Lanes that leave -/

/-- Lanes have left their warp; it has gone, or what is left of it is as R103 says. -/
structure Leaves (s t : State) (c : Issuer) (ls : List Nat) : Prop where
  dead : ∀ l ∈ ls, (t.lane c.g c.slot l).live = false
  others : ∀ k, k ≠ c.slot → ∀ l, (t.lane c.g k l).live = (s.lane c.g k l).live
  masks : ∀ n, n < 4 → (t.warp c.g c.slot).jm.get n 0 &&& lanesMask ls = 0 ∧ (t.warp c.g c.slot).jh.get n 0 &&& lanesMask ls = 0
  left : ∀ l, l < 32 → l ∉ ls → (s.lane c.g c.slot l).live = true → Left (s.warp c.g c.slot) (t.warp c.g c.slot) ls
  calm : Calm s c → Calm t c

theorem AlikeParty.leaves (a : AlikeParty s t c) (b : Leaves t u c ls) : Leaves s u c ls where
  dead := b.dead
  others k hk l := (b.others k hk l).trans (a.others k hk l)
  masks := b.masks
  left l hl out live := a.warp.left (b.left l hl out ((a.warp.live l).trans live))
  calm calm := b.calm ⟨a.warp.pend.trans calm.1, fun l => by
    have same : (t.lane c.g c.slot l).hold = (s.lane c.g c.slot l).hold := a.warp.hold l
    rw [same]; exact calm.2 l⟩

/-- Lanes that nothing holds give up nothing. -/
theorem alikeParty_giveUps (hu : c.unit = .lane) (free : ∀ l ∈ ls, (s.lane c.g c.slot l).hold = .free) :
    AlikeParty s (ls.foldl (fun (s : State) l => s.giveUp c l) s) c ∧ SameHouse s (ls.foldl (fun (s : State) l => s.giveUp c l) s) c := by
  induction ls generalizing s with
  | nil => exact ⟨alikeParty_of_warps fun _ => rfl, .refl _ _⟩
  | cons a r ih =>
    have held := free a (by simp)
    have one : s.giveUp c a = s.setHolds c [a] .free := State.giveUp_free ((holdOf_lane hu a).trans held)
    have lane := fun l => lane_setHolds hu [a] .free s l
    obtain ⟨frame, house⟩ := untouched_setHolds (.inl hu) [a] .free s
    have hold : ∀ l, ((s.setHolds c [a] .free).lane c.g c.slot l).hold = (s.lane c.g c.slot l).hold := fun l => by
      rw [lane]
      split
      · next here => rw [List.mem_singleton.mp here, held]
      · rfl
    have pc : ∀ l, ((s.setHolds c [a] .free).lane c.g c.slot l).pc = (s.lane c.g c.slot l).pc := fun l => by rw [lane]; split <;> rfl
    obtain ⟨alike, house'⟩ := ih (s := s.setHolds c [a] .free) (fun l hl => (hold l).trans (free l (by simp [hl])))
    rw [List.foldl_cons, one]
    exact ⟨(alikeParty_of_frame frame house hold pc).trans alike, house.trans house'⟩

/-- A warp without live lanes goes with its slot, and its reservations with it. -/
def State.dropWarp (s : State) (c : Issuer) : State :=
  let s := s.updCl c.g (fun k => { k with warps := k.warps.del c.slot })
  s.updMem (fun x => { x with resv := x.resv.filter (fun r => !(r.g = c.g && !r.spine && r.slot = c.slot)) })

/-- The warp goes with its last lane. -/
def State.endWarp (s : State) (c : Issuer) : State := if (s.warp c.g c.slot).liveMask = 0 then s.dropWarp c else s

/-- The warp's groups see that its mask has changed. -/
def State.arriveAll (s : State) (c : Issuer) : State :=
  (s.warp c.g c.slot).arr.keys.foldl (fun s e => s.arriveCheck c.g c.slot e) s

theorem laneGone_eq (s : State) (c : Issuer) (ls : List Nat) : s.laneGone c ls =
    (((ls.foldl (fun (s : State) l => s.giveUp c l) s).updWarp c.g c.slot
        (fun w => w.goneOf ls)).arriveAll c).endWarp c := rfl
theorem cl_dropWarp : (s.dropWarp c).cl c.g = { s.cl c.g with warps := (s.cl c.g).warps.del c.slot } :=
  State.cl_updCl_self (s := s) c.g (fun (k : Cluster) => { k with warps := k.warps.del c.slot })

theorem warp_dropWarp (k : Nat) : (s.dropWarp c).warp c.g k = if k = c.slot then {} else s.warp c.g k := by
  unfold State.warp Map.get
  rw [cl_dropWarp]
  by_cases here : k = c.slot
  · rw [if_pos here, here, Map.find?_del_self]
  · rw [if_neg here, Map.find?_del_ne _ _ _ here]

theorem block_dropWarp (b : Nat) : (s.dropWarp c).block c.g b = s.block c.g b := by
  unfold State.block
  rw [cl_dropWarp]

/-- A warp without live lanes has none below 32. -/
theorem dead_of_liveMask (none : w.liveMask = 0) {l : Nat} (hl : l < 32) : (w.lane l).live = false := by
  have bit : w.liveMask.getLsbD l = false := by rw [none]; simp
  rw [Warp.liveMask, getLsbD_lanesMask _ l hl, decide_eq_false_iff_not] at bit
  simpa [lanes32, hl] using bit

/-- The warp goes with its last lane. -/
theorem Leaves.endWarp (a : Leaves s t c ls) : Leaves s (t.endWarp c) c ls := by
  unfold State.endWarp
  split
  · next none =>
    have gone : (t.dropWarp c).warp c.g c.slot = {} := by rw [warp_dropWarp, if_pos rfl]
    have lanes : ∀ l, (t.dropWarp c).lane c.g c.slot l = {} := fun l => by unfold State.lane; rw [gone]; rfl
    refine ⟨fun l _ => by rw [lanes], fun k hk l => ?_, fun n _ => ?_, fun l hl out live => ?_, fun _ => ?_⟩
    · unfold State.lane
      rw [warp_dropWarp, if_neg hk]
      exact a.others k hk l
    · rw [gone]; exact ⟨BitVec.zero_and, BitVec.zero_and⟩
    · have stays := (a.left l hl out live).live l
      have live' : ((s.warp c.g c.slot).lane l).live = true := live
      rw [dead_of_liveMask none hl, if_neg out, live'] at stays
      exact absurd stays (by simp)
    · exact ⟨by rw [gone], fun l => by rw [lanes]; simp⟩
  · exact a

theorem block_endWarp (b : Nat) : (s.endWarp c).block c.g b = s.block c.g b := by
  unfold State.endWarp
  split
  · exact block_dropWarp b
  · rfl

/-- The lanes leave, and their cluster's blocks stand. -/
theorem leaves_laneGone (hu : c.unit = .lane) (distinct : ls.Nodup) (free : ∀ l ∈ ls, (s.lane c.g c.slot l).hold = .free) :
    Leaves s (s.laneGone c ls) c ls ∧ ∀ b, (s.laneGone c ls).block c.g b = s.block c.g b := by
  obtain ⟨alike, house⟩ := alikeParty_giveUps hu free
  rw [laneGone_eq]
  generalize ls.foldl (fun (s : State) l => s.giveUp c l) s = v at alike house ⊢
  have left := left_goneOf distinct (v.warp c.g c.slot)
  generalize hw : v.updWarp c.g c.slot (fun w => w.goneOf ls) = x
  have self : x.warp c.g c.slot = (v.warp c.g c.slot).goneOf ls := by rw [← hw, State.warp_updWarp_self]
  have others : ∀ k, k ≠ c.slot → x.warp c.g k = v.warp c.g k := fun k hk => by rw [← hw, State.warp_updWarp_ne _ _ _ _ _ hk]
  have blocks : ∀ b, x.block c.g b = v.block c.g b := fun b => by simp [← hw, State.updWarp, State.block]
  have wakes : Wakes x (x.arriveAll c) c.g := wakes_arriveChecks c.slot _ _
  generalize x.arriveAll c = u at wakes ⊢
  have left' : Left (v.warp c.g c.slot) (u.warp c.g c.slot) ls := left.wakes (by rw [← self]; exact wakes.warps c.slot)
  refine ⟨(alike.leaves (t := v) ?_), fun b => ?_⟩
  · refine Leaves.endWarp ⟨fun l hl => ?_, fun k hk l => ?_, fun n hn => ⟨?_, left'.jh n hn⟩, fun _ _ _ _ => left', fun calm => ?_⟩
    · exact (left'.live l).trans (if_pos hl)
    · have same := (wakes.warps k).live l
      rw [others k hk] at same
      exact same
    · rw [left'.jm, BitVec.and_assoc]; simp
    · exact ⟨left'.pend calm.1, left'.park calm.1 calm.2⟩
  · rw [block_endWarp, wakes.blocks, blocks, house.blocks]

/-! ### After the group's advance -/

/-- What EXIT says of its warp: `places` are those of its group. -/
structure ExitLeave (s t : State) (c : Issuer) (ls : List Nat) : Prop where
  dead : ∀ l ∈ ls, (t.lane c.g c.slot l).live = false
  others : ∀ k, k ≠ c.slot → ∀ l, (t.lane c.g k l).live = (s.lane c.g k l).live
  masks : ∀ n, n < 4 → (t.warp c.g c.slot).jm.get n 0 &&& lanesMask ls = 0 ∧ (t.warp c.g c.slot).jh.get n 0 &&& lanesMask ls = 0
  lives : ∀ l, l < 32 → l ∉ ls → (s.lane c.g c.slot l).live = true → (t.lane c.g c.slot l).live = true
    ∧ ∀ n, (t.warp c.g c.slot).jm.get n 0 = (s.warp c.g c.slot).jm.get n 0 &&& ~~~lanesMask ls
  goes : ∀ n, n < 4 → ∀ l st, l < 32 → l ∉ ls → (s.lane c.g c.slot l).live = true → l ∉ c.places →
    (s.lane c.g c.slot l).hold = .rejoin n st → (exitFreed (s.warp c.g c.slot) ls n).getLsbD l = true →
    t.holdOf c l = .free ∧ t.pcOf c l = s.pcOf c l + 8
  stays : ∀ n, n < 4 → ∀ l st, l < 32 → l ∉ ls → (s.lane c.g c.slot l).live = true → l ∉ c.places →
    (s.lane c.g c.slot l).hold = .rejoin n st → (exitFreed (s.warp c.g c.slot) ls n).getLsbD l = false →
    t.holdOf c l = s.holdOf c l ∧ t.pcOf c l = s.pcOf c l

theorem exitLeave_finish (hu : c.unit = .lane) (a : Leaves s u c ls) (calm : Calm s c) (sw : Bool) (len : Nat) (keep : List Nat) :
    ExitLeave s (u.finish c sw ls len keep) c ls ∧ ∀ b, (u.finish c sw ls len keep).block c.g b = u.block c.g b := by
  obtain ⟨frame, house, -, -, places⟩ := finish_keep (.inl hu) sw ls len keep (fun _ _ => a.calm calm)
  generalize u.finish c sw ls len keep = t at frame house places ⊢
  have live : ∀ l, (t.lane c.g c.slot l).live = (u.lane c.g c.slot l).live := fun l => by
    have live := congrArg Lane.live (frame.lanes l)
    exact live
  obtain ⟨jm, jh⟩ := frame.masks
  have out : ∀ l, l ∉ c.places → t.holdOf c l = (u.lane c.g c.slot l).hold ∧ t.pcOf c l = (u.lane c.g c.slot l).pc := fun l hp => by
    have none : ¬(l ∈ movers u c keep ∨ (c.unit ≠ .lane ∧ movers u c keep ≠ [])) := by simp [movers, hp, hu]
    rw [(places l).1, (places l).2, if_neg none, if_neg none, holdOf_lane hu, pcOf_lane hu]
    exact ⟨rfl, rfl⟩
  refine ⟨⟨fun l hl => (live l).trans (a.dead l hl), fun k hk l => ?_, fun n hn => by rw [jm, jh]; exact a.masks n hn,
    fun l hl out live' => ⟨?_, fun n => ?_⟩, fun n hn l st hl gone live' hp held free => ?_,
    fun n hn l st hl gone live' hp held free => ?_⟩, house.blocks⟩
  · unfold State.lane
    rw [frame.warps k (.inl hk)]
    exact a.others k hk l
  · rw [live, ← live']
    exact ((a.left l hl out live').live l).trans (if_neg out)
  · rw [jm]; exact (a.left l hl out live').jm n
  · rw [(out l hp).1, (out l hp).2, pcOf_lane hu]
    exact (a.left l hl gone live').goes n hn l st hl gone held free
  · rw [(out l hp).1, (out l hp).2, pcOf_lane hu, holdOf_lane hu]
    exact (a.left l hl gone live').stays n hn l st gone held free

/-! ### Statuses (R109, R311) -/

/-- A block in whose reduction a thread has entered its status. -/
def Block.entered (b : Block) (st id : Nat) : Block := { b.contribute st id with parties := b.parties + 1 }

/-- The lanes of a block enter their statuses. -/
def State.enterStatuses (s : State) (c : Issuer) (xs : List (Nat × Nat)) : State :=
  xs.foldl (fun s e => s.updBlockOf c (fun b => b.entered e.2 (s.laneId c e.1))) s

theorem blockExit_eq (s : State) (c : Issuer) (xs : List (Nat × Nat)) :
    s.blockExit c xs = (s.enterStatuses c xs).laneGone c (xs.map (·.1)) := rfl

theorem warp_updBlock (b : Nat) (f : Block → Block) (h k : Nat) : (s.updBlock g b f).warp h k = s.warp h k := by
  unfold State.warp State.updBlock
  by_cases here : h = g
  · subst here; rw [State.cl_updCl_self]
  · rw [State.cl_updCl_ne _ _ _ _ here]

/-- The statuses enter the block under the lanes' identifiers, and nothing of a warp changes. -/
theorem enterStatuses_facts (hu : c.unit = .lane) {b : Nat} (hb : s.blkOf c = some b) (noWave : s.waveOf c = none)
    (xs : List (Nat × Nat)) :
    (∀ h k, (s.enterStatuses c xs).warp h k = s.warp h k)
      ∧ (s.enterStatuses c xs).block c.g b = xs.foldl (fun x e => x.entered e.2 (s.laneId c e.1)) (s.blockOf c) := by
  have at_ : ∀ t : State, t.blkOf c = some b → t.blockOf c = t.block c.g b := fun t h => by unfold State.blockOf; rw [h]
  induction xs generalizing s with
  | nil => exact ⟨fun _ _ => rfl, (at_ s hb).symm⟩
  | cons e r ih =>
    have one : s.updBlockOf c (fun x => x.entered e.2 (s.laneId c e.1))
        = s.updBlock c.g b (fun x => x.entered e.2 (s.laneId c e.1)) := by unfold State.updBlockOf; rw [hb]
    generalize hv : s.updBlock c.g b (fun x => x.entered e.2 (s.laneId c e.1)) = v at one
    have warps : ∀ h k, v.warp h k = s.warp h k := fun h k => by rw [← hv, warp_updBlock]
    have blk : v.blkOf c = some b := by rw [← hb]; simp only [State.blkOf, hu, warps]
    have wave : v.waveOf c = none := by rw [← noWave]; simp only [State.waveOf, hu, warps]
    have block : v.blockOf c = (s.blockOf c).entered e.2 (s.laneId c e.1) := by
      rw [at_ v blk, at_ s hb, ← hv, State.block_updBlock, if_pos ⟨rfl, rfl⟩]
    have ids : ∀ l, v.laneId c l = s.laneId c l := fun l => by
      have none : (s.warp c.g c.slot).wave = Option.none := by simpa [State.waveOf, hu] using noWave
      simp only [State.laneId, hu, warps, none, block]
      rfl
    obtain ⟨warps', entered⟩ := ih blk wave
    have step : s.enterStatuses c (e :: r) = v.enterStatuses c r := by
      rw [State.enterStatuses, List.foldl_cons, one]; rfl
    rw [step]
    refine ⟨fun h k => (warps' h k).trans (warps h k), ?_⟩
    rw [entered, List.foldl_cons, block]
    simp only [ids]

end Sys2Proof.Machine
end

section
/-! PROOF. EXIT: the body in each unit, and the obligation. -/

namespace Sys2Proof.Machine

variable {s t u v : State} {c : Issuer} {o : Ops} {ls : List Nat} {g : Nat}

/-! ### Lanes -/

theorem threadOf_congr (hu : c.unit = .lane) (frame : Untouched s t c) (house : SameHouse s t c) (l : Nat) :
    t.threadOf c l = s.threadOf c l := by
  have task : (t.lane c.g c.slot l).task = (s.lane c.g c.slot l).task := by
    have task := congrArg Lane.task (frame.lanes l)
    exact task
  have bw : (t.warp c.g c.slot).bw = (s.warp c.g c.slot).bw := by
    have bw := congrArg Warp.bw frame.warp
    exact bw
  simp only [State.threadOf, hu, house.blockOf, task, bw]

theorem tlainBusy_congr (frame : Untouched s t c) (th : Thread) : t.tlainBusy th 7 = s.tlainBusy th 7 := by
  have out := congrArg State.out frame.package
  have same : t.out = s.out := out
  simp [State.tlainBusy, same]

theorem appendWaits_congr (frame : Untouched s t c) (th : Thread) : t.appendWaits th = s.appendWaits th := by
  have work := congrArg State.work frame.package
  have same : t.work = s.work := work
  simp only [State.appendWaits, same]

theorem laneId_congr (hu : c.unit = .lane) (frame : Untouched s t c) (house : SameHouse s t c) (noWave : s.waveOf c = none) (l : Nat) :
    t.laneId c l = s.laneId c l := by
  have bw : (t.warp c.g c.slot).bw = (s.warp c.g c.slot).bw := by
    have bw := congrArg Warp.bw frame.warp
    exact bw
  have wave : (s.warp c.g c.slot).wave = none := by simpa [State.waveOf, hu] using noWave
  have wave' : (t.warp c.g c.slot).wave = none := by simpa [State.waveOf, hu] using house.wave.trans noWave
  simp only [State.laneId, hu, wave, wave', house.blockOf, bw]

theorem regOf_congr (reads : ∀ f r l, t.reads c f r l = s.reads c f r l) (f : RFile) (r l : Nat) (wide : Bool) :
    t.regOf c f r l wide = s.regOf c f r l wide := by
  have v : ∀ r, t.v c.g c.slot l r = s.v c.g c.slot l r := fun r => by
    have same := congrArg (BitVec.setWidth 32) (reads .v r l)
    simpa [State.reads] using same
  have w : ∀ r, t.w c.g c.slot r = s.w c.g c.slot r := fun r => by
    have same := congrArg (BitVec.setWidth 32) (reads .w r l)
    simpa [State.reads] using same
  have sr : t.sreg c.g c.slot r = s.sreg c.g c.slot r := reads .s r l
  have er : t.ereg c.g c.isCopy r = s.ereg c.g c.isCopy r := reads .e r l
  cases f <;> simp only [State.regOf, v, w, sr, er]

theorem exitStatus_congr (reads : ∀ f r l, t.reads c f r l = s.reads c f r l) (l : Nat) : exitStatus t c o l = exitStatus s c o l := by
  simp only [exitStatus, State.opB, regOf_congr reads]

/-- What EXIT's body does in lanes that pass its switch point and whose accesses are performed (R45). -/
theorem exitBody_lane (hu : c.unit = .lane) (passes : s.atSwitch c ls = (t, ls)) (some_ : ls ≠ [])
    (prompt : (t.waveOf c).isSome = true → ∀ l ∈ ls, t.tlainBusy (t.threadOf c l) 7 = false ∧ t.appendWaits (t.threadOf c l) = false) :
    ∃ F, let v := t.updLanes c.g c.slot [] F
      let out := ls.map (fun l => (l, exitStatus v c o l))
      exitBody s c o ls = .go (if (v.waveOf c).isSome then v.taskExit c out else v.blockExit c out) ls := by
  have late : (if (t.waveOf c).isSome then ls.filter (fun l => t.tlainBusy (t.threadOf c l) 7 || t.appendWaits (t.threadOf c l)) else [])
      = [] := by
    split
    · next wave =>
      refine List.filter_eq_nil_iff.mpr (fun l hl => ?_)
      obtain ⟨a, b⟩ := prompt wave l hl
      simp [a, b]
    · rfl
  refine ⟨fun _ x => { x with passed := true }, ?_⟩
  simp only [exitBody, hu, passes, late]
  rw [List.filter_eq_self.mpr (by simp)]
  split
  · next none => exact absurd (List.map_eq_nil_iff.mp none) some_
  · rfl

/-- Lanes that nothing keeps pass the switch point and leave with their statuses. -/
theorem exit_passes (hu : c.unit = .lane) (calm : Calm s c) (distinct : ls.Nodup) (some_ : ls ≠ [])
    (ready : ∀ l ∈ ls, (s.lane c.g c.slot l).live = true ∧ (s.lane c.g c.slot l).pc = c.pc ∧ (s.lane c.g c.slot l).hold = .free)
    (prompt : (s.waveOf c).isSome = true → ∀ l ∈ ls, s.tlainBusy (s.threadOf c l) 7 = false ∧ s.appendWaits (s.threadOf c l) = false) :
    ∃ v, AlikeParty s v c ∧ SameHouse s v c ∧ (s.waveOf c = none → ∀ l, v.laneId c l = s.laneId c l)
      ∧ (let out := ls.map (fun l => (l, exitStatus s c o l))
         exitBody s c o ls = .go (if (s.waveOf c).isSome then v.taskExit c out else v.blockExit c out) ls) := by
  obtain ⟨t, passes, frame, house, lanes, uniform⟩ := atSwitch_calm hu calm distinct ready
  obtain ⟨F, body⟩ := exitBody_lane (o := o) hu passes some_ (fun wave l hl => by
    rw [threadOf_congr hu frame house, tlainBusy_congr frame, appendWaits_congr frame]
    exact prompt (by rw [← house.wave]; exact wave) l hl)
  obtain ⟨frame', house', lanes', uniform'⟩ := updLanes_facts (s := t) hu List.nodup_nil (fun _ x => x) (fun _ _ => rfl)
  have empty : t.updLanes c.g c.slot [] F = t.updLanes c.g c.slot [] (fun _ x => x) := rfl
  rw [← empty] at frame' house' lanes' uniform'
  generalize t.updLanes c.g c.slot [] F = v at body frame' house' lanes' uniform'
  have lanes : ∀ l, v.lane c.g c.slot l
      = if l ∈ ls then { s.lane c.g c.slot l with passed := false } else s.lane c.g c.slot l := fun l => by
    rw [lanes' l, if_neg List.not_mem_nil, lanes]
  have frame := frame.trans frame'
  have house := house.trans house'
  have same := sameParty_of_passed hu frame house lanes (uniform'.trans uniform)
  refine ⟨v, alikeParty_of_frame frame house (fun l => ?_) (fun l => ?_), house, fun noWave l => laneId_congr hu frame house noWave l, ?_⟩
  · rw [lanes]; split <;> rfl
  · rw [lanes]; split <;> rfl
  · simpa only [house.wave, exitStatus_congr same.reads] using body

theorem map_fst_statuses (f : Nat → Nat) : (ls.map (fun l => (l, f l))).map (·.1) = ls := by simp [List.map_map, Function.comp_def]

/-- A task lane's report to its queue (R45). -/
def State.reportTask (s : State) (c : Issuer) (e : Nat × Nat) : State :=
  match (s.lane c.g c.slot e.1).task with
  | some t =>
    let s := if e.2 = 0 then s else s.taskErr (taskStatus t e.2)
    s.taskDone c.g t false
  | none => s

theorem taskExit_eq (s : State) (c : Issuer) (xs : List (Nat × Nat)) :
    s.taskExit c xs = (xs.foldl (fun s e => s.reportTask c e) s).laneGone c (xs.map (·.1)) := rfl

theorem sameClusters_reportTask (s : State) (c : Issuer) (e : Nat × Nat) : SameClusters s (s.reportTask c e) := by
  unfold State.reportTask
  split
  · refine SameClusters.trans ?_ (sameClusters_taskDone _ _ _ _)
    split
    · exact .refl _
    · exact sameClusters_taskErr _ _
  · exact .refl s

/-- Task lanes report to their queues, which changes no party. -/
theorem alikeParty_reports (xs : List (Nat × Nat)) : AlikeParty s (xs.foldl (fun s e => s.reportTask c e) s) c := by
  have same := List.foldlRecOn (motive := fun t : State => SameClusters s t) xs (fun s e => s.reportTask c e) (.refl s)
    (fun t so_far e _ => so_far.trans (sameClusters_reportTask t c e))
  exact alikeParty_of_warps fun k => by unfold State.warp; rw [same.cl]

theorem leaves_taskExit (hu : c.unit = .lane) (distinct : ls.Nodup) (free : ∀ l ∈ ls, (s.lane c.g c.slot l).hold = .free)
    (f : Nat → Nat) : Leaves s (s.taskExit c (ls.map (fun l => (l, f l)))) c ls := by
  rw [taskExit_eq, map_fst_statuses]
  have alike := alikeParty_reports (s := s) (c := c) (ls.map (fun l => (l, f l)))
  exact alike.leaves (leaves_laneGone hu distinct (fun l hl => (alike.warp.hold l).trans (free l hl))).1

theorem leaves_blockExit (hu : c.unit = .lane) (distinct : ls.Nodup) (free : ∀ l ∈ ls, (s.lane c.g c.slot l).hold = .free)
    {b : Nat} (hb : s.blkOf c = some b) (noWave : s.waveOf c = none) (f : Nat → Nat) :
    Leaves s (s.blockExit c (ls.map (fun l => (l, f l)))) c ls
      ∧ (s.blockExit c (ls.map (fun l => (l, f l)))).block c.g b
        = ls.foldl (fun x l => x.entered (f l) (s.laneId c l)) (s.blockOf c) := by
  obtain ⟨warps, entered⟩ := enterStatuses_facts hu hb noWave (ls.map (fun l => (l, f l)))
  have alike : AlikeParty s (s.enterStatuses c (ls.map (fun l => (l, f l)))) c := alikeParty_of_warps (warps c.g)
  obtain ⟨leaves, blocks⟩ := leaves_laneGone hu distinct (fun l hl => (alike.warp.hold l).trans (free l hl))
  rw [blockExit_eq, map_fst_statuses]
  refine ⟨alike.leaves leaves, ?_⟩
  rw [blocks, entered, List.foldl_map]

end Sys2Proof.Machine
end

section
/-! PROOF. EXIT: its words, contexts and sequencers, and the obligation. -/

namespace Sys2Proof.Machine

variable {s t u v : State} {c : Issuer} {o x : Ops} {ls : List Nat} {g : Nat}

/-! ### Words (R110) -/

/-- The spaces of EXIT's status. -/
def ExitForm (x : Ops) : Prop := (x.bs = 3 ∧ x.cs = 3) ∨ ((x.bs = 0 ∨ x.bs = 1) ∧ x.c = 0 ∧ x.cs = 0)

theorem exitForm_of_wf {k : CodeUnit} (h : WellFormed k (.exit x) = true) : ExitForm x := by
  have entry : info k (.exit x) = some (immOrReg x { opc := 0x07, units := lsq, ok := x.m = 0 }) := rfl
  have ops : (Instr.exit x).ops = some x := rfl
  simp only [WellFormed, ops, entry, immOrReg, fieldsOk] at h
  unfold ExitForm
  by_cases imm : x.bs = 3
  · simp only [imm, Bool.and_eq_true, if_true] at h
    obtain ⟨-, ⟨⟨⟨⟨⟨⟨⟨⟨⟨⟨⟨-, -⟩, -⟩, csp⟩, -⟩, -⟩, -⟩, -⟩, -⟩, -⟩, -⟩, -⟩, -⟩ := h
    have all : x.cs.toNat = 3 := by simpa using csp
    exact .inl ⟨imm, BitVec.eq_of_toNat_eq all⟩
  · simp only [imm, Bool.and_eq_true, if_false] at h
    obtain ⟨-, ⟨⟨⟨⟨⟨⟨⟨⟨⟨⟨⟨-, -⟩, bsp⟩, csp⟩, -⟩, -⟩, -⟩, -⟩, -⟩, -⟩, zero⟩, -⟩, -⟩ := h
    have none : x.cs.toNat = 0 := by simpa using csp
    have reg : x.bs.toNat = 0 ∨ x.bs.toNat = 1 := by simpa using bsp
    have zero : x.c.toNat = 0 := by simpa [slotOk] using zero
    exact .inr ⟨reg.imp (fun h => BitVec.eq_of_toNat_eq h) (fun h => BitVec.eq_of_toNat_eq h), BitVec.eq_of_toNat_eq zero,
      BitVec.eq_of_toNat_eq none⟩

/-- The word of an EXIT with other spaces is ILLEGAL_INSN. -/
theorem decode_exit_illegal {k : CodeUnit} (other : ¬ExitForm x) (short : x.form = .f64) :
    ∃ w, decode k (encode (.exit x)) = .illegal w := by
  have fields : splitOps .f64 (encodeFirst 7 false 1 x) 0 = { x with ext := 0 } := by
    have all := splitOps_encodeFirst { x with ext := 0 } 7 false 1
    rw [← short]
    exact all
  have ill : WellFormed k (.exit { x with ext := 0 }) = false := by
    rw [← Bool.not_eq_true]
    exact fun h => other (exitForm_of_wf (x := { x with ext := 0 }) h)
  have words : encode (.exit x) = words64 (encodeFirst 7 false 1 x) := by
    have ops : (Instr.exit x).ops = some x := rfl
    simp only [encode, ops, opcodeOf_exit, short]
    rfl
  refine ⟨encodeFirst 7 false 1 x, ?_⟩
  rw [words, decode_f64 (by rw [lenOf_lo32, len_encodeFirst]; rfl) (prOf_encodeFirst ..)]
  unfold decodeOne
  rw [fields, opcOf_encodeFirst]
  have named : mkInstr (BitVec.toNat (7 : BitVec 7)) { x with ext := 0 } = some (.exit { x with ext := 0 }) := rfl
  simp only [named, ill]
  rfl

/-! ### Contexts -/

/-- No lane lives or dies, no block changes, and the issuer keeps its block. -/
structure LivesOn (s t : State) (c : Issuer) : Prop where
  live : ∀ g k l, (t.lane g k l).live = (s.lane g k l).live
  blocks : ∀ g b, t.block g b = s.block g b
  blk : (t.spine c.g c.slot).blk = (s.spine c.g c.slot).blk

theorem livesOn_refl (s : State) (c : Issuer) : LivesOn s s c := ⟨fun _ _ _ => rfl, fun _ _ => rfl, rfl⟩

theorem LivesOn.trans (a : LivesOn s t c) (b : LivesOn t u c) : LivesOn s u c :=
  ⟨fun g k l => (b.live g k l).trans (a.live g k l), fun g k => (b.blocks g k).trans (a.blocks g k), b.blk.trans a.blk⟩

theorem SameClusters.livesOn (h : SameClusters s t) : LivesOn s t c where
  live g k l := by simp only [State.lane, State.warp, h.cl]
  blocks g b := by simp only [State.block, h.cl]
  blk := by simp only [State.spine, h.cl]

theorem livesOn_updCl {F : Cluster → Cluster} 
    (live : ∀ k n l, (((F k).warps.get n {}).lane l).live = ((k.warps.get n {}).lane l).live) (blocks : ∀ k, (F k).blocks = k.blocks)
    (spines : ∀ k n, ((F k).spines.get n {}).blk = (k.spines.get n {}).blk) : LivesOn s (s.updCl g F) c := by
  have cl : ∀ h, (s.updCl g F).cl h = if h = g then F (s.cl g) else s.cl h := fun h => by
    by_cases here : h = g
    · rw [if_pos here, here, State.cl_updCl_self]
    · rw [if_neg here, State.cl_updCl_ne _ _ _ _ here]
  refine ⟨fun h k l => ?_, fun h b => ?_, ?_⟩
  · simp only [State.lane, State.warp, cl]
    split
    · next here => rw [here, live]
    · rfl
  · simp only [State.block, cl]
    split
    · next here => rw [here, blocks]
    · rfl
  · simp only [State.spine, cl]
    split
    · next here => rw [here, spines]
    · rfl

theorem livesOn_updWarp {k : Nat} (F : Warp → Warp) (live : ∀ w l, ((F w).lane l).live = (w.lane l).live) :
    LivesOn s (s.updWarp g k F) c :=
  livesOn_updCl (fun x n l => by
    rw [Map.get_put]
    split
    · next here => rw [live, here]
    · rfl) (fun _ => rfl) (fun _ _ => rfl)

theorem livesOn_updSpine {k : Nat} (F : Spine → Spine) (blk : ∀ x, (F x).blk = x.blk) : LivesOn s (s.updSpine g k F) c :=
  livesOn_updCl (fun _ _ _ => rfl) (fun _ => rfl) (fun x n => by
    rw [Map.get_put]
    split
    · next here => rw [blk, here]
    · rfl)

theorem sameClusters_watchDrop (s : State) (pa die : Nat) : SameClusters s (s.watchDrop pa die) := by
  unfold State.watchDrop
  split
  · exact .refl s
  · exact ⟨rfl⟩

theorem livesOn_giveUp (hu : c.unit = .spine) (l : Nat) : LivesOn s (s.giveUp c l) c := by
  have held : ∀ t : State, LivesOn t (t.setHold c l .free) c := fun t => by
    unfold State.setHold
    rw [hu]
    exact livesOn_updSpine _ (fun _ => rfl)
  unfold State.giveUp
  refine LivesOn.trans ?_ (held _)
  split
  · exact SameClusters.livesOn ⟨rfl⟩
  · exact SameClusters.livesOn ⟨rfl⟩
  · exact livesOn_updWarp _ (fun _ _ => rfl)
  · split
    · refine LivesOn.trans ?_ (sameClusters_watchDrop _ _ _).livesOn
      exact SameClusters.livesOn ⟨rfl⟩
    · exact livesOn_updCl (fun _ _ _ => rfl) (fun _ => rfl) (fun _ _ => rfl)
    · exact livesOn_refl s c
  · exact livesOn_refl s c

/-- A context leaves with its status, and no lane with it. -/
theorem spineExit_facts (hu : c.unit = .spine) (st : Nat) :
    ((s.spineExit c st).spine c.g c.slot).live = false
      ∧ (s.spineExit c st).blockOf c = { (s.blockOf c).entered st (2 ^ 56) with spineSt := true }
      ∧ ∀ g k l, ((s.spineExit c st).lane g k l).live = (s.lane g k l).live := by
  have up := livesOn_giveUp (s := s) hu 0
  have blkOf : ∀ t : State, t.blkOf c = some (t.spine c.g c.slot).blk := fun t => by simp only [State.blkOf, hu]
  have blockOf : ∀ t : State, t.blockOf c = t.block c.g (t.spine c.g c.slot).blk := fun t => by simp only [State.blockOf, blkOf]
  unfold State.spineExit
  generalize s.giveUp c 0 = v at up ⊢
  have reduce : v.updBlockOf c (fun b => { b.contribute st (2 ^ 56) with parties := b.parties + 1, spineSt := true })
      = v.updBlock c.g (s.spine c.g c.slot).blk (fun b => { b.entered st (2 ^ 56) with spineSt := true }) := by
    unfold State.updBlockOf
    rw [blkOf, up.blk]
    rfl
  simp only [reduce]
  generalize hw : v.updBlock c.g (s.spine c.g c.slot).blk (fun b => { b.entered st (2 ^ 56) with spineSt := true }) = w
  have spine : w.spine c.g c.slot = v.spine c.g c.slot := by simp [← hw, State.spine, State.updBlock]
  have live : ∀ g k l, (w.lane g k l).live = (s.lane g k l).live := fun g k l => by
    rw [← up.live]
    simp only [State.lane, ← hw, warp_updBlock]
  have block : w.block c.g (s.spine c.g c.slot).blk = { (s.blockOf c).entered st (2 ^ 56) with spineSt := true } := by
    rw [← hw, State.block_updBlock, if_pos ⟨rfl, rfl⟩, up.blocks, blockOf]
  generalize hm : w.updMem (fun x => { x with resv := x.resv.filter (fun r => !(r.g = c.g && r.spine && r.slot = c.slot)) }) = m
  have mem : LivesOn w m c := SameClusters.livesOn (hm ▸ sameClusters_updMem _ _)
  have stand := mem.trans (livesOn_updSpine (s := m) (c := c) (g := c.g) (k := c.slot)
    (fun x => { x with live := false, trap := false, frame := { x.frame with busy := false } }) (fun _ => rfl))
  refine ⟨?_, ?_, fun g k l => (stand.live g k l).trans (live g k l)⟩
  · rw [State.spine_updSpine, if_pos ⟨rfl, rfl⟩]
  · rw [blockOf, stand.blocks, stand.blk, spine, up.blk, block]

/-! ### Sequencers -/

theorem Seqr.resume_idle {q : Seqr} (idle : q.st = .idle) (b : Nat) (named : Bool) : (q.resume b named).st = .idle := by
  unfold Seqr.resume
  rw [if_neg (by simp [idle])]
  exact idle

theorem seqr_rdvCheck_idle {k : Bool} (idle : (s.seqr g k).st = .idle) (b : Nat) : ((s.rdvCheck g b).seqr g k).st = .idle := by
  unfold State.rdvCheck
  simp only []
  split
  · exact idle
  · cases k <;> simp only [State.seqr, State.cl_updCl_self] at idle ⊢ <;> exact Seqr.resume_idle idle _ _

theorem seqr_seqFreed_idle {k : Bool} (idle : (s.seqr g k).st = .idle) : ((s.seqFreed g).seqr g k).st = .idle := by
  have all := List.foldlRecOn (motive := fun t : State => (t.seqr g k).st = .idle) (s.cl g).blocks.keys
    (fun s b => s.rdvCheck g b) idle (fun t so_far b _ => seqr_rdvCheck_idle so_far b)
  unfold State.seqFreed
  simp only []
  split
  · exact all
  · exact all

/-- A sequencer that is DONE with nothing under way is IDLE (R213). -/
theorem seqr_seqIdle {k : Bool} (done : (s.seqr g k).st = .done) :
    ((s.seqIdle g k).seqr g k).st = if (s.seqr g k).flight = 0 then .idle else .done := by
  unfold State.seqIdle
  simp only [done, decide_true, Bool.true_and, decide_eq_true_eq]
  split
  · exact seqr_seqFreed_idle (by rw [State.seqr_updSeqr_self])
  · exact done

/-! ### The obligation -/

theorem exits_lanes (h : Plain s (.exit o) o ls) (hu : s.cur.unit = .lane) (calm : Calm s s.cur)
    (ready : ∀ l ∈ ls, (s.lane s.cur.g s.cur.slot l).live = true ∧ (s.lane s.cur.g s.cur.slot l).pc = s.cur.pc
      ∧ (s.lane s.cur.g s.cur.slot l).hold = .free) :
    (s.waveOf s.cur = none → ∀ b, s.blkOf s.cur = some b → Gives (.exit o) s (fun t => ExitLeave s t s.cur ls
      ∧ t.block s.cur.g b = ls.foldl (fun x l => x.entered (exitStatus s s.cur o l) (s.laneId s.cur l)) (s.blockOf s.cur)))
    ∧ ((s.waveOf s.cur).isSome = true →
      (∀ l ∈ ls, s.tlainBusy (s.threadOf s.cur l) 7 = false ∧ s.appendWaits (s.threadOf s.cur l) = false) →
      Gives (.exit o) s (fun t => ExitLeave s t s.cur ls)) := by
  have here := PlacesOf.of_issues h
  refine ⟨fun noWave b hb => ?_, fun wave prompt => ?_⟩
  · obtain ⟨v, alike, house, ids, body⟩ := exit_passes (o := o) hu calm here.nodup here.some_ ready (fun wave => by
      rw [noWave] at wave; simp at wave)
    obtain ⟨leaves, entered⟩ := leaves_blockExit (f := exitStatus s s.cur o) hu here.nodup
      (fun l hl => (alike.warp.hold l).trans (ready l hl).2.2) (house.blk.trans hb) (house.wave.trans noWave)
    simp only [noWave, Option.isSome_none, Bool.false_eq_true, if_false] at body
    obtain ⟨gone, blocks⟩ := exitLeave_finish hu (alike.leaves leaves) calm o.sw o.form.bytes ls
    refine ⟨_, does_of_go h rfl body, gone, ?_⟩
    rw [blocks, entered, house.blockOf]
    simp only [ids noWave]
  · obtain ⟨v, alike, house, ids, body⟩ := exit_passes (o := o) hu calm here.nodup here.some_ ready (fun _ => prompt)
    have leaves := leaves_taskExit (f := exitStatus s s.cur o) hu here.nodup (fun l hl => (alike.warp.hold l).trans (ready l hl).2.2)
    simp only [wave, if_true] at body
    exact ⟨_, does_of_go h rfl body, (exitLeave_finish hu (alike.leaves leaves) calm o.sw o.form.bytes ls).1⟩

theorem exits_spine (h : Plain s (.exit o) o ls) (hu : s.cur.unit = .spine) :
    Gives (.exit o) s (fun t => (t.spine s.cur.g s.cur.slot).live = false
      ∧ t.blockOf s.cur = { (s.blockOf s.cur).entered (exitStatus s s.cur o 0) (2 ^ 56) with spineSt := true }
      ∧ ∀ g k l, (t.lane g k l).live = (s.lane g k l).live) := by
  have body : exitBody s s.cur o ls = .go (s.spineExit s.cur (exitStatus s s.cur o 0)) ls := by simp only [exitBody, hu]
  obtain ⟨dead, block, live⟩ := spineExit_facts (s := s) hu (exitStatus s s.cur o 0)
  generalize s.spineExit s.cur (exitStatus s s.cur o 0) = u at body dead block live
  obtain ⟨frame, house, -, -, -⟩ := finish_keep (s := u) h.unit o.sw ls o.form.bytes ls (fun _ lane => by rw [hu] at lane; simp at lane)
  refine ⟨_, does_of_go h rfl body, ?_, by rw [house.blockOf, block], fun g k l => ?_⟩
  · have same := congrArg Spine.live frame.spine
    exact same.trans dead
  · rw [← live]
    by_cases here : g = s.cur.g
    · rw [here, State.lane, State.lane, frame.warps k (.inr (by rw [hu]; simp))]
    · rw [State.lane, State.lane, State.warp, State.warp, frame.others g here]

theorem exits_seq (h : Plain s (.exit o) o ls) (seq : s.cur.isSeq = true) :
    Gives (.exit o) s (fun t =>
      (t.seqr s.cur.g s.cur.isCopy).st = if (s.seqr s.cur.g s.cur.isCopy).flight = 0 then .idle else .done) := by
  generalize hv : s.updSeqr s.cur.g s.cur.isCopy (fun q => { q with st := .done, hold := .free }) = v
  have seqr : v.seqr s.cur.g s.cur.isCopy = { s.seqr s.cur.g s.cur.isCopy with st := .done, hold := .free } := by
    rw [← hv, State.seqr_updSeqr_self]
  have idle := seqr_seqIdle (s := v) (g := s.cur.g) (k := s.cur.isCopy) (by rw [seqr])
  have body : exitBody s s.cur o ls = .go (v.seqIdle s.cur.g s.cur.isCopy) ls := by
    rw [← hv]
    cases hu : s.cur.unit <;> simp [Issuer.isSeq, hu] at seq <;> simp only [exitBody, hu]
  have notLane : s.cur.unit ≠ .lane := by
    intro lane
    simp [Issuer.isSeq, lane] at seq
  obtain ⟨frame, -⟩ := finish_keep (s := v.seqIdle s.cur.g s.cur.isCopy) h.unit o.sw ls o.form.bytes ls (fun _ lane => absurd lane notLane)
  refine ⟨_, does_of_go h rfl body, ?_⟩
  rw [seqr] at idle
  rw [← idle]
  generalize v.seqIdle s.cur.g s.cur.isCopy = w at frame
  have mseq := congrArg Seqr.st frame.mseqRest
  have cseq := congrArg Seqr.st frame.cseqRest
  cases s.cur.isCopy
  · exact mseq
  · exact cseq

theorem ExitLeave.says (a : ExitLeave s t c ls) : (∀ l ∈ ls, (t.lane c.g c.slot l).live = false)
    ∧ (∀ k, k ≠ c.slot → ∀ l, (t.lane c.g k l).live = (s.lane c.g k l).live)
    ∧ ∀ n, n < 4 → (t.warp c.g c.slot).jm.get n 0 &&& lanesMask ls = 0 ∧ (t.warp c.g c.slot).jh.get n 0 &&& lanesMask ls = 0
      ∧ ∀ l, l < 32 → l ∉ ls → (s.lane c.g c.slot l).live = true → (t.lane c.g c.slot l).live = true
        ∧ (t.warp c.g c.slot).jm.get n 0 = (s.warp c.g c.slot).jm.get n 0 &&& ~~~lanesMask ls
        ∧ ∀ st, l ∉ c.places → (s.lane c.g c.slot l).hold = .rejoin n st →
          ((exitFreed (s.warp c.g c.slot) ls n).getLsbD l = true → t.holdOf c l = .free ∧ t.pcOf c l = s.pcOf c l + 8)
          ∧ ((exitFreed (s.warp c.g c.slot) ls n).getLsbD l = false → t.holdOf c l = s.holdOf c l ∧ t.pcOf c l = s.pcOf c l) :=
  ⟨a.dead, a.others, fun n hn => ⟨(a.masks n hn).1, (a.masks n hn).2, fun l hl out live =>
    ⟨(a.lives l hl out live).1, (a.lives l hl out live).2 n, fun st hp held =>
      ⟨a.goes n hn l st hl out live hp held, a.stays n hn l st hl out live hp held⟩⟩⟩⟩

/-- Settles O36: the lanes leave their masks with a release check of each, a context its block, and a sequencer its commands. -/
theorem exits : Obligations.Exits := by
  refine ⟨fun u x => ⟨fun h => exitForm_of_wf h, fun other short => decode_exit_illegal other short,
    decodes_of_encode rfl (by cases u <;> rfl) rfl⟩,
    fun s o ls h => ⟨fun hu calm ready => ?_, fun hu => exits_spine h hu, fun seq => exits_seq h seq⟩⟩
  obtain ⟨blocks, tasks⟩ := exits_lanes h hu calm ready
  refine ⟨fun noWave some_ => ?_, fun wave prompt => ?_⟩
  · obtain ⟨b, hb⟩ := Option.isSome_iff_exists.mp some_
    obtain ⟨t, gives, gone, block⟩ := blocks noWave b hb
    exact ⟨t, gives, gone.says, by rw [hb]; exact block⟩
  · obtain ⟨t, gives, gone⟩ := tasks wave prompt
    exact ⟨t, gives, gone.says⟩

end Sys2Proof.Machine
end

section
/-! PROOF. The vote, the boosts, the expiries and the delivery of causes. -/

namespace Sys2Proof.Machine

variable {s t : State} {c : Issuer} {g k : Nat}

/-! ### The vote (R94, R100, R101) -/

/-- The state in which a core has let its parked lanes go on and begun the counts of its idle warps anew (log 31). -/
def State.beforeVote (s : State) (g core : Nat) : State :=
  (((s.cl g).warps.filter (fun e => e.1 / 16 = core)).foldl (fun t e => t.unpark (warpIssuer g e.1)) s).restCount g core

/-- The cause that the chosen warp takes in place of issuing: one of its block, when it is the block's handler. -/
def State.voteTakes (s : State) (g w : Nat) : Option State :=
  match (s.warp g w).blk with
  | some b => if s.handler g b = some (warpIssuer g w) then s.deliverCause g b else none
  | none => none

/-- A core's vote puts the groups of a warp at their ports. -/
def State.voteIssues (s : State) (g core w : Nat) (rd : List Nat) : State :=
  let t := s.afterVote g core w rd ((s.voteGroups g w rd).flatMap Issuer.places)
  { t with ports := t.ports ++ s.voteGroups g w rd }

/-- A core without a warp to choose issues nothing. -/
theorem vote_none {core : Nat} (choice : (s.beforeVote g core).chooseWarp g core = none) : s.vote g core = s.beforeVote g core := by
  unfold State.vote
  simp only [← State.beforeVote.eq_1, choice]

/-- What a core does with the warp that it chooses. -/
theorem vote_some {core w : Nat} {rd : List Nat} (choice : (s.beforeVote g core).chooseWarp g core = some (w, rd)) :
    s.vote g core = ((s.beforeVote g core).voteTakes g w).getD ((s.beforeVote g core).voteIssues g core w rd) := by
  unfold State.vote
  simp only [← State.beforeVote.eq_1, choice]
  show (match (s.beforeVote g core).voteTakes g w with
    | some t => t
    | none => (s.beforeVote g core).voteIssues g core w rd) = _
  cases (s.beforeVote g core).voteTakes g w <;> rfl

theorem exec_issueVote (small : k < 4) (votes : s.vote g k = t) : exec (.issueVote g k) s = .next t := by
  rw [← votes]
  exact if_pos small

theorem deliverCause_none {b : Nat} (none : (s.block g b).causes = []) : s.deliverCause g b = Option.none := by
  unfold State.deliverCause
  rw [none]
  split <;> rfl

theorem voteTakes_none {w : Nat} (none : ∀ b, (s.warp g w).blk = some b → (s.block g b).causes = []) : s.voteTakes g w = Option.none := by
  unfold State.voteTakes
  split
  · next b hb =>
    split
    · exact deliverCause_none (none b hb)
    · rfl
  · rfl

theorem lane_afterVote_pc (core w : Nat) (rd issued : List Nat) (m : Nat) :
    ((s.afterVote g core w rd issued).lane g w m).pc = (s.lane g w m).pc := by
  unfold State.lane State.warp State.afterVote Map.get
  simp only [State.cl_updCl_self, Map.find?_mapv]
  cases (s.cl g).warps.find? w with
  | none => rfl
  | some x =>
    simp only [Option.map_some, ne_eq, not_true_eq_false, if_false, Warp.lane, Map.get, Map.find?_mapv]
    cases x.lanes.find? m with
    | none => rfl
    | some y => simp only [Option.map_some, Lane.afterVote]; split <;> rfl

/-- The vote moves nothing: the groups stand at their ports, where their lanes stand. -/
theorem voteIssues_facts (core w : Nat) (rd : List Nat) :
    (s.voteIssues g core w rd).ports = s.ports ++ s.voteGroups g w rd ∧ (s.voteIssues g core w rd).mem = s.mem
      ∧ ∀ m, ((s.voteIssues g core w rd).lane g w m).pc = (s.lane g w m).pc :=
  ⟨rfl, rfl, fun m => lane_afterVote_pc core w rd _ m⟩

/-- The first group of a vote is the primary one (R94). -/
theorem head_voteGroups (s : State) (g k : Nat) (rd : List Nat) :
    (s.voteGroups g k rd).head?.map (·.group) = some (lanesMask (s.firstGroup g k rd).1) := by
  unfold State.voteGroups
  simp only []
  split
  · rfl
  · split <;> rfl

/-! ### Causes (R293, R295) -/

/-- The oldest cause of a block that can be taken is delivered. -/
theorem exec_causeDelivery {x : Cause} {r : List Cause} (runs : (s.block g k).saving = false) (hc : (s.block g k).causes = x :: r)
    (takes : s.deliverOne g k 0 x = some t) : exec (.causeDelivery g k) s = .next t := by
  have delivered : s.deliverCause g k = some t := by
    unfold State.deliverCause
    rw [runs, hc]
    simp [List.zipIdx_cons, takes]
  show execCauseDelivery g k s = _
  rw [execCauseDelivery, delivered]
  rfl

/-! ### Expiries (R113, R301) -/

/-- A PAUSE that has lasted its time ends; a switch marker's lane stands at a switch point then. -/
theorem exec_pauseExpiry {l n : Nat} {sw : Bool} (hc : placeOf g k = c) (held : s.holdOf c l = .pause n sw)
    (due : n ≤ s.cycles (dieOf g)) : exec (.pauseExpiry g k l) s
      = .next (if sw = true ∧ c.unit = .lane then (s.setHold c l .free).switchPoint c [l] else s.setHold c l .free) := by
  show execPauseExpiry g k l s = _
  simp only [execPauseExpiry, hc, held, if_pos due, Bool.and_eq_true, decide_eq_true_eq]

/-- A wait that has lasted its time is abandoned, with those that have lasted as long. -/
theorem exec_waitTimeout {l kind n : Nat} (hc : placeOf g k = c) (timed : (s.holdOf c l).timed = some (kind, n))
    (runs : (s.blockOf c).saving = false) (wte : s.wte c = true) (late : l ∈ s.timedOut c l kind) :
    exec (.waitTimeout g k l) s = .next (s.abandon c (s.timedOut c l kind) kind) := by
  show execWaitTimeout g k l s = _
  simp only [execWaitTimeout, hc, timed, runs, wte]
  cases out : s.timedOut c l kind with
  | nil => rw [out] at late; exact absurd late List.not_mem_nil
  | cons a r =>
    rw [out] at late
    simp [late]

/-! ### The parties that take a cause (R293) -/

/-- A handler warp takes a cause in the lanes that its vote would issue, or that all wait. -/
theorem deliverOne_lane {x : Cause} {h : Issuer} {ls : List Nat} {b : Nat} (slot : x.slot = none) (handler : s.handler g b = some h)
    (lane : h.unit = .lane) (idle : (s.frameOf h).busy = false) (lanes : s.handlerLanes g h.slot = ls) (some_ : ls ≠ []) :
    s.deliverOne g b 0 x = some (s.deliverTo { h with group := lanesMask ls } b ls 0 x) := by
  obtain ⟨unit, hg, hs, hgroup, hpc⟩ := h
  subst lane
  simp only [State.deliverOne, slot, handler, idle, lanes]
  cases ls with
  | nil => exact absurd rfl some_
  | cons a r => rfl

/-- A context that nothing holds takes a cause. -/
theorem deliverOne_spine {x : Cause} {h : Issuer} {b : Nat} (slot : x.slot = none) (handler : s.handler g b = some h)
    (spine : h.unit = .spine) (idle : (s.frameOf h).busy = false) (free : (s.spine g h.slot).hold = .free) :
    s.deliverOne g b 0 x = some (s.deliverTo h b [0] 0 x) := by
  simp only [State.deliverOne, slot, handler, idle, spine, free]
  rfl

/-- Settles O45: each event by its own rule, past the checks that its premises answer. -/
theorem partyEvents : Obligations.PartyEvents := by
  intro s g k l u c now
  refine ⟨fun small w rd choice none_ => ?_, fun small w rd b t choice hb handler takes => ?_, fun small none_ => ?_,
    fun rd => ⟨rfl, head_voteGroups s g k rd⟩, fun ready late => ?_, fun ready starved => ?_, fun t held due => ?_,
    fun t sw held due => ?_, fun kind t timed runs wte late => ?_, fun prompt => ?_,
    fun x r h ls runs hc slot handler lane idle lanes some_ => ?_,
    fun x r h runs hc slot handler spine idle free => ?_, fun x r runs hc slot handler => ?_, fun x r w runs hc slot idle => ?_⟩
  · have issues := vote_some (s := s) (g := g) (core := k) choice
    have noCause : (s.beforeVote g k).voteTakes g w = none := voteTakes_none none_
    rw [noCause] at issues
    exact ⟨_, exec_issueVote small issues, voteIssues_facts k w rd⟩
  · have taken : (s.beforeVote g k).voteTakes g w = some t := by
      have handler : (s.beforeVote g k).handler g b = some (warpIssuer g w) := handler
      have hb : ((s.beforeVote g k).warp g w).blk = some b := hb
      simp only [State.voteTakes, hb, handler, if_true]
      exact takes
    have votes := vote_some (s := s) (g := g) (core := k) choice
    rw [taken] at votes
    exact exec_issueVote small votes
  · exact exec_issueVote small (vote_none none_)
  · exact if_pos (by simp [ready]; exact late)
  · exact if_pos (by simp [ready]; exact starved)
  · show execYieldExpiry g k l s = _
    simp only [execYieldExpiry, held]
    exact if_pos due
  · exact exec_pauseExpiry rfl held due
  · exact exec_waitTimeout rfl timed runs wte late
  · exact if_pos (by simp [prompt])
  · exact exec_causeDelivery runs hc (deliverOne_lane slot handler lane idle lanes some_)
  · exact exec_causeDelivery runs hc (deliverOne_spine slot handler spine idle free)
  · exact exec_causeDelivery runs hc (by simp only [State.deliverOne, slot, handler])
  · exact exec_causeDelivery runs hc (by simp only [State.deliverOne, slot, idle]; rfl)

end Sys2Proof.Machine
end

section
/-! PROOF. What is due to a lane that has committed its part of a result: a counterexample to the statements of O12 and O60. -/

namespace Sys2Proof.Machine

/-- A result for v3 has arrived, and lanes 0 and 1 have committed their parts of it at their switch point; lane 2, which stands
elsewhere, has not come to one. The result's writes stand in the warp until it does (R97, R98). -/
def partlyCommitted : State :=
  { cur := { unit := .lane, group := 3, pc := 0x80, len := 8 }
    clusters := [(0, {
      warps := [(0, {
        blk := some 0
        lanes := [(0, { live := true, pc := 0x80 }), (1, { live := true, pc := 0x80 }), (2, { live := true, pc := 0x40 })]
        pend := [{ lanes := 4, ready := true, writes := [⟨0, .v, 3, 7⟩, ⟨1, .v, 3, 7⟩, ⟨2, .v, 3, 7⟩] }] })]
      blocks := [(0, { img := { budget := 1 } })] })] }

/-- The state that an operation leaves. -/
def State.after (s : State) (i : Instr) : State :=
  match exec i s with
  | .next t => t
  | _ => s

theorem eq_after {s t : State} {i : Instr} (h : exec i s = .next t) : t = s.after i := by unfold State.after; rw [h]

theorem housed_partlyCommitted : Housed partlyCommitted partlyCommitted.cur := .inr (by decide +kernel)

def sumO : Ops := { d := 3, a := 2, b := 2 }

def predsO : Ops := { d := 3 }

/-- A sum issues: neither of its lanes has a result pending for v3. -/
theorem plain_iadd : Plain partlyCommitted (.iadd sumO) sumO [0, 1] where
  ops := rfl
  wf := by decide +kernel
  unit := .inl rfl
  early := by decide +kernel
  room _ _ := by decide +kernel
  active := by decide +kernel
  some_ := by simp
  hazard := by decide +kernel
  pegs := rfl

theorem plain_pmovTor : Plain partlyCommitted (.pmovTor predsO) predsO [0, 1] where
  ops := rfl
  wf := by decide +kernel
  unit := .inl rfl
  early := by decide +kernel
  room _ _ := by decide +kernel
  active := by decide +kernel
  some_ := by simp
  hazard := by decide +kernel
  pegs := rfl

/-- A sum in lane 0 is visible at once, and what is due to v3 is still the value that the lane has committed before. -/
theorem due_iadd (t : State) (h : exec (.iadd sumO) partlyCommitted = .next t) :
    t.reads partlyCommitted.cur .v 3 0 = 0 ∧ t.dueD partlyCommitted.cur sumO 0 0 0 = 7 := by
  rw [eq_after h]
  decide +kernel

/-- So it is with the predicates that PMOV.TOR writes. -/
theorem due_pmovTor (t : State) (h : exec (.pmovTor predsO) partlyCommitted = .next t) :
    t.reads partlyCommitted.cur .v 3 0 = 0 ∧ t.dueD partlyCommitted.cur predsO 0 0 0 = 7 := by
  rw [eq_after h]
  decide +kernel

/-- Refutes O60: an IADD of two zeros in lanes 0 and 1, which have committed an older result for v3 that lane 2 has not. State.due
counts the older result's writes for every lane, also those that are committed, so what is due to v3 in lane 0 is 7 and not the sum. -/
theorem not_sumSelectTable : ¬ Obligations.SumSelectTable := by
  intro h
  obtain ⟨values, -⟩ := h
  obtain ⟨table, -⟩ := values partlyCommitted (.iadd sumO) sumO [0, 1] partlyCommitted [] plain_iadd housed_partlyCommitted
    (fun on => absurd on (by decide))
  obtain ⟨t, exec, due⟩ := table _ rfl
  have sum : t.dueD partlyCommitted.cur sumO 0 0 0 = _ := due 0 (by decide +kernel) (by decide +kernel)
  rw [(due_iadd t exec).2] at sum
  exact absurd sum (by decide +kernel)

/-- Refutes O12: a PMOV.TOR in lanes 0 and 1, whose predicates are clear and which have committed an older result for v3 that lane 2
has not: as for O60, what State.due gives for v3 in lane 0 is 7 and not the predicates. -/
theorem not_predicatesFromRegister : ¬ Obligations.PredicatesFromRegister := by
  intro h
  obtain ⟨-, values⟩ := h
  obtain ⟨moves, -⟩ := values partlyCommitted (.pmovTor predsO) predsO [0, 1] partlyCommitted [] plain_pmovTor housed_partlyCommitted
    (fun on => absurd on (by decide))
  obtain ⟨t, exec, due⟩ := moves rfl
  have bits := due 0 (by decide +kernel) (by decide +kernel)
  rw [(due_pmovTor t exec).2] at bits
  exact absurd bits (by decide +kernel)

end Sys2Proof.Machine
end
